-- ==== Sys2Proof/Word.lean ====
section
/-! DEFINITION. The words of the machine: bytes, 32-bit lanes and 64-bit scalars (00 R4, 10 R177). -/

namespace Sys2Proof

/-- A byte of memory. -/
abbrev Byte := BitVec 8

/-- A 32-bit word: one lane of a vector register, an extension word (00 R4, 16 R249). -/
abbrev Word := BitVec 32

/-- A 64-bit word: one copy of a scalar register, a memory-mapped register (00 R4, 03 R49). -/
abbrev DWord := BitVec 64

/-- A 7-bit register field of the first word (16 R247, Table 16-1). -/
abbrev Reg := BitVec 7

end Sys2Proof
end

