-- ==== Sys2Proof/Syntax.lean ====
section
/-! DEFINITION. The syntax of the operations table: one constructor of `Instr` for each row, 173 encoded
instructions (chapters 16 to 22) and 84 events of the part (chapters 01 to 07, 95_what_each_step_holds). -/

namespace Sys2Proof

/-- Element type codes of Table 8-4 (08 R149); an alphabet code names register a0 to a15. -/
inductive Ty where
  | n8 | i8 | n16 | i16 | n32 | i32 | n64 | i64
  | f32 | f16 | b16 | f8e4 | f8e5 | f4e2
  | bx8 | bx4 | qa8 | qa4
  | alpha (n : BitVec 4)
deriving DecidableEq, Repr

/-- A guard: g0 to g7, and GN = 1 for the negated form (14 R236). -/
structure Guard where
  g : BitVec 3
  neg : Bool
deriving DecidableEq, Repr

/-- The issue-control fields of every first word (16 R247): STALL, Y, the FE bits of fields A, B, C
(bits 0, 1, 2) and the guard. -/
structure Ctl where
  stall : BitVec 4
  y : Bool
  fe : BitVec 3
  guard : Option Guard
deriving DecidableEq, Repr

/-- A source that is a register in the 64-bit form and X1 in the 96-bit form (16 R250, mark "i"). -/
inductive Src where
  | reg (r : Reg)
  | imm (x : Word)
deriving DecidableEq, Repr

/-- The offset of a bracketed address: none in the 64-bit form, X1 in the 96-bit form (16 R250, mark "o"). -/
abbrev Off := Option Word

/-- Instruction lengths (16 R245). -/
inductive Len where
  | l64 | l96 | l128
deriving DecidableEq, Repr

/-- Branch conditions of Table 17-1 (17 R263). -/
inductive BrCond where
  | z | nz | ltz | gez | gtz | lez
deriving DecidableEq, Repr

/-- Scalar compare conditions of Table 17-7 (17 R275). -/
inductive SCond where
  | eq | ne | lt | le | gt | ge | ltu | leu | gtu | geu
deriving DecidableEq, Repr

/-- The immediate of SMOVI: the 96-bit and the 128-bit form (17 R276). -/
inductive SImm where
  | short (x1 : Word)
  | long (x : DWord)
deriving DecidableEq, Repr

/-- TYPE of VCMP, VREDA, VSCAN, ATS and ATOM (18 Tables 18-2, 18-9; 19 Table 19-2; 21 R341). -/
inductive LTy where
  | i32 | n32 | f32
deriving DecidableEq, Repr

/-- TYPE of ATOMS (21 R341). -/
inductive STy where
  | i64 | n64 | i32 | n32
deriving DecidableEq, Repr

/-- Vector compare conditions of Table 18-3 (18 R286). -/
inductive VCond where
  | eq | ne | lt | le | gt | ge | un
deriving DecidableEq, Repr

/-- Segment widths 2, 4, 8, 16, 32 of Table 18-7 (18 R294). -/
inductive Seg where
  | w2 | w4 | w8 | w16 | w32
deriving DecidableEq, Repr

/-- Kinds of GSHF (18 Table 18-8). -/
inductive GKind where
  | up | dn | x | bc
deriving DecidableEq, Repr

/-- Kinds of VOTE (18 R296). -/
inductive VoteKind where
  | ballot | any | all | count
deriving DecidableEq, Repr

/-- Operations of VREDA and VSCAN (18 Table 18-9). -/
inductive RedOp where
  | add | min | max | and | or | xor
deriving DecidableEq, Repr

/-- Operations of ATS, ATOM and ATOMS (19 Table 19-2, 21 Table 21-6). -/
inductive AtOp where
  | add | min | max | and | or | xor | swap | cas
deriving DecidableEq, Repr

/-- FORM of ATOM and ATOMS (21 Table 21-6). -/
inductive AtForm where
  | plain | acq | rel | ar
deriving DecidableEq, Repr

/-- Fields that LAYSET sets (19 Table 19-3). -/
inductive LayFld where
  | base | mode | etype | s1 | s2 | s3 | adv
deriving DecidableEq, Repr

/-- KIND and GS of MXSC (20 Table 20-2). -/
inductive MxScale where
  | bx | qa32 | qa64 | qa128 | none
deriving DecidableEq, Repr

/-- Engine classes of Table 9-2 (09 R165). -/
inductive Cls where
  | copy | gather | atomic | matrix | collective
deriving DecidableEq, Repr

/-- FORM of CSTAT (21 Table 21-3). -/
inductive StatForm where
  | cnt | raise | ring
deriving DecidableEq, Repr

/-- X1 of GATH and SCAT (21 R338). -/
structure GathX where
  scale : BitVec 20
  row : Bool
  rl : BitVec 11
deriving DecidableEq, Repr

/-- X1 of HGLD, HGSC and HGFOLD: slot, l0 and n - 1 (21 Table 21-5). -/
structure SmkX where
  slot : BitVec 4
  l0 : BitVec 5
  n1 : BitVec 5
deriving DecidableEq, Repr

/-- The state that FEMARK sets (22 R357). -/
inductive FeState where
  | full | empty | poison
deriving DecidableEq, Repr

/-- Why the decoder refuses a word (16 R245, R248, R254, R255). Each of these traps with ILLEGAL. -/
inductive DecodeError where
  | lengthZero | unassignedOp | lengthRefused | registerField | feBit | modBit | subValue | extensionBits
  | guardField | guardNegate | guardRefused | truncated | typeRefused | operandRange
deriving DecidableEq, Repr

/-! ## Operands of events -/

/-- The two host ports (03 R48, 04 R66). -/
inductive Port where
  | a | b
deriving DecidableEq, Repr

/-- A firmware image (05 R97): its security version, its bytes, and the signature over the digest of both. -/
structure Image where
  version : Nat
  bytes : List Byte
  signature : List Byte
deriving DecidableEq, Repr

/-- A read of SEM_ACQn: the number n, and the half that a 4-byte read names, the upper one if true (03 R49, 04 R67). -/
structure SemRead where
  n : BitVec 5
  half : Option Bool
deriving DecidableEq, Repr

/-- The slots of the module flash (05 R97). -/
structure Firmware where
  slot0 : Option Image
  slot1 : Option Image
deriving DecidableEq, Repr

/-- One 1 ms sample of the sensors, in signed degrees: the inlet and one junction of each die, H0 to H11 in `hbm` (01
R15). -/
structure Temps where
  inlet : Int
  cd0 : Int
  cd1 : Int
  cd2 : Int
  cd3 : Int
  iod : Int
  hbm : Vector Int 12
deriving DecidableEq, Repr

/-- The gusset counters of Table 2-5 (02 R42). -/
inductive GusCounter where
  | corr | uncorr | recon | rfail | subst | openwait | nocmp
deriving DecidableEq, Repr

/-- The XL counters of Table 3-4 (03 R56). -/
inductive XlCounter where
  | bypass | retry | dup | late
deriving DecidableEq, Repr

/-- How a response to an outstanding request ends: its bytes, or a status of Table 4-7 (03 R54, R63). -/
inductive PeerReply where
  | data (bytes : List Byte)
  | failed (code : BitVec 8)
deriving DecidableEq, Repr

/-- The formats of combining puts (03 R57). -/
inductive TileFmt where
  | f32 | i32 | i64
deriving DecidableEq, Repr

/-- A combining tile: its key (03 R57) and its elements, with who contributed: command and piece. -/
structure Tile where
  da : Nat
  fmt : TileFmt
  count : Nat
  bytes : List Byte
  src : List (Nat × Nat)
  arrivals : Nat
deriving DecidableEq, Repr

/-- What an arriving request asks (03 R54, R55, R62); a write leaves the bytes that its mask leaves out. -/
inductive PeerAsk where
  | read (da len : Nat)
  | write (da : Nat) (bytes : List (Option Byte))
  | atom (da : Nat) (op : AtOp) (wide sgn flt : Bool) (operand comparand : DWord)
  | combine (t : Tile)
deriving DecidableEq, Repr

/-- An arriving UALink request (03 R54, R62). -/
structure PeerReqIn where
  dev : Nat
  port : Nat
  tag : Option (BitVec 16)
  ask : PeerAsk
deriving DecidableEq, Repr

/-- A fault record's fields (05 Table 5-4); TIME is added when it is written. -/
structure FaultRec where
  grade : Nat
  source : BitVec 8
  code : BitVec 16
  queue : BitVec 8
  part : BitVec 8
  core : BitVec 16
  index : BitVec 32
  asid : BitVec 16
  stack : BitVec 8
  port : BitVec 8
  detail : DWord
deriving DecidableEq, Repr

/-- The size of a BAR0 access (03 R49). -/
inductive AccSize where
  | four | eight
  | other (bytes : Nat)
deriving DecidableEq, Repr

/-- The rows of spec/opcode_table.json, one constructor each. Encoded instructions carry their issue-control
fields and operands; events carry who acts and with what value. -/
inductive Instr where
  -- Resets, power and cooling (chapter 01)
  | portReset (p : Port)
  | deviceResetRequest (p : Port)
  | mgPwrCapWrite (p : Port) (v : DWord)
  -- Stacked memory (chapter 02)
  | granuleRead (cmd k : Nat) (buffered : Bool)
  | granuleReconstruct (cmd k : Nat)
  | stripeWrite (cmd k : Nat)
  | subGranuleWrite (cmd k : Nat)
  | stackRetrainFail (stack : Nat)
  | gusDeclareWrite (p : Port) (v : DWord)
  | gusCounterClear (c : GusCounter)
  | gusXpoolWrite (p : Port) (v : DWord)
  | compressPacket (q : BitVec 8) (i : Word)
  | pageExpand (cmd k : Nat)
  -- Links (chapter 03)
  | bar2Read (p : Port) (off len : Nat)
  | bar2Write (p : Port) (off : Nat) (bytes : List Byte)
  | registerWrite (p : Port) (off : Nat) (size : AccSize) (v : DWord)
  | hostLinkDown (p : Port)
  | xlCfgWrite (p : Port) (v : DWord)
  | xlTimeoutWrite (p : Port) (v : DWord)
  | xlCounterClear (c : XlCounter)
  | ualLinkUp (n dev port domain : Nat)
  | ualLinkDown (n : Nat)
  | peerRequest (r : PeerReqIn)
  | peerResponse (req : Nat) (r : PeerReply)
  | requestTimeout (req : Nat)
  | tileArrive (station : Option Nat) (t : Tile)
  | pleatEntryTimeout (table entry : Nat)
  | serviceGangOp (cmd k : Nat)
  | stepAck (cmd step : Nat)
  | stepRetry (cmd step : Nat)
  -- Host commands (chapter 04)
  | semAcquire (p : Port) (r : SemRead)
  | semRelease (p : Port) (n : BitVec 5) (v : DWord)
  | hqTailWrite (q : BitVec 8) (v : DWord)
  | hqEnable (q : BitVec 8) (v : DWord)
  | hqDisable (q : BitVec 8) (v : DWord)
  | hqStop (q : BitVec 8) (v : DWord)
  | hqRecover (q : BitVec 8) (v : DWord)
  | packetFetch (q : BitVec 8)
  | nopPacket (q : BitVec 8) (i : Word)
  | launchPacket (q : BitVec 8) (i : Word)
  | copyPacket (q : BitVec 8) (i : Word)
  | waitPacket (q : BitVec 8) (i : Word)
  | waitPoll (q : BitVec 8) (i : Word)
  | signalPacket (q : BitVec 8) (i : Word)
  | fencePacket (q : BitVec 8) (i : Word)
  | setprioPacket (q : BitVec 8) (i : Word)
  | tableWalk (cmd k : Nat)
  | hqFqRespWrite (p : Port) (v : DWord)
  | hqInvalWrite (p : Port) (v : DWord)
  -- Health and management (chapters 05, 06)
  | faultRecordWrite (r : FaultRec)
  | mgG4ClearWrite (p : Port) (v : DWord)
  | drainSet (part : BitVec 3)
  | drainClear (part : BitVec 3)
  | mgPartClusWrite (part : BitVec 3) (v : DWord)
  | preemptHalt (part : BitVec 3) (v : DWord)
  | preemptResume (part : BitVec 3) (v : DWord)
  | attestationStart (p : Port) (v : DWord)
  -- Scheduler (chapter 06)
  | dispatch (part : BitVec 3)
  | preemptCheck (part : BitVec 3)
  | drainVictimTimeout (pid : Nat)
  | panelSaveLining (pid : Nat)
  | panelSaveMem (pid : Nat)
  | panelFlush (pid : Nat)
  | panelRetire (pid : Nat)
  | panelWritebackDone (pid : Nat)
  -- Execution (chapters 07, 16, 21)
  | activeSetSwap (core pos : Nat)
  | codeFetch (pid window : Nat)
  | ringConsume (pid : Nat)
  | commandComplete (cmd : Nat)
  | sleepWake (pid gang entry : Nat)
  -- Control, scalar and system (chapter 17)
  | nop (c : Ctl) (len : Len)
  | bra (c : Ctl) (x1 : Word)
  | brx (c : Ctl) (a : Reg) (x1 : Word)
  | brs (c : Ctl) (cond : BrCond) (a : Reg) (x1 x2 : Word)
  | brv (c : Ctl) (cond : BrCond) (a : Reg) (x1 x2 : Word)
  | call (c : Ctl) (x1 : Word)
  | ret (c : Ctl) (a : Reg)
  | regang (c : Ctl)
  | exit (c : Ctl)
  | ifMask (c : Ctl) (a : Reg)
  | elseMask (c : Ctl)
  | endif (c : Ctl)
  | loop (c : Ctl)
  | endloop (c : Ctl) (x1 : Word)
  | breakMask (c : Ctl) (a : Reg) (k : BitVec 8)
  | contMask (c : Ctl) (a : Reg) (k : BitVec 8)
  | yield (c : Ctl)
  | sleep (c : Ctl) (n : BitVec 20)
  | trap (c : Ctl) (code : BitVec 8)
  | rett (c : Ctl)
  | brk (c : Ctl) (code : BitVec 8)
  | srd (c : Ctl) (d : Reg) (num : BitVec 12)
  | swr (c : Ctl) (a : Reg) (num : BitVec 12)
  | clk (c : Ctl) (d : Reg)
  | perf (c : Ctl) (d : Reg) (ev : BitVec 8)
  | sadd (c : Ctl) (d a : Reg) (b : Src)
  | ssub (c : Ctl) (d a : Reg) (b : Src)
  | smul (c : Ctl) (d a : Reg) (b : Src)
  | smulh (c : Ctl) (u : Bool) (d a : Reg) (b : Src)
  | sdiv (c : Ctl) (u : Bool) (d a : Reg) (b : Src)
  | srem (c : Ctl) (u : Bool) (d a : Reg) (b : Src)
  | sand (c : Ctl) (d a : Reg) (b : Src)
  | sor (c : Ctl) (d a : Reg) (b : Src)
  | sxor (c : Ctl) (d a : Reg) (b : Src)
  | sshl (c : Ctl) (d a : Reg) (b : Src)
  | sshr (c : Ctl) (d a : Reg) (b : Src)
  | ssra (c : Ctl) (d a : Reg) (b : Src)
  | smin (c : Ctl) (u : Bool) (d a : Reg) (b : Src)
  | smax (c : Ctl) (u : Bool) (d a : Reg) (b : Src)
  | scmp (c : Ctl) (cond : SCond) (d a : Reg) (b : Src)
  | ssel (c : Ctl) (d a b cc : Reg)
  | smov (c : Ctl) (d a : Reg)
  | smovi (c : Ctl) (d : Reg) (x : SImm)
  | sclz (c : Ctl) (d a : Reg)
  | spopc (c : Ctl) (d a : Reg)
  | sbfx (c : Ctl) (sgn : Bool) (d a : Reg) (pos : BitVec 6) (wid : BitVec 7)
  | sbfi (c : Ctl) (d a : Reg) (pos : BitVec 6) (wid : BitVec 7)
  | sld (c : Ctl) (t : Ty) (d a : Reg) (off : Off)
  | sst (c : Ctl) (t : Ty) (a b : Reg) (off : Off)
  | slda (c : Ctl) (wide : Bool) (add : BitVec 6) (d a : Reg) (off : Off)
  -- Vector integer, move, float, convert (chapter 18)
  | vadd (c : Ctl) (t : Ty) (d a : Reg) (b : Src)
  | vsub (c : Ctl) (t : Ty) (d a : Reg) (b : Src)
  | vmul (c : Ctl) (t : Ty) (d a : Reg) (b : Src)
  | vmulh (c : Ctl) (t : Ty) (d a : Reg) (b : Src)
  | vmad (c : Ctl) (t : Ty) (d a b cc : Reg)
  | vadds (c : Ctl) (t : Ty) (d a : Reg) (b : Src)
  | vsubs (c : Ctl) (t : Ty) (d a : Reg) (b : Src)
  | vand (c : Ctl) (d a : Reg) (b : Src)
  | vor (c : Ctl) (d a : Reg) (b : Src)
  | vxor (c : Ctl) (d a : Reg) (b : Src)
  | vnot (c : Ctl) (d a : Reg)
  | vshl (c : Ctl) (t : Ty) (d a : Reg) (b : Src)
  | vshr (c : Ctl) (t : Ty) (d a : Reg) (b : Src)
  | vsra (c : Ctl) (t : Ty) (d a : Reg) (b : Src)
  | vmin (c : Ctl) (t : Ty) (d a : Reg) (b : Src)
  | vmax (c : Ctl) (t : Ty) (d a : Reg) (b : Src)
  | vabs (c : Ctl) (t : Ty) (d a : Reg)
  | vneg (c : Ctl) (t : Ty) (d a : Reg)
  | vclz (c : Ctl) (t : Ty) (d a : Reg)
  | vpopc (c : Ctl) (t : Ty) (d a : Reg)
  | vbfx (c : Ctl) (sgn : Bool) (d a : Reg) (pos : BitVec 5) (wid : BitVec 6)
  | vbfi (c : Ctl) (d a : Reg) (pos : BitVec 5) (wid : BitVec 6)
  | vaddc (c : Ctl) (t : Ty) (d a b cc : Reg)
  | vmov (c : Ctl) (d a : Reg)
  | vbcast (c : Ctl) (d : Reg) (a : Src)
  | vlid (c : Ctl) (d : Reg)
  | vsel (c : Ctl) (d a b cc : Reg)
  | vcmp (c : Ctl) (t : LTy) (cond : VCond) (d a : Reg) (b : Src)
  | vmask (c : Ctl) (d a : Reg)
  | fadd (c : Ctl) (t : Ty) (d a : Reg) (b : Src)
  | fsub (c : Ctl) (t : Ty) (d a : Reg) (b : Src)
  | fmul (c : Ctl) (t : Ty) (d a : Reg) (b : Src)
  | ffma (c : Ctl) (t : Ty) (d a b cc : Reg)
  | fmin (c : Ctl) (t : Ty) (d a : Reg) (b : Src)
  | fmax (c : Ctl) (t : Ty) (d a : Reg) (b : Src)
  | fabs (c : Ctl) (t : Ty) (d a : Reg)
  | fneg (c : Ctl) (t : Ty) (d a : Reg)
  | fdiv (c : Ctl) (t : Ty) (d a : Reg) (b : Src)
  | frcp (c : Ctl) (t : Ty) (d a : Reg)
  | frsq (c : Ctl) (t : Ty) (d a : Reg)
  | fsqrt (c : Ctl) (t : Ty) (d a : Reg)
  | fexp2 (c : Ctl) (t : Ty) (d a : Reg)
  | flog2 (c : Ctl) (t : Ty) (d a : Reg)
  | ffloor (c : Ctl) (t : Ty) (d a : Reg)
  | ffrac (c : Ctl) (t : Ty) (d a : Reg)
  | fscale (c : Ctl) (t : Ty) (d a : Reg) (b : Src)
  | fclass (c : Ctl) (t : Ty) (d a : Reg)
  | cvt (c : Ctl) (dt : Ty) (d a : Reg) (st : Ty) (part : BitVec 3)
  | cvti (c : Ctl) (dt : Ty) (d a : Reg) (st : Ty) (part : BitVec 3) (sat : Bool)
  | cvtf (c : Ctl) (dt : Ty) (d a : Reg) (st : Ty) (part : BitVec 3)
  | cvtbx (c : Ctl) (dt : Ty) (d a b : Reg) (st : Ty) (part : BitVec 3) (delta : BitVec 4)
  | shfi (c : Ctl) (seg : Seg) (d a : Reg) (b : Src)
  | shfu (c : Ctl) (seg : Seg) (d a : Reg) (b : Src)
  | shfd (c : Ctl) (seg : Seg) (d a : Reg) (b : Src)
  | shfx (c : Ctl) (seg : Seg) (d a : Reg) (b : Src)
  | gshf (c : Ctl) (kind : GKind) (width : BitVec 2) (delta : BitVec 4) (d a : Reg)
  | vote (c : Ctl) (kind : VoteKind) (d a : Reg)
  | vreda (c : Ctl) (t : LTy) (op : RedOp) (d a : Reg)
  | vscan (c : Ctl) (ex : Bool) (t : LTy) (op : RedOp) (d a : Reg)
  -- Alphabets and scratchpad (chapter 19)
  | aldef (c : Ctl) (d a : Reg) (off : Off)
  | alrd (c : Ctl) (d a : Reg) (word : BitVec 2)
  | unpk (c : Ctl) (sym : Bool) (an : BitVec 4) (d a : Reg) (first : Word)
  | pack (c : Ctl) (sym : Bool) (an : BitVec 4) (d a : Reg) (first : Word)
  | symx (c : Ctl) (sym : Bool) (an : BitVec 4) (d a b : Reg)
  | symi (c : Ctl) (sym : Bool) (an : BitVec 4) (d a b cc : Reg)
  | symld (c : Ctl) (sym : Bool) (an : BitVec 4) (d a b : Reg)
  | symst (c : Ctl) (sym : Bool) (an : BitVec 4) (a b cc : Reg)
  | dota (c : Ctl) (acc : Bool) (an am : BitVec 4) (d a b : Reg) (nmax : BitVec 8)
  | valc (c : Ctl) (an : BitVec 4) (d a : Reg)
  | ld (c : Ctl) (t : Ty) (d a : Reg) (off : Off)
  | st (c : Ctl) (t : Ty) (a b : Reg) (off : Off)
  | ldt (c : Ctl) (t : Ty) (d a b : Reg)
  | stt (c : Ctl) (t : Ty) (a b cc : Reg)
  | ldb (c : Ctl) (t : Ty) (d a : Reg) (off : Off)
  | ats (c : Ctl) (ret : Bool) (t : LTy) (op : AtOp) (d a b : Reg) (off : Off)
  | trtw (c : Ctl) (a b : Reg)
  | trtr (c : Ctl) (d a : Reg)
  | layset (c : Ctl) (fld : LayFld) (d a : Reg) (x1 : Word)
  -- Matrix (chapter 20)
  | mxz (c : Ctl) (first count : BitVec 12)
  | mma (c : Ctl) (ta tb : BitVec 4) (keepb ck : Bool) (d a b cc : Reg)
  | mxrd (c : Ctl) (toReg : Bool) (t : Ty) (d : Reg) (first count : BitVec 12)
  | mxwr (c : Ctl) (t : Ty) (a : Reg) (first count : BitVec 12)
  | mxsc (c : Ctl) (opB : Bool) (kind : MxScale) (a b : Reg)
  | mxck (c : Ctl) (clr : Bool) (d : Reg)
  | mxil (c : Ctl) (t : Ty) (a : Reg) (krows : BitVec 10)
  -- Engine commands (chapters 21, 12)
  | cpyq (c : Ctl) (a : Reg)
  | cpypub (c : Ctl)
  | cseal (c : Ctl) (cls : Cls)
  | cwait (c : Ctl) (cls : Cls) (n : BitVec 6)
  | cstat (c : Ctl) (form : StatForm) (cls : Cls) (d : Reg)
  | gath (c : Ctl) (t : Ty) (d a : Reg) (x : GathX)
  | scat (c : Ctl) (t : Ty) (a b : Reg) (x : GathX)
  | hgcfg (c : Ctl) (a : Reg) (slot : BitVec 4)
  | hgld (c : Ctl) (d a : Reg) (x : SmkX)
  | hgsc (c : Ctl) (a b : Reg) (x : SmkX)
  | hgfold (c : Ctl) (zero : Bool) (a : Reg) (x : SmkX)
  | hgidx (c : Ctl) (d a : Reg) (slot : BitVec 4) (level : BitVec 5) (corner : BitVec 8)
  | atom (c : Ctl) (form : AtForm) (t : LTy) (op : AtOp) (scope : BitVec 3) (ret : Bool) (d a b cc : Reg)
  | atoms (c : Ctl) (form : AtForm) (t : STy) (op : AtOp) (scope : BitVec 3) (ret : Bool) (a b : Reg) (off : Off)
  -- Synchronisation, registers, containment (chapter 22)
  | join (c : Ctl) (slot : BitVec 4)
  | leave (c : Ctl) (slot : BitVec 4)
  | seambar (c : Ctl) (slot : BitVec 4)
  | barw (c : Ctl) (b : BitVec 4) (n : BitVec 6)
  | slvinit (c : Ctl) (n : BitVec 4) (a : Reg)
  | slvpush (c : Ctl) (n : BitVec 4) (a : Reg)
  | slvpop (c : Ctl) (n : BitVec 4) (d : Reg)
  | slvtry (c : Ctl) (n : BitVec 4) (d : Reg)
  | slvgrant (c : Ctl) (n : BitVec 4)
  | phaseAcq (c : Ctl) (scope : BitVec 3)
  | phaseRel (c : Ctl) (scope : BitVec 3)
  | phaseAr (c : Ctl) (scope : BitVec 3)
  | fence (c : Ctl) (mask : BitVec 5)
  | fewait (c : Ctl) (a : Reg)
  | femark (c : Ctl) (st : FeState) (d : Reg)
  | rgnLo (c : Ctl) (mask : Word)
  | rgnHi (c : Ctl) (mask : Word)
  | spill (c : Ctl) (a : Reg) (slot : BitVec 9)
  | fill (c : Ctl) (d : Reg) (slot : BitVec 9)
  | ftag (c : Ctl) (d a : Reg)
  | ctnopen (c : Ctl) (x1 : Word)
  | ctnclose (c : Ctl)
  | ctnraise (c : Ctl) (code : BitVec 8)
  | tidset (c : Ctl) (id : BitVec 12)
  -- The last rows of the table
  | stagingComplete (pid : Nat)
  | hostPortLinkUp (p : Port)
  -- Rows with no operand (the compiler takes at most 245 constructors that hold fields, so these stand last)
  | deviceResetDone
  | coldReset
  | powerSample
  | aclkRaiseTick
  | aclkFloorTimeout
  | thermalSample
  | stackLoss
  | invalidateDone
  | mgFrLostClear
  | healthRefresh
  | attestationDone
  | unassignedEncoding
deriving DecidableEq, Repr

end Sys2Proof
end

