-- ==== Sys2Proof/Machine/Legal.lean ====
section
/-! DEFINITION. Which instructions the hardware accepts at issue: guards, FE bits, element types and operand
values (16 R248, R251, R252, R254, and each instruction's own statement). Everything refused here traps with
ILLEGAL; what depends on the machine's state (declared registers, alphabets, layouts) is checked by the meanings. -/

namespace Sys2Proof

/-! ## Type codes (08 Table 8-4) -/

/-- The 8-bit code of an element type (08 R149 Table 8-4). -/
def Ty.code : Ty → Nat
  | .n8 => 0x00 | .i8 => 0x01 | .n16 => 0x02 | .i16 => 0x03
  | .n32 => 0x04 | .i32 => 0x05 | .n64 => 0x06 | .i64 => 0x07
  | .f32 => 0x10 | .f16 => 0x11 | .b16 => 0x12 | .f8e4 => 0x13 | .f8e5 => 0x14 | .f4e2 => 0x15
  | .bx8 => 0x18 | .bx4 => 0x19 | .qa8 => 0x1A | .qa4 => 0x1B
  | .alpha n => 0x20 + n.toNat

/-- The element type a code names; every other code is refused (08 R149, 16 R254). -/
def Ty.ofCode (c : Nat) : Option Ty :=
  if 0x20 ≤ c ∧ c < 0x30 then some (.alpha (BitVec.ofNat 4 (c - 0x20)))
  else match c with
    | 0x00 => some .n8 | 0x01 => some .i8 | 0x02 => some .n16 | 0x03 => some .i16
    | 0x04 => some .n32 | 0x05 => some .i32 | 0x06 => some .n64 | 0x07 => some .i64
    | 0x10 => some .f32 | 0x11 => some .f16 | 0x12 => some .b16 | 0x13 => some .f8e4
    | 0x14 => some .f8e5 | 0x15 => some .f4e2
    | 0x18 => some .bx8 | 0x19 => some .bx4 | 0x1A => some .qa8 | 0x1B => some .qa4
    | _ => none

/-- The integer codes 0x00 to 0x05, N8 to I32 (18 R283). -/
def Ty.isInt32 : Ty → Bool
  | .n8 | .i8 | .n16 | .i16 | .n32 | .i32 => true
  | _ => false

/-- The integer codes 0x00 to 0x07 (17 R277). -/
def Ty.isInt : Ty → Bool
  | .n64 | .i64 => true
  | t => t.isInt32

/-- The signed integer types. -/
def Ty.isSigned : Ty → Bool
  | .i8 | .i16 | .i32 | .i64 => true
  | _ => false

/-- F32, F16 and B16, the types of the float instructions (18 R287). -/
def Ty.isFloat3 : Ty → Bool
  | .f32 | .f16 | .b16 => true
  | _ => false

/-- The float codes 0x10 to 0x15 (18 R292). -/
def Ty.isFloat : Ty → Bool
  | .f8e4 | .f8e5 | .f4e2 => true
  | t => t.isFloat3

/-- The alphabet codes 0x20 to 0x2F (16 R254). -/
def Ty.isAlpha : Ty → Bool
  | .alpha _ => true
  | _ => false

/-- Elements per 32-bit lane, n(T) (18 R282); 0 for the types a lane does not pack. -/
def Ty.perLane : Ty → Nat
  | .n32 | .i32 | .f32 => 1
  | .n16 | .i16 | .f16 | .b16 => 2
  | .n8 | .i8 | .f8e4 | .f8e5 | .bx8 => 4
  | .f4e2 | .bx4 => 8
  | _ => 0

/-- The reason to refuse an instruction when a condition of its statement does not hold. -/
def need (c : Bool) (e : DecodeError) : Option DecodeError := if c then none else some e

/-- The first of two reasons to refuse. -/
def orElseErr (a b : Option DecodeError) : Option DecodeError :=
  match a with
  | some e => some e
  | none => b

/-- Bits [1:0] of a branch offset are zero (16 R251). -/
def offsetOk (x : Word) : Bool := x.toNat % 4 == 0

/-- FE bits for register fields A, B and C (16 Table 16-1). -/
abbrev feA : BitVec 3 := 1#3
abbrev feB : BitVec 3 := 2#3
abbrev feC : BitVec 3 := 4#3

/-- FE bits of a two-source vector instruction: field B counts only in the register form (16 R248, R250). -/
def feAB (b : Src) : BitVec 3 :=
  match b with
  | .reg _ => feA ||| feB
  | .imm _ => feA

/-- PART is below the ratio of the wider to the narrower side (18 R291). -/
def partOk (dt st : Ty) (part : BitVec 3) : Bool :=
  let nd := dt.perLane
  let ns := st.perLane
  nd != 0 && ns != 0 && decide (part.toNat < max nd ns / min nd ns)

/-- Position and width of a bit field of `n` bits (17 R276, 18 R284). -/
def fieldOk (n pos wid : Nat) : Bool := decide (wid ≠ 0 ∧ pos + wid ≤ n)

/-- Bits that are one in a word. -/
def onesIn (x n : Nat) : Nat := (List.range n).countP fun i => x.testBit i

/-- AND, OR and XOR, which F32 refuses (19 R312, 21 R341). -/
def AtOp.bitwise : AtOp → Bool
  | .and | .or | .xor => true
  | _ => false

/-- AND, OR and XOR of a reduction (18 R297). -/
def RedOp.bitwise : RedOp → Bool
  | .and | .or | .xor => true
  | _ => false

/-- The operand rules that ATS, ATOM and ATOMS share (19 R312, 21 R341). -/
def atomRule (isF32 : Bool) (op : AtOp) (ret : Bool) : Option DecodeError :=
  orElseErr (need (!(isF32 && op.bitwise)) .subValue) (need (!(op == .cas) || ret) .modBit)

/-- FORM and SCOPE of a global atomic (21 R341): scope codes 0 to 5, and 0 in the plain form. -/
def scopeRule (form : AtForm) (scope : BitVec 3) : Option DecodeError :=
  need (decide (scope.toNat ≤ 5) && (!(form == .plain) || scope == 0)) .modBit

/-- The X1 fields of GATH and SCAT: the register form takes no RL, the row form needs one and takes the types 0x00
and the alphabets (21 R338). -/
def gathRule (t : Ty) (x : GathX) : Option DecodeError :=
  if x.row then
    orElseErr (need (x.rl != 0) .extensionBits) (need (t == .n8 || t.isAlpha) .typeRefused)
  else
    orElseErr (need (x.rl == 0) .extensionBits) (need (t.isInt32 || t.isFloat3) .typeRefused)

/-- Formats 5 and 6 of Table 20-1 pair only with each other (20 R319). -/
def matrixPairOk (ta tb : BitVec 4) : Bool :=
  let half (t : BitVec 4) := t == 5 || t == 6
  decide (ta.toNat ≤ 10) && decide (tb.toNat ≤ 10) && (half ta == half tb)

/-- K per pass of a type of Table 20-1, with an alphabet at its greatest, or none for a type outside the table (20
R319, R325). -/
def Ty.matrixK : Ty → Option Nat
  | .f8e4 | .f8e5 | .i8 | .qa8 | .bx8 => some 128
  | .b16 | .f16 => some 64
  | .f4e2 | .bx4 | .qa4 => some 256
  | .alpha _ => some 512
  | _ => none

/-- What the hardware asks of an instruction before it looks at the machine: its issue-control fields, the FE bits it
allows, whether a guard may stand, and the first operand rule it breaks. -/
structure Shape where
  ctl : Ctl
  fe : BitVec 3
  guarded : Bool
  own : Option DecodeError

/-- A shape with no guard, no FE bit and no operand rule. -/
def plain (c : Ctl) (own : Option DecodeError := none) : Shape := ⟨c, 0, false, own⟩

/-- A shape of the vector chapters: guard accepted (18 R281, 19 R298). -/
def vec (c : Ctl) (fe : BitVec 3) (own : Option DecodeError := none) : Shape := ⟨c, fe, true, own⟩

/-- The shape of an encoded instruction; an event of the part has none. -/
def shape : Instr → Option Shape
  -- chapter 17: a guard only on BRV, IF, BREAK and CONT (R262)
  | .nop c _ => some (plain c)
  | .bra c x1 => some (plain c (need (offsetOk x1) .operandRange))
  | .brx c _ x1 => some (plain c (need (offsetOk x1) .operandRange))
  | .brs c _ _ x1 x2 => some (plain c (need (offsetOk x1 && offsetOk x2) .operandRange))
  | .brv c _ _ x1 x2 => some (vec c feA (need (offsetOk x1 && offsetOk x2) .operandRange))
  | .call c x1 => some (plain c (need (offsetOk x1) .operandRange))
  | .ret c _ => some (plain c)
  | .regang c => some (plain c)
  | .exit c => some (plain c)
  | .ifMask c _ => some (vec c 0)
  | .elseMask c => some (plain c)
  | .endif c => some (plain c)
  | .loop c => some (plain c)
  | .endloop c x1 => some (plain c (need (offsetOk x1) .operandRange))
  | .breakMask c _ k => some (vec c 0 (need (decide (k.toNat ≤ 61)) .subValue))
  | .contMask c _ k => some (vec c 0 (need (decide (k.toNat ≤ 61)) .subValue))
  | .yield c => some (plain c)
  | .sleep c _ => some (plain c)
  | .trap c _ => some (plain c)
  | .rett c => some (plain c)
  | .brk c _ => some (plain c)
  | .srd c _ _ => some (plain c)
  | .swr c _ _ => some (plain c)
  | .clk c _ => some (plain c)
  | .perf c _ ev => some (plain c (need (decide (ev.toNat ≤ 5)) .subValue))
  | .sadd c _ _ _ => some (plain c)
  | .ssub c _ _ _ => some (plain c)
  | .smul c _ _ _ => some (plain c)
  | .smulh c _ _ _ _ => some (plain c)
  | .sdiv c _ _ _ _ => some (plain c)
  | .srem c _ _ _ _ => some (plain c)
  | .sand c _ _ _ => some (plain c)
  | .sor c _ _ _ => some (plain c)
  | .sxor c _ _ _ => some (plain c)
  | .sshl c _ _ _ => some (plain c)
  | .sshr c _ _ _ => some (plain c)
  | .ssra c _ _ _ => some (plain c)
  | .smin c _ _ _ _ => some (plain c)
  | .smax c _ _ _ _ => some (plain c)
  | .scmp c _ _ _ _ => some (plain c)
  | .ssel c _ _ _ _ => some (plain c)
  | .smov c _ _ => some (plain c)
  | .smovi c _ _ => some (plain c)
  | .sclz c _ _ => some (plain c)
  | .spopc c _ _ => some (plain c)
  | .sbfx c _ _ _ pos wid => some (plain c (need (fieldOk 64 pos.toNat wid.toNat) .operandRange))
  | .sbfi c _ _ pos wid => some (plain c (need (fieldOk 64 pos.toNat wid.toNat) .operandRange))
  | .sld c t _ _ _ => some (plain c (need t.isInt .typeRefused))
  | .sst c t _ _ _ => some (plain c (need t.isInt .typeRefused))
  | .slda c _ _ _ _ _ => some (plain c)
  -- chapter 18
  | .vadd c t _ _ b => some (vec c (feAB b) (need t.isInt32 .typeRefused))
  | .vsub c t _ _ b => some (vec c (feAB b) (need t.isInt32 .typeRefused))
  | .vmul c t _ _ b => some (vec c (feAB b) (need t.isInt32 .typeRefused))
  | .vmulh c t _ _ b => some (vec c (feAB b) (need t.isInt32 .typeRefused))
  | .vmad c t _ _ _ _ => some (vec c 7 (need t.isInt32 .typeRefused))
  | .vadds c t _ _ b => some (vec c (feAB b) (need t.isInt32 .typeRefused))
  | .vsubs c t _ _ b => some (vec c (feAB b) (need t.isInt32 .typeRefused))
  | .vand c _ _ b => some (vec c (feAB b))
  | .vor c _ _ b => some (vec c (feAB b))
  | .vxor c _ _ b => some (vec c (feAB b))
  | .vnot c _ _ => some (vec c feA)
  | .vshl c t _ _ b => some (vec c (feAB b) (need t.isInt32 .typeRefused))
  | .vshr c t _ _ b => some (vec c (feAB b) (need t.isInt32 .typeRefused))
  | .vsra c t _ _ b => some (vec c (feAB b) (need t.isInt32 .typeRefused))
  | .vmin c t _ _ b => some (vec c (feAB b) (need t.isInt32 .typeRefused))
  | .vmax c t _ _ b => some (vec c (feAB b) (need t.isInt32 .typeRefused))
  | .vabs c t _ _ => some (vec c feA (need (t.isInt32 && t.isSigned) .typeRefused))
  | .vneg c t _ _ => some (vec c feA (need t.isInt32 .typeRefused))
  | .vclz c t _ _ => some (vec c feA (need t.isInt32 .typeRefused))
  | .vpopc c t _ _ => some (vec c feA (need t.isInt32 .typeRefused))
  | .vbfx c _ _ _ pos wid => some (vec c feA (need (fieldOk 32 pos.toNat wid.toNat) .operandRange))
  | .vbfi c _ _ pos wid => some (vec c feA (need (fieldOk 32 pos.toNat wid.toNat) .operandRange))
  | .vaddc c t _ _ _ _ => some (vec c 7 (need (t.isInt32 && !t.isSigned) .typeRefused))
  | .vmov c _ _ => some (vec c feA)
  | .vbcast c _ _ => some (vec c 0)
  | .vlid c _ => some (vec c 0)
  | .vsel c _ _ _ _ => some (vec c (feA ||| feB))
  | .vcmp c t cond _ _ b => some (vec c (feAB b) (need (!(cond == .un) || t == .f32) .subValue))
  | .vmask c _ _ => some (vec c 0)
  | .fadd c t _ _ b => some (vec c (feAB b) (need t.isFloat3 .typeRefused))
  | .fsub c t _ _ b => some (vec c (feAB b) (need t.isFloat3 .typeRefused))
  | .fmul c t _ _ b => some (vec c (feAB b) (need t.isFloat3 .typeRefused))
  | .ffma c t _ _ _ _ => some (vec c 7 (need t.isFloat3 .typeRefused))
  | .fmin c t _ _ b => some (vec c (feAB b) (need t.isFloat3 .typeRefused))
  | .fmax c t _ _ b => some (vec c (feAB b) (need t.isFloat3 .typeRefused))
  | .fabs c t _ _ => some (vec c feA (need t.isFloat3 .typeRefused))
  | .fneg c t _ _ => some (vec c feA (need t.isFloat3 .typeRefused))
  | .fdiv c t _ _ b => some (vec c (feAB b) (need t.isFloat3 .typeRefused))
  | .frcp c t _ _ => some (vec c feA (need t.isFloat3 .typeRefused))
  | .frsq c t _ _ => some (vec c feA (need t.isFloat3 .typeRefused))
  | .fsqrt c t _ _ => some (vec c feA (need t.isFloat3 .typeRefused))
  | .fexp2 c t _ _ => some (vec c feA (need t.isFloat3 .typeRefused))
  | .flog2 c t _ _ => some (vec c feA (need t.isFloat3 .typeRefused))
  | .ffloor c t _ _ => some (vec c feA (need t.isFloat3 .typeRefused))
  | .ffrac c t _ _ => some (vec c feA (need t.isFloat3 .typeRefused))
  | .fscale c t _ _ b => some (vec c (feAB b) (need t.isFloat3 .typeRefused))
  | .fclass c t _ _ => some (vec c feA (need t.isFloat3 .typeRefused))
  | .cvt c dt _ _ st part => some (vec c feA
      (orElseErr (need (dt.isFloat && st.isFloat && dt != st) .typeRefused)
        (need (partOk dt st part) .extensionBits)))
  | .cvti c dt _ _ st part sat => some (vec c feA
      (orElseErr (need (dt.isInt32 && (st.isFloat || (st.isInt32 && dt != st))) .typeRefused)
        (orElseErr (need (partOk dt st part) .extensionBits) (need (!(sat && st.isFloat)) .extensionBits))))
  | .cvtf c dt _ _ st part => some (vec c feA
      (orElseErr (need (dt.isFloat && st.isInt32) .typeRefused) (need (partOk dt st part) .extensionBits)))
  | .cvtbx c dt _ _ _ st part _ => some (vec c feA
      (orElseErr (need ((dt == .bx8 || dt == .bx4) && st.isFloat3) .typeRefused)
        (need (partOk dt st part) .extensionBits)))
  | .shfi c _ _ _ b => some (vec c (feAB b))
  | .shfu c _ _ _ b => some (vec c (feAB b))
  | .shfd c _ _ _ b => some (vec c (feAB b))
  | .shfx c _ _ _ b => some (vec c (feAB b))
  | .gshf c _ _ _ _ _ => some (vec c feA)
  | .vote c _ _ _ => some (vec c feA)
  | .vreda c t op _ _ => some (vec c feA (need (!(t == .f32 && op.bitwise)) .subValue))
  | .vscan c _ t op _ _ => some (vec c feA (need (!(t == .f32 && op.bitwise)) .subValue))
  -- chapter 19: G refused on ALDEF, ALRD and LAYSET (R298)
  | .aldef c _ _ _ => some (plain c)
  | .alrd c _ _ _ => some (plain c)
  | .unpk c _ _ _ _ _ => some (vec c feA)
  | .pack c _ _ _ _ _ => some (vec c feA)
  | .symx c _ _ _ _ _ => some (vec c (feA ||| feB))
  | .symi c _ _ _ _ _ _ => some (vec c 7)
  | .symld c _ _ _ _ _ => some (vec c feB)
  | .symst c _ _ _ _ _ => some (vec c (feB ||| feC))
  | .dota c _ _ _ _ _ _ _ => some (vec c (feA ||| feB))
  | .valc c _ _ _ => some (vec c feA)
  | .ld c t _ _ _ => some (vec c 0 (need (!(t == .n64 || t == .i64)) .typeRefused))
  | .st c t _ _ _ => some (vec c feB (need (!(t == .n64 || t == .i64)) .typeRefused))
  | .ldt c _ _ _ _ => some (vec c feB)
  | .stt c _ _ _ _ => some (vec c (feB ||| feC))
  | .ldb c t _ _ _ => some (vec c 0
      (need (t.isInt32 || (t.isFloat && t != .f4e2) || t == .bx8 || t == .qa8) .typeRefused))
  | .ats c ret t op d _ _ _ => some (vec c feB
      (orElseErr (atomRule (t == .f32) op ret) (need (ret || d == 0) .registerField)))
  | .trtw c _ _ => some (vec c feB)
  | .trtr c _ _ => some (vec c 0)
  | .layset c _ _ _ _ => some (plain c)
  -- chapter 20: a guard only on MMA and the register form of MXRD (R316)
  | .mxz c _ count => some (plain c (need (count != 0) .extensionBits))
  | .mma c ta tb _ _ _ _ _ _ => some (vec c feA (need (matrixPairOk ta tb) .subValue))
  | .mxrd c toReg t _ _ count => some
      ⟨c, 0, toReg, orElseErr (need (t.isFloat && !(toReg && t == .f4e2)) .typeRefused)
        (need (count != 0) .extensionBits)⟩
  | .mxwr c t _ _ count => some (plain c
      (orElseErr (need t.isFloat .typeRefused) (need (count != 0) .extensionBits)))
  | .mxsc c _ kind a b => some (plain c (match kind with
      | .bx => none
      | .qa32 | .qa64 | .qa128 => need (a == 0) .registerField
      | .none => need (a == 0 && b == 0) .registerField))
  | .mxck c _ _ => some (plain c)
  | .mxil c t _ krows => some (plain c (match t.matrixK with
      | none => some .typeRefused
      | some k => need (decide (krows.toNat ≤ k)) .extensionBits))
  -- chapter 21 (R327); FE bit A of CPYQ and CPYPUB chooses trap or block (R329)
  | .cpyq c _ => some ⟨c, feA, false, none⟩
  | .cpypub c => some ⟨c, feA, false, none⟩
  | .cseal c _ => some (plain c)
  | .cwait c _ _ => some (plain c)
  | .cstat c form cls _ => some (plain c (need (!(form == .ring) || cls == .copy) .subValue))
  | .gath c t _ _ x => some (vec c 0 (gathRule t x))
  | .scat c t _ _ x => some (vec c feB (gathRule t x))
  | .hgcfg c _ _ => some (plain c)
  | .hgld c _ _ _ => some (vec c feA)
  | .hgsc c _ _ _ => some (vec c (feA ||| feB))
  | .hgfold c _ _ _ => some (plain c)
  | .hgidx c _ _ _ _ _ => some (vec c feA)
  | .atom c form t op scope ret d _ _ _ => some (vec c (feB ||| feC)
      (orElseErr (atomRule (t == .f32) op ret)
        (orElseErr (scopeRule form scope) (need (ret || d == 0) .registerField))))
  | .atoms c form _ op scope ret _ _ _ => some (plain c
      (orElseErr (atomRule false op ret) (scopeRule form scope)))
  -- chapter 22: a guard only on JOIN and LEAVE, FE bits only on FEWAIT and SPILL (R345)
  | .join c _ => some (vec c 0)
  | .leave c _ => some (vec c 0)
  | .seambar c _ => some (plain c)
  | .barw c _ _ => some (plain c)
  | .slvinit c _ _ => some (plain c)
  | .slvpush c _ _ => some (plain c)
  | .slvpop c _ _ => some (plain c)
  | .slvtry c _ _ => some (plain c)
  | .slvgrant c _ => some (plain c)
  | .phaseAcq c scope => some (plain c (need (decide (scope.toNat ≤ 5)) .subValue))
  | .phaseRel c scope => some (plain c (need (decide (scope.toNat ≤ 5)) .subValue))
  | .phaseAr c scope => some (plain c (need (decide (scope.toNat ≤ 5)) .subValue))
  | .fence c mask => some (plain c (need (mask != 0) .subValue))
  | .fewait c _ => some ⟨c, feA, false, none⟩
  | .femark c _ _ => some (plain c)
  | .rgnLo c mask => some (plain c (need (decide (onesIn mask.toNat 32 ≤ 16)) .operandRange))
  | .rgnHi c mask => some (plain c (need (decide (onesIn mask.toNat 32 ≤ 16)) .operandRange))
  | .spill c _ _ => some ⟨c, feA, false, none⟩
  | .fill c _ _ => some (plain c)
  | .ftag c _ _ => some (plain c)
  | .ctnopen c x1 => some (plain c (need (offsetOk x1) .operandRange))
  | .ctnclose c => some (plain c)
  | .ctnraise c _ => some (plain c)
  | .tidset c _ => some (plain c)
  -- events
  | .portReset .. | .deviceResetRequest .. | .deviceResetDone | .coldReset | .powerSample | .aclkRaiseTick
  | .aclkFloorTimeout | .mgPwrCapWrite .. | .thermalSample | .granuleRead .. | .granuleReconstruct ..
  | .stripeWrite .. | .subGranuleWrite .. | .stackRetrainFail .. | .gusDeclareWrite .. | .stackLoss
  | .gusCounterClear .. | .gusXpoolWrite .. | .compressPacket .. | .pageExpand .. | .bar2Read .. | .bar2Write ..
  | .registerWrite .. | .hostLinkDown .. | .xlCfgWrite .. | .xlTimeoutWrite .. | .xlCounterClear ..
  | .ualLinkUp .. | .ualLinkDown .. | .peerRequest .. | .peerResponse .. | .requestTimeout .. | .tileArrive ..
  | .pleatEntryTimeout .. | .serviceGangOp .. | .stepAck .. | .stepRetry .. | .semAcquire .. | .semRelease ..
  | .hqTailWrite .. | .hqEnable .. | .hqDisable .. | .hqStop .. | .hqRecover .. | .packetFetch .. | .nopPacket ..
  | .launchPacket .. | .copyPacket .. | .waitPacket .. | .waitPoll .. | .signalPacket .. | .fencePacket ..
  | .setprioPacket .. | .tableWalk .. | .hqFqRespWrite .. | .hqInvalWrite .. | .invalidateDone
  | .faultRecordWrite .. | .mgFrLostClear | .mgG4ClearWrite .. | .healthRefresh | .drainSet .. | .drainClear ..
  | .mgPartClusWrite .. | .preemptHalt .. | .preemptResume .. | .attestationStart .. | .attestationDone
  | .dispatch .. | .preemptCheck .. | .drainVictimTimeout .. | .panelSaveLining .. | .panelSaveMem ..
  | .panelFlush .. | .panelRetire .. | .panelWritebackDone .. | .activeSetSwap .. | .codeFetch ..
  | .ringConsume .. | .commandComplete .. | .sleepWake .. | .stagingComplete .. | .hostPortLinkUp ..
  | .unassignedEncoding => none

/-- Why the hardware refuses an instruction with ILLEGAL, whatever the machine's state (16 R248, R254). -/
def illegalReason (i : Instr) : Option DecodeError :=
  match shape i with
  | none => none
  | some h =>
    if h.ctl.guard.isSome && !h.guarded then some .guardRefused
    else if h.ctl.fe &&& ~~~h.fe != 0 then some .feBit
    else h.own

/-- An instruction that the hardware does not refuse with ILLEGAL before it looks at the machine. -/
def legal (i : Instr) : Bool := (illegalReason i).isNone

end Sys2Proof
end

