-- ==== Sys2Proof/Machine/Memory.lean ====
section
/-! DEFINITION. Sparse memory: a list of cells in one canonical form. The same type holds the stacks, host memory, a
panel's scratchpad, its accumulator and a core's transpose tile. An address that is not listed reads 0 (log entry 2). -/

namespace Sys2Proof.Machine

open Sys2Proof

/-- Bytes by address: addresses strictly rise and no listed byte is 0. -/
abbrev Memory := List Host.Cell

/-- What an address that is not listed reads as. DESIGN CHOICE (log entry 2). -/
def unlisted : Byte := 0

/-- The canonical form from a lower bound on: every address is at or above `lo`, addresses rise, no byte is 0. -/
def wfFrom (lo : Nat) : Memory → Bool
  | [] => true
  | (a, b) :: m => decide (lo ≤ a) && (b != unlisted) && wfFrom (a + 1) m

/-- The canonical form of a memory. -/
def Memory.wf (m : Memory) : Bool := wfFrom 0 m

/-- The byte at an address. -/
def Memory.get : Memory → Nat → Byte
  | [], _ => unlisted
  | (a, b) :: m, x => if x = a then b else Memory.get m x

/-- Store one byte; storing what an unlisted address reads as removes the cell. -/
def Memory.put : Memory → Nat → Byte → Memory
  | [], x, v => if v = unlisted then [] else [(x, v)]
  | (a, b) :: m, x, v =>
    if x < a then (if v = unlisted then (a, b) :: m else (x, v) :: (a, b) :: m)
    else if x = a then (if v = unlisted then m else (x, v) :: m)
    else (a, b) :: Memory.put m x v

/-- The `n` bytes from an address on. -/
def Memory.read (m : Memory) : Nat → Nat → List Byte
  | _, 0 => []
  | a, n + 1 => Memory.get m a :: Memory.read m (a + 1) n

/-- Store bytes from an address on. -/
def Memory.write (m : Memory) : Nat → List Byte → Memory
  | _, [] => m
  | a, b :: bs => Memory.write (Memory.put m a b) (a + 1) bs

/-- Clear the cells from `a` up to `a + n`. -/
def Memory.clear (m : Memory) (a n : Nat) : Memory := m.filter fun c => decide (c.1 < a ∨ a + n ≤ c.1)

/-- The number that `n` little-endian bytes hold (10 R177). -/
def Memory.readNat (m : Memory) (a n : Nat) : Nat :=
  match n with
  | 0 => 0
  | k + 1 => (Memory.get m a).toNat + 256 * Memory.readNat m (a + 1) k

/-- The low `n` bytes of a number, little-endian. -/
def natBytes : Nat → Nat → List Byte
  | 0, _ => []
  | k + 1, x => BitVec.ofNat 8 x :: natBytes k (x / 256)

/-- The number that bytes hold, little-endian. -/
def bytesNat : List Byte → Nat
  | [] => 0
  | b :: bs => b.toNat + 256 * bytesNat bs

/-- Store the low `n` bytes of a number, little-endian. -/
def Memory.writeNat (m : Memory) (a n x : Nat) : Memory := Memory.write m a (natBytes n x)

/-- Element `i` of a fixed array, or a default beyond its end. -/
def vget {α : Type} {n : Nat} (v : Vector α n) (i : Nat) (d : α) : α := if h : i < n then v[i] else d

/-- A fixed array with element `i` replaced; unchanged beyond its end. -/
def vset {α : Type} {n : Nat} (v : Vector α n) (i : Nat) (x : α) : Vector α n := v.setIfInBounds i x

/-- A list with element `i` changed by a function; unchanged beyond its end. -/
def modifyAt {α : Type} (f : α → α) : List α → Nat → List α
  | [], _ => []
  | x :: xs, 0 => f x :: xs
  | x :: xs, i + 1 => x :: modifyAt f xs i

end Sys2Proof.Machine
end

