-- ==== Sys2Proof/Machine/CoreTypes.lean ====
section
/-! DEFINITION. The storage of a core, of its panels and of their gangs (chapters 07 to 13, 17, 20 to 22), and the
engine commands in progress (09 R165 to R167). Every type here is plain data. -/

namespace Sys2Proof.Machine

open Sys2Proof

/-! ## Gangs -/

/-- A vector register: lanes, state and format tag (08 R146, R147), and the engine command whose completion it awaits
or that last poisoned it. `marked`: FEMARK set its state, and nothing has written it since (22 R357). -/
structure VReg where
  lanes : Vector Word 32
  st : FeState
  tag : BitVec 3
  by_ : Option Nat
  marked : Bool
deriving DecidableEq, Repr

/-- WAIT of a split-table entry (07 Table 7-1). -/
inductive WaitSt where
  | run | reconv | regang
deriving DecidableEq, Repr

/-- Why a fragment is blocked (07 R130). -/
inductive Block where
  | source (regs : List Nat)
  | sleevePush (n : Nat)
  | sleevePop (n : Nat)
  | cwait (cls : Cls) (n : Nat)
  | sealFull (cls : Cls)
  | release (mask : BitVec 5) (system : Bool)
  | pair
  | seam (slot : Nat)
  | barw (slot : Nat)
  | rendezvous (lead : Nat)
  | ring
  | sleep
  | fetch
  | smock (slot : Nat)
  | heldWrites (cmd : Nat)
  | measure (cmd : Nat)
  | fence (mask : BitVec 5)
deriving DecidableEq, Repr

/-- One reconvergence level: RCV and PAR (07 Table 7-1). -/
structure Level where
  rcv : Word
  par : BitVec 8
deriving DecidableEq, Repr

/-- A split-table entry (07 R122). DEPTH is the number of levels, the innermost first. `blk`, `since`, `nextIssue`, `prev`,
`wake` and `sealed` hold the entry's waits: why and since when it is blocked, the earliest clk at which it may issue
again, the clk from which the next instruction's STALL counts (16 R258), the clk at which a sleep ends (17 R268), and the
seals that the waiting instruction has made (13 R218), as a class and the number below which its seals lie. `paired` says
that its release of a redundant pair has matched, and which command writes the held writes (13 R228). `held` is the number
of pocket misses of the next instruction that have been waited for (16 R259). `measured` holds what stands in memory for the count of hold
entries that the waiting instruction takes (13 R227): address, length and bytes, none where the read failed. -/
structure SplitEntry where
  valid : Bool
  slices : BitVec 8
  pc : Word
  wait : WaitSt
  levels : List Level
  blk : Option Block
  since : Nat
  nextIssue : Nat
  prev : Option Nat
  wake : Nat
  sealed : List (Nat × Nat)
  paired : Option (Option Nat)
  held : Nat
  measured : List (Nat × Nat × Option (List Byte))
deriving DecidableEq, Repr

/-- A register result that is not yet visible to later instructions (13 R231, 16 R258): the register, the slices of
the fragment that wrote it, the clk at which it is visible, and what the register held before. -/
inductive Pending where
  | vec (reg : Nat) (slices : BitVec 8) (visible : Nat) (old : Vector Word 32)
  | scalar (reg : Nat) (slices : BitVec 8) (visible : Nat) (old : Vector DWord 8)
deriving DecidableEq, Repr

/-- A scale state of MXSC (20 R320). -/
inductive Scale where
  | none
  | bx (b : Int) (addr : Nat)
  | qa (g : Nat) (addr : Nat)
deriving DecidableEq, Repr

/-- What a failed command reports (13 R219, R221): its status of Table 4-7, or a failed matrix checksum, the address
of its first failing byte, and its place in issue order. -/
structure Fail where
  checksum : Bool
  status : Nat
  addr : DWord
  cmd : Nat
deriving DecidableEq, Repr

/-- A batch (09 R166): open until it is sealed. `count` is the commands that joined, `live` those of them that are not complete, by
their ids. -/
structure Batch where
  bid : Nat
  cls : Cls
  count : Nat
  live : List Nat
  fail : Option Fail
  sealedAt : Nat
  order : Nat
  complete : Bool
deriving DecidableEq, Repr

/-- A containment region (13 R224): handler, em, nesting counters and s62 at its opening, and the first command and
seal that belong to it. -/
structure Region where
  handler : Word
  em : Word
  nest : Vector (BitVec 6) 32
  s62 : Vector DWord 8
  firstCmd : Nat
  firstSeal : Nat
deriving DecidableEq, Repr

/-- An unwind that waits for the batches it drains (13 R225): what it will write and the register to restore. -/
structure Unwind where
  cause : Nat
  status : Nat
  cls : Nat
  tpc : Word
  info : DWord
  depth : Nat
  reg : Option Nat
deriving DecidableEq, Repr

/-- Roles of gangs (06 R101, R110). -/
inductive Role where
  | any | vec | mat | cpy
deriving DecidableEq, Repr

/-- What an engine command with global writes feeds to its gang's signature (13 R226); `key` orders the parts of one
command, by address or by lane. -/
structure Feed where
  bid : Nat
  cmd : Nat
  key : Nat
  bytes : List Byte
deriving DecidableEq, Repr

/-- What a held entry does to its granule: a write of its masked bytes, of which it may write only some bits; the adds of an HGSC
to its 8-byte words, as (index of the word, addend) in their order, with the smock slot whose AOVF they may set (12 R212, R213);
or adds of its elements (03 R58). -/
inductive HeldHow where
  | write (halves : List (Nat × Byte))
  | addWords (slot : Nat) (adds : List (Nat × BitVec 64))
  | addElems (fmt : TileFmt)
deriving DecidableEq, Repr

/-- The collective step that a held granule belongs to (03 R61): the command, the device number or the tile, and the command's
retry count. -/
structure HeldStep where
  cmd : Nat
  part : Nat
  retry : Nat
deriving DecidableEq, Repr

/-- A held global write of a redundant panel's gang (13 R227): its entry of the hold area, the address, byte mask and
data of one granule, and the step that it is part of. -/
structure Held where
  slot : Nat
  gang : Nat
  bid : Nat
  va : Nat
  mask : BitVec 64
  data : List Byte
  how : HeldHow
  step : Option HeldStep
deriving DecidableEq, Repr

/-- A gang (07, 08, 10, 13). `sealedBids` are the batches that a redundant panel's gang has sealed since the latest match, with
the class and the place of each seal (13 R226). -/
structure Gang where
  role : Role
  v : Vector VReg 128
  s : Vector (Vector DWord 8) 64
  srs : Vector Word 32
  em : Word
  nest : Vector (BitVec 6) 32
  split : List SplitEntry
  exited : BitVec 8
  ptr : Nat
  fpcsr : DWord
  tid : BitVec 12
  tcause : DWord
  tpc : DWord
  tinfo : DWord
  handler : Bool
  hslices : BitVec 8
  regions : List Region
  opens : List Batch
  seals : List Batch
  mxA : Scale
  mxB : Scale
  pending : List Pending
  wset : BitVec 128
  readyAt : Option Nat
  unwind : Option Unwind
  acquires : List Nat
  releases : Nat
  feeds : List Feed
  sealedBids : List (Nat × Cls × Nat)
deriving DecidableEq, Repr

/-! ## Panels -/

/-- A seam slot (07 R134): its members as (gang, lane mask) and its arrived lanes. -/
structure Seam where
  members : List (Nat × Word)
  arrived : List (Nat × Word)
deriving DecidableEq, Repr

/-- A BARW slot (07 R136): the count once fixed, and the fragments that wait, as (gang, slices). -/
structure Barw where
  count : Option Nat
  waiting : List (Nat × BitVec 8)
deriving DecidableEq, Repr

/-- A sleeve (22 R349): T, H and G count modulo 2^32. The phase bits of a slot follow from T, H and G. -/
structure Sleeve where
  init : Bool
  base : Nat
  d : Nat
  t : Nat
  h : Nat
  g : Nat
deriving DecidableEq, Repr

/-- A smock descriptor with its resolutions (12 R203): d, F, EFMT, the addresses, and TLOG, E and N of each level. -/
structure SmockCfg where
  d : Nat
  f : Nat
  efmt : Ty
  tbase : Nat
  aplane : Nat
  tlog : List Nat
  e : List Int
  n : List Nat
deriving DecidableEq, Repr

/-- A smock slot (12 R205, R207): the address of the last HGCFG, the HGCFG commands not yet in effect, AOVF and the
binding. -/
structure Smock where
  desc : Nat
  queue : List Nat
  aovf : Bool
  cfg : Option SmockCfg
deriving DecidableEq, Repr

/-- The copy ring (21 R328): registers and indices, and for each published entry not yet consumed its command. -/
structure Ring where
  base : DWord
  size : DWord
  notify : DWord
  wix : Nat
  pub : Nat
  cons : Nat
deriving DecidableEq, Repr

/-- A rendezvous latch (07 R138): the lead, the list and the B layout word, SUB and MOD, and for each gang that has
arrived what its MMA read at issue. -/
structure Arrival where
  gang : Nat
  rows : List (Nat × Nat × Nat)
  layA : List Nat
  scaleA : Scale
  alphaA : BitVec 256
  scaleB : Scale
  alphaB : BitVec 256
  tid : BitVec 12
deriving DecidableEq, Repr

structure Latch where
  lead : Nat
  list : Nat
  layB : List Nat
  sub : Nat
  mod : Nat
  arrivals : List Arrival
deriving DecidableEq, Repr

/-- An entry of the exception table (10 R191): sat, ftz and nan of one tensor id. -/
structure ExcEntry where
  tid : BitVec 12
  sat : Nat
  ftz : Nat
  nan : Nat
deriving DecidableEq, Repr

/-- What the atomic command of a gang of the primary of a pair has returned, by the count of the gang's releases, for
the secondary's command of the same place (09 R172). -/
structure Mirror where
  gang : Nat
  key : Nat
  olds : List (Nat × DWord)
  fail : Option Fail
deriving DecidableEq, Repr

/-- Panel states (06 Table 6-3). A panel that is QUEUED is only an index of its launch. -/
inductive Life where
  | staging | running | retiring | savedLining | savedMem (slot : Nat) | done | killed
deriving DecidableEq, Repr

/-- A save or a flush in progress: issue has stopped and, but for a save into the lining, the panel's engine operations
are awaited (06 R113 to R115). -/
inductive Leaving where
  | no | toLining | toMem (slot : Nat) | flush
deriving DecidableEq, Repr

/-- A region table entry (06 Table 6-2). -/
structure RegionEnt where
  addr : Nat
  place : Nat
  dir : Nat
  desc : Bool
  len : Nat
  sx : Int
  sy : Int
  sz : Int
deriving DecidableEq, Repr

/-- What a panel takes from its launch and its kernel header (04 R86, 06 R101 to R104, 08 R140, R141). -/
structure Hdr where
  queue : Nat
  index : Nat
  asid : Nat
  part : Nat
  prio : Nat
  kaddr : Nat
  codeOff : Word
  handler : Word
  nGangs : Nat
  vregs : Nat
  regb : Nat
  accb : Nat
  banks : Nat
  nSleeves : Nat
  pm : Bool
  nw : Bool
  il : Bool
  erratum7 : Bool
  restartable : Bool
  redundant : Bool
  spillBytes : Nat
  holdKib : Nat
  spillbase : Nat
  holdbase : Nat
  argbase : Nat
  argAddr : Nat
  argLen : Nat
  maxtime : Nat
  counterArea : Nat
  regions : List RegionEnt
  roles : List Role
deriving DecidableEq, Repr

/-- The bytes of a panel's scratchpad, S (08 R140). -/
def Hdr.size (h : Hdr) : Nat := (h.banks - h.regb - h.accb) * 16384

/-- Accumulator rows of a panel (06 R103, 20 R315). -/
def Hdr.rows (h : Hdr) : Nat := 32 * h.accb

/-- A panel (chapters 06 to 13). `begun` says that it has issued its first instruction, from which clk counts (17 R272);
`elapsed` counts every cycle in which it ran (06 R112). `keptFor` are the leads whose previous MMA or MXIL left KEPT set
for them (20 R324). `drain` is the choice to let it run to retirement, with the time
at which that is reconsidered. `moving` is the move to another core whose release and acquire are not over, with the scope that
both cores share and whether the release has been made (06 R116, 09 R171). -/
structure Panel where
  pid : Nat
  launch : Nat
  idx : Nat
  px : Nat
  py : Nat
  pz : Nat
  hdr : Hdr
  life : Life
  leaving : Leaving
  moving : Option (Nat × Bool)
  core : Nat
  slots : List Nat
  placedAt : Nat
  begun : Bool
  elapsed : Nat
  drain : Option (Option Nat)
  gangs : List Gang
  sp : Memory
  acc : Memory
  alph : Vector (BitVec 256) 16
  smk : Vector Smock 16
  seams : Vector Seam 16
  barw : Vector Barw 16
  sleeves : Vector Sleeve 16
  ring : Ring
  clk : Nat
  perf : Vector Nat 6
  exc : List ExcEntry
  catchAll : ExcEntry
  ckFail : Nat
  ckUnchk : Nat
  latches : List Latch
  keptFor : List Nat
  tile : Option Memory
  partner : Option Nat
  primary : Bool
  held : List Held
  heldCount : List (Nat × Nat)
  mirror : List Mirror
deriving DecidableEq, Repr

/-! ## Cores and clusters -/

/-- A position of the active set (07 R129): the gang it holds, since when, whether it has issued, and the end of the
swap that brings it in (07 R131). -/
structure Pos where
  pid : Nat
  gang : Nat
  since : Nat
  issued : Bool
  swapEnd : Nat
deriving DecidableEq, Repr

/-- The B latch (20 R324): KEPT, and the tag with the values held, as the bytes of B and of its scales. `kpass` is the
K by which the scales are indexed. -/
structure BLatch where
  kept : Bool
  pid : Nat
  owner : Nat
  lay : List Nat
  fmt : Nat
  alpha : BitVec 256
  scale : Scale
  krows : Nat
  kpass : Nat
  bytes : Memory
deriving DecidableEq, Repr

/-- A copy of a granule in a read buffer (09 R159, R160): the space it belongs to, its address and its bytes. -/
structure Copy where
  space : Nat
  addr : Nat
  bytes : List Byte
deriving DecidableEq, Repr

/-- What an engine read has returned while earlier-issued commands of its core are unfinished (09 R160): the read's place in the
order of issue and the granule. -/
structure Seen where
  seq : Nat
  copy : Copy
deriving DecidableEq, Repr

/-- A core (07 R129 to R131, 06 R113, 08 R155, 20 R324): the active set, where this cycle's scan stands and which
class caps it has used, the VECTOR slots that second passes take in the next cycle (23 R368), the lining, the transpose tile, the
B latch and the read buffers. `saves` are the saves of panels whose clearing of KEPT still follows MATRIX commands that were
issued before them, as (panel, the first command id after the save); `seen` is what later-issued reads have returned. -/
structure CoreSt where
  active : List (Option Pos)
  start : Nat
  scan : Nat
  used : List Nat
  pass2 : Nat
  lining : Option Nat
  tile : Memory
  tileOwner : Option Nat
  latch : BLatch
  saves : List (Nat × Nat)
  rbuf : List Copy
  seen : List Seen
deriving DecidableEq, Repr

/-- A cached translation (04 R83): a page of an ASID and its leaf entry with the level it stands at. -/
structure TlbEntry where
  asid : Nat
  page : Nat
  leaf : DWord
  level : Nat
deriving DecidableEq, Repr

/-- A code window of an instruction cache (16 R246). -/
structure Window where
  asid : Nat
  kaddr : Nat
  win : Nat
  bytes : List Byte
deriving DecidableEq, Repr

/-- A cluster: fenced, its translation cache, its instruction cache, its smock cache and its engine read buffers (04 R83, 05
R89, 09 R159, 16 R246). -/
structure Cluster where
  fenced : Bool
  tlb : List TlbEntry
  icache : List Window
  smkCache : List Copy
  rbuf : List Copy
deriving DecidableEq, Repr

/-! ## Engine commands -/

/-- On whose behalf a command acts. -/
inductive Owner where
  /-- Batches of gangs of a panel, as (gang, batch id) (09 R166). -/
  | gangs (pid : Nat) (batches : List (Nat × Nat))
  /-- A packet of a queue (04 R77). -/
  | packet (q i : Nat)
  /-- Staging of a panel: part number `k` in table order (06 R108). -/
  | stage (pid k : Nat)
  /-- Write-back of a panel: part number `k` (06 R108, 10 R192). -/
  | writeBack (pid k : Nat)
  /-- A fetch of the next packet of a queue (04 R72). -/
  | ring (q : Nat)
  /-- A code fetch of a panel (16 R246). -/
  | code (pid : Nat)
  /-- A read that measures a command of a panel at its issue (13 R227). -/
  | measure (pid : Nat)
  /-- A host write through BAR2 (02 R36). -/
  | bar2 (p : Port)
  /-- A request of a peer (03 R54), the port on which it came, and of a collective step the source device and tag. -/
  | peer (port : Nat) (step : Option (Nat × Nat))
  /-- A read of the expansion pool ring in host memory (02 R46). -/
  | pool
  /-- A delivery of a pleat table, for the contributions of commands (03 R59): command and tile. -/
  | pleat (cmds : List (Nat × Nat))
deriving DecidableEq, Repr

/-- An end of a copy: a virtual address, or a scratchpad address of a panel. -/
inductive End where
  | glob (va : Nat)
  | spad (a : Nat)
deriving DecidableEq, Repr

/-- A parsed tensor descriptor (08 Table 8-6). -/
structure TDesc where
  base : Nat
  rank : Nat
  etype : Ty
  tid : Nat
  shard : List Nat
  ndev : Nat
  span : Nat
  size : List Nat
  stride : List Nat
  blk : List Nat
deriving DecidableEq, Repr

/-- One lane's atomic: its address, operand and comparand (21 R342, R343). -/
structure LaneAtom where
  lane : Nat
  va : Nat
  operand : DWord
  comparand : DWord
deriving DecidableEq, Repr

/-- What a command does, with the operands it read at issue. -/
inductive CmdKind where
  /-- A published ring entry that has not been consumed (21 R330, R331). -/
  | ringEntry (i : Nat)
  /-- A copy of `len` bytes between two ends; `whole`: a container width that no end may split (11 R201). -/
  | copy (src dst : End) (len : Nat) (retry : Nat)
  /-- A descriptor tile (21 Table 21-2 kinds 6 and 7, 06 R102) of a scratchpad of `size` bytes: out of it when `out`. -/
  | tile (out : Bool) (desc : Nat) (b : List Nat) (sp size : Nat)
  /-- A combining put (03 R57). -/
  | put (sp va len : Nat) (fmt : TileFmt) (count retry : Nat)
  /-- A broadcast (21 R333). -/
  | bcast (sp va len ndev span retry : Nat)
  /-- GATH into a register: width, sign extension, destination and the lanes' addresses (21 R338). -/
  | gathReg (w : Nat) (sgn : Bool) (d : Nat) (lanes : List (Nat × Nat))
  /-- Row forms of GATH and SCAT, and any list of copies: (source, destination, length). -/
  | rows (xs : List (End × End × Nat))
  /-- SCAT from registers: bytes to store at addresses, merged by granule (21 R339). -/
  | scatReg (xs : List (Nat × Byte))
  /-- HGCFG (12 R205). -/
  | hgcfg (slot va : Nat)
  /-- HGLD (12 R210): the binding, first level, number of levels, destination, and each lane's coordinates. -/
  | hgld (cfg : SmockCfg) (l0 n d : Nat) (lanes : List (Nat × List Word))
  /-- HGSC (12 R211): as HGLD, with the gradients of each lane. -/
  | hgsc (slot : Nat) (cfg : SmockCfg) (l0 n : Nat) (adds : List (Nat × BitVec 64))
  /-- HGFOLD (12 R214); the binding is taken at its release. -/
  | hgfold (slot : Nat) (cfg : Option SmockCfg) (zero : Bool) (gbase l0 n : Nat) (held : List Nat)
  /-- ATOM and ATOMS (21 R342, R343): operation, type width in bytes, signed, float, return destination. -/
  | atom (op : AtOp) (w : Nat) (sgn flt ret : Bool) (d : Option Nat) (slot : Option Nat) (acq : Option Nat)
      (lanes : List LaneAtom)
  /-- MXZ (20 R317). -/
  | mxz (first count : Nat)
  /-- MMA (20 R322): formats, KEEPB and CK, layouts, alphabets and scales, and each gang's rows. -/
  | mma (lead : Nat) (ta tb : Nat) (keepb ck : Bool) (layB : List Nat) (scaleB : Scale) (alphaB : BitVec 256)
      (arrivals : List Arrival)
  /-- MXRD into scratchpad (20 R318). -/
  | mxrdSp (t : Ty) (lay : List Nat) (first count : Nat)
  /-- MXRD into registers (20 R318). -/
  | mxrdReg (t : Ty) (d : Nat) (act : Word) (first count : Nat)
  /-- MXWR (20 R317). -/
  | mxwr (t : Ty) (lay : List Nat) (first count : Nat)
  /-- MXIL (20 R325). -/
  | mxil (fmt : Nat) (lay : List Nat) (scale : Scale) (alpha : BitVec 256) (krows : Nat)
  /-- Reads of the device for itself: packets, kernel objects, counters and code, as (address, length). -/
  | fetch (ranges : List (Nat × Nat))
  /-- A SIGNAL of eight bytes (04 R79). -/
  | signal (va : Nat) (add : Bool) (v : DWord)
  /-- COMPRESS (02 R45): first page, pages, result array. -/
  | compress (va pages result : Nat) (codes : List (Option Byte))
  /-- The exception records of a panel (10 R192). -/
  | records (area : Nat) (ents : List ExcEntry)
  /-- Bytes stored at local data addresses: a host write (02 R36). -/
  | store (da : Nat) (bytes : List Byte)
  /-- A peer's read, write or atomic on local memory (03 R54). -/
  | peerOp (ask : PeerAsk)
  /-- The held writes of a redundant pair's gang go to memory (13 R228). -/
  | heldOut (ws : List Held)
  /-- Adds of a combining tile into memory (03 R59, R60). -/
  | tileAdd (t : Tile)
deriving DecidableEq, Repr

/-- A step of a collective command that has been sent (03 R61, R62): the first or a further piece of it, its sends, the time of
the last one or of its failure, its tag, the port of its last send, and its peer. -/
structure StepTry where
  piece : Nat
  head : Bool
  sends : Nat
  at_ : Nat
  tag : Nat
  port : Option Nat
  dev : Nat
deriving DecidableEq, Repr

/-- An engine command (09 R165 to R167). `core` is the core of its panel, `born` the one on which it was issued, and `seq` its place in the order in which reads of that
core count as issued (09 R160, R170);
`done` are the pieces performed; `got` is the data that its reads and atomics
have returned, by piece; `recon` the reads that wait for reconstruction, with the data address and SUBV that their translation gave; `opened` the writes that stand in an open-stripe
log, with their stripes (02 R28); `lines` the scratchpad lines it has read and `landed` those it has written (09 R163); `sent` the pieces
that await a response or a pleat table, and `tries` the steps that have been sent (03 R59, R61 to R63); `fault` the page of the translation fault that it waits for; `releases` its gang's releases at issue; `holds` the
entries of the hold area taken at issue (13 R227). -/
structure Cmd where
  id : Nat
  owner : Owner
  core : Nat
  born : Nat
  seq : Nat
  unit : Nat
  cls : Cls
  kind : CmdKind
  asid : Nat
  tid : BitVec 12
  alph : Vector (BitVec 256) 16
  act : Word
  releases : Nat
  after : List Nat
  done : List Nat
  recon : List (Nat × Nat × Option Nat)
  got : List (Nat × List Byte)
  opened : List (Nat × Nat)
  lines : List (Nat × List Byte)
  landed : List Nat
  sent : List Nat
  tries : List StepTry
  fault : Option Nat
  fail : Option Fail
  slotAddr : Nat
  entry : Option (Vector DWord 4)
  holds : Nat
deriving DecidableEq, Repr

end Sys2Proof.Machine
end

