-- ==== Sys2Proof/Machine/DeviceTypes.lean ====
section
/-! DEFINITION. The storage of the parts outside the cores: power and cooling, the stacks, the links, the queues, the
management controller and the launches (chapters 01 to 06). -/

namespace Sys2Proof.Machine

open Sys2Proof

/-! ## Stacked memory -/

/-- Marks of a granule: what a read finds beside its bytes (02 R23). -/
inductive Mark where
  | corrected | uncorrectable | poisonLost | poisonData
deriving DecidableEq, Repr

/-- Who made a write that stands in an open-stripe log (02 R35, R36). -/
inductive Origin where
  | cmd (id : Nat)
  | host (p : Port)
  | device
deriving DecidableEq, Repr

/-- The content of a granule before a write, as ParityUpdate obtains it (02 R28): the bytes that the sub-granule write
got (02 R30), or the mark and the bytes of the granule, which ParityUpdate reads. -/
inductive OldGranule where
  | got (bytes : List Byte)
  | held (mark : Option Mark) (bytes : List Byte)
deriving DecidableEq, Repr

/-- A granule of an open write (02 R28): unit, granule offset, new bytes, and its content before the write. -/
structure OpenPart where
  unit : Nat
  gran : Nat
  bytes : List Byte
  old : OldGranule
deriving DecidableEq, Repr

/-- An entry of an open-stripe log (02 R28): the stripe, the granules its write touches, whether it is a full-stripe
write, and who made it. The data is written when the entry is made; the parity is outstanding. -/
structure OpenEntry where
  stripe : Nat
  parts : List OpenPart
  full : Bool
  origin : Origin
deriving DecidableEq, Repr

/-- What a write of the device itself is. -/
inductive OwnWrite where
  /-- A record of a ring, which follows earlier records (05 R93); of a completion record its queue, and whether a vector is raised
  once it is written (04 R74). -/
  | record (cpl : Option (Nat × Bool))
  /-- A host write that a device reset performs (02 R40). -/
  | host
  | other
deriving DecidableEq, Repr

/-- A write that waits for its controller's log: a piece of a command, or bytes that the device itself writes at a data
address within one granule. -/
inductive Waiter where
  | piece (cmd k : Nat)
  | device (what : OwnWrite) (da : Nat) (bytes : List Byte)
deriving DecidableEq, Repr

/-- A write that waits for room in its controller's log, or behind such a write (02 R27, R29), with its stripe. -/
structure LogWait where
  stripe : Nat
  who : Waiter
deriving DecidableEq, Repr

/-- Gusset state (02 R34 to R46). -/
structure Gusset where
  lost : BitVec 12
  first : Nat
  cause : Nat
  failed : Bool
  pending : List (Nat × Nat)
  errs : List (Nat × Nat × Nat)
  log : List OpenEntry
  waits : List LogWait
  cntCorr : Nat
  cntUncorr : Nat
  cntRecon : Nat
  cntRfail : Nat
  cntSubst : Nat
  cntOpenwait : Nat
  cntNocmp : Nat
  xpSize : Nat
  xpCons : Nat
  xpProd : Nat
  xpBase : DWord
  xpLater : List DWord
  images : List (Nat × List Byte)
deriving DecidableEq, Repr

/-! ## Links -/

/-- The far end of a UALink port (05 R89). -/
structure UalPort where
  up : Bool
  dev : Nat
  port : Nat
  domain : Nat
deriving DecidableEq, Repr

/-- What a request outstanding on a link asks (03 R63): a read of a piece, a write, an atomic or a collective step. -/
inductive ReqKind where
  | read | write | atom | step
deriving DecidableEq, Repr

/-- A request with no response yet (03 R54, R63). `port` is 0 to 17 for UAL ports, 18 and 19 for Ports A and B; `core` is the
one whose engines made it; `clean`: no acquire, write or newer copy came since, so that a buffer may keep what a read
returns (09 R160); `tag` is the tag of a collective step (03 R61). -/
structure Req where
  id : Nat
  cmd : Nat
  piece : Nat
  kind : ReqKind
  port : Nat
  dev : Nat
  addr : Nat
  len : Nat
  sentAt : Nat
  core : Nat
  clean : Bool
  tag : Option Nat
deriving DecidableEq, Repr

/-- A byte to write, or the bits of it that a mask selects. -/
structure WByte where
  va : Nat
  mask : Byte
  v : Byte
deriving DecidableEq, Repr

/-- A write to host memory that has been sent and not yet delivered (03 R50): its bytes at their addresses there, with the
panel, the command and the packet that it belongs to, and the gang and the class of that command. A SIGNAL is one with an
atomic of eight bytes: its address, whether it adds, and its value (04 R79). -/
structure Posted where
  port : Port
  pid : Option Nat
  cmd : Option Nat
  pkt : Option (Nat × Nat)
  gang : Option (Nat × Cls)
  data : List WByte
  atom : Option (Nat × Bool × DWord)
deriving DecidableEq, Repr

/-- An entry of a pleat table (03 R57, R59): key and sum, arrivals, the time of the last one, and the contributions. -/
structure PleatEntry where
  id : Nat
  tile : Tile
  last : Nat
deriving DecidableEq, Repr

/-- The XL block and the links (03 R52 to R63). -/
structure Links where
  domain : BitVec 8
  devid : BitVec 9
  enable : Bool
  timeout : Nat
  ual : Vector UalPort 18
  hostUp : Vector Bool 2
  bar2Base : Nat
  win : Vector DWord 8
  cntBypass : Nat
  cntRetry : Nat
  cntDup : Nat
  cntLate : Nat
  route : List (BitVec 18)
  reqs : List Req
  dead : List Nat
  tags : List (Nat × Nat)
  stepTag : Nat
  posted : List Posted
  pleats : Vector (List PleatEntry) 50
deriving DecidableEq, Repr

/-! ## Queues -/

/-- Queue states (04 Table 4-5). -/
inductive QState where
  | disabled | idle | running | error
deriving DecidableEq, Repr

/-- How far a fetched packet has come (04 R73, R74). -/
inductive Stage where
  | fetched | started | done
deriving DecidableEq, Repr

/-- A fetched packet not yet complete: its index, its 64 bytes (none when the read failed), how far it has come, when a WAIT
last began to read its counter, and whether a SIGNAL has been performed since (04 R79). -/
structure Pkt where
  index : Nat
  bytes : Option (List Byte)
  stage : Stage
  polled : Nat
  reread : Bool
deriving DecidableEq, Repr

/-- A hardware queue (04 R68 to R71). -/
structure Queue where
  base : DWord
  cplBase : DWord
  tail : Word
  head : Word
  size : Nat
  port : Port
  enable : Bool
  part : Nat
  prio : Nat
  asid : Nat
  state : QState
  stIndex : Word
  stCode : Nat
  pkts : List Pkt
deriving DecidableEq, Repr

/-- A translation fault without an answer (04 R84, R85): its tag, its page and the commands joined to it. -/
structure XFault where
  tag : Option Nat
  asid : Nat
  page : Nat
  va : Nat
  kind : Nat
  access : Nat
  queue : Nat
  core : Nat
  cmds : List Nat
deriving DecidableEq, Repr

/-! ## Launches and partitions -/

/-- The failure code of a launch (06 R390): the cycle of the event that brought it, and its panel in dispatch order. -/
structure LaunchFail where
  at_ : Nat
  idx : Nat
  code : Nat
deriving DecidableEq, Repr

/-- A LAUNCH accepted and not yet complete (06 R105 to R108, R390). -/
structure Launch where
  id : Nat
  queue : Nat
  index : Nat
  hdr : Hdr
  gx : Nat
  gy : Nat
  gz : Nat
  kh : Vector DWord 4
  ready : Bool
  nextPanel : Nat
  requeued : List Nat
  failed : Bool
  code : Option LaunchFail
deriving DecidableEq, Repr

/-- A partition (05 R91, 06 R99, R111, R114): DRAIN and its state, clusters, pre-emption and save area; the dispatcher's
rr by priority, the cycles of its runs in the last 8, and the time of the latest PreemptCheck (06 R105, R111). -/
structure Part where
  drain : Bool
  drained : Bool
  clus : Word
  halt : Bool
  gap : Nat
  lat : Nat
  saveEnable : Bool
  saveBase : Nat
  saveSlots : Nat
  rr : List (Nat × Nat)
  runs : List Nat
  lastCheck : Nat
deriving DecidableEq, Repr

/-! ## Management -/

/-- Sensors and input power as they stand (01 R13, R15): the environment sets them. -/
structure Sensors where
  temps : Temps
  watts : Nat
deriving DecidableEq, Repr

/-- Thermal bands of Table 1-4. -/
inductive Band where
  | normal | warm | hot
deriving DecidableEq, Repr

/-- The management controller (chapters 01 and 05). The four `last` fields are the times of its latest ticks, and `resetAt` is
the time of the latest device reset (01 R19); `gen` is odd while the health page is being refreshed (05 R90). -/
structure Mgmt where
  aclk : Nat
  pwrCap : Nat
  pwrCause : Nat
  samples : List Nat
  floorMs : Nat
  held : Bool
  band : Band
  temps : Temps
  lastPower : Nat
  lastRaise : Nat
  lastThermal : Nat
  lastHealth : Nat
  resetDone : Bool
  resetWanted : Bool
  resetAt : Nat
  inReset : Vector Bool 2
  frBase : DWord
  frWritten : Bool
  frSize : Nat
  frProd : Nat
  frCons : Nat
  frBuf : List (List Byte)
  frLost : Vector Nat 4
  g4 : Option (List Byte)
  g4Served : Bool
  records : Vector Nat 5
  health : Memory
  gen : Nat
  attNonce : Vector DWord 4
  attBusy : Bool
  attUsed : List Byte
  attReport : List Byte
  fwSlot : Option Nat
  fwVersion : Nat
  fwBytes : List Byte
  fwMinimum : Nat
deriving DecidableEq, Repr

/-! ## The model's own fields -/

/-- A choice of who acts next (log entry 1). -/
inductive Choice where
  /-- A row of the operations table that is an event of the part. -/
  | ev (i : Instr)
  /-- The issue scan of a core goes on to the next position that issues (07 R129). -/
  | issue (core : Nat)
  /-- ACLK advances by one cycle (01 R10). -/
  | tick
  /-- The sensors and the input power take new values (01 R13, R15). -/
  | sense (x : Sensors)
  /-- The firmware flash takes new contents (05 R97). -/
  | flash (f : Firmware)
  /-- Host software stores bytes in host memory. -/
  | hostStore (a : Nat) (bytes : List Byte)
  /-- The oldest posted write of a port reaches host memory (03 R50). -/
  | deliver (p : Port)
  /-- A granule of a stack takes an upset or its correction (02 R23). -/
  | upset (stack off : Nat) (m : Option Mark)
  /-- An engine reads a scratchpad line before the effect that needs it (09 R163). -/
  | spRead (cmd line : Nat)
  /-- An engine writes a scratchpad line before its command completes (09 R163). -/
  | spWrite (cmd line : Nat)
  /-- The module is serviced (02 R34, 05 R94). -/
  | service
deriving DecidableEq, Repr

/-- What the latest host read returned: its port, whether it was aborted, whether its data is poisoned, and its bytes
(03 R389, 04 R67). -/
structure HostReply where
  port : Port
  aborted : Bool
  poisoned : Bool
  bytes : List Byte
deriving DecidableEq, Repr

/-- The fragment whose instruction is being executed: panel, gang and split-table entry. -/
structure Issuer where
  pid : Nat
  gang : Nat
  entry : Nat
deriving DecidableEq, Repr

end Sys2Proof.Machine
end

