-- ==== Sys2Proof/Machine/State.lean ====
section
/-! DEFINITION. The state of the machine, the reasons a step can stop, and the state right after a cold reset. -/

namespace Sys2Proof.Machine

open Sys2Proof

/-- Why the machine stops with a fault. Neither reason is a behaviour of the hardware: each says that the agenda asks
for an act that the specification does not let happen in this state (log entry 13). -/
inductive Fault where
  /-- Raised by the meaning of an event that is not enabled (log entry 13). Safe: the hardware never performs such an
  act, so no run of the hardware is left out. -/
  | notEnabled
  /-- Raised by the meaning of an encoded instruction when no fragment is issuing. Safe: an instruction acts only for
  a fragment that issues it (07 R129). -/
  | noIssuer
deriving DecidableEq, Repr

/-- Why an instruction has no meaning in this model. -/
inductive Refusal where
  /-- Raised by an arm of `exec` whose instruction has no meaning yet. Safe: nothing is claimed of it. -/
  | notModelled (mnemonic : String)
deriving DecidableEq, Repr

/-- Everything the specification gives the machine, and the model's own fields `reply`, `agenda`,
`issuer`, `free` and `nextId` (log entries 1 and 4). -/
structure State where
  /-- ACLK cycles since the cold reset (01 R10, R11). -/
  now : Nat
  /-- Femtoseconds since the cold reset (05 R89; log entry 12). -/
  fs : Nat
  mgmt : Mgmt
  sensors : Sensors
  flash : Firmware
  /-- The stacks: stack s, offset x at s × 2^37 + x, data and parity units alike (02 R20, R21). -/
  hbm : Memory
  marks : List (Nat × Mark)
  gus : Gusset
  links : Links
  sems : Vector (BitVec 2) 32
  queues : Vector Queue 256
  asidBase : DWord
  fqBase : DWord
  fqWritten : Bool
  fqSize : Nat
  fqProd : Nat
  fqCons : Nat
  xfaults : List XFault
  nextTag : Nat
  inval : Option DWord
  /-- MSI-X vectors raised, the latest first (04 R74). -/
  irqs : List Nat
  parts : Vector Part 8
  launches : List Launch
  panels : List Panel
  cores : Vector CoreSt 512
  clusters : Vector Cluster 32
  /-- The translation cache of the I/O die (04 R83). -/
  iodTlb : List TlbEntry
  cmds : List Cmd
  hostMem : Memory
  reply : Option HostReply
  agenda : List Choice
  issuer : Option Issuer
  free : Nat
  nextId : Nat
deriving DecidableEq, Repr

/-! ## The state after a cold reset -/

/-- Temperatures before the first sample. DESIGN CHOICE (log entry 5). -/
def temps0 : Temps := ⟨0, 0, 0, 0, 0, 0, Vector.replicate 12 0⟩

/-- The management controller after a cold reset (01 Table 1-3, 05 Tables 5-1 to 5-7; log entry 5). -/
def mgmt0 : Mgmt where
  aclk := 20
  pwrCap := 3000
  pwrCause := 0
  samples := []
  floorMs := 0
  held := false
  band := .normal
  temps := temps0
  lastPower := 0
  lastRaise := 0
  lastThermal := 0
  lastHealth := 0
  resetDone := true
  resetWanted := false
  resetAt := 0
  inReset := Vector.replicate 2 false
  frBase := 0
  frWritten := false
  frSize := 4
  frProd := 0
  frCons := 0
  frBuf := []
  frLost := Vector.replicate 4 0
  g4 := none
  g4Served := false
  records := Vector.replicate 5 0
  health := []
  gen := 0
  attNonce := Vector.replicate 4 0
  attBusy := false
  attUsed := []
  attReport := []
  fwSlot := some 0
  fwVersion := 0
  fwBytes := []
  fwMinimum := 0

/-- The gusset block of a module that has lost no stack (02 Tables 2-5, 2-6, 2-8). -/
def gusset0 : Gusset where
  lost := 0
  first := 0
  cause := 0
  failed := false
  pending := []
  errs := []
  log := []
  waits := []
  cntCorr := 0
  cntUncorr := 0
  cntRecon := 0
  cntRfail := 0
  cntSubst := 0
  cntOpenwait := 0
  cntNocmp := 0
  xpSize := 0
  xpCons := 0
  xpProd := 0
  xpBase := 0
  xpLater := []
  images := []

/-- The XL block after a cold reset (03 Tables 3-3, 3-4; log entry 5). -/
def links0 : Links where
  domain := 0
  devid := 0x1FF
  enable := false
  timeout := 50
  ual := Vector.replicate 18 ⟨false, 0, 0, 0⟩
  hostUp := Vector.replicate 2 true
  bar2Base := 0
  win := Vector.replicate 8 0
  cntBypass := 0
  cntRetry := 0
  cntDup := 0
  cntLate := 0
  route := List.replicate 432 0
  reqs := []
  dead := []
  tags := []
  stepTag := 0
  posted := []
  pleats := Vector.replicate 50 []

/-- A queue after a cold reset (04 Tables 4-3 to 4-5; log entry 5). -/
def queue0 : Queue where
  base := 0
  cplBase := 0
  tail := 0
  head := 0
  size := 4
  port := .a
  enable := false
  part := 0
  prio := 0
  asid := 0
  state := .disabled
  stIndex := 0
  stCode := 0
  pkts := []

/-- A partition after a cold reset (05 Table 5-2, 06 Tables 6-1, 6-4, 6-7). -/
def part0 (p : Nat) : Part where
  drain := false
  drained := false
  clus := if p = 0 then 0xFFFFFFFF else 0
  halt := false
  gap := 1
  lat := 0
  saveEnable := false
  saveBase := 0
  saveSlots := 0
  rr := []
  runs := []
  lastCheck := 0

/-- The B latch of a core that keeps nothing (20 R324). -/
def latch0 : BLatch where
  kept := false
  pid := 0
  owner := 0
  lay := []
  fmt := 0
  alpha := 0
  scale := .none
  krows := 0
  kpass := 0
  bytes := []

/-- A core with no resident panel (07 R129, 08 R155, 20 R324). -/
def core0 : CoreSt where
  active := List.replicate 8 none
  start := 0
  scan := 0
  used := [0, 0, 0, 0, 0]
  pass2 := 0
  lining := none
  tile := []
  tileOwner := none
  latch := latch0
  saves := []
  rbuf := []
  seen := []

/-- A cluster that is ONLINE with empty caches (04 R83, 05 R89). -/
def cluster0 : Cluster := ⟨false, [], [], [], []⟩

/-- The machine right after a cold reset on which firmware of slot 0 was accepted: every register at the value its
table states, memory with nothing listed, and every value that no table states as log entries 2 and 5 name it. -/
def State.reset : State where
  now := 0
  fs := 0
  mgmt := mgmt0
  sensors := ⟨temps0, 0⟩
  flash := ⟨some ⟨0, [], []⟩, none⟩
  hbm := []
  marks := []
  gus := gusset0
  links := links0
  sems := Vector.replicate 32 0
  queues := Vector.replicate 256 queue0
  asidBase := 0
  fqBase := 0
  fqWritten := false
  fqSize := 4
  fqProd := 0
  fqCons := 0
  xfaults := []
  nextTag := 0
  inval := none
  irqs := []
  parts := Vector.ofFn fun p => part0 p.val
  launches := []
  panels := []
  cores := Vector.replicate 512 core0
  clusters := Vector.replicate 32 cluster0
  iodTlb := []
  cmds := []
  hostMem := []
  reply := none
  agenda := []
  issuer := none
  free := 0
  nextId := 0

end Sys2Proof.Machine
end

