-- ==== Sys2Proof/Machine/Gusset.lean ====
section
/-! DEFINITION. Stacked memory with gusset parity (chapter 02): the stripe map, ECC marks and poison, reading and
reconstruction, the open-stripe log, parity, sub-granule writes and substitution. -/

namespace Sys2Proof.Machine

open Sys2Proof

/-- The size of local memory in bytes (02 R20). -/
def localBytes : Nat := 0x16000000000

/-- Where a data address lies (02 R21): stripe, unit, granule of the unit. -/
structure Place where
  stripe : Nat
  unit : Nat
  gran : Nat
deriving DecidableEq, Repr

/-- The place of the granule that holds a data address (02 R21 StripeMap). -/
def placeOf (da : Nat) : Place :=
  let o := da % 5632
  ⟨da / 5632, o / 512, o % 512 / 64⟩

/-- The parity stack of a stripe (02 R21). -/
def parityStack (n : Nat) : Nat := 11 - n % 12

/-- The stack that holds data unit `j` of stripe `n`; unit 11 stands for the parity unit. -/
def unitStack (n j : Nat) : Nat := if j = 11 then parityStack n else (parityStack n + 1 + j) % 12

/-- The address in `hbm` of granule `g` of unit `j` of stripe `n` (02 R21). -/
def physOf (n j g : Nat) : Nat := unitStack n j * 2 ^ 37 + n * 512 + g * 64

/-- The data address of granule `g` of data unit `j` of stripe `n`. -/
def dataAddr (n j g : Nat) : Nat := n * 5632 + j * 512 + g * 64

/-- A saturating 64-bit counter raised by one (02 R42, 03 R56). -/
def bump (n : Nat) : Nat := if n + 1 < 2 ^ 64 then n + 1 else 2 ^ 64 - 1

/-- A stack is lost (02 R34). -/
def stackLost (s : State) (k : Nat) : Bool := s.gus.lost.getLsbD k

/-- Stacks lost. -/
def lostCount (s : State) : Nat := ((List.range 12).filter (stackLost s)).length

/-- DEGRADED mode (02 Table 2-6). -/
def degraded (s : State) : Bool := lostCount s != 0 && !s.gus.failed

/-- The mark of a granule (02 R23). -/
def markAt (s : State) (phys : Nat) : Option Mark := (s.marks.find? fun m => m.1 == phys).map (·.2)

/-- Set or clear the mark of a granule. -/
def setMark (s : State) (phys : Nat) (m : Option Mark) : State :=
  let rest := s.marks.filter fun x => x.1 != phys
  { s with marks := match m with
      | none => rest
      | some m => (phys, m) :: rest }

/-- What a read of one granule of a stack finds (02 R23, R25). -/
inductive Found where
  | lost
  | poisonLost
  | poisonData
  | bad
  | good (bytes : List Byte)
deriving DecidableEq, Repr

/-- Count an uncorrectable read of a stack; more than 64 distinct offsets within 1 ms lose the stack (02 R34). -/
def noteUncorr (s : State) (stack off : Nat) : State :=
  let recent := s.gus.errs.filter fun e => decide (s.fs < e.2.2 + 10 ^ 12) && !(e.1 == stack && e.2.1 == off)
  let errs := (stack, off, s.fs) :: recent
  let many := decide (64 < (errs.filter fun e => e.1 == stack).length)
  let pend := if many && !s.gus.pending.any (fun p => p.1 == stack) then s.gus.pending ++ [(stack, 2)]
    else s.gus.pending
  { s with gus := { s.gus with cntUncorr := bump s.gus.cntUncorr, errs := errs, pending := pend } }

/-- A read of a granule that holds a mark and bytes, with its counters (02 R25). -/
def readMarked (s : State) (stack off : Nat) (m : Option Mark) (bytes : List Byte) : Found × State :=
  match m with
  | some .poisonLost => (.poisonLost, s)
  | some .poisonData => (.poisonData, s)
  | some .uncorrectable => (.bad, noteUncorr s stack off)
  | some .corrected => (.good bytes, { s with gus := { s.gus with cntCorr := bump s.gus.cntCorr } })
  | none => (.good bytes, s)

/-- Read one granule of a stack with ECC correction, with its counters (02 R25). -/
def readUnit (s : State) (n j g : Nat) : Found × State :=
  let phys := physOf n j g
  if stackLost s (unitStack n j) then (.lost, s)
  else readMarked s (unitStack n j) (n * 512 + g * 64) (markAt s phys) (s.hbm.read phys 64)

/-- Bytewise XOR of two granules. -/
def xorBytes (a b : List Byte) : List Byte := List.zipWith (· ^^^ ·) a b

/-- A granule of zeros. -/
def zeroGranule : List Byte := List.replicate 64 0

/-- Read several granules of a stripe at one offset, with all counters. -/
def readUnits (s : State) (n g : Nat) : List Nat → List Found × State
  | [] => ([], s)
  | j :: js =>
    let (f, s1) := readUnit s n j g
    let (fs, s2) := readUnits s1 n g js
    (f :: fs, s2)

/-- A stripe has an open entry (02 R29). -/
def stripeOpen (s : State) (n : Nat) : Bool := s.gus.log.any fun e => e.stripe == n

/-- Open entries of the controller of a stripe's parity stack (02 R29). -/
def logCount (s : State) (n : Nat) : Nat :=
  (s.gus.log.filter fun e => parityStack e.stripe == parityStack n).length

/-- What a read of a granule gives (02 R25): its bytes, a failure with its status code, or that it must wait for the
stripe to close or for a reconstruction. -/
inductive ReadOut where
  | ok (bytes : List Byte)
  | fail (code : Nat)
  | wait
deriving DecidableEq, Repr

/-- SubPattern (02 R32). -/
def subPattern (subv : Nat) : List Byte :=
  match subv with
  | 0 => zeroGranule
  | 1 => (List.replicate 16 [0x00, 0x00, 0xC0, 0x7F]).flatten
  | 2 => (List.replicate 32 [0xC0, 0x7F]).flatten
  | _ => List.replicate 64 0x7F

/-- fail(code) of ReadGranule: substitution on a tolerant page, else the code (02 R25, R31). `tol` is SUBV of the leaf
when its TOL bit is set. -/
def failRead (s : State) (code : Nat) (tol : Option Nat) : ReadOut × State :=
  match tol with
  | some v => (.ok (subPattern v), { s with gus := { s.gus with cntSubst := bump s.gus.cntSubst } })
  | none =>
    if code = 0x12 then (.fail code, { s with gus := { s.gus with cntRfail := bump s.gus.cntRfail } })
    else (.fail code, s)

/-- The units of a stripe other than `j`, parity (11) included. -/
def otherUnits (j : Nat) : List Nat := (List.range 12).filter fun i => i != j

/-- The sources of a reconstruction joined: their XOR, or none when one of them is no source (02 R25). -/
def joinSources : List Found → Option (List Byte)
  | [] => some zeroGranule
  | .good b :: fs => (joinSources fs).map (xorBytes b)
  | _ :: _ => none

/-- A read that failed, settled by its page: substituted or counted (02 R25 fail). -/
def settleRead (tol : Option Nat) (r : ReadOut × State) : ReadOut × State :=
  match r with
  | (.fail code, s) => failRead s code tol
  | r => r

/-- The reconstruct part of ReadGranule, before its fail part (02 R25). DESIGN CHOICE (log entry 87): a data source that holds
POISON_LOST makes it fail with UNCORRECTABLE, as one that holds POISON_DATA does. -/
def rawReconstruct (s : State) (n j g : Nat) : ReadOut × State :=
  if stripeOpen s n then (.wait, s)
  else if (otherUnits j).any fun i => stackLost s (unitStack n i) then (.fail 0x11, s)
  else
    let (fs, s1) := readUnits s n g (otherUnits j)
    let (pf, _) := readUnit s n 11 g
    if pf == .poisonLost then (.fail 0x12, s1)
    else match joinSources fs with
      | none => (.fail 0x11, s1)
      | some b => (.ok b, { s1 with gus := { s1.gus with cntRecon := bump s1.gus.cntRecon } })

/-- The reconstruct part of ReadGranule (02 R25). -/
def reconstruct (s : State) (n j g : Nat) (tol : Option Nat) : ReadOut × State :=
  settleRead tol (rawReconstruct s n j g)

/-- ReadGranule up to its label reconstruct, before its fail part (02 R25): `wait` when a reconstruction is needed. -/
def rawDirect (s : State) (n j g : Nat) : ReadOut × State :=
  match readUnit s n j g with
  | (.good b, s1) => (.ok b, s1)
  | (.poisonLost, s1) => (.fail 0x12, s1)
  | (.poisonData, s1) => (.fail 0x11, s1)
  | (.lost, s1) => (.wait, s1)
  | (.bad, s1) => (.wait, s1)

/-- ReadGranule up to its label reconstruct (02 R25): the bytes, a failure, or `wait` when a reconstruction is
needed. -/
def readDirect (s : State) (n j g : Nat) (tol : Option Nat) : ReadOut × State := settleRead tol (rawDirect s n j g)

/-- ReadGranule before its fail part (02 R25). -/
def rawGranule (s : State) (da : Nat) : ReadOut × State :=
  let p := placeOf da
  match rawDirect s p.stripe p.unit p.gran with
  | (.wait, s1) => rawReconstruct s1 p.stripe p.unit p.gran
  | r => r

/-- ReadGranule whole, for the device's own reads, which take place at one point (02 R25). -/
def readGranule (s : State) (da : Nat) (tol : Option Nat) : ReadOut × State := settleRead tol (rawGranule s da)

/-! ## Writing -/

/-- Store the data of a granule: nothing on a lost stack, and a mark is cleared by the new content (02 R28, R30). -/
def storeUnit (s : State) (n j g : Nat) (bytes : List Byte) : State :=
  if stackLost s (unitStack n j) then s
  else
    let s1 := setMark s (physOf n j g) none
    { s1 with hbm := s1.hbm.write (physOf n j g) bytes }

/-- The content of a granule before a write. -/
def heldGranule (s : State) (n j g : Nat) : OldGranule := .held (markAt s (physOf n j g)) (s.hbm.read (physOf n j g) 64)

/-- The old content that ParityUpdate uses: as the sub-granule write got it, or as read with ECC correction, zero if
poisoned, unknown otherwise (02 R28). -/
def oldForParity (s : State) (n j g : Nat) (o : OldGranule) : Option (List Byte) × State :=
  match o with
  | .got b => (some b, s)
  | .held m bytes =>
    match readMarked s (unitStack n j) (n * 512 + g * 64) m bytes with
    | (.good b, s1) => (some b, s1)
    | (.poisonLost, s1) => (some zeroGranule, s1)
    | (.poisonData, s1) => (some zeroGranule, s1)
    | (_, s1) => (none, s1)

/-- The XOR of the data units of a stripe at one offset, each that ECC cannot correct being set to POISON_DATA and
counting as zero (02 R28, R38). -/
def sumUnits (s : State) (n g : Nat) : List Nat → List Byte × State
  | [] => (zeroGranule, s)
  | j :: js =>
    match readUnit s n j g with
    | (.good b, s1) =>
      let (r, s2) := sumUnits s1 n g js
      (xorBytes b r, s2)
    | (.bad, s1) => sumUnits (setMark s1 (physOf n j g) (some .poisonData)) n g js
    | (_, s1) => sumUnits s1 n g js

/-- Store a parity granule. -/
def storeParity (s : State) (n g : Nat) (bytes : List Byte) : State := storeUnit s n 11 g bytes

/-- Data units of a stripe other than `j`. -/
def otherData (j : Nat) : List Nat := (List.range 11).filter fun i => i != j

/-- Parity made anew from the new content and the other data granules; POISON_LOST when one of them is lost (02 R28). -/
def parityAnew (s : State) (n j g : Nat) (new : List Byte) : State :=
  if (otherData j).any fun i => stackLost s (unitStack n i) then setMark s (physOf n 11 g) (some .poisonLost)
  else
    let (sum, s1) := sumUnits s n g (otherData j)
    storeParity s1 n g (xorBytes new sum)

/-- ParityUpdate for a data unit on a stack that is not lost (02 R28). A poison code counts as zero in `new`. -/
def parityUpdate (s : State) (n j g : Nat) (old : OldGranule) (new : List Byte) : State :=
  if stackLost s (parityStack n) then s
  else match readUnit s n 11 g with
    | (.poisonLost, s1) => s1
    | (op, s1) =>
      match op, oldForParity s1 n j g old with
      | .good op, (some od, s2) => storeParity s2 n g (xorBytes (xorBytes op od) new)
      | _, (_, s2) => parityAnew s2 n j g new

/-- The parity of a granule on a lost stack in DEGRADED mode (02 R38): new data XOR the other ten data granules; it
clears POISON_LOST. -/
def parityForLost (s : State) (n j g : Nat) (new : List Byte) : State :=
  if stackLost s (parityStack n) then s
  else
    let (sum, s1) := sumUnits s n g (otherData j)
    storeParity s1 n g (xorBytes new sum)

/-- Enter a write of one granule in the log and write its data (02 R28 steps 1 and 2). `old` is its content before the
write. -/
def openGranule (s : State) (n j g : Nat) (old : OldGranule) (bytes : List Byte) (o : Origin) : State :=
  let s1 := storeUnit s n j g bytes
  { s1 with gus := { s1.gus with log := s1.gus.log ++ [⟨n, [⟨j, g, bytes, old⟩], false, o⟩] } }

/-- The granules of a full stripe with their bytes. -/
def stripeParts (bytes : List Byte) : List OpenPart :=
  (List.range 88).map fun i => ⟨i / 8, i % 8, (bytes.drop (64 * i)).take 64, .got zeroGranule⟩

/-- Enter a full-stripe write in the log and write its data (02 R28). -/
def openStripe (s : State) (n : Nat) (bytes : List Byte) (o : Origin) : State :=
  let parts := stripeParts bytes
  let s1 := parts.foldl (fun t p => storeUnit t n p.unit p.gran p.bytes) s
  { s1 with gus := { s1.gus with log := s1.gus.log ++ [⟨n, parts, true, o⟩] } }

/-- Write the parity of one granule of an open entry (02 R28 step 3, R38). -/
def parityOfPart (n : Nat) (s : State) (p : OpenPart) : State :=
  if stackLost s (unitStack n p.unit) then (if s.gus.failed then s else parityForLost s n p.unit p.gran p.bytes)
  else parityUpdate s n p.unit p.gran p.old p.bytes

/-- The XOR at offset `g` of the new units of a full-stripe write. -/
def stripeXor (parts : List OpenPart) (g : Nat) : List Byte :=
  (parts.filter fun p => p.gran == g).foldl (fun a p => xorBytes a p.bytes) zeroGranule

/-- Write the parity of an open entry (02 R28 step 3): of a full stripe from its eleven new units. -/
def parityOfEntry (s : State) (e : OpenEntry) : State :=
  if e.full then (List.range 8).foldl (fun t g => storeParity t e.stripe g (stripeXor e.parts g)) s
  else e.parts.foldl (parityOfPart e.stripe) s

/-- Retire an open entry: its parity is written and it leaves the log (02 R28 steps 3 and 4). -/
def retireEntry (s : State) (e : OpenEntry) : State :=
  let s1 := parityOfEntry s e
  { s1 with gus := { s1.gus with log := s1.gus.log.erase e } }

/-! ## Buffered copies and the end of a write (09 R157, R160, R169) -/

/-- The core number of commands of no core. -/
abbrev noCore : Nat := 0xFFFF

/-- A copy is of a granule. -/
def Copy.is (x : Copy) (space g : Nat) : Bool := x.space == space && x.addr == g

/-- A read that is outstanding asks about a granule of a peer. -/
def Req.reads (r : Req) (space g : Nat) : Bool := r.kind == .read && decide (r.port < 18) && space == 1 + r.dev && g == r.addr

/-- What outstanding reads return is not kept by any buffer (09 R160). -/
def soil (s : State) (f : Req → Bool) : State :=
  { s with links := { s.links with reqs := s.links.reqs.map fun r => if f r then { r with clean := false } else r } }

/-- Copies without those of a granule. -/
def without (space g : Nat) (xs : List Copy) : List Copy := xs.filter fun x => !x.is space g

/-- A cluster without its copies of a granule. -/
def Cluster.dropGranule (space g : Nat) (c : Cluster) : Cluster :=
  { c with smkCache := without space g c.smkCache, rbuf := without space g c.rbuf }

/-- A write by a core removes the copies that the core and its cluster hold; what their outstanding reads of the granule
return is not kept (09 R160). -/
def dropCopy (s : State) (core space g : Nat) : State :=
  if 512 ≤ core then s
  else
    let q := vget s.cores core core0
    let cl := vget s.clusters (core / 16) cluster0
    soil { s with
      cores := vset s.cores core { q with rbuf := without space g q.rbuf }
      clusters := vset s.clusters (core / 16) (cl.dropGranule space g) } fun r => r.core / 16 == core / 16 && r.reads space g

/-- An atomic removes every copy on the device (09 R169). -/
def dropAllCopies (s : State) (space g : Nat) : State :=
  soil { s with
    cores := s.cores.map fun q => { q with rbuf := without space g q.rbuf }
    clusters := s.clusters.map (Cluster.dropGranule space g) } fun r => r.reads space g

/-- The pieces of commands that stand in the log at a stripe are complete (02 R28, 09 R157). -/
def settleOpened (s : State) (stripe : Nat) : State :=
  { s with cmds := s.cmds.map fun c => { c with
      done := c.done ++ (c.opened.filter fun o => o.2 == stripe).map (·.1)
      opened := c.opened.filter fun o => o.2 != stripe } }

/-- A write of a granule on a lost stack stores nothing in FAILED mode and fails (02 R39). -/
def writeFails (s : State) (n j : Nat) : Bool := s.gus.failed && stackLost s (unitStack n j)

/-- Write one whole granule through the log, whose entry retires at once: the device's own writes (02 R27, R28; log entry
17). -/
def writeGranule (s : State) (da : Nat) (old : OldGranule) (bytes : List Byte) : Option Nat × State :=
  let p := placeOf da
  if writeFails s p.stripe p.unit then (some 0x11, s)
  else
    let s1 := openGranule s p.stripe p.unit p.gran old bytes .device
    (none, retireEntry s1 ⟨p.stripe, [⟨p.unit, p.gran, bytes, old⟩], false, .device⟩)

/-- The content of the granule that holds a data address. -/
def heldAtAddr (s : State) (da : Nat) : OldGranule :=
  let p := placeOf da
  heldGranule s p.stripe p.unit p.gran

/-- Bytes `off` and on of a granule replaced (02 R30 Merge). -/
def mergeBytes (old : List Byte) (off : Nat) (bytes : List Byte) : List Byte :=
  old.take off ++ bytes ++ old.drop (off + bytes.length)

/-- Leave a granule poisoned after a failed merge: POISON_LOST for RECONSTRUCT_FAIL, else POISON_DATA, with the parity
update that comes with a new poison code (02 R30), which reads the old content, as the merge has not got it (log entry 21). DESIGN
CHOICE (log entry 100): a granule of a lost stack, which has no place for
a code, is left as it is. -/
def poisonGranule (s : State) (da code : Nat) : State :=
  let p := placeOf da
  let phys := physOf p.stripe p.unit p.gran
  if stackLost s (unitStack p.stripe p.unit) ∨ markAt s phys = some .poisonLost ∨ markAt s phys = some .poisonData then s
  else
    let old := heldGranule s p.stripe p.unit p.gran
    let s1 := setMark s phys (some (if code = 0x12 then .poisonLost else .poisonData))
    parityUpdate s1 p.stripe p.unit p.gran old zeroGranule

/-- What a sub-granule write of a page reads (02 R30): the bytes to merge into, with the old content for ParityUpdate; or
the code of its failure, the granule left poisoned. -/
def readForMerge (s : State) (da : Nat) (tol : Option Nat) : Except Nat (List Byte × OldGranule) × State :=
  match rawGranule s da, tol with
  | (.ok old, s1), _ => (.ok (old, .got old), s1)
  | (.wait, s1), _ => (.error 0, s1)
  | (.fail code, s1), none => (.error code, poisonGranule (failRead s1 code none).2 da code)
  | (.fail code, s1), some v => (.ok (subPattern v, heldAtAddr s1 da), (failRead s1 code tol).2)

/-- Write a granule or part of one at one point, for the device's own writes through a leaf: read, merge, write (02 R30). -/
def writeNow (s : State) (tol : Option Nat) (da : Nat) (bytes : List Byte) : Option Nat × State :=
  let base := da / 64 * 64
  if da % 64 = 0 ∧ bytes.length = 64 then writeGranule s da (heldAtAddr s da) bytes
  else match readForMerge s base tol with
    | (.ok (old, o), s1) => writeGranule s1 base o (mergeBytes old (da % 64) bytes)
    | (.error code, s1) => (some code, s1)

/-! ### Writes of the device that wait (02 R27, R29; log entry 17) -/

/-- A write waits for the log of a stripe's controller. -/
def stripeWaits (s : State) (n : Nat) : Bool := s.gus.waits.any fun w => w.stripe == n

/-- A write waits at a stripe of a range of data addresses. -/
def rangeWaits (s : State) (da len : Nat) : Bool :=
  s.gus.waits.any fun w => decide (da / 5632 ≤ w.stripe ∧ w.stripe ≤ (da + len - 1) / 5632)

/-- A write is a record of a ring. -/
def OwnWrite.isRing : OwnWrite → Bool
  | .record _ => true
  | _ => false

/-- What a write that waits is, when it is one of the device itself. -/
def LogWait.own (w : LogWait) : Option OwnWrite :=
  match w.who with
  | .device x .. => some x
  | .piece .. => none

/-- A write that waits is a record of a ring. -/
def LogWait.isRing (w : LogWait) : Bool := w.own.any OwnWrite.isRing

/-- A record of a ring waits: the records after it follow it (05 R93). -/
def ringWaits (s : State) : Bool := s.gus.waits.any LogWait.isRing

/-- A completion record of a queue waits: its packet is not yet complete (04 R74). -/
def recordWaits (s : State) (q : Nat) : Bool :=
  s.gus.waits.any fun w => match w.own with
    | some (.record (some c)) => c.1 == q
    | _ => false

/-- A host write that a device reset performs waits (02 R40). -/
def hostWaits (s : State) : Bool := s.gus.waits.any fun w => w.own == some .host

/-- What follows a write of the device: the vector of a completion record is raised (04 R74). -/
def afterOwn (s : State) : OwnWrite → State
  | .record (some (q, true)) => { s with irqs := q :: s.irqs }
  | _ => s

/-- The device's write that is next at its stripe, which is closed, and whose log has room; a record of a ring is the first
one that waits. -/
def deviceTurn (s : State) : Option (LogWait × OwnWrite × Nat × List Byte) :=
  s.gus.waits.findSome? fun w =>
    match w.who with
    | .device x da bytes =>
      if s.gus.waits.find? (fun v => v.stripe == w.stripe) == some w && !stripeOpen s w.stripe && decide (logCount s w.stripe < 256)
        && (!x.isRing || s.gus.waits.find? LogWait.isRing == some w)
      then some (w, x, da, bytes) else none
    | .piece .. => none

/-- Perform up to `n` writes of the device whose turn has come. -/
def landDevice : Nat → State → State
  | 0, s => s
  | n + 1, s =>
    match deviceTurn s with
    | some (w, x, da, bytes) =>
      landDevice n (afterOwn (writeNow { s with gus := { s.gus with waits := s.gus.waits.erase w } } none da bytes).2 x)
    | none => s

/-- Perform every write of the device whose turn has come. -/
def landWaiting (s : State) : State := landDevice s.gus.waits.length s

/-- An open entry ends for the commands that made it: its write is complete, and the copies of its granules that their cores
hold go (02 R28, 09 R157, R160). -/
def settleEntry (s : State) (e : OpenEntry) : State :=
  let cores := (s.cmds.filter fun c => c.opened.any fun o => o.2 == e.stripe).map (·.core)
  cores.foldl (fun t q => e.parts.foldl (fun t p => dropCopy t q 0 (dataAddr e.stripe p.unit p.gran)) t)
    (settleOpened s e.stripe)

/-- Retire an open entry: its parity is written and its write is complete (02 R28). Writes of the device that waited for it
follow. -/
def closeEntry (s : State) (e : OpenEntry) : State := landWaiting (settleEntry (retireEntry s e) e)

/-- A write finds its log full, and is counted (02 R29). -/
def countFull (s : State) (n : Nat) : State :=
  if logCount s n < 256 then s else { s with gus := { s.gus with cntOpenwait := bump s.gus.cntOpenwait } }

/-- A write of the device that finds the log full waits until the oldest entry of its controller retires (02 R29). -/
def makeRoom (s : State) (n : Nat) : State :=
  if logCount s n < 256 then s
  else match s.gus.log.find? fun e => parityStack e.stripe == parityStack n with
    | some e => closeEntry (countFull s n) e
    | none => countFull s n

/-- A write of the device itself waits for the open write to its stripe and for room in the log: they end first (02 R27, R29;
log entry 17). -/
def settleBefore (s : State) (n : Nat) : State := makeRoom ((s.gus.log.filter fun e => e.stripe == n).foldl closeEntry s) n

/-- Write a granule or part of one for the device through a leaf. Writes to a stripe take effect in the order in which they reach
its controller (02 R27): behind a write that waits there this one waits too, and a record of a ring behind a record that waits (05
R93); else what is open at the stripe ends first. DESIGN CHOICE (log entry 118): a write of the device that waits at a stripe whose
log is full counts in GUS_CNT_OPENWAIT. -/
def writePart (s : State) (x : OwnWrite) (tol : Option Nat) (da : Nat) (bytes : List Byte) : Option Nat × State :=
  let n := (placeOf da).stripe
  if stripeWaits s n || x.isRing && ringWaits s then
    let s1 := countFull s n
    (none, { s1 with gus := { s1.gus with waits := s1.gus.waits ++ [⟨n, .device x da bytes⟩] } })
  else
    let r := writeNow (settleBefore s n) tol da bytes
    (r.1, afterOwn r.2 x)

/-- Cut bytes at granule boundaries: address and bytes of each part. -/
def cutGranules : Nat → Nat → List Byte → List (Nat × List Byte)
  | 0, _, _ => []
  | _, _, [] => []
  | k + 1, da, b :: bs =>
    let n := 64 - da % 64
    (da, (b :: bs).take n) :: cutGranules k (da + n) ((b :: bs).drop n)

/-- Write bytes at a local data address through a leaf, granule by granule; the first failure is reported. -/
def writeThrough (s : State) (x : OwnWrite) (tol : Option Nat) (da : Nat) (bytes : List Byte) : Option Nat × State :=
  (cutGranules (bytes.length + 1) da bytes).foldl
    (fun r p => match writePart r.2 x tol p.1 p.2 with
      | (e, s1) => (r.1.or e, s1)) (none, s)

/-- Write bytes at a local data address for the device's own use. -/
def writeLocal (s : State) (da : Nat) (bytes : List Byte) : Option Nat × State := writeThrough s .other none da bytes

/-- Write a record of a ring at a local data address: it follows the records written before it (05 R93). -/
def writeRing (s : State) (cpl : Option (Nat × Bool)) (da : Nat) (bytes : List Byte) : State :=
  (writeThrough s (.record cpl) none da bytes).2

/-- The addresses of the granules that a range touches. -/
def granulesOf (da len : Nat) : List Nat :=
  if len = 0 then [] else (List.range ((da + len - 1) / 64 - da / 64 + 1)).map fun i => da / 64 * 64 + 64 * i

/-- Read granules one after the other through a leaf; none when one of them fails or has to wait. -/
def readGranules (s : State) (tol : Option Nat) : List Nat → Except Nat (List Byte) × State
  | [] => (.ok [], s)
  | a :: as =>
    match readGranule s a tol with
    | (.ok b, s1) =>
      match readGranules s1 tol as with
      | (.ok bs, s2) => (.ok (b ++ bs), s2)
      | r => r
    | (.fail code, s1) => (.error code, s1)
    | (.wait, s1) => (.error 0, s1)

/-- Read bytes at a local data address at one point through a leaf: the bytes, or the status of the failed read; code 0
says that the read has to wait for a stripe to close (02 R25, R29, R31). -/
def readThrough (s : State) (tol : Option Nat) (da len : Nat) : Except Nat (List Byte) × State :=
  match readGranules s tol (granulesOf da len) with
  | (.ok bs, s1) => (.ok ((bs.drop (da % 64)).take len), s1)
  | r => r

/-- Read bytes at a local data address for the device's own use. -/
def readLocal (s : State) (da len : Nat) : Except Nat (List Byte) × State := readThrough s none da len

end Sys2Proof.Machine
end

