-- ==== Sys2Proof/Machine/Records.lean ====
section
/-! DEFINITION. Fault records and the device's own writes to rings in local or host memory (chapters 03 to 05). -/

namespace Sys2Proof.Machine

open Sys2Proof

/-- Microseconds since the cold reset (05 R89). -/
def micros (s : State) : Nat := s.fs / 10 ^ 9

/-- The number of a host port in `hostUp` and `inReset`. -/
def portNo : Port → Nat
  | .a => 0
  | .b => 1

/-- The other host port. -/
def otherPort : Port → Port
  | .a => .b
  | .b => .a

/-- A host port's link is up. -/
def portUp (s : State) (p : Port) : Bool := vget s.links.hostUp (portNo p) false

/-- The port that carries host traffic whose home is `p`: `p` while its link is up, else the other (03 R50). -/
def carrier (s : State) (p : Port) : Option Port :=
  if portUp s p then some p else if portUp s (otherPort p) then some (otherPort p) else none

/-- Bit 63 of a ring base: a host bus address (04 Table 4-3). -/
def baseIsHost (b : DWord) : Bool := b.getLsbD 63

/-- The ring address of a base register, bits [56:12] (04 Table 4-3). -/
def baseAddr (b : DWord) : Nat := b.toNat % 2 ^ 57 / 2 ^ 12 * 2 ^ 12

/-- Send a posted write to host memory (03 R50). -/
def postHost (s : State) (w : Posted) : State := { s with links := { s.links with posted := s.links.posted ++ [w] } }

/-- Whole bytes from an address on. -/
def wholeBytes (va : Nat) (bs : List Byte) : List WByte := bs.mapIdx fun i b => ⟨va + i, 0xFF, b⟩

/-- A byte with the bits of `old` that its mask leaves out (02 R30 Merge). -/
def WByte.over (w : WByte) (old : Byte) : Byte := (old &&& ~~~w.mask) ||| (w.v &&& w.mask)

/-- A posted write of the device itself. -/
def Posted.own (p : Port) (data : List WByte) : Posted where
  port := p
  pid := none
  cmd := none
  pkt := none
  gang := none
  data := data
  atom := none

/-- A posted write reaches host memory; a SIGNAL reads and writes its word there (04 R79). -/
def Posted.land (w : Posted) (m : Memory) : Memory :=
  let m1 := w.data.foldl (fun m b => m.put b.va (b.over (m.get b.va))) m
  match w.atom with
  | some (a, add, v) => m1.writeNat a 8 (if add then m1.readNat a 8 + v.toNat else v.toNat)
  | none => m1

/-- A posted write touches a granule of host memory. -/
def Posted.touches (w : Posted) (g : Nat) : Bool :=
  (w.data.any fun b => b.va / 64 == g) || w.atom.any fun a => a.1 / 64 == g

/-- Two posted writes touch one granule of host memory. -/
def Posted.meets (w v : Posted) : Bool := (w.data.any fun b => v.touches (b.va / 64)) || w.atom.any fun a => v.touches (a.1 / 64)

/-- A posted write reaches host memory before one that was sent later: of one port (03 R50), of one granule, whose coherence
order is that in which its writes complete (09 R157), and of the records that the device itself writes (05 R93). -/
def Posted.precedes (w v : Posted) : Bool := w.port == v.port || w.meets v || (w.cmd.isNone && v.cmd.isNone)

/-- Posted writes, oldest first, cut in two: those that `f` selects with the ones that precede them, and the rest. -/
def splitPosted (f : Posted → Bool) : List Posted → List Posted × List Posted
  | [] => ([], [])
  | w :: ws =>
    let r := splitPosted f ws
    if f w || r.1.any w.precedes then (w :: r.1, r.2) else (r.1, w :: r.2)

/-- The posted writes that `f` selects among the `n` oldest reach host memory, after the ones that precede them. -/
def deliverAmong (s : State) (n : Nat) (f : Posted → Bool) : State :=
  let r := splitPosted f (s.links.posted.take n)
  { s with
    hostMem := r.1.foldl (fun m w => w.land m) s.hostMem
    links := { s.links with posted := r.2 ++ s.links.posted.drop n } }

/-- The posted writes that `f` selects reach host memory, after the ones that precede them. -/
def deliverWhere (s : State) (f : Posted → Bool) : State := deliverAmong s s.links.posted.length f

/-- Every write of a packet reaches host memory (04 R74). -/
def deliverPacket (s : State) (q i : Nat) : State := deliverWhere s fun w => w.pkt == some (q, i)

/-- The oldest posted write of a port reaches host memory. -/
def deliverOne (s : State) (p : Port) : Option State :=
  (s.links.posted.findIdx? fun w => w.port == p).map fun i => deliverAmong s (i + 1) fun w => w.port == p

/-- What a read or an atomic at `addr` in host memory, sent on a port, finds there: the writes sent on that port before it (03
R50), and every write that is complete in its granule (09 R157, R160). -/
def deliverFor (s : State) (p : Port) (addr : Nat) : State := deliverWhere s fun w => w.port == p || w.touches (addr / 64)

/-- The device writes a record of a ring at an address of host memory or at a data address; the vector of a completion record
follows it (04 R74). DESIGN CHOICE (log entries 94, 106 and 107): one for host memory is lost while neither port is up. DESIGN CHOICE
(log entry 108): one whose place lies beyond local memory is dropped. -/
def writeRecord (s : State) (cpl : Option (Nat × Bool)) (host : Bool) (home : Port) (a : Nat) (bytes : List Byte) : State :=
  if host then
    match carrier s home with
    | some p => afterOwn (postHost s (.own p (wholeBytes a bytes))) (.record cpl)
    | none => afterOwn s (.record cpl)
  else if a + bytes.length ≤ localBytes then writeRing s cpl a bytes
  else afterOwn s (.record cpl)

/-- A record of the device goes into a ring whose base register is `b`, at `off` bytes from its base (04 Table 4-3). -/
def ringWrite (s : State) (cpl : Option (Nat × Bool)) (b : DWord) (home : Port) (off : Nat) (bytes : List Byte) : State :=
  writeRecord s cpl (baseIsHost b) home (baseAddr b + off) bytes

/-- The 32 bytes of a fault record (05 Table 5-4). DESIGN CHOICE (log entry 144): TIME is the moment at which it is made. -/
def recordBytes (s : State) (r : FaultRec) : List Byte :=
  natBytes 8 (micros s) ++ natBytes 1 r.grade ++ [r.source] ++ natBytes 2 r.code.toNat ++ [r.queue, r.part]
    ++ natBytes 2 r.core.toNat ++ natBytes 4 r.index.toNat ++ natBytes 2 r.asid.toNat ++ [r.stack, r.port]
    ++ natBytes 8 r.detail.toNat

/-- The fault ring takes a record (05 R93). -/
def frRoom (s : State) : Bool :=
  s.mgmt.frWritten && decide ((s.mgmt.frProd + 2 ^ 16 - s.mgmt.frCons) % 2 ^ 16 < 2 ^ s.mgmt.frSize)

/-- Put one record into the fault ring (05 R93). DESIGN CHOICE (log entry 107): the indices run freely modulo 2^16, and the slot is the
producer index modulo 2^SIZE. DESIGN CHOICE (log entries 107 and 108): the index advances too when the record is lost on its way. -/
def frPut (s : State) (bytes : List Byte) : State :=
  let s1 := ringWrite s none s.mgmt.frBase .a (32 * (s.mgmt.frProd % 2 ^ s.mgmt.frSize)) bytes
  { s1 with mgmt := { s1.mgmt with frProd := (s1.mgmt.frProd + 1) % 2 ^ 16 } }

/-- Move waiting records into the ring while it has room, in creation order (05 R93). -/
def frFlush : Nat → State → State
  | 0, s => s
  | k + 1, s =>
    match s.mgmt.frBuf with
    | [] => s
    | b :: bs => if frRoom s then frFlush k { frPut s b with mgmt := { (frPut s b).mgmt with frBuf := bs } } else s

/-- A saturating 16-bit count raised by one (05 R93, R95). -/
def bump16 (n : Nat) : Nat := min (n + 1) 65535

/-- A record names a hardware fault in a cluster (05 R386). -/
def namesCluster (r : FaultRec) : Bool := decide (3 ≤ r.grade) && r.source == 3 && r.core != 0xFFFF

/-- Fence the cluster that a record names (05 R89, R386). -/
def fenceFor (s : State) (r : FaultRec) : State :=
  if namesCluster r then
    let c := r.core.toNat / 16
    match s.clusters[c]? with
    | some cl => { s with clusters := vset s.clusters c { cl with fenced := true } }
    | none => s
  else s

/-- Count a record that is written, by its grade (05 Table 5-1). -/
def countRecord (s : State) (grade : Nat) : State :=
  { s with mgmt := { s.mgmt with records := vset s.mgmt.records grade (vget s.mgmt.records grade 0 + 1) } }

/-- A G4 record enters the latch (05 R93, R94). -/
def latchG4 (s : State) (grade : Nat) (bytes : List Byte) : State :=
  if grade = 4 then { s with mgmt := { s.mgmt with g4 := some bytes, g4Served := false } } else s

/-- Write a fault record (05 R93): into the ring, else into the internal buffer, else it is dropped and counted; a G4
record always enters the latch. DESIGN CHOICE (log entry 116): one that enters the buffer counts among the records of its grade
there and then; (log entry 144): its TIME stays the moment at which it was made. -/
def addRecord (s : State) (r : FaultRec) : State :=
  let bytes := recordBytes s r
  let s1 := latchG4 (fenceFor s r) r.grade bytes
  if s1.mgmt.frBuf.isEmpty && frRoom s1 then frPut (countRecord s1 r.grade) bytes
  else if s1.mgmt.frBuf.length < 64 then
    countRecord { s1 with mgmt := { s1.mgmt with frBuf := s1.mgmt.frBuf ++ [bytes] } } r.grade
  else if r.grade = 4 then countRecord s1 r.grade
  else { s1 with mgmt := { s1.mgmt with
    frLost := vset s1.mgmt.frLost r.grade (bump16 (vget s1.mgmt.frLost r.grade 0)) } }

/-- A record with no queue, partition, core, stack or port. -/
def blankRecord (grade : Nat) (source : BitVec 8) (code : BitVec 16) : FaultRec where
  grade := grade
  source := source
  code := code
  queue := 0xFF
  part := 0xFF
  core := 0xFFFF
  index := 0
  asid := 0xFFFF
  stack := 0xFF
  port := 0xFF
  detail := 0

/-- SOURCE of the record of a failed packet: memory, link, or panel for the rest. DESIGN CHOICE (log entry 18). -/
def sourceOf (code : Nat) : BitVec 8 :=
  if code = 0x11 ∨ code = 0x12 then 1
  else if code = 0x13 ∨ code = 0x14 ∨ code = 0x17 then 2
  else 5

end Sys2Proof.Machine
end

