-- ==== Sys2Proof/Machine/Lifecycle.lean ====
section
/-! DEFINITION. How work ends: packets and their completion records, queue errors, launches, panels and their engine
commands (04 R71 to R76, 05 R91, R92, 06 R108, R390, 13 R222, R388). -/

namespace Sys2Proof.Machine

open Sys2Proof

/-! ## Lookups -/

/-- A resident panel by its id. -/
def getPanel (s : State) (pid : Nat) : Option Panel := s.panels.find? fun p => p.pid == pid

/-- Change a panel. -/
def updPanel (s : State) (pid : Nat) (f : Panel → Panel) : State :=
  { s with panels := s.panels.map fun p => if p.pid == pid then f p else p }

/-- Gang `gi` of a panel. -/
def getGang (s : State) (pid gi : Nat) : Option Gang := (getPanel s pid).bind fun p => p.gangs[gi]?

/-- Change a gang. -/
def updGang (s : State) (pid gi : Nat) (f : Gang → Gang) : State :=
  updPanel s pid fun p => { p with gangs := modifyAt f p.gangs gi }

/-- Change a core. -/
def updCore (s : State) (c : Nat) (f : CoreSt → CoreSt) : State :=
  { s with cores := vset s.cores c (f (vget s.cores c core0)) }

/-- A core. -/
def coreAt (s : State) (c : Nat) : CoreSt := vget s.cores c core0

/-- Change a queue. -/
def updQueue (s : State) (q : Nat) (f : Queue → Queue) : State :=
  { s with queues := vset s.queues q (f (vget s.queues q queue0)) }

/-- A queue. -/
def queueAt (s : State) (q : Nat) : Queue := vget s.queues q queue0

/-- A partition. -/
def partAt (s : State) (p : Nat) : Part := vget s.parts p (part0 1)

/-- Change a partition. -/
def updPart (s : State) (p : Nat) (f : Part → Part) : State :=
  { s with parts := vset s.parts p (f (partAt s p)) }

/-- An engine command. -/
def getCmd (s : State) (id : Nat) : Option Cmd := s.cmds.find? fun c => c.id == id

/-- Change an engine command. -/
def updCmd (s : State) (id : Nat) (f : Cmd → Cmd) : State :=
  { s with cmds := s.cmds.map fun c => if c.id == id then f c else c }

/-- The panel that a command belongs to. -/
def Owner.panel : Owner → Option Nat
  | .gangs pid _ => some pid
  | .stage pid _ => some pid
  | .writeBack pid _ => some pid
  | .code pid => some pid
  | .measure pid => some pid
  | _ => none

/-- A command that belongs to a panel. -/
def Cmd.ofPanel (c : Cmd) (pid : Nat) : Bool := c.owner.panel == some pid

/-- A command that belongs to a packet. -/
def Cmd.ofPacket (c : Cmd) (q i : Nat) : Bool := c.owner == .packet q i

/-! ## Engine commands that end early -/

/-- Retire the open-stripe entries of a command: its data is written, its parity follows (02 R26, R28). -/
def closeEntries (s : State) (id : Nat) : State :=
  (s.gus.log.filter fun e => e.origin == .cmd id).foldl closeEntry s

/-- A write that waits is of a command. -/
def LogWait.ofCmd (w : LogWait) (id : Nat) : Bool :=
  match w.who with
  | .piece c _ => c == id
  | .device .. => false

/-- Forget the outstanding requests of a command, and its place among those that wait for a log: a response that still comes
is late (03 R63). -/
def leaveLinks (s : State) (id : Nat) : State :=
  let (mine, rest) := s.links.reqs.partition fun r => r.cmd == id
  { s with
    links := { s.links with reqs := rest, dead := s.links.dead ++ mine.map (·.id) }
    gus := { s.gus with waits := s.gus.waits.filter fun w => !w.ofCmd id } }

/-- A command asks for nothing any longer, and writes of the device that waited behind it follow. -/
def dropRequests (s : State) (id : Nat) : State := landWaiting (leaveLinks s id)

/-- Take a command out of the faults it joined (04 R84). DESIGN CHOICE (log entry 142): a fault that waits for room in the ring stays
without it. -/
def leaveFaults (s : State) (id : Nat) : State :=
  { s with xfaults := s.xfaults.map fun x => { x with cmds := x.cmds.filter (· != id) } }

/-- Remove a command that is over. -/
def forgetCmd (s : State) (id : Nat) : State :=
  let s1 := leaveFaults (dropRequests s id) id
  { s1 with cmds := s1.cmds.filter fun c => c.id != id }

/-- Cancel a command: it stops at a granule boundary and is gone (02 R26, 13 R225). DESIGN CHOICE (log entry 92): a response to a
request that it had outstanding is discarded as a late one and counted in XL_CNT_LATE, as for a command that failed (03 R63). -/
def cancelCmd (s : State) (id : Nat) : State :=
  forgetCmd (closeEntries s id) id

/-- Cancel every command that a test selects. -/
def cancelWhere (s : State) (f : Cmd → Bool) : State :=
  (s.cmds.filter f).foldl (fun t c => cancelCmd t c.id) s

/-! ## Panels -/

/-- Free a core's active positions that hold gangs of a panel (07 R130). -/
def clearPositions (s : State) (core pid : Nat) : State :=
  updCore s core fun c => { c with active := c.active.map fun p =>
    match p with
    | some q => if q.pid == pid then none else p
    | none => none }

/-- The lining of a core is freed when it holds this panel (06 R113, R116). -/
def freeLining (s : State) (core pid : Nat) : State :=
  updCore s core fun c => if c.lining == some pid then { c with lining := none } else c

/-- The B latch is cleared when its owner's panel goes (20 R324). -/
def dropLatch (s : State) (core pid : Nat) : State :=
  updCore s core fun c => if c.latch.pid == pid then { c with latch := { c.latch with kept := false } } else c

/-- A save of a panel clears KEPT of its core's latch in the core's MATRIX issue order: at once, or after the MATRIX commands that
were issued before it (20 R324, R315). -/
def saveLatch (s : State) (core pid : Nat) : State :=
  if s.cmds.any fun c => c.cls == .matrix && c.core == core then
    updCore s core fun c => { c with saves := c.saves ++ [(pid, s.nextId)] }
  else dropLatch s core pid

/-- A panel stands on a core, or in its lining. -/
def Life.onCore : Life → Bool
  | .staging | .running | .retiring | .savedLining => true
  | _ => false

/-- The windows of an object leave the instruction cache of a cluster in which no panel of it stands (16 R246). -/
def dropCode (s : State) (c asid kaddr : Nat) : State :=
  if s.panels.any fun p => p.life.onCore && p.core / 16 == c && p.hdr.asid == asid && p.hdr.kaddr == kaddr then s
  else
    let cl := vget s.clusters c cluster0
    let rest := cl.icache.filter fun w => !(w.asid == asid && w.kaddr == kaddr)
    { s with clusters := vset s.clusters c { cl with icache := rest } }

/-- Take a panel away: its commands are cancelled and every bank, slot, lining and save slot is free (06 R108). -/
def removePanel (s : State) (pid : Nat) : State :=
  match getPanel s pid with
  | none => s
  | some p =>
    let s1 := cancelWhere s fun c => c.ofPanel pid
    let s2 := dropLatch (freeLining (clearPositions s1 p.core pid) p.core pid) p.core pid
    dropCode { s2 with panels := s2.panels.filter fun q => q.pid != pid } (p.core / 16) p.hdr.asid p.hdr.kaddr

/-! ## Partitions -/

/-- LIVE of a partition: started launches not yet complete (05 Table 5-2). -/
def liveOf (s : State) (p : Nat) : Nat := min 65535 (s.launches.filter fun l => l.hdr.part == p).length

/-- STATE of a partition (05 Table 5-2, R92): 0 ACTIVE, 1 DRAINING, 2 DRAINED. -/
def partState (s : State) (p : Nat) : Nat :=
  if s.mgmt.g4.isSome || s.gus.failed then 2
  else if (partAt s p).drain then (if (partAt s p).drained then 2 else 1)
  else 0

/-- A draining partition whose last launch ended is DRAINED, with its G0 record (05 Table 5-3, R387). DESIGN CHOICE (log entry 112):
the transition and its record come about also while the G4 latch or FAILED makes the partition read DRAINED (05 R92). -/
def settlePart (s : State) (p : Nat) : State :=
  let x := partAt s p
  if x.drain && !x.drained && liveOf s p == 0 then
    addRecord (updPart s p fun y => { y with drained := true })
      { blankRecord 0 7 0 with part := BitVec.ofNat 8 p }
  else s

/-! ## Packets -/

/-- TYPE of a packet: 0xFF when its bytes were not read (04 R74). -/
def pktType (p : Pkt) : Nat :=
  match p.bytes with
  | some (b :: _) => b.toNat
  | _ => 0xFF

/-- FLAGS of a packet (04 Table 4-8). -/
def pktFlags (p : Pkt) : Byte :=
  match p.bytes with
  | some bs => bs.getD 1 0
  | none => 0

/-- Write a completion record; with `irq` the vector of the queue is raised after it (04 R74). -/
def writeCompletion (s : State) (q : Nat) (irq : Bool) (i code typ : Nat) : State :=
  let x := queueAt s q
  ringWrite s (some (q, irq)) x.cplBase x.port (8 * (i % 2 ^ x.size))
    (natBytes 2 code ++ natBytes 1 typ ++ [0] ++ natBytes 4 i)

/-- Complete one packet: its writes are visible, its record, its interrupt, and it leaves the queue's list (04 R74). DESIGN CHOICE
(log entry 94): a record for host memory is a posted write, so that the vector may stand before it is delivered, and it is lost
while neither port is up. -/
def finishPkt (s : State) (q : Nat) (p : Pkt) (code : Nat) : State :=
  let s1 := writeCompletion (deliverPacket s q p.index) q ((pktFlags p).getLsbD 1) p.index code (pktType p)
  updQueue s1 q fun x => { x with pkts := x.pkts.filter fun y => y.index != p.index }

/-- End the work of a packet whose outcome is already decided: its launch's panels are killed and its commands are
cancelled (04 R76, 06 R108). DESIGN CHOICE (log entry 134): when this ends the last launch of a partition that drains, the DRAINED
record (05 R92) comes before the completion record, and after it when the launch ends by itself. -/
def cancelWork (s : State) (q i : Nat) : State :=
  let s1 := cancelWhere s fun c => c.ofPacket q i
  match s1.launches.find? fun l => l.queue == q && l.index == i with
  | none => s1
  | some l =>
    let s2 := (s1.panels.filter fun p => p.launch == l.id).foldl (fun t p => removePanel t p.pid) s1
    settlePart { s2 with launches := s2.launches.filter fun m => m.id != l.id } l.hdr.part

/-- Complete a packet early: its work ends and its record is written (04 R71, R76). -/
def flushPkt (q code : Nat) (s : State) (p : Pkt) : State := finishPkt (cancelWork s q p.index) q p code

/-- The queue has nothing left to do: RUNNING becomes IDLE (04 Table 4-6). -/
def settleQueue (s : State) (q : Nat) : State :=
  let x := queueAt s q
  if x.state == .running && x.pkts.isEmpty && x.head == x.tail then updQueue s q fun y => { y with state := .idle }
  else s

/-- A queue is not in error and not disabled. -/
def Queue.alive (x : Queue) : Bool := x.state == .idle || x.state == .running

/-- The position of an index after the head of what is not yet complete, for comparing free-running indices (04 R72). -/
def later (i j : Nat) : Bool := decide ((j + (2 ^ 32 - i % 2 ^ 32)) % 2 ^ 32 < 2 ^ 31) && i != j

/-- The record of an error that reaches a packet (13 Table 13-4, log entry 18). -/
def packetRecord (s : State) (q i code : Nat) : State :=
  if 0x10 ≤ code ∧ code ≤ 0x17 then
    let x := queueAt s q
    addRecord s { blankRecord 2 (sourceOf code) (BitVec.ofNat 16 code) with
      queue := BitVec.ofNat 8 q, part := BitVec.ofNat 8 x.part, index := BitVec.ofNat 32 i
      asid := BitVec.ofNat 16 x.asid }
  else s

/-- Packet `p` completes with `code` (04 R74, R76): with any code but OK and DRAINING the queue enters ERROR, if it is not there
already, and every later packet completes FLUSHED. -/
def endPkt (s : State) (q : Nat) (p : Pkt) (code : Nat) : State :=
  let s1 := finishPkt (packetRecord s q p.index code) q p code
  if code = 0 ∨ code = 1 then settleQueue s1 q
  else
    let s2 := updQueue s1 q fun x =>
      if x.alive then { x with state := .error, stIndex := BitVec.ofNat 32 p.index, stCode := code } else x
    ((queueAt s2 q).pkts.filter fun y => later p.index y.index).foldl (flushPkt q 0x02) s2

/-- The packet of a queue with an index. -/
def getPkt (s : State) (q i : Nat) : Option Pkt := (queueAt s q).pkts.find? fun p => p.index == i

/-- Complete a packet by its index. -/
def endPacket (s : State) (q i code : Nat) : State :=
  match getPkt s q i with
  | some p => endPkt s q p code
  | none => s

/-- INDEX of a stop that no packet caused (04 Table 4-5). -/
def oldestIndex (x : Queue) : Word :=
  match x.pkts with
  | [] => x.head
  | p :: ps => BitVec.ofNat 32 (ps.foldl (fun i y => if later y.index i then y.index else i) p.index)

/-! ## Launches -/

/-- Panels of a launch (04 R78). -/
def Launch.panels (l : Launch) : Nat := l.gx * l.gy * l.gz

/-- A launch has ended: every panel is DONE or KILLED (06 R108, R390). -/
def launchOver (s : State) (l : Launch) : Bool :=
  !(s.panels.any fun p => p.launch == l.id) &&
    (l.failed || (l.nextPanel == l.panels && l.requeued.isEmpty))

/-- Complete a launch that has ended, with the status of R108 and R390. -/
def settleLaunch (s : State) (lid : Nat) : State :=
  match s.launches.find? fun l => l.id == lid with
  | none => s
  | some l =>
    if launchOver s l then
      let code := if l.failed then (l.code.map (·.code)).getD 0x04 else 0
      let s1 := { s with launches := s.launches.filter fun m => m.id != lid }
      settlePart (endPacket s1 l.queue l.index code) l.hdr.part
    else s

/-- The code that a launch reports: that of the first event, and of two in one cycle that of the lower panel (06 R390). -/
def firstCode (old new : Option LaunchFail) : Option LaunchFail :=
  match old, new with
  | some a, some b => if a.at_ = b.at_ ∧ b.idx < a.idx then some b else some a
  | a, b => a.or b

/-- Panel `idx` of a launch met an event of R390, with a failure code or none. -/
def failLaunch (s : State) (lid idx : Nat) (code : Option Nat) : State :=
  { s with launches := s.launches.map fun l =>
      if l.id == lid then
        { l with failed := true, code := firstCode l.code (code.map fun c => ⟨s.now, idx, c⟩), requeued := [] }
      else l }

/-- The partner of a redundant panel, if it has one (13 R226). -/
def partnerOf (s : State) (p : Panel) : Option Panel := p.partner.bind (getPanel s)

/-- A victim's members: the panel, and its partner when it has one. -/
def members (s : State) (p : Panel) : List Panel := p :: (partnerOf s p).toList

/-- No engine command of any member is left. -/
def noCommands (s : State) (ps : List Panel) : Bool := !(s.cmds.any fun c => ps.any fun p => c.ofPanel p.pid)

/-- A panel ends as DONE or KILLED; its launch completes when it was the last (06 Table 6-3). -/
def endPanel (s : State) (pid : Nat) : State :=
  match getPanel s pid with
  | none => s
  | some p => settleLaunch (removePanel s pid) p.launch

/-- A panel whose staging, write-back or save fails: its launch fails with the code (06 R390). Both members of a pair
go. -/
def failPanel (s : State) (pid code : Nat) : State :=
  match getPanel s pid with
  | none => s
  | some p =>
    let s1 := failLaunch s p.launch p.idx (some code)
    let s2 := match p.partner with
      | some m => removePanel s1 m
      | none => s1
    endPanel s2 pid

/-- The trap cause that a record's CODE carries, with STATUS for BATCH_ERROR and TRAP_INSTR (13 R388). -/
def killCode (cause status : Nat) : Nat :=
  if cause = 0x0F ∨ cause = 0x13 then cause + status * 256 else cause

/-- A trap kills a panel (13 R220, R388): one record, then the panel goes and its launch has failed. A pair goes
together and is recorded with the primary's core. -/
def killPanel (s : State) (pid cause status tpc : Nat) : State :=
  match getPanel s pid with
  | none => s
  | some p =>
    let core := if p.primary then p.core else (partnerOf s p).elim p.core (·.core)
    let grade := if cause = 0x11 ∨ cause = 0x12 then 3 else 2
    let s1 := addRecord s { blankRecord grade 5 (BitVec.ofNat 16 (killCode cause status)) with
      queue := BitVec.ofNat 8 p.hdr.queue, part := BitVec.ofNat 8 p.hdr.part, core := BitVec.ofNat 16 core
      index := BitVec.ofNat 32 p.hdr.index, asid := BitVec.ofNat 16 p.hdr.asid, detail := BitVec.ofNat 64 tpc }
    let s2 := failLaunch s1 p.launch p.idx none
    let s3 := match p.partner with
      | some m => removePanel s2 m
      | none => s2
    endPanel s3 pid

end Sys2Proof.Machine
end

