-- ==== Sys2Proof/Machine/Flags.lean ====
section
/-! DEFINITION. The status that instructions leave beside their results: the exception counters sat, ftz and nan of a
tensor id, the fields of fpcsr, the stochastic-rounding states and the performance events (10 R182 to R192, 17
R273). -/

namespace Sys2Proof.Machine

open Sys2Proof

/-- The three exception counters (10 R191). -/
structure Counts where
  sat : Nat
  ftz : Nat
  nan : Nat
deriving DecidableEq, Repr

/-- No event. -/
def Counts.zero : Counts := ⟨0, 0, 0⟩

/-- Events of two parts together. -/
def Counts.add (a b : Counts) : Counts := ⟨a.sat + b.sat, a.ftz + b.ftz, a.nan + b.nan⟩

/-- A 32-bit saturating sum (10 R191). -/
def sat32 (a b : Nat) : Nat := min (a + b) 0xFFFFFFFF

/-- Events added to an entry. -/
def ExcEntry.bump (e : ExcEntry) (c : Counts) : ExcEntry :=
  { e with sat := sat32 e.sat c.sat, ftz := sat32 e.ftz c.ftz, nan := sat32 e.nan c.nan }

/-- Charge events to a tensor id (10 R191): to its entry, to a new entry while fewer than 64 are taken, else to the
catch-all. Id 4,095 is the catch-all itself. Nothing is allocated when nothing happened. -/
def chargePanel (p : Panel) (tid : BitVec 12) (c : Counts) : Panel :=
  if c = Counts.zero then p
  else if tid = 0xFFF then { p with catchAll := p.catchAll.bump c }
  else if p.exc.any fun e => e.tid == tid then
    { p with exc := p.exc.map fun e => if e.tid == tid then e.bump c else e }
  else if p.exc.length < 64 then { p with exc := p.exc ++ [ExcEntry.bump ⟨tid, 0, 0, 0⟩ c] }
  else { p with catchAll := p.catchAll.bump c }

/-- Charge events of a panel to a tensor id. -/
def charge (s : State) (pid : Nat) (tid : BitVec 12) (c : Counts) : State :=
  updPanel s pid fun p => chargePanel p tid c

/-- Add to a performance event of a panel (17 R273). -/
def perfAdd (s : State) (pid ev n : Nat) : State :=
  updPanel s pid fun p => { p with perf := vset p.perf ev ((vget p.perf ev 0 + n) % 2 ^ 64) }

/-- Rounding modes of fpcsr.RM (10 Table 10-2). -/
inductive RMode where
  | rne | rz | ru | rd
deriving DecidableEq, Repr

/-- RM of fpcsr. -/
def rmOf (f : DWord) : RMode :=
  match f.toNat % 4 with
  | 0 => .rne
  | 1 => .rz
  | 2 => .ru
  | _ => .rd

/-- FTZ of fpcsr. -/
def ftzOf (f : DWord) : Bool := f.getLsbD 2

/-- SR of fpcsr. -/
def srOf (f : DWord) : Bool := f.getLsbD 3

/-- The bits of fpcsr that a write keeps (10 Table 10-2). -/
def fpcsrKeep (v : DWord) : DWord := v &&& 0xFFFFFFFF0000000F

/-- Seed of lane `l` (10 R185). -/
def seedOf (f : DWord) (l : Nat) : Word :=
  let x := BitVec.ofNat 32 (f.toNat / 2 ^ 32) ^^^ BitVec.ofNat 32 ((l + 1) * 0x9E3779B9)
  if x = 0 then 1 else x

/-- The states of all lanes after a write of fpcsr (10 R185). -/
def seedAll (f : DWord) : Vector Word 32 := Vector.ofFn fun l => seedOf f l.val

/-- SRNext (10 R185). -/
def srNext (x : Word) : Word :=
  let a := x ^^^ (x <<< 13)
  let b := a ^^^ (a >>> 17)
  b ^^^ (b <<< 5)

end Sys2Proof.Machine
end

