-- ==== Sys2Proof/Machine/Float.lean ====
section
/-! DEFINITION. Float formats, exact magnitudes, rounding, and the arithmetic of the vector unit on single elements (10
R178, R184 to R187, 18 R287 to R293). -/

namespace Sys2Proof.Machine

open Sys2Proof

/-- Which codes stand for infinities and NaNs (10 Table 10-1). -/
inductive Specials where
  | ieee | topOnly | none
deriving DecidableEq, Repr

/-- A float format (10 Table 10-1): exponent bits, mantissa bits, bias and special codes. -/
structure Fmt where
  eb : Nat
  mb : Nat
  bias : Nat
  sp : Specials
deriving DecidableEq, Repr

/-- The formats of Table 10-1. -/
def fF32 : Fmt := ⟨8, 23, 127, .ieee⟩
def fF16 : Fmt := ⟨5, 10, 15, .ieee⟩
def fB16 : Fmt := ⟨8, 7, 127, .ieee⟩
def fF8E4 : Fmt := ⟨4, 3, 7, .topOnly⟩
def fF8E5 : Fmt := ⟨5, 2, 15, .ieee⟩
def fF4E2 : Fmt := ⟨2, 1, 1, .none⟩

/-- The format of a float type code. -/
def fmtOf : Ty → Fmt
  | .f16 => fF16
  | .b16 => fB16
  | .f8e4 => fF8E4
  | .f8e5 => fF8E5
  | .f4e2 => fF4E2
  | _ => fF32

/-- Bits of a format. -/
def Fmt.width (f : Fmt) : Nat := 1 + f.eb + f.mb

/-- The exponent of the last place of a subnormal. -/
def Fmt.emin (f : Fmt) : Int := 1 - (f.bias : Int) - f.mb

/-- The code of the largest finite magnitude. -/
def Fmt.maxCode (f : Fmt) : Nat :=
  match f.sp with
  | .ieee => (2 ^ f.eb - 1) * 2 ^ f.mb - 1
  | .topOnly => 2 ^ (f.eb + f.mb) - 2
  | .none => 2 ^ (f.eb + f.mb) - 1

/-- The code of +∞, for a format that has one. -/
def Fmt.infCode (f : Fmt) : Nat := (2 ^ f.eb - 1) * 2 ^ f.mb

/-- The format has NaN codes. -/
def Fmt.hasNan (f : Fmt) : Bool := f.sp != .none

/-- CanonNaN (10 Table 10-1). -/
def Fmt.nan (f : Fmt) : Nat :=
  match f.sp with
  | .topOnly => 2 ^ (f.eb + f.mb) - 1
  | _ => f.infCode + 2 ^ (f.mb - 1)

/-- A sign bit in place. -/
def Fmt.signed (f : Fmt) (neg : Bool) (code : Nat) : Nat := if neg then code + 2 ^ (f.eb + f.mb) else code

/-- The value of a code: NaN, an infinity, or (−1)^neg × m × 2^e. -/
inductive FVal where
  | nan
  | inf (neg : Bool)
  | fin (neg : Bool) (m : Nat) (e : Int)
deriving DecidableEq, Repr

/-- The value that a code stands for (10 R178). -/
def Fmt.value (f : Fmt) (c : Nat) : FVal :=
  let neg := c.testBit (f.eb + f.mb)
  let e := c / 2 ^ f.mb % 2 ^ f.eb
  let m := c % 2 ^ f.mb
  if f.sp = .ieee ∧ e = 2 ^ f.eb - 1 then (if m = 0 then .inf neg else .nan)
  else if f.sp = .topOnly ∧ e = 2 ^ f.eb - 1 ∧ m = 2 ^ f.mb - 1 then .nan
  else if e = 0 then .fin neg m f.emin
  else .fin neg (m + 2 ^ f.mb) (f.emin + e - 1)

/-- A code is subnormal. -/
def Fmt.isSub (f : Fmt) (c : Nat) : Bool := c / 2 ^ f.mb % 2 ^ f.eb == 0 && c % 2 ^ f.mb != 0

/-- A source code under FTZ: a subnormal is read as zero of its sign (10 R186). -/
def Fmt.input (f : Fmt) (ftz : Bool) (c : Nat) : Nat :=
  if ftz && f.isSub c then f.signed (c.testBit (f.eb + f.mb)) 0 else c

/-! ## Rounding -/

/-- How a magnitude is rounded: in a mode, or stochastically with the 24 bits r[31:8] (10 R182, R185). -/
inductive Rnd where
  | mode (m : RMode)
  | sr (r : Nat)
deriving DecidableEq, Repr

/-- A magnitude: m × 2^e, and more by less than 2^e when `st` is set. -/
structure Mag where
  m : Nat
  e : Int
  st : Bool
deriving DecidableEq, Repr

/-- 2^k for a non-negative k, else 1. -/
def pow2 (k : Int) : Nat := 2 ^ k.toNat

/-- Whether the magnitude rounds away from zero, with remainder `rem` of 2^k below the multiple `lo`. -/
def roundsUp (r : Rnd) (neg : Bool) (lo rem k : Nat) (st : Bool) : Bool :=
  let any := rem != 0 || st
  match r with
  | .mode .rne => decide (2 ^ k < 2 * rem) || (decide (2 ^ k = 2 * rem) && (st || lo % 2 == 1))
  | .mode .rz => false
  | .mode .ru => !neg && any
  | .mode .rd => neg && any
  | .sr x => decide (x < rem * 2 ^ 24 / 2 ^ k)

/-- Round a magnitude to a multiple of 2^q; the multiple. -/
def roundAt (r : Rnd) (neg : Bool) (x : Mag) (q : Int) : Nat :=
  let k := (q - x.e).toNat
  let m := x.m * pow2 (x.e - q)
  let lo := m / 2 ^ k
  if roundsUp r neg lo (m % 2 ^ k) k x.st then lo + 1 else lo

/-- The exponent of the last place to which a format rounds a magnitude (10 R184 RoundTo). -/
def Fmt.place (f : Fmt) (x : Mag) : Int :=
  if x.m = 0 then f.emin else max (x.e + (x.m.log2 : Int) - f.mb) f.emin

/-- The code of n × 2^q, without regard to the largest finite value; n has at most mb + 1 significant bits and q is at
least emin. -/
def Fmt.code (f : Fmt) (n : Nat) (q : Int) : Nat :=
  if n = 0 then 0
  else
    let p : Int := q + n.log2 - f.mb
    if p < f.emin then n * pow2 (q - f.emin)
    else
      let top := n * pow2 (q - p) / pow2 (p - q)
      top - 2 ^ f.mb + (p - f.emin + 1).toNat * 2 ^ f.mb

/-- Round a magnitude to a format with unbounded exponent; its code, which may pass the largest finite one. -/
def Fmt.roundCode (f : Fmt) (r : Rnd) (neg : Bool) (x : Mag) : Nat :=
  f.code (roundAt r neg x (f.place x)) (f.place x)

/-- One element's result and what it counts. -/
abbrev Elem := Nat × Counts

/-- A result that counts nothing. -/
def plainElem (c : Nat) : Elem := (c, Counts.zero)

/-- One event of a kind. -/
def oneSat : Counts := ⟨1, 0, 0⟩
def oneFtz : Counts := ⟨0, 1, 0⟩
def oneNan : Counts := ⟨0, 0, 1⟩

/-- A result that FTZ flushes and counts when it is subnormal (10 R186). -/
def Fmt.flush (f : Fmt) (ftz : Bool) (neg : Bool) (code : Nat) : Elem :=
  if ftz && f.isSub code then (f.signed neg 0, oneFtz) else plainElem (f.signed neg code)

/-- The result of an overflow in a mode (10 R187). -/
def Fmt.overflow (f : Fmt) (m : RMode) (neg : Bool) : Nat :=
  match m, neg with
  | .rne, _ => f.signed neg f.infCode
  | .rz, _ => f.signed neg f.maxCode
  | .ru, false => f.signed neg f.infCode
  | .ru, true => f.signed neg f.maxCode
  | .rd, true => f.signed neg f.infCode
  | .rd, false => f.signed neg f.maxCode

/-- The rounded result of float arithmetic (10 R187). -/
def Fmt.finish (f : Fmt) (m : RMode) (ftz : Bool) (neg : Bool) (x : Mag) : Elem :=
  let c := f.roundCode (.mode m) neg x
  if f.maxCode < c then plainElem (f.overflow m neg) else f.flush ftz neg c

/-- Narrow (10 R184) into a float format. -/
def Fmt.narrow (f : Fmt) (r : Rnd) (ftz : Bool) (v : FVal) : Elem :=
  match v with
  | .nan => if f.hasNan then plainElem f.nan else (0, oneNan)
  | .inf neg => (f.signed neg f.maxCode, oneSat)
  | .fin neg m e =>
    let c := f.roundCode r neg ⟨m, e, false⟩
    if f.maxCode < c then (f.signed neg f.maxCode, oneSat) else f.flush ftz neg c

/-- Narrow (10 R184) into an integer range; the value as an integer. -/
def narrowInt (r : Rnd) (lo hi : Int) (v : FVal) : Int × Counts :=
  match v with
  | .nan => (0, oneNan)
  | .inf neg => (if neg then lo else hi, oneSat)
  | .fin neg m e =>
    let n : Int := roundAt r neg ⟨m, e, false⟩ 0
    let y := if neg then -n else n
    if hi < y then (hi, oneSat) else if y < lo then (lo, oneSat) else (y, Counts.zero)

/-! ## Arithmetic -/

/-- A signed exact value n × 2^e as sign and magnitude; `z` is the sign of an exact zero. -/
def Fmt.ofSigned (f : Fmt) (m : RMode) (ftz : Bool) (n e : Int) (z : Bool) : Elem :=
  if n = 0 then plainElem (f.signed z 0) else f.finish m ftz (decide (n < 0)) ⟨n.natAbs, e, false⟩

/-- A finite value as a signed integer at exponent `e`, which is at most its own. -/
def signedAt (neg : Bool) (m : Nat) (x e : Int) : Int :=
  let k : Int := m * pow2 (x - e)
  if neg then -k else k

/-- The sign of the zero that a sum of two values of the given signs gives (IEEE 754). -/
def zeroSign (m : RMode) (a b : Bool) : Bool := if a == b then a else m == .rd

/-- Canonical NaN as an element. -/
def Fmt.nanElem (f : Fmt) : Elem := plainElem f.nan

/-- The sum of two values. -/
def Fmt.addV (f : Fmt) (m : RMode) (ftz : Bool) (a b : FVal) : Elem :=
  match a, b with
  | .nan, _ => f.nanElem
  | _, .nan => f.nanElem
  | .inf s, .inf t => if s = t then plainElem (f.signed s f.infCode) else f.nanElem
  | .inf s, _ => plainElem (f.signed s f.infCode)
  | _, .inf t => plainElem (f.signed t f.infCode)
  | .fin s x d, .fin t y e =>
    let p := min d e
    f.ofSigned m ftz (signedAt s x d p + signedAt t y e p) p (zeroSign m s t)

/-- A value with its sign changed. -/
def FVal.negate : FVal → FVal
  | .nan => .nan
  | .inf s => .inf (!s)
  | .fin s m e => .fin (!s) m e

/-- The exact product of two values; NaN for 0 × ∞ and for a NaN factor. -/
def FVal.mul (a b : FVal) : FVal :=
  match a, b with
  | .nan, _ => .nan
  | _, .nan => .nan
  | .inf s, .inf t => .inf (s != t)
  | .inf s, .fin t y _ => if y = 0 then .nan else .inf (s != t)
  | .fin s x _, .inf t => if x = 0 then .nan else .inf (s != t)
  | .fin s x d, .fin t y e => .fin (s != t) (x * y) (d + e)

/-- A value rounded to a format. -/
def Fmt.ofVal (f : Fmt) (m : RMode) (ftz : Bool) (v : FVal) : Elem :=
  match v with
  | .nan => f.nanElem
  | .inf s => plainElem (f.signed s f.infCode)
  | .fin s x e => if x = 0 then plainElem (f.signed s 0) else f.finish m ftz s ⟨x, e, false⟩

/-- The quotient of two magnitudes with 64 bits or more before the remainder. -/
def divMag (x : Nat) (d : Int) (y : Nat) (e : Int) : Mag :=
  let k := 64 + y.log2
  ⟨x * 2 ^ k / y, d - e - k, x * 2 ^ k % y != 0⟩

/-- a ÷ b in RNE (18 R289). -/
def Fmt.divV (f : Fmt) (ftz : Bool) (a b : FVal) : Elem :=
  match a, b with
  | .nan, _ => f.nanElem
  | _, .nan => f.nanElem
  | .inf _, .inf _ => f.nanElem
  | .inf s, .fin t _ _ => plainElem (f.signed (s != t) f.infCode)
  | .fin s _ _, .inf t => plainElem (f.signed (s != t) 0)
  | .fin s x d, .fin t y e =>
    if y = 0 then (if x = 0 then f.nanElem else plainElem (f.signed (s != t) f.infCode))
    else if x = 0 then plainElem (f.signed (s != t) 0)
    else f.finish .rne ftz (s != t) (divMag x d y e)

/-- The value 1. -/
def oneVal : FVal := .fin false 1 0

/-- The integer square root, bit by bit from bit `k − 1` down. -/
def isqrtBits (n : Nat) : Nat → Nat → Nat
  | 0, r => r
  | k + 1, r => isqrtBits n k (if (r + 2 ^ k) * (r + 2 ^ k) ≤ n then r + 2 ^ k else r)

/-- The integer square root. -/
def isqrt (n : Nat) : Nat := isqrtBits n (n.log2 / 2 + 1) 0

/-- m × 2^e with an even exponent. -/
def evenExp (m : Nat) (e : Int) : Nat × Int := if e % 2 = 0 then (m, e) else (2 * m, e - 1)

/-- √ of a magnitude with 40 bits or more. -/
def sqrtMag (m : Nat) (e : Int) : Mag :=
  let (n, d) := evenExp m e
  let r := isqrt (n * 2 ^ 80)
  ⟨r, d / 2 - 40, r * r != n * 2 ^ 80⟩

/-- 1 ÷ √ of a magnitude. -/
def rsqrtMag (m : Nat) (e : Int) : Mag :=
  let (n, d) := evenExp m e
  let k := 2 * (50 + n.log2)
  let r := isqrt (2 ^ k / n)
  ⟨r, -(d / 2) - (k / 2 : Nat), r * r * n != 2 ^ k⟩

/-- FSQRT (18 R289, Table 18-5). -/
def Fmt.sqrtV (f : Fmt) (ftz : Bool) (a : FVal) : Elem :=
  match a with
  | .nan => f.nanElem
  | .inf s => if s then f.nanElem else plainElem f.infCode
  | .fin s m e =>
    if m = 0 then plainElem (f.signed s 0) else if s then f.nanElem else f.finish .rne ftz false (sqrtMag m e)

/-- FRSQ (18 R289, Table 18-5). -/
def Fmt.rsqrtV (f : Fmt) (ftz : Bool) (a : FVal) : Elem :=
  match a with
  | .nan => f.nanElem
  | .inf s => if s then f.nanElem else plainElem 0
  | .fin s m e =>
    if m = 0 then plainElem (f.signed s f.infCode)
    else if s then f.nanElem else f.finish .rne ftz false (rsqrtMag m e)

/-! ## Powers and logarithms of two (18 R289; log entry 6) -/

/-- Fixed-point places of FEXP2 and FLOG2. -/
abbrev fixP : Nat := 256

/-- The natural logarithm of 2 times 2^256, rounded down. -/
def ln2Fix : Nat := 0xb17217f7d1cf79abc9e3b39803f2f6af40f343267298b62d8a0d175b8baafa2b

/-- The sum of the terms t, t·y/k, t·y²/(k(k+1)), … of the exponential series, `n` of them. -/
def expSeries (y : Nat) : Nat → Nat → Nat → Nat
  | 0, _, _ => 0
  | n + 1, k, t => t + expSeries y n (k + 1) (t * y / 2 ^ fixP / k)

/-- 2^x for a fraction x in [0, 1) at 2^-256, at 2^-256. -/
def exp2Fix (x : Nat) : Nat := expSeries (x * ln2Fix / 2 ^ fixP) 60 1 (2 ^ fixP)

/-- The sum of z^(2k+1)/(2k+1) from term z on, `n` terms. -/
def atanhSeries (z2 : Nat) : Nat → Nat → Nat → Nat
  | 0, _, _ => 0
  | n + 1, k, z => z / k + atanhSeries z2 n (k + 2) (z * z2 / 2 ^ fixP)

/-- log2 of m / 2^k, which lies in [1, 2), at 2^-256. -/
def log2Fix (m k : Nat) : Nat :=
  let z := (m - 2 ^ k) * 2 ^ fixP / (m + 2 ^ k)
  2 * atanhSeries (z * z / 2 ^ fixP) 90 1 z * 2 ^ fixP / ln2Fix

/-- FEXP2 (18 R289, Table 18-5): 2^a, correctly rounded. -/
def Fmt.exp2V (f : Fmt) (ftz : Bool) (a : FVal) : Elem :=
  match a with
  | .nan => f.nanElem
  | .inf s => plainElem (if s then 0 else f.infCode)
  | .fin s m e =>
    if m = 0 then plainElem (f.code 1 0)
    else if 11 ≤ e + (m.log2 : Int) then
      (if s then f.finish .rne ftz false ⟨1, -1000, false⟩ else f.finish .rne ftz false ⟨1, 1000, false⟩)
    else
      let y := signedAt s m e (-(fixP : Int))
      let n := y / (2 ^ fixP : Nat)
      let fr := (y % (2 ^ fixP : Nat)).toNat
      if fr = 0 then f.finish .rne ftz false ⟨1, n, false⟩
      else f.finish .rne ftz false ⟨exp2Fix fr, n - fixP, true⟩

/-- FLOG2 (18 R289, Table 18-5): log2 a, correctly rounded. -/
def Fmt.log2V (f : Fmt) (ftz : Bool) (a : FVal) : Elem :=
  match a with
  | .nan => f.nanElem
  | .inf s => if s then f.nanElem else plainElem f.infCode
  | .fin s m e =>
    if m = 0 then plainElem (f.signed true f.infCode)
    else if s then f.nanElem
    else
      let k := m.log2
      let n : Int := e + k
      if m = 2 ^ k then f.ofSigned .rne ftz n 0 false
      else
        let y : Int := n * (2 ^ fixP : Nat) + log2Fix m k
        f.finish .rne ftz (decide (y < 0)) ⟨y.natAbs, -(fixP : Int), true⟩

/-! ## The remaining operations -/

/-- The integer at or below a finite value. -/
def floorInt (neg : Bool) (m : Nat) (e : Int) : Int :=
  if 0 ≤ e then signedAt neg m e 0
  else (if neg then -(m : Int) else m) / (pow2 (-e) : Int)

/-- FFLOOR (18 R290). -/
def Fmt.floorV (f : Fmt) (a : FVal) : Elem :=
  match a with
  | .nan => f.nanElem
  | .inf s => plainElem (f.signed s f.infCode)
  | .fin s m e =>
    if m = 0 then plainElem (f.signed s 0)
    else f.ofSigned .rz false (floorInt s m (max e (-300))) 0 s

/-- FFRAC (18 R290): a − FFLOOR(a), towards zero. -/
def Fmt.fracV (f : Fmt) (ftz : Bool) (a : FVal) : Elem :=
  match a with
  | .fin s m e =>
    let p := min e 0
    f.ofSigned .rz ftz (signedAt s m e p - signedAt (decide (floorInt s m e < 0)) (floorInt s m e).natAbs 0 p) p false
  | _ => f.nanElem

/-- FSCALE (18 R290): beyond ±2000 every further step overflows or underflows alike. -/
def Fmt.scaleV (f : Fmt) (m : RMode) (ftz : Bool) (a : FVal) (n : Int) : Elem :=
  match a with
  | .fin s x e => f.ofVal m ftz (.fin s x (e + max (-2000) (min 2000 n)))
  | v => f.ofVal m ftz v

/-- FCLASS (18 R290), of the code as stored. -/
def Fmt.classOf (f : Fmt) (c : Nat) : Nat :=
  let neg := c.testBit (f.eb + f.mb)
  match f.value c with
  | .inf s => if s then 1 else 128
  | .nan => if c.testBit (f.mb - 1) then 512 else 256
  | .fin _ m _ =>
    if m = 0 then (if neg then 8 else 16)
    else if f.isSub c then (if neg then 4 else 32)
    else (if neg then 2 else 64)

/-- A total order of codes that are no NaN, −0 below +0. -/
def Fmt.orderKey (f : Fmt) (c : Nat) : Int :=
  let m := c % 2 ^ (f.eb + f.mb)
  if c.testBit (f.eb + f.mb) then -(m : Int) - 1 else m

/-- The code is a NaN. -/
def Fmt.isNan (f : Fmt) (c : Nat) : Bool := f.value c == .nan

/-- FMIN and FMAX (18 R288). -/
def Fmt.minMax (f : Fmt) (isMax : Bool) (a b : Nat) : Nat :=
  if f.isNan a then (if f.isNan b then f.nan else b)
  else if f.isNan b then a
  else if (f.orderKey a < f.orderKey b) = isMax then b else a

/-- The value of a code as an integer of a type: the bits of an element read as signed or unsigned. -/
def intOf (sgn : Bool) (w v : Nat) : Int := if sgn && v.testBit (w - 1) then (v : Int) - (2 ^ w : Nat) else v

/-- An integer as `w` bits. -/
def wrapTo (w : Nat) (n : Int) : Nat := (n % ((2 ^ w : Nat) : Int)).toNat

end Sys2Proof.Machine
end

