-- ==== Sys2Proof/WellFormed.lean ====
section
/-! DEFINITION. Well-formed instructions: those that the issue rules of chapter 16 do not refuse. -/

namespace Sys2Proof

/-- An instruction that R248, R251, R254 and its own statement accept. An event of the part is always well formed. -/
abbrev Instr.WellFormed (i : Instr) : Prop := legal i = true

end Sys2Proof
end

