-- ==== Sys2Proof/Decode.lean ====
section
/-! DEFINITION. From bytes to instructions and back: the first word and the extension words (16 R245 to R250), the
opcode map (16 R253, R254) and the SUB, MOD and X1 layouts of each instruction's statement. The decoder reads the
fields it needs, builds the instruction and then compares every bit with what the encoder gives that instruction, so
an unassigned bit is refused by name wherever it stands (R248, R255). -/

namespace Sys2Proof

/-! ## The fields of an instruction -/

/-- The fields of Table 16-1 with both extension words, 0 where the form has none. -/
structure Raw where
  l : BitVec 2
  op : BitVec 8
  stall : BitVec 4
  fe : BitVec 3
  y : BitVec 1
  g : BitVec 4
  gn : BitVec 1
  d : Reg
  a : Reg
  b : Reg
  c : Reg
  sub : BitVec 8
  mod : BitVec 5
  x1 : Word
  x2 : Word
deriving DecidableEq, Repr

/-- The number whose bit 0 is the least significant bit of the first word (16 Table 16-1, R249). -/
def Raw.toNat (r : Raw) : Nat :=
  r.l.toNat + r.op.toNat * 2 ^ 2 + r.stall.toNat * 2 ^ 10 + r.fe.toNat * 2 ^ 14 + r.y.toNat * 2 ^ 17
    + r.g.toNat * 2 ^ 18 + r.gn.toNat * 2 ^ 22 + r.d.toNat * 2 ^ 23 + r.a.toNat * 2 ^ 30 + r.b.toNat * 2 ^ 37
    + r.c.toNat * 2 ^ 44 + r.sub.toNat * 2 ^ 51 + r.mod.toNat * 2 ^ 59 + r.x1.toNat * 2 ^ 64
    + r.x2.toNat * 2 ^ 96

/-- The fields of a number laid out so. -/
def Raw.ofNat (n : Nat) : Raw where
  l := BitVec.ofNat 2 n
  op := BitVec.ofNat 8 (n / 2 ^ 2)
  stall := BitVec.ofNat 4 (n / 2 ^ 10)
  fe := BitVec.ofNat 3 (n / 2 ^ 14)
  y := BitVec.ofNat 1 (n / 2 ^ 17)
  g := BitVec.ofNat 4 (n / 2 ^ 18)
  gn := BitVec.ofNat 1 (n / 2 ^ 22)
  d := BitVec.ofNat 7 (n / 2 ^ 23)
  a := BitVec.ofNat 7 (n / 2 ^ 30)
  b := BitVec.ofNat 7 (n / 2 ^ 37)
  c := BitVec.ofNat 7 (n / 2 ^ 44)
  sub := BitVec.ofNat 8 (n / 2 ^ 51)
  mod := BitVec.ofNat 5 (n / 2 ^ 59)
  x1 := BitVec.ofNat 32 (n / 2 ^ 64)
  x2 := BitVec.ofNat 32 (n / 2 ^ 96)

/-- The length in bytes of field L; 0 for L = 0 (16 R245). -/
def lengthBytes (l : BitVec 2) : Nat := if l == 0 then 0 else 4 * (l.toNat + 1)

/-- Little-endian bytes of a number (10 R177, 16 R249). -/
def leBytes : Nat → Nat → List Byte
  | 0, _ => []
  | k + 1, n => BitVec.ofNat 8 n :: leBytes k (n / 256)

/-- The number that bytes hold, the first byte lowest (10 R177). -/
def leNat : List Byte → Nat
  | [] => 0
  | b :: bs => b.toNat + 256 * leNat bs

/-! ## Codes of the small operand sets -/

/-- Codes of Table 17-1. -/
def BrCond.code : BrCond → Nat
  | .z => 0 | .nz => 1 | .ltz => 2 | .gez => 3 | .gtz => 4 | .lez => 5

/-- The condition of a code of Table 17-1. -/
def BrCond.ofCode : Nat → Option BrCond
  | 0 => some .z | 1 => some .nz | 2 => some .ltz | 3 => some .gez | 4 => some .gtz | 5 => some .lez
  | _ => none

/-- Codes of Table 17-7. -/
def SCond.code : SCond → Nat
  | .eq => 0 | .ne => 1 | .lt => 2 | .le => 3 | .gt => 4 | .ge => 5 | .ltu => 6 | .leu => 7 | .gtu => 8 | .geu => 9

/-- The condition of a code of Table 17-7. -/
def SCond.ofCode : Nat → Option SCond
  | 0 => some .eq | 1 => some .ne | 2 => some .lt | 3 => some .le | 4 => some .gt | 5 => some .ge
  | 6 => some .ltu | 7 => some .leu | 8 => some .gtu | 9 => some .geu
  | _ => none

/-- TYPE codes of Tables 18-2, 18-9, 19-2 and of ATOM. -/
def LTy.code : LTy → Nat
  | .i32 => 0 | .n32 => 1 | .f32 => 2

/-- The type of a TYPE code; 3 is reserved. -/
def LTy.ofCode : Nat → Option LTy
  | 0 => some .i32 | 1 => some .n32 | 2 => some .f32
  | _ => none

/-- TYPE codes of ATOMS (21 R341). -/
def STy.code : STy → Nat
  | .i64 => 0 | .n64 => 1 | .i32 => 2 | .n32 => 3

/-- The type of a TYPE code of ATOMS. -/
def STy.ofCode : Nat → Option STy
  | 0 => some .i64 | 1 => some .n64 | 2 => some .i32 | 3 => some .n32
  | _ => none

/-- Codes of Table 18-3. -/
def VCond.code : VCond → Nat
  | .eq => 0 | .ne => 1 | .lt => 2 | .le => 3 | .gt => 4 | .ge => 5 | .un => 6

/-- The condition of a code of Table 18-3. -/
def VCond.ofCode : Nat → Option VCond
  | 0 => some .eq | 1 => some .ne | 2 => some .lt | 3 => some .le | 4 => some .gt | 5 => some .ge | 6 => some .un
  | _ => none

/-- Codes of Table 18-7. -/
def Seg.code : Seg → Nat
  | .w2 => 0 | .w4 => 1 | .w8 => 2 | .w16 => 3 | .w32 => 4

/-- The segment width of a code of Table 18-7. -/
def Seg.ofCode : Nat → Option Seg
  | 0 => some .w2 | 1 => some .w4 | 2 => some .w8 | 3 => some .w16 | 4 => some .w32
  | _ => none

/-- KIND codes of Table 18-8. -/
def GKind.code : GKind → Nat
  | .up => 0 | .dn => 1 | .x => 2 | .bc => 3

/-- The kind of a KIND code of Table 18-8. -/
def GKind.ofCode : Nat → Option GKind
  | 0 => some .up | 1 => some .dn | 2 => some .x | 3 => some .bc
  | _ => none

/-- Kinds of VOTE (18 R296). -/
def VoteKind.code : VoteKind → Nat
  | .ballot => 0 | .any => 1 | .all => 2 | .count => 3

/-- The VOTE kind of a code. -/
def VoteKind.ofCode : Nat → Option VoteKind
  | 0 => some .ballot | 1 => some .any | 2 => some .all | 3 => some .count
  | _ => none

/-- OP codes of Table 18-9. -/
def RedOp.code : RedOp → Nat
  | .add => 0 | .min => 1 | .max => 2 | .and => 3 | .or => 4 | .xor => 5

/-- The operation of an OP code of Table 18-9. -/
def RedOp.ofCode : Nat → Option RedOp
  | 0 => some .add | 1 => some .min | 2 => some .max | 3 => some .and | 4 => some .or | 5 => some .xor
  | _ => none

/-- OPN codes of Tables 19-2 and 21-6. -/
def AtOp.code : AtOp → Nat
  | .add => 0 | .min => 1 | .max => 2 | .and => 3 | .or => 4 | .xor => 5 | .swap => 6 | .cas => 7

/-- The operation of an OPN code. -/
def AtOp.ofCode : Nat → Option AtOp
  | 0 => some .add | 1 => some .min | 2 => some .max | 3 => some .and | 4 => some .or | 5 => some .xor
  | 6 => some .swap | 7 => some .cas
  | _ => none

/-- FORM codes of Table 21-6. -/
def AtForm.code : AtForm → Nat
  | .plain => 0 | .acq => 1 | .rel => 2 | .ar => 3

/-- The form of a FORM code of Table 21-6. -/
def AtForm.ofCode : Nat → Option AtForm
  | 0 => some .plain | 1 => some .acq | 2 => some .rel | 3 => some .ar
  | _ => none

/-- SUB codes of Table 19-3. -/
def LayFld.code : LayFld → Nat
  | .base => 0 | .mode => 1 | .etype => 2 | .s1 => 3 | .s2 => 4 | .s3 => 5 | .adv => 6

/-- The field of a SUB code of Table 19-3. -/
def LayFld.ofCode : Nat → Option LayFld
  | 0 => some .base | 1 => some .mode | 2 => some .etype | 3 => some .s1 | 4 => some .s2 | 5 => some .s3
  | 6 => some .adv
  | _ => none

/-- KIND and GS together, KIND + 4 GS (20 Table 20-2). -/
def MxScale.code : MxScale → Nat
  | .bx => 0 | .qa32 => 1 | .none => 2 | .qa64 => 5 | .qa128 => 9

/-- The scale kind of KIND + 4 GS (20 Table 20-2). -/
def MxScale.ofCode : Nat → Option MxScale
  | 0 => some .bx | 1 => some .qa32 | 2 => some .none | 5 => some .qa64 | 9 => some .qa128
  | _ => none

/-- Class codes of Table 9-2. -/
def Cls.code : Cls → Nat
  | .copy => 0 | .gather => 1 | .atomic => 2 | .matrix => 3 | .collective => 4

/-- The class of a code of Table 9-2. -/
def Cls.ofCode : Nat → Option Cls
  | 0 => some .copy | 1 => some .gather | 2 => some .atomic | 3 => some .matrix | 4 => some .collective
  | _ => none

/-- FORM codes of Table 21-3. -/
def StatForm.code : StatForm → Nat
  | .cnt => 0 | .raise => 1 | .ring => 2

/-- The form of a FORM code of Table 21-3. -/
def StatForm.ofCode : Nat → Option StatForm
  | 0 => some .cnt | 1 => some .raise | 2 => some .ring
  | _ => none

/-- SUB codes of FEMARK (22 Table 22-1). -/
def FeState.code : FeState → Nat
  | .full => 0 | .empty => 1 | .poison => 2

/-- The state of a SUB code of FEMARK. -/
def FeState.ofCode : Nat → Option FeState
  | 0 => some .full | 1 => some .empty | 2 => some .poison
  | _ => none

/-- Field L of a length. -/
def Len.code : Len → Nat
  | .l64 => 1 | .l96 => 2 | .l128 => 3

/-- The length of a field L; none for 0 (16 R245). -/
def Len.ofCode : Nat → Option Len
  | 1 => some .l64 | 2 => some .l96 | 3 => some .l128
  | _ => none

/-- X1 of GATH and SCAT (21 R338). -/
def GathX.word (x : GathX) : Word :=
  BitVec.ofNat 32 (x.scale.toNat + x.row.toNat * 2 ^ 20 + x.rl.toNat * 2 ^ 21)

/-- The fields of X1 of GATH and SCAT. -/
def GathX.ofWord (w : Word) : GathX where
  scale := BitVec.ofNat 20 w.toNat
  row := w.toNat.testBit 20
  rl := BitVec.ofNat 11 (w.toNat / 2 ^ 21)

/-- X1 of HGLD, HGSC and HGFOLD (21 Table 21-5). -/
def SmkX.word (x : SmkX) : Word :=
  BitVec.ofNat 32 (x.slot.toNat + x.l0.toNat * 2 ^ 4 + x.n1.toNat * 2 ^ 9)

/-- The fields of X1 of HGLD, HGSC and HGFOLD. -/
def SmkX.ofWord (w : Word) : SmkX where
  slot := BitVec.ofNat 4 w.toNat
  l0 := BitVec.ofNat 5 (w.toNat / 2 ^ 4)
  n1 := BitVec.ofNat 5 (w.toNat / 2 ^ 9)

/-! ## The encoder -/

/-- The issue-control fields of an instruction (16 Table 16-1): G is 0 for no guard and 1 to 8 for g0 to g7. -/
def Ctl.raw (c : Ctl) (op l : Nat) : Raw where
  l := BitVec.ofNat 2 l
  op := BitVec.ofNat 8 op
  stall := c.stall
  fe := c.fe
  y := BitVec.ofBool c.y
  g := match c.guard with
    | none => 0
    | some g => BitVec.ofNat 4 (g.g.toNat + 1)
  gn := match c.guard with
    | none => 0
    | some g => BitVec.ofBool g.neg
  d := 0
  a := 0
  b := 0
  c := 0
  sub := 0
  mod := 0
  x1 := 0
  x2 := 0

/-- The SUB field that holds a type code (16 R254, use T). -/
def Ty.sub (t : Ty) : BitVec 8 := BitVec.ofNat 8 t.code

/-- A one-bit modifier in MOD [0]. -/
def mod0 (m : Bool) : BitVec 5 := BitVec.ofNat 5 m.toNat

/-- The 64-bit form, or the 96-bit form with X1 in place of field B (16 R250, mark "i"). -/
def Raw.withB (r : Raw) (b : Src) : Raw :=
  match b with
  | .reg x => { r with b := x }
  | .imm x => { r with l := 2, x1 := x }

/-- The same for field A (VBCAST). -/
def Raw.withA (r : Raw) (a : Src) : Raw :=
  match a with
  | .reg x => { r with a := x }
  | .imm x => { r with l := 2, x1 := x }

/-- The 64-bit form, or the 96-bit form with an offset in X1 (16 R250, mark "o"). -/
def Raw.withOff (r : Raw) (o : Off) : Raw :=
  match o with
  | none => r
  | some x => { r with l := 2, x1 := x }

/-- X1 of a conversion (18 Table 18-6). -/
def cvtX (st : Ty) (part : BitVec 3) (sat : Bool) (delta : BitVec 4) : Word :=
  BitVec.ofNat 32 (st.code + part.toNat * 2 ^ 8 + sat.toNat * 2 ^ 11 + delta.toNat * 2 ^ 12)

/-- X1 of MXZ, MXRD and MXWR (20, before R317). -/
def rowsX (first count : BitVec 12) : Word := BitVec.ofNat 32 (first.toNat + count.toNat * 2 ^ 12)

/-- MOD of ATOM and ATOMS (21 Table 21-6). -/
def atomMod (scope : BitVec 3) (ret : Bool) : BitVec 5 := BitVec.ofNat 5 (ret.toNat + scope.toNat * 2)

/-- SUB with an operation, a type and a form (18 Table 18-9, 19 Table 19-2, 21 Table 21-6). -/
def opSub (op ty form : Nat) : BitVec 8 := BitVec.ofNat 8 (op + ty * 16 + form * 64)

/-- The fields of an instruction (chapters 16 to 22), for an event the fields of no instruction (L = 0). -/
def rawOf : Instr → Raw
  | .nop c len => c.raw 0x00 len.code
  | .bra c x1 => { c.raw 0x01 2 with x1 := x1 }
  | .brx c a x1 => { c.raw 0x02 2 with a := a, x1 := x1 }
  | .brs c cond a x1 x2 => { c.raw 0x03 3 with a := a, sub := BitVec.ofNat 8 cond.code, x1 := x1, x2 := x2 }
  | .brv c cond a x1 x2 => { c.raw 0x04 3 with a := a, sub := BitVec.ofNat 8 cond.code, x1 := x1, x2 := x2 }
  | .call c x1 => { c.raw 0x05 2 with x1 := x1 }
  | .ret c a => { c.raw 0x06 1 with a := a }
  | .regang c => c.raw 0x07 1
  | .exit c => c.raw 0x08 1
  | .ifMask c a => { c.raw 0x09 1 with a := a }
  | .elseMask c => c.raw 0x0A 1
  | .endif c => c.raw 0x0B 1
  | .loop c => c.raw 0x0C 1
  | .endloop c x1 => { c.raw 0x0D 2 with x1 := x1 }
  | .breakMask c a k => { c.raw 0x0E 1 with a := a, sub := k }
  | .contMask c a k => { c.raw 0x0F 1 with a := a, sub := k }
  | .yield c => c.raw 0x10 1
  | .sleep c n => { c.raw 0x11 2 with x1 := n.setWidth 32 }
  | .trap c code => { c.raw 0x12 1 with sub := code }
  | .rett c => c.raw 0x13 1
  | .brk c code => { c.raw 0x14 1 with sub := code }
  | .srd c d num => { c.raw 0x15 2 with d := d, x1 := num.setWidth 32 }
  | .swr c a num => { c.raw 0x16 2 with a := a, x1 := num.setWidth 32 }
  | .clk c d => { c.raw 0x17 1 with d := d }
  | .perf c d ev => { c.raw 0x18 1 with d := d, sub := ev }
  | .sadd c d a b => { c.raw 0x20 1 with d := d, a := a }.withB b
  | .ssub c d a b => { c.raw 0x21 1 with d := d, a := a }.withB b
  | .smul c d a b => { c.raw 0x22 1 with d := d, a := a }.withB b
  | .smulh c u d a b => { c.raw 0x23 1 with d := d, a := a, mod := mod0 u }.withB b
  | .sdiv c u d a b => { c.raw 0x24 1 with d := d, a := a, mod := mod0 u }.withB b
  | .srem c u d a b => { c.raw 0x25 1 with d := d, a := a, mod := mod0 u }.withB b
  | .sand c d a b => { c.raw 0x26 1 with d := d, a := a }.withB b
  | .sor c d a b => { c.raw 0x27 1 with d := d, a := a }.withB b
  | .sxor c d a b => { c.raw 0x28 1 with d := d, a := a }.withB b
  | .sshl c d a b => { c.raw 0x29 1 with d := d, a := a }.withB b
  | .sshr c d a b => { c.raw 0x2A 1 with d := d, a := a }.withB b
  | .ssra c d a b => { c.raw 0x2B 1 with d := d, a := a }.withB b
  | .smin c u d a b => { c.raw 0x2C 1 with d := d, a := a, mod := mod0 u }.withB b
  | .smax c u d a b => { c.raw 0x2D 1 with d := d, a := a, mod := mod0 u }.withB b
  | .scmp c cond d a b => { c.raw 0x2E 1 with d := d, a := a, sub := BitVec.ofNat 8 cond.code }.withB b
  | .ssel c d a b cc => { c.raw 0x2F 1 with d := d, a := a, b := b, c := cc }
  | .smov c d a => { c.raw 0x30 1 with d := d, a := a }
  | .smovi c d x => match x with
    | .short x1 => { c.raw 0x31 2 with d := d, x1 := x1 }
    | .long v =>
      { c.raw 0x31 3 with d := d, x1 := BitVec.ofNat 32 v.toNat, x2 := BitVec.ofNat 32 (v.toNat / 2 ^ 32) }
  | .sclz c d a => { c.raw 0x32 1 with d := d, a := a }
  | .spopc c d a => { c.raw 0x33 1 with d := d, a := a }
  | .sbfx c sgn d a pos wid =>
    { c.raw 0x34 2 with d := d, a := a, mod := mod0 sgn, x1 := BitVec.ofNat 32 (pos.toNat + wid.toNat * 2 ^ 6) }
  | .sbfi c d a pos wid =>
    { c.raw 0x35 2 with d := d, a := a, x1 := BitVec.ofNat 32 (pos.toNat + wid.toNat * 2 ^ 6) }
  | .sld c t d a off => { c.raw 0x36 1 with d := d, a := a, sub := t.sub }.withOff off
  | .sst c t a b off => { c.raw 0x37 1 with a := a, b := b, sub := t.sub }.withOff off
  | .slda c wide add d a off =>
    { c.raw 0x38 1 with d := d, a := a, sub := BitVec.ofNat 8 (wide.toNat + add.toNat * 4) }.withOff off
  | .vadd c t d a b => { c.raw 0x40 1 with d := d, a := a, sub := t.sub }.withB b
  | .vsub c t d a b => { c.raw 0x41 1 with d := d, a := a, sub := t.sub }.withB b
  | .vmul c t d a b => { c.raw 0x42 1 with d := d, a := a, sub := t.sub }.withB b
  | .vmulh c t d a b => { c.raw 0x43 1 with d := d, a := a, sub := t.sub }.withB b
  | .vmad c t d a b cc => { c.raw 0x44 1 with d := d, a := a, b := b, c := cc, sub := t.sub }
  | .vadds c t d a b => { c.raw 0x45 1 with d := d, a := a, sub := t.sub }.withB b
  | .vsubs c t d a b => { c.raw 0x46 1 with d := d, a := a, sub := t.sub }.withB b
  | .vand c d a b => { c.raw 0x47 1 with d := d, a := a }.withB b
  | .vor c d a b => { c.raw 0x48 1 with d := d, a := a }.withB b
  | .vxor c d a b => { c.raw 0x49 1 with d := d, a := a }.withB b
  | .vnot c d a => { c.raw 0x4A 1 with d := d, a := a }
  | .vshl c t d a b => { c.raw 0x4B 1 with d := d, a := a, sub := t.sub }.withB b
  | .vshr c t d a b => { c.raw 0x4C 1 with d := d, a := a, sub := t.sub }.withB b
  | .vsra c t d a b => { c.raw 0x4D 1 with d := d, a := a, sub := t.sub }.withB b
  | .vmin c t d a b => { c.raw 0x4E 1 with d := d, a := a, sub := t.sub }.withB b
  | .vmax c t d a b => { c.raw 0x4F 1 with d := d, a := a, sub := t.sub }.withB b
  | .vabs c t d a => { c.raw 0x50 1 with d := d, a := a, sub := t.sub }
  | .vneg c t d a => { c.raw 0x51 1 with d := d, a := a, sub := t.sub }
  | .vclz c t d a => { c.raw 0x52 1 with d := d, a := a, sub := t.sub }
  | .vpopc c t d a => { c.raw 0x53 1 with d := d, a := a, sub := t.sub }
  | .vbfx c sgn d a pos wid =>
    { c.raw 0x54 2 with d := d, a := a, mod := mod0 sgn, x1 := BitVec.ofNat 32 (pos.toNat + wid.toNat * 2 ^ 5) }
  | .vbfi c d a pos wid =>
    { c.raw 0x55 2 with d := d, a := a, x1 := BitVec.ofNat 32 (pos.toNat + wid.toNat * 2 ^ 5) }
  | .vaddc c t d a b cc => { c.raw 0x56 1 with d := d, a := a, b := b, c := cc, sub := t.sub }
  | .vmov c d a => { c.raw 0x57 1 with d := d, a := a }
  | .vbcast c d a => { c.raw 0x58 1 with d := d }.withA a
  | .vlid c d => { c.raw 0x59 1 with d := d }
  | .vsel c d a b cc => { c.raw 0x5A 1 with d := d, a := a, b := b, c := cc }
  | .vcmp c t cond d a b => { c.raw 0x5B 1 with d := d, a := a, sub := opSub cond.code t.code 0 }.withB b
  | .vmask c d a => { c.raw 0x5C 1 with d := d, a := a }
  | .fadd c t d a b => { c.raw 0x70 1 with d := d, a := a, sub := t.sub }.withB b
  | .fsub c t d a b => { c.raw 0x71 1 with d := d, a := a, sub := t.sub }.withB b
  | .fmul c t d a b => { c.raw 0x72 1 with d := d, a := a, sub := t.sub }.withB b
  | .ffma c t d a b cc => { c.raw 0x73 1 with d := d, a := a, b := b, c := cc, sub := t.sub }
  | .fmin c t d a b => { c.raw 0x74 1 with d := d, a := a, sub := t.sub }.withB b
  | .fmax c t d a b => { c.raw 0x75 1 with d := d, a := a, sub := t.sub }.withB b
  | .fabs c t d a => { c.raw 0x76 1 with d := d, a := a, sub := t.sub }
  | .fneg c t d a => { c.raw 0x77 1 with d := d, a := a, sub := t.sub }
  | .fdiv c t d a b => { c.raw 0x78 1 with d := d, a := a, sub := t.sub }.withB b
  | .frcp c t d a => { c.raw 0x79 1 with d := d, a := a, sub := t.sub }
  | .frsq c t d a => { c.raw 0x7A 1 with d := d, a := a, sub := t.sub }
  | .fsqrt c t d a => { c.raw 0x7B 1 with d := d, a := a, sub := t.sub }
  | .fexp2 c t d a => { c.raw 0x7C 1 with d := d, a := a, sub := t.sub }
  | .flog2 c t d a => { c.raw 0x7D 1 with d := d, a := a, sub := t.sub }
  | .ffloor c t d a => { c.raw 0x7E 1 with d := d, a := a, sub := t.sub }
  | .ffrac c t d a => { c.raw 0x7F 1 with d := d, a := a, sub := t.sub }
  | .fscale c t d a b => { c.raw 0x80 1 with d := d, a := a, sub := t.sub }.withB b
  | .fclass c t d a => { c.raw 0x81 1 with d := d, a := a, sub := t.sub }
  | .cvt c dt d a sty part => { c.raw 0x82 2 with d := d, a := a, sub := dt.sub, x1 := cvtX sty part false 0 }
  | .cvti c dt d a sty part sat => { c.raw 0x83 2 with d := d, a := a, sub := dt.sub, x1 := cvtX sty part sat 0 }
  | .cvtf c dt d a sty part => { c.raw 0x84 2 with d := d, a := a, sub := dt.sub, x1 := cvtX sty part false 0 }
  | .cvtbx c dt d a b sty part delta =>
    { c.raw 0x85 2 with d := d, a := a, b := b, sub := dt.sub, x1 := cvtX sty part false delta }
  | .shfi c seg d a b => { c.raw 0xA0 1 with d := d, a := a, sub := BitVec.ofNat 8 seg.code }.withB b
  | .shfu c seg d a b => { c.raw 0xA1 1 with d := d, a := a, sub := BitVec.ofNat 8 seg.code }.withB b
  | .shfd c seg d a b => { c.raw 0xA2 1 with d := d, a := a, sub := BitVec.ofNat 8 seg.code }.withB b
  | .shfx c seg d a b => { c.raw 0xA3 1 with d := d, a := a, sub := BitVec.ofNat 8 seg.code }.withB b
  | .gshf c kind width delta d a =>
    { c.raw 0xA4 2 with
      d := d, a := a
      x1 := BitVec.ofNat 32 (delta.toNat + width.toNat * 2 ^ 4 + kind.code * 2 ^ 6) }
  | .vote c kind d a => { c.raw 0xA5 1 with d := d, a := a, sub := BitVec.ofNat 8 kind.code }
  | .vreda c t op d a => { c.raw 0xA6 1 with d := d, a := a, sub := opSub op.code t.code 0 }
  | .vscan c ex t op d a => { c.raw 0xA7 1 with d := d, a := a, sub := opSub (op.code + 8 * ex.toNat) t.code 0 }
  | .aldef c d a off => { c.raw 0xB0 1 with d := d, a := a }.withOff off
  | .alrd c d a word => { c.raw 0xB1 1 with d := d, a := a, sub := word.setWidth 8 }
  | .unpk c sym an d a first =>
    { c.raw 0xB2 2 with d := d, a := a, sub := (Ty.alpha an).sub, mod := mod0 sym, x1 := first }
  | .pack c sym an d a first =>
    { c.raw 0xB3 2 with d := d, a := a, sub := (Ty.alpha an).sub, mod := mod0 sym, x1 := first }
  | .symx c sym an d a b => { c.raw 0xB4 1 with d := d, a := a, b := b, sub := (Ty.alpha an).sub, mod := mod0 sym }
  | .symi c sym an d a b cc =>
    { c.raw 0xB5 1 with d := d, a := a, b := b, c := cc, sub := (Ty.alpha an).sub, mod := mod0 sym }
  | .symld c sym an d a b => { c.raw 0xB6 1 with d := d, a := a, b := b, sub := (Ty.alpha an).sub, mod := mod0 sym }
  | .symst c sym an a b cc =>
    { c.raw 0xB7 1 with a := a, b := b, c := cc, sub := (Ty.alpha an).sub, mod := mod0 sym }
  | .dota c acc an am d a b nmax =>
    { c.raw 0xB8 2 with
      d := d, a := a, b := b, sub := (Ty.alpha an).sub, mod := mod0 acc
      x1 := BitVec.ofNat 32 ((Ty.alpha am).code + nmax.toNat * 2 ^ 8) }
  | .valc c an d a => { c.raw 0xB9 1 with d := d, a := a, sub := (Ty.alpha an).sub }
  | .ld c t d a off => { c.raw 0xC0 1 with d := d, a := a, sub := t.sub }.withOff off
  | .st c t a b off => { c.raw 0xC1 1 with a := a, b := b, sub := t.sub }.withOff off
  | .ldt c t d a b => { c.raw 0xC2 1 with d := d, a := a, b := b, sub := t.sub }
  | .stt c t a b cc => { c.raw 0xC3 1 with a := a, b := b, c := cc, sub := t.sub }
  | .ldb c t d a off => { c.raw 0xC4 1 with d := d, a := a, sub := t.sub }.withOff off
  | .ats c ret t op d a b off =>
    { c.raw 0xC5 1 with d := d, a := a, b := b, sub := opSub op.code t.code 0, mod := mod0 ret }.withOff off
  | .trtw c a b => { c.raw 0xC6 1 with a := a, b := b }
  | .trtr c d a => { c.raw 0xC7 1 with d := d, a := a }
  | .layset c fld d a x1 => { c.raw 0xC8 2 with d := d, a := a, sub := BitVec.ofNat 8 fld.code, x1 := x1 }
  | .mxz c first count => { c.raw 0xD0 2 with x1 := rowsX first count }
  | .mma c ta tb keepb ck d a b cc =>
    { c.raw 0xD1 1 with
      d := d, a := a, b := b, c := cc, sub := opSub ta.toNat tb.toNat 0
      mod := BitVec.ofNat 5 (keepb.toNat + ck.toNat * 2) }
  | .mxrd c toReg t d first count =>
    { c.raw 0xD2 2 with d := d, sub := t.sub, mod := mod0 toReg, x1 := rowsX first count }
  | .mxwr c t a first count => { c.raw 0xD3 2 with a := a, sub := t.sub, x1 := rowsX first count }
  | .mxsc c opB kind a b =>
    { c.raw 0xD4 1 with a := a, b := b, sub := BitVec.ofNat 8 (opB.toNat + kind.code * 2) }
  | .mxck c clr d => { c.raw 0xD5 1 with d := d, mod := mod0 clr }
  | .mxil c t a krows => { c.raw 0xD6 2 with a := a, sub := t.sub, x1 := krows.setWidth 32 }
  | .cpyq c a => { c.raw 0xE0 1 with a := a }
  | .cpypub c => c.raw 0xE1 1
  | .cseal c cls => { c.raw 0xE2 1 with sub := BitVec.ofNat 8 cls.code }
  | .cwait c cls n => { c.raw 0xE3 2 with sub := BitVec.ofNat 8 cls.code, x1 := n.setWidth 32 }
  | .cstat c form cls d => { c.raw 0xE4 1 with d := d, sub := BitVec.ofNat 8 (cls.code + form.code * 8) }
  | .gath c t d a x => { c.raw 0xE5 2 with d := d, a := a, sub := t.sub, x1 := x.word }
  | .scat c t a b x => { c.raw 0xE6 2 with a := a, b := b, sub := t.sub, x1 := x.word }
  | .hgcfg c a slot => { c.raw 0xE7 2 with a := a, x1 := slot.setWidth 32 }
  | .hgld c d a x => { c.raw 0xE8 2 with d := d, a := a, x1 := x.word }
  | .hgsc c a b x => { c.raw 0xE9 2 with a := a, b := b, x1 := x.word }
  | .hgfold c zero a x => { c.raw 0xEA 2 with a := a, mod := mod0 zero, x1 := x.word }
  | .hgidx c d a slot level corner =>
    { c.raw 0xEB 2 with
      d := d, a := a
      x1 := BitVec.ofNat 32 (slot.toNat + level.toNat * 2 ^ 4 + corner.toNat * 2 ^ 9) }
  | .atom c form t op scope ret d a b cc =>
    { c.raw 0xEC 1 with
      d := d, a := a, b := b, c := cc, sub := opSub op.code t.code form.code
      mod := atomMod scope ret }
  | .atoms c form t op scope ret a b off =>
    { c.raw 0xED 1 with a := a, b := b, sub := opSub op.code t.code form.code, mod := atomMod scope ret }.withOff off
  | .join c s => { c.raw 0xF0 2 with x1 := s.setWidth 32 }
  | .leave c s => { c.raw 0xF0 2 with sub := 1, x1 := s.setWidth 32 }
  | .seambar c s => { c.raw 0xF0 2 with sub := 2, x1 := s.setWidth 32 }
  | .barw c b n => { c.raw 0xF1 2 with x1 := BitVec.ofNat 32 (b.toNat + n.toNat * 2 ^ 4) }
  | .slvinit c n a => { c.raw 0xF2 2 with a := a, x1 := n.setWidth 32 }
  | .slvpush c n a => { c.raw 0xF2 2 with a := a, sub := 1, x1 := n.setWidth 32 }
  | .slvpop c n d => { c.raw 0xF2 2 with d := d, sub := 2, x1 := n.setWidth 32 }
  | .slvtry c n d => { c.raw 0xF2 2 with d := d, sub := 3, x1 := n.setWidth 32 }
  | .slvgrant c n => { c.raw 0xF2 2 with sub := 4, x1 := n.setWidth 32 }
  | .phaseAcq c scope => { c.raw 0xF3 1 with sub := BitVec.ofNat 8 (scope.toNat + 8) }
  | .phaseRel c scope => { c.raw 0xF3 1 with sub := BitVec.ofNat 8 (scope.toNat + 16) }
  | .phaseAr c scope => { c.raw 0xF3 1 with sub := BitVec.ofNat 8 (scope.toNat + 24) }
  | .fence c mask => { c.raw 0xF4 1 with sub := mask.setWidth 8 }
  | .fewait c a => { c.raw 0xF5 1 with a := a }
  | .femark c sty d => { c.raw 0xF6 1 with d := d, sub := BitVec.ofNat 8 sty.code }
  | .rgnLo c mask => { c.raw 0xF7 2 with x1 := mask }
  | .rgnHi c mask => { c.raw 0xF7 2 with sub := 1, x1 := mask }
  | .spill c a slot => { c.raw 0xF8 2 with a := a, x1 := slot.setWidth 32 }
  | .fill c d slot => { c.raw 0xF9 2 with d := d, x1 := slot.setWidth 32 }
  | .ftag c d a => { c.raw 0xFA 1 with d := d, a := a }
  | .ctnopen c x1 => { c.raw 0xFB 2 with x1 := x1 }
  | .ctnclose c => { c.raw 0xFB 1 with sub := 1 }
  | .ctnraise c code => { c.raw 0xFB 2 with sub := 2, x1 := code.setWidth 32 }
  | .tidset c id => { c.raw 0xFC 2 with x1 := id.setWidth 32 }
  | _ => Raw.ofNat 0

/-- An event of the part, which has no encoding. -/
def Instr.isEvent (i : Instr) : Bool := (shape i).isNone

/-- The length of an instruction in bytes (16 R245). -/
def Instr.length (i : Instr) : Nat := lengthBytes (rawOf i).l

/-- The bytes of an instruction (16 R249: little-endian words, the first word first). -/
def encode (i : Instr) : List Byte := leBytes i.length (rawOf i).toNat

/-! ## The decoder -/

/-- The issue-control fields; G 9 to 15 and GN without G are refused (16 Table 16-1, R248). -/
def Raw.ctl (r : Raw) : Except DecodeError Ctl :=
  if r.g == 0 then
    if r.gn == 1 then .error .guardNegate
    else .ok ⟨r.stall, r.y == 1, r.fe, none⟩
  else if 8 < r.g.toNat then .error .guardField
  else .ok ⟨r.stall, r.y == 1, r.fe, some ⟨BitVec.ofNat 3 (r.g.toNat - 1), r.gn == 1⟩⟩

/-- A SUB or MOD value that a table lists, or the reason to refuse it. -/
def sub? {α : Type} (o : Option α) : Except DecodeError α :=
  match o with
  | some a => .ok a
  | none => .error .subValue

/-- A type code in SUB (16 R254). -/
def Raw.ty (r : Raw) : Except DecodeError Ty :=
  match Ty.ofCode r.sub.toNat with
  | some t => .ok t
  | none => .error .typeRefused

/-- The source type in X1 [7:0] of a conversion (18 Table 18-6). -/
def Raw.st (r : Raw) : Except DecodeError Ty :=
  match Ty.ofCode (r.x1.toNat % 256) with
  | some t => .ok t
  | none => .error .typeRefused

/-- The alphabet register that SUB names. -/
def Raw.alpha (r : Raw) : Except DecodeError (BitVec 4) :=
  match Ty.ofCode r.sub.toNat with
  | some (.alpha n) => .ok n
  | _ => .error .typeRefused

/-- Field B, or X1 in the 96-bit form (16 R250). -/
def Raw.srcB (r : Raw) : Src := if r.l == 2 then .imm r.x1 else .reg r.b

/-- Field A, or X1 in the 96-bit form (VBCAST). -/
def Raw.srcA (r : Raw) : Src := if r.l == 2 then .imm r.x1 else .reg r.a

/-- The offset of a bracketed address (16 R250). -/
def Raw.off (r : Raw) : Off := if r.l == 2 then some r.x1 else none

/-- PART, SAT and DELTA of Table 18-6. -/
def Raw.part (r : Raw) : BitVec 3 := BitVec.ofNat 3 (r.x1.toNat / 2 ^ 8)
def Raw.delta (r : Raw) : BitVec 4 := BitVec.ofNat 4 (r.x1.toNat / 2 ^ 12)

/-- MOD [0] and MOD [1]. -/
def Raw.m0 (r : Raw) : Bool := r.mod.getLsbD 0
def Raw.m1 (r : Raw) : Bool := r.mod.getLsbD 1

/-- FIRST and COUNT of the row instructions. -/
def Raw.first (r : Raw) : BitVec 12 := BitVec.ofNat 12 r.x1.toNat
def Raw.count (r : Raw) : BitVec 12 := BitVec.ofNat 12 (r.x1.toNat / 2 ^ 12)

/-- X1 [3:0], the slot operand of chapter 22 and of HGCFG and HGIDX. -/
def Raw.slot (r : Raw) : BitVec 4 := BitVec.ofNat 4 r.x1.toNat

/-- Opcodes 0x00 to 0x18 (16 Table 16-2). -/
def decodeControl (r : Raw) (c : Ctl) : Except DecodeError Instr :=
  match r.op.toNat with
  | 0x00 => match Len.ofCode r.l.toNat with
    | some len => .ok (.nop c len)
    | none => .error .lengthZero
  | 0x01 => .ok (.bra c r.x1)
  | 0x02 => .ok (.brx c r.a r.x1)
  | 0x03 => do .ok (.brs c (← sub? (BrCond.ofCode r.sub.toNat)) r.a r.x1 r.x2)
  | 0x04 => do .ok (.brv c (← sub? (BrCond.ofCode r.sub.toNat)) r.a r.x1 r.x2)
  | 0x05 => .ok (.call c r.x1)
  | 0x06 => .ok (.ret c r.a)
  | 0x07 => .ok (.regang c)
  | 0x08 => .ok (.exit c)
  | 0x09 => .ok (.ifMask c r.a)
  | 0x0A => .ok (.elseMask c)
  | 0x0B => .ok (.endif c)
  | 0x0C => .ok (.loop c)
  | 0x0D => .ok (.endloop c r.x1)
  | 0x0E => .ok (.breakMask c r.a r.sub)
  | 0x0F => .ok (.contMask c r.a r.sub)
  | 0x10 => .ok (.yield c)
  | 0x11 => .ok (.sleep c (BitVec.ofNat 20 r.x1.toNat))
  | 0x12 => .ok (.trap c r.sub)
  | 0x13 => .ok (.rett c)
  | 0x14 => .ok (.brk c r.sub)
  | 0x15 => .ok (.srd c r.d (BitVec.ofNat 12 r.x1.toNat))
  | 0x16 => .ok (.swr c r.a (BitVec.ofNat 12 r.x1.toNat))
  | 0x17 => .ok (.clk c r.d)
  | 0x18 => .ok (.perf c r.d r.sub)
  | _ => .error .unassignedOp

/-- Opcodes 0x20 to 0x38 (16 Table 16-2). -/
def decodeScalar (r : Raw) (c : Ctl) : Except DecodeError Instr :=
  match r.op.toNat with
  | 0x20 => .ok (.sadd c r.d r.a r.srcB)
  | 0x21 => .ok (.ssub c r.d r.a r.srcB)
  | 0x22 => .ok (.smul c r.d r.a r.srcB)
  | 0x23 => .ok (.smulh c r.m0 r.d r.a r.srcB)
  | 0x24 => .ok (.sdiv c r.m0 r.d r.a r.srcB)
  | 0x25 => .ok (.srem c r.m0 r.d r.a r.srcB)
  | 0x26 => .ok (.sand c r.d r.a r.srcB)
  | 0x27 => .ok (.sor c r.d r.a r.srcB)
  | 0x28 => .ok (.sxor c r.d r.a r.srcB)
  | 0x29 => .ok (.sshl c r.d r.a r.srcB)
  | 0x2A => .ok (.sshr c r.d r.a r.srcB)
  | 0x2B => .ok (.ssra c r.d r.a r.srcB)
  | 0x2C => .ok (.smin c r.m0 r.d r.a r.srcB)
  | 0x2D => .ok (.smax c r.m0 r.d r.a r.srcB)
  | 0x2E => do .ok (.scmp c (← sub? (SCond.ofCode r.sub.toNat)) r.d r.a r.srcB)
  | 0x2F => .ok (.ssel c r.d r.a r.b r.c)
  | 0x30 => .ok (.smov c r.d r.a)
  | 0x31 => .ok (.smovi c r.d
      (if r.l == 3 then .long (BitVec.ofNat 64 (r.x1.toNat + r.x2.toNat * 2 ^ 32)) else .short r.x1))
  | 0x32 => .ok (.sclz c r.d r.a)
  | 0x33 => .ok (.spopc c r.d r.a)
  | 0x34 => .ok (.sbfx c r.m0 r.d r.a (BitVec.ofNat 6 r.x1.toNat) (BitVec.ofNat 7 (r.x1.toNat / 2 ^ 6)))
  | 0x35 => .ok (.sbfi c r.d r.a (BitVec.ofNat 6 r.x1.toNat) (BitVec.ofNat 7 (r.x1.toNat / 2 ^ 6)))
  | 0x36 => do .ok (.sld c (← r.ty) r.d r.a r.off)
  | 0x37 => do .ok (.sst c (← r.ty) r.a r.b r.off)
  | 0x38 => .ok (.slda c (r.sub.getLsbD 0) (BitVec.ofNat 6 (r.sub.toNat / 4)) r.d r.a r.off)
  | _ => .error .unassignedOp

/-- Opcodes 0x40 to 0x5C (16 Table 16-3). -/
def decodeVector (r : Raw) (c : Ctl) : Except DecodeError Instr :=
  match r.op.toNat with
  | 0x40 => do .ok (.vadd c (← r.ty) r.d r.a r.srcB)
  | 0x41 => do .ok (.vsub c (← r.ty) r.d r.a r.srcB)
  | 0x42 => do .ok (.vmul c (← r.ty) r.d r.a r.srcB)
  | 0x43 => do .ok (.vmulh c (← r.ty) r.d r.a r.srcB)
  | 0x44 => do .ok (.vmad c (← r.ty) r.d r.a r.b r.c)
  | 0x45 => do .ok (.vadds c (← r.ty) r.d r.a r.srcB)
  | 0x46 => do .ok (.vsubs c (← r.ty) r.d r.a r.srcB)
  | 0x47 => .ok (.vand c r.d r.a r.srcB)
  | 0x48 => .ok (.vor c r.d r.a r.srcB)
  | 0x49 => .ok (.vxor c r.d r.a r.srcB)
  | 0x4A => .ok (.vnot c r.d r.a)
  | 0x4B => do .ok (.vshl c (← r.ty) r.d r.a r.srcB)
  | 0x4C => do .ok (.vshr c (← r.ty) r.d r.a r.srcB)
  | 0x4D => do .ok (.vsra c (← r.ty) r.d r.a r.srcB)
  | 0x4E => do .ok (.vmin c (← r.ty) r.d r.a r.srcB)
  | 0x4F => do .ok (.vmax c (← r.ty) r.d r.a r.srcB)
  | 0x50 => do .ok (.vabs c (← r.ty) r.d r.a)
  | 0x51 => do .ok (.vneg c (← r.ty) r.d r.a)
  | 0x52 => do .ok (.vclz c (← r.ty) r.d r.a)
  | 0x53 => do .ok (.vpopc c (← r.ty) r.d r.a)
  | 0x54 => .ok (.vbfx c r.m0 r.d r.a (BitVec.ofNat 5 r.x1.toNat) (BitVec.ofNat 6 (r.x1.toNat / 2 ^ 5)))
  | 0x55 => .ok (.vbfi c r.d r.a (BitVec.ofNat 5 r.x1.toNat) (BitVec.ofNat 6 (r.x1.toNat / 2 ^ 5)))
  | 0x56 => do .ok (.vaddc c (← r.ty) r.d r.a r.b r.c)
  | 0x57 => .ok (.vmov c r.d r.a)
  | 0x58 => .ok (.vbcast c r.d r.srcA)
  | 0x59 => .ok (.vlid c r.d)
  | 0x5A => .ok (.vsel c r.d r.a r.b r.c)
  | 0x5B => do .ok (.vcmp c (← sub? (LTy.ofCode (r.sub.toNat / 16 % 4))) (← sub? (VCond.ofCode (r.sub.toNat % 16)))
      r.d r.a r.srcB)
  | 0x5C => .ok (.vmask c r.d r.a)
  | _ => .error .unassignedOp

/-- Opcodes 0x70 to 0x85 (16 Table 16-3). -/
def decodeFloat (r : Raw) (c : Ctl) : Except DecodeError Instr :=
  match r.op.toNat with
  | 0x70 => do .ok (.fadd c (← r.ty) r.d r.a r.srcB)
  | 0x71 => do .ok (.fsub c (← r.ty) r.d r.a r.srcB)
  | 0x72 => do .ok (.fmul c (← r.ty) r.d r.a r.srcB)
  | 0x73 => do .ok (.ffma c (← r.ty) r.d r.a r.b r.c)
  | 0x74 => do .ok (.fmin c (← r.ty) r.d r.a r.srcB)
  | 0x75 => do .ok (.fmax c (← r.ty) r.d r.a r.srcB)
  | 0x76 => do .ok (.fabs c (← r.ty) r.d r.a)
  | 0x77 => do .ok (.fneg c (← r.ty) r.d r.a)
  | 0x78 => do .ok (.fdiv c (← r.ty) r.d r.a r.srcB)
  | 0x79 => do .ok (.frcp c (← r.ty) r.d r.a)
  | 0x7A => do .ok (.frsq c (← r.ty) r.d r.a)
  | 0x7B => do .ok (.fsqrt c (← r.ty) r.d r.a)
  | 0x7C => do .ok (.fexp2 c (← r.ty) r.d r.a)
  | 0x7D => do .ok (.flog2 c (← r.ty) r.d r.a)
  | 0x7E => do .ok (.ffloor c (← r.ty) r.d r.a)
  | 0x7F => do .ok (.ffrac c (← r.ty) r.d r.a)
  | 0x80 => do .ok (.fscale c (← r.ty) r.d r.a r.srcB)
  | 0x81 => do .ok (.fclass c (← r.ty) r.d r.a)
  | 0x82 => do .ok (.cvt c (← r.ty) r.d r.a (← r.st) r.part)
  | 0x83 => do .ok (.cvti c (← r.ty) r.d r.a (← r.st) r.part (r.x1.getLsbD 11))
  | 0x84 => do .ok (.cvtf c (← r.ty) r.d r.a (← r.st) r.part)
  | 0x85 => do .ok (.cvtbx c (← r.ty) r.d r.a r.b (← r.st) r.part r.delta)
  | _ => .error .unassignedOp

/-- Opcodes 0xA0 to 0xB9 (16 Table 16-4). -/
def decodeCross (r : Raw) (c : Ctl) : Except DecodeError Instr :=
  match r.op.toNat with
  | 0xA0 => do .ok (.shfi c (← sub? (Seg.ofCode r.sub.toNat)) r.d r.a r.srcB)
  | 0xA1 => do .ok (.shfu c (← sub? (Seg.ofCode r.sub.toNat)) r.d r.a r.srcB)
  | 0xA2 => do .ok (.shfd c (← sub? (Seg.ofCode r.sub.toNat)) r.d r.a r.srcB)
  | 0xA3 => do .ok (.shfx c (← sub? (Seg.ofCode r.sub.toNat)) r.d r.a r.srcB)
  | 0xA4 => do .ok (.gshf c (← sub? (GKind.ofCode (r.x1.toNat / 2 ^ 6 % 4))) (BitVec.ofNat 2 (r.x1.toNat / 2 ^ 4))
      (BitVec.ofNat 4 r.x1.toNat) r.d r.a)
  | 0xA5 => do .ok (.vote c (← sub? (VoteKind.ofCode r.sub.toNat)) r.d r.a)
  | 0xA6 => do .ok (.vreda c (← sub? (LTy.ofCode (r.sub.toNat / 16 % 4))) (← sub? (RedOp.ofCode (r.sub.toNat % 8)))
      r.d r.a)
  | 0xA7 => do .ok (.vscan c (r.sub.getLsbD 3) (← sub? (LTy.ofCode (r.sub.toNat / 16 % 4)))
      (← sub? (RedOp.ofCode (r.sub.toNat % 8))) r.d r.a)
  | 0xB0 => .ok (.aldef c r.d r.a r.off)
  | 0xB1 => .ok (.alrd c r.d r.a (BitVec.ofNat 2 r.sub.toNat))
  | 0xB2 => do .ok (.unpk c r.m0 (← r.alpha) r.d r.a r.x1)
  | 0xB3 => do .ok (.pack c r.m0 (← r.alpha) r.d r.a r.x1)
  | 0xB4 => do .ok (.symx c r.m0 (← r.alpha) r.d r.a r.b)
  | 0xB5 => do .ok (.symi c r.m0 (← r.alpha) r.d r.a r.b r.c)
  | 0xB6 => do .ok (.symld c r.m0 (← r.alpha) r.d r.a r.b)
  | 0xB7 => do .ok (.symst c r.m0 (← r.alpha) r.a r.b r.c)
  | 0xB8 => do match ← r.st with
    | .alpha am => .ok (.dota c r.m0 (← r.alpha) am r.d r.a r.b (BitVec.ofNat 8 (r.x1.toNat / 2 ^ 8)))
    | _ => .error .typeRefused
  | 0xB9 => do .ok (.valc c (← r.alpha) r.d r.a)
  | _ => .error .unassignedOp

/-- Opcodes 0xC0 to 0xC8 (16 Table 16-4). -/
def decodeScratch (r : Raw) (c : Ctl) : Except DecodeError Instr :=
  match r.op.toNat with
  | 0xC0 => do .ok (.ld c (← r.ty) r.d r.a r.off)
  | 0xC1 => do .ok (.st c (← r.ty) r.a r.b r.off)
  | 0xC2 => do .ok (.ldt c (← r.ty) r.d r.a r.b)
  | 0xC3 => do .ok (.stt c (← r.ty) r.a r.b r.c)
  | 0xC4 => do .ok (.ldb c (← r.ty) r.d r.a r.off)
  | 0xC5 => do .ok (.ats c r.m0 (← sub? (LTy.ofCode (r.sub.toNat / 16 % 4)))
      (← sub? (AtOp.ofCode (r.sub.toNat % 16))) r.d r.a r.b r.off)
  | 0xC6 => .ok (.trtw c r.a r.b)
  | 0xC7 => .ok (.trtr c r.d r.a)
  | 0xC8 => do .ok (.layset c (← sub? (LayFld.ofCode r.sub.toNat)) r.d r.a r.x1)
  | _ => .error .unassignedOp

/-- Opcodes 0xD0 to 0xED (16 Table 16-5). -/
def decodeEngine (r : Raw) (c : Ctl) : Except DecodeError Instr :=
  match r.op.toNat with
  | 0xD0 => .ok (.mxz c r.first r.count)
  | 0xD1 => .ok (.mma c (BitVec.ofNat 4 r.sub.toNat) (BitVec.ofNat 4 (r.sub.toNat / 16)) r.m0 r.m1 r.d r.a r.b r.c)
  | 0xD2 => do .ok (.mxrd c r.m0 (← r.ty) r.d r.first r.count)
  | 0xD3 => do .ok (.mxwr c (← r.ty) r.a r.first r.count)
  | 0xD4 => do .ok (.mxsc c (r.sub.getLsbD 0) (← sub? (MxScale.ofCode (r.sub.toNat / 2))) r.a r.b)
  | 0xD5 => .ok (.mxck c r.m0 r.d)
  | 0xD6 => do .ok (.mxil c (← r.ty) r.a (BitVec.ofNat 10 r.x1.toNat))
  | 0xE0 => .ok (.cpyq c r.a)
  | 0xE1 => .ok (.cpypub c)
  | 0xE2 => do .ok (.cseal c (← sub? (Cls.ofCode r.sub.toNat)))
  | 0xE3 => do .ok (.cwait c (← sub? (Cls.ofCode r.sub.toNat)) (BitVec.ofNat 6 r.x1.toNat))
  | 0xE4 => do .ok (.cstat c (← sub? (StatForm.ofCode (r.sub.toNat / 8 % 4))) (← sub? (Cls.ofCode (r.sub.toNat % 8)))
      r.d)
  | 0xE5 => do .ok (.gath c (← r.ty) r.d r.a (GathX.ofWord r.x1))
  | 0xE6 => do .ok (.scat c (← r.ty) r.a r.b (GathX.ofWord r.x1))
  | 0xE7 => .ok (.hgcfg c r.a r.slot)
  | 0xE8 => .ok (.hgld c r.d r.a (SmkX.ofWord r.x1))
  | 0xE9 => .ok (.hgsc c r.a r.b (SmkX.ofWord r.x1))
  | 0xEA => .ok (.hgfold c r.m0 r.a (SmkX.ofWord r.x1))
  | 0xEB => .ok (.hgidx c r.d r.a r.slot (BitVec.ofNat 5 (r.x1.toNat / 2 ^ 4)) (BitVec.ofNat 8 (r.x1.toNat / 2 ^ 9)))
  | 0xEC => do .ok (.atom c (← sub? (AtForm.ofCode (r.sub.toNat / 64))) (← sub? (LTy.ofCode (r.sub.toNat / 16 % 4)))
      (← sub? (AtOp.ofCode (r.sub.toNat % 16))) (BitVec.ofNat 3 (r.mod.toNat / 2)) r.m0 r.d r.a r.b r.c)
  | 0xED => do .ok (.atoms c (← sub? (AtForm.ofCode (r.sub.toNat / 64))) (← sub? (STy.ofCode (r.sub.toNat / 16 % 4)))
      (← sub? (AtOp.ofCode (r.sub.toNat % 16))) (BitVec.ofNat 3 (r.mod.toNat / 2)) r.m0 r.a r.b r.off)
  | _ => .error .unassignedOp

/-- Opcodes 0xF0 to 0xFC (16 Table 16-6, 22 Table 22-1). -/
def decodeSync (r : Raw) (c : Ctl) : Except DecodeError Instr :=
  match r.op.toNat with
  | 0xF0 => match r.sub.toNat with
    | 0 => .ok (.join c r.slot)
    | 1 => .ok (.leave c r.slot)
    | 2 => .ok (.seambar c r.slot)
    | _ => .error .subValue
  | 0xF1 => .ok (.barw c r.slot (BitVec.ofNat 6 (r.x1.toNat / 2 ^ 4)))
  | 0xF2 => match r.sub.toNat with
    | 0 => .ok (.slvinit c r.slot r.a)
    | 1 => .ok (.slvpush c r.slot r.a)
    | 2 => .ok (.slvpop c r.slot r.d)
    | 3 => .ok (.slvtry c r.slot r.d)
    | 4 => .ok (.slvgrant c r.slot)
    | _ => .error .subValue
  | 0xF3 => match r.sub.toNat / 8 with
    | 1 => .ok (.phaseAcq c (BitVec.ofNat 3 r.sub.toNat))
    | 2 => .ok (.phaseRel c (BitVec.ofNat 3 r.sub.toNat))
    | 3 => .ok (.phaseAr c (BitVec.ofNat 3 r.sub.toNat))
    | _ => .error .subValue
  | 0xF4 => .ok (.fence c (BitVec.ofNat 5 r.sub.toNat))
  | 0xF5 => .ok (.fewait c r.a)
  | 0xF6 => do .ok (.femark c (← sub? (FeState.ofCode r.sub.toNat)) r.d)
  | 0xF7 => match r.sub.toNat with
    | 0 => .ok (.rgnLo c r.x1)
    | 1 => .ok (.rgnHi c r.x1)
    | _ => .error .subValue
  | 0xF8 => .ok (.spill c r.a (BitVec.ofNat 9 r.x1.toNat))
  | 0xF9 => .ok (.fill c r.d (BitVec.ofNat 9 r.x1.toNat))
  | 0xFA => .ok (.ftag c r.d r.a)
  | 0xFB => match r.sub.toNat with
    | 0 => .ok (.ctnopen c r.x1)
    | 1 => .ok (.ctnclose c)
    | 2 => .ok (.ctnraise c (BitVec.ofNat 8 r.x1.toNat))
    | _ => .error .subValue
  | 0xFC => .ok (.tidset c (BitVec.ofNat 12 r.x1.toNat))
  | _ => .error .unassignedOp

/-- The instruction that OP, SUB and the operand fields name, before the check of the bits it leaves unused. -/
def Raw.candidate (r : Raw) (c : Ctl) : Except DecodeError Instr :=
  let op := r.op.toNat
  if op < 0x20 then decodeControl r c
  else if op < 0x40 then decodeScalar r c
  else if op < 0x60 then decodeVector r c
  else if op < 0xA0 then decodeFloat r c
  else if op < 0xC0 then decodeCross r c
  else if op < 0xD0 then decodeScratch r c
  else if op < 0xF0 then decodeEngine r c
  else decodeSync r c

/-- The name of the first field in which two instructions differ (16 R248). -/
def Raw.differs (r e : Raw) : DecodeError :=
  if r.l ≠ e.l then .lengthRefused
  else if r.d ≠ e.d ∨ r.a ≠ e.a ∨ r.b ≠ e.b ∨ r.c ≠ e.c then .registerField
  else if r.mod ≠ e.mod then .modBit
  else if r.sub ≠ e.sub then .subValue
  else .extensionBits

/-- The instruction that fields hold, or the reason that the hardware refuses them with ILLEGAL (16 R248, R255). -/
def Raw.decode (r : Raw) : Except DecodeError Instr :=
  if r.l == 0 then .error .lengthZero
  else match r.ctl with
    | .error e => .error e
    | .ok c => match r.candidate c with
      | .error e => .error e
      | .ok i =>
        if rawOf i = r then
          match illegalReason i with
          | some e => .error e
          | none => .ok i
        else .error (r.differs (rawOf i))

/-- Decode the instruction at the head of a list of bytes: the instruction and the bytes after it. -/
def decode (bs : List Byte) : Except DecodeError (Instr × List Byte) :=
  match bs with
  | [] => .error .truncated
  | b :: _ =>
    let m := lengthBytes (BitVec.ofNat 2 b.toNat)
    if m = 0 then .error .lengthZero
    else if bs.length < m then .error .truncated
    else match (Raw.ofNat (leNat (bs.take m))).decode with
      | .ok i => .ok (i, bs.drop m)
      | .error e => .error e

/-- The instruction whose bits are `w`, bit 0 the least significant bit of the first word; the bits above `nbits` are
0. The words are laid out little-endian and given to the decoder. -/
def decodeTableWord (nbits w : Nat) : Option Instr :=
  match decode (leBytes 16 (w % 2 ^ nbits)) with
  | .ok (i, _) => some i
  | .error _ => none

end Sys2Proof
end

