-- ==== Sys2Proof/Config.lean ====
section
/-! DEFINITION. What the specification leaves open: constants with no body, so that no proof can use a value of
theirs, and the constants that the device fixes. -/

namespace Sys2Proof.Config

/-- R231: whether a slice that reads a register before a producer's result is visible sees that result. The arguments
are the machine's free-value counter, the register, the slice and the producer's place. Log entry 4. -/
opaque raceSeesNew : Nat → Nat → Nat → Nat → Bool

/-- Whether the copy engine sees the new content of word `k` of a ring entry that has changed since its publication (21 R331).
Log entry 54. -/
opaque ringSeesNew : Nat → Nat → Bool

/-- The lossless compressor of R45: the image of a page, whose content the specification calls opaque. Log entry 7. -/
opaque compress : List Byte → List Byte

/-- What the device expands an image to when it did not itself make the image (02 R47). Log entry 7. -/
opaque expand : List Byte → List Byte

/-- The control state of a saved panel as bytes (06 R114): the layout of a save slot is not given. Log entry 9. -/
opaque saveImage : Nat → List Byte

/-- The length of an image that the device did not itself make, which its first granule tells (02 R47). Log entry 7. -/
opaque imageLength : List Byte → Nat

/-- The ML-DSA-44 signature of the module over a digest, for the random choices that the counter stands for (05 R98).
Log entry 8. -/
opaque sign : Nat → List Byte → List Byte

/-- An ML-DSA-44 signature over a digest verifies against the Zhosil key whose digest is fused (05 R97). Log entry 8. -/
opaque verify : List Byte → List Byte → Bool

/-- The serial number, the digest of the boot ROM, and the identity public key of the module (05 R98). Log entry 8. -/
opaque serial : List Byte
opaque romDigest : List Byte
opaque publicKey : List Byte

/-- The byte of the health page that stands for a temperature beyond −128 to 127 °C (05 R89). Log entry 133. -/
opaque tempByte : Int → BitVec 8

/-- HQ_DEVINFO: VERSION 0x20, STEPPING 0x20, erratum emulation mask 0x0080 (04 R87). -/
def devInfo : Nat := 0x00802020

/-- The device's feature version and stepping (04 R87). -/
def version : Nat := 0x20
def stepping : Nat := 0x20
def errata : Nat := 0x80

end Sys2Proof.Config
end

