-- ==== Sys2Proof/Machine/Ops.lean ====
section
/-! DEFINITION. The operations that every instruction is built from: the issuing fragment, registers, scratchpad,
batches of engine commands, and taking a trap, unwinding a region and returning from a handler. -/

namespace Sys2Proof.Machine

open Sys2Proof

/-! ## The issuing fragment -/

/-- What an instruction sees at issue: the panel, gang and entry as they stand before it, its issue-control fields, its
length, and its active lanes (07 R120). -/
structure Ctx where
  pid : Nat
  gi : Nat
  ei : Nat
  p : Panel
  g : Gang
  e : SplitEntry
  ctl : Ctl
  len : Nat
  free : Nat
  now : Nat
  act : Word
  unknown : List Nat

/-- The vector register holds what the instruction would read: it is not EMPTY (16 R256). -/
def Ctx.knows (x : Ctx) (r : Reg) : Bool := !x.unknown.contains r.toNat

/-- Events that the registers of a list show, `n` of them: none while one of the registers is EMPTY (16 R256). -/
def Ctx.shown (x : Ctx) (rs : List Reg) (n : Nat) : Nat := if rs.all x.knows then n else 0

/-- A trap about to be taken: its cause of Table 13-1, tinfo, and STATUS and CLASS of tcause; for an unwind, the
poisoned register whose read caused it (13 R219, R225). -/
structure Trap where
  cause : Nat
  info : DWord
  status : Nat
  cls : Nat
  reg : Option Nat
deriving DecidableEq, Repr

/-- How an instruction ends when it does not complete at this issue. -/
inductive Stop where
  /-- It traps and has no effect (13 R218). -/
  | trap (t : Trap)
  /-- It traps after the effects that R218 lets stand: INVALID counts, seals and consumed failures. -/
  | trapIn (s : State) (t : Trap)
  /-- The panel is killed, or all arrived gangs trap: the state is final. -/
  | ended (s : State)
  /-- Its fragment blocks with no effect, and the instruction issues again later (07 R130). -/
  | block (b : Block)
  /-- Its fragment blocks, and what it recorded stands: an arrival or seals. -/
  | park (s : State) (b : Block)
  /-- It needs bytes of memory to count its hold entries: its fragment blocks with no effect until they have been read (13 R227). -/
  | measure (va len : Nat)
  /-- It issues no earlier than a clk: sources not yet visible, or pocket misses, so many (16 R258, R259). -/
  | hold (until_ : Nat) (misses : Nat)

/-- The result of an instruction's body. -/
abbrev Body := Except Stop State

/-- A trap with tinfo. -/
def mkTrap (cause : Nat) (info : DWord) : Trap := ⟨cause, info, 0, 0, none⟩

/-- Raise a cause (16 R256 Trap). -/
def raise {α : Type} (cause : Nat) (info : DWord) : Except Stop α := .error (.trap (mkTrap cause info))

/-- Raise a cause when a condition fails. -/
def check (c : Bool) (cause : Nat) (info : DWord) : Except Stop Unit := if c then .ok () else raise cause info

/-- Causes of Table 13-1. -/
abbrev cIllegal : Nat := 0x01
abbrev cFetchCross : Nat := 0x02
abbrev cRegRange : Nat := 0x03
abbrev cRegEmpty : Nat := 0x04
abbrev cPoisoned : Nat := 0x05
abbrev cRole : Nat := 0x06
abbrev cAlign : Nat := 0x07
abbrev cSpRange : Nat := 0x08
abbrev cInvalidCode : Nat := 0x09
abbrev cAlphabet : Nat := 0x0A
abbrev cNestOvf : Nat := 0x0B
abbrev cBarrier : Nat := 0x0C
abbrev cMmaMismatch : Nat := 0x0D
abbrev cRingFull : Nat := 0x0E
abbrev cBatchError : Nat := 0x0F
abbrev cHoldFull : Nat := 0x10
abbrev cSignature : Nat := 0x11
abbrev cChecksum : Nat := 0x12
abbrev cTrapInstr : Nat := 0x13
abbrev cBrk : Nat := 0x14
abbrev cSeam : Nat := 0x15
abbrev cSleeve : Nat := 0x16
abbrev cCtnDepth : Nat := 0x17
abbrev cLayout : Nat := 0x18
abbrev cSmock : Nat := 0x19

/-- Lane `l` belongs to slice l / 4 (07 R120). -/
def sliceOf (l : Nat) : Nat := l / 4

/-- Slices that a panel enables: 0 to 3 in narrow-wave mode, else all eight (07 R120). -/
def enabledSlices (h : Hdr) : BitVec 8 := if h.nw then 0x0F else 0xFF

/-- Slices of a gang that have not exited (07 R137). -/
def liveSlices (h : Hdr) (g : Gang) : BitVec 8 := enabledSlices h &&& ~~~g.exited

/-- The lanes of a set of slices. -/
def lanesOf (sl : BitVec 8) : Word := (BitVec.ofFnLE fun l : Fin 32 => sl.getLsbD (sliceOf l.val))

/-- The lowest-numbered slice of a set; 0 for the empty set. -/
def lowSlice (sl : BitVec 8) : Nat := ((List.range 8).find? fun i => sl.getLsbD i).getD 0

/-- A vector register that holds 0, FULL, tag WIDE (08 R141). -/
def vreg0 : VReg := ⟨Vector.replicate 32 0, .full, 0, none, false⟩

/-- A register that no write touches. -/
def copies0 : Vector DWord 8 := Vector.replicate 8 0

/-! ## Reading registers -/

/-- Whether a slice sees a result that is not yet due (13 R231): always under interlocked mode (04 R88). -/
def seesNew (x : Ctx) (reg slice k : Nat) : Bool := x.p.hdr.il || Config.raceSeesNew x.free reg slice k

/-- What a slice reads in place of a scalar register's content, from the oldest result that it does not see. -/
def oldScalar (x : Ctx) (n i : Nat) : Nat → List Pending → Option DWord
  | _, [] => none
  | k, .scalar r sl vis old :: ps =>
    if r = n ∧ sl.getLsbD i ∧ x.p.clk < vis ∧ seesNew x (128 + n) i k = false then some (vget old i 0)
    else oldScalar x n i (k + 1) ps
  | k, .vec .. :: ps => oldScalar x n i (k + 1) ps

/-- The same for a lane of a vector register, the choice being one for the whole slice. -/
def oldVector (x : Ctx) (r l : Nat) : Nat → List Pending → Option Word
  | _, [] => none
  | k, .vec q sl vis old :: ps =>
    if q = r ∧ sl.getLsbD (sliceOf l) ∧ x.p.clk < vis ∧ seesNew x r (sliceOf l) k = false then some (vget old l 0)
    else oldVector x r l (k + 1) ps
  | k, .scalar .. :: ps => oldVector x r l (k + 1) ps

/-- Copy `i` of scalar register `n`; s0 reads 0 (16 R256 S). -/
def Ctx.s (x : Ctx) (n : Reg) (i : Nat) : DWord :=
  if n = 0 then 0
  else (oldScalar x n.toNat i 0 x.g.pending).getD (vget (vget x.g.s n.toNat copies0) i 0)

/-- The copy of the lowest-numbered slice of the fragment. -/
def Ctx.sLow (x : Ctx) (n : Reg) : DWord := x.s n (lowSlice x.e.slices)

/-- A vector register as it stands. -/
def Ctx.vr (x : Ctx) (r : Nat) : VReg := vget x.g.v r vreg0

/-- Lane `l` of vector register `r` (16 R256 V). -/
def Ctx.v (x : Ctx) (r : Reg) (l : Nat) : Word :=
  (oldVector x r.toNat l 0 x.g.pending).getD (vget (x.vr r.toNat).lanes l 0)

/-- Lane `l` is active (16 R256 Act). -/
def Ctx.on (x : Ctx) (l : Nat) : Bool := x.act.getLsbD l

/-- The active lanes in ascending order. -/
def Ctx.lanes (x : Ctx) : List Nat := (List.range 32).filter x.on

/-- The slices of the fragment in ascending order. -/
def Ctx.slices (x : Ctx) : List Nat := (List.range 8).filter fun i => x.e.slices.getLsbD i

/-- A lane read across: lane `t`'s value when it is active and within the segment, else lane `l`'s own (07 R132). -/
def Ctx.lane (x : Ctx) (r : Reg) (l : Nat) (t : Int) (base w : Nat) : Word :=
  if (base : Int) ≤ t ∧ t < base + w ∧ x.on t.toNat then x.v r t.toNat else x.v r l

/-- The second source of a vector instruction: a register's lane or X1 (16 R250). -/
def Ctx.vb (x : Ctx) (b : Src) (l : Nat) : Word :=
  match b with
  | .reg r => x.v r l
  | .imm w => w

/-- The second source of a scalar instruction: a copy, or X1 sign-extended (16 R250). -/
def Ctx.sb (x : Ctx) (b : Src) (i : Nat) : DWord :=
  match b with
  | .reg r => x.s r i
  | .imm w => w.signExtend 64

/-- The PC of the issuing instruction. -/
def Ctx.pc (x : Ctx) : Word := x.e.pc

/-! ## Writing registers -/

/-- Write the active lanes of a vector register; its state becomes FULL and an outstanding completion is no longer
awaited (16 R256 SetV, 08 R146). Nothing changes when no lane is active. -/
def Ctx.setV (x : Ctx) (r : Reg) (f : Nat → Word) (s : State) : State :=
  if x.act = 0 then s
  else updGang s x.pid x.gi fun g =>
    let old := vget g.v r.toNat vreg0
    let new := Vector.ofFn fun l : Fin 32 => if x.on l.val then f l.val else vget old.lanes l.val 0
    { g with v := vset g.v r.toNat { old with lanes := new, st := .full, by_ := none, marked := false } }

/-- Write the fragment's copies of a scalar register; a write to s0 has no effect (16 R256 SetS). -/
def Ctx.setS (x : Ctx) (n : Reg) (f : Nat → DWord) (s : State) : State :=
  if n = 0 then s
  else updGang s x.pid x.gi fun g =>
    let old := vget g.s n.toNat copies0
    let new := Vector.ofFn fun i : Fin 8 => if x.e.slices.getLsbD i.val then f i.val else vget old i.val 0
    { g with s := vset g.s n.toNat new }

/-- Change the issuing split-table entry. -/
def Ctx.updEntry (x : Ctx) (f : SplitEntry → SplitEntry) (s : State) : State :=
  updGang s x.pid x.gi fun g => { g with split := modifyAt f g.split x.ei }

/-- Continue the fragment at another address. -/
def Ctx.jump (x : Ctx) (pc : Word) (s : State) : State := x.updEntry (fun e => { e with pc := pc }) s

/-- Change the issuing gang. -/
def Ctx.updG (x : Ctx) (f : Gang → Gang) (s : State) : State := updGang s x.pid x.gi f

/-- Change the panel. -/
def Ctx.updP (x : Ctx) (f : Panel → Panel) (s : State) : State := updPanel s x.pid f

/-- Delay the fragment's next issue by cycles beyond its stall count (16 R259). -/
def Ctx.delay (x : Ctx) (n : Nat) (s : State) : State :=
  x.updEntry (fun e => { e with prev := e.prev.map (· + n) }) s

/-- Charge events to the tid held at issue (16 R256 Count). -/
def Ctx.count (x : Ctx) (c : Counts) (s : State) : State := charge s x.pid x.g.tid c

/-! ## Scratchpad -/

/-- A 64-bit register as an address, plus a signed offset (16 R250): the sum does not wrap (08 R142). -/
def addrOf (base : DWord) (off : Off) : Int :=
  match off with
  | none => base.toNat
  | some x => base.toNat + x.toInt

/-- An address as tinfo holds it. -/
def infoOf (a : Int) : DWord := BitVec.ofInt 64 a

/-- The address is a multiple of `w` (13 Table 13-1 ALIGN). -/
def alignCheck (a : Int) (w : Nat) : Except Stop Unit := check (a % (w : Int) == 0) cAlign (infoOf a)

/-- Bytes `a` to `a + n - 1` lie in the panel's scratchpad (08 R142). -/
def Ctx.rangeCheck (x : Ctx) (a : Int) (n : Nat) : Except Stop Unit :=
  check (decide (0 ≤ a ∧ a + n ≤ x.p.hdr.size)) cSpRange (infoOf a)

/-- Check a list of addresses for ALIGN and then for SP_RANGE (19 R298). -/
def Ctx.checkAddrs (x : Ctx) (as : List Int) (w : Nat) : Except Stop Unit := do
  as.forM fun a => alignCheck a w
  as.forM fun a => x.rangeCheck a w

/-- The panel's scratchpad as it stands. -/
def spOf (s : State) (pid : Nat) : Memory := ((getPanel s pid).map (·.sp)).getD []

/-- Change the panel's scratchpad. -/
def updSp (s : State) (pid : Nat) (f : Memory → Memory) : State := updPanel s pid fun p => { p with sp := f p.sp }

/-- Distinct values of a list. -/
def distinct {α : Type} [BEq α] (xs : List α) : List α :=
  xs.foldl (fun acc a => if acc.contains a then acc else acc ++ [a]) []

/-- Extra bank cycles of an access: over the banks, the greatest number of distinct 64-byte lines less one (08
R143). -/
def Hdr.extraCycles (h : Hdr) (as : List Nat) : Nat :=
  let lines := distinct (as.map (· / 64))
  let banks := h.banks - h.regb - h.accb
  if banks = 0 then 0
  else (lines.map fun l => (lines.filter fun m => m % banks == l % banks).length).foldl max 1 - 1

/-- The extra bank cycles of an access of the issuing fragment. -/
def Ctx.conflicts (x : Ctx) (as : List Nat) : Nat := x.p.hdr.extraCycles as

/-- The cost of an access's bank conflicts: the next issue is later, and BANK_CONFLICT counts them (08 R143, 16
R259). -/
def Ctx.bankCost (x : Ctx) (as : List Nat) (s : State) : State :=
  let n := x.conflicts as
  if n = 0 then s else x.delay n (perfAdd s x.pid 2 n)

/-! ## Batches of engine commands (09 R166) -/

/-- A batch that has no command yet. -/
def batch0 (bid : Nat) (c : Cls) : Batch := ⟨bid, c, 0, [], none, 0, 0, false⟩

/-- The commands of a batch that are not complete. -/
def Batch.left (b : Batch) : Nat := b.live.length

/-- A command joins a batch. -/
def Batch.join (id : Nat) (b : Batch) : Batch := { b with count := b.count + 1, live := b.live ++ [id] }

/-- The open batch of a class. -/
def openOf (g : Gang) (c : Cls) : Batch := (g.opens.find? fun b => b.cls == c).getD (batch0 0 c)

/-- The counter of a class: sealed batches not yet complete. -/
def counterOf (g : Gang) (c : Cls) : Nat := (g.seals.filter fun b => b.cls == c && !b.complete).length

/-- A completed batch of a class, among those that a test selects, whose failure no instruction has consumed, the earliest
sealed first. -/
def failedAmong (f : Batch → Bool) (g : Gang) (c : Cls) : Option Batch :=
  g.seals.find? fun b => f b && b.cls == c && b.complete && b.fail.isSome

/-- The same among all. -/
def failedOf (g : Gang) (c : Cls) : Option Batch := failedAmong (fun _ => true) g c

/-- The failures of the batches that a test selects are consumed (13 R221). -/
def consumeAmong (f : Batch → Bool) (g : Gang) : Gang := { g with seals := g.seals.filter fun b => !(f b && b.complete) }

/-- The failures of a class are consumed. -/
def consume (g : Gang) (c : Cls) : Gang := consumeAmong (fun b => b.cls == c) g

/-- Complete the sealed batches that can complete, in sealing order within a class; one that did not fail leaves the
list (09 R166). -/
def settleSeals : List Batch → List Batch → List Batch
  | _, [] => []
  | before, b :: bs =>
    if b.complete then b :: settleSeals before bs
    else if b.left = 0 ∧ !(before.any fun a => a.cls == b.cls) then
      if b.fail.isSome then { b with complete := true } :: settleSeals before bs else settleSeals before bs
    else b :: settleSeals (b :: before) bs

/-- Settle a gang's sealed batches. -/
def settleGang (g : Gang) : Gang := { g with seals := settleSeals [] g.seals }

/-- Seal the open batch of a class (09 R166, 21 R335). -/
def sealClass (s : State) (pid gi : Nat) (c : Cls) : State :=
  let red := ((getPanel s pid).map (·.hdr.redundant)).getD false
  let s1 := updGang s pid gi fun g =>
    let b := openOf g c
    settleGang { g with
      seals := g.seals ++ [{ b with sealedAt := s.now, order := s.nextId }]
      opens := g.opens.map fun a => if a.cls == c then batch0 (s.nextId + 1) c else a
      sealedBids := if red then g.sealedBids ++ [(b.bid, c, s.nextId)] else g.sealedBids }
  { s1 with nextId := s.nextId + 2 }

/-- The classes in ascending order (09 Table 9-2). -/
def allClasses : List Cls := [.copy, .gather, .atomic, .matrix, .collective]

/-- The number of a class. -/
def clsNo : Cls → Nat
  | .copy => 0
  | .gather => 1
  | .atomic => 2
  | .matrix => 3
  | .collective => 4

/-- A failure as tcause and tinfo report it (13 Tables 13-2, 13-3, R221). -/
def failTrap (c : Cls) (f : Fail) : Trap :=
  if f.checksum then ⟨cChecksum, 0, 0, clsNo c, none⟩ else ⟨cBatchError, f.addr, f.status, clsNo c, none⟩

/-- The earlier-issued of two failures (13 Table 13-3). -/
def earlier (a : Option Fail) (b : Fail) : Fail :=
  match a with
  | some x => if x.cmd ≤ b.cmd then x else b
  | none => b

/-- A batch one of whose commands has completed, with its failure. -/
def Batch.done (b : Batch) (id : Nat) (f : Option Fail) : Batch :=
  { b with live := b.live.filter (· != id), fail := match f with
      | some x => some (earlier b.fail x)
      | none => b.fail }

/-- A command of a gang's batch has completed (09 R166). -/
def batchDone (g : Gang) (bid id : Nat) (f : Option Fail) : Gang :=
  settleGang { g with
    opens := g.opens.map fun b => if b.bid == bid then b.done id f else b
    seals := g.seals.map fun b => if b.bid == bid then b.done id f else b }

/-- An engine command with nothing performed. -/
def mkCmd (id : Nat) (o : Owner) (core : Nat) (c : Cls) (k : CmdKind) (asid : Nat) (tid : BitVec 12)
    (alph : Vector (BitVec 256) 16) : Cmd where
  id := id
  owner := o
  core := core
  born := core
  seq := id
  unit := 0
  cls := c
  kind := k
  asid := asid
  tid := tid
  alph := alph
  act := 0
  releases := 0
  after := []
  done := []
  recon := []
  got := []
  opened := []
  lines := []
  landed := []
  sent := []
  tries := []
  fault := none
  fail := none
  slotAddr := 0
  entry := none
  holds := 0

/-- A command of the device itself. -/
def newCmd (s : State) (o : Owner) (core : Nat) (cls : Cls) (k : CmdKind) (asid : Nat) (f : Cmd → Cmd) : State :=
  { s with
    cmds := s.cmds ++ [f (mkCmd s.nextId o core cls k asid 0 (Vector.replicate 16 0))]
    nextId := s.nextId + 1 }

/-- Issue a command for a gang: it joins the open batch of its class (09 R165, R166, 21 R327). It takes a copy of the
alphabet registers and the tid, and its engine reads wait for the gang's .ACQ atomics (09 R170, 10 R191, 11 R195). -/
def issueCmd (s : State) (pid gi : Nat) (c : Cls) (k : CmdKind) (f : Cmd → Cmd) : State :=
  match getPanel s pid, getGang s pid gi with
  | some p, some g =>
    let b := openOf g c
    let cmd := f { mkCmd s.nextId (.gangs pid [(gi, b.bid)]) p.core c k p.hdr.asid g.tid p.alph with
      after := g.acquires, releases := g.releases }
    let s1 := updGang s pid gi fun g => { g with
      opens := g.opens.map fun a => if a.cls == c then a.join s.nextId else a }
    { s1 with cmds := s1.cmds ++ [cmd], nextId := s1.nextId + 1 }
  | _, _ => s

/-- Issue a command for the issuing gang. -/
def Ctx.issue (x : Ctx) (c : Cls) (k : CmdKind) (s : State) : State := issueCmd s x.pid x.gi c k id

/-- Mark a vector register EMPTY: it awaits a command (08 R146). Nothing changes when no lane is active. -/
def Ctx.await (x : Ctx) (r : Nat) (cmd : Nat) (s : State) : State :=
  if x.act = 0 then s
  else x.updG (fun g => { g with v := vset g.v r { vget g.v r vreg0 with st := .empty, by_ := some cmd, marked := false } }) s

/-! ## Taking an exception -/

/-- tcause (13 Table 13-2). -/
def tcauseOf (t : Trap) (unw : Bool) (depth : Nat) : DWord :=
  BitVec.ofNat 64 (t.cause + t.cls * 2 ^ 8 + t.status * 2 ^ 16 + depth * 2 ^ 24 + unw.toNat * 2 ^ 27)

/-- Causes that unwind an open region (13 Table 13-1); TRAP_INSTR does for CTNRAISE only, which asks for it itself. -/
def unwinds (cause : Nat) : Bool :=
  cause == cPoisoned || cause == cInvalidCode || cause == cBatchError || cause == cHoldFull || cause == cSignature ||
    cause == cChecksum

/-- An entry that holds nothing. -/
def entry0 : SplitEntry := ⟨false, 0, 0, .run, [], none, 0, 0, none, 0, [], none, 0, []⟩

/-- The split table with one fragment (07 R122, 13 R225). -/
def oneFragment (slices : BitVec 8) (pc : Word) (prev : Option Nat) : List SplitEntry :=
  { entry0 with valid := true, slices := slices, pc := pc, prev := prev } :: List.replicate 7 entry0

/-- Make a register FULL with the value it holds (13 R225). -/
def restoreReg (v : VReg) : VReg := { v with st := .full, by_ := none }

/-- A register that an unwind restores: it was poisoned by a command issued since the region opened, or it is the POISON
register whose read caused the unwind. One that FEMARK marked stays (22 R357). -/
def unwoundReg (first : Nat) (cause : Option Nat) (r : Nat) (v : VReg) : VReg :=
  if v.st = .poison ∧ v.marked = false ∧ (v.by_.any (fun c => decide (first ≤ c)) = true ∨ cause = some r) then restoreReg v
  else v

/-- The register a pending result belongs to: vector r, or scalar 128 + n. -/
def pendKey : Pending → Nat
  | .vec r _ _ _ => r
  | .scalar r _ _ _ => 128 + r

/-- An unwind waits for a batch: one sealed since the region opened, with a command issued since then that is not complete (13
R225). -/
def Region.awaits (r : Region) (b : Batch) : Bool := decide (r.firstSeal ≤ b.order) && b.live.any fun c => decide (r.firstCmd ≤ c)

/-- The region unwinds once the commands issued since it opened, in batches sealed since it opened, are complete (13 R225). -/
def drained (g : Gang) (r : Region) : Bool := !(g.seals.any r.awaits)

/-- A batch as the unwind of a region leaves it: of one sealed since the region opened that is not complete, as commands issued
earlier go on, failures of later commands are consumed (13 R225; log entry 71). -/
def Region.spare (r : Region) (b : Batch) : Batch :=
  if b.order < r.firstSeal then b else { b with fail := b.fail.filter fun f => decide (f.cmd < r.firstCmd) }

/-- End an unwind whose batches are drained (13 R225): the failures of the region's batches are consumed, em or the
nesting counters and s62 are restored, the latter at once, the region is closed, the gang continues at its handler. -/
def finishUnwind (h : Hdr) (clk : Nat) (g : Gang) : Gang :=
  match g.unwind, g.regions with
  | some u, r :: rest =>
    if drained g r then
      { g with
        seals := (g.seals.filter fun b => decide (b.order < r.firstSeal) || !b.complete).map r.spare
        v := Vector.ofFn fun i => unwoundReg r.firstCmd u.reg i.val g.v[i]
        em := r.em
        nest := r.nest
        s := vset g.s 62 r.s62
        pending := g.pending.filter fun q => pendKey q != 128 + 62
        regions := rest
        split := oneFragment (liveSlices h g) r.handler (some clk)
        unwind := none
        tcause := tcauseOf ⟨u.cause, u.info, u.status, u.cls, none⟩ true u.depth
        tpc := u.tpc.setWidth 64
        tinfo := u.info }
    else g
  | _, _ => g

/-- A register that awaits a cancelled command is FULL with its prior value (13 R225). -/
def cancelledReg (c : Nat) (v : VReg) : VReg := if v.by_ = some c ∧ v.st = .empty then restoreReg v else v

/-- PHASE.ACQ at a scope of CLUSTER or more discards the copies that the core's and the cluster's read buffers and the
smock cache hold, and no buffer of the cluster keeps what a read that is still outstanding returns; at GANG and PANEL scope
it discards nothing (09 R159). DESIGN CHOICE (log entry 138): the discard leaves no copy out, be it newer than every write that was
released at the scope. -/
def acquireAt (core : Nat) (scope : Nat) (s : State) : State :=
  if scope < 2 then s
  else
    let s1 := updCore s core fun c => { c with rbuf := [] }
    let cl := vget s1.clusters (core / 16) cluster0
    soil { s1 with clusters := vset s1.clusters (core / 16) { cl with smkCache := [], rbuf := [] } } fun r =>
      r.core / 16 == core / 16

/-- The panel of a command's gangs. -/
def Cmd.pid (c : Cmd) : Nat := (c.owner.panel).getD 0

/-- The command's panel. -/
def Cmd.panel (s : State) (c : Cmd) : Option Panel := c.owner.panel.bind (getPanel s)

/-- The gang of a command that has one. -/
def Cmd.gang (c : Cmd) : Nat :=
  match c.owner with
  | .gangs _ ((gi, _) :: _) => gi
  | _ => c.unit

/-- The reads that an acquiring atomic has held count as issued after its acquire, in the order of their issue (09 R160, R170). DESIGN
CHOICE (log entry 130). -/
def issueHeldReads (id : Nat) (s : State) : State :=
  { s with
    cmds := s.cmds.zipIdx.map fun d => if d.1.after.contains id then { d.1 with seq := s.nextId + d.2 } else d.1
    nextId := s.nextId + s.cmds.length }

/-- An acquiring atomic has completed, be it failed or cancelled: the gang's engine reads wait for it no longer, and the PHASE.ACQ
of its form follows (09 R166, R170). -/
def endAcquire (s : State) (c : Cmd) : State :=
  match c.kind with
  | .atom _ _ _ _ _ _ _ (some scope) _ =>
    issueHeldReads c.id (acquireAt c.core scope
      (updGang s c.pid c.gang fun g => { g with acquires := g.acquires.filter (· != c.id) }))
  | _ => s

/-- Cancel a command for the unwind of gang `gi`: it completes without its remaining effects, in every batch that holds it; the
unwind of another of its gangs that waited for it may end (13 R225). DESIGN CHOICE (log entry 147): an HGCFG leaves the binding of its
slot as it stands. -/
def cancelForUnwind (pid gi : Nat) (s : State) (c : Cmd) : State :=
  let s1 := endAcquire (cancelCmd s c.id) c
  match c.owner with
  | .gangs _ bs => updPanel s1 pid fun p =>
      let gs := p.gangs.map fun g => { g with v := g.v.map (cancelledReg c.id) }
      { p with
        gangs := bs.foldl (fun gs b => modifyAt (fun g =>
          let h := batchDone g b.2 c.id none
          if b.1 = gi then h else finishUnwind p.hdr p.clk h) gs b.1) gs
        smk := p.smk.map fun k => { k with queue := k.queue.filter (· != c.id) } }
  | _ => s1

/-- The slices of a gang that wait at a BARW slot. -/
def waitingAt (b : Barw) (gi : Nat) : BitVec 8 := (b.waiting.filter fun a => a.1 == gi).foldl (fun u a => u ||| a.2) 0

/-- A gang has arrived at a BARW slot: every live slice waits there (07 R136). -/
def gangArrived (p : Panel) (b : Barw) (gi : Nat) : Bool :=
  match p.gangs[gi]? with
  | some g => liveSlices p.hdr g != 0 && waitingAt b gi == liveSlices p.hdr g
  | none => false

/-- How many gangs have arrived at a BARW slot (07 R136). -/
def arrivals (p : Panel) (b : Barw) : Nat := ((List.range p.gangs.length).filter (gangArrived p b)).length

/-- A BARW slot without a gang's waiting fragments: its count is unfixed when no arrival is left (07 R136). -/
def Barw.without (b : Barw) (p : Panel) (gi : Nat) : Barw :=
  let rest : Barw := { b with waiting := b.waiting.filter fun a => a.1 != gi }
  if arrivals p rest = 0 then { rest with count := none } else rest

/-- A gang's arrivals at seams and BARW slots are withdrawn (13 R225, 07 R136). -/
def withdraw (p : Panel) (gi : Nat) : Panel :=
  { p with
    seams := p.seams.map fun k => { k with arrived := k.arrived.filter fun a => a.1 != gi }
    barw := p.barw.map fun b => if (waitingAt b gi) = 0 then b else b.without p gi }

/-- Begin the unwinding of a gang's innermost region (13 R225): commands of batches still open are cancelled, sealed
batches are awaited, arrivals are withdrawn. -/
def beginUnwind (s : State) (pid gi : Nat) (tpc : Word) (t : Trap) : State :=
  match getPanel s pid, getGang s pid gi with
  | some p, some g =>
    match g.regions with
    | [] => s
    | r :: _ =>
      let openIds := g.opens.map (·.bid)
      let mine := s.cmds.filter fun c => decide (r.firstCmd ≤ c.id) && (match c.owner with
        | .gangs q bs => q == pid && bs.any fun b => b.1 == gi && openIds.contains b.2
        | _ => false)
      let s1 := mine.foldl (cancelForUnwind pid gi) s
      let s2 := updPanel s1 pid fun q => withdraw q gi
      updGang s2 pid gi fun h => finishUnwind p.hdr p.clk { h with
        unwind := some ⟨t.cause, t.status, t.cls, tpc, t.info, g.regions.length, t.reg⟩
        split := h.split.map fun e => { e with blk := none, sealed := [], paired := none, measured := [] } }
  | _, _ => s

/-- Enter the trap handler (13 R219, R220): tcause, tpc and tinfo are written, the fragment continues at the handler,
and the gang's other fragments issue nothing until the handler flag clears. -/
def enterHandler (h : Hdr) (clk : Nat) (ei : Nat) (e : SplitEntry) (t : Trap) (g : Gang) : Gang :=
  { g with
    tcause := tcauseOf t false g.regions.length
    tpc := e.pc.setWidth 64
    tinfo := t.info
    handler := true
    hslices := e.slices
    split := modifyAt (fun a => { a with pc := h.handler, blk := none, sealed := [], paired := none, held := 0,
                                         measured := [], prev := some clk }) g.split ei }

/-- Take a trap for a fragment (13 R217 to R220, R225): unwind an open region when the cause unwinds, else enter the
trap handler; the panel is killed when its handler flag is set or it has no handler. -/
def takeTrap (s : State) (pid gi ei : Nat) (t : Trap) (unwind : Bool) : State :=
  match getPanel s pid, getGang s pid gi with
  | some p, some g =>
    match g.split[ei]? with
    | none => s
    | some e =>
      if g.handler then killPanel s pid t.cause t.status e.pc.toNat
      else if unwind && !g.regions.isEmpty then beginUnwind s pid gi e.pc t
      else if p.hdr.handler = 0 then killPanel s pid t.cause t.status e.pc.toNat
      else updGang s pid gi (enterHandler p.hdr p.clk ei e t)
  | _, _ => s

/-- Return from the trap handler (17 R270): the handler flag clears and the fragment continues at tpc. -/
def returnFromTrap (x : Ctx) (s : State) : State :=
  x.updG (fun g => { g with
    handler := false
    hslices := 0
    split := modifyAt (fun e => { e with pc := BitVec.ofNat 32 (g.tpc.toNat / 4 * 4) }) g.split x.ei }) s

end Sys2Proof.Machine
end

