-- ==== Sys2Proof/Machine/Operands.lean ====
section
/-! DEFINITION. The operands of every encoded instruction: which registers its fields name, which it reads and writes
(16 R252, R253), and with them the checks made at every issue: REG_RANGE, CheckSources, the visibility of sources, the
pocket, roles, issue classes and latencies (16 R256 to R261, 07 R129, 08 R145). -/

namespace Sys2Proof.Machine

open Sys2Proof

/-- The kind of a register field (16 R252). -/
inductive RKind where
  | vec | scal | alpha
deriving DecidableEq, Repr

/-- An operand: its kind, its field (0 A, 1 B, 2 C, 3 D; 4 for a guard), the register and how many registers from it on, and whether it is read
and written. -/
structure Opd where
  kind : RKind
  field : Nat
  reg : Nat
  span : Nat
  src : Bool
  dst : Bool
deriving DecidableEq, Repr

/-- Field numbers. -/
abbrev fA : Nat := 0
abbrev fB : Nat := 1
abbrev fC : Nat := 2
abbrev fD : Nat := 3

/-- A vector source, a vector destination, a vector register read and written, and the same for scalars. -/
def vsrc (f : Nat) (r : Reg) (n : Nat := 1) : Opd := ⟨.vec, f, r.toNat, n, true, false⟩
def vdst (r : Reg) (n : Nat := 1) : Opd := ⟨.vec, fD, r.toNat, n, false, true⟩
def vboth (r : Reg) : Opd := ⟨.vec, fD, r.toNat, 1, true, true⟩
def ssrc (f : Nat) (r : Reg) (n : Nat := 1) : Opd := ⟨.scal, f, r.toNat, n, true, false⟩
def sdst (r : Reg) (n : Nat := 1) : Opd := ⟨.scal, fD, r.toNat, n, false, true⟩
def sboth (r : Reg) (n : Nat := 1) : Opd := ⟨.scal, fD, r.toNat, n, true, true⟩
def areg (f : Nat) (r : Reg) : Opd := ⟨.alpha, f, r.toNat, 1, false, false⟩

/-- Field B in the register form. -/
def vB (b : Src) : List Opd :=
  match b with
  | .reg r => [vsrc fB r]
  | .imm _ => []

/-- Field B of a scalar instruction in the register form. -/
def sB (b : Src) : List Opd :=
  match b with
  | .reg r => [ssrc fB r]
  | .imm _ => []

/-- Two vector sources and a destination. -/
def vvv (d a : Reg) (b : Src) : List Opd := [vsrc fA a] ++ vB b ++ [vdst d]

/-- Three vector sources and a destination. -/
def vvvv (d a b c : Reg) : List Opd := [vsrc fA a, vsrc fB b, vsrc fC c, vdst d]

/-- One vector source and a destination. -/
def vv (d a : Reg) : List Opd := [vsrc fA a, vdst d]

/-- Two scalar sources and a destination. -/
def sss (d a : Reg) (b : Src) : List Opd := [ssrc fA a] ++ sB b ++ [sdst d]

/-- A destination that is also a source when `keep` (18 R291, 19 R307, R312). -/
def vdstIf (keep : Bool) (d : Reg) : Opd := if keep then vboth d else vdst d

/-- A conversion keeps the other elements of vD when the destination has more elements a lane (18 R291). -/
def widens (dt st : Ty) : Bool := decide (st.perLane < dt.perLane)

/-- The registers of an instruction's fields (16 Tables 16-2 to 16-6 and each instruction's statement). -/
def operands : Instr → List Opd
  | .call .. => [sdst 61]
  | .nop .. | .bra .. | .regang _ | .exit _ | .elseMask _ | .endif _ | .loop _ | .endloop .. | .yield _
  | .sleep .. | .trap .. | .rett _ | .brk .. => []
  | .brx _ a _ => [ssrc fA a]
  | .brs _ _ a _ _ => [ssrc fA a]
  | .brv _ _ a _ _ => [vsrc fA a]
  | .ret _ a => [ssrc fA a]
  | .ifMask _ a => [ssrc fA a]
  | .breakMask _ a _ => [ssrc fA a]
  | .contMask _ a _ => [ssrc fA a]
  | .srd _ d _ => [sdst d]
  | .swr _ a _ => [ssrc fA a]
  | .clk _ d => [sdst d]
  | .perf _ d _ => [sdst d]
  | .sadd _ d a b => sss d a b
  | .ssub _ d a b => sss d a b
  | .smul _ d a b => sss d a b
  | .smulh _ _ d a b => sss d a b
  | .sdiv _ _ d a b => sss d a b
  | .srem _ _ d a b => sss d a b
  | .sand _ d a b => sss d a b
  | .sor _ d a b => sss d a b
  | .sxor _ d a b => sss d a b
  | .sshl _ d a b => sss d a b
  | .sshr _ d a b => sss d a b
  | .ssra _ d a b => sss d a b
  | .smin _ _ d a b => sss d a b
  | .smax _ _ d a b => sss d a b
  | .scmp _ _ d a b => sss d a b
  | .ssel _ d a b c => [ssrc fA a, ssrc fB b, ssrc fC c, sdst d]
  | .smov _ d a => [ssrc fA a, sdst d]
  | .smovi _ d _ => [sdst d]
  | .sclz _ d a => [ssrc fA a, sdst d]
  | .spopc _ d a => [ssrc fA a, sdst d]
  | .sbfx _ _ d a _ _ => [ssrc fA a, sdst d]
  | .sbfi _ d a _ _ => [ssrc fA a, sboth d]
  | .sld _ _ d a _ => [ssrc fA a, sdst d]
  | .sst _ _ a b _ => [ssrc fA a, ssrc fB b]
  | .slda _ _ _ d a _ => [ssrc fA a, sdst d]
  | .vadd _ _ d a b => vvv d a b
  | .vsub _ _ d a b => vvv d a b
  | .vmul _ _ d a b => vvv d a b
  | .vmulh _ _ d a b => vvv d a b
  | .vmad _ _ d a b c => vvvv d a b c
  | .vadds _ _ d a b => vvv d a b
  | .vsubs _ _ d a b => vvv d a b
  | .vand _ d a b => vvv d a b
  | .vor _ d a b => vvv d a b
  | .vxor _ d a b => vvv d a b
  | .vnot _ d a => vv d a
  | .vshl _ _ d a b => vvv d a b
  | .vshr _ _ d a b => vvv d a b
  | .vsra _ _ d a b => vvv d a b
  | .vmin _ _ d a b => vvv d a b
  | .vmax _ _ d a b => vvv d a b
  | .vabs _ _ d a => vv d a
  | .vneg _ _ d a => vv d a
  | .vclz _ _ d a => vv d a
  | .vpopc _ _ d a => vv d a
  | .vbfx _ _ d a _ _ => vv d a
  | .vbfi _ d a _ _ => [vsrc fA a, vboth d]
  | .vaddc _ _ d a b c => vvvv d a b c
  | .vmov _ d a => vv d a
  | .vbcast _ d (.reg a) => [ssrc fA a, vdst d]
  | .vbcast _ d (.imm _) => [vdst d]
  | .vlid _ d => [vdst d]
  | .vsel _ d a b c => [vsrc fA a, vsrc fB b, ssrc fC c, vdst d]
  | .vcmp _ _ _ d a b => [vsrc fA a] ++ vB b ++ [sdst d]
  | .vmask _ d a => [ssrc fA a, vdst d]
  | .fadd _ _ d a b => vvv d a b
  | .fsub _ _ d a b => vvv d a b
  | .fmul _ _ d a b => vvv d a b
  | .ffma _ _ d a b c => vvvv d a b c
  | .fmin _ _ d a b => vvv d a b
  | .fmax _ _ d a b => vvv d a b
  | .fabs _ _ d a => vv d a
  | .fneg _ _ d a => vv d a
  | .fdiv _ _ d a b => vvv d a b
  | .frcp _ _ d a => vv d a
  | .frsq _ _ d a => vv d a
  | .fsqrt _ _ d a => vv d a
  | .fexp2 _ _ d a => vv d a
  | .flog2 _ _ d a => vv d a
  | .ffloor _ _ d a => vv d a
  | .ffrac _ _ d a => vv d a
  | .fscale _ _ d a b => vvv d a b
  | .fclass _ _ d a => vv d a
  | .cvt _ dt d a st _ => [vsrc fA a, vdstIf (widens dt st) d]
  | .cvti _ dt d a st _ _ => [vsrc fA a, vdstIf (widens dt st) d]
  | .cvtf _ dt d a st _ => [vsrc fA a, vdstIf (widens dt st) d]
  | .cvtbx _ dt d a b st _ _ => [vsrc fA a, ssrc fB b, vdstIf (widens dt st) d]
  | .shfi _ _ d a b => vvv d a b
  | .shfu _ _ d a b => vvv d a b
  | .shfd _ _ d a b => vvv d a b
  | .shfx _ _ d a b => vvv d a b
  | .gshf _ _ _ _ d a => vv d a
  | .vote _ _ d a => [vsrc fA a, sdst d]
  | .vreda _ _ _ d a => vv d a
  | .vscan _ _ _ _ d a => vv d a
  | .aldef _ d a _ => [ssrc fA a, areg fD d]
  | .alrd _ d a _ => [areg fA a, sdst d]
  | .unpk _ _ _ d a _ => vv d a
  | .pack _ _ _ d a _ => [vsrc fA a, vboth d]
  | .symx _ _ _ d a b => [vsrc fA a, vsrc fB b, vdst d]
  | .symi _ _ _ d a b c => vvvv d a b c
  | .symld _ _ _ d a b => [ssrc fA a 3, vsrc fB b, vdst d]
  | .symst _ _ _ a b c => [ssrc fA a 3, vsrc fB b, vsrc fC c]
  | .dota _ acc _ _ d a b _ => [vsrc fA a, vsrc fB b, vdstIf acc d]
  | .valc _ _ d a => vv d a
  | .ld _ _ d a _ => [ssrc fA a, vdst d]
  | .st _ _ a b _ => [ssrc fA a, vsrc fB b]
  | .ldt _ _ d a b => [ssrc fA a 3, vsrc fB b, vdst d]
  | .stt _ _ a b c => [ssrc fA a 3, vsrc fB b, vsrc fC c]
  | .ldb _ _ d a _ => [ssrc fA a, vdst d]
  | .ats _ ret _ op d a b _ =>
    [ssrc fA a, vsrc fB b] ++ (if op == .cas then [vboth d] else if ret then [vdst d] else [])
  | .trtw _ a b => [ssrc fA a, vsrc fB b]
  | .trtr _ d a => [ssrc fA a, vdst d]
  | .layset _ _ d a _ => [ssrc fA a, sboth d 3]
  | .mxz .. => []
  | .mma _ _ _ _ _ d a b c => [vsrc fA a, ssrc fB b 3, ssrc fC c 3, ssrc fD d]
  | .mxrd _ toReg t d _ count =>
    let n := count.toNat * (4 / t.perLane)
    if toReg then [⟨.vec, fD, d.toNat, if n ≤ 32 then n else 129, false, false⟩] else [ssrc fD d 3]
  | .mxwr _ _ a _ _ => [ssrc fA a 3]
  | .mxsc _ _ kind a b => match kind with
    | .bx => [ssrc fA a, ssrc fB b]
    | .none => []
    | .qa32 | .qa64 | .qa128 => [ssrc fB b]
  | .mxck _ _ d => [sdst d]
  | .mxil _ _ a _ => [ssrc fA a 3]
  | .cpyq _ a => [ssrc fA a 4]
  | .cpypub _ | .cseal .. | .cwait .. => []
  | .cstat _ _ _ d => [sdst d]
  | .gath _ _ d a x => [ssrc fA a (if x.row then 2 else 1), ⟨.vec, fD, d.toNat, 1, true, false⟩]
  | .scat _ _ a b x => [ssrc fA a (if x.row then 2 else 1), vsrc fB b (if x.row then 1 else 2)]
  | .hgcfg _ a _ => [ssrc fA a]
  | .hgld _ d a _ => [⟨.vec, fA, a.toNat, 1, false, false⟩, ⟨.vec, fD, d.toNat, 1, false, false⟩]
  | .hgsc _ a b _ => [⟨.vec, fA, a.toNat, 1, false, false⟩, ⟨.vec, fB, b.toNat, 1, false, false⟩]
  | .hgfold _ _ a _ => [ssrc fA a]
  | .hgidx _ d a _ _ _ => [⟨.vec, fA, a.toNat, 1, false, false⟩, vdst d]
  | .atom _ _ _ op _ ret d a b c => [ssrc fA a, vsrc fB b, vsrc fC c] ++
      (if op == .cas then [⟨.vec, fD, d.toNat, 1, true, false⟩]
       else if ret then [⟨.vec, fD, d.toNat, 1, false, false⟩] else [])
  | .atoms _ _ _ op _ ret a b _ =>
    [ssrc fA a, ssrc fB b (if ret then 3 else if op == .cas then 2 else 1), ⟨.scal, fB, b.toNat, 3, false, false⟩]
  | .join .. | .leave .. | .seambar .. | .barw .. | .slvgrant .. | .phaseAcq .. | .phaseRel .. | .phaseAr ..
  | .fence .. | .rgnLo .. | .rgnHi .. | .ctnopen .. | .ctnclose _ | .ctnraise .. | .tidset .. => []
  | .slvinit _ _ a => [ssrc fA a]
  | .slvpush _ _ a => [ssrc fA a]
  | .slvpop _ _ d => [sdst d]
  | .slvtry _ _ d => [sdst d]
  | .fewait _ a => [vsrc fA a]
  | .femark _ _ d => [⟨.vec, fD, d.toNat, 1, false, false⟩]
  | .spill _ a _ => [vsrc fA a]
  | .fill _ d _ => [vdst d]
  | .ftag _ d a => [⟨.vec, fA, a.toNat, 1, false, false⟩, sdst d]
  | .portReset .. | .deviceResetRequest .. | .mgPwrCapWrite .. | .granuleRead .. | .granuleReconstruct ..
  | .stripeWrite .. | .subGranuleWrite .. | .stackRetrainFail .. | .gusDeclareWrite ..
  | .gusCounterClear .. | .gusXpoolWrite .. | .compressPacket .. | .pageExpand .. | .bar2Read .. | .bar2Write ..
  | .registerWrite .. | .hostLinkDown .. | .xlCfgWrite .. | .xlTimeoutWrite .. | .xlCounterClear ..
  | .ualLinkUp .. | .ualLinkDown .. | .peerRequest .. | .peerResponse .. | .requestTimeout .. | .tileArrive ..
  | .pleatEntryTimeout .. | .serviceGangOp .. | .stepAck .. | .stepRetry .. | .semAcquire .. | .semRelease ..
  | .hqTailWrite .. | .hqEnable .. | .hqDisable .. | .hqStop .. | .hqRecover .. | .packetFetch .. | .nopPacket ..
  | .launchPacket .. | .copyPacket .. | .waitPacket .. | .waitPoll .. | .signalPacket .. | .fencePacket ..
  | .setprioPacket .. | .tableWalk .. | .hqFqRespWrite .. | .hqInvalWrite .. | .faultRecordWrite ..
  | .mgG4ClearWrite .. | .drainSet .. | .drainClear .. | .mgPartClusWrite .. | .preemptHalt .. | .preemptResume ..
  | .attestationStart .. | .dispatch .. | .preemptCheck .. | .drainVictimTimeout .. | .panelSaveLining ..
  | .panelSaveMem .. | .panelFlush .. | .panelRetire .. | .panelWritebackDone .. | .activeSetSwap ..
  | .codeFetch .. | .ringConsume .. | .commandComplete .. | .sleepWake .. | .stagingComplete ..
  | .hostPortLinkUp .. | .deviceResetDone | .coldReset | .powerSample | .aclkRaiseTick | .aclkFloorTimeout
  | .thermalSample | .stackLoss | .invalidateDone | .mgFrLostClear | .healthRefresh | .attestationDone
  | .unassignedEncoding => []

/-- A smock slot's binding, when no HGCFG of the slot is pending (12 R206). -/
def bindingOf (p : Panel) (slot : BitVec 4) : Option SmockCfg :=
  match p.smk.toList[slot.toNat]? with
  | some k => if k.queue.isEmpty then k.cfg else none
  | none => none

/-- The operands of an instruction in a panel: smock instructions read and mark as many registers as their slot's binding
gives (21 R340). -/
def operandsAt (p : Panel) (i : Instr) : List Opd :=
  match i with
  | .hgld _ d a x =>
    match bindingOf p x.slot with
    | some k => [vsrc fA a k.d, ⟨.vec, fD, d.toNat, (x.n1.toNat + 1) * k.f, false, false⟩]
    | none => operands i
  | .hgsc _ a b x =>
    match bindingOf p x.slot with
    | some k => [vsrc fA a k.d, vsrc fB b ((x.n1.toNat + 1) * k.f)]
    | none => operands i
  | .hgidx _ d a slot _ _ =>
    match bindingOf p slot with
    | some k => [vsrc fA a k.d, vdst d]
    | none => operands i
  | _ => operands i

/-- The major opcode of an instruction. -/
def opOf (i : Instr) : Nat := (rawOf i).op.toNat

/-- Issue classes (07 Table 7-3): 0 VECTOR, 1 MATRIX, 2 ENGINE, 3 SCALAR, 4 SYNC. -/
def issueClass (op : Nat) : Nat :=
  if op < 0x40 then 3 else if op < 0xD0 then 0 else if op < 0xE0 then 1 else if op < 0xF0 then 2 else 4

/-- Caps per cycle (07 Table 7-3). -/
def classCap (c : Nat) : Nat := if c = 0 then 2 else 1

/-- Latencies to a register destination (16 Table 16-8); 0 for an instruction that writes none after issue. -/
def latency (op : Nat) (gshfWide : Bool) : Nat :=
  if op = 0x05 ∨ op = 0x15 ∨ op = 0x17 ∨ op = 0x18 then 2
  else if op = 0x22 ∨ op = 0x23 then 4
  else if op = 0x24 ∨ op = 0x25 then 12
  else if 0x20 ≤ op ∧ op ≤ 0x35 then 2
  else if op = 0x36 ∨ op = 0x38 then 6
  else if 0x40 ≤ op ∧ op ≤ 0x5C then 2
  else if op = 0x78 then 12
  else if 0x79 ≤ op ∧ op ≤ 0x7D then 8
  else if 0x70 ≤ op ∧ op ≤ 0x85 then 4
  else if op = 0xA4 then (if gshfWide then 4 else 3)
  else if 0xA0 ≤ op ∧ op ≤ 0xA5 then 3
  else if op = 0xA6 ∨ op = 0xA7 then 6
  else if op = 0xB1 then 2
  else if op = 0xB6 then 6
  else if 0xB2 ≤ op ∧ op ≤ 0xB9 then 4
  else if op = 0xC8 then 2
  else if 0xC0 ≤ op ∧ op ≤ 0xC7 then 6
  else if op = 0xD5 then 2
  else if op = 0xE4 then 2
  else if op = 0xEB then 4
  else if op = 0xF2 then 2
  else if op = 0xF9 then 6
  else if op = 0xFA then 2
  else 0

/-- A GSHF of width 16 (16 R259, R260). -/
def isWideGshf : Instr → Bool
  | .gshf _ _ w _ _ _ => w == 3
  | _ => false

/-- A matrix instruction (06 R110). -/
def isMatrixOp (op : Nat) : Bool := decide (0xD0 ≤ op ∧ op ≤ 0xDF)

/-- An engine instruction that issues a command (06 R110). -/
def issuesCommand (op : Nat) : Bool := op == 0xE0 || op == 0xE1 || decide (0xE5 ≤ op ∧ op ≤ 0xED)

/-- The role of a gang allows the instruction (06 R110). -/
def roleAllows (r : Role) (op : Nat) : Bool :=
  (!isMatrixOp op || r == .mat || r == .any) && (!issuesCommand op || r == .cpy || r == .any)

/-- tinfo of a register cause: number and field (13 Table 13-3). -/
def regInfo (reg field : Nat) : DWord := BitVec.ofNat 64 (reg % 256 + field * 256)

/-- The count of registers of a kind that a panel has (08 R144, 16 R252). -/
def regLimit (h : Hdr) (k : RKind) : Nat :=
  match k with
  | .vec => h.vregs
  | .scal => 64
  | .alpha => 16

/-- The register that REG_RANGE names for an operand: the first vector register beyond the count, the number in the
field for the other kinds (13 Table 13-3, 16 R252). -/
def rangeReg (h : Hdr) (o : Opd) : Nat :=
  match o.kind with
  | .vec => max o.reg h.vregs
  | _ => o.reg

/-- The first register field beyond its range, in the order A, B, C, D (08 R144, 16 R252). -/
def rangeTrap (h : Hdr) (ops : List Opd) : Option Trap :=
  (([fA, fB, fC, fD].flatMap fun f => ops.filter fun o => o.field == f).find? fun o =>
    decide (regLimit h o.kind < o.reg + o.span)).map fun o =>
      mkTrap cRegRange (regInfo (rangeReg h o) o.field)

/-- FE bit of a field: 1 = trap (08 R146). Field D has none. -/
def feTraps (c : Ctl) (field : Nat) : Bool := decide (field < 3) && c.fe.getLsbD field

/-- The vector registers that an operand list reads, with their fields. -/
def vecSources (ops : List Opd) : List (Nat × Nat) :=
  (ops.filter fun o => o.kind == .vec && o.src).flatMap fun o => (List.range o.span).map fun k => (o.field, o.reg + k)

/-- CheckSources over registers with their fields (16 R256): POISON traps first, then EMPTY with a set FE bit; the
registers that block are returned. `keepPoison`: SPILL reads a POISON register (22 R359). -/
def checkRegs (g : Gang) (c : Ctl) (keepPoison : Bool) (rs : List (Nat × Nat)) : Except Stop (List Nat) :=
  match rs.find? fun r => !keepPoison && (vget g.v r.2 vreg0).st == .poison with
  | some r => .error (.trap { mkTrap cPoisoned (regInfo r.2 r.1) with reg := some r.2 })
  | none =>
    match rs.find? fun r => (vget g.v r.2 vreg0).st == .empty && feTraps c r.1 with
    | some r => raise cRegEmpty (regInfo r.2 r.1)
    | none => .ok ((rs.filter fun r => (vget g.v r.2 vreg0).st == .empty).map (·.2))

/-- CheckSources for registers that a body finds itself: it blocks while one is EMPTY (21 R327, R340). -/
def Ctx.needRegs (x : Ctx) (rs : List (Nat × Nat)) : Except Stop Unit := do
  match ← checkRegs x.g x.ctl false rs with
  | [] => .ok ()
  | es => .error (.block (.source es))

/-- A register of a panel that a field with a span may name, or REG_RANGE. -/
def Ctx.vecRange (x : Ctx) (field reg span : Nat) : Except Stop Unit :=
  check (decide (reg + span ≤ x.p.hdr.vregs)) cRegRange (regInfo (max reg x.p.hdr.vregs) field)

/-- The clk at which a pending result is visible. -/
def pendDue : Pending → Nat
  | .vec _ _ v _ => v
  | .scalar _ _ v _ => v

/-- The slices of a pending result. -/
def pendSlices : Pending → BitVec 8
  | .vec _ sl _ _ => sl
  | .scalar _ sl _ _ => sl

/-- The registers that an instruction reads, as pending results name them, the guard register included. -/
def sourceKeys (c : Ctl) (ops : List Opd) : List Nat :=
  ((ops.filter fun o => o.src && o.kind != .alpha).flatMap fun o => (List.range o.span).map fun k =>
    (if o.kind == .scal then 128 else 0) + o.reg + k) ++
  match c.guard with
  | some g => [128 + 48 + g.g.toNat]
  | none => []

/-- The slices in which an instruction of a fragment that holds `own` reads a register: those, but for SPILL, which reads all 32 lanes
of its vector register (22 R359). -/
def readSlices (own : BitVec 8) (key : Nat) : Instr → BitVec 8
  | .spill .. => if key < 128 then 0xFF else own
  | _ => own

/-- Under interlocked mode an instruction waits until every source is visible, in the slices in which it reads it (16 R258, 23
R365). -/
def interlockUntil (h : Hdr) (clk : Nat) (g : Gang) (own : BitVec 8) (i : Instr) (keys : List Nat) : Option Nat :=
  if h.il then
    let due := (g.pending.filter fun p =>
      keys.contains (pendKey p) && pendSlices p &&& readSlices own (pendKey p) i != 0 && decide (clk < pendDue p)).map pendDue
    if due.isEmpty then none else some (due.foldl max 0)
  else none

/-- Source reads outside the pocket's working set (08 R145). -/
def pocketMisses (g : Gang) (rs : List (Nat × Nat)) : Nat := (rs.filter fun r => !g.wset.getLsbD r.2).length

/-- A pending result for a set of slices and a clk. -/
def pendFor : Pending → BitVec 8 → Nat → Pending
  | .vec r _ _ old, sl, v => .vec r sl v old
  | .scalar r _ _ old, sl, v => .scalar r sl v old

/-- The registers that an instruction writes, as pending results name them. -/
def destKeys (ops : List Opd) : List Nat :=
  (ops.filter fun o => o.dst && o.kind != .alpha).flatMap fun o => (List.range o.span).map fun k =>
    (if o.kind == .scal then 128 else 0) + o.reg + k

/-- An earlier result of a register that slices `sl` write again: nothing of it is seen once the later result is visible, at
`due` (13 R231, 16 R258). -/
def capPending (keys : List Nat) (sl : BitVec 8) (due : Nat) (p : Pending) : List Pending :=
  if keys.contains (pendKey p) ∧ due < pendDue p then
    [pendFor p (pendSlices p &&& ~~~sl) (pendDue p), pendFor p (pendSlices p &&& sl) due].filter
      fun q => pendSlices q != 0
  else [p]

/-- The slices whose lanes or copies an instruction writes: those of its fragment, but for FILL, which writes all 32 lanes (22
R360). -/
def Ctx.written (x : Ctx) : Instr → BitVec 8
  | .fill .. => 0xFF
  | _ => x.e.slices

/-- The results that an instruction leaves pending for its latency in slices `sl`: each destination with its content
before (16 R258). s0 takes no write (07 R121). -/
def pendingOf (x : Ctx) (ops : List Opd) (sl : BitVec 8) (due : Nat) : List Pending :=
  (ops.filter (·.dst)).flatMap fun o => (List.range o.span).flatMap fun k =>
    match o.kind with
    | .vec => [.vec (o.reg + k) sl due (x.vr (o.reg + k)).lanes]
    | .scal => if o.reg + k = 0 then [] else [.scalar (o.reg + k) sl due (vget x.g.s (o.reg + k) copies0)]
    | .alpha => []

end Sys2Proof.Machine
end

