-- ==== Sys2Proof/Machine/Fragments.lean ====
section
/-! DEFINITION. Fragments of a gang: the split table, seams, barriers and rendezvous as they release or lose a
fragment, which fragment a gang offers and a core issues, and the frame that every encoded instruction is issued in
(chapter 07, 16 R256 to R259). -/

namespace Sys2Proof.Machine

open Sys2Proof

/-! ## The split table -/

/-- The fragment has reached its reconvergence address and waits there (07 R124). DESIGN CHOICE (log entry 122): one that has executed
REGANG stays in REGANG (07 R125), also when its next PC is that address. -/
def arriveEntry (e : SplitEntry) : SplitEntry :=
  match e.levels with
  | l :: _ => if e.valid && e.wait == .run && e.blk.isNone && e.pc == l.rcv then { e with wait := .reconv } else e
  | [] => e

/-- Two entries wait at the same division: equal DEPTH, RCV and PAR (07 R124). -/
def sameWait (a b : SplitEntry) : Bool :=
  b.valid && b.wait == .reconv && b.levels.length == a.levels.length && b.levels.head? == a.levels.head?

/-- The slices of the entries that a test selects. -/
def unionOf (f : SplitEntry → Bool) (es : List SplitEntry) : BitVec 8 :=
  (es.filter f).foldl (fun u e => u ||| e.slices) 0

/-- Fuse the entries that a test selects into entry `k`, which becomes `e`; the others become invalid (07 R124,
R125). -/
def fuseInto (f : SplitEntry → Bool) (e : SplitEntry) (k : Nat) (es : List SplitEntry) : List SplitEntry :=
  es.mapIdx fun j a => if j = k then e else if f a then entry0 else a

/-- The latest next-issue time of the entries that a test selects. -/
def latestIssue (f : SplitEntry → Bool) (es : List SplitEntry) : Nat :=
  (es.filter f).foldl (fun m e => max m e.nextIssue) 0

/-- The latest previous issue of the entries that a test selects. DESIGN CHOICE (log entry 123): from it the STALL of the next
instruction of the fused fragment counts. -/
def latestPrev (f : SplitEntry → Bool) (es : List SplitEntry) : Option Nat :=
  ((es.filter f).filterMap (·.prev)).foldl (fun m n => some (max (m.getD 0) n)) none

/-- Fuse one group of waiting fragments, the one of the lowest-numbered entry whose slices are all there (07 R124). -/
def fuseOnce (exited : BitVec 8) (es : List SplitEntry) : List SplitEntry :=
  match (List.range es.length).find? fun k =>
      match es[k]? with
      | some a =>
        match a.levels with
        | l :: _ => a.valid && a.wait == .reconv && unionOf (sameWait a) es == l.par &&& ~~~exited
        | [] => false
      | none => false with
  | none => es
  | some k =>
    match es[k]? with
    | some a =>
      match a.levels with
      | l :: ls => fuseInto (sameWait a) { entry0 with
          valid := true, slices := unionOf (sameWait a) es, pc := l.rcv, levels := ls
          nextIssue := latestIssue (sameWait a) es, prev := latestPrev (sameWait a) es } k es
      | [] => es
    | none => es

/-- A valid entry that waits in REGANG. -/
def inRegang (e : SplitEntry) : Bool := e.valid && e.wait == .regang

/-- Fuse every fragment once all live slices wait in REGANG (07 R125): at the address after the REGANG of the fragment
that holds the lowest live slice. -/
def fuseRegang (live : BitVec 8) (es : List SplitEntry) : List SplitEntry :=
  if live != 0 && unionOf inRegang es == live then
    match es.findIdx? inRegang, es.find? fun e => inRegang e && e.slices.getLsbD (lowSlice live) with
    | some k, some a => fuseInto inRegang { entry0 with
        valid := true, slices := live, pc := a.pc, nextIssue := latestIssue inRegang es
        prev := latestPrev inRegang es } k es
    | _, _ => es
  else es

/-- Let fragments arrive and fuse until nothing changes; a gang has at most seven levels (07 R122). -/
def settleSplit (exited : BitVec 8) : Nat → List SplitEntry → List SplitEntry
  | 0, es => es
  | n + 1, es => settleSplit exited n (fuseOnce exited (es.map arriveEntry))

/-- Settle a gang's split table (07 R124, R125). -/
def settleEntries (h : Hdr) (g : Gang) : Gang :=
  { g with split := settleSplit g.exited 16 (fuseRegang (liveSlices h g) g.split) }

/-- The distinct next PCs in ascending order of the lowest slice that goes there, with the slices (07 R123). -/
def groupTargets (next : Nat → Word) (slices : List Nat) : List (Word × BitVec 8) :=
  slices.foldl (fun acc i =>
    let bit : BitVec 8 := BitVec.ofNat 8 (2 ^ i)
    if acc.any fun a => a.1 == next i then acc.map fun a => if a.1 == next i then (a.1, a.2 ||| bit) else a
    else acc ++ [(next i, bit)]) []

/-- Put the first group into the fragment's own entry and each further one into the lowest invalid entry (07 R123). -/
def placeGroups (k : Nat) (mk : Word → BitVec 8 → SplitEntry) :
    List (Word × BitVec 8) → List SplitEntry → List SplitEntry
  | [], es => es
  | (pc, sl) :: rest, es =>
    rest.foldl (fun es g =>
      match es.findIdx? fun e => !e.valid with
      | some j => es.set j (mk g.1 g.2)
      | none => es) (es.set k (mk pc sl))

/-- Branch a fragment, each slice to its next PC (07 R123): to one PC without a change of the table, else divided with
reconvergence at `t`; no new level opens when `t` is the present reconvergence address. -/
def branchTo (next : Nat → Word) (t : Word) (k : Nat) (es : List SplitEntry) : List SplitEntry :=
  match es[k]? with
  | none => es
  | some f =>
    match groupTargets next ((List.range 8).filter fun i => f.slices.getLsbD i) with
    | [] => es
    | [(pc, _)] => es.set k { f with pc := pc }
    | gs =>
      let lv := if f.levels.head?.any (fun l => l.rcv == t) then f.levels else ⟨t, f.slices⟩ :: f.levels
      placeGroups k (fun pc sl => { f with slices := sl, pc := pc, levels := lv, wait := .run }) gs es

/-! ## Seams, barriers and rendezvous -/

/-- A released fragment goes on after its waiting instruction of `n` bytes. -/
def releaseEntry (n : Nat) (e : SplitEntry) : SplitEntry := { e with blk := none, pc := e.pc + BitVec.ofNat 32 n }

/-- Release the fragments of a gang that a test selects. -/
def releaseIn (h : Hdr) (f : SplitEntry → Bool) (n : Nat) (g : Gang) : Gang :=
  if g.split.any fun e => e.valid && f e then
    settleEntries h { g with split := g.split.map fun e => if e.valid && f e then releaseEntry n e else e }
  else g

/-- Release the fragments of a panel that a test selects. -/
def releaseWhere (f : Nat → SplitEntry → Bool) (n : Nat) (p : Panel) : Panel :=
  { p with gangs := p.gangs.mapIdx fun gi g => releaseIn p.hdr (f gi) n g }

/-- Lanes counted over the gangs of a seam. -/
def laneCount (xs : List (Nat × Word)) : Nat := (xs.map fun x => onesIn x.2.toNat 32).foldl (· + ·) 0

/-- M of a seam, its members. -/
def Seam.m (k : Seam) : Nat := laneCount k.members

/-- A of a seam, its arrivals. -/
def Seam.a (k : Seam) : Nat := laneCount k.arrived

/-- A seam that holds nothing. -/
def seam0 : Seam := ⟨[], []⟩

/-- Trip a seam whose arrivals equal its members (07 R135). -/
def tripSeam (i : Nat) (p : Panel) : Panel :=
  let k := vget p.seams i seam0
  if k.a = k.m ∧ 0 < k.a then
    releaseWhere (fun _ e => e.blk == some (.seam i)) 12
      { p with seams := vset p.seams i { k with arrived := [] } }
  else p

/-- The lanes that a list holds for a gang. -/
def lanesIn (xs : List (Nat × Word)) (gi : Nat) : Word := ((xs.find? fun x => x.1 == gi).map (·.2)).getD 0

/-- Set the lanes that a list holds for a gang; a gang with no lane leaves the list. -/
def setLanes (xs : List (Nat × Word)) (gi : Nat) (w : Word) : List (Nat × Word) :=
  let rest := xs.filter fun x => x.1 != gi
  if w = 0 then rest else rest ++ [(gi, w)]

/-- Lanes leave a seam (07 R134). -/
def Seam.drop (k : Seam) (gi : Nat) (w : Word) : Seam :=
  ⟨setLanes k.members gi (lanesIn k.members gi &&& ~~~w), setLanes k.arrived gi (lanesIn k.arrived gi &&& ~~~w)⟩

/-- A BARW slot that is idle. -/
def barw0 : Barw := ⟨none, []⟩

/-- Trip a BARW slot whose arrivals reach its count (07 R136): the gangs that have arrived go on, and the slot is idle. DESIGN
CHOICE (log entry 49): fragments of a gang that has not arrived wait there still. -/
def tripBarw (i : Nat) (p : Panel) : Panel :=
  let b := vget p.barw i barw0
  match b.count with
  | some n =>
    if n ≤ arrivals p b then
      releaseWhere (fun gi e => gangArrived p b gi && e.blk == some (.barw i)) 12
        { p with barw := vset p.barw i ⟨none, b.waiting.filter fun a => !gangArrived p b a.1⟩ }
    else p
  | none => p

/-- Slot `i` of a gang list (20 R321). -/
def listSlot (list i : Nat) : Nat := list / 2 ^ (3 + 5 * i) % 32

/-- The gangs that a gang list names: COUNT in [2:0], then six 5-bit slots from bit 3 (20 R321). -/
def listGangs (list : Nat) : List Nat := (List.range (min (list % 8) 6)).map (listSlot list)

/-- The rendezvous of a lead fails: the latch clears and every arrived gang traps with MMA_MISMATCH (07 R139). -/
def failRendezvous (s : State) (pid lead : Nat) : State :=
  match (getPanel s pid).bind fun p => p.latches.find? fun l => l.lead == lead with
  | none => s
  | some l =>
    l.arrivals.foldl (fun t a =>
      match (getGang t pid a.gang).bind fun g => g.split.findIdx? fun e => e.blk == some (.rendezvous lead) with
      | some ei => takeTrap t pid a.gang ei (mkTrap cMmaMismatch (BitVec.ofNat 64 lead)) false
      | none => t) (updPanel s pid fun p => { p with latches := p.latches.filter fun m => m.lead != lead })

/-! ## Exit -/

/-- A gang has exited (07 R137). -/
def gangExited (h : Hdr) (g : Gang) : Bool := liveSlices h g == 0

/-- The fragment's slices leave the gang and its seams, and waiting fragments, seams and barriers are checked again (07
R137). -/
def dropSlices (gi ei : Nat) (sl : BitVec 8) (p : Panel) : Panel :=
  let p1 := { p with
    gangs := modifyAt (fun g => { g with
      exited := g.exited ||| sl, split := modifyAt (fun _ => entry0) g.split ei
      handler := false, hslices := 0 }) p.gangs gi
    seams := p.seams.map fun (k : Seam) => k.drop gi (lanesOf sl) }
  let p2 := { p1 with gangs := modifyAt (settleEntries p.hdr) p1.gangs gi }
  (List.range 16).foldl (fun q i => tripBarw i (tripSeam i q)) p2

/-- End the issuing fragment's slices (07 R137, R139, 13 R220, R222). A gang that has exited seals its open batches,
and a rendezvous that names it and that it has not joined fails. -/
def exitSlices (x : Ctx) (s : State) : State :=
  let s1 := updPanel s x.pid fun p => dropSlices x.gi x.ei x.e.slices p
  match getGang s1 x.pid x.gi, getPanel s1 x.pid with
  | some g, some p =>
    if gangExited p.hdr g then
      let s2 := (g.opens.filter fun b => b.count != 0).foldl (fun t b => sealClass t x.pid x.gi b.cls) s1
      (p.latches.filter fun l => (listGangs l.list).contains x.gi && !l.arrivals.any fun a => a.gang == x.gi).foldl
        (fun t l => failRendezvous t x.pid l.lead) s2
    else s1
  | _, _ => s1

/-! ## Blocked and ready fragments -/

/-- A sleeve that is not initialised. -/
def sleeve0 : Sleeve := ⟨false, 0, 0, 0, 0, 0⟩

/-- The difference of two indices modulo 2^32. -/
def idxDiff (a b : Nat) : Nat := (a + (2 ^ 32 - b % 2 ^ 32)) % 2 ^ 32

/-- The send allowance of a sleeve (22 R349). -/
def Sleeve.allowance (v : Sleeve) : Nat := v.d - idxDiff v.t v.g

/-- Slot H mod D is FULL (22 R349). -/
def Sleeve.full (v : Sleeve) : Bool := v.t != v.h

/-- Whether a fragment that waits as `b` since `since` is the first of its panel to do so, ties to the lower gang (22
R353). -/
def firstWaiter (p : Panel) (b : Block) (since gi : Nat) : Bool :=
  !((List.range p.gangs.length).any fun j =>
    match p.gangs[j]? with
    | some g => g.split.any fun e => e.valid && e.blk == some b &&
        decide (e.since < since ∨ (e.since = since ∧ j < gi))
    | none => false)

/-- W of a copy ring: WIX brought forward to PUB (21 R328). -/
def Ring.w (r : Ring) : Nat :=
  if 0 < idxDiff r.pub r.wix ∧ idxDiff r.pub r.wix ≤ r.size.toNat then r.pub else r.wix

/-- The copy ring is full (21 R329). -/
def Ring.full (r : Ring) : Bool := idxDiff r.w r.cons == r.size.toNat

/-- A class is in a mask. -/
def inMask (m : BitVec 5) (c : Cls) : Bool := m.getLsbD (clsNo c)

/-- The number below which the seals of a class lie that a release has made. -/
def boundOf (bounds : List (Nat × Nat)) (c : Cls) : Nat := ((bounds.find? fun b => b.1 == clsNo c).map (·.2)).getD 0

/-- Batches that a release waits for are not complete: those of its seals and the earlier ones (09 R158). -/
def releaseBusy (g : Gang) (bounds : List (Nat × Nat)) (m : BitVec 5) : Bool :=
  g.seals.any fun b => !b.complete && inMask m b.cls && decide (b.order < boundOf bounds b.cls)

/-- The reason for which a fragment is blocked still holds (07 R130). -/
def stillBlocked (s : State) (p : Panel) (gi : Nat) (g : Gang) (e : SplitEntry) : Bool :=
  match e.blk with
  | none => false
  | some (.source rs) => rs.any fun r => (vget g.v r vreg0).st == .empty
  | some (.sleevePush n) =>
    !(decide (0 < (vget p.sleeves n sleeve0).allowance) && firstWaiter p (.sleevePush n) e.since gi)
  | some (.sleevePop n) => !((vget p.sleeves n sleeve0).full && firstWaiter p (.sleevePop n) e.since gi)
  | some (.cwait c n) => decide (n < counterOf g c)
  | some (.sealFull c) => decide (63 ≤ counterOf g c)
  | some (.release m sys) => releaseBusy g e.sealed m ||
      (sys && s.links.posted.any fun w => w.pid == some p.pid)
  | some (.fence m) => allClasses.any fun c => inMask m c && counterOf g c != 0
  | some .pair => e.paired.isNone
  | some (.heldWrites c) => (getCmd s c).isSome
  | some (.measure c) => (getCmd s c).isSome
  | some (.seam _) => true
  | some (.barw _) => true
  | some (.rendezvous _) => true
  | some .ring => p.ring.full
  | some .sleep => true
  | some .fetch => false
  | some (.smock k) => !((p.smk.toList[k]?).elim true fun x => x.queue.isEmpty)

/-- The window of code that holds an address, as the cluster's instruction cache has it (16 R246). -/
def windowOf (s : State) (p : Panel) (pc : Word) : Option (List Byte) :=
  ((vget s.clusters (p.core / 16) cluster0).icache.find? fun w =>
    w.asid == p.hdr.asid && w.kaddr == p.hdr.kaddr && w.win == pc.toNat / 32).map (·.bytes)

/-- The fetch of a fragment's code window has stalled on a translation fault (07 R130, 16 R246). -/
def fetchStalled (s : State) (p : Panel) (pc : Word) : Bool :=
  s.cmds.any fun c => c.owner == .code p.pid && c.fault.isSome && c.slotAddr == pc.toNat / 32

/-- A fragment is blocked (07 R130). -/
def entryBlocked (s : State) (p : Panel) (gi : Nat) (g : Gang) (e : SplitEntry) : Bool :=
  e.wait != .run || stillBlocked s p gi g e || ((windowOf s p e.pc).isNone && fetchStalled s p e.pc)

/-- A gang whose every valid entry is blocked (07 R130). DESIGN CHOICE (log entry 137): so is one whose unwind waits for its drained
batches (13 R225). -/
def gangBlocked (s : State) (p : Panel) (gi : Nat) (g : Gang) : Bool :=
  g.unwind.isSome || !(g.split.any fun e => e.valid && !entryBlocked s p gi g e)

/-- The bytes of a window from an address on. -/
def codeAt (w : List Byte) (pc : Word) : List Byte := w.drop (pc.toNat % 32)

/-- STALL of the instruction at bytes (16 R247). -/
def stallAt (bs : List Byte) : Nat := (bs.getD 1 0).toNat / 4 % 16

/-- The stall count of the instruction at the PC has passed since the fragment's previous issue (16 R258): at least one
cycle, and no more under interlocked mode. -/
def stallOver (h : Hdr) (clk : Nat) (e : SplitEntry) (w : List Byte) : Bool :=
  match e.prev with
  | none => true
  | some t => decide (t + (if h.il then 1 else max (stallAt (codeAt w e.pc)) 1) ≤ clk)

/-- The length that field L gives (16 R245). -/
def lengthAt (bs : List Byte) : Nat := lengthBytes (BitVec.ofNat 2 (bs.headD 0).toNat)

/-- The major opcode of bytes (16 Table 16-1). -/
def opAt (bs : List Byte) : Nat := ((bs.headD 0).toNat + 256 * (bs.getD 1 0).toNat) / 4 % 256

/-- The instruction crosses the end of its window (16 R245). -/
def crosses (pc : Word) (n : Nat) : Bool := decide (32 < pc.toNat % 32 + n)

/-- The row of the operations table that bytes at an address stand for: an encoding that the hardware refuses, or an
instruction that crosses its window, is UNASSIGNED_ENCODING. -/
def instrAt (w : List Byte) (pc : Word) : Instr :=
  let bs := codeAt w pc
  if crosses pc (lengthAt bs) then .unassignedEncoding
  else match decode bs with
    | .ok (i, _) => i
    | .error _ => .unassignedEncoding

/-- The issue-control fields of an instruction. -/
def ctlOf (i : Instr) : Ctl := ((shape i).map (·.ctl)).getD ⟨0, false, 0, none⟩

/-- Under interlocked mode every source of the next instruction is visible (07 R126, 16 R258). -/
def sourcesVisible (p : Panel) (g : Gang) (e : SplitEntry) (w : List Byte) : Bool :=
  !p.hdr.il ||
    let i := instrAt w e.pc
    (interlockUntil p.hdr p.clk g e.slices i (sourceKeys (ctlOf i) (operandsAt p i))).isNone

/-- A fragment is ready (07 R126): valid, running, not blocked, its window fetched, not stalled, its sources visible; and
while a handler runs, one of the handler's fragments (13 R220). -/
def entryReady (s : State) (p : Panel) (gi : Nat) (g : Gang) (e : SplitEntry) : Bool :=
  e.valid && e.wait == .run && decide (e.nextIssue ≤ p.clk) && (!g.handler || e.slices &&& g.hslices != 0)
    && g.unwind.isNone && !stillBlocked s p gi g e
    && match windowOf s p e.pc with
      | some w => stallOver p.hdr p.clk e w && sourcesVisible p g e w
      | none => false

/-- The entry that a gang offers: the first ready one at or after its pointer (07 R126). -/
def offered (s : State) (p : Panel) (gi : Nat) (g : Gang) : Option Nat :=
  ((List.range 8).map fun k => (g.ptr + k) % 8).find? fun k =>
    match g.split[k]? with
    | some e => entryReady s p gi g e
    | none => false

/-- Instructions issue for a panel that runs, is not leaving its core, and has ended the release and the acquire of a move (06
Table 6-3, R113, R116). -/
def Panel.issues (p : Panel) : Bool := p.life == .running && p.leaving == .no && p.moving.isNone

/-! ## The issue scan -/

/-- What position `k` of this cycle's order would issue: the issuer with its instruction and its class (07 R129). -/
def candidateAt (s : State) (core k : Nat) : Option (Issuer × Instr × Nat) :=
  let c := coreAt s core
  match c.active[(c.start + k) % 8]? with
  | some (some q) =>
    if s.now ≤ q.swapEnd ∧ q.swapEnd ≠ 0 then none
    else match getPanel s q.pid, getGang s q.pid q.gang with
      | some p, some g =>
        if !p.issues then none
        else match offered s p q.gang g with
          | none => none
          | some k =>
            match g.split[k]? with
            | none => none
            | some e =>
              match windowOf s p e.pc with
              | none => none
              | some w =>
                let cls := issueClass (opAt (codeAt w e.pc))
                if c.used.getD cls 0 < classCap cls then some (⟨q.pid, q.gang, k⟩, instrAt w e.pc, cls) else none
      | _, _ => none
  | _ => none

/-- A sleep of a panel ends in this cycle (17 R268). -/
def wakeDue (p : Panel) : Bool :=
  p.issues && p.gangs.any fun g => g.split.any fun e => e.valid && e.blk == some .sleep && decide (e.wake ≤ p.clk)

/-- The next issue of a core in this cycle (07 R129 IssueCycle): the first position of the scan that issues. A sleep of a panel on
the core that ends in the cycle has ended before the scan (17 R268). -/
def nextIssue (s : State) (core : Nat) : Option (Nat × Issuer × Instr) :=
  if s.panels.any fun p => p.core == core && wakeDue p then none
  else (List.range' (coreAt s core).scan (8 - (coreAt s core).scan)).findSome? fun k =>
    (candidateAt s core k).map fun r => (k, r.1, r.2.1)

/-- The position of a gang in a core's active set. -/
def posOf (c : CoreSt) (pid gi : Nat) : Option Nat :=
  c.active.findIdx? fun q => q.any fun q => q.pid == pid && q.gang == gi

/-- A panel's gang is pending: resident, running, not in the active set. -/
def isPending (s : State) (p : Panel) (gi : Nat) : Bool :=
  p.issues && (posOf (coreAt s p.core) p.pid gi).isNone

/-- The pending gangs of a core with the cycle they became ready. -/
def pendingReady (s : State) (core : Nat) : List (Nat × Nat × Nat × Nat) :=
  (s.panels.filter fun p => p.core == core && p.issues).flatMap fun p =>
    (List.range p.gangs.length).filterMap fun gi =>
      match p.gangs[gi]? with
      | some g => if isPending s p gi then g.readyAt.map fun t => (t, p.slots.getD gi 0, p.pid, gi) else none
      | none => none

/-- Take a gang out of the active set (07 R130). -/
def leaveActive (s : State) (core pid gi : Nat) : State :=
  updGang (updCore s core fun c => { c with active := c.active.map fun q =>
    match q with
    | some q => if q.pid == pid && q.gang == gi then none else some q
    | none => none }) pid gi fun g => { g with readyAt := none }

/-- A position whose gang has left the core or is blocked is freed (07 R130). -/
def freeBlocked (s : State) (core : Nat) : State :=
  (coreAt s core).active.foldl (fun t q =>
    match q with
    | none => t
    | some q =>
      match getPanel t q.pid, getGang t q.pid q.gang with
      | some p, some g =>
        if !p.issues || gangBlocked t p q.gang g then leaveActive t core q.pid q.gang else t
      | _, _ => leaveActive t core q.pid q.gang) s

/-- Record which pending gangs are ready (07 R130). -/
def markReady (s : State) (core : Nat) : State :=
  { s with panels := s.panels.map fun p =>
      if p.core == core && p.issues then
        { p with gangs := p.gangs.mapIdx fun gi g =>
            if isPending s p gi then
              if g.split.any fun e => entryReady s p gi g e then { g with readyAt := g.readyAt.or (some s.now) }
              else { g with readyAt := none }
            else g }
      else p }

/-- Bring the active set of a core up to date (07 R130). -/
def refreshCore (s : State) (core : Nat) : State := markReady (freeBlocked s core) core

/-! ## Issuing one instruction -/

/-- The active lanes of a fragment under a guard (07 R120, R127, R128). -/
def activeLanes (x : Ctx) : Word :=
  let mode : Word := if x.p.hdr.pm then BitVec.ofFnLE fun l : Fin 32 => decide (vget x.g.nest l.val 0 = 0) else x.g.em
  let guard : Word := match x.ctl.guard with
    | none => 0xFFFFFFFF
    | some q => BitVec.ofFnLE fun l : Fin 32 =>
        ((x.s (48 + q.g.setWidth 7) (sliceOf l.val)).getLsbD l.val) != q.neg
  let nw : Word := if x.p.hdr.nw then 0x0000FFFF else 0xFFFFFFFF
  lanesOf (x.e.slices &&& ~~~x.g.exited) &&& mode &&& guard &&& nw

/-- What an instruction sees at issue, when a fragment is issuing. -/
def ctxOf (i : Instr) (s : State) : Option Ctx :=
  match s.issuer with
  | none => none
  | some u =>
    match getPanel s u.pid, getGang s u.pid u.gang with
    | some p, some g =>
      match g.split[u.entry]? with
      | some e =>
        let c := ctlOf i
        let x : Ctx := { pid := u.pid, gi := u.gang, ei := u.entry, p := p, g := g, e := e
                         ctl := if p.hdr.il then { c with fe := 0 } else c
                         len := i.length, free := s.free, now := s.now, act := 0, unknown := [] }
        some { x with act := activeLanes x }
      | none => none
    | _, _ => none

/-- SPILL, which reads a POISON register without a trap (22 R359). -/
def keepsPoison : Instr → Bool
  | .spill .. => true
  | _ => false

/-- An instruction barred in the panel's mode (07 R127, R128). -/
def barred (h : Hdr) : Instr → Bool
  | .ifMask .. | .elseMask _ | .endif _ | .loop _ | .endloop .. | .breakMask .. | .contMask .. => !h.pm
  | .swr _ _ num => h.pm && num == 0
  | _ => false

/-- A special register that SRD reads (14 Table 14-5). -/
def specialReads (n : Nat) : Bool :=
  decide (n ≤ 0x009) || decide (0x010 ≤ n ∧ n ≤ 0x012) || decide (0x020 ≤ n ∧ n ≤ 0x024) || n == 0x030 || n == 0x031
    || decide (0x100 ≤ n ∧ n < 0x140) || decide (0x200 ≤ n ∧ n < 0x210)

/-- A special register that SWR writes (14 Table 14-5). -/
def specialWrites (n : Nat) : Bool :=
  n == 0x000 || n == 0x008 || n == 0x009 || decide (0x010 ≤ n ∧ n ≤ 0x012) || decide (0x020 ≤ n ∧ n ≤ 0x022)

/-- The scale state that a matrix format index needs (20 Table 20-1, R321). -/
def scaleFits (index : Nat) (k : Scale) : Bool :=
  match index with
  | 3 | 9 => match k with
    | .qa .. => true
    | _ => false
  | 4 | 8 => match k with
    | .bx .. => true
    | _ => false
  | _ => true

/-- The format index of a type of Table 20-1; 11 for a type outside it (20 R319, R325). -/
def formatIndex : Ty → Nat
  | .f8e4 => 0
  | .f8e5 => 1
  | .i8 => 2
  | .qa8 => 3
  | .bx8 => 4
  | .b16 => 5
  | .f16 => 6
  | .f4e2 => 7
  | .bx4 => 8
  | .qa4 => 9
  | .alpha _ => 10
  | _ => 11

/-- An instruction that the present state of its gang and panel makes ILLEGAL (13 R218, 17 R270, R271, 20 R321, R325,
21 R329, R330, 22 R360). -/
def illegalNow (p : Panel) (g : Gang) (e : SplitEntry) : Instr → Bool
  | .srd _ _ num => !specialReads num.toNat
  | .swr _ _ num => !specialWrites num.toNat
  | .rett _ => !g.handler || g.hslices &&& ~~~g.exited &&& ~~~e.slices != 0
  | .mma _ ta tb _ _ _ _ _ _ => !(scaleFits ta.toNat g.mxA && scaleFits tb.toNat g.mxB)
  | .mxil _ t _ _ => !scaleFits (formatIndex t) g.mxB
  | .fill _ d _ => decide (6 ≤ (vget g.v d.toNat vreg0).tag.toNat)
  | .cpyq _ _ => p.ring.size == 0
  | .cpypub _ => p.ring.size == 0
  | _ => false

/-- The state in which the body acts: the PC has moved past the instruction, its waits are over, and the next
instruction's stall count runs from this cycle (16 R258). -/
def Ctx.begin (x : Ctx) (s : State) : State :=
  x.updEntry (fun e => { e with
    pc := e.pc + BitVec.ofNat 32 x.len, blk := none, sealed := [], paired := none, held := 0, measured := []
    prev := some x.p.clk }) s

/-- The state of an instruction that did not complete: its fragment stands at the instruction again. -/
def Ctx.back (x : Ctx) (s : State) : State := x.updEntry (fun e => { e with pc := x.e.pc, prev := x.e.prev, held := x.e.held }) s

/-- The checks at issue that every instruction makes, in the order of R218, and the waits for its sources (13 R218, 16
R256 to R259): the EMPTY registers that block it are returned. -/
def Ctx.checkIssue (x : Ctx) (i : Instr) : Except Stop (List Nat) := do
  let ops := operandsAt x.p i
  check (!crosses x.pc x.len) cFetchCross 0
  check (legal i && !barred x.p.hdr i && !illegalNow x.p x.g x.e i) cIllegal 0
  match rangeTrap x.p.hdr ops with
  | some t => .error (.trap t)
  | none => .ok ()
  check (roleAllows x.g.role (opOf i)) cRole 0
  let empty ← checkRegs x.g x.ctl (keepsPoison i) (vecSources ops)
  if empty.isEmpty then
    match interlockUntil x.p.hdr x.p.clk x.g x.e.slices i (sourceKeys x.ctl ops) with
    | some t => .error (.hold t 0)
    | none => .ok ()
    if pocketMisses x.g (vecSources ops) ≠ 0 ∧ x.e.held = 0 then
      .error (.hold (x.p.clk + 3 * pocketMisses x.g (vecSources ops)) (pocketMisses x.g (vecSources ops)))
  .ok empty

/-- Try the instruction: its checks, then its body. One that waits for a source still takes a trap of its body that
does not depend on the source, with the INVALID events that its other sources show, and an MMA a mismatch (16 R256; log entry
117). -/
def Ctx.attempt (x : Ctx) (i : Instr) (body : Ctx → State → Body) (s : State) : Body := do
  let empty ← x.checkIssue i
  if empty.isEmpty then body x (x.begin s)
  else
    let y := { x with unknown := empty }
    match body y (y.begin s) with
    | .error (.trap t) => .error (.trap t)
    | .error (.trapIn t r) => .error (.trapIn t r)
    | .error (.ended t) => .error (.ended t)
    | _ => .error (.block (.source empty))

/-- Extra cycles before results count, for a GSHF of two passes (16 R259). -/
def extraLatency (i : Instr) : Nat := if isWideGshf i then 1 else 0

/-- The extra cycles that an instruction's body has put before its fragment's next issue: the bank conflicts of a scratchpad
access, which its latency takes as well (08 R143, 16 R259). -/
def Ctx.extra (x : Ctx) (t : State) : Nat :=
  ((((getGang t x.pid x.gi).bind fun g => g.split[x.ei]?).bind (·.prev)).getD x.p.clk) - x.p.clk

/-- The results still pending after an instruction (16 R258): those of earlier instructions, and its own, with `extra` cycles of
bank conflicts. A destination with no latency is written at its completion, and FULL then says so (16 R261). -/
def Ctx.pendings (x : Ctx) (i : Instr) (extra : Nat) : List Pending :=
  let n := latency (opOf i) (isWideGshf i)
  let ops := operandsAt x.p i
  let due := if n = 0 then x.p.clk else x.p.clk + n + extraLatency i + extra
  ((x.g.pending.filter fun p => decide (x.p.clk < pendDue p)).flatMap (capPending (destKeys ops) (x.written i) due)) ++
    (if n = 0 then [] else pendingOf x ops (x.written i) due)

/-- The gang at a position has issued. -/
def markIssued (pid gi : Nat) (q : Pos) : Pos := if q.pid == pid && q.gang == gi then { q with issued := true } else q

/-- Take the issue slot of the position `at_` that the gang held at issue: the class cap, the scan, the gang's pointer and
its position's issued mark (07 R126, R129). They are charged even when the instruction kills its panel. -/
def Ctx.takeSlot (x : Ctx) (at_ : Option Nat) (op : Nat) (s : State) : State :=
  let cls := issueClass op
  let s1 := updCore s x.p.core fun c =>
    match at_ with
    | none => c
    | some k => { c with
        scan := (k + 8 - c.start) % 8 + 1
        used := modifyAt (· + 1) c.used cls
        active := c.active.modify k (Option.map (markIssued x.pid x.gi)) }
  let s2 := x.updP (fun p => { p with begun := true }) { s1 with free := s.free + 1 }
  x.updG (fun g => { g with ptr := (x.ei + 1) % 8 }) s2

/-- Settle the gang's fragments and the core's active set. -/
def Ctx.refresh (x : Ctx) (s : State) : State :=
  refreshCore (x.updP (fun p => { p with gangs := modifyAt (settleEntries p.hdr) p.gangs x.gi }) s) x.p.core

/-- Settle the gang's fragments and the core's active set, and end the issue. -/
def Ctx.close (x : Ctx) (s : State) : State := { x.refresh s with issuer := none }

/-- A wait that the event it awaits ends without a new issue (07 R135, R136, R138, 17 R268). -/
def endsByRelease : Block → Bool
  | .seam _ | .barw _ | .rendezvous _ | .sleep => true
  | _ => false

/-- Record why and since when the fragment is blocked. -/
def Ctx.blockAs (x : Ctx) (b : Block) (s : State) : State :=
  x.updEntry (fun e => { e with
    blk := some b, since := if x.e.blk = some b then e.since else x.now
    prev := if endsByRelease b then some x.p.clk else e.prev
    nextIssue := x.p.clk + 1 }) s

/-- An instruction after which the gang yields its position: Y = 1, YIELD, SLEEP 0 (07 R131, 17 R268). -/
def yields (i : Instr) : Bool :=
  (ctlOf i).y || match i with
    | .yield _ => true
    | .sleep _ n => n == 0
    | _ => false

/-- The gang yields its position after an instruction that yields, also to a gang that this very instruction has made ready (07
R131). -/
def Ctx.yieldAfter (x : Ctx) (i : Instr) (s : State) : State :=
  if yields i && !(pendingReady (x.refresh s) x.p.core).isEmpty then leaveActive s x.p.core x.pid x.gi else s

/-- The position that the issuing gang holds. -/
def Ctx.position (x : Ctx) (s : State) : Option Nat := posOf (coreAt s x.p.core) x.pid x.gi

/-- The issue of an instruction is counted, and with it the pocket misses that it was held for (16 Table 16-9, 17 Table 17-4). DESIGN
CHOICE (log entry 30): one that traps or blocks where it would issue counts neither. -/
def Ctx.countIssue (x : Ctx) (s : State) : State := perfAdd (perfAdd s x.pid 0 1) x.pid 1 x.e.held

/-- What the fragment's issue comes to (07 R126 to R131, 13 R218, 16 R256 to R259). -/
def Ctx.conclude (x : Ctx) (i : Instr) (s : State) : Body → State
  | .ok t =>
    let t1 := x.countIssue (x.updG (fun g => { g with pending := x.pendings i (x.extra t) }) t)
    x.close (x.yieldAfter i (x.takeSlot (x.position s) (opOf i) t1))
  | .error (.trap t) =>
    x.close (x.takeSlot (x.position s) (opOf i) (takeTrap s x.pid x.gi x.ei t (unwinds t.cause)))
  | .error (.trapIn s1 t) =>
    x.close (x.takeSlot (x.position s) (opOf i) (takeTrap (x.back s1) x.pid x.gi x.ei t (unwinds t.cause)))
  | .error (.ended s1) => x.close (x.takeSlot (x.position s) (opOf i) s1)
  | .error (.block b) => x.close (x.takeSlot (x.position s) (opOf i) (x.blockAs b s))
  | .error (.park s1 b) =>
    let s2 := x.blockAs b (x.back s1)
    if endsByRelease b then x.close (x.yieldAfter i (x.takeSlot (x.position s) (opOf i) (x.countIssue s2)))
    else x.close (x.takeSlot (x.position s) (opOf i) s2)
  | .error (.measure va len) =>
    x.close (x.takeSlot (x.position s) (opOf i) (x.blockAs (.measure s.nextId)
      (newCmd s (.measure x.pid) x.p.core .copy (.fetch [(va, len)]) x.p.hdr.asid id)))
  | .error (.hold t misses) =>
    { x.updEntry (fun e => { e with nextIssue := t, held := if misses = 0 then e.held else misses }) s with issuer := none }

/-- Issue an encoded instruction with a given body for the issuing fragment. -/
def runInstr (i : Instr) (body : Ctx → State → Body) (s : State) : Host.Outcome State Fault Refusal :=
  match ctxOf i s with
  | none => .fault .noIssuer
  | some x => .next (x.conclude i s (x.attempt i body s))

end Sys2Proof.Machine
end

