-- ==== Sys2Proof/Machine/Layout.lean ====
section
/-! DEFINITION. Alphabet registers, containers and their values (11 R193 to R202), the layout word and element offsets
(08 R148 to R151). -/

namespace Sys2Proof.Machine

open Sys2Proof

/-! ## Alphabets -/

/-- Bits [hi:lo] of a 256-bit register as a number. -/
def bits256 (v : BitVec 256) (hi lo : Nat) : Nat := v.toNat / 2 ^ lo % 2 ^ (hi - lo + 1)

/-- An alphabet register's fields (11 Table 11-1). -/
structure Alpha where
  defd : Bool
  trap : Bool
  tfmt : Bool
  map : Nat
  homo : Bool
  wcode : Nat
  k : Nat
  subst : Nat
  hradix : Nat
  low : Nat
deriving DecidableEq, Repr

/-- Read the fields of a register. -/
def alphaOf (v : BitVec 256) : Alpha where
  defd := v.getLsbD 219
  trap := v.getLsbD 218
  tfmt := v.getLsbD 217
  map := bits256 v 216 215
  homo := v.getLsbD 214
  wcode := bits256 v 213 212
  k := bits256 v 211 208 + 1
  subst := bits256 v 207 200
  hradix := bits256 v 199 192
  low := bits256 v 127 0

/-- Byte `i` of RADIX or TABLE. -/
def Alpha.byte (a : Alpha) (i : Nat) : Nat := a.low / 2 ^ (8 * i) % 256

/-- r_j (11 R194). -/
def Alpha.radix (a : Alpha) (j : Nat) : Nat := if a.homo then a.hradix + 1 else a.byte j + 1

/-- W in bits. -/
def Alpha.w (a : Alpha) : Nat := 8 * 2 ^ a.wcode

/-- W / 8, the bytes of a container. -/
def Alpha.bytes (a : Alpha) : Nat := 2 ^ a.wcode

/-- R_j, the product of the radices of the digits below `j` (11 R196). -/
def Alpha.weight (a : Alpha) : Nat → Nat
  | 0 => 1
  | j + 1 => a.weight j * a.radix j

/-- P (11 R194). -/
def Alpha.prod (a : Alpha) : Nat := a.weight a.k

/-- MAP is TABLE. -/
def Alpha.isTable (a : Alpha) : Bool := a.map == 2

/-- A definition that ALDEF refuses (11 R194). -/
def badAlphabet (v : BitVec 256) : Bool :=
  let a := alphaOf v
  let js := List.range a.k
  bits256 v 255 220 != 0 || bits256 v 191 160 != 0
    || (a.homo && a.hradix == 0)
    || (!a.homo && (a.hradix != 0 || js.any (fun j => a.byte j == 0)
          || (List.range 16).any fun j => decide (a.k ≤ j) && a.byte j != 0))
    || decide (2 ^ a.w < a.prod)
    || (a.isTable && (!a.homo || decide (16 < a.radix 0)))
    || (a.isTable && (List.range 16).any fun i => decide (a.radix 0 ≤ i) && a.byte i != 0)
    || (!a.isTable && a.homo && a.low != 0)
    || (a.map == 3 && js.any fun j => a.radix j != 2)
    || js.any fun j => decide (a.radix j ≤ a.subst)

/-- The register that ALDEF writes: DEF set, INVALID clear (11 R194). -/
def definedAlphabet (v : BitVec 256) : BitVec 256 :=
  let keep := v.toNat % 2 ^ 128 + bits256 v 218 192 * 2 ^ 192
  BitVec.ofNat 256 (keep + 2 ^ 219)

/-- INVALID raised by `n`, saturating (11 R199). -/
def raiseInvalid (n : Nat) (v : BitVec 256) : BitVec 256 :=
  let old := bits256 v 159 128
  let new := min (old + n) 0xFFFFFFFF
  BitVec.ofNat 256 (v.toNat - old * 2 ^ 128 + new * 2 ^ 128)

/-- Digit `j` of a container (11 R197). -/
def Alpha.digit (a : Alpha) (c j : Nat) : Nat := c / a.weight j % a.radix j

/-- A container is valid (11 R196). -/
def Alpha.valid (a : Alpha) (c : Nat) : Bool := decide (c < a.prod)

/-- Decode (11 R199), without its count. -/
def Alpha.decode (a : Alpha) (c : Nat) : List Nat :=
  (List.range a.k).map fun j => if a.valid c then a.digit c j else a.subst

/-- Encode (11 R199), without its count: a symbol out of range becomes SUBST. -/
def Alpha.encode (a : Alpha) (ss : List Nat) : Nat :=
  ((List.range a.k).map fun j =>
    let s := ss.getD j a.subst
    (if s < a.radix j then s else a.subst) * a.weight j).sum

/-- The value of a symbol (11 Table 11-2): an integer, or an F8E4 code. -/
inductive SymVal where
  | int (n : Int)
  | e4 (code : Nat)
deriving DecidableEq, Repr

/-- The value of symbol `s` in digit `j` (11 R198). -/
def Alpha.value (a : Alpha) (s j : Nat) : SymVal :=
  match a.map with
  | 0 => .int s
  | 1 => .int ((s : Int) - ((a.radix j - 1) / 2 : Nat))
  | 2 => if a.tfmt then .e4 (a.byte s) else .int (intOf true 8 (a.byte s))
  | _ => .int (if s = 0 then -1 else 1)

/-- An F8E4 code as F32 (10 R184: exact). -/
def e4ToF32 (c : Nat) : Nat := (fF32.ofVal .rne false (fF8E4.value c)).1

/-- ValueOf (19 R299): as I32, or as F32 from an F8E4 table. -/
def Alpha.valueWord (a : Alpha) (s j : Nat) : Word :=
  match a.value s j with
  | .int n => BitVec.ofInt 32 n
  | .e4 c => BitVec.ofNat 32 (e4ToF32 c)

/-- Two F32 codes have the same value; a NaN has none. -/
def sameF32 (a b : Nat) : Bool :=
  match fF32.value a, fF32.value b with
  | .fin s m e, .fin t n d => decide (signedAt s m e (min e d) = signedAt t n d (min e d))
  | .inf s, .inf t => s == t
  | _, _ => false

/-- SymbolOf (19 R299): the lowest symbol whose value is the lane's, none when there is none. Under FTZ a subnormal F32 is read as
zero (10 R183, R186). -/
def Alpha.symbolOf (a : Alpha) (ftz : Bool) (x : Word) (j : Nat) : Option Nat :=
  (List.range (a.radix j)).find? fun s =>
    match a.value s j with
    | .int n => decide (x.toInt = n)
    | .e4 c => sameF32 (fF32.input ftz x.toNat) (e4ToF32 c)

/-- The symbol that a lane carries: itself with .SYM, else by its value. -/
def Alpha.carried (a : Alpha) (sym ftz : Bool) (x : Word) (j : Nat) : Option Nat :=
  if sym then (if x.toNat < a.radix j then some x.toNat else none) else a.symbolOf ftz x j

/-- What a lane receives for a symbol. -/
def Alpha.given (a : Alpha) (sym : Bool) (s j : Nat) : Word := if sym then BitVec.ofNat 32 s else a.valueWord s j

/-- Cnt(a), the elements of one packed word (19 R299). -/
def Alpha.perWord (a : Alpha) : Nat := if a.wcode = 3 then a.k else 32 / a.w * a.k

/-- Matrix eligibility (11 R202). -/
def Alpha.eligible (a : Alpha) : Bool :=
  (List.range a.k).all fun j => decide (a.radix j ≤ 32) && (List.range (a.radix j)).all fun s =>
    match a.value s j with
    | .int n => decide (-16 ≤ n ∧ n ≤ 15)
    | .e4 c =>
      match fF8E4.value c with
      | .fin t m e => decide (signedAt t m e (-9) ≤ 15 * 512 ∧ -16 * 512 ≤ signedAt t m e (-9))
      | _ => false

/-- The largest radix (11 R202). -/
def Alpha.maxRadix (a : Alpha) : Nat := ((List.range a.k).map a.radix).foldl max 0

/-! ## Layout words -/

/-- A layout word (08 R148). ETYPE is kept as its code. -/
structure Layout where
  base : Nat
  mode : Nat
  etype : Nat
  s1 : Nat
  s2 : Nat
  s3 : Nat
  top : Nat
deriving DecidableEq, Repr

/-- Read a layout word from L0, L1 and L2 (08 R148). -/
def layoutOf (l0 l1 l2 : Nat) : Layout where
  base := l0 % 2 ^ 20
  mode := l0 / 2 ^ 20 % 16
  etype := l0 / 2 ^ 24 % 256
  s1 := l1 % 2 ^ 20
  s2 := l1 / 2 ^ 20 % 2 ^ 12 + l2 % 2 ^ 8 * 2 ^ 12
  s3 := l2 / 2 ^ 8 % 2 ^ 20
  top := l2 / 2 ^ 28 % 16

/-- A layout word that no instruction accepts (08 R151). -/
def Layout.bad (l : Layout) : Bool := decide (8 ≤ l.mode) || l.top != 0 || (Ty.ofCode l.etype).isNone

/-- The alphabet register of an element type. -/
def alphaIdx : Ty → Option Nat
  | .alpha n => some n.toNat
  | _ => none

/-- The width of an element in bytes (08 Table 8-4), with the alphabet registers at hand. -/
def elemBytes (al : Vector (BitVec 256) 16) : Ty → Nat
  | .n16 | .i16 | .f16 | .b16 => 2
  | .n32 | .i32 | .f32 => 4
  | .n64 | .i64 => 8
  | .alpha n => (alphaOf (vget al n.toNat 0)).bytes
  | _ => 1

/-- Two elements share a byte. -/
def halfByte : Ty → Bool
  | .f4e2 | .bx4 | .qa4 => true
  | _ => false

/-- ElemOffset (08 Table 8-4). -/
def elemOffset (al : Vector (BitVec 256) 16) (t : Ty) (i : Nat) : Nat :=
  match t with
  | .alpha n =>
    let a := alphaOf (vget al n.toNat 0)
    i / a.k * a.bytes
  | t => if halfByte t then i / 2 else i * elemBytes al t

/-- Permute (08 Table 8-5). -/
def permute (mode q i1 i2 : Nat) : Nat :=
  match mode with
  | 0 => q
  | 1 => q ^^^ (i1 % 64)
  | 2 => (q + i1) % 64
  | 3 => q ^^^ (2 * i1 % 64)
  | 4 => q ^^^ (i2 % 64)
  | 5 => q ^^^ (i1 % 2)
  | 6 => (q + i1 + i2) % 64
  | _ => q % 8 * 8 + q / 8

/-- LayoutAddress (08 R148), before its range check. -/
def Layout.addr (l : Layout) (al : Vector (BitVec 256) 16) (i0 i1 i2 i3 : Nat) : Nat :=
  let t := (Ty.ofCode l.etype).getD .n8
  let a := l.base + elemOffset al t i0 + i1 * l.s1 + i2 * l.s2 + i3 * l.s3
  a / 2 ^ 12 * 2 ^ 12 + permute l.mode (a / 64 % 64) i1 i2 * 64 + a % 64

/-- The width that a layout's accesses have. -/
def Layout.width (l : Layout) (al : Vector (BitVec 256) 16) : Nat := elemBytes al ((Ty.ofCode l.etype).getD .n8)

/-- The layout word in sN, sN+1 and sN+2 of a slice (08 R148). -/
def Ctx.layout (x : Ctx) (n : Reg) (i : Nat) : Layout :=
  layoutOf ((x.s n i).toNat % 2 ^ 32) ((x.s (n + 1) i).toNat % 2 ^ 32) ((x.s (n + 2) i).toNat % 2 ^ 32)

/-- Alphabet register `n` of the panel. -/
def Ctx.alpha (x : Ctx) (n : Nat) : Alpha := alphaOf (vget x.p.alph n 0)

/-- The register is defined, else ALPHABET_CONFIG (11 R193). -/
def Ctx.alphaCheck (x : Ctx) (n : Nat) : Except Stop Unit :=
  check (x.alpha n).defd cAlphabet (BitVec.ofNat 64 n)

/-- A type that names an alphabet register names a defined one (11 R193, 19 R298). -/
def Ctx.typeCheck (x : Ctx) (t : Ty) : Except Stop Unit :=
  match alphaIdx t with
  | some n => x.alphaCheck n
  | none => .ok ()

/-- The alphabet register behind the ETYPE of a layout word. -/
def layAlpha (lay : Layout) : Option Nat := (Ty.ofCode lay.etype).bind alphaIdx

/-- A layout word that names an alphabet register names a defined one (08 R151, 11 R193). -/
def Ctx.layoutAlpha (x : Ctx) (lay : Layout) : Except Stop Unit :=
  match layAlpha lay with
  | some n => x.alphaCheck n
  | none => .ok ()

/-- Count `n` invalid events of a register. -/
def Ctx.countInvalid (x : Ctx) (reg n : Nat) (s : State) : State :=
  if n = 0 then s
  else x.updP (fun p => { p with alph := vset p.alph reg (raiseInvalid n (vget p.alph reg 0)) }) s

/-- Count the invalid events of an instruction of the vector unit, which trap when the register asks for it (11
R199). DESIGN CHOICE (log entry 150): every event of the instruction counts before the trap. -/
def Ctx.invalid (x : Ctx) (reg n : Nat) (s : State) : Body :=
  let s1 := x.countInvalid reg n s
  if n ≠ 0 ∧ (x.alpha reg).trap then .error (.trapIn s1 (mkTrap cInvalidCode (BitVec.ofNat 64 reg))) else .ok s1

end Sys2Proof.Machine
end

