-- ==== Sys2Proof/Machine/Translate.lean ====
section
/-! DEFINITION. Address translation: page tables and their walk, translation caches, translation faults, and the
expansion of compressed pages (04 R81 to R85, 02 R47). -/

namespace Sys2Proof.Machine

open Sys2Proof

/-! ## Page-table entries (04 Table 4-11) -/

/-- Bits [hi:lo] of a word as a number. -/
def fieldOf (v : DWord) (hi lo : Nat) : Nat := v.toNat / 2 ^ lo % 2 ^ (hi + 1 - lo)

/-- Fields of a page-table entry. -/
def pteV (e : DWord) : Bool := e.getLsbD 0
def pteW (e : DWord) : Bool := e.getLsbD 1
def pteLeaf (e : DWord) : Bool := e.getLsbD 2
def pteSmock (e : DWord) : Bool := e.getLsbD 6
def pteCmp (e : DWord) : Bool := e.getLsbD 7
def pteTarget (e : DWord) : Nat := fieldOf e 9 8
def pteDev (e : DWord) : Nat := fieldOf e 63 55
def pteAddr (e : DWord) : Nat := fieldOf e 54 16 * 2 ^ 16

/-- SUBV of a tolerant leaf (02 R31). -/
def pteTol (e : DWord) : Option Nat := if e.getLsbD 3 then some (fieldOf e 5 4) else none

/-- The address bits below a page of a level (04 Table 4-10). -/
def pageBits (level : Nat) : Nat := if level = 1 then 30 else if level = 2 then 21 else 16

/-- The alignment of the table that a non-leaf entry of a level names (04 R81). -/
def tableAlign (level : Nat) : Nat := if level = 0 then 2 ^ 17 else 2 ^ 16

/-- Conditions of BAD_ENTRY on a valid entry of a level (04 R82, R84). -/
def badEntry (level : Nat) (e : DWord) : Bool :=
  fieldOf e 15 10 != 0 || pteTarget e == 3 || (pteDev e != 0 && pteTarget e != 1)
    || (if pteLeaf e then
          level == 0 || (pteCmp e && !(level == 3 && pteTarget e == 0)) || pteAddr e % 2 ^ pageBits level != 0
        else level == 3 || pteCmp e || pteTarget e != 0 || pteAddr e % tableAlign level != 0)

/-! ## The walk (04 R81, R83) -/

/-- The index of a level's table (04 Table 4-10). -/
def indexAt (level va : Nat) : Nat :=
  match level with
  | 0 => va / 2 ^ 44 % 2 ^ 13
  | 1 => va / 2 ^ 30 % 2 ^ 14
  | 2 => va / 2 ^ 21 % 2 ^ 9
  | _ => va / 2 ^ 16 % 2 ^ 5

/-- How a walk ends: a leaf with its level and the data address of its entry, a translation fault of R84, a read that
failed with a status, or a read that waits for a stripe to close. -/
inductive Walk where
  | leaf (level ptr : Nat) (e : DWord)
  | fault (kind : Nat)
  | fail (code : Nat)
  | wait
deriving DecidableEq, Repr

/-- Fault kinds (04 R84). -/
abbrev notValid : Nat := 1
abbrev writeFault : Nat := 2
abbrev entryFault : Nat := 3
abbrev poolEmpty : Nat := 4

/-- Read an eight-byte entry of a table through ReadGranule; a table beyond local memory fails as R20 gives. -/
def readEntry (s : State) (da : Nat) : Except Walk DWord × State :=
  if localBytes < da + 8 then (.error (.fail 0x15), s)
  else match readLocal s da 8 with
    | (.ok bs, s1) => (.ok (BitVec.ofNat 64 (bytesNat bs)), s1)
    | (.error 0, _) => (.error .wait, s)
    | (.error c, s1) => (.error (.fail c), s1)

/-- Walk from a table: `n` levels are left, of four. -/
def walkFrom (s : State) (va : Nat) : Nat → Nat → Walk × State
  | 0, _ => (.fault entryFault, s)
  | n + 1, table =>
    let level := 3 - n
    match readEntry s (table + 8 * indexAt level va) with
    | (.error w, s1) => (w, s1)
    | (.ok e, s1) =>
      if !pteV e then (.fault notValid, s1)
      else if badEntry level e then (.fault entryFault, s1)
      else if pteLeaf e then (.leaf level (table + 8 * indexAt level va) e, s1)
      else walkFrom s1 va n (pteAddr e)

/-- Translate an address by a walk (04 R81). DESIGN CHOICE (log entry 143): bits [15:1] and [63:41] of an ASID-table entry are ignored. -/
def walkVa (s : State) (asid va : Nat) : Walk × State :=
  if 2 ^ 57 ≤ va then (.fault entryFault, s)
  else match readEntry s (s.asidBase.toNat + 8 * asid) with
    | (.error w, s1) => (w, s1)
    | (.ok e, s1) => if pteV e then walkFrom s1 va 4 (fieldOf e 40 16 * 2 ^ 16) else (.fault notValid, s1)

/-! ## Translation caches (04 R83) -/

/-- The cache that a core's commands use: its cluster's, or for commands of no core, which are those of packets, one of 4,096 entries
on the I/O die. DESIGN CHOICE (log entry 95): 04 R83 gives a cache to each cluster only. -/
def tlbOf (s : State) (core : Nat) : List TlbEntry :=
  if core < 512 then (vget s.clusters (core / 16) cluster0).tlb else s.iodTlb

/-- Change the cache of a core. -/
def updTlb (s : State) (core : Nat) (f : List TlbEntry → List TlbEntry) : State :=
  if core < 512 then
    let c := vget s.clusters (core / 16) cluster0
    { s with clusters := vset s.clusters (core / 16) { c with tlb := f c.tlb } }
  else { s with iodTlb := f s.iodTlb }

/-- An entry covers an address of an ASID. -/
def TlbEntry.covers (t : TlbEntry) (asid va : Nat) : Bool := t.asid == asid && t.page == va / 2 ^ pageBits t.level

/-- The cached leaf for an address. -/
def tlbFind (s : State) (core asid va : Nat) : Option TlbEntry := (tlbOf s core).find? fun t => t.covers asid va

/-- Keep a leaf that a walk has read; a cache holds 4,096. DESIGN CHOICE (log entry 111): a cache holds leaf entries alone, so that a
walk reads the ASID's entry and the entries above the leaf anew. -/
def tlbFill (s : State) (core : Nat) (t : TlbEntry) : State :=
  updTlb s core fun ts => (t :: ts.filter fun u => !(u.asid == t.asid && u.page == t.page && u.level == t.level)).take 4096

/-- Drop the entries that a test selects from every cache. -/
def tlbDrop (s : State) (f : TlbEntry → Bool) : State :=
  { s with
    clusters := s.clusters.map fun c => { c with tlb := c.tlb.filter fun t => !f t }
    iodTlb := s.iodTlb.filter fun t => !f t }

/-- Drop the entries that cover an address of an ASID. -/
def tlbDropVa (s : State) (asid va : Nat) : State := tlbDrop s fun t => t.covers asid va

/-! ## Translation faults (04 R84, R85) -/

/-- The 32 bytes of a translation-fault record (04 R84). DESIGN CHOICE (log entry 106): bytes that the rule does not give are 0. -/
def xfaultBytes (x : XFault) (tag : Nat) : List Byte :=
  natBytes 8 x.va ++ natBytes 2 x.asid ++ natBytes 1 x.queue ++ natBytes 1 x.kind ++ natBytes 1 x.access ++ [0]
    ++ natBytes 2 tag ++ natBytes 2 x.core ++ natBytes 14 0

/-- The translation-fault ring takes a record. -/
def fqRoom (s : State) : Bool :=
  s.fqWritten && decide ((s.fqProd + 2 ^ 16 - s.fqCons) % 2 ^ 16 < 2 ^ s.fqSize)

/-- Write a fault's record with the next tag. DESIGN CHOICE (log entry 106): tags count up from 0, and the ring's indices run freely
modulo 2^16. -/
def fqPut (s : State) (x : XFault) : State × XFault :=
  let s1 := ringWrite s none s.fqBase .a (32 * (s.fqProd % 2 ^ s.fqSize)) (xfaultBytes x s.nextTag)
  ({ s1 with fqProd := (s1.fqProd + 1) % 2 ^ 16, nextTag := (s1.nextTag + 1) % 2 ^ 16 }, { x with tag := some s.nextTag })

/-- Write the records of faults that wait for room, in the order in which they were raised. -/
def fqFlush : List XFault → State → State
  | [], s => s
  | x :: xs, s =>
    if x.tag.isNone && fqRoom s then
      let (s1, y) := fqPut s x
      fqFlush xs { s1 with xfaults := s1.xfaults ++ [y] }
    else fqFlush xs { s with xfaults := s.xfaults ++ [x] }

/-- Let waiting faults into the ring. -/
def fqSettle (s : State) : State := fqFlush s.xfaults { s with xfaults := [] }

/-- The queue on whose behalf a command acts, as a fault record names it. -/
def Cmd.queue (s : State) (c : Cmd) : Nat :=
  match c.owner with
  | .packet q _ => q
  | .ring q => q
  | o => ((o.panel.bind (getPanel s)).map (·.hdr.queue)).getD 0xFF

/-- A command's access finds a problem: it stalls, and its fault joins an unanswered one of the same page or has a
record of its own (04 R84). DESIGN CHOICE (log entry 106): the record of a command that has no core, as a packet's, names core
0xFFFF. -/
def raiseFault (s : State) (c : Cmd) (kind va access : Nat) : State :=
  let page := va / 2 ^ 16
  let s1 := updCmd s c.id fun d => { d with fault := some page }
  if s1.xfaults.any fun x => x.asid == c.asid && x.page == page then
    { s1 with xfaults := s1.xfaults.map fun x =>
        if x.asid == c.asid && x.page == page then { x with cmds := x.cmds ++ [c.id] } else x }
  else
    let x : XFault := ⟨none, c.asid, page, va, kind, access, c.queue s, c.core, [c.id]⟩
    fqSettle { s1 with xfaults := s1.xfaults ++ [x] }

/-! ## Failing a command -/

/-- The status of a failure; the first one of a command is the one it reports (03 R63). -/
def noteFail (s : State) (id code addr : Nat) : State :=
  updCmd s id fun d =>
    { d with fail := d.fail.or (some ⟨false, code, BitVec.ofNat 64 addr, id⟩), sent := [], recon := [] }

/-- A command fails, and asks for nothing any longer. -/
def failWith (s : State) (id code addr : Nat) : State := noteFail (dropRequests s id) id code addr

/-! ## Compressed pages (02 R46, R47) -/

/-- The leaf entry with another frame and CMP clear. -/
def rewritten (e : DWord) (frame : Nat) : DWord :=
  (e &&& ~~~(BitVec.ofNat 64 (2 ^ 55 - 2 ^ 16)) &&& ~~~(0x80 : DWord)) ||| BitVec.ofNat 64 frame

/-- The address of the expansion pool ring (02 Table 2-5). -/
def poolBase (s : State) : Nat := s.gus.xpBase.toNat % 2 ^ 57 / 64 * 64

/-- Read an entry of an expansion pool ring in local memory. -/
def poolRead (s : State) (i : Nat) : Except Nat (List Byte) × State :=
  let a := poolBase s + 8 * i
  if localBytes < a + 8 then (.error 0x15, s) else readLocal s a 8

/-- The ring offers no frame (02 R46). -/
def poolIsEmpty (s : State) : Bool := s.gus.xpSize == 0 || s.gus.xpCons == s.gus.xpProd

/-- GUS_XPOOL after a write (02 R46). -/
def writePool (g : Gusset) (v : DWord) : Gusset :=
  let n := fieldOf v 47 32
  let size := if n = 0 then 0 else max 16 n
  let prod := fieldOf v 15 0
  if size ≠ g.xpSize then { g with xpSize := size, xpCons := 0, xpProd := if prod < size then prod else 0 }
  else if prod < size then { g with xpProd := prod }
  else g

/-- The commands that stall because the pool offered no frame go on when it offers one (02 R47). -/
def resumePool (s : State) : State :=
  if poolIsEmpty s then s
  else
    let due := (s.xfaults.filter fun x => x.kind == poolEmpty).flatMap (·.cmds)
    { s with
      cmds := s.cmds.map fun c => if due.contains c.id then { c with fault := none } else c
      xfaults := s.xfaults.filter fun x => x.kind != poolEmpty }

/-- The read of a ring entry in host memory that an expansion has begun. -/
def poolCmd (s : State) : Option Cmd := s.cmds.find? fun c => c.owner == .pool

/-- Where the entry stands that an expansion takes, in host memory or at a data address: where the read of it that has begun is made,
else at CONS of the ring (02 R46). -/
def poolEntry (s : State) : Bool × Nat :=
  match (poolCmd s).map Cmd.kind with
  | some (.fetch ((a, _) :: _)) => (true, a)
  | _ => (baseIsHost s.gus.xpBase, poolBase s + 8 * s.gus.xpCons)

/-- Write the frame that an expansion releases into the entry that it takes (02 R46). -/
def poolWrite (s : State) (bytes : List Byte) : State := writeRecord s none (poolEntry s).1 .a (poolEntry s).2 bytes

/-- GUS_XPOOL as the writes of it that wait will leave it (02 R46). -/
def poolAhead (g : Gusset) : Gusset := g.xpLater.foldl writePool g

/-- Writes of GUS_XPOOL that have waited for an expansion in progress take effect, in their order (02 R46). -/
def applyLater (s : State) : State := resumePool { s with gus := { poolAhead s.gus with xpLater := [] } }

/-- No expansion is taking a frame any longer (02 R46). -/
def endPool (s : State) : State :=
  applyLater (match poolCmd s with
    | some c => forgetCmd s c.id
    | none => s)

/-- What an expansion finds when it takes a frame (02 R47): it has to wait; the read of a ring entry in host memory begins; the
entry; or the status of a failed read. -/
inductive PoolNext where
  | wait
  | begin (s : State)
  | frame (bytes : List Byte) (s : State)
  | fail (code : Nat) (s : State)

/-- Take the frame of ring entry CONS for command `id`, which the read of an entry in host memory names as its unit. -/
def poolNext (s : State) (id : Nat) : PoolNext :=
  match poolCmd s with
  | some c =>
    match c.fail, (c.got.find? fun g => g.1 == 0).map (·.2) with
    | some f, _ => .fail f.status (endPool s)
    | none, some b => .frame b s
    | none, none => .wait
  | none =>
    if baseIsHost s.gus.xpBase then
      .begin (newCmd s .pool noCore .copy (.fetch [(poolBase s + 8 * s.gus.xpCons, 8)]) 0 fun d => { d with unit := id })
    else match poolRead s s.gus.xpCons with
      | (.ok b, s1) => .frame b s1
      | (.error 0, _) => .wait
      | (.error code, s1) => .fail code s1

/-- The bytes that an image stands for: those of the page that the device compressed into this frame, while the image is
as it wrote it (02 R47; log entry 7). -/
def imageBytes (s : State) (frame : Nat) (image : List Byte) : List Byte :=
  match (s.gus.images.find? fun i => i.1 == frame).map (·.2) with
  | some page => if (Config.compress page).isPrefixOf image then page else Config.expand image
  | none => Config.expand image

/-- The length of the image in a frame: of the page that the device compressed into it, else as its first granule says
(log entry 7). -/
def imageLength (s : State) (frame : Nat) (first : List Byte) : Nat :=
  match (s.gus.images.find? fun i => i.1 == frame).map (·.2) with
  | some page => (Config.compress page).length
  | none => min 49152 (Config.imageLength first)

/-- Bytes of a page. -/
def pageOf (bs : List Byte) : List Byte := (bs ++ List.replicate 65536 0).take 65536

/-- The image of a compressed page, read through its leaf: of the length that its first granule tells (02 R25, R31). -/
def readImage (s : State) (e : DWord) : Except Nat (List Byte) × State :=
  match readThrough s (pteTol e) (pteAddr e) 64 with
  | (.ok head, _) => readThrough s (pteTol e) (pteAddr e) (imageLength s (pteAddr e) head)
  | r => r

/-- An expanded page stands in its frame: its page-table entry, every cache, and the old frame released (02 R47). -/
def enterFrame (s : State) (asid va ptr : Nat) (e : DWord) (frame : Nat) : State :=
  let s1 := (writeLocal s ptr (natBytes 8 (rewritten e frame).toNat)).2
  let s2 := poolWrite (tlbDropVa s1 asid va) (natBytes 8 (pteAddr e + 1))
  endPool { s2 with gus := { s2.gus with
    xpCons := if s2.gus.xpCons + 1 < s2.gus.xpSize then s2.gus.xpCons + 1 else 0
    images := s2.gus.images.filter fun i => i.1 != pteAddr e } }

/-- Expand a page into the frame of a ring entry `b` (02 R47), or the status with which it fails, 0 when it has to wait. DESIGN
CHOICE (log entry 101): an expansion whose image cannot be read, whose frame does not lie in local memory, or whose frame takes no
write fails the access, and the ring entry stays. -/
def expandPage (s : State) (asid va ptr : Nat) (e : DWord) (b : List Byte) : Option Nat × State :=
  let frame := bytesNat b / 2 ^ 16 * 2 ^ 16
  if localBytes < 65536 + frame then (some 0x15, s)
  else if rangeWaits s frame 65536 || rangeWaits s ptr 8 then (some 0, s)
  else match readImage s e with
    | (.error code, s1) => (some code, s1)
    | (.ok img, s1) =>
      match writeLocal s1 frame (pageOf (imageBytes s1 (pteAddr e) img)) with
      | (some code, s2) => (some code, s2)
      | (none, s2) => (none, enterFrame s2 asid va ptr e frame)

end Sys2Proof.Machine
end

