-- ==== Sys2Proof/Machine/Tensor.lean ====
section
/-! DEFINITION. Tensor descriptors: their fields, the places of a block's elements in memory and in scratchpad, and the
granules that a block touches (08 R152 to R154, 11 R201), and reads that measure what a command will write (13 R227). -/

namespace Sys2Proof.Machine

open Sys2Proof

/-- Bits [hi:lo] of a number. -/
def bitsOf (v hi lo : Nat) : Nat := v / 2 ^ lo % 2 ^ (hi + 1 - lo)

/-- x rounded up to a multiple of 64. -/
def round64 (x : Nat) : Nat := (x + 63) / 64 * 64

/-! ## Tensor descriptors (08 R152 to R154) -/

/-- Field of a descriptor's bytes. -/
def descNat (d : List Byte) (at_ n : Nat) : Nat := bytesNat ((d.drop at_).take n)

/-- Parse a descriptor, or none when it is invalid (08 R152). DESIGN CHOICE (log entry 145): a SIZE or a sharding of a dimension at or
above RANK is used as it stands. -/
def parseDesc (d : List Byte) : Option TDesc :=
  let w0 := descNat d 0 8
  let w1 := descNat d 8 4
  let w2 := descNat d 12 4
  let shard := (List.range 5).map fun i => bitsOf w2 (2 * i + 1) (2 * i)
  let ndev := bitsOf w2 18 10
  let dev0 := bitsOf w2 27 19
  let span := bitsOf w2 31 28
  let size := (List.range 5).map fun i => descNat d (16 + 4 * i) 4
  let blk := (List.range 4).map fun i => descNat d (56 + 2 * i) 2
  let base := bitsOf w0 56 0
  let bad := bitsOf w0 63 60 != 0 || bitsOf w1 31 20 != 0 || decide (bitsOf w0 59 57 < 1 ∨ 5 < bitsOf w0 59 57)
    || size.any (· == 0) || blk.any (· == 0) || shard.any (· == 3) || decide (1 < (shard.filter (· != 0)).length)
    || decide (ndev < 1 ∨ 432 < ndev ∨ 432 < dev0 + ndev) || decide (2 ^ 57 ≤ base + (ndev - 1) * 2 ^ (30 + span))
  match Ty.ofCode (bitsOf w1 7 0) with
  | some t => if bad then none else some
      { base := base, rank := bitsOf w0 59 57, etype := t, tid := bitsOf w1 19 8, shard := shard, ndev := ndev
        span := span, size := size, stride := 0 :: (List.range 4).map fun i => descNat d (36 + 5 * i) 5, blk := blk }
  | none => none

/-- Elements of a unit along dimension 0: the digits of a container, else one (11 R201). -/
def TDesc.perUnit (t : TDesc) (al : Vector (BitVec 256) 16) : Nat :=
  match alphaIdx t.etype with
  | some n => (alphaOf (vget al n 0)).k
  | none => 1

/-- Units of the whole tensor along dimension `i`. -/
def TDesc.extent (t : TDesc) (al : Vector (BitVec 256) 16) (i : Nat) : Nat :=
  if i = 0 then (t.size.getD 0 1 + t.perUnit al - 1) / t.perUnit al else t.size.getD i 1

/-- Units of a block along dimension `i`. -/
def TDesc.blockUnits (t : TDesc) (al : Vector (BitVec 256) 16) (i : Nat) : Nat :=
  if i = 0 then t.blk.getD 0 1 / t.perUnit al else t.blk.getD i 1

/-- The shard that owns global index `i` of dimension `d`, and the index within it (08 R153). -/
def TDesc.owner (t : TDesc) (d i : Nat) : Nat × Nat :=
  match t.shard.getD d 0 with
  | 1 =>
    let c := (t.size.getD d 1 + t.ndev - 1) / t.ndev
    (i / c, i % c)
  | 2 => (i % t.ndev, i / t.ndev)
  | _ => (0, i)

/-- The shard that owns unit `u` of dimension `d`, and the unit's number within it: that of its first element (08 R153). -/
def TDesc.shardOf (t : TDesc) (al : Vector (BitVec 256) 16) (d u : Nat) : Nat × Nat :=
  if d = 0 then
    let o := t.owner 0 (u * t.perUnit al)
    (o.1, o.2 / t.perUnit al)
  else t.owner d u

/-- The shard of container `u` of dimension 0 does not hold it as one of its own containers: its elements go to several shards, or
lie across two containers of one (06 R102, 08 R153, 11 R201). -/
def TDesc.splits (t : TDesc) (al : Vector (BitVec 256) 16) (u : Nat) : Bool :=
  let k := t.perUnit al
  let o := t.owner 0 (u * k)
  o.2 % k != 0 || (List.range k).any fun e => decide (u * k + e < t.size.getD 0 1) && t.owner 0 (u * k + e) != (o.1, o.2 + e)

/-- The byte of a unit and, for a type of half a byte, which half. -/
def unitPlace (al : Vector (BitVec 256) 16) (t : Ty) (u : Nat) : Nat × Option Nat :=
  if halfByte t then (u / 2, some (u % 2)) else (u * elemBytes al t, none)

/-- Bytes that a unit takes. -/
def unitBytes (al : Vector (BitVec 256) 16) (t : Ty) : Nat := if halfByte t then 1 else elemBytes al t

/-- The global place of the unit with global indices `is`, or none when the tensor does not hold it (08 R153, R154). -/
def TDesc.place (t : TDesc) (al : Vector (BitVec 256) 16) (is : List Nat) : Option (Nat × Option Nat) :=
  if (List.range 5).all fun d => decide (is.getD d 0 < t.extent al d) then
    let parts := (List.range 5).map fun d => t.shardOf al d (is.getD d 0)
    let h := (parts.map (·.1)).sum
    let u0 := unitPlace al t.etype (((parts[0]?).map (·.2)).getD 0)
    let rest := ((List.range 5).map fun d => ((parts[d]?).map (·.2)).getD 0 * t.stride.getD d 0).sum
    some (t.base + h * 2 ^ (30 + t.span) + u0.1 + rest, u0.2)
  else none

/-- A unit of a block: its global place, if the tensor holds it, its scratchpad place, and its length. -/
structure TUnit where
  glob : Option (Nat × Option Nat)
  sp : Nat × Option Nat
  len : Nat
deriving DecidableEq, Repr

/-- The units of block `b` of a descriptor, packed in scratchpad from `sp` on (08 R154). -/
def TDesc.units (t : TDesc) (al : Vector (BitVec 256) 16) (b : List Nat) (sp : Nat) : List TUnit :=
  let n := fun d => t.blockUnits al d
  (List.range (n 0 * n 1 * n 2 * n 3)).map fun lin =>
    let u := [lin % n 0, lin / n 0 % n 1, lin / (n 0 * n 1) % n 2, lin / (n 0 * n 1 * n 2)]
    let is := (List.range 4).map fun d => b.getD d 0 * n d + u.getD d 0
    let p := unitPlace al t.etype lin
    ⟨t.place al is, (sp + p.1, p.2), unitBytes al t.etype⟩

/-- The byte length of a block in scratchpad (08 R154). -/
def TDesc.blockBytes (t : TDesc) (al : Vector (BitVec 256) 16) : Nat :=
  let n := t.blockUnits al 0 * t.blockUnits al 1 * t.blockUnits al 2 * t.blockUnits al 3
  round64 (if halfByte t.etype then (n + 1) / 2 else n * elemBytes al t.etype)

/-- Block `b` takes whole containers of the shards (06 R102), whose addresses are multiples of their width (11 R201). -/
def TDesc.aligned (t : TDesc) (al : Vector (BitVec 256) 16) (b : List Nat) (sp : Nat) : Bool :=
  let n := t.blockUnits al 0
  (List.range' (b.getD 0 0 * n) n).all (fun u => decide (t.extent al 0 ≤ u) || !t.splits al u)
    && (t.units al b sp).all fun u => u.glob.all fun p => p.1 % elemBytes al t.etype == 0

/-- The status with which block `b` is refused (06 R102, 08 R152, 11 R201, 21 R334; log entry 41), in a scratchpad of `size` bytes. -/
def TDesc.refusal (t : TDesc) (al : Vector (BitVec 256) 16) (b : List Nat) (sp size : Nat) : Option Nat :=
  match alphaIdx t.etype with
  | some n =>
    let a := alphaOf (vget al n 0)
    if !a.defd then some 0x15
    else if size < sp + t.blockBytes al then some 0x15
    else if t.blk.getD 0 1 % a.k ≠ 0 ∨ sp % a.bytes ≠ 0 ∨ !t.aligned al b sp then some 0x16
    else none
  | none => if size < sp + t.blockBytes al then some 0x15 else none

/-- The granules of ranges, as their numbers in ascending order. -/
def rangeGranules (rs : List (Nat × Nat)) : List Nat :=
  (distinct (rs.flatMap fun r => (granulesOf r.1 r.2).map (· / 64))).mergeSort (fun a b => decide (a ≤ b))

/-- The granules that units touch, in ascending order. -/
def unitGranules (us : List TUnit) : List Nat :=
  rangeGranules (us.filterMap fun u => u.glob.map fun g => (g.1, u.len))

/-- The granules of the tensor that block `b` touches; none when it is refused. -/
def TDesc.granules (t : TDesc) (al : Vector (BitVec 256) 16) (b : List Nat) (sp size : Nat) : List Nat :=
  if (t.refusal al b sp size).isSome then []
  else unitGranules (t.units al b sp)

/-! ## Measuring at issue (13 R227; log entry 19) -/

/-- What stands at an address at issue: bytes; nothing that can be read, so that a command that reads there fails; or nothing
that is known before it has been read, as its page is absent or a peer's, or the read has to wait. -/
inductive Peek where
  | bytes (bs : List Byte)
  | fails
  | unknown
deriving DecidableEq, Repr

/-- What a read through a leaf gives, as `error` names its failure and 0 a wait. -/
def Peek.ofRead : Except Nat (List Byte) → Peek
  | .ok bs => .bytes bs
  | .error 0 => .unknown
  | .error _ => .fails

/-- What the granule at `off` of a leaf's page holds: in local memory, in the image of a compressed page (02 R47), or in host
memory, where every write that is complete counts (09 R157). Nothing is counted and no copy is made. -/
def peekLeaf (s : State) (e : DWord) (off : Nat) : Peek :=
  let a := pteAddr e + off
  if pteTarget e = 2 then
    (if portUp s .a || portUp s .b then
      .bytes ((deliverWhere s fun w => w.touches (a / 64)).hostMem.read a 64)
    else .fails)
  else if localBytes < a + 64 then .fails
  else if pteTarget e = 1 ∧ pteDev e ≠ s.links.devid.toNat then .unknown
  else if pteCmp e then
    match Peek.ofRead (readImage s e).1 with
    | .bytes img => .bytes (((pageOf (imageBytes s (pteAddr e) img)).drop off).take 64)
    | x => x
  else .ofRead (readThrough s (pteTol e) a 64).1

/-- What the granule at a virtual address holds. -/
def peekGranule (s : State) (asid va : Nat) : Peek :=
  match walkVa s asid va with
  | (.leaf level _ e, _) => peekLeaf s e (va % 2 ^ pageBits level)
  | (.fail _, _) => .fails
  | _ => .unknown

/-- Two ranges one after the other: what fails in one of them fails. -/
def Peek.append : Peek → Peek → Peek
  | .bytes a, .bytes b => .bytes (a ++ b)
  | .fails, _ => .fails
  | _, .fails => .fails
  | _, _ => .unknown

/-- The bytes at a virtual address. -/
def peekVa (s : State) (asid va len : Nat) : Peek :=
  match (granulesOf va len).foldr (fun g r => (peekGranule s asid g).append r) (.bytes []) with
  | .bytes bs => .bytes ((bs.drop (va % 64)).take len)
  | x => x

/-- The bytes at a virtual address for the count of hold entries at issue, none where they cannot be read. DESIGN CHOICE (log entry
19): where they are not known, the instruction waits for a read of them, and issues then. -/
def Ctx.measure (x : Ctx) (s : State) (va len : Nat) : Except Stop (Option (List Byte)) :=
  match x.e.measured.find? fun m => m.1 == va && m.2.1 == len with
  | some m => .ok m.2.2
  | none =>
    match peekVa s x.p.hdr.asid va len with
    | .bytes bs => .ok (some bs)
    | .fails => .ok none
    | .unknown => .error (.measure va len)

end Sys2Proof.Machine
end

