-- ==== Sys2Proof/Machine/Ring.lean ====
section
/-! DEFINITION. The copy ring: its entries, their checks, how stores publish them (21 R328 to R334), and the hold area of
a redundant panel (13 R227). -/

namespace Sys2Proof.Machine

open Sys2Proof

/-! ## Ring entries (21 Table 21-1) -/

/-- A ring entry. -/
structure RingEntry where
  src : Nat
  dst : Nat
  w2 : Nat
  w3 : Nat
deriving DecidableEq, Repr

/-- The words of the slot at a scratchpad address. -/
def slotWords (m : Memory) (a : Nat) : Vector DWord 4 := Vector.ofFn fun i => BitVec.ofNat 64 (m.readNat (a + 8 * i.val) 8)

/-- The entry that words make. -/
def entryFrom (w : Vector DWord 4) : RingEntry := ⟨w[0].toNat, w[1].toNat, w[2].toNat, w[3].toNat⟩

/-- Fields of an entry. -/
def RingEntry.kind (e : RingEntry) : Nat := e.w3 % 16
def RingEntry.retry (e : RingEntry) : Nat := e.w3 / 2 ^ 4 % 8
def RingEntry.ndev (e : RingEntry) : Nat := e.w3 / 2 ^ 8 % 512
def RingEntry.span (e : RingEntry) : Nat := e.w3 / 2 ^ 17 % 16
def RingEntry.len (e : RingEntry) : Nat := e.w2 % 2 ^ 40
def RingEntry.type (e : RingEntry) : Nat := e.w2 / 2 ^ 40 % 256
def RingEntry.count (e : RingEntry) : Nat := e.w2 / 2 ^ 48 % 512

/-- The block coordinates of kinds 6 and 7. -/
def RingEntry.block (e : RingEntry) : List Nat := (List.range 4).map fun i => e.w2 / 2 ^ (16 * i) % 2 ^ 16

/-- Kinds 6 and 7, which move a block of a descriptor. -/
def RingEntry.isTile (e : RingEntry) : Bool := e.kind == 6 || e.kind == 7

/-- Kinds 4 and 5, of the COLLECTIVE class. -/
def RingEntry.isColl (e : RingEntry) : Bool := e.kind == 4 || e.kind == 5

/-- The class of an entry (21 Table 21-2). -/
def RingEntry.cls (e : RingEntry) : Cls := if e.isColl then .collective else .copy

/-- SRC is a scratchpad offset. -/
def RingEntry.srcSpad (e : RingEntry) : Bool := e.kind == 1 || e.kind == 2 || e.isColl

/-- DST is a scratchpad offset. -/
def RingEntry.dstSpad (e : RingEntry) : Bool := e.kind == 0 || e.kind == 2 || e.isTile

/-- A field that must be zero is not (21 Table 21-1). -/
def RingEntry.zeroBad (e : RingEntry) : Bool :=
  e.w3 / 2 ^ 7 % 2 != 0 || e.w3 / 2 ^ 21 != 0 || (e.kind != 5 && (e.ndev != 0 || e.span != 0))
    || (!e.isTile && (e.w2 / 2 ^ 57 != 0 || (e.kind != 4 && e.count != 0)))
    || decide ((if e.srcSpad then 2 ^ 20 else 2 ^ 57) ≤ e.src)
    || decide ((if e.dstSpad then 2 ^ 20 else 2 ^ 57) ≤ e.dst)

/-- The alphabet register of an entry's TYPE. -/
def RingEntry.alphaReg (e : RingEntry) : Option Nat := if e.isTile then none else (Ty.ofCode e.type).bind alphaIdx

/-- The entry asks for a format or a count that its kind does not have (21 Table 21-2, 03 R57). -/
def RingEntry.collBad (e : RingEntry) : Bool :=
  if e.kind = 4 then
    !(e.type == 0x10 || e.type == 0x05 || e.type == 0x07) || decide (e.count < 2 ∨ 432 < e.count)
      || e.dst % 64 != 0 || e.len % 64 != 0
  else if e.kind = 5 then decide (e.ndev < 1 ∨ 432 < e.ndev)
  else false

/-- The checks of R334 that need no memory: the status of an entry that is refused, in a panel with a scratchpad of
`size` bytes and the entry's copy of the alphabets. -/
def RingEntry.refusal (e : RingEntry) (size : Nat) (al : Vector (BitVec 256) 16) : Option Nat :=
  let spad := fun a => decide (size < a + e.len)
  let undefined := e.alphaReg.any fun n => !(alphaOf (vget al n 0)).defd
  let split := e.alphaReg.any fun n =>
    let w := (alphaOf (vget al n 0)).bytes
    e.src % w != 0 || e.dst % w != 0 || e.len % w != 0
  if decide (7 < e.kind) || e.zeroBad then some 0x15
  else if e.isTile then
    (if e.dst % 64 != 0 || e.retry != 0 || decide (size ≤ e.dst) then some 0x15 else none)
  else if ((Ty.ofCode e.type).isNone && e.type != 0xFF) || e.len == 0 || (e.srcSpad && spad e.src)
      || (e.dstSpad && spad e.dst) || (!e.isColl && e.retry != 0) || e.collBad || undefined then some 0x15
  else if split then some 0x16
  else none

/-- The granules that a range of `len` bytes touches. -/
def granuleCount (a len : Nat) : Nat := if len = 0 then 0 else (a + len - 1) / 64 - a / 64 + 1

/-- The hold entries that an entry needs (13 R227): none for one that is refused. Those of a block out of scratchpad follow from
its descriptor `desc`, and are none where that cannot be read. -/
def RingEntry.holdNeed (e : RingEntry) (size : Nat) (al : Vector (BitVec 256) 16) (desc : Option (List Byte)) : Nat :=
  if (e.refusal size al).isSome then 0
  else if e.kind = 7 then
    (if e.src % 64 ≠ 0 then 0
     else ((desc.bind parseDesc).map fun t => (t.granules al e.block e.dst size).length).getD 0)
  else if e.kind = 1 ∨ e.kind = 3 ∨ e.kind = 4 then granuleCount e.dst e.len
  else if e.kind = 5 then e.ndev * granuleCount e.dst e.len
  else 0

/-! ## The hold area -/

/-- Entries of the hold area (13 R227). -/
def Panel.holdCapacity (p : Panel) : Nat := p.hdr.holdKib * 1024 / 80

/-- Entries of the hold area that are free. -/
def Panel.holdFree (p : Panel) : Nat := p.holdCapacity - (p.heldCount.map (·.2)).sum

/-- Take `n` entries of the hold area for a batch of a redundant panel, or trap with HOLD_FULL (13 R227). -/
def Ctx.hold (x : Ctx) (c : Cls) (n : Nat) (s : State) : Body :=
  if x.p.hdr.redundant && n != 0 then
    if n ≤ ((getPanel s x.pid).map (·.holdFree)).getD 0 then
      .ok (x.updP (fun p => { p with heldCount := p.heldCount ++
        [(((p.gangs[x.gi]?).map fun g => (openOf g c).bid).getD 0, n)] }) s)
    else raise cHoldFull 0
  else .ok s

/-! ## Publishing (21 R328, R330) -/

/-- The scratchpad address of a ring slot. -/
def Ring.slot (r : Ring) (i : Nat) : Nat := r.base.toNat + 32 * (i % r.size.toNat)

/-- The hold entries of a ring entry at its publication, in a redundant panel (13 R227). -/
def Ctx.publishNeed (x : Ctx) (s : State) (p : Panel) (e : RingEntry) : Except Stop Nat :=
  if x.p.hdr.redundant then do
    let desc ← if e.kind = 7 ∧ e.src % 64 = 0 ∧ e.refusal p.hdr.size p.alph = none then x.measure s e.src 64 else .ok none
    .ok (e.holdNeed p.hdr.size p.alph desc)
  else .ok 0

/-- Entries `i`, `i + 1`, … join the batches of the publishing gang, each in the class of its kind (21 R330). The command keeps
the words of its slot as they stand (21 R331). -/
def Ctx.publishEntries (x : Ctx) : Nat → Nat → State → Body
  | 0, _, s => .ok s
  | n + 1, i, s =>
    match getPanel s x.pid with
    | none => .ok s
    | some p => do
      let words := slotWords p.sp (p.ring.slot i)
      let e := entryFrom words
      let n' ← x.publishNeed s p e
      let s1 ← x.hold e.cls n' s
      x.publishEntries n ((i + 1) % 2 ^ 32)
        (issueCmd s1 x.pid x.gi e.cls (.ringEntry i) fun k =>
          { k with slotAddr := p.ring.slot i, entry := some words, holds := n' })

/-- A published index is accepted when it lies from PUB forward to at most CONS + ringsize (21 R330). -/
def pubAccepts (r : Ring) (v : Nat) : Bool :=
  decide (idxDiff v r.pub + idxDiff r.pub r.cons ≤ r.size.toNat)

/-- A store of the notify word publishes (21 R330). -/
def Ctx.publish (x : Ctx) (v : Nat) (s : State) : Body :=
  match getPanel s x.pid with
  | none => .ok s
  | some p =>
    if pubAccepts p.ring v then
      x.publishEntries (idxDiff v p.ring.pub) p.ring.pub
        (x.updP (fun q => { q with ring := { q.ring with pub := v } }) s)
    else .ok s

/-- After an ordinary store to the byte ranges `rs`: when one of them overlaps bytes 0 to 3 of the notify word, the
word's new content publishes (21 R330). There is no notify word without a ring, and no content while a source is EMPTY (16 R256). -/
def Ctx.stored (x : Ctx) (rs : List (Nat × Nat)) (s : State) : Body :=
  let n := x.p.ring.notify.toNat
  if x.unknown.isEmpty && x.p.ring.size != 0 && rs.any (fun r => decide (r.1 < n + 4 ∧ n < r.1 + r.2)) then
    x.publish ((spOf s x.pid).readNat n 4) s
  else .ok s

end Sys2Proof.Machine
end

