-- ==== Sys2Proof/Machine/Scalar.lean ====
section
/-! DEFINITION. Scalar arithmetic, moves, bit fields and scalar scratchpad access, major opcodes 0x20 to 0x38 (17 R274
to R278). -/

namespace Sys2Proof.Machine

open Sys2Proof

/-- A scalar operation on every slice of the fragment (17 R274). -/
def scalarOp (i : Instr) (d a : Reg) (b : Src) (f : DWord → DWord → DWord) (s : State) :
    Host.Outcome State Fault Refusal :=
  runInstr i (fun x t => .ok (x.setS d (fun k => f (x.s a k) (x.sb b k)) t)) s

/-- A scalar operation on one source (17 R276). -/
def scalarOp1 (i : Instr) (d a : Reg) (f : DWord → DWord) (s : State) : Host.Outcome State Fault Refusal :=
  runInstr i (fun x t => .ok (x.setS d (fun k => f (x.s a k)) t)) s

/-- The high half of a product, signed or unsigned (17 Table 17-5). -/
def mulHigh (u : Bool) (a b : DWord) : DWord :=
  if u then BitVec.ofNat 64 (a.toNat * b.toNat / 2 ^ 64) else BitVec.ofInt 64 (a.toInt * b.toInt / 2 ^ 64)

/-- Division that truncates towards zero (17 Tables 17-5 and 17-6). -/
def divide64 (u : Bool) (a b : DWord) : DWord :=
  if b = 0 then 0xFFFFFFFFFFFFFFFF
  else if u then BitVec.ofNat 64 (a.toNat / b.toNat) else BitVec.ofInt 64 (a.toInt.tdiv b.toInt)

/-- The remainder of that division (17 Tables 17-5 and 17-6). -/
def remainder64 (u : Bool) (a b : DWord) : DWord :=
  if b = 0 then a
  else if u then BitVec.ofNat 64 (a.toNat % b.toNat) else BitVec.ofInt 64 (a.toInt.tmod b.toInt)

/-- Less than, signed or unsigned. -/
def less (u : Bool) (a b : DWord) : Bool := if u then a.ult b else a.slt b

/-- Shift amounts are bits [5:0] (17 R274). -/
def shamt (b : DWord) : Nat := b.toNat % 64

/-- Conditions of Table 17-7. -/
def scHolds (c : SCond) (a b : DWord) : Bool :=
  match c with
  | .eq => a == b
  | .ne => a != b
  | .lt => a.slt b
  | .le => a.sle b
  | .gt => b.slt a
  | .ge => b.sle a
  | .ltu => a.ult b
  | .leu => a.ule b
  | .gtu => b.ult a
  | .geu => b.ule a

/-- Leading zero bits of a word of `n` bits: `n` for 0. -/
def leadingZeros (n : Nat) (v : Nat) : Nat := if v = 0 then n else n - 1 - v.log2

/-- SADD. -/
def execSadd (c : Ctl) (d a : Reg) (b : Src) (s : State) : Host.Outcome State Fault Refusal :=
  scalarOp (.sadd c d a b) d a b (· + ·) s

/-- SSUB. -/
def execSsub (c : Ctl) (d a : Reg) (b : Src) (s : State) : Host.Outcome State Fault Refusal :=
  scalarOp (.ssub c d a b) d a b (· - ·) s

/-- SMUL. -/
def execSmul (c : Ctl) (d a : Reg) (b : Src) (s : State) : Host.Outcome State Fault Refusal :=
  scalarOp (.smul c d a b) d a b (· * ·) s

/-- SMULH. -/
def execSmulh (c : Ctl) (u : Bool) (d a : Reg) (b : Src) (s : State) : Host.Outcome State Fault Refusal :=
  scalarOp (.smulh c u d a b) d a b (mulHigh u) s

/-- SDIV. -/
def execSdiv (c : Ctl) (u : Bool) (d a : Reg) (b : Src) (s : State) : Host.Outcome State Fault Refusal :=
  scalarOp (.sdiv c u d a b) d a b (divide64 u) s

/-- SREM. -/
def execSrem (c : Ctl) (u : Bool) (d a : Reg) (b : Src) (s : State) : Host.Outcome State Fault Refusal :=
  scalarOp (.srem c u d a b) d a b (remainder64 u) s

/-- SAND. -/
def execSand (c : Ctl) (d a : Reg) (b : Src) (s : State) : Host.Outcome State Fault Refusal :=
  scalarOp (.sand c d a b) d a b (· &&& ·) s

/-- SOR. -/
def execSor (c : Ctl) (d a : Reg) (b : Src) (s : State) : Host.Outcome State Fault Refusal :=
  scalarOp (.sor c d a b) d a b (· ||| ·) s

/-- SXOR. -/
def execSxor (c : Ctl) (d a : Reg) (b : Src) (s : State) : Host.Outcome State Fault Refusal :=
  scalarOp (.sxor c d a b) d a b (· ^^^ ·) s

/-- SSHL. -/
def execSshl (c : Ctl) (d a : Reg) (b : Src) (s : State) : Host.Outcome State Fault Refusal :=
  scalarOp (.sshl c d a b) d a b (fun v w => v <<< shamt w) s

/-- SSHR. -/
def execSshr (c : Ctl) (d a : Reg) (b : Src) (s : State) : Host.Outcome State Fault Refusal :=
  scalarOp (.sshr c d a b) d a b (fun v w => v >>> shamt w) s

/-- SSRA. -/
def execSsra (c : Ctl) (d a : Reg) (b : Src) (s : State) : Host.Outcome State Fault Refusal :=
  scalarOp (.ssra c d a b) d a b (fun v w => v.sshiftRight (shamt w)) s

/-- SMIN. -/
def execSmin (c : Ctl) (u : Bool) (d a : Reg) (b : Src) (s : State) : Host.Outcome State Fault Refusal :=
  scalarOp (.smin c u d a b) d a b (fun v w => if less u w v then w else v) s

/-- SMAX. -/
def execSmax (c : Ctl) (u : Bool) (d a : Reg) (b : Src) (s : State) : Host.Outcome State Fault Refusal :=
  scalarOp (.smax c u d a b) d a b (fun v w => if less u v w then w else v) s

/-- SCMP (17 R275). -/
def execScmp (c : Ctl) (cond : SCond) (d a : Reg) (b : Src) (s : State) : Host.Outcome State Fault Refusal :=
  scalarOp (.scmp c cond d a b) d a b (fun v w => if scHolds cond v w then 1 else 0) s

/-- SSEL (17 R276). -/
def execSsel (c : Ctl) (d a b cc : Reg) (s : State) : Host.Outcome State Fault Refusal :=
  runInstr (.ssel c d a b cc) (fun x t =>
    .ok (x.setS d (fun k => if x.s cc k != 0 then x.s a k else x.s b k) t)) s

/-- SMOV (17 R276). -/
def execSmov (c : Ctl) (d a : Reg) (s : State) : Host.Outcome State Fault Refusal :=
  scalarOp1 (.smov c d a) d a id s

/-- The value of an immediate of SMOVI (16 R250). -/
def simmValue : SImm → DWord
  | .short w => w.signExtend 64
  | .long v => v

/-- SMOVI (17 R276). -/
def execSmovi (c : Ctl) (d : Reg) (v : SImm) (s : State) : Host.Outcome State Fault Refusal :=
  runInstr (.smovi c d v) (fun x t => .ok (x.setS d (fun _ => simmValue v) t)) s

/-- SCLZ (17 R276). -/
def execSclz (c : Ctl) (d a : Reg) (s : State) : Host.Outcome State Fault Refusal :=
  scalarOp1 (.sclz c d a) d a (fun v => BitVec.ofNat 64 (leadingZeros 64 v.toNat)) s

/-- SPOPC (17 R276). -/
def execSpopc (c : Ctl) (d a : Reg) (s : State) : Host.Outcome State Fault Refusal :=
  scalarOp1 (.spopc c d a) d a (fun v => BitVec.ofNat 64 (onesIn v.toNat 64)) s

/-- Bits [pos + wid − 1 : pos] of a value, zero- or sign-extended to `n` bits. -/
def extractField (n : Nat) (sgn : Bool) (v : Nat) (pos wid : Nat) : BitVec n :=
  let f := v / 2 ^ pos % 2 ^ wid
  if sgn && f.testBit (wid - 1) then BitVec.ofInt n ((f : Int) - 2 ^ wid) else BitVec.ofNat n f

/-- A value with bits [pos + wid − 1 : pos] replaced by the low bits of another. -/
def insertField (n : Nat) (old new : BitVec n) (pos wid : Nat) : BitVec n :=
  let mask := BitVec.ofNat n ((2 ^ wid - 1) * 2 ^ pos)
  (old &&& ~~~mask) ||| ((new <<< pos) &&& mask)

/-- SBFX (17 R276). -/
def execSbfx (c : Ctl) (sgn : Bool) (d a : Reg) (pos : BitVec 6) (wid : BitVec 7) (s : State) :
    Host.Outcome State Fault Refusal :=
  scalarOp1 (.sbfx c sgn d a pos wid) d a (fun v => extractField 64 sgn v.toNat pos.toNat wid.toNat) s

/-- SBFI (17 R276). -/
def execSbfi (c : Ctl) (d a : Reg) (pos : BitVec 6) (wid : BitVec 7) (s : State) :
    Host.Outcome State Fault Refusal :=
  runInstr (.sbfi c d a pos wid) (fun x t =>
    .ok (x.setS d (fun k => insertField 64 (x.s d k) (x.s a k) pos.toNat wid.toNat) t)) s

/-! ## Scratchpad -/

/-- The width in bytes of an integer type code (08 Table 8-4). -/
def intWidth : Ty → Nat
  | .n8 | .i8 => 1
  | .n16 | .i16 => 2
  | .n32 | .i32 => 4
  | _ => 8

/-- A loaded integer, extended to 64 bits: sign for I types, zero for N types. -/
def extendInt (t : Ty) (v : Nat) : DWord :=
  if t.isSigned then extractField 64 true v 0 (8 * intWidth t) else BitVec.ofNat 64 v

/-- The address of each slice (17 R277). -/
def Ctx.sliceAddr (x : Ctx) (a : Reg) (off : Off) (i : Nat) : Int := addrOf (x.s a i) off

/-- The addresses of the fragment's slices, checked before any slice acts (17 R277). -/
def Ctx.sliceAddrs (x : Ctx) (a : Reg) (off : Off) (w : Nat) : Except Stop (List Nat) := do
  let as := x.slices.map (x.sliceAddr a off)
  x.checkAddrs as w
  .ok (as.map Int.toNat)

/-- SLD (17 R277). -/
def execSld (c : Ctl) (ty : Ty) (d a : Reg) (off : Off) (s : State) : Host.Outcome State Fault Refusal :=
  runInstr (.sld c ty d a off) (fun x t => do
    let w := intWidth ty
    let as ← x.sliceAddrs a off w
    let val := fun k => extendInt ty ((spOf t x.pid).readNat (x.sliceAddr a off k).toNat w)
    .ok (x.bankCost as (x.setS d val t))) s

/-- SST (17 R277): slices in ascending order, so that the higher one's byte stands. -/
def execSst (c : Ctl) (ty : Ty) (a b : Reg) (off : Off) (s : State) : Host.Outcome State Fault Refusal :=
  runInstr (.sst c ty a b off) (fun x t => do
    let w := intWidth ty
    let as ← x.sliceAddrs a off w
    let store := fun (m : Memory) k => m.writeNat (x.sliceAddr a off k).toNat w (x.s b k).toNat
    let t1 := updSp t x.pid fun m => x.slices.foldl store m
    x.stored (as.map fun a => (a, w)) (x.bankCost as t1)) s

/-- One slice of SLDA: the scratchpad and what the slices have received so far (17 R278). -/
def sldaSlice (x : Ctx) (a : Reg) (off : Off) (w : Nat) (add : BitVec 6) (r : Memory × List (Nat × DWord)) (k : Nat) :
    Memory × List (Nat × DWord) :=
  let p := (x.sliceAddr a off k).toNat
  let old := r.1.readNat p w
  (r.1.writeNat p w ((((old : Int) + add.toInt) % (2 ^ (8 * w) : Nat)).toNat), r.2 ++ [(k, BitVec.ofNat 64 old)])

/-- SLDA (17 R278). -/
def execSlda (c : Ctl) (wide : Bool) (add : BitVec 6) (d a : Reg) (off : Off) (s : State) :
    Host.Outcome State Fault Refusal :=
  runInstr (.slda c wide add d a off) (fun x t => do
    let w := if wide then 8 else 4
    let as ← x.sliceAddrs a off w
    let (m, got) := x.slices.foldl (sldaSlice x a off w add) (spOf t x.pid, [])
    let val := fun k => ((got.find? fun g => g.1 == k).map (·.2)).getD 0
    let t1 := x.setS d val (updSp t x.pid fun _ => m)
    x.stored (as.map fun a => (a, w)) (x.bankCost as t1)) s

end Sys2Proof.Machine
end

