-- ==== Sys2Proof/Machine/Vector.lean ====
section
/-! DEFINITION. Vector integer arithmetic, bitwise and bit-field instructions and moves, major opcodes 0x40 to 0x5A and
0x5C (18 R281 to R285). -/

namespace Sys2Proof.Machine

open Sys2Proof

/-! ## Packed elements (18 R282) -/

/-- Element `j` of width `w` of a lane. -/
def elem (w : Nat) (v : Word) (j : Nat) : Nat := v.toNat / 2 ^ (w * j) % 2 ^ w

/-- A lane built from `n` elements of width `w`, from element `j` on. -/
def packFrom (w : Nat) (f : Nat → Nat) : Nat → Nat → Nat
  | 0, _ => 0
  | n + 1, j => f j % 2 ^ w * 2 ^ (w * j) + packFrom w f n (j + 1)

/-- A lane built from its elements. -/
def packLane (n : Nat) (f : Nat → Nat) : Word := BitVec.ofNat 32 (packFrom (32 / n) f n 0)

/-- The width of an element of a type. -/
def Ty.bits (t : Ty) : Nat := 32 / t.perLane

/-- An element of a lane as an integer of type `t`. -/
def intElem (t : Ty) (w : Nat) (v : Word) (j : Nat) : Int :=
  let e := elem w v j
  if t.isSigned && e.testBit (w - 1) then (e : Int) - (2 ^ w : Nat) else e

/-- An integer reduced to `w` bits. -/
def wrapBits (w : Nat) (n : Int) : Nat := (n % ((2 ^ w : Nat) : Int)).toNat

/-- An operation on the elements of two lanes, each read as an integer of type `t`. -/
def map2 (t : Ty) (f : Nat → Int → Int → Int) (a b : Word) : Word :=
  let n := t.perLane
  let w := 32 / n
  packLane n fun j => wrapBits w (f w (intElem t w a j) (intElem t w b j))

/-- An operation on the elements of one lane. -/
def map1 (t : Ty) (f : Nat → Int → Int) (a : Word) : Word := map2 t (fun w x _ => f w x) a 0

/-- A vector instruction with two sources (18 R281): every active lane from its own lanes. -/
def vectorOp (i : Instr) (d a : Reg) (b : Src) (f : Word → Word → Word) (s : State) :
    Host.Outcome State Fault Refusal :=
  runInstr i (fun x t => .ok (x.setV d (fun l => f (x.v a l) (x.vb b l)) t)) s

/-- A vector instruction with one source. -/
def vectorOp1 (i : Instr) (d a : Reg) (f : Word → Word) (s : State) : Host.Outcome State Fault Refusal :=
  runInstr i (fun x t => .ok (x.setV d (fun l => f (x.v a l)) t)) s

/-- A vector instruction with three sources. -/
def vectorOp3 (i : Instr) (d a b c : Reg) (f : Word → Word → Word → Word) (s : State) :
    Host.Outcome State Fault Refusal :=
  runInstr i (fun x t => .ok (x.setV d (fun l => f (x.v a l) (x.v b l) (x.v c l)) t)) s

/-- The value of an element read as unsigned, whatever its type. -/
def asNat (w : Nat) (n : Int) : Nat := wrapBits w n

/-- The least and greatest value of an integer type of width `w`. -/
def tyMin (t : Ty) (w : Nat) : Int := if t.isSigned then -((2 ^ (w - 1) : Nat) : Int) else 0
def tyMax (t : Ty) (w : Nat) : Int := if t.isSigned then ((2 ^ (w - 1) : Nat) : Int) - 1 else ((2 ^ w : Nat) : Int) - 1

/-- A value clamped to a type's range. -/
def clampTo (t : Ty) (w : Nat) (n : Int) : Int := max (tyMin t w) (min (tyMax t w) n)

/-- Elements of the active lanes that clamping changes (10 R191, 18 Table 18-1). -/
def clampCount (x : Ctx) (t : Ty) (f : Int → Int → Int) (a : Reg) (b : Src) : Nat :=
  let w := 32 / t.perLane
  (x.lanes.map fun l => (List.range t.perLane).countP fun j =>
    let n := f (intElem t w (x.v a l) j) (intElem t w (x.vb b l) j)
    clampTo t w n != n).sum

/-- A saturating instruction, which counts each clamped element (18 Table 18-1). -/
def saturatingOp (i : Instr) (t : Ty) (d a : Reg) (b : Src) (f : Int → Int → Int) (s : State) :
    Host.Outcome State Fault Refusal :=
  runInstr i (fun x u =>
    .ok (x.count ⟨clampCount x t f a b, 0, 0⟩
      (x.setV d (fun l => map2 t (fun w p q => clampTo t w (f p q)) (x.v a l) (x.vb b l)) u))) s

/-- VADD. -/
def execVadd (c : Ctl) (t : Ty) (d a : Reg) (b : Src) (s : State) : Host.Outcome State Fault Refusal :=
  vectorOp (.vadd c t d a b) d a b (map2 t fun _ x y => x + y) s

/-- VSUB. -/
def execVsub (c : Ctl) (t : Ty) (d a : Reg) (b : Src) (s : State) : Host.Outcome State Fault Refusal :=
  vectorOp (.vsub c t d a b) d a b (map2 t fun _ x y => x - y) s

/-- VMUL. -/
def execVmul (c : Ctl) (t : Ty) (d a : Reg) (b : Src) (s : State) : Host.Outcome State Fault Refusal :=
  vectorOp (.vmul c t d a b) d a b (map2 t fun _ x y => x * y) s

/-- VMULH: bits [2w−1:w] of the exact product. -/
def execVmulh (c : Ctl) (t : Ty) (d a : Reg) (b : Src) (s : State) : Host.Outcome State Fault Refusal :=
  vectorOp (.vmulh c t d a b) d a b (map2 t fun w x y => x * y / ((2 ^ w : Nat) : Int)) s

/-- VMAD. -/
def execVmad (c : Ctl) (t : Ty) (d a b cc : Reg) (s : State) : Host.Outcome State Fault Refusal :=
  vectorOp3 (.vmad c t d a b cc) d a b cc
    (fun x y z => map2 t (fun _ p q => p + q) (map2 t (fun _ p q => p * q) x y) z) s

/-- VADDS. -/
def execVadds (c : Ctl) (t : Ty) (d a : Reg) (b : Src) (s : State) : Host.Outcome State Fault Refusal :=
  saturatingOp (.vadds c t d a b) t d a b (· + ·) s

/-- VSUBS. -/
def execVsubs (c : Ctl) (t : Ty) (d a : Reg) (b : Src) (s : State) : Host.Outcome State Fault Refusal :=
  saturatingOp (.vsubs c t d a b) t d a b (· - ·) s

/-- VAND (18 R284). -/
def execVand (c : Ctl) (d a : Reg) (b : Src) (s : State) : Host.Outcome State Fault Refusal :=
  vectorOp (.vand c d a b) d a b (· &&& ·) s

/-- VOR (18 R284). -/
def execVor (c : Ctl) (d a : Reg) (b : Src) (s : State) : Host.Outcome State Fault Refusal :=
  vectorOp (.vor c d a b) d a b (· ||| ·) s

/-- VXOR (18 R284). -/
def execVxor (c : Ctl) (d a : Reg) (b : Src) (s : State) : Host.Outcome State Fault Refusal :=
  vectorOp (.vxor c d a b) d a b (· ^^^ ·) s

/-- VNOT (18 R284). -/
def execVnot (c : Ctl) (d a : Reg) (s : State) : Host.Outcome State Fault Refusal :=
  vectorOp1 (.vnot c d a) d a (~~~ ·) s

/-- VSHL: the amount is b mod w. -/
def execVshl (c : Ctl) (t : Ty) (d a : Reg) (b : Src) (s : State) : Host.Outcome State Fault Refusal :=
  vectorOp (.vshl c t d a b) d a b (map2 t fun w x y => x * ((2 ^ (asNat w y % w) : Nat) : Int)) s

/-- VSHR: zeros shifted in. -/
def execVshr (c : Ctl) (t : Ty) (d a : Reg) (b : Src) (s : State) : Host.Outcome State Fault Refusal :=
  vectorOp (.vshr c t d a b) d a b (map2 t fun w x y => ((asNat w x / 2 ^ (asNat w y % w) : Nat) : Int)) s

/-- An element read as signed. -/
def asSigned (w : Nat) (n : Int) : Int :=
  let e := wrapBits w n
  if e.testBit (w - 1) then (e : Int) - (2 ^ w : Nat) else e

/-- VSRA: the sign bit shifted in. -/
def execVsra (c : Ctl) (t : Ty) (d a : Reg) (b : Src) (s : State) : Host.Outcome State Fault Refusal :=
  vectorOp (.vsra c t d a b) d a b (map2 t fun w x y => asSigned w x / ((2 ^ (asNat w y % w) : Nat) : Int)) s

/-- VMIN. -/
def execVmin (c : Ctl) (t : Ty) (d a : Reg) (b : Src) (s : State) : Host.Outcome State Fault Refusal :=
  vectorOp (.vmin c t d a b) d a b (map2 t fun _ x y => min x y) s

/-- VMAX. -/
def execVmax (c : Ctl) (t : Ty) (d a : Reg) (b : Src) (s : State) : Host.Outcome State Fault Refusal :=
  vectorOp (.vmax c t d a b) d a b (map2 t fun _ x y => max x y) s

/-- VABS. -/
def execVabs (c : Ctl) (t : Ty) (d a : Reg) (s : State) : Host.Outcome State Fault Refusal :=
  vectorOp1 (.vabs c t d a) d a (map1 t fun _ x => x.natAbs) s

/-- VNEG. -/
def execVneg (c : Ctl) (t : Ty) (d a : Reg) (s : State) : Host.Outcome State Fault Refusal :=
  vectorOp1 (.vneg c t d a) d a (map1 t fun _ x => -x) s

/-- VCLZ. -/
def execVclz (c : Ctl) (t : Ty) (d a : Reg) (s : State) : Host.Outcome State Fault Refusal :=
  vectorOp1 (.vclz c t d a) d a (map1 t fun w x => leadingZeros w (asNat w x)) s

/-- VPOPC. -/
def execVpopc (c : Ctl) (t : Ty) (d a : Reg) (s : State) : Host.Outcome State Fault Refusal :=
  vectorOp1 (.vpopc c t d a) d a (map1 t fun w x => onesIn (asNat w x) w) s

/-- VBFX (18 R284). -/
def execVbfx (c : Ctl) (sgn : Bool) (d a : Reg) (pos : BitVec 5) (wid : BitVec 6) (s : State) :
    Host.Outcome State Fault Refusal :=
  vectorOp1 (.vbfx c sgn d a pos wid) d a (fun v => extractField 32 sgn v.toNat pos.toNat wid.toNat) s

/-- VBFI (18 R284). -/
def execVbfi (c : Ctl) (d a : Reg) (pos : BitVec 5) (wid : BitVec 6) (s : State) :
    Host.Outcome State Fault Refusal :=
  runInstr (.vbfi c d a pos wid) (fun x t =>
    .ok (x.setV d (fun l => insertField 32 (x.v d l) (x.v a l) pos.toNat wid.toNat) t)) s

/-- The carry out of each element's sum with the low bit of the third source (18 Table 18-1). -/
def carryLane (t : Ty) (x y z : Word) : Word :=
  let n := t.perLane
  let w := 32 / n
  packLane n fun j => (elem w x j + elem w y j + elem w z j % 2) / 2 ^ w

/-- VADDC. -/
def execVaddc (c : Ctl) (t : Ty) (d a b cc : Reg) (s : State) : Host.Outcome State Fault Refusal :=
  vectorOp3 (.vaddc c t d a b cc) d a b cc (carryLane t) s

/-- VMOV (18 R285). -/
def execVmov (c : Ctl) (d a : Reg) (s : State) : Host.Outcome State Fault Refusal :=
  vectorOp1 (.vmov c d a) d a id s

/-- What VBCAST gives a lane: its own slice's copy, or X1 (18 R285). -/
def Ctx.bcast (x : Ctx) (a : Src) (l : Nat) : Word :=
  match a with
  | .reg r => (x.s r (sliceOf l)).setWidth 32
  | .imm w => w

/-- VBCAST (18 R285). -/
def execVbcast (c : Ctl) (d : Reg) (a : Src) (s : State) : Host.Outcome State Fault Refusal :=
  runInstr (.vbcast c d a) (fun x t => .ok (x.setV d (x.bcast a) t)) s

/-- VLID (18 R285). -/
def execVlid (c : Ctl) (d : Reg) (s : State) : Host.Outcome State Fault Refusal :=
  runInstr (.vlid c d) (fun x t => .ok (x.setV d (fun l => BitVec.ofNat 32 l) t)) s

/-- Bit `l` of lane `l`'s slice's copy of a mask register. -/
def Ctx.laneBit (x : Ctx) (c : Reg) (l : Nat) : Bool := (x.s c (sliceOf l)).getLsbD l

/-- VSEL (18 R285). -/
def execVsel (c : Ctl) (d a b cc : Reg) (s : State) : Host.Outcome State Fault Refusal :=
  runInstr (.vsel c d a b cc) (fun x t =>
    .ok (x.setV d (fun l => if x.laneBit cc l then x.v a l else x.v b l) t)) s

/-- VMASK (18 R285). -/
def execVmask (c : Ctl) (d a : Reg) (s : State) : Host.Outcome State Fault Refusal :=
  runInstr (.vmask c d a) (fun x t =>
    .ok (x.setV d (fun l => if x.laneBit a l then 0xFFFFFFFF else 0) t)) s

end Sys2Proof.Machine
end

