-- ==== Sys2Proof/Machine/FloatOps.lean ====
section
/-! DEFINITION. Vector compare and float instructions, major opcodes 0x5B and 0x70 to 0x81 (18 R286 to R290). -/

namespace Sys2Proof.Machine

open Sys2Proof

/-- Sum of the events of all active lanes. -/
def Ctx.tally (x : Ctx) (f : Nat → Counts) : Counts := x.lanes.foldl (fun c l => c.add (f l)) Counts.zero

/-- The elements of a lane's result. -/
def elemsOf (n : Nat) (f : Nat → Elem) : Word := packLane n fun j => (f j).1

/-- The events of a lane's result. -/
def countsOf (n : Nat) (f : Nat → Elem) : Counts :=
  (List.range n).foldl (fun c j => c.add (f j).2) Counts.zero

/-- A float instruction: `f` gives element `j` of lane `l` (18 R287). -/
def floatLanes (i : Instr) (t : Ty) (d : Reg) (f : Ctx → Fmt → Nat → Nat → Elem) (s : State) :
    Host.Outcome State Fault Refusal :=
  runInstr i (fun x u =>
    let n := t.perLane
    .ok (x.count (x.tally fun l => countsOf n (f x (fmtOf t) l)) (x.setV d (fun l => elemsOf n (f x (fmtOf t) l)) u))) s

/-- A source element under FTZ (10 R186). -/
def Ctx.fin (x : Ctx) (f : Fmt) (v : Word) (j : Nat) : Nat := f.input (ftzOf x.g.fpcsr) (elem f.width v j)

/-- A float instruction with two sources on values. -/
def floatOp2 (i : Instr) (t : Ty) (d a : Reg) (b : Src) (f : Fmt → RMode → Bool → FVal → FVal → Elem) (s : State) :
    Host.Outcome State Fault Refusal :=
  floatLanes i t d (fun x m l j =>
    f m (rmOf x.g.fpcsr) (ftzOf x.g.fpcsr) (m.value (x.fin m (x.v a l) j)) (m.value (x.fin m (x.vb b l) j))) s

/-- A float instruction with one source on a value. -/
def floatOp1 (i : Instr) (t : Ty) (d a : Reg) (f : Fmt → RMode → Bool → FVal → Elem) (s : State) :
    Host.Outcome State Fault Refusal :=
  floatLanes i t d (fun x m l j => f m (rmOf x.g.fpcsr) (ftzOf x.g.fpcsr) (m.value (x.fin m (x.v a l) j))) s

/-- FADD. -/
def execFadd (c : Ctl) (t : Ty) (d a : Reg) (b : Src) (s : State) : Host.Outcome State Fault Refusal :=
  floatOp2 (.fadd c t d a b) t d a b (fun f m z x y => f.addV m z x y) s

/-- FSUB. -/
def execFsub (c : Ctl) (t : Ty) (d a : Reg) (b : Src) (s : State) : Host.Outcome State Fault Refusal :=
  floatOp2 (.fsub c t d a b) t d a b (fun f m z x y => f.addV m z x y.negate) s

/-- FMUL. -/
def execFmul (c : Ctl) (t : Ty) (d a : Reg) (b : Src) (s : State) : Host.Outcome State Fault Refusal :=
  floatOp2 (.fmul c t d a b) t d a b (fun f m z x y => f.ofVal m z (x.mul y)) s

/-- FFMA: the product is not rounded. -/
def execFfma (c : Ctl) (t : Ty) (d a b cc : Reg) (s : State) : Host.Outcome State Fault Refusal :=
  floatLanes (.ffma c t d a b cc) t d (fun x m l j =>
    let v := fun r => m.value (x.fin m (x.v r l) j)
    m.addV (rmOf x.g.fpcsr) (ftzOf x.g.fpcsr) ((v a).mul (v b)) (v cc)) s

/-- FMIN (18 R288). -/
def execFmin (c : Ctl) (t : Ty) (d a : Reg) (b : Src) (s : State) : Host.Outcome State Fault Refusal :=
  floatLanes (.fmin c t d a b) t d (fun x m l j =>
    plainElem (m.minMax false (x.fin m (x.v a l) j) (x.fin m (x.vb b l) j))) s

/-- FMAX (18 R288). -/
def execFmax (c : Ctl) (t : Ty) (d a : Reg) (b : Src) (s : State) : Host.Outcome State Fault Refusal :=
  floatLanes (.fmax c t d a b) t d (fun x m l j =>
    plainElem (m.minMax true (x.fin m (x.v a l) j) (x.fin m (x.vb b l) j))) s

/-- FABS (18 R288). -/
def execFabs (c : Ctl) (t : Ty) (d a : Reg) (s : State) : Host.Outcome State Fault Refusal :=
  floatLanes (.fabs c t d a) t d (fun x m l j =>
    plainElem (x.fin m (x.v a l) j % 2 ^ (m.width - 1))) s

/-- FNEG (18 R288). -/
def execFneg (c : Ctl) (t : Ty) (d a : Reg) (s : State) : Host.Outcome State Fault Refusal :=
  floatLanes (.fneg c t d a) t d (fun x m l j =>
    plainElem (x.fin m (x.v a l) j ^^^ 2 ^ (m.width - 1))) s

/-- FDIV. -/
def execFdiv (c : Ctl) (t : Ty) (d a : Reg) (b : Src) (s : State) : Host.Outcome State Fault Refusal :=
  floatOp2 (.fdiv c t d a b) t d a b (fun f _ z x y => f.divV z x y) s

/-- FRCP. -/
def execFrcp (c : Ctl) (t : Ty) (d a : Reg) (s : State) : Host.Outcome State Fault Refusal :=
  floatOp1 (.frcp c t d a) t d a (fun f _ z x => f.divV z oneVal x) s

/-- FRSQ. -/
def execFrsq (c : Ctl) (t : Ty) (d a : Reg) (s : State) : Host.Outcome State Fault Refusal :=
  floatOp1 (.frsq c t d a) t d a (fun f _ z x => f.rsqrtV z x) s

/-- FSQRT. -/
def execFsqrt (c : Ctl) (t : Ty) (d a : Reg) (s : State) : Host.Outcome State Fault Refusal :=
  floatOp1 (.fsqrt c t d a) t d a (fun f _ z x => f.sqrtV z x) s

/-- FEXP2. -/
def execFexp2 (c : Ctl) (t : Ty) (d a : Reg) (s : State) : Host.Outcome State Fault Refusal :=
  floatOp1 (.fexp2 c t d a) t d a (fun f _ z x => f.exp2V z x) s

/-- FLOG2. -/
def execFlog2 (c : Ctl) (t : Ty) (d a : Reg) (s : State) : Host.Outcome State Fault Refusal :=
  floatOp1 (.flog2 c t d a) t d a (fun f _ z x => f.log2V z x) s

/-- FFLOOR. -/
def execFfloor (c : Ctl) (t : Ty) (d a : Reg) (s : State) : Host.Outcome State Fault Refusal :=
  floatOp1 (.ffloor c t d a) t d a (fun f _ _ x => f.floorV x) s

/-- FFRAC. -/
def execFfrac (c : Ctl) (t : Ty) (d a : Reg) (s : State) : Host.Outcome State Fault Refusal :=
  floatOp1 (.ffrac c t d a) t d a (fun f _ z x => f.fracV z x) s

/-- FSCALE: n is the element of the second source in the same position, signed. -/
def execFscale (c : Ctl) (t : Ty) (d a : Reg) (b : Src) (s : State) : Host.Outcome State Fault Refusal :=
  floatLanes (.fscale c t d a b) t d (fun x m l j =>
    m.scaleV (rmOf x.g.fpcsr) (ftzOf x.g.fpcsr) (m.value (x.fin m (x.v a l) j))
      (intOf true m.width (elem m.width (x.vb b l) j))) s

/-- FCLASS: the bits as stored. -/
def execFclass (c : Ctl) (t : Ty) (d a : Reg) (s : State) : Host.Outcome State Fault Refusal :=
  floatLanes (.fclass c t d a) t d (fun x m l j => plainElem (m.classOf (elem m.width (x.v a l) j))) s

/-! ## Compare (18 R286) -/

/-- A condition on the result of a comparison: less, equal, unordered. -/
def vcHolds (c : VCond) (lt eq un : Bool) : Bool :=
  match c with
  | .eq => eq && !un
  | .ne => !eq || un
  | .lt => lt && !un
  | .le => (lt || eq) && !un
  | .gt => !lt && !eq && !un
  | .ge => !lt && !un
  | .un => un

/-- The comparison key of an F32 code: +0 and −0 are equal. -/
def f32Key (c : Nat) : Int :=
  let m : Int := (c % 2 ^ 31 : Nat)
  if c.testBit 31 then -m else m

/-- The condition holds between two lanes. -/
def compareLanes (ftz : Bool) (t : LTy) (c : VCond) (a b : Word) : Bool :=
  match t with
  | .i32 => vcHolds c (a.slt b) (a == b) false
  | .n32 => vcHolds c (a.ult b) (a == b) false
  | .f32 =>
    let p := fF32.input ftz a.toNat
    let q := fF32.input ftz b.toNat
    vcHolds c (decide (f32Key p < f32Key q)) (f32Key p == f32Key q) (fF32.isNan p || fF32.isNan q)

/-- A mask over the active lanes, as a scalar. -/
def Ctx.maskOf (x : Ctx) (f : Nat → Bool) : DWord :=
  (BitVec.ofFnLE fun l : Fin 32 => x.on l.val && f l.val : Word).setWidth 64

/-- VCMP (18 R286). -/
def execVcmp (c : Ctl) (t : LTy) (cond : VCond) (d a : Reg) (b : Src) (s : State) :
    Host.Outcome State Fault Refusal :=
  runInstr (.vcmp c t cond d a b) (fun x u =>
    let m := x.maskOf fun l => compareLanes (ftzOf x.g.fpcsr) t cond (x.v a l) (x.vb b l)
    .ok (x.setS d (fun _ => m) u)) s

end Sys2Proof.Machine
end

