-- ==== Sys2Proof/Machine/Convert.lean ====
section
/-! DEFINITION. Conversions between formats, major opcodes 0x82 to 0x85 (18 R291 to R293, 10 R184, R185). -/

namespace Sys2Proof.Machine

open Sys2Proof

/-- The pairs of (destination, source) element numbers that a conversion moves (18 R291). -/
def convPairs (nd ns part : Nat) : List (Nat × Nat) :=
  if nd = ns then (List.range nd).map fun j => (j, j)
  else if ns < nd then (List.range ns).map fun j => (part * ns + j, j)
  else (List.range nd).map fun j => (j, part * nd + j)

/-- The conversion of one lane so far: its elements by number, its events and its stochastic state. -/
structure ConvLane where
  elems : List (Nat × Nat)
  c : Counts
  sr : Word

/-- Convert one element: under `sr` the lane's state advances first and rounds (10 R185). -/
def convStep (sr : Bool) (rm : RMode) (conv : Rnd → Nat → Elem) (src : Nat → Nat) (a : ConvLane) (p : Nat × Nat) :
    ConvLane :=
  let next := if sr then srNext a.sr else a.sr
  let r : Rnd := if sr then .sr (next.toNat / 2 ^ 8) else .mode rm
  let e := conv r (src p.2)
  ⟨a.elems ++ [(p.1, e.1)], a.c.add e.2, next⟩

/-- Convert a lane's elements in ascending order. -/
def Ctx.convLane (x : Ctx) (sr : Bool) (dt st : Ty) (part : BitVec 3) (conv : Nat → Rnd → Nat → Elem) (a : Reg)
    (l : Nat) : ConvLane :=
  (convPairs dt.perLane st.perLane part.toNat).foldl
    (convStep (sr && srOf x.g.fpcsr) (rmOf x.g.fpcsr) (conv l) (elem (32 / st.perLane) (x.v a l)))
    ⟨[], Counts.zero, vget x.g.srs l 0⟩

/-- The lane that a conversion leaves: the other elements of a wider destination keep their value (18 R291). -/
def Ctx.convWord (x : Ctx) (dt : Ty) (d : Reg) (l : Nat) (r : ConvLane) : Word :=
  packLane dt.perLane fun k =>
    match r.elems.find? fun e => e.1 == k with
    | some e => e.2
    | none => elem (32 / dt.perLane) (x.v d l) k

/-- A conversion instruction: `sr` says that it narrows into a float or BX destination. -/
def convert (i : Instr) (sr : Bool) (dt : Ty) (d a : Reg) (st : Ty) (part : BitVec 3)
    (conv : Ctx → Nat → Rnd → Nat → Elem) (s : State) : Host.Outcome State Fault Refusal :=
  runInstr i (fun x u =>
    let r := x.convLane sr dt st part (conv x) a
    let u1 := x.setV d (fun l => x.convWord dt d l (r l)) u
    let next := fun (g : Gang) l => if x.on l then (r l).sr else vget g.srs l 0
    let u2 := x.updG (fun g => { g with srs := Vector.ofFn fun l : Fin 32 => next g l.val }) u1
    .ok (x.count (x.tally fun l => (r l).c) u2)) s

/-- A conversion between float formats narrows (10 R184): the destination lacks range or precision of the source. -/
def floatNarrows (dt st : Ty) : Bool :=
  let d := fmtOf dt
  let s := fmtOf st
  decide (d.mb < s.mb ∨ d.eb < s.eb ∨ (s.eb = d.eb ∧ s.mb < d.mb ∧ d.emin > s.emin))

/-- CVT of one element (18 R292). -/
def cvtElem (dt st : Ty) (ftz : Bool) (r : Rnd) (c : Nat) : Elem :=
  let v := (fmtOf st).value ((fmtOf st).input ftz c)
  if floatNarrows dt st then (fmtOf dt).narrow r ftz v else (fmtOf dt).ofVal .rne ftz v

/-- CVT (18 R292). -/
def execCvt (c : Ctl) (dt : Ty) (d a : Reg) (st : Ty) (part : BitVec 3) (s : State) :
    Host.Outcome State Fault Refusal :=
  convert (.cvt c dt d a st part) (floatNarrows dt st) dt d a st part
    (fun x _ r e => cvtElem dt st (ftzOf x.g.fpcsr) r e) s

/-- An integer as the bits of an element. -/
def intElemOf (w : Nat) (r : Int × Counts) : Elem := (wrapBits w r.1, r.2)

/-- CVTI of one element (18 R292): from a float by Narrow, from an integer exactly, by its low bits or clamped. -/
def cvtiElem (dt st : Ty) (sat ftz : Bool) (r : Rnd) (c : Nat) : Elem :=
  let w := 32 / dt.perLane
  if st.isFloat then
    intElemOf w (narrowInt r (tyMin dt w) (tyMax dt w) ((fmtOf st).value ((fmtOf st).input ftz c)))
  else
    let v := intOf st.isSigned (32 / st.perLane) c
    if sat && clampTo dt w v != v then (wrapBits w (clampTo dt w v), oneSat) else plainElem (wrapBits w v)

/-- CVTI (18 R292). -/
def execCvti (c : Ctl) (dt : Ty) (d a : Reg) (st : Ty) (part : BitVec 3) (sat : Bool) (s : State) :
    Host.Outcome State Fault Refusal :=
  convert (.cvti c dt d a st part sat) false dt d a st part
    (fun x _ r e => cvtiElem dt st sat (ftzOf x.g.fpcsr) r e) s

/-- A conversion from an integer to a float narrows (10 R184). -/
def intNarrows (dt st : Ty) : Bool :=
  let w := 32 / st.perLane
  decide ((fmtOf dt).mb + 1 < (if st.isSigned then w - 1 else w))

/-- CVTF of one element (18 R292). -/
def cvtfElem (dt st : Ty) (ftz : Bool) (r : Rnd) (c : Nat) : Elem :=
  let v := intOf st.isSigned (32 / st.perLane) c
  (fmtOf dt).narrow r ftz (.fin (decide (v < 0)) v.natAbs 0)

/-- CVTF (18 R292). -/
def execCvtf (c : Ctl) (dt : Ty) (d a : Reg) (st : Ty) (part : BitVec 3) (s : State) :
    Host.Outcome State Fault Refusal :=
  convert (.cvtf c dt d a st part) (intNarrows dt st) dt d a st part
    (fun x _ r e => cvtfElem dt st (ftzOf x.g.fpcsr) r e) s

/-- A value times 2^k. -/
def FVal.scale2 (v : FVal) (k : Int) : FVal :=
  match v with
  | .fin s m e => .fin s m (e + k)
  | v => v

/-- CVTBX of one element (18 R293). -/
def cvtbxElem (dt st : Ty) (ftz : Bool) (k : Int) (r : Rnd) (c : Nat) : Elem :=
  let w := 32 / dt.perLane
  let v := ((fmtOf st).value ((fmtOf st).input ftz c)).scale2 k
  intElemOf w (narrowInt r (-((2 ^ (w - 1) : Nat) : Int)) (((2 ^ (w - 1) : Nat) : Int) - 1) v)

/-- CVTBX (18 R293): the base exponent is the slice's own copy's low byte, signed. -/
def execCvtbx (c : Ctl) (dt : Ty) (d a b : Reg) (st : Ty) (part : BitVec 3) (delta : BitVec 4) (s : State) :
    Host.Outcome State Fault Refusal :=
  convert (.cvtbx c dt d a b st part delta) true dt d a st part
    (fun x l r e =>
      let base := ((x.s b (sliceOf l)).setWidth 8 : BitVec 8).toInt
      cvtbxElem dt st (ftzOf x.g.fpcsr) (delta.toNat - base) r e) s

end Sys2Proof.Machine
end

