-- ==== Sys2Proof/Machine/Release.lean ====
section
/-! DEFINITION. Releases and acquires (09 R158, R159, R170 to R172), and the signatures and held writes of redundant
panels that a release compares (13 R226 to R228). -/

namespace Sys2Proof.Machine

open Sys2Proof

/-! ## Signatures -/

/-- One bit of CRC-64/ECMA-182 (13 R226). -/
def crcBit (c : DWord) : DWord := if c.msb then (c <<< 1) ^^^ 0x42F0E1EBA9EA3693 else c <<< 1

/-- One byte. -/
def crcByte (c : DWord) (b : Byte) : DWord :=
  crcBit (crcBit (crcBit (crcBit (crcBit (crcBit (crcBit (crcBit (c ^^^ (b.setWidth 64 <<< 56)))))))))

/-- The CRC of bytes, from 0. -/
def crc64 (bs : List Byte) : DWord := bs.foldl crcByte 0

/-- The place of a feed: sealing order of its batch, issue order of its command, then its key (13 R226). -/
def feedRank (order : List Nat) (f : Feed) : Nat × Nat × Nat := ((order.findIdx? (· == f.bid)).getD order.length, f.cmd, f.key)

/-- One rank comes before another. -/
def rankLt (a b : Nat × Nat × Nat) : Bool :=
  decide (a.1 < b.1 ∨ (a.1 = b.1 ∧ (a.2.1 < b.2.1 ∨ (a.2.1 = b.2.1 ∧ a.2.2 < b.2.2))))

/-- Insert a feed before the first one of greater rank. -/
def insertFeed (order : List Nat) (f : Feed) : List Feed → List Feed
  | [] => [f]
  | x :: xs => if rankLt (feedRank order f) (feedRank order x) then f :: x :: xs else x :: insertFeed order f xs

/-- The batches of a gang that lie below the bounds of their classes, in sealing order: those that a release waits for. -/
def sealedBelow (g : Gang) (bounds : List (Nat × Nat)) : List Nat :=
  (g.sealedBids.filter fun b => decide (b.2.2 < boundOf bounds b.2.1)).map (·.1)

/-- The signature of a gang (13 R226), over the batches that a release with these bounds waits for. -/
def signature (g : Gang) (bounds : List (Nat × Nat)) : DWord :=
  let order := sealedBelow g bounds
  crc64 (((g.feeds.filter fun f => order.contains f.bid).foldl (fun acc f => insertFeed order f acc) []).flatMap (·.bytes))

/-- Bounds below which every seal lies that has been made. -/
def allSeals (s : State) : List (Nat × Nat) := allClasses.map fun c => (clsNo c, s.nextId)

/-! ## The comparison of a pair -/

/-- Sort held writes into sealing order (13 R228). -/
def heldRank (order : List Nat) (h : Held) : Nat := (order.findIdx? (· == h.bid)).getD order.length

/-- Insert a held write after those of its rank. -/
def insertHeld (order : List Nat) (h : Held) : List Held → List Held
  | [] => [h]
  | x :: xs => if heldRank order h < heldRank order x then h :: x :: xs else x :: insertHeld order h xs

/-- The held writes of the gang's batches that a release waits for, in sealing order. -/
def heldOf (p : Panel) (gi : Nat) (g : Gang) (bounds : List (Nat × Nat)) : List Held :=
  let order := sealedBelow g bounds
  (p.held.filter fun h => h.gang == gi && order.contains h.bid).foldl (fun acc h => insertHeld order h acc) []

/-- The held writes of the gang's batches that a release waits for leave the hold area, and their entries are free (13
R227). -/
def dropHeld (gi : Nat) (bounds : List (Nat × Nat)) (p : Panel) : Panel :=
  let bids := ((p.gangs[gi]?).map fun g => sealedBelow g bounds).getD []
  { p with
    held := p.held.filter fun h => !(h.gang == gi && bids.contains h.bid)
    heldCount := p.heldCount.filter fun h => !bids.contains h.1 }

/-- A gang's signature starts again after a match (13 R228): what later seals hold counts for the next one. -/
def matched (bounds : List (Nat × Nat)) (g : Gang) : Gang :=
  { g with
    feeds := g.feeds.filter fun f => !(sealedBelow g bounds).contains f.bid
    sealedBids := g.sealedBids.filter fun b => decide (boundOf bounds b.2.1 ≤ b.2.2)
    releases := g.releases + 1 }

/-- Write a gang's held writes to memory by a command of their own; its id, when there is one (13 R228). -/
def sendHeld (s : State) (pid gi : Nat) (bounds : List (Nat × Nat)) : State × Option Nat :=
  match getPanel s pid, getGang s pid gi with
  | some p, some g =>
    match heldOf p gi g bounds with
    | [] => (s, none)
    | ws =>
      let cmd := mkCmd s.nextId (.gangs pid []) p.core .copy (.heldOut ws) p.hdr.asid g.tid p.alph
      ({ s with cmds := s.cmds ++ [{ cmd with unit := gi }], nextId := s.nextId + 1 }, some s.nextId)
  | _, _ => (s, none)

/-- The fragment of a gang whose release waits for its partner and is the next of the gang's count of releases: the one that
has waited longest, ties to the lower entry (13 R228). A fragment whose release has matched waits no longer. -/
def pairWaiter (g : Gang) : Option Nat :=
  (List.range g.split.length).foldl (fun best k =>
    match g.split[k]?, best.bind (g.split[·]?) with
    | some e, some b => if e.valid && e.blk == some .pair && e.paired.isNone && decide (e.since < b.since) then some k
        else best
    | some e, none => if e.valid && e.blk == some .pair && e.paired.isNone then some k else best
    | none, _ => best) none

/-- The bounds of the release that a gang waits in; those of every seal for a gang that has exited. -/
def waiterBounds (s : State) (g : Gang) : List (Nat × Nat) :=
  match (pairWaiter g).bind (g.split[·]?) with
  | some e => e.sealed
  | none => allSeals s

/-- Mark the waiting fragment as matched (13 R228). -/
def markPaired (c : Option Nat) (g : Gang) : Gang :=
  match pairWaiter g with
  | some k => { g with split := modifyAt (fun e => { e with paired := some c }) g.split k }
  | none => g

/-- The signatures of both members match: held writes are sent, both start again, and a waiting partner goes on. The
command that the primary waits for is returned. `bp` and `bs` bound the seals of the primary's and the secondary's
release. -/
def pairMatch (s : State) (prim sec gi : Nat) (bp bs : List (Nat × Nat)) : State × Option Nat :=
  let (s1, c) := sendHeld s prim gi bp
  let s2 := updGang (updPanel s1 prim (dropHeld gi bp)) prim gi fun g => markPaired c (matched bp g)
  (updGang (updPanel s2 sec (dropHeld gi bs)) sec gi fun g => markPaired none (matched bs g), c)

/-- They differ: the held writes are discarded and a waiting partner takes SIGNATURE_MISMATCH (13 R228). -/
def pairDiffer (s : State) (prim sec other gi : Nat) (bp bs : List (Nat × Nat)) : State :=
  let s1 := updPanel (updPanel s prim (dropHeld gi bp)) sec (dropHeld gi bs)
  match getGang s1 other gi with
  | some g =>
    match pairWaiter g with
    | some ei => takeTrap s1 other gi ei (mkTrap cSignature (signature g (waiterBounds s g))) true
    | none => s1
  | none => s1

/-- Keep the seals of a release that waits. -/
def Ctx.keepSeals (x : Ctx) (bounds : List (Nat × Nat)) (paired : Option (Option Nat)) (s : State) : State :=
  x.updEntry (fun e => { e with sealed := bounds, paired := paired }) s

/-- What an instruction does to a gang on another core brings that core's active set up to date at once (07 R130). -/
def Ctx.refreshOther (x : Ctx) (core : Nat) (s : State) : State := if core = x.p.core then s else refreshCore s core

/-- The part of a release that compares a redundant pair (13 R228). -/
def Ctx.pairStep (x : Ctx) (bounds : List (Nat × Nat)) (cont : State → Body) (s : State) : Body :=
  match x.e.paired with
  | some none => cont s
  | some (some c) =>
    if (getCmd s c).isSome then .error (.park (x.keepSeals bounds (some (some c)) s) (.heldWrites c)) else cont s
  | none =>
    match x.p.partner.bind fun m => (getPanel s m).bind fun q => (q.gangs[x.gi]?).map fun g => (m, q, g) with
    | none => cont s
    | some (m, q, og) =>
      if gangExited q.hdr og || (pairWaiter og).isSome then
        let prim := if x.p.primary then x.pid else m
        let sec := if x.p.primary then m else x.pid
        let bp := if x.p.primary then bounds else waiterBounds s og
        let bs := if x.p.primary then waiterBounds s og else bounds
        let mine := ((getGang s x.pid x.gi).map fun g => signature g bounds).getD 0
        if mine = signature og (waiterBounds s og) then
          match pairMatch s prim sec x.gi bp bs with
          | (s1, c) =>
            let s2 := x.refreshOther q.core s1
            match c with
            | some c =>
              if x.p.primary then .error (.park (x.keepSeals bounds (some (some c)) s2) (.heldWrites c)) else cont s2
            | none => cont s2
        else .error (.trapIn (x.refreshOther q.core (pairDiffer s prim sec m x.gi bp bs)) (mkTrap cSignature mine))
      else .error (.park (x.keepSeals bounds none s) .pair)

/-! ## Releases -/

/-- All five classes. -/
abbrev allMask : BitVec 5 := 0x1F

/-- Seal the open batches of classes one after another, but for those that the instruction has sealed before; a seal
that would raise a counter to 64 blocks the instruction, and the seals made stand (09 R166). -/
def Ctx.sealEach (x : Ctx) : List Cls → List (Nat × Nat) → State → Except Stop (State × List (Nat × Nat))
  | [], bounds, s => .ok (s, bounds)
  | c :: cs, bounds, s =>
    if bounds.any fun b => b.1 == clsNo c then x.sealEach cs bounds s
    else if ((getGang s x.pid x.gi).map fun g => decide (63 ≤ counterOf g c)).getD false then
      .error (.park (x.keepSeals bounds x.e.paired s) (.sealFull c))
    else
      let s1 := sealClass s x.pid x.gi c
      x.sealEach cs ((clsNo c, s1.nextId) :: bounds) s1

/-- The seals of an instruction that seals and waits, each made once, in ascending class order (22 R355): the state, and
for each class the number below which the seals lie that it waits for. -/
def Ctx.sealOnce (x : Ctx) (m : BitVec 5) (s : State) : Except Stop (State × List (Nat × Nat)) :=
  x.sealEach (allClasses.filter (inMask m)) x.e.sealed s

/-- Consume the failures of the batches that an instruction waits for, and trap for the lowest class that has one (09 R158, 13
R221). -/
def Ctx.raiseAmong (x : Ctx) (f : Batch → Bool) (s : State) : Except Stop Unit :=
  match getGang s x.pid x.gi with
  | none => .ok ()
  | some g =>
    match allClasses.findSome? fun c => (failedAmong f g c).bind fun b => b.fail.map fun e => (c, e) with
    | none => .ok ()
    | some (c, e) => .error (.trapIn (x.updG (consumeAmong f) s) (failTrap c e))

/-- The same for every batch of the classes of a mask (21 R336, 22 R355). -/
def Ctx.raiseFailures (x : Ctx) (m : BitVec 5) (s : State) : Except Stop Unit := x.raiseAmong (fun b => inMask m b.cls) s

/-- The batches that a release waits for: those of its seals and the earlier ones (09 R158). -/
def releaseWaits (bounds : List (Nat × Nat)) (b : Batch) : Bool := decide (b.order < boundOf bounds b.cls)

/-- The failures of a release, when a batch that it waits for has failed: it consumes those of every class, as CWAIT to 0 does (09
R158, 21 R336). -/
def Ctx.raiseWaited (x : Ctx) (bounds : List (Nat × Nat)) (s : State) : Except Stop Unit :=
  if (getGang s x.pid x.gi).any fun g => allClasses.any fun c => (failedAmong (releaseWaits bounds) g c).isSome then
    x.raiseFailures allMask s
  else .ok ()

/-- PHASE.REL, and then the rest of an instruction that begins with one (09 R158, R170): seal every class, wait for
those and earlier batches, for SYSTEM scope also for the home port, consume failures, compare a redundant pair. -/
def Ctx.releaseThen (x : Ctx) (system : Bool) (cont : State → Body) (s : State) : Body := do
  let (s1, bounds) ← x.sealOnce allMask s
  if ((getGang s1 x.pid x.gi).map fun g => releaseBusy g bounds allMask).getD false then
    .error (.park (x.keepSeals bounds x.e.paired s1) (.release allMask system))
  else
    x.raiseWaited bounds s1
    if system && s1.links.posted.any (fun w => w.pid == some x.pid) then
      .error (.park (x.keepSeals bounds x.e.paired s1) (.release allMask system))
    else if x.p.hdr.redundant then x.pairStep bounds cont s1
    else cont s1

end Sys2Proof.Machine
end

