-- ==== Sys2Proof/Machine/Control.lean ====
section
/-! DEFINITION. The control and system instructions, major opcodes 0x00 to 0x18 (17 R262 to R273, R279), and the
encodings that no instruction has (16 R245, R255). -/

namespace Sys2Proof.Machine

open Sys2Proof

/-! ## Branches -/

/-- A branch target or reconvergence address (16 R251, R256 Target). -/
def Ctx.target (x : Ctx) (w : Word) : Word := x.pc + w

/-- The reconvergence address that an operand names, or the one that R251 chooses in its place. -/
def Ctx.reconv (x : Ctx) (w default_ : Word) : Word := if w = 0 then default_ else x.target w

/-- The higher of two addresses. -/
def higher (a b : Word) : Word := if a.toNat < b.toNat then b else a

/-- Branch the fragment: each slice to its next PC, with reconvergence at `t` (07 R123). -/
def Ctx.branch (x : Ctx) (next : Nat → Word) (t : Word) (s : State) : State :=
  x.updG (fun g => { g with split := branchTo next t x.ei g.split }) s

/-- Conditions of Table 17-1 on a signed value. -/
def brHolds (c : BrCond) (v : Int) : Bool :=
  match c with
  | .z => v == 0
  | .nz => v != 0
  | .ltz => decide (v < 0)
  | .gez => decide (0 ≤ v)
  | .gtz => decide (0 < v)
  | .lez => decide (v ≤ 0)

/-- NOP (17 R279). -/
def execNop (c : Ctl) (len : Len) (s : State) : Host.Outcome State Fault Refusal :=
  runInstr (.nop c len) (fun _ t => .ok t) s

/-- BRA (17 R264). -/
def execBra (c : Ctl) (x1 : Word) (s : State) : Host.Outcome State Fault Refusal :=
  runInstr (.bra c x1) (fun x t => .ok (x.jump (x.target x1) t)) s

/-- BRX (17 R264): each slice to the address in its copy, with no slice moved when one of them is misaligned. -/
def execBrx (c : Ctl) (a : Reg) (x1 : Word) (s : State) : Host.Outcome State Fault Refusal :=
  runInstr (.brx c a x1) (fun x t => do
    check (x.slices.all fun i => (x.s a i).toNat % 4 == 0) cIllegal 0
    .ok (x.branch (fun i => (x.s a i).setWidth 32) (x.reconv x1 (x.pc + 12)) t)) s

/-- BRS (17 R264): the condition is tested on each slice's copy. -/
def execBrs (c : Ctl) (cond : BrCond) (a : Reg) (x1 x2 : Word) (s : State) : Host.Outcome State Fault Refusal :=
  runInstr (.brs c cond a x1 x2) (fun x t =>
    let next := fun i => if brHolds cond (x.s a i).toInt then x.target x1 else x.pc + 16
    .ok (x.branch next (x.reconv x2 (higher (x.target x1) (x.pc + 16))) t)) s

/-- BRV (17 R264): a slice branches when an active lane of it has the condition. -/
def execBrv (c : Ctl) (cond : BrCond) (a : Reg) (x1 x2 : Word) (s : State) : Host.Outcome State Fault Refusal :=
  runInstr (.brv c cond a x1 x2) (fun x t =>
    let taken := fun i => x.lanes.any fun l => sliceOf l == i && brHolds cond (x.v a l).toInt
    let next := fun i => if taken i then x.target x1 else x.pc + 16
    .ok (x.branch next (x.reconv x2 (higher (x.target x1) (x.pc + 16))) t)) s

/-- CALL (17 R265). -/
def execCall (c : Ctl) (x1 : Word) (s : State) : Host.Outcome State Fault Refusal :=
  runInstr (.call c x1) (fun x t =>
    .ok (x.jump (x.target x1) (x.setS 61 (fun _ => (x.pc + 12).setWidth 64) t))) s

/-- RET (17 R265): ILLEGAL when the copies differ in their low 32 bits or are misaligned. -/
def execRet (c : Ctl) (a : Reg) (s : State) : Host.Outcome State Fault Refusal :=
  runInstr (.ret c a) (fun x t => do
    let pc : Word := (x.sLow a).setWidth 32
    check (x.slices.all fun i => (x.s a i).setWidth 32 == pc) cIllegal 0
    check (pc.toNat % 4 == 0) cIllegal 0
    .ok (x.jump pc t)) s

/-- REGANG (07 R125, 17 R266). -/
def execRegang (c : Ctl) (s : State) : Host.Outcome State Fault Refusal :=
  runInstr (.regang c) (fun x t => .ok (x.updEntry (fun e => { e with wait := .regang }) t)) s

/-- The fragment holds every live slice of its gang. -/
def Ctx.whole (x : Ctx) : Bool := liveSlices x.p.hdr x.g &&& ~~~x.e.slices == 0

/-- EXIT (07 R137, 17 R266). The exit of a gang of a redundant panel implies its final PHASE.REL at DEVICE scope (13
R228). -/
def execExit (c : Ctl) (s : State) : Host.Outcome State Fault Refusal :=
  runInstr (.exit c) (fun x t => if x.p.hdr.redundant && x.whole then
    x.releaseThen false (fun u => .ok (exitSlices x u)) t else .ok (exitSlices x t)) s

/-! ## Structured nesting -/

/-- The non-exited lanes of the fragment, active or not. -/
def Ctx.fragLanes (x : Ctx) : List Nat :=
  (List.range 32).filter fun l => (lanesOf (x.e.slices &&& ~~~x.g.exited)).getLsbD l

/-- A lane's nesting counter. -/
def Ctx.nestOf (x : Ctx) (l : Nat) : Nat := (vget x.g.nest l 0).toNat

/-- Change the counters of the fragment's lanes; NEST_OVF when one would pass 63 (07 R128). -/
def Ctx.nesting (x : Ctx) (f : Nat → Nat → Nat) (s : State) : Body := do
  check (x.fragLanes.all fun l => decide (f l (x.nestOf l) ≤ 63)) cNestOvf 0
  let new := fun (g : Gang) l =>
    if x.fragLanes.contains l then BitVec.ofNat 6 (f l (x.nestOf l)) else vget g.nest l 0
  .ok (x.updG (fun g => { g with nest := Vector.ofFn fun l : Fin 32 => new g l.val }) s)

/-- Lane `l`'s bit of its own slice's copy of a mask register (17 R267). -/
def Ctx.maskBit (x : Ctx) (a : Reg) (l : Nat) : Bool := (x.s a (sliceOf l)).getLsbD l

/-- IF (07 Table 7-2). -/
def execIfMask (c : Ctl) (a : Reg) (s : State) : Host.Outcome State Fault Refusal :=
  runInstr (.ifMask c a) (fun x t => x.nesting (fun l n =>
    if n = 0 then (if x.on l && x.maskBit a l then 0 else 1) else n + 1) t) s

/-- ELSE (07 Table 7-2). -/
def execElseMask (c : Ctl) (s : State) : Host.Outcome State Fault Refusal :=
  runInstr (.elseMask c) (fun x t => x.nesting (fun _ n => if n = 0 then 1 else if n = 1 then 0 else n) t) s

/-- ENDIF (07 Table 7-2, 17 R267): a lane at 0 stays there. -/
def execEndif (c : Ctl) (s : State) : Host.Outcome State Fault Refusal :=
  runInstr (.endif c) (fun x t => x.nesting (fun _ n => n - 1) t) s

/-- LOOP (07 Table 7-2). -/
def execLoop (c : Ctl) (s : State) : Host.Outcome State Fault Refusal :=
  runInstr (.loop c) (fun x t => x.nesting (fun _ n => if n = 0 then 0 else n + 2) t) s

/-- ENDLOOP (07 Table 7-2): continued lanes go on; with a lane at 0 it branches to the top, else every counter of 2 or
more falls by 2. -/
def execEndloop (c : Ctl) (x1 : Word) (s : State) : Host.Outcome State Fault Refusal :=
  runInstr (.endloop c x1) (fun x t =>
    let again := x.fragLanes.any fun l => decide (x.nestOf l ≤ 1)
    if again then (x.nesting (fun _ n => if n = 1 then 0 else n) t).map (x.jump (x.target x1))
    else x.nesting (fun _ n => n - 2) t) s

/-- BREAK (07 Table 7-2). -/
def execBreakMask (c : Ctl) (a : Reg) (k : BitVec 8) (s : State) : Host.Outcome State Fault Refusal :=
  runInstr (.breakMask c a k) (fun x t => x.nesting (fun l n =>
    if n = 0 && x.on l && x.maskBit a l then k.toNat + 2 else n) t) s

/-- CONT (07 Table 7-2). -/
def execContMask (c : Ctl) (a : Reg) (k : BitVec 8) (s : State) : Host.Outcome State Fault Refusal :=
  runInstr (.contMask c a k) (fun x t => x.nesting (fun l n =>
    if n = 0 && x.on l && x.maskBit a l then k.toNat + 1 else n) t) s

/-! ## Yield, sleep, traps -/

/-- YIELD (17 R268): the frame of issue frees the gang's position. -/
def execYield (c : Ctl) (s : State) : Host.Outcome State Fault Refusal :=
  runInstr (.yield c) (fun _ t => .ok t) s

/-- SLEEP (17 R268). -/
def execSleep (c : Ctl) (n : BitVec 20) (s : State) : Host.Outcome State Fault Refusal :=
  runInstr (.sleep c n) (fun x t =>
    if n = 0 then .ok t
    else .error (.park (x.updEntry (fun e => { e with wake := x.p.clk + n.toNat }) t) .sleep)) s

/-- TRAP (17 R269). -/
def execTrap (c : Ctl) (code : BitVec 8) (s : State) : Host.Outcome State Fault Refusal :=
  runInstr (.trap c code) (fun _ _ => raise cTrapInstr 0) s

/-- BRK (17 R269). -/
def execBrk (c : Ctl) (code : BitVec 8) (s : State) : Host.Outcome State Fault Refusal :=
  runInstr (.brk c code) (fun _ _ => raise cBrk 0) s

/-- RETT (17 R270): ILLEGAL outside a handler is among the checks at issue. -/
def execRett (c : Ctl) (s : State) : Host.Outcome State Fault Refusal :=
  runInstr (.rett c) (fun x t => .ok (returnFromTrap x t)) s

/-! ## Special registers (14 R244, 17 R271) -/

/-- em as a fragment reads it (07 R127, R128). -/
def Ctx.emRead (x : Ctx) : DWord :=
  BitVec.ofNat 64 ((x.fragLanes.filter fun l =>
    if x.p.hdr.pm then x.nestOf l == 0 else x.g.em.getLsbD l).map (2 ^ ·)).sum

/-- A smock slot that is unbound. -/
def smock0 : Smock := ⟨0, [], false, none⟩

/-- The slot register (12 Table 12-2). -/
def Smock.word (k : Smock) : DWord :=
  BitVec.ofNat 64 (k.desc % 2 ^ 57 / 64 * 64 + (!k.queue.isEmpty).toNat * 4 + k.aovf.toNat * 2 + k.cfg.isSome.toNat)

/-- The value of a special register by its number (14 Table 14-5); none for a number outside the table. -/
def Ctx.special (x : Ctx) (n : Nat) : Option DWord :=
  let nat := fun k => some (BitVec.ofNat 64 k)
  if n = 0x000 then some x.emRead
  else if n = 0x001 then nat x.gi
  else if n = 0x002 then nat x.p.px
  else if n = 0x003 then nat x.p.py
  else if n = 0x004 then nat x.p.pz
  else if n = 0x005 then nat x.p.core
  else if n = 0x006 then nat (x.p.core / 16)
  else if n = 0x007 then nat x.p.hdr.part
  else if n = 0x008 then some (x.g.tid.setWidth 64)
  else if n = 0x009 then some x.g.fpcsr
  else if n = 0x010 then some x.g.tcause
  else if n = 0x011 then some x.g.tpc
  else if n = 0x012 then some x.g.tinfo
  else if n = 0x020 then some x.p.ring.base
  else if n = 0x021 then some x.p.ring.size
  else if n = 0x022 then some x.p.ring.notify
  else if n = 0x023 then nat x.p.hdr.spillbase
  else if n = 0x024 then nat x.p.hdr.holdbase
  else if n = 0x030 then nat x.p.clk
  else if n = 0x031 then nat x.p.hdr.argbase
  else if 0x100 ≤ n ∧ n < 0x140 then
    some ((vget x.p.alph ((n - 0x100) / 4) 0).extractLsb' (64 * (n % 4)) 64)
  else if 0x200 ≤ n ∧ n < 0x210 then some (vget x.p.smk (n - 0x200) smock0).word
  else none

/-- SRD (17 R271). -/
def execSrd (c : Ctl) (d : Reg) (num : BitVec 12) (s : State) : Host.Outcome State Fault Refusal :=
  runInstr (.srd c d num) (fun x t =>
    match x.special num.toNat with
    | some v => .ok (x.setS d (fun _ => v) t)
    | none => raise cIllegal 0) s

/-- Write em: each lane of the fragment from its own slice's copy (07 R127, 23 R367). -/
def Ctx.writeEm (x : Ctx) (a : Reg) (s : State) : State :=
  let new := fun (g : Gang) l => if x.fragLanes.contains l then x.maskBit a l else g.em.getLsbD l
  x.updG (fun g => { g with em := BitVec.ofFnLE fun l : Fin 32 => new g l.val }) s

/-- A write of a ring register starts the ring anew (21 R328). -/
def Ctx.writeRing (x : Ctx) (f : Ring → Ring) (s : State) : State :=
  x.updP (fun p => { p with ring := { f p.ring with wix := 0, pub := 0, cons := 0 } }) s

/-- The checks of a write of a ring register (21 R328). -/
def Ctx.ringCheck (x : Ctx) (n : Nat) (v : DWord) : Except Stop Unit := do
  check (x.p.ring.w == x.p.ring.cons && decide (v.toNat < 2 ^ 20)) cIllegal 0
  check (n != 0x021 || decide (16 ≤ v.toNat ∧ v.toNat ≤ 256)) cIllegal 0
  check (n != 0x020 || v.toNat % 32 == 0) cAlign v
  check (n != 0x022 || v.toNat % 8 == 0) cAlign v

/-- SWR (17 R271): ILLEGAL for a register that is read only or not in the table. -/
def execSwr (c : Ctl) (a : Reg) (num : BitVec 12) (s : State) : Host.Outcome State Fault Refusal :=
  runInstr (.swr c a num) (fun x t =>
    let v := x.sLow a
    match num.toNat with
    | 0x000 => .ok (x.writeEm a t)
    | 0x008 => .ok (x.updG (fun g => { g with tid := v.setWidth 12 }) t)
    | 0x009 => .ok (x.updG (fun g => { g with fpcsr := fpcsrKeep v, srs := seedAll (fpcsrKeep v) }) t)
    | 0x010 => .ok (x.updG (fun g => { g with tcause := v &&& 0x0FFF07FF }) t)
    | 0x011 => .ok (x.updG (fun g => { g with tpc := v &&& 0xFFFFFFFC }) t)
    | 0x012 => .ok (x.updG (fun g => { g with tinfo := v }) t)
    | 0x020 => do x.ringCheck 0x020 v; .ok (x.writeRing (fun r => { r with base := v }) t)
    | 0x021 => do x.ringCheck 0x021 v; .ok (x.writeRing (fun r => { r with size := v }) t)
    | 0x022 => do x.ringCheck 0x022 v; .ok (x.writeRing (fun r => { r with notify := v }) t)
    | _ => raise cIllegal 0) s

/-- CLK (17 R272). -/
def execClk (c : Ctl) (d : Reg) (s : State) : Host.Outcome State Fault Refusal :=
  runInstr (.clk c d) (fun x t => .ok (x.setS d (fun _ => BitVec.ofNat 64 x.p.clk) t)) s

/-- PERF (17 R273). -/
def execPerf (c : Ctl) (d : Reg) (ev : BitVec 8) (s : State) : Host.Outcome State Fault Refusal :=
  runInstr (.perf c d ev) (fun x t =>
    .ok (x.setS d (fun _ => BitVec.ofNat 64 (vget x.p.perf ev.toNat 0)) t)) s

/-! ## Encodings with no instruction -/

/-- A fragment whose PC stands at an encoding that the hardware refuses: FETCH_CROSS when the instruction crosses its
window, else ILLEGAL (16 R245, R248, R255). -/
def execUnassignedEncoding (s : State) : Host.Outcome State Fault Refusal :=
  match ctxOf .unassignedEncoding s with
  | none => .fault .noIssuer
  | some x =>
    let bs := codeAt ((windowOf s x.p x.pc).getD []) x.pc
    let cause := if crosses x.pc (lengthAt bs) then cFetchCross else cIllegal
    .next (x.close (x.takeSlot (x.position s) (opAt bs) (takeTrap s x.pid x.gi x.ei (mkTrap cause 0) false)))

end Sys2Proof.Machine
end

