-- ==== Sys2Proof/Machine/Alphabet.lean ====
section
/-! DEFINITION. Alphabet instructions, major opcodes 0xB0 to 0xB9 (19 R298 to R308, 11 R199, R200). -/

namespace Sys2Proof.Machine

open Sys2Proof

/-- ALDEF (19 R300). -/
def execAldef (c : Ctl) (d a : Reg) (off : Off) (s : State) : Host.Outcome State Fault Refusal :=
  runInstr (.aldef c d a off) (fun x t => do
    let at_ := addrOf (x.sLow a) off
    let image := BitVec.ofNat 256 ((spOf t x.pid).readNat at_.toNat 32)
    if at_ % 32 = 0 ∧ 0 ≤ at_ ∧ at_ + 32 ≤ x.p.hdr.size ∧ badAlphabet image then
      raise cAlphabet (BitVec.ofNat 64 d.toNat)
    else
      x.checkAddrs [at_] 32
      .ok (x.updP (fun p => { p with alph := vset p.alph d.toNat (definedAlphabet image) }) t)) s

/-- ALRD (19 R301). -/
def execAlrd (c : Ctl) (d a : Reg) (word : BitVec 2) (s : State) : Host.Outcome State Fault Refusal :=
  runInstr (.alrd c d a word) (fun x t => do
    x.alphaCheck a.toNat
    let v := (vget x.p.alph a.toNat 0).extractLsb' (64 * word.toNat) 64
    .ok (x.setS d (fun _ => v) t)) s

/-! ## Whole registers -/

/-- Container `c` of register `r` as lane `l` reads it (19 R302): its bits lane by lane through cross-lane reads. -/
def Ctx.regContainer (x : Ctx) (a : Alpha) (r : Reg) (l c : Nat) : Nat :=
  if a.wcode = 3 then
    (x.lane r l (2 * c : Nat) 0 32).toNat + 2 ^ 32 * (x.lane r l (2 * c + 1 : Nat) 0 32).toNat
  else elem a.w (x.lane r l (c / (32 / a.w) : Nat) 0 32) (c % (32 / a.w))

/-- The lanes that hold the bits of container `c` of a register. -/
def containerLanes (a : Alpha) (c : Nat) : List Nat :=
  if a.wcode = 3 then [2 * c, 2 * c + 1] else [c / (32 / a.w)]

/-- Elements of a register, E (19 R302). -/
def Alpha.perReg (a : Alpha) : Nat := 1024 / a.w * a.k

/-- UNPK (19 R302). -/
def execUnpk (c : Ctl) (sym : Bool) (an : BitVec 4) (d a : Reg) (first : Word) (s : State) :
    Host.Outcome State Fault Refusal :=
  runInstr (.unpk c sym an d a first) (fun x t => do
    x.alphaCheck an.toNat
    let al := x.alpha an.toNat
    let e := fun l => first.toNat + l
    let cont := fun l => x.regContainer al a l (e l / al.k)
    let hit := x.lanes.filter fun l => decide (e l < al.perReg)
    let bad := distinct ((hit.filter fun l => !al.valid (cont l)).map fun l => e l / al.k)
    let val := fun l => if e l < al.perReg then al.given sym ((al.decode (cont l)).getD (e l % al.k) 0) (e l % al.k) else 0
    let u ← x.invalid an.toNat (x.shown [a] bad.length) t
    .ok (x.setV d val u)) s

/-- A container that PACK rewrites: its number, new content, and its invalid events (19 R303). -/
def Ctx.packContainer (x : Ctx) (al : Alpha) (sym : Bool) (d a : Reg) (first c : Nat) : Nat × Nat × Nat :=
  let old := x.regContainer al d ((containerLanes al c).headD 0) c
  let mine := x.lanes.filter fun l => (first + l) / al.k == c
  let syms := mine.map fun l => ((first + l) % al.k, al.carried sym (ftzOf x.g.fpcsr) (x.v a l) ((first + l) % al.k))
  let digits := syms.foldl (fun ds p => ds.set p.1 (p.2.getD al.subst)) (al.decode old)
  (c, al.encode digits, x.shown [a] (syms.filter fun p => p.2.isNone).length + x.shown [d] (!al.valid old).toNat)

/-- The 32 bits that lane `l` holds of the rewritten containers of a register. -/
def packedLane (al : Alpha) (old : Word) (cs : List (Nat × Nat × Nat)) (l : Nat) : Word :=
  if al.wcode = 3 then
    match cs.find? fun c => c.1 == l / 2 with
    | some c => BitVec.ofNat 32 (c.2.1 / 2 ^ (32 * (l % 2)))
    | none => old
  else
    let n := 32 / al.w
    packLane n fun j =>
      match cs.find? fun c => c.1 == l * n + j with
      | some c => c.2.1
      | none => elem al.w old j

/-- PACK (19 R303). -/
def execPack (c : Ctl) (sym : Bool) (an : BitVec 4) (d a : Reg) (first : Word) (s : State) :
    Host.Outcome State Fault Refusal :=
  runInstr (.pack c sym an d a first) (fun x t => do
    x.alphaCheck an.toNat
    let al := x.alpha an.toNat
    let touched := distinct ((x.lanes.map fun l => (first.toNat + l) / al.k).filter fun k => decide (k < 1024 / al.w))
    let whole := touched.filter fun k => (containerLanes al k).all x.on
    let cs := whole.map (x.packContainer al sym d a first.toNat)
    let u ← x.invalid an.toNat (cs.map fun k => k.2.2).sum t
    .ok (x.setV d (fun l => packedLane al (x.v d l) cs l) u)) s

/-! ## Packed words -/

/-- Container `c` of the packed word of lane `l` (19 R299). -/
def Ctx.wordContainer (x : Ctx) (al : Alpha) (r : Reg) (l c : Nat) : Nat :=
  if al.wcode = 3 then
    (x.lane r l (l - l % 2 : Nat) 0 32).toNat + 2 ^ 32 * (x.lane r l (l - l % 2 + 1 : Nat) 0 32).toNat
  else elem al.w (x.v r l) c

/-- The name of a container of a packed word: a pair of lanes shares one at W = 64. -/
def containerId (al : Alpha) (l c : Nat) : Nat := if al.wcode = 3 then l / 2 * 4 else l * 4 + c

/-- A lane's operand: at W = 64 the even lane of the pair supplies it (19 R304), which the odd lane reads by the rule of lanes
that read lanes (07 R132). -/
def Ctx.pairLane (x : Ctx) (al : Alpha) (r : Reg) (l : Nat) : Word :=
  if al.wcode = 3 then x.lane r l (l - l % 2 : Nat) 0 32 else x.v r l

/-- SYMX (19 R304). -/
def execSymx (c : Ctl) (sym : Bool) (an : BitVec 4) (d a b : Reg) (s : State) :
    Host.Outcome State Fault Refusal :=
  runInstr (.symx c sym an d a b) (fun x t => do
    x.alphaCheck an.toNat
    let al := x.alpha an.toNat
    let e := fun l => (x.pairLane al b l).toNat
    let cont := fun l => x.wordContainer al a l (e l / al.k)
    let hit := x.lanes.filter fun l => decide (e l < al.perWord)
    let bad := distinct ((hit.filter fun l => !al.valid (cont l)).map fun l => containerId al l (e l / al.k))
    let val := fun l => if e l < al.perWord then al.given sym ((al.decode (cont l)).getD (e l % al.k) 0) (e l % al.k) else 0
    let u ← x.invalid an.toNat (x.shown [a, b] bad.length) t
    .ok (x.setV d val u)) s

/-- A lane's word with one container replaced; at W = 64 the lane's half of it. -/
def putContainer (al : Alpha) (old : Word) (l c new : Nat) : Word :=
  if al.wcode = 3 then BitVec.ofNat 32 (new / 2 ^ (32 * (l % 2)))
  else packLane (32 / al.w) fun j => if j = c then new else elem al.w old j

/-- SYMI (19 R304). -/
def execSymi (c : Ctl) (sym : Bool) (an : BitVec 4) (d a b cc : Reg) (s : State) :
    Host.Outcome State Fault Refusal :=
  runInstr (.symi c sym an d a b cc) (fun x t => do
    x.alphaCheck an.toNat
    let al := x.alpha an.toNat
    let e := fun l => (x.pairLane al b l).toNat
    let cont := fun l => x.wordContainer al a l (e l / al.k)
    let symbol := fun l => al.carried sym (ftzOf x.g.fpcsr) (x.pairLane al cc l) (e l % al.k)
    let hit := x.lanes.filter fun l => decide (e l < al.perWord)
    let name := fun l => containerId al l (e l / al.k)
    let bad := distinct ((hit.filter fun l => !al.valid (cont l)).map name)
    let outs := distinct ((hit.filter fun l => (symbol l).isNone).map name)
    let val := fun l =>
      if e l < al.perWord then
        putContainer al (x.v a l) l (e l / al.k)
          (al.encode ((al.decode (cont l)).set (e l % al.k) ((symbol l).getD al.subst)))
      else x.v a l
    let u ← x.invalid an.toNat (x.shown [a, b] bad.length + x.shown [b, cc] outs.length) t
    .ok (x.setV d val u)) s

/-- The digits of a packed word's elements 0 to `n` − 1 (19 R307). -/
def Ctx.wordSymbols (x : Ctx) (al : Alpha) (r : Reg) (l n : Nat) : List Nat :=
  (List.range n).map fun e => (al.decode (x.wordContainer al r l (e / al.k))).getD (e % al.k) 0

/-- The invalid containers among the first `n` elements of the active lanes' packed words, each with its register; an EMPTY
register shows none (16 R256). -/
def Ctx.badWords (x : Ctx) (al : Alpha) (r : Reg) (n : Nat) : List (Nat × Nat) :=
  if x.knows r then
    distinct (x.lanes.flatMap fun l =>
      ((List.range ((n + al.k - 1) / al.k)).filter fun c => !al.valid (x.wordContainer al r l c)).map
        fun c => (r.toNat, containerId al l c))
  else []

/-- A symbol's value as an exact value. -/
def symFVal : SymVal → FVal
  | .int n => .fin (decide (n < 0)) n.natAbs 0
  | .e4 c => fF8E4.value c

/-- The exact integer of a symbol's value. -/
def symInt : SymVal → Int
  | .int n => n
  | .e4 _ => 0

/-- The exact sum of values that are no infinity, at exponent −149 or below; none when one is NaN. -/
def exactSum (vs : List FVal) : Option Int :=
  vs.foldl (fun acc v =>
    match acc, v with
    | some n, .fin s m e => some (n + signedAt s m e (-200))
    | _, _ => none) (some 0)

/-- DOTA with an F8E4 table (19 R307): one rounding of the exact sum. -/
def dotaFloat (fp : DWord) (ps : List FVal) (acc : Option Word) : Elem :=
  let z := ftzOf fp
  let a := acc.map fun w => fF32.value (fF32.input z w.toNat)
  match exactSum ps, a with
  | none, _ => fF32.nanElem
  | some n, some (.fin s m e) =>
    fF32.ofSigned (rmOf fp) z (n + signedAt s m e (-200)) (-200) (rmOf fp == .rd)
  | some _, some (.inf s) => plainElem (fF32.signed s fF32.infCode)
  | some _, some .nan => fF32.nanElem
  | some n, none => fF32.ofSigned (rmOf fp) z n (-200) (rmOf fp == .rd)

/-- DOTA (19 R307). DESIGN CHOICE (log entry 125): when containers of both alphabets are invalid and both trap, tinfo names the alphabet
of A. -/
def execDota (c : Ctl) (acc : Bool) (an am : BitVec 4) (d a b : Reg) (nmax : BitVec 8) (s : State) :
    Host.Outcome State Fault Refusal :=
  runInstr (.dota c acc an am d a b nmax) (fun x t => do
    x.alphaCheck an.toNat
    x.alphaCheck am.toNat
    let p := x.alpha an.toNat
    let q := x.alpha am.toNat
    let n := min p.perWord q.perWord
    check (decide (nmax.toNat ≤ n)) cIllegal 0
    let k := if nmax = 0 then n else nmax.toNat
    let vals := fun l => (List.zip (x.wordSymbols p a l k) (x.wordSymbols q b l k)).mapIdx fun e y =>
      (p.value y.1 (e % p.k), q.value y.2 (e % q.k))
    let old := fun l => if acc then some (x.v d l) else none
    let float := (p.isTable && p.tfmt) || (q.isTable && q.tfmt)
    let lane := fun l =>
      if float then dotaFloat x.g.fpcsr ((vals l).map fun y => (symFVal y.1).mul (symFVal y.2)) (old l)
      else plainElem (wrapTo 32 (((vals l).map fun y => symInt y.1 * symInt y.2).sum + ((old l).map (·.toInt)).getD 0))
    let bad := x.badWords q b k
    let t1 := if an = am then t else x.countInvalid am.toNat bad.length t
    let mine := x.badWords p a k
    let u ← x.invalid an.toNat (if an = am then distinct (mine ++ bad) else mine).length t1
    if bad ≠ [] ∧ q.trap then
      .error (.trapIn u (mkTrap cInvalidCode (BitVec.ofNat 64 am.toNat)))
    .ok (x.count (x.tally fun l => (lane l).2) (x.setV d (fun l => BitVec.ofNat 32 (lane l).1) u))) s

/-- VALC (19 R308). -/
def execValc (c : Ctl) (an : BitVec 4) (d a : Reg) (s : State) : Host.Outcome State Fault Refusal :=
  runInstr (.valc c an d a) (fun x t => do
    x.alphaCheck an.toNat
    let al := x.alpha an.toNat
    let n := if al.wcode = 3 then 1 else 32 / al.w
    let val := fun l => (((List.range n).filter fun k => !al.valid (x.wordContainer al a l k)).map fun k =>
      BitVec.ofNat 32 (2 ^ k)).foldl (· ||| ·) (0 : Word)
    .ok (x.setV d val t)) s

/-! ## Symbols in scratchpad -/

/-- The checks of SYMLD and SYMST (19 R305): the alphabet, the layout words of the active lanes' slices, then the
containers' addresses, which are returned with their lanes. -/
def Ctx.symAddrs (x : Ctx) (an : BitVec 4) (a b : Reg) : Except Stop (List (Nat × Nat)) := do
  x.alphaCheck an.toNat
  let lay := fun l => x.layout a (sliceOf l)
  x.lanes.forM fun l => x.layoutAlpha (lay l)
  check (x.lanes.all fun l => !(lay l).bad && (lay l).etype == 0x20 + an.toNat) cLayout 0
  let w := (x.alpha an.toNat).bytes
  let at_ := fun l => (lay l).addr x.p.alph (x.v b l).toNat 0 0 0
  if x.knows b then x.checkAddrs (x.lanes.map fun l => (at_ l : Int)) w
  .ok (x.lanes.map fun l => (l, at_ l))

/-- SYMLD (19 R305). -/
def execSymld (c : Ctl) (sym : Bool) (an : BitVec 4) (d a b : Reg) (s : State) :
    Host.Outcome State Fault Refusal :=
  runInstr (.symld c sym an d a b) (fun x t => do
    let as ← x.symAddrs an a b
    let al := x.alpha an.toNat
    let cont := fun p => (spOf t x.pid).readNat p al.bytes
    let bad := distinct ((as.filter fun p => !al.valid (cont p.2)).map (·.2))
    let val := fun l =>
      let p := ((as.find? fun p => p.1 == l).map (·.2)).getD 0
      al.given sym ((al.decode (cont p)).getD ((x.v b l).toNat % al.k) 0) ((x.v b l).toNat % al.k)
    let u ← x.invalid an.toNat (x.shown [b] bad.length) t
    .ok (x.bankCost (as.map (·.2)) (x.setV d val u))) s

/-- Rewrite the digits that lanes name in one container, in ascending lane order (11 R200). -/
def rewriteContainer (al : Alpha) (m : Memory) (p : Nat) (ws : List (Nat × Nat)) : Memory :=
  let digits := ws.foldl (fun ds w => ds.set w.1 w.2) (al.decode (m.readNat p al.bytes))
  m.writeNat p al.bytes (al.encode digits)

/-- SYMST (19 R306, 11 R200). -/
def execSymst (c : Ctl) (sym : Bool) (an : BitVec 4) (a b cc : Reg) (s : State) :
    Host.Outcome State Fault Refusal :=
  runInstr (.symst c sym an a b cc) (fun x t => do
    let as ← x.symAddrs an a b
    let al := x.alpha an.toNat
    let j := fun l => (x.v b l).toNat % al.k
    let symbol := fun l => al.carried sym (ftzOf x.g.fpcsr) (x.v cc l) (j l)
    let u ← x.invalid an.toNat (x.shown [b, cc] (x.lanes.filter fun l => (symbol l).isNone).length) t
    let ps := distinct (as.map (·.2))
    let old := (ps.filter fun p => !al.valid ((spOf t x.pid).readNat p al.bytes)).length
    let writes := fun p => (as.filter fun q => q.2 == p).map fun q => (j q.1, (symbol q.1).getD al.subst)
    let u1 := updSp u x.pid fun m => ps.foldl (fun m p => rewriteContainer al m p (writes p)) m
    x.stored (ps.map fun p => (p, al.bytes)) (x.bankCost ps (x.countInvalid an.toNat old u1))) s

end Sys2Proof.Machine
end

