-- ==== Sys2Proof/Machine/CrossLane.lean ====
section
/-! DEFINITION. Shuffles, votes, reductions and scans, major opcodes 0xA0 to 0xA7 (18 R294 to R297, 23 R368). -/

namespace Sys2Proof.Machine

open Sys2Proof

/-- The width of a segment (18 Table 18-7). -/
def segWidth : Seg → Nat
  | .w2 => 2
  | .w4 => 4
  | .w8 => 8
  | .w16 => 16
  | .w32 => 32

/-- The first lane of the aligned run of `w` lanes that holds `l`. -/
def runBase (w l : Nat) : Nat := l - l % w

/-- A segment shuffle with the source lane as a function of base, lane and operand (18 R294). -/
def shuffle (i : Instr) (seg : Seg) (d a : Reg) (b : Src) (f : Nat → Nat → Nat → Int) (s : State) :
    Host.Outcome State Fault Refusal :=
  let w := segWidth seg
  runInstr i (fun x t =>
    .ok (x.setV d (fun l => x.lane a l (f (runBase w l) l (x.vb b l).toNat) (runBase w l) w) t)) s

/-- SHFI. -/
def execShfi (c : Ctl) (seg : Seg) (d a : Reg) (b : Src) (s : State) : Host.Outcome State Fault Refusal :=
  shuffle (.shfi c seg d a b) seg d a b (fun base _ n => base + n) s

/-- SHFU. -/
def execShfu (c : Ctl) (seg : Seg) (d a : Reg) (b : Src) (s : State) : Host.Outcome State Fault Refusal :=
  shuffle (.shfu c seg d a b) seg d a b (fun _ l n => (l : Int) - n) s

/-- SHFD. -/
def execShfd (c : Ctl) (seg : Seg) (d a : Reg) (b : Src) (s : State) : Host.Outcome State Fault Refusal :=
  shuffle (.shfd c seg d a b) seg d a b (fun _ l n => (l : Int) + n) s

/-- SHFX. -/
def execShfx (c : Ctl) (seg : Seg) (d a : Reg) (b : Src) (s : State) : Host.Outcome State Fault Refusal :=
  shuffle (.shfx c seg d a b) seg d a b (fun _ l n => (l ^^^ n : Nat)) s

/-- The source lane of GSHF (18 R295). -/
def gshfSource (k : GKind) (base l n : Nat) : Int :=
  match k with
  | .up => (l : Int) - n
  | .dn => (l : Int) + n
  | .x => (l ^^^ n : Nat)
  | .bc => (base + n : Nat)

/-- What GSHF gives lane `l` (18 R295): with erratum 7 supplied, a lane up to 15 whose source is 16 or more reads 16
lanes lower. -/
def Ctx.gshfLane (x : Ctx) (k : GKind) (w n : Nat) (a : Reg) (l : Nat) : Word :=
  let t := gshfSource k (runBase w l) l n
  if k = .dn ∧ l ≤ 15 ∧ 16 ≤ t ∧ x.p.hdr.erratum7 ∧ x.on (t.toNat - 16) then x.v a (t.toNat - 16)
  else x.lane a l t (runBase w l) w

/-- The second pass of a GSHF of width 16 (16 R259, 23 R368): it takes a VECTOR slot of the next cycle, in which the
gang issues nothing else. STALL counts from the first pass. -/
def Ctx.secondPass (x : Ctx) (s : State) : State :=
  let later := fun (e : SplitEntry) => { e with nextIssue := max e.nextIssue (x.p.clk + 2) }
  let s1 := x.updG (fun g => { g with split := g.split.map later }) s
  updCore s1 x.p.core fun c => { c with pass2 := c.pass2 + 1 }

/-- GSHF (18 R295). -/
def execGshf (c : Ctl) (k : GKind) (width : BitVec 2) (delta : BitVec 4) (d a : Reg) (s : State) :
    Host.Outcome State Fault Refusal :=
  runInstr (.gshf c k width delta d a) (fun x t =>
    let t1 := x.setV d (x.gshfLane k (2 ^ (width.toNat + 1)) delta.toNat a) t
    .ok (if width = 3 then x.secondPass t1 else t1)) s

/-- The result of VOTE (18 R296). -/
def Ctx.vote (x : Ctx) (k : VoteKind) (a : Reg) : DWord :=
  let c := x.lanes.filter fun l => x.v a l != 0
  match k with
  | .ballot => x.maskOf fun l => x.v a l != 0
  | .any => if c.isEmpty then 0 else 1
  | .all => if !x.lanes.isEmpty && c.length == x.lanes.length then 1 else 0
  | .count => BitVec.ofNat 64 c.length

/-- VOTE (18 R296). -/
def execVote (c : Ctl) (k : VoteKind) (d a : Reg) (s : State) : Host.Outcome State Fault Refusal :=
  runInstr (.vote c k d a) (fun x t => .ok (x.setS d (fun _ => x.vote k a) t)) s

/-- Identities (18 Table 18-10). -/
def redIdentity (t : LTy) (op : RedOp) : Word :=
  match op, t with
  | .add, .f32 => 0x80000000
  | .add, _ => 0
  | .min, .i32 => 0x7FFFFFFF
  | .min, .n32 => 0xFFFFFFFF
  | .min, .f32 => 0x7F800000
  | .max, .i32 => 0x80000000
  | .max, .n32 => 0
  | .max, .f32 => 0xFF800000
  | .and, _ => 0xFFFFFFFF
  | .or, _ => 0
  | .xor, _ => 0

/-- The combining operation with its counts (18 R297). -/
def redStep (fp : DWord) (t : LTy) (op : RedOp) (r v : Word) : Word × Counts :=
  match op, t with
  | .add, .f32 =>
    let f := fF32
    let z := ftzOf fp
    let e := f.addV (rmOf fp) z (f.value (f.input z r.toNat)) (f.value (f.input z v.toNat))
    (BitVec.ofNat 32 e.1, e.2)
  | .add, _ => (r + v, Counts.zero)
  | .min, .i32 => (if v.slt r then v else r, Counts.zero)
  | .min, .n32 => (if v.ult r then v else r, Counts.zero)
  | .max, .i32 => (if r.slt v then v else r, Counts.zero)
  | .max, .n32 => (if r.ult v then v else r, Counts.zero)
  | .min, .f32 =>
    (BitVec.ofNat 32 (fF32.minMax false (fF32.input (ftzOf fp) r.toNat) (fF32.input (ftzOf fp) v.toNat)), Counts.zero)
  | .max, .f32 =>
    (BitVec.ofNat 32 (fF32.minMax true (fF32.input (ftzOf fp) r.toNat) (fF32.input (ftzOf fp) v.toNat)), Counts.zero)
  | .and, _ => (r &&& v, Counts.zero)
  | .or, _ => (r ||| v, Counts.zero)
  | .xor, _ => (r ^^^ v, Counts.zero)

/-- A running combination: each lane with the value before and after it, the last value, the counts, and whether every
lane so far was NaN. -/
structure Fold where
  steps : List (Nat × Word × Word)
  r : Word
  c : Counts
  allNan : Bool

/-- MIN and MAX of F32 give the canonical NaN when every combined lane is NaN (18 R297). -/
def Fold.value (f : Fold) (t : LTy) (op : RedOp) : Word :=
  if t == .f32 && (op == .min || op == .max) && f.allNan && !f.steps.isEmpty then 0x7FC00000 else f.r

/-- Combine one more lane. -/
def foldLane (fp : DWord) (t : LTy) (op : RedOp) (f : Fold) (l : Nat) (v : Word) : Fold :=
  let (r, c) := redStep fp t op f.r v
  let g : Fold := ⟨f.steps ++ [(l, 0, 0)], r, f.c.add c, f.allNan && fF32.isNan v.toNat⟩
  { g with steps := f.steps ++ [(l, f.value t op, g.value t op)] }

/-- Fold the active lanes in ascending order from the identity (18 R297). -/
def Ctx.foldLanes (x : Ctx) (t : LTy) (op : RedOp) (a : Reg) : Fold :=
  x.lanes.foldl (fun f l => foldLane x.g.fpcsr t op f l (x.v a l)) ⟨[], redIdentity t op, Counts.zero, true⟩

/-- VREDA (18 R297). -/
def execVreda (c : Ctl) (t : LTy) (op : RedOp) (d a : Reg) (s : State) : Host.Outcome State Fault Refusal :=
  runInstr (.vreda c t op d a) (fun x u =>
    let f := x.foldLanes t op a
    .ok (x.count f.c (x.setV d (fun _ => f.value t op) u))) s

/-- VSCAN (18 R297): each active lane receives the combination after its own value, or before it when exclusive. -/
def execVscan (c : Ctl) (ex : Bool) (t : LTy) (op : RedOp) (d a : Reg) (s : State) :
    Host.Outcome State Fault Refusal :=
  runInstr (.vscan c ex t op d a) (fun x u =>
    let f := x.foldLanes t op a
    let val := fun l => ((f.steps.find? fun y => y.1 == l).map fun y => if ex then y.2.1 else y.2.2).getD 0
    .ok (x.count f.c (x.setV d val u))) s

end Sys2Proof.Machine
end

