-- ==== Sys2Proof/Machine/Scratch.lean ====
section
/-! DEFINITION. Scratchpad loads, stores and atomics, the transpose tile and LAYSET, major opcodes 0xC0 to 0xC8 (19
R309 to R314). -/

namespace Sys2Proof.Machine

open Sys2Proof

/-- The address of lane `l` (19 R309). -/
def Ctx.laneAddr (x : Ctx) (a : Reg) (off : Off) (l : Nat) : Int := addrOf (x.s a (sliceOf l)) off + 4 * l

/-- The addresses of the active lanes, checked before any lane acts. -/
def Ctx.laneAddrs (x : Ctx) (a : Reg) (off : Off) : Except Stop (List Nat) := do
  let as := x.lanes.map (x.laneAddr a off)
  x.checkAddrs as 4
  .ok (as.map Int.toNat)

/-- LD (19 R309). -/
def execLd (c : Ctl) (ty : Ty) (d a : Reg) (off : Off) (s : State) : Host.Outcome State Fault Refusal :=
  runInstr (.ld c ty d a off) (fun x t => do
    x.typeCheck ty
    let as ← x.laneAddrs a off
    let val := fun l => BitVec.ofNat 32 ((spOf t x.pid).readNat (x.laneAddr a off l).toNat 4)
    .ok (x.bankCost as (x.setV d val t))) s

/-- ST (19 R309): lanes in ascending order, so that the higher one's byte stands. -/
def execSt (c : Ctl) (ty : Ty) (a b : Reg) (off : Off) (s : State) : Host.Outcome State Fault Refusal :=
  runInstr (.st c ty a b off) (fun x t => do
    x.typeCheck ty
    let as ← x.laneAddrs a off
    let store := fun (m : Memory) l => m.writeNat (x.laneAddr a off l).toNat 4 (x.v b l).toNat
    let t1 := updSp t x.pid fun m => x.lanes.foldl store m
    x.stored (as.map fun a => (a, 4)) (x.bankCost as t1)) s

/-! ## Through a layout word -/

/-- The address of lane `l` through its slice's layout word (19 R310). -/
def Ctx.tensorAddr (x : Ctx) (a b : Reg) (l : Nat) : Nat :=
  let i := (x.v b l).toNat
  (x.layout a (sliceOf l)).addr x.p.alph (i % 2 ^ 16) (i / 2 ^ 16) 0 0

/-- The checks of LDT and STT: the alphabet that SUB names (19 R298), the layout words of the active lanes' slices, then the addresses (19 R310). -/
def Ctx.tensorAddrs (x : Ctx) (t : Ty) (a b : Reg) : Except Stop (List Nat) := do
  x.typeCheck t
  x.lanes.forM fun l => x.layoutAlpha (x.layout a (sliceOf l))
  let wide := t == .n64 || t == .i64 || (alphaIdx t).isSome
  check (x.lanes.all fun l =>
    let y := x.layout a (sliceOf l)
    !y.bad && Ty.ofCode y.etype == some t && !wide) cLayout 0
  let as := x.lanes.map (x.tensorAddr a b)
  if x.knows b then x.checkAddrs (as.map fun p => (p : Int)) (elemBytes x.p.alph t)
  .ok as

/-- The element that lane `l` names in a byte or word: of two that share a byte, the one of its index's parity (08
R148). -/
def Ctx.nibble (x : Ctx) (t : Ty) (b : Reg) (l : Nat) : Option Nat :=
  if halfByte t then some ((x.v b l).toNat % 2) else none

/-- The bits of an element as a lane receives them: sign-extended for I types, else zero-extended. -/
def laneOfElem (t : Ty) (w v : Nat) : Word :=
  if t.isSigned then extractField 32 true v 0 (8 * w) else BitVec.ofNat 32 v

/-- LDT (19 R310). -/
def execLdt (c : Ctl) (ty : Ty) (d a b : Reg) (s : State) : Host.Outcome State Fault Refusal :=
  runInstr (.ldt c ty d a b) (fun x t => do
    let as ← x.tensorAddrs ty a b
    let w := elemBytes x.p.alph ty
    let val := fun l =>
      let v := (spOf t x.pid).readNat (x.tensorAddr a b l) w
      match x.nibble ty b l with
      | some k => BitVec.ofNat 32 (v / 16 ^ k % 16)
      | none => laneOfElem ty w v
    .ok (x.bankCost as (x.setV d val t))) s

/-- A byte with one nibble replaced. -/
def putNibble (old k v : Nat) : Nat := old - old / 16 ^ k % 16 * 16 ^ k + v % 16 * 16 ^ k

/-- STT (19 R310). -/
def execStt (c : Ctl) (ty : Ty) (a b cc : Reg) (s : State) : Host.Outcome State Fault Refusal :=
  runInstr (.stt c ty a b cc) (fun x t => do
    let as ← x.tensorAddrs ty a b
    let w := elemBytes x.p.alph ty
    let store := fun (m : Memory) l =>
      let p := x.tensorAddr a b l
      let v := (x.v cc l).toNat
      m.writeNat p w (match x.nibble ty b l with
        | some k => putNibble (m.readNat p w) k v
        | none => v)
    let t1 := updSp t x.pid fun m => x.lanes.foldl store m
    x.stored (as.map fun p => (p, w)) (x.bankCost as t1)) s

/-- An element repeated to fill a lane (19 R311). -/
def fillLane (w v : Nat) : Word := packLane (4 / w) fun _ => v

/-- LDB (19 R311): each slice of the fragment reads one element. -/
def execLdb (c : Ctl) (ty : Ty) (d a : Reg) (off : Off) (s : State) : Host.Outcome State Fault Refusal :=
  runInstr (.ldb c ty d a off) (fun x t => do
    x.typeCheck ty
    let w := elemBytes x.p.alph ty
    let used := x.slices.filter fun i => x.lanes.any fun l => sliceOf l == i
    let addr := x.sliceAddr a off
    x.checkAddrs (used.map addr) w
    let val := fun l => fillLane w ((spOf t x.pid).readNat (addr (sliceOf l)).toNat w)
    .ok (x.bankCost (used.map fun i => (addr i).toNat) (x.setV d val t))) s

/-! ## Core-scope atomics -/

/-- The new word of an atomic (19 Table 19-2): `v` is the operand, `cmp` the comparand of CAS. -/
def atomWord (fp : DWord) (t : LTy) (op : AtOp) (old v cmp : Word) : Word × Counts :=
  match op with
  | .add => redStep fp t .add old v
  | .min => redStep fp t .min old v
  | .max => redStep fp t .max old v
  | .and => redStep fp t .and old v
  | .or => redStep fp t .or old v
  | .xor => redStep fp t .xor old v
  | .swap => (v, Counts.zero)
  | .cas => (if old = cmp then v else old, Counts.zero)

/-- What the lanes of an ATS have done so far: the scratchpad, old values and counts. -/
structure AtsRun where
  mem : Memory
  olds : List (Nat × Word)
  n : Counts

/-- One lane of ATS. -/
def atsLane (x : Ctx) (t : LTy) (op : AtOp) (d a b : Reg) (off : Off) (r : AtsRun) (l : Nat) : AtsRun :=
  let p := (x.laneAddr a off l).toNat
  let old := BitVec.ofNat 32 (r.mem.readNat p 4)
  let new := atomWord x.g.fpcsr t op old (x.v b l) (x.v d l)
  ⟨r.mem.writeNat p 4 new.1.toNat, r.olds ++ [(l, old)], r.n.add new.2⟩

/-- ATS (19 R312): lanes in ascending order, at one point of the core's order. -/
def execAts (c : Ctl) (ret : Bool) (ty : LTy) (op : AtOp) (d a b : Reg) (off : Off) (s : State) :
    Host.Outcome State Fault Refusal :=
  runInstr (.ats c ret ty op d a b off) (fun x t => do
    let as ← x.laneAddrs a off
    let r := x.lanes.foldl (atsLane x ty op d a b off) ⟨spOf t x.pid, [], Counts.zero⟩
    let t1 := updSp t x.pid fun _ => r.mem
    let val := fun l => ((r.olds.find? fun o => o.1 == l).map (·.2)).getD 0
    let t2 := if ret then x.setV d val t1 else t1
    x.stored (as.map fun a => (a, 4)) (x.bankCost as (x.count r.n t2))) s

/-! ## The transpose tile -/

/-- The panel owns the tile, which is cleared when it belonged to another (08 R155). -/
def Ctx.ownTile (x : Ctx) (s : State) : State :=
  updCore s x.p.core fun c => if c.tileOwner = some x.pid then c else { c with tile := [], tileOwner := some x.pid }

/-- The row or column of lane `l`, from the one that the low slice names (19 R313). -/
def tileLine (r l : Nat) : Nat := if l < 16 then r else (r + 1) % 64

/-- The row or column that the low slice names. -/
def Ctx.tileBase (x : Ctx) (a : Reg) : Nat := (x.sLow a).toNat % 64

/-- TRTW (19 R313). -/
def execTrtw (c : Ctl) (a b : Reg) (s : State) : Host.Outcome State Fault Refusal :=
  runInstr (.trtw c a b) (fun x t =>
    let store := fun (m : Memory) l => m.writeNat (tileLine (x.tileBase a) l * 64 + 4 * (l % 16)) 4 (x.v b l).toNat
    .ok (updCore (x.ownTile t) x.p.core fun k => { k with tile := x.lanes.foldl store k.tile })) s

/-- What lane `l` reads of a column. -/
def tileColumn (m : Memory) (col l : Nat) : Word :=
  packLane 4 fun j => (m.get ((4 * (l % 16) + j) * 64 + col)).toNat

/-- TRTR (19 R313). -/
def execTrtr (c : Ctl) (d a : Reg) (s : State) : Host.Outcome State Fault Refusal :=
  runInstr (.trtr c d a) (fun x t =>
    let u := x.ownTile t
    .ok (x.setV d (fun l => tileColumn (coreAt u x.p.core).tile (tileLine (x.tileBase a) l) l) u)) s

/-! ## LAYSET -/

/-- Bits [lo + w − 1 : lo] of a number replaced. -/
def setBits (n lo w v : Nat) : Nat := n - n / 2 ^ lo % 2 ^ w * 2 ^ lo + v % 2 ^ w * 2 ^ lo

/-- The three registers of a layout word with one field set (19 R314, Table 19-3). -/
def setLayout (f : LayFld) (v : Nat) (l : Nat × Nat × Nat) : Nat × Nat × Nat :=
  match f with
  | .base => (setBits l.1 0 20 v, l.2)
  | .mode => (setBits l.1 20 4 v, l.2)
  | .etype => (setBits l.1 24 8 v, l.2)
  | .s1 => (l.1, setBits l.2.1 0 20 v, l.2.2)
  | .s2 => (l.1, setBits l.2.1 20 12 v, setBits l.2.2 0 8 (v / 2 ^ 12))
  | .s3 => (l.1, l.2.1, setBits l.2.2 8 20 v)
  | .adv => (setBits l.1 0 20 (l.1 % 2 ^ 20 + v % 2 ^ 20), l.2)

/-- LAYSET (19 R314). -/
def execLayset (c : Ctl) (f : LayFld) (d a : Reg) (x1 : Word) (s : State) : Host.Outcome State Fault Refusal :=
  runInstr (.layset c f d a x1) (fun x t =>
    let v := fun i => (x.s a i + x1.signExtend 64).toNat
    let w := fun i => setLayout f (v i) ((x.s d i).toNat, (x.s (d + 1) i).toNat, (x.s (d + 2) i).toNat)
    let t1 := x.setS d (fun i => BitVec.ofNat 64 (w i).1) t
    let t2 := x.setS (d + 1) (fun i => BitVec.ofNat 64 (w i).2.1) t1
    .ok (x.setS (d + 2) (fun i => BitVec.ofNat 64 (w i).2.2) t2)) s

end Sys2Proof.Machine
end

