-- ==== Sys2Proof/Machine/Matrix.lean ====
section
/-! DEFINITION. Matrix instructions at issue, major opcodes 0xD0 to 0xD6 (20 R315 to R326, 07 R138, R139): checks, the
rendezvous, and the commands they send. -/

namespace Sys2Proof.Machine

open Sys2Proof

/-! ## Accumulator rows -/

/-- tinfo of a row beyond the accumulator (20 R315). -/
def rowInfo (row : Nat) : DWord := BitVec.ofNat 64 (2 ^ 63 + 512 * row)

/-- Rows `first` to `first + count − 1` exist (20 R315). -/
def Ctx.rowsCheck (x : Ctx) (first count : Nat) : Except Stop Unit :=
  check (decide (first + count ≤ x.p.hdr.rows)) cSpRange (rowInfo (max first x.p.hdr.rows))

/-! ## Layouts and addresses -/

/-- The layout words of sN, sN+1 and sN+2 in the fragment's lowest slice (20 R316). -/
def Ctx.layWords (x : Ctx) (n : Reg) : List Nat :=
  [(x.sLow n).toNat % 2 ^ 32, (x.sLow (n + 1)).toNat % 2 ^ 32, (x.sLow (n + 2)).toNat % 2 ^ 32]

/-- A layout from its three words. -/
def layOf (ws : List Nat) : Layout := layoutOf (ws.getD 0 0) (ws.getD 1 0) (ws.getD 2 0)

/-- Addresses with their widths: ALIGN for all, then SP_RANGE for all (13 R218). -/
def Ctx.checkRanges (x : Ctx) (as : List (Nat × Nat)) : Except Stop Unit := do
  as.forM fun a => alignCheck a.1 a.2
  as.forM fun a => x.rangeCheck a.1 a.2

/-- The elements of rows 0 to `count` − 1 of 128 columns through a layout (20 R317, R318). -/
def tileAddrs (lay : Layout) (al : Vector (BitVec 256) 16) (count : Nat) : List (Nat × Nat) :=
  (List.range count).flatMap fun i => (List.range 128).map fun n => (lay.addr al n i 0 0, lay.width al)

/-- The element type of a format index is the layout's (20 Table 20-1). -/
def indexIsType (index : Nat) (lay : Layout) : Bool :=
  match Ty.ofCode lay.etype with
  | some t => formatIndex t == index
  | none => false

/-- K per pass of a format (20 Table 20-1), with its alphabet register. -/
def passK (index : Nat) (alpha : BitVec 256) : Nat :=
  if index ≤ 4 then 128
  else if index ≤ 6 then 64
  else if index ≤ 9 then 256
  else if (alphaOf alpha).maxRadix ≤ 3 then 512
  else 256

/-- The scale bytes or records that the first `n` elements of the given rows or columns take, in a pass of length K (20 R320). -/
def scaleAddrs (sc : Scale) (k n : Nat) (is : List Nat) : List (Nat × Nat) :=
  match sc with
  | .none => []
  | .bx _ a => is.flatMap fun i => (List.range (min ((n + 31) / 32) (k / 32))).map fun m => (a + (i * (k / 32) + m) / 2, 1)
  | .qa g a => is.flatMap fun i => (List.range (min ((n + g - 1) / g) (k / g))).map fun m => (a + 4 * (i * (k / g) + m), 4)

/-- The scale state that an operand of a format uses. -/
def usedScale (index : Nat) (sc : Scale) : Scale :=
  if index = 3 ∨ index = 4 ∨ index = 8 ∨ index = 9 then sc else .none

/-- The alphabet register that an operand of a format uses; 0 for a format without one. -/
def Ctx.usedAlpha (x : Ctx) (index : Nat) (lay : Layout) : BitVec 256 :=
  if index = 10 then ((layAlpha lay).map fun n => vget x.p.alph n 0).getD 0 else 0

/-- The alphabet behind an operand is defined, and eligible where its format uses it (11 R193, R202). -/
def Ctx.matrixAlpha (x : Ctx) (index : Nat) (lay : Layout) : Except Stop Unit :=
  match layAlpha lay with
  | some n => do
    x.alphaCheck n
    check (index != 10 || (x.alpha n).eligible) cAlphabet (BitVec.ofNat 64 n)
  | none => .ok ()

/-- The alphabet register that a type names; 0 for a type without one. -/
def Ctx.typeAlphabet (x : Ctx) (t : Ty) : BitVec 256 := ((alphaIdx t).map fun n => vget x.p.alph n 0).getD 0

/-- The alphabet that a type names is defined and eligible (11 R193, R202). -/
def Ctx.typeAlpha (x : Ctx) (t : Ty) : Except Stop Unit := do
  x.typeCheck t
  check ((alphaIdx t).all fun n => (x.alpha n).eligible) cAlphabet (BitVec.ofNat 64 ((alphaIdx t).getD 0))

/-- The layout word of an operand is accepted (20 R319). -/
def layoutFits (index : Nat) (lay : Layout) : Except Stop Unit := check (!lay.bad && indexIsType index lay) cLayout 0

/-- The elements of A that the given rows read, of length `k`. -/
def rowAddrs (lay : Layout) (al : Vector (BitVec 256) 16) (k : Nat) (is : List Nat) : List (Nat × Nat) :=
  is.flatMap fun i => (List.range k).map fun j => (lay.addr al j i 0 0, lay.width al)

/-! ## Instructions -/

/-- MXZ (20 R317). -/
def execMxz (c : Ctl) (first count : BitVec 12) (s : State) : Host.Outcome State Fault Refusal :=
  runInstr (.mxz c first count) (fun x t => do
    x.rowsCheck first.toNat count.toNat
    .ok (x.issue .matrix (.mxz first.toNat count.toNat) t)) s

/-- The checks that MXWR and the scratchpad form of MXRD make at issue (20 R317, R318). -/
def Ctx.tileCheck (x : Ctx) (t : Ty) (a : Reg) (first count : Nat) : Except Stop Unit := do
  let lay := layOf (x.layWords a)
  x.layoutAlpha lay
  check (!lay.bad && Ty.ofCode lay.etype == some t) cLayout 0
  let as := tileAddrs lay x.p.alph count
  as.forM fun a => alignCheck a.1 a.2
  x.rowsCheck first count
  as.forM fun a => x.rangeCheck a.1 a.2

/-- MXWR (20 R317). -/
def execMxwr (c : Ctl) (ty : Ty) (a : Reg) (first count : BitVec 12) (s : State) : Host.Outcome State Fault Refusal :=
  runInstr (.mxwr c ty a first count) (fun x t => do
    x.tileCheck ty a first.toNat count.toNat
    .ok (x.issue .matrix (.mxwr ty (x.layWords a) first.toNat count.toNat) t)) s

/-- Registers per row of MXRD (20 R318). -/
def rowRegs (t : Ty) : Nat := 4 / t.perLane

/-- MXRD (20 R318): to scratchpad, or to registers, which become EMPTY. -/
def execMxrd (c : Ctl) (toReg : Bool) (ty : Ty) (d : Reg) (first count : BitVec 12) (s : State) :
    Host.Outcome State Fault Refusal :=
  runInstr (.mxrd c toReg ty d first count) (fun x t => do
    if toReg then
      x.rowsCheck first.toNat count.toNat
      if x.act = 0 then .ok t
      else
        let t1 := issueCmd t x.pid x.gi .matrix (.mxrdReg ty d.toNat x.act first.toNat count.toNat)
          fun k => { k with act := x.act }
        .ok ((List.range (count.toNat * rowRegs ty)).foldl (fun u i => x.await (d.toNat + i) t.nextId u) t1)
    else
      x.tileCheck ty d first.toNat count.toNat
      .ok (x.issue .matrix (.mxrdSp ty (x.layWords d) first.toNat count.toNat) t)) s

/-- The scale state that MXSC sets (20 R320). -/
def Ctx.scaleOf (x : Ctx) (kind : MxScale) (a b : Reg) : Scale :=
  let at_ := (x.sLow b).toNat
  match kind with
  | .bx => .bx (x.sLow a |>.setWidth 8 : BitVec 8).toInt at_
  | .qa32 => .qa 32 at_
  | .qa64 => .qa 64 at_
  | .qa128 => .qa 128 at_
  | .none => .none

/-- KIND is QA. -/
def isQa : MxScale → Bool
  | .qa32 | .qa64 | .qa128 => true
  | _ => false

/-- MXSC (20 R320). -/
def execMxsc (c : Ctl) (opB : Bool) (kind : MxScale) (a b : Reg) (s : State) : Host.Outcome State Fault Refusal :=
  runInstr (.mxsc c opB kind a b) (fun x t => do
    check (!(isQa kind && (x.sLow b).toNat % 4 != 0)) cAlign (x.sLow b)
    let sc := x.scaleOf kind a b
    .ok (x.updG (fun g => if opB then { g with mxB := sc } else { g with mxA := sc }) t)) s

/-- MXCK (20 R326, Table 20-4). -/
def execMxck (c : Ctl) (clr : Bool) (d : Reg) (s : State) : Host.Outcome State Fault Refusal :=
  runInstr (.mxck c clr d) (fun x t =>
    let v : DWord := BitVec.ofNat 64 (x.p.ckFail % 2 ^ 16 * 2 ^ 32 + x.p.ckUnchk % 2 ^ 32)
    let t1 := if clr then x.updP (fun p => { p with ckFail := 0, ckUnchk := 0 }) t else t
    .ok (x.setS d (fun _ => v) t1)) s

/-- MXIL (20 R325). -/
def execMxil (c : Ctl) (ty : Ty) (a : Reg) (krows : BitVec 10) (s : State) : Host.Outcome State Fault Refusal :=
  runInstr (.mxil c ty a krows) (fun x t => do
    let lay := layOf (x.layWords a)
    let index := formatIndex ty
    x.typeAlpha ty
    x.layoutAlpha lay
    let alpha := x.typeAlphabet ty
    let k := passK index alpha
    check (decide (krows.toNat ≤ k)) cIllegal 0
    check (!lay.bad && Ty.ofCode lay.etype == some ty) cLayout 0
    let n := if krows = 0 then k else krows.toNat
    x.checkRanges (tileAddrs lay x.p.alph n ++ scaleAddrs (usedScale index x.g.mxB) k n (List.range 128))
    .ok (x.issue .matrix (.mxil index (x.layWords a) x.g.mxB alpha n) t)) s

/-! ## MMA -/

/-- What an MMA reads at its gang's issue (20 R321, R322). -/
def Ctx.arrival (x : Ctx) (ta tb : Nat) (a b cc : Reg) : Arrival where
  gang := x.gi
  rows := x.lanes.map fun l => (l, (x.v a l).toNat % 2 ^ 16, (x.v a l).toNat / 2 ^ 16)
  layA := x.layWords b
  scaleA := usedScale ta x.g.mxA
  alphaA := x.usedAlpha ta (layOf (x.layWords b))
  scaleB := x.g.mxB
  alphaB := x.usedAlpha tb (layOf (x.layWords cc))
  tid := x.g.tid

/-- The checks of an MMA before its gang arrives (20 R321). -/
def Ctx.mmaCheck (x : Ctx) (ta tb : Nat) (a b cc : Reg) : Except Stop Unit := do
  let la := layOf (x.layWords b)
  let lb := layOf (x.layWords cc)
  x.matrixAlpha ta la
  x.matrixAlpha tb lb
  layoutFits ta la
  layoutFits tb lb
  let y := x.arrival ta tb a b cc
  let k := min (passK ta y.alphaA) (passK tb y.alphaB)
  let rows := if x.knows a then y.rows else []
  let ias := rows.map fun r => r.2.1
  let as := rowAddrs la x.p.alph k ias ++ tileAddrs lb x.p.alph k ++ scaleAddrs y.scaleA k k ias
    ++ scaleAddrs (usedScale tb y.scaleB) k k (List.range 128)
  as.forM fun a => alignCheck a.1 a.2
  rows.forM fun r => x.rowsCheck r.2.2 1
  as.forM fun a => x.rangeCheck a.1 a.2

/-- Send an accepted MMA: one command that joins the open MATRIX batch of each gang (20 R322). -/
def sendMma (s : State) (pid : Nat) (lead ta tb : Nat) (keepb ck : Bool) (layB : List Nat) (as : List Arrival) :
    State :=
  match getPanel s pid, as.head? with
  | some p, some y =>
    let bid := fun gi => ((p.gangs[gi]?).map fun g => (openOf g .matrix).bid).getD 0
    let join := fun (g : Gang) => { g with
      opens := g.opens.map fun b => if b.cls == .matrix then b.join s.nextId else b }
    let cmd := mkCmd s.nextId (.gangs pid (as.map fun a => (a.gang, bid a.gang))) p.core .matrix
      (.mma lead ta tb keepb ck layB y.scaleB y.alphaB as) p.hdr.asid y.tid p.alph
    let s1 := as.foldl (fun t a => updGang t pid a.gang join) s
    { s1 with cmds := s1.cmds ++ [cmd], nextId := s1.nextId + 1 }
  | _, _ => s

/-- The list names no valid set of gangs with the issuing one among them (20 R321). -/
def badList (list gi gangs : Nat) : Bool :=
  let gs := listGangs list
  (distinct gs).length != gs.length || gs.any (fun g => decide (gangs ≤ g)) || !gs.contains gi
    || list / 2 ^ (3 + 5 * (list % 8)) != 0

/-- The rendezvous fails and the arriving gang traps too (07 R139). -/
def Ctx.mismatch (x : Ctx) (lead : Nat) (s : State) : Body :=
  let s1 := failRendezvous (x.back s) x.pid lead
  .error (.ended (takeTrap s1 x.pid x.gi x.ei (mkTrap cMmaMismatch (BitVec.ofNat 64 lead)) false))

/-- Release the gangs that wait in a rendezvous, in the cycle after acceptance (20 R323). -/
def Ctx.releaseJoint (x : Ctx) (lead : Nat) (s : State) : State :=
  let later := fun (e : SplitEntry) =>
    if e.valid && e.blk == some (.rendezvous lead) then { e with nextIssue := max e.nextIssue (x.p.clk + 1) } else e
  x.updP (fun p => releaseWhere (fun _ e => e.blk == some (.rendezvous lead)) 8
    { p with gangs := p.gangs.map (fun g => { g with split := g.split.map later })
             latches := p.latches.filter fun l => l.lead != lead }) s

/-- Put a latch in the place of the lead's. -/
def setLatch (l : Latch) (ls : List Latch) : List Latch := (ls.filter fun m => m.lead != l.lead) ++ [l]

/-- A gang arrives at a rendezvous (07 R138, R139): it waits, or it is the last and the engine accepts. -/
def Ctx.arrive (x : Ctx) (ta tb : Nat) (keepb ck : Bool) (list : Nat) (layB : List Nat) (y : Arrival) (s : State) :
    Body :=
  let lead := listSlot list 0
  let gs := listGangs list
  let sub := tb * 16 + ta
  let mod := keepb.toNat + 2 * ck.toNat
  let gone := gs.any fun g => (x.p.gangs[g]?).elim true (gangExited x.p.hdr)
  let new : Latch := ⟨lead, list, layB, sub, mod, []⟩
  let old := (x.p.latches.find? fun l => l.lead == lead).getD new
  if gone || old.list != list || old.layB != layB || old.sub != sub || old.mod != mod then x.mismatch lead s
  else
    let l := { old with arrivals := old.arrivals ++ [y] }
    if gs.all fun g => l.arrivals.any fun a => a.gang == g then
      let as := gs.filterMap fun g => l.arrivals.find? fun a => a.gang == g
      .ok (x.releaseJoint lead (sendMma s x.pid lead ta tb keepb ck layB as))
    else .error (.park (x.updP (fun p => { p with latches := setLatch l p.latches }) s) (.rendezvous lead))

/-- MMA (20 R321, R322). -/
def execMma (c : Ctl) (ta tb : BitVec 4) (keepb ck : Bool) (d a b cc : Reg) (s : State) :
    Host.Outcome State Fault Refusal :=
  runInstr (.mma c ta tb keepb ck d a b cc) (fun x t => do
    x.mmaCheck ta.toNat tb.toNat a b cc
    let list := (x.sLow d).toNat % 2 ^ 33
    let y := x.arrival ta.toNat tb.toNat a b cc
    let lead := listSlot list 0
    if list % 8 = 0 then .ok (sendMma t x.pid x.gi ta.toNat tb.toNat keepb ck (x.layWords cc) [y])
    else
      check (list % 8 != 1 && list % 8 != 7 && x.whole) cMmaMismatch (BitVec.ofNat 64 lead)
      if badList list x.gi x.p.gangs.length then x.mismatch lead t
      else x.arrive ta.toNat tb.toNat keepb ck list (x.layWords cc) y t) s

end Sys2Proof.Machine
end

