-- ==== Sys2Proof/Machine/MatrixRun.lean ====
section
/-! DEFINITION. What the matrix engine does with an accepted command: passes, drains, the B latch and the checksum (10
R188 to R190, 13 R229, R230, 20 R317, R318, R322, R324, R325). -/

namespace Sys2Proof.Machine

open Sys2Proof

/-- A panel's scratchpad as a command sees it: lines that it has read already stay as they were (09 R163). -/
def imageOf (s : State) (c : Cmd) : Memory := c.lines.foldl (fun m l => m.write (64 * l.1) l.2) (spOf s c.pid)

/-! ## Operand values -/

/-- An operand of a pass: format index, layout, alphabet, scale, the K by which its scales are indexed, and whether it
is B. -/
structure MatOp where
  index : Nat
  lay : Layout
  alpha : BitVec 256
  scale : Scale
  k : Nat
  isB : Bool

/-- The alphabet of an operand as every register of a file, for its layout addresses. -/
def MatOp.regs (o : MatOp) : Vector (BitVec 256) 16 := Vector.replicate 16 o.alpha

/-- The address of element `k` of row or column `i` (20 R322). -/
def MatOp.addr (o : MatOp) (k i : Nat) : Nat := if o.isB then o.lay.addr o.regs i k 0 0 else o.lay.addr o.regs k i 0 0

/-- The index along dimension 0 of element `k` of row or column `i`. -/
def MatOp.dim0 (o : MatOp) (k i : Nat) : Nat := if o.isB then i else k

/-- The type of an operand. -/
def MatOp.ty (o : MatOp) : Ty := (Ty.ofCode o.lay.etype).getD .n8

/-- The raw code of an element. -/
def MatOp.raw (o : MatOp) (m : Memory) (k i : Nat) : Nat :=
  let v := m.readNat (o.addr k i) (elemBytes o.regs o.ty)
  if halfByte o.ty then v / 16 ^ (o.dim0 k i % 2) % 16 else v

/-- An integer as an exact value. -/
def intVal (n : Int) : FVal := .fin (decide (n < 0)) n.natAbs 0

/-- The record of group `k / G` of a row or column: scale and zero point (10 R181, 20 R320). -/
def MatOp.record (o : MatOp) (m : Memory) (k i : Nat) : FVal × Nat :=
  match o.scale with
  | .qa g a =>
    let r := m.readNat (a + 4 * (i * (o.k / g) + k / g)) 4
    (fF16.value (r % 2 ^ 16), r / 2 ^ 16 % 256)
  | _ => (oneVal, 0)

/-- The exponent that a block scale gives an element (10 R180, 20 R320). -/
def MatOp.blockExp (o : MatOp) (m : Memory) (k i : Nat) : Int :=
  match o.scale with
  | .bx b a =>
    let n := i * (o.k / 32) + k / 32
    b - ((m.get (a + n / 2)).toNat / 16 ^ (n % 2) % 16 : Nat)
  | _ => 0

/-- The value of an element without the scale of its group (10 R178 to R181, 11 R198). -/
def MatOp.inner (o : MatOp) (m : Memory) (k i : Nat) : FVal :=
  let r := o.raw m k i
  match o.ty with
  | .i8 => intVal (intOf true 8 r)
  | .bx8 => (intVal (intOf true 8 r)).scale2 (o.blockExp m k i)
  | .bx4 => (intVal (intOf true 4 r)).scale2 (o.blockExp m k i)
  | .qa8 => intVal ((r : Int) - (o.record m k i).2)
  | .qa4 => intVal ((r : Int) - (o.record m k i).2)
  | .alpha _ =>
    let al := alphaOf o.alpha
    let j := o.dim0 k i % al.k
    symFVal (al.value ((al.decode r).getD j 0) j)
  | t => (fmtOf t).value r

/-- The value of an element. -/
def MatOp.full (o : MatOp) (m : Memory) (k i : Nat) : FVal := (o.inner m k i).mul (o.record m k i).1

/-- The groups of an operand, as their first K; one group of all when it has no group scale. -/
def MatOp.group (o : MatOp) (k : Nat) : Nat :=
  match o.scale with
  | .qa g _ => g
  | _ => k

/-! ## Passes -/

/-- An exponent below those of every product and every accumulator value (13 R230). -/
abbrev sumE : Int := -330

/-- A finite value as an integer in units of 2^`e0`, which is at most its exponent. -/
def FVal.unitsAt (e0 : Int) (v : FVal) : Int :=
  match v with
  | .fin s m e => signedAt s m e e0
  | _ => 0

/-- The exponent of a finite value, else 0. -/
def FVal.exp : FVal → Int
  | .fin _ _ e => e
  | _ => 0

/-- An exponent at or below those of all the values. -/
def lowestExp (vs : List FVal) : Int := (vs.map FVal.exp).foldl min 0

/-- A finite value as an integer at `sumE`. -/
def FVal.units (v : FVal) : Int := v.unitsAt sumE

/-- A value is finite. -/
def FVal.isFin (v : FVal) : Bool :=
  match v with
  | .fin .. => true
  | _ => false

/-- The exact sum of products (10 R189). -/
def FVal.sum (vs : List FVal) : FVal :=
  if vs.any (· == .nan) || (vs.any (· == .inf true) && vs.any (· == .inf false)) then .nan
  else if vs.any (· == .inf true) then .inf true
  else if vs.any (· == .inf false) then .inf false
  else
    let e := lowestExp vs
    let n := (vs.map (FVal.unitsAt e)).sum
    .fin (decide (n < 0)) n.natAbs e

/-- The terms of a pass for a row and a column: products, or for a group-quantised operand the scaled brackets of its
groups (10 R190). DESIGN CHOICE (log entry 124): of two group-quantised operands the scale of A is applied to each product within the
bracket of B, which shows only where that scale is infinite or a NaN. -/
def passTerms (m mb : Memory) (a b : MatOp) (k ia n : Nat) : List FVal :=
  let g := if b.index = 3 ∨ b.index = 9 then b.group k else a.group k
  if b.index = 3 ∨ b.index = 9 then
    (List.range (k / g)).map fun j =>
      (FVal.sum ((List.range g).map fun e => (a.full m (j * g + e) ia).mul (b.inner mb (j * g + e) n))).mul
        (b.record mb (j * g) n).1
  else if a.index = 3 ∨ a.index = 9 then
    (List.range (k / g)).map fun j =>
      (FVal.sum ((List.range g).map fun e => (a.inner m (j * g + e) ia).mul (b.full mb (j * g + e) n))).mul
        (a.record m (j * g) ia).1
  else (List.range k).map fun e => (a.full m e ia).mul (b.full mb e n)

/-- RNE32 of an exact sum (10 R188). -/
def rne32 (v : FVal) : Elem := fF32.ofVal .rne true v

/-- One add of a sub-sum into an accumulator value (10 R188). -/
def addPass (acc : Elem) (terms : List FVal) : Elem :=
  let t := rne32 (FVal.sum terms)
  let r := fF32.addV .rne true (fF32.value acc.1) (fF32.value t.1)
  (r.1, (acc.2.add t.2).add r.2)

/-- MatrixPass (10 R188). -/
def matrixPass (half : Bool) (acc : Nat) (terms : List FVal) : Elem :=
  if half then (List.range 4).foldl (fun r i => addPass r ((terms.drop (16 * i)).take 16)) (plainElem acc)
  else addPass (plainElem acc) terms

/-- An accumulator value (20 R315). -/
def accAt (m : Memory) (r n : Nat) : Nat := m.readNat (512 * r + 4 * n) 4

/-- Set an accumulator value. -/
def accPut (m : Memory) (r n v : Nat) : Memory := m.writeNat (512 * r + 4 * n) 4 v

/-- One row of an MMA: every column of accumulator row `r` takes the pass of A row `ia` (20 R322). -/
def mmaRow (m mb : Memory) (a b : MatOp) (k : Nat) (st : Memory × Counts) (r : Nat × Nat × Nat) : Memory × Counts :=
  (List.range 128).foldl (fun st n =>
    let e := matrixPass (a.index = 5 ∨ a.index = 6) (accAt st.1 r.2.2 n) (passTerms m mb a b k r.2.1 n)
    (accPut st.1 r.2.2 n e.1, st.2.add e.2)) st

/-! ## Invalid containers -/

/-- The invalid containers that an operand's elements lie in, each with its alphabet register (11 R199). -/
def MatOp.badContainers (o : MatOp) (m : Memory) (k : Nat) (is : List Nat) : List (Nat × Nat) :=
  match o.index, layAlpha o.lay with
  | 10, some r =>
    let al := alphaOf o.alpha
    let cs := distinct (is.flatMap fun i => (List.range k).map fun j => o.addr j i)
    (cs.filter fun p => !al.valid (m.readNat p al.bytes)).map fun p => (r, p)
  | _, _ => []

/-- Count the invalid containers that one command reads, each once in its alphabet register (11 R199, 20 R322). DESIGN CHOICE (log
entry 126): in the register as it stands when the command counts, also when ALDEF has written it since the issue. -/
def countBad (pid : Nat) (cs : List (Nat × Nat)) (s : State) : State :=
  (distinct cs).foldl (fun t c =>
    updPanel t pid fun p => { p with alph := vset p.alph c.1 (raiseInvalid 1 (vget p.alph c.1 0)) }) s

/-! ## The B latch -/

/-- The bytes that reading B and its scales touches (20 R322, R324). -/
def MatOp.bytesOf (o : MatOp) (k : Nat) (m : Memory) : Memory :=
  let as := (List.range 128).flatMap fun n => (List.range k).map fun j => (o.addr j n, elemBytes o.regs o.ty)
  let bs := as ++ scaleAddrs o.scale o.k k (List.range 128)
  m.filter fun c => bs.any fun a => decide (a.1 ≤ c.1 ∧ c.1 < a.1 + a.2)

/-- What the tag of the latch compares of an MMA or MXIL (20 R324): its panel and lead, the B layout word, the format
index, the alphabet copy and the B scale state of its gang, whether the format uses it or not. -/
structure BTag where
  pid : Nat
  owner : Nat
  lay : List Nat
  fmt : Nat
  alpha : BitVec 256
  scale : Scale
deriving DecidableEq, Repr

/-- The tag that the latch holds. -/
def BLatch.tag (l : BLatch) : BTag := ⟨l.pid, l.owner, l.lay, l.fmt, l.alpha, l.scale⟩

/-- The latch hits (20 R324). -/
def BLatch.hits (l : BLatch) (t : BTag) (k : Nat) : Bool := l.kept && l.tag == t && decide (k ≤ l.krows)

/-- The latch filled with the `k` rows of B that were read from scratchpad. -/
def BLatch.filled (t : BTag) (o : MatOp) (k : Nat) (m : Memory) : BLatch where
  kept := true
  pid := t.pid
  owner := t.owner
  lay := t.lay
  fmt := t.fmt
  alpha := t.alpha
  scale := t.scale
  krows := k
  kpass := o.k
  bytes := o.bytesOf k m

/-- The latch after an MMA that did or did not read B (20 R324). -/
def BLatch.after (l : BLatch) (t : BTag) (keepb hit : Bool) (o : MatOp) (k : Nat) (m : Memory) : BLatch :=
  if keepb then (if hit then l else BLatch.filled t o k m)
  else if l.pid = t.pid ∧ l.owner = t.owner then { l with kept := false }
  else l

/-- Record whether a lead's MMA or MXIL left KEPT set for it (20 R324). -/
def noteKept (pid lead : Nat) (left : Bool) (s : State) : State :=
  updPanel s pid fun p =>
    let rest := p.keptFor.filter fun a => a != lead
    { p with keptFor := if left then lead :: rest else rest }

/-! ## The checksum (13 R229, R230) -/

/-- Row `r` before and after an MMA passes its check: `us` are its updates. -/
def rowPasses (m mb : Memory) (before after : Memory) (r : Nat) (us : List (MatOp × MatOp × Nat × Nat)) : Bool :=
  let cols := List.range 128
  let v := fun (w : Memory) n => (fF32.value (accAt w r n)).units
  let prods := us.flatMap fun u => cols.flatMap fun n =>
    (List.range u.2.2.1).map fun k => ((u.1.full m k u.2.2.2).mul (u.2.1.full mb k n)).units
  let d := (cols.map fun n => v after n - v before n).sum
  let ref := prods.sum
  let tol := (cols.map fun n => (v before n).natAbs + (v after n).natAbs).sum + (prods.map Int.natAbs).sum
    + us.length * 2 ^ (330 - 115 + 21)
  decide ((d - ref).natAbs * 2 ^ 21 ≤ tol)

/-- Every element and scale that an operand reads is finite (13 R230). -/
def MatOp.allFin (o : MatOp) (m : Memory) (k : Nat) (is : List Nat) : Bool :=
  is.all fun i => (List.range k).all fun j => (o.inner m j i).isFin && (o.record m j i).1.isFin

/-- A row of an accumulator is finite. -/
def rowFin (w : Memory) (r : Nat) : Bool := (List.range 128).all fun n => (fF32.value (accAt w r n)).isFin

/-! ## Commands -/

/-- The latch as a MATRIX command of a core finds it: a save that follows the command that filled it in issue order has cleared
KEPT (20 R324). -/
def CoreSt.latchFor (q : CoreSt) (id : Nat) : BLatch :=
  if q.saves.any fun x => x.1 == q.latch.pid && decide (x.2 ≤ id) then { q.latch with kept := false } else q.latch

/-- A command leaves the latch of its core changed; the saves before it are accounted for. -/
def setBLatch (core id : Nat) (f : BLatch → BLatch) (s : State) : State :=
  updCore s core fun q => { q with latch := f (q.latchFor id), saves := q.saves.filter fun x => decide (id < x.2) }

/-- Operand A of an arrival, in a pass of length `k`. -/
def Arrival.opA (y : Arrival) (ta k : Nat) : MatOp := ⟨ta, layOf y.layA, y.alphaA, y.scaleA, k, false⟩

/-- The events of an MMA's passes charged, and the accumulator as it leaves it. -/
structure MmaResult where
  acc : Memory
  n : Counts

/-- The extra bank cycles of an MMA: each row of A that it reads is one access (08 R143, 20 R323; log entry 105). -/
def rowConflicts (h : Hdr) (ta kb : Nat) (as : List Arrival) : Nat :=
  (as.flatMap fun y =>
    let k := min (passK ta y.alphaA) kb
    y.rows.map fun r => h.extraCycles ((List.range k).map fun j => (y.opA ta k).addr j r.2.1)).sum

/-- MMA at its place in the core's order (20 R322, R324). The pass length of a gang is the smaller K of its own A and
of B. -/
def runMma (s : State) (c : Cmd) (lead ta tb : Nat) (keepb ck : Bool) (layB : List Nat) (scaleB : Scale)
    (alphaB : BitVec 256) (as : List Arrival) : State × Bool :=
  match getPanel s c.pid with
  | none => (s, true)
  | some p =>
    let m := imageOf s c
    let kb := passK tb alphaB
    let lens := as.map fun y => min (passK ta y.alphaA) kb
    let k := lens.foldl max 0
    let latch := (coreAt s c.core).latchFor c.id
    let ob0 : MatOp := ⟨tb, layOf layB, alphaB, usedScale tb scaleB, k, true⟩
    let tag : BTag := ⟨c.pid, lead, layB, tb, alphaB, scaleB⟩
    let hit := latch.hits tag k
    let ob := if hit then { ob0 with k := latch.kpass } else ob0
    let mb := if hit then latch.bytes else m
    let lenOf := fun (y : Arrival) => min (passK ta y.alphaA) kb
    let r := as.foldl (fun st y => y.rows.foldl (mmaRow m mb (y.opA ta (lenOf y)) ob (lenOf y)) st)
      (p.acc, Counts.zero)
    let reload := !hit && p.keptFor.contains lead
    let s1 := updPanel s c.pid fun q => chargePanel { q with acc := r.1 } c.tid r.2
    let s2 := perfAdd (setBLatch c.core c.id (fun l => l.after tag keepb hit ob k m) s1) c.pid 2 (rowConflicts p.hdr ta kb as)
    let s3 := if reload then perfAdd s2 c.pid 5 1 else s2
    let s4 := noteKept c.pid lead keepb s3
    let badA := as.flatMap fun y => (y.opA ta (lenOf y)).badContainers m (lenOf y) (y.rows.map (·.2.1))
    let badB := if hit then [] else ob.badContainers m k (List.range 128)
    let s5 := countBad c.pid (badA ++ badB) s4
    if ck then
      let rows := distinct (as.flatMap fun y => y.rows.map (·.2.2))
      let fin := rows.all (fun i => rowFin p.acc i && rowFin r.1 i) && ob.allFin mb k (List.range 128)
        && as.all fun y => (y.opA ta (lenOf y)).allFin m (lenOf y) (y.rows.map (·.2.1))
      if !fin then (updPanel s5 c.pid fun q => { q with ckUnchk := sat32 q.ckUnchk 1 }, true)
      else
        let us := fun i => as.flatMap fun y => (y.rows.filter fun x => x.2.2 == i).map fun x =>
          (y.opA ta (lenOf y), ob, lenOf y, x.2.1)
        if rows.all fun i => rowPasses m mb p.acc r.1 i (us i) then (s5, true)
        else (updPanel s5 c.pid fun q => { q with ckFail := bump16 q.ckFail }, false)
    else (s5, true)

/-- MXIL at its place in the core's order (20 R325). -/
def runMxil (s : State) (c : Cmd) (gi fmt : Nat) (lay : List Nat) (scale : Scale) (alpha : BitVec 256) (krows : Nat) :
    State :=
  let m := imageOf s c
  let o : MatOp := ⟨fmt, layOf lay, alpha, usedScale fmt scale, passK fmt alpha, true⟩
  let s1 := noteKept c.pid gi true (countBad c.pid (o.badContainers m krows (List.range 128)) s)
  setBLatch c.core c.id (fun _ => BLatch.filled ⟨c.pid, gi, lay, fmt, alpha, scale⟩ o krows m) s1

/-- MXZ (20 R317): every value of the rows becomes +0.0. -/
def runMxz (s : State) (c : Cmd) (first count : Nat) : State :=
  updPanel s c.pid fun p => { p with acc := p.acc.clear (512 * first) (512 * count) }

/-- The F32 code of an element that MXWR takes (20 R317): exact, a NaN canonical. -/
def exactF32 (t : Ty) (raw : Nat) : Nat :=
  match (fmtOf t).value raw with
  | .nan => fF32.nan
  | v => (fF32.ofVal .rne false v).1

/-- MXWR at its place in the core's order (20 R317). -/
def runMxwr (s : State) (c : Cmd) (t : Ty) (lay : List Nat) (first count : Nat) : State :=
  let m := imageOf s c
  let o : MatOp := ⟨0, layOf lay, 0, .none, 0, true⟩
  updPanel s c.pid fun p =>
    let acc := (List.range count).foldl (fun w i => (List.range 128).foldl (fun w n =>
      accPut w (first + i) n (exactF32 t (o.raw m i n))) w) p.acc
    { p with acc := acc }

/-- An accumulator value as MXRD narrows it (20 R318). -/
def drainElem (t : Ty) (v : Nat) : Elem :=
  if t = .f32 then plainElem v else (fmtOf t).narrow (.mode .rne) true (fF32.value v)

/-- The values that MXRD drains: row and column with the element. -/
def drained_ (acc : Memory) (t : Ty) (first count : Nat) : List (Nat × Nat × Elem) :=
  (List.range count).flatMap fun i => (List.range 128).map fun n => (i, n, drainElem t (accAt acc (first + i) n))

/-- What MXRD counts. -/
def drainCounts (ds : List (Nat × Nat × Elem)) : Counts := ds.foldl (fun c d => c.add d.2.2.2) Counts.zero

/-- A piece of an engine's scratchpad write: a byte, or one nibble of it (08 R148). -/
structure SpByte where
  addr : Nat
  nib : Option Nat
  v : Nat
deriving DecidableEq, Repr

/-- Store a byte or a nibble. -/
def SpByte.put (b : SpByte) (m : Memory) : Memory :=
  match b.nib with
  | none => m.put b.addr (BitVec.ofNat 8 b.v)
  | some k => m.put b.addr (BitVec.ofNat 8 (putNibble (m.get b.addr).toNat k b.v))

/-- The scratchpad bytes that the scratchpad form of MXRD stores. -/
def drainBytes (lay : Layout) (t : Ty) (ds : List (Nat × Nat × Elem)) : List SpByte :=
  ds.flatMap fun d =>
    let a := lay.addr (Vector.replicate 16 0) d.2.1 d.1 0 0
    if halfByte t then [⟨a, some (d.2.1 % 2), d.2.2.1⟩]
    else (natBytes (elemBytes (Vector.replicate 16 0) t) d.2.2.1).mapIdx fun j b => ⟨a + j, none, b.toNat⟩

/-- Lane `l` of register `q` of the register form of MXRD (20 R318). -/
def drainLane (acc : Memory) (t : Ty) (first : Nat) (q l : Nat) : Word :=
  let r := rowRegs t
  let w := t.perLane
  packLane w fun j => (drainElem t (accAt acc (first + q / r) (q % r * 32 * w + l * w + j))).1

end Sys2Proof.Machine
end

