-- ==== Sys2Proof/Machine/Engine.lean ====
section
/-! DEFINITION. Engine command instructions: the copy ring, batch control, gather, scatter and global atomics, major
opcodes 0xE0 to 0xE6, 0xEC and 0xED (21 R328 to R343). -/

namespace Sys2Proof.Machine

open Sys2Proof

/-! ## The copy ring -/

/-- The checks of CPYQ and CPYPUB on the ring registers (21 R329). -/
def Ctx.ringInBounds (x : Ctx) : Except Stop Unit := do
  let r := x.p.ring
  check (decide (r.base.toNat + 32 * r.size.toNat ≤ x.p.hdr.size)) cSpRange r.base
  check (decide (r.notify.toNat + 8 ≤ x.p.hdr.size)) cSpRange r.notify

/-- A full ring traps when FE bit A is set, else it blocks (21 R329). -/
def Ctx.ringRoom (x : Ctx) : Except Stop Unit :=
  if x.p.ring.full then (if feTraps x.ctl fA then raise cRingFull 0 else .error (.block .ring)) else .ok ()

/-- Set WIX. -/
def Ctx.setWix (x : Ctx) (w : Nat) (s : State) : State := x.updP (fun p => { p with ring := { p.ring with wix := w } }) s

/-- CPYQ (21 R329). -/
def execCpyq (c : Ctl) (a : Reg) (s : State) : Host.Outcome State Fault Refusal :=
  runInstr (.cpyq c a) (fun x t => do
    x.ringInBounds
    x.ringRoom
    let w := x.p.ring.w
    let slot := x.p.ring.slot w
    let bytes := (List.range 4).flatMap fun k => natBytes 8 (x.sLow (a + BitVec.ofNat 7 k)).toNat
    let t1 := updSp t x.pid fun m => m.write slot bytes
    x.stored [(slot, 32)] (x.setWix ((w + 1) % 2 ^ 32) t1)) s

/-- CPYPUB (21 R330). -/
def execCpypub (c : Ctl) (s : State) : Host.Outcome State Fault Refusal :=
  runInstr (.cpypub c) (fun x t => do
    x.ringInBounds
    let r := x.p.ring
    if r.w = r.pub then x.ringRoom
    let w := if r.w = r.pub then (r.w + 1) % 2 ^ 32 else r.w
    let t1 := updSp t x.pid fun m => m.writeNat r.notify.toNat 8 w
    x.stored [(r.notify.toNat, 8)] (x.setWix w t1)) s

/-! ## Batches -/

/-- The mask of one class. -/
def maskOfCls (c : Cls) : BitVec 5 := BitVec.ofNat 5 (2 ^ clsNo c)

/-- CSEAL (21 R335). -/
def execCseal (c : Ctl) (cls : Cls) (s : State) : Host.Outcome State Fault Refusal :=
  runInstr (.cseal c cls) (fun x t =>
    if 63 ≤ counterOf x.g cls then .error (.block (.sealFull cls)) else .ok (sealClass t x.pid x.gi cls)) s

/-- CWAIT (21 R336). -/
def execCwait (c : Ctl) (cls : Cls) (n : BitVec 6) (s : State) : Host.Outcome State Fault Refusal :=
  runInstr (.cwait c cls n) (fun x t => do
    if n.toNat < counterOf x.g cls then .error (.block (.cwait cls n.toNat))
    else
      x.raiseFailures (maskOfCls cls) t
      .ok t) s

/-- The value of CSTAT.CNT (21 Table 21-4). -/
def statWord (g : Gang) (c : Cls) : DWord :=
  let f := failedOf g c
  let status := ((f.bind (·.fail)).map (·.status)).getD 0
  BitVec.ofNat 64 (counterOf g c % 64 + f.isSome.toNat * 2 ^ 8 + status % 256 * 2 ^ 16
    + min (openOf g c).count 65535 * 2 ^ 32)

/-- CSTAT (21 R337). -/
def execCstat (c : Ctl) (form : StatForm) (cls : Cls) (d : Reg) (s : State) : Host.Outcome State Fault Refusal :=
  runInstr (.cstat c form cls d) (fun x t => do
    match form with
    | .cnt => .ok (x.setS d (fun _ => statWord x.g cls) t)
    | .raise =>
      x.raiseFailures (maskOfCls cls) t
      .ok (x.setS d (fun _ => statWord x.g cls) t)
    | .ring => .ok (x.setS d (fun _ => BitVec.ofNat 64 (x.p.ring.w % 2 ^ 32 + x.p.ring.cons % 2 ^ 32 * 2 ^ 32)) t)) s

/-! ## Gather and scatter -/

/-- The address of lane `l`: S(A) of the lowest slice plus the lane's index times SCALE; a SCALE of 0 means `w`, the
element width in the register form, and 0 in the row form (21 R338). -/
def Ctx.gathAddr (x : Ctx) (a idx : Reg) (scale w l : Nat) : Nat :=
  ((x.sLow a).toNat + (x.v idx l).toNat * (if scale = 0 then w else scale)) % 2 ^ 64

/-- The width of a type of the register forms (21 R338). -/
def gathWidth : Ty → Nat
  | .n8 | .i8 => 1
  | .n16 | .i16 | .f16 | .b16 => 2
  | _ => 4

/-- What the row forms check at issue: the alphabet, the scratchpad base and every active lane's row (21 R338). -/
def Ctx.rowCheck (x : Ctx) (t : Ty) (a : Reg) (rl : Nat) : Except Stop Nat := do
  x.typeCheck t
  let base : Nat := (x.sLow (a + 1)).toNat % 2 ^ 20
  alignCheck base 64
  x.lanes.forM fun l => x.rangeCheck ((base + 64 * rl * l : Nat) : Int) (64 * rl)
  .ok base

/-- The global address of the first row that splits a container (11 R201, 21 R338). -/
def Ctx.rowSplit (x : Ctx) (t : Ty) (as : List Nat) : Option Nat :=
  (alphaIdx t).bind fun n => as.find? fun a => a % (x.alpha n).bytes != 0

/-- The failure of a command that is refused before it moves a byte. -/
def refused (status addr id : Nat) : Fail := ⟨false, status, BitVec.ofNat 64 addr, id⟩

/-- GATH (21 R338). -/
def execGath (c : Ctl) (ty : Ty) (d a : Reg) (gx : GathX) (s : State) : Host.Outcome State Fault Refusal :=
  runInstr (.gath c ty d a gx) (fun x t => do
    let w := gathWidth ty
    let addr := x.gathAddr a d gx.scale.toNat (if gx.row then 0 else w)
    if gx.row then
      let n := gx.rl.toNat
      let base ← x.rowCheck ty a n
      let rows := x.lanes.map fun l => (End.glob (addr l), End.spad (base + 64 * n * l), 64 * n)
      let bad := x.rowSplit ty (x.lanes.map addr)
      .ok (issueCmd t x.pid x.gi .gather (.rows rows) fun k =>
        { k with act := x.act, fail := bad.map fun p => refused 0x16 p k.id })
    else
      if x.knows d then x.lanes.forM fun l => alignCheck (addr l) w
      if x.act = 0 then .ok t
      else
        let k := CmdKind.gathReg w ty.isSigned d.toNat (x.lanes.map fun l => (l, addr l))
        .ok (x.await d.toNat t.nextId (issueCmd t x.pid x.gi .gather k fun k => { k with act := x.act }))) s

/-- Byte `p` stored over what earlier lanes store (21 R339). -/
def putByte (xs : List (Nat × Byte)) (p : Nat × Byte) : List (Nat × Byte) :=
  (xs.filter fun q => q.1 != p.1) ++ [p]

/-- Bytes from an address on. -/
def bytesAt (a : Nat) (bs : List Byte) : List (Nat × Byte) := bs.mapIdx fun j b => (a + j, b)

/-- SCAT (21 R339): registers and scratchpad are read at issue. -/
def execScat (c : Ctl) (ty : Ty) (a b : Reg) (gx : GathX) (s : State) : Host.Outcome State Fault Refusal :=
  runInstr (.scat c ty a b gx) (fun x t => do
    let w := gathWidth ty
    let addr := x.gathAddr a b gx.scale.toNat (if gx.row then 0 else w)
    let n := gx.rl.toNat
    let base ← if gx.row then x.rowCheck ty a n else do
      if x.knows b then x.lanes.forM fun l => alignCheck (addr l) w
      .ok 0
    let data := fun l =>
      if gx.row then (spOf t x.pid).read (base + 64 * n * l) (64 * n)
      else natBytes w (x.v (b + 1) l).toNat
    let bad := if gx.row then x.rowSplit ty (x.lanes.map addr) else none
    let bytes := (x.lanes.flatMap fun l => bytesAt (addr l) (data l)).foldl putByte []
    let need := if x.knows b then (distinct (bytes.map fun p => p.1 / 64)).length else 0
    let t1 ← x.hold .gather need t
    .ok (issueCmd t1 x.pid x.gi .gather (.scatReg bytes) fun k =>
      { k with act := x.act, fail := bad.map fun p => refused 0x16 p k.id })) s

/-! ## Global atomics -/

/-- The form performs a release first (09 R170). -/
def atReleases : AtForm → Bool
  | .rel | .ar => true
  | _ => false

/-- The form performs an acquire once the atomic has completed (09 R170). -/
def atAcquires : AtForm → Bool
  | .acq | .ar => true
  | _ => false

/-- Send an atomic: its command, which holds the gang's later reads in an acquiring form (09 R170). -/
def Ctx.sendAtomic (x : Ctx) (form : AtForm) (k : CmdKind) (s : State) : State :=
  let s1 := issueCmd s x.pid x.gi .atomic k fun k => { k with act := x.act }
  if atAcquires form then x.updG (fun g => { g with acquires := g.acquires ++ [s.nextId] }) s1 else s1

/-- An atomic after the release that its form, or a redundant panel, puts before it (09 R170, R172). A release is an effect, which
an EMPTY source puts off (16 R256). -/
def Ctx.atomicForm (x : Ctx) (form : AtForm) (scope : Nat) (send : State → Body) (s : State) : Body :=
  if !x.unknown.isEmpty then .ok s
  else if atReleases form then x.releaseThen (scope == 5) send s
  else if x.p.hdr.redundant then x.releaseThen false send s
  else send s

/-- An acquiring form asks for an acquire at its scope. -/
def acquireScope (f : AtForm) (scope : Nat) : Option Nat := if atAcquires f then some scope else none

/-- Lane `l` of an ATOM (21 R342). -/
def Ctx.laneAtom (x : Ctx) (d a b cc : Reg) (l : Nat) : LaneAtom where
  lane := l
  va := (x.s a (sliceOf l) + (x.v b l).setWidth 64).toNat
  operand := (x.v cc l).setWidth 64
  comparand := (x.v d l).setWidth 64

/-- ATOM (21 R342). -/
def execAtom (c : Ctl) (form : AtForm) (ty : LTy) (op : AtOp) (scope : BitVec 3) (ret : Bool) (d a b cc : Reg)
    (s : State) : Host.Outcome State Fault Refusal :=
  runInstr (.atom c form ty op scope ret d a b cc) (fun x t => do
    let as := x.lanes.map (x.laneAtom d a b cc)
    if x.knows b then as.forM fun y => alignCheck y.va 4
    let kind := CmdKind.atom op 4 (ty == .i32) (ty == .f32) ret (if ret then some d.toNat else none) none
      (acquireScope form scope.toNat) as
    x.atomicForm form scope.toNat (fun u =>
      if x.act = 0 then .ok (if atAcquires form then acquireAt x.p.core scope.toNat u else u)
      else
        let u1 := x.sendAtomic form kind u
        .ok (if ret then x.await d.toNat u.nextId u1 else u1)) t) s

/-- The width of a type of ATOMS. -/
def stBytes : STy → Nat
  | .i64 | .n64 => 8
  | .i32 | .n32 => 4

/-- A signed type of ATOMS. -/
def stSigned : STy → Bool
  | .i64 | .i32 => true
  | _ => false

/-- ATOMS (21 R343). -/
def execAtoms (c : Ctl) (form : AtForm) (ty : STy) (op : AtOp) (scope : BitVec 3) (ret : Bool) (a b : Reg) (off : Off)
    (s : State) : Host.Outcome State Fault Refusal :=
  runInstr (.atoms c form ty op scope ret a b off) (fun x t => do
    let w := stBytes ty
    let va := (addrOf (x.sLow a) off % (2 ^ 64 : Nat)).toNat
    let slot : Nat := (x.sLow (b + 2)).toNat % 2 ^ 20
    alignCheck va w
    if ret then x.checkAddrs [(slot : Int)] w
    let y : LaneAtom := ⟨0, va, x.sLow b, x.sLow (b + 1)⟩
    let kind := CmdKind.atom op w (stSigned ty) false ret none (if ret then some slot else none)
      (acquireScope form scope.toNat) [y]
    x.atomicForm form scope.toNat (fun u => .ok (x.sendAtomic form kind u)) t) s

end Sys2Proof.Machine
end

