-- ==== Sys2Proof/Machine/Smock.lean ====
section
/-! DEFINITION. Smock regions: descriptors, corners, and the instructions HGCFG, HGLD, HGSC, HGFOLD and HGIDX, major
opcodes 0xE7 to 0xEB (chapter 12, 21 R340). -/

namespace Sys2Proof.Machine

open Sys2Proof

/-! ## F32 arithmetic of the smock instructions (12 R208: RNE, subnormals kept) -/

/-- A value rounded to F32. -/
def near (v : FVal) : FVal := fF32.value (fF32.ofVal .rne false v).1

/-- A sum rounded to F32. -/
def nearAdd (a b : FVal) : FVal := fF32.value (fF32.addV .rne false a b).1

/-! ## The descriptor (12 Table 12-1) -/

/-- A 7-bit signed number. -/
def signed7 (v : Nat) : Int := if v < 64 then v else (v : Int) - 128

/-- The entry size of EFMT. -/
def efmtTy (code : Nat) : Ty := if code = 0 then .f16 else if code = 1 then .b16 else .f32

/-- Bytes of an entry's feature. -/
def SmockCfg.esz (k : SmockCfg) : Nat := if k.efmt = .f32 then 4 else 2

/-- T_l. -/
def SmockCfg.t (k : SmockCfg) (l : Nat) : Nat := 2 ^ (k.tlog.getD l 0)

/-- Levels, L. -/
def SmockCfg.levels (k : SmockCfg) : Nat := k.tlog.length

/-- TOFF_l (12 R204). -/
def SmockCfg.toff (k : SmockCfg) (l : Nat) : Nat := ((List.range l).map fun m => round64 (k.t m * k.f * k.esz)).sum

/-- WOFF_l (12 R204). -/
def SmockCfg.woff (k : SmockCfg) (l : Nat) : Nat := ((List.range l).map fun m => k.t m * k.f).sum

/-- The address of feature `f` of entry `i` of level `l`. -/
def SmockCfg.entryAddr (k : SmockCfg) (l i f : Nat) : Nat := k.tbase + k.toff l + (i * k.f + f) * k.esz

/-- The plane word of feature `f` of entry `i` of level `l`. -/
def SmockCfg.word (k : SmockCfg) (l i f : Nat) : Nat := k.woff l + i * k.f + f

/-- The address of the resolution array and its length, of a descriptor. -/
def nptrOf (d : List Byte) : Nat := bytesNat ((d.drop 8).take 8) % 2 ^ 57

/-- L of a descriptor. -/
def levelsOf (d : List Byte) : Nat := bitsOf (bytesNat (d.take 8)) 61 57 + 1

/-- The binding that a descriptor and its resolution array give, or none when it is refused (12 R205). -/
def parseSmock (d ns : List Byte) : Option SmockCfg :=
  let w0 := bytesNat (d.take 8)
  let w1 := bytesNat ((d.drop 8).take 8)
  let w2 := bytesNat ((d.drop 16).take 8)
  let tl := bytesNat ((d.drop 24).take 20)
  let eo := bytesNat ((d.drop 44).take 20)
  let n := levelsOf d
  let ebias := signed7 (bitsOf w2 63 57)
  let k : SmockCfg := {
    d := bitsOf w0 2 0 + 1
    f := 2 ^ bitsOf w0 4 3
    efmt := efmtTy (bitsOf w0 63 62)
    tbase := bitsOf w0 56 6 * 64
    aplane := bitsOf w2 56 6 * 64
    tlog := (List.range n).map fun l => bitsOf tl (5 * l + 4) (5 * l)
    e := (List.range n).map fun l => ebias + (bitsOf eo (5 * l + 4) (5 * l) : Nat)
    n := (List.range n).map fun l => bytesNat ((ns.drop (4 * l)).take 4) }
  let zero := bitsOf w0 5 5 != 0 || bitsOf w1 5 0 != 0 || bitsOf w1 63 57 != 0 || bitsOf w2 5 0 != 0
    || tl / 2 ^ (5 * n) != 0 || eo / 2 ^ (5 * n) != 0
  let reach := decide (2 ^ 57 < k.tbase + k.toff n) || decide (2 ^ 57 < k.aplane + 8 * k.woff n)
  if zero || bitsOf w0 63 62 == 3 || k.tlog.any (fun t => decide (24 < t))
      || k.n.any (fun m => decide (m < 1 ∨ 2 ^ 24 < m)) || reach then none
  else some k

/-! ## Corners (12 R208) -/

/-- The hash multipliers. -/
def hashMul : List Nat :=
  [0x00000001, 0xB4C96A3D, 0x7F1E58C3, 0xC2A710E5, 0x5D3B9F27, 0xE8F4436B, 0x3A6DD0A9, 0x91C52B7F]

/-- A coordinate brought into 0 to 1 − 2^−24. -/
def clampCoord (w : Word) : FVal :=
  match fF32.value w.toNat with
  | .fin false m e => if signedAt false m e (-149) > signedAt false 0xFFFFFF (-24) (-149) then .fin false 0xFFFFFF (-24)
    else .fin false m e
  | .inf false => .fin false 0xFFFFFF (-24)
  | _ => .fin false 0 0

/-- The cell and the fraction of one coordinate: c_i and f_i. -/
def cellOf (n : Nat) (w : Word) : Nat × FVal :=
  let u := near ((clampCoord w).mul (intVal' n))
  match u with
  | .fin s m e =>
    let c := min (floorInt s m e).toNat (n - 1)
    (c, nearAdd u (.fin true c 0))
  | _ => (0, .fin false 0 0)
where
  intVal' (n : Nat) : FVal := .fin false n 0

/-- A lane that holds a NaN coordinate. -/
def nanLane (xs : List Word) : Bool := xs.any fun w => fF32.isNan w.toNat

/-- One corner: its number, its index and its weight. -/
structure Corner where
  b : Nat
  idx : Nat
  w : FVal

/-- The corners of a lane at level `l`, in ascending order. -/
def corners (k : SmockCfg) (l : Nat) (xs : List Word) : List Corner :=
  let n := k.n.getD l 1
  let t := k.t l
  let cells := xs.map (cellOf n)
  (List.range (2 ^ k.d)).map fun b =>
    let bit := fun i => b / 2 ^ i % 2
    let one : FVal := .fin false 1 0
    let w := (List.range k.d).foldl (fun w i =>
      let f := ((cells[i]?).map (·.2)).getD (.fin false 0 0)
      near (w.mul (if bit i = 1 then f else nearAdd one f.negate))) one
    let v := fun i => ((cells[i]?).map (·.1)).getD 0 + bit i
    let idx := if (n + 1) ^ k.d ≤ t then ((List.range k.d).map fun i => v i * (n + 1) ^ i).sum
      else ((List.range k.d).foldl (fun h i => h ^^^ (v i * hashMul.getD i 1 % 2 ^ 32)) 0) % t
    ⟨b, idx, w⟩

/-! ## Forward and adjoint -/

/-- One feature of a lookup (12 R210): the entries' values by corner. -/
def lookup (cs : List (Corner × FVal)) : Nat :=
  (cs.foldl (fun acc c =>
    (fF32.addV .rne false (fF32.value acc) (c.1.w.mul c.2)).1) 0)

/-- The integer that a corner adds for a gradient, with its counts (12 R211). -/
def adjoint (w g : FVal) (e : Int) : Int × Counts :=
  let top : Int := 2 ^ 63 - 1
  match near (w.mul g) with
  | .nan => (0, oneNan)
  | .inf s => (if s then -top else top, oneSat)
  | .fin s m x =>
    let q : Int := roundAt (.mode .rne) s ⟨m, x + e, false⟩ 0
    if top < q then (if s then -top else top, oneSat) else (if s then -q else q, Counts.zero)

/-- A folded gradient: RNE32(P × 2^−E) (12 R214). -/
def foldWord (p : Nat) (e : Int) : Nat :=
  let n := intOf true 64 p
  (fF32.ofSigned .rne false n (-e) false).1

/-! ## Instructions -/

/-- A slot of the panel. -/
def Ctx.smock (x : Ctx) (slot : BitVec 4) : Smock := vget x.p.smk slot.toNat smock0

/-- The slot's binding for an instruction that needs it at issue: blocked while it is pending, SMOCK_CONFIG when there is
none or when levels `l0` to `l0 + n − 1` do not lie in it (12 R206). -/
def Ctx.binding (x : Ctx) (slot : BitVec 4) (l0 n : Nat) : Except Stop SmockCfg :=
  let info : DWord := slot.setWidth 64
  if !(x.smock slot).queue.isEmpty then .error (.block (.smock slot.toNat))
  else match (x.smock slot).cfg with
    | none => raise cSmock info
    | some k => if l0 + n ≤ k.levels then .ok k else raise cSmock info

/-- The coordinates of a lane. -/
def Ctx.coords (x : Ctx) (k : SmockCfg) (a : Reg) (l : Nat) : List Word :=
  (List.range k.d).map fun i => x.v (a + BitVec.ofNat 7 i) l

/-- NaN lanes counted once each (12 R210, R211). -/
def Ctx.nanLanes (x : Ctx) (k : SmockCfg) (a : Reg) : Counts :=
  ⟨0, 0, (x.lanes.filter fun l => nanLane (x.coords k a l)).length⟩

/-- HGCFG (12 R205): PEND is set and AOVF cleared at issue. -/
def execHgcfg (c : Ctl) (a : Reg) (slot : BitVec 4) (s : State) : Host.Outcome State Fault Refusal :=
  runInstr (.hgcfg c a slot) (fun x t => do
    let va := (x.sLow a).toNat
    alignCheck va 64
    let mark := fun (k : Smock) => { k with desc := va, queue := k.queue ++ [t.nextId], aovf := false }
    let t1 := issueCmd t x.pid x.gi .gather (.hgcfg slot.toNat va) id
    .ok (x.updP (fun p => { p with smk := vset p.smk slot.toNat (mark (vget p.smk slot.toNat smock0)) }) t1)) s

/-- HGLD (12 R210). -/
def execHgld (c : Ctl) (d a : Reg) (y : SmkX) (s : State) : Host.Outcome State Fault Refusal :=
  runInstr (.hgld c d a y) (fun x t => do
    let n := y.n1.toNat + 1
    let k ← x.binding y.slot y.l0.toNat n
    check (decide (n * k.f ≤ 32)) cSmock (y.slot.setWidth 64)
    if x.act = 0 then .ok t
    else
      let lanes := x.lanes.map fun l => (l, x.coords k a l)
      let t1 := issueCmd t x.pid x.gi .gather (.hgld k y.l0.toNat n d.toNat lanes) fun q => { q with act := x.act }
      let t2 := (List.range (n * k.f)).foldl (fun u i => x.await (d.toNat + i) t.nextId u) t1
      .ok (x.count (x.nanLanes k a) t2)) s

/-- The adds of one lane of HGSC (12 R211): plane address and integer, and the counts. -/
def Ctx.laneAdds (x : Ctx) (k : SmockCfg) (a b : Reg) (l0 n l : Nat) : List (Nat × Int) × Counts :=
  let xs := x.coords k a l
  if nanLane xs then ([], oneNan)
  else
    let parts := (List.range n).flatMap fun j => (List.range k.f).flatMap fun f =>
      let g := fF32.value (x.v (b + BitVec.ofNat 7 (j * k.f + f)) l).toNat
      (corners k (l0 + j) xs).map fun q =>
        (k.aplane + 8 * k.word (l0 + j) q.idx f, adjoint q.w g (k.e.getD (l0 + j) 0))
    (parts.map fun p => (p.1, p.2.1), parts.foldl (fun c p => c.add p.2.2) Counts.zero)

/-- HGSC (12 R211). DESIGN CHOICE (log entry 128): a q of 0 is not sent. -/
def execHgsc (c : Ctl) (a b : Reg) (y : SmkX) (s : State) : Host.Outcome State Fault Refusal :=
  runInstr (.hgsc c a b y) (fun x t => do
    let n := y.n1.toNat + 1
    let k ← x.binding y.slot y.l0.toNat n
    check (decide (n * k.f ≤ 32)) cSmock (y.slot.setWidth 64)
    let lanes := x.lanes.map (x.laneAdds k a b y.l0.toNat n)
    let adds := (lanes.flatMap (·.1)).filter fun p => p.2 != 0
    let counts := lanes.foldl (fun c p => c.add p.2) Counts.zero
    let t1 ← x.hold .gather (if x.unknown.isEmpty then (distinct (adds.map fun p => p.1 / 64)).length else 0) t
    let kind := CmdKind.hgsc y.slot.toNat k y.l0.toNat n (adds.map fun p => (p.1, BitVec.ofInt 64 p.2))
    .ok (x.count counts (x.issue .gather kind t1))) s

/-- The words of levels `l0` to `l0 + n − 1`: the first and how many. -/
def SmockCfg.span (k : SmockCfg) (l0 n : Nat) : Nat × Nat := (k.woff l0, k.woff (l0 + n) - k.woff l0)

/-- The hold entries of a fold: the granules of the gradients (13 R227), none of one that a misaligned base refuses. -/
def foldNeed (k : SmockCfg) (gbase l0 n : Nat) : Nat :=
  let w := k.span l0 n
  if gbase % 4 = 0 then granuleCount (gbase + 4 * w.1) (4 * w.2) else 0

/-- A trap after a release that the instruction begins with: what that release has done stands. -/
def keepRelease (send : State → Body) (s : State) : Body :=
  match send s with
  | .error (.trap t) => .error (.trapIn s t)
  | r => r

/-- A fold after the release that its swaps have in a redundant panel before them (09 R172, 12 R214): a match stands for both members
when the hold area then has no room (13 R227). -/
def Ctx.foldForm (x : Ctx) (zero : Bool) (send : State → Body) (s : State) : Body :=
  if zero && x.p.hdr.redundant then x.releaseThen false (keepRelease send) s else send s

/-- HGFOLD (12 R206, R214): on a pending slot it issues at once and the engine holds it. What it needs of the hold area depends on the
binding, so that a held one takes it at its release, or fails there (21 R340; log entry 19). -/
def execHgfold (c : Ctl) (zero : Bool) (a : Reg) (y : SmkX) (s : State) : Host.Outcome State Fault Refusal :=
  runInstr (.hgfold c zero a y) (fun x t => do
    let n := y.n1.toNat + 1
    let gbase := (x.sLow a).toNat
    let q := (x.smock y.slot).queue
    if q.isEmpty then
      let k ← x.binding y.slot y.l0.toNat n
      x.foldForm zero (fun u => do
        let u1 ← x.hold .gather (foldNeed k gbase y.l0.toNat n) u
        let bad := if gbase % 4 = 0 then none else some gbase
        .ok (issueCmd u1 x.pid x.gi .gather (.hgfold y.slot.toNat (some k) zero gbase y.l0.toNat n [])
          fun m => { m with fail := bad.map fun p => refused 0x15 p m.id })) t
    else
      x.foldForm zero (fun u =>
        .ok (issueCmd u x.pid x.gi .gather (.hgfold y.slot.toNat none zero gbase y.l0.toNat n q) id)) t) s

/-- A command joins the open batch of a class and is complete at once (12 R215). -/
def Ctx.joinDone (x : Ctx) (c : Cls) (s : State) : State :=
  x.updG (fun g => { g with opens := g.opens.map fun b => if b.cls == c then { b with count := b.count + 1 } else b }) s

/-- HGIDX (12 R215). -/
def execHgidx (c : Ctl) (d a : Reg) (slot : BitVec 4) (level : BitVec 5) (corner : BitVec 8) (s : State) :
    Host.Outcome State Fault Refusal :=
  runInstr (.hgidx c d a slot level corner) (fun x t => do
    let k ← x.binding slot level.toNat 1
    check (decide (corner.toNat < 2 ^ k.d)) cSmock (slot.setWidth 64)
    let val := fun l =>
      let xs := x.coords k a l
      if nanLane xs then 0xFFFFFFFF
      else BitVec.ofNat 32 (((corners k level.toNat xs)[corner.toNat]?).map (·.idx) |>.getD 0)
    .ok (x.joinDone .gather (x.setV d val t))) s

end Sys2Proof.Machine
end

