-- ==== Sys2Proof/Machine/Pieces.lean ====
section
/-! DEFINITION. What an engine command does, cut into pieces: granule reads, granule writes and memory-side operations
with the bytes that they move, and the scratchpad bytes that it writes (08 R152 to R154, 09 R163, R167, 21 R332, R333). -/

namespace Sys2Proof.Machine

open Sys2Proof

/-! ## Ranges cut at granules -/

/-- The parts of a range that lie in one granule each: address and length. -/
def partsOf (va len : Nat) : List (Nat × Nat) :=
  (granulesOf va len).map fun g => (max va g, min (va + len) (g + 64) - max va g)

/-- The bytes cover a granule whole. -/
def coversGranule (ws : List WByte) : Bool := ws.length == 64 && ws.all fun w => w.mask == 0xFF

/-- A granule with bytes written into it (02 R30 Merge). -/
def mergeInto (base : Nat) (old : List Byte) (ws : List WByte) : List Byte :=
  ws.foldl (fun bs w => bs.modify (w.va - base) w.over) old

/-! ## Pieces -/

/-- Where a write takes its bytes: they are known; they lie in scratchpad; they are part of a range that reads from piece
`first` on have returned, the range beginning at `va`; they are units of a block in scratchpad; or they are folded gradients from
byte `off` on. -/
inductive Source where
  | lit (ws : List WByte)
  | spad (a : Nat)
  | seg (first va off : Nat)
  | units (us : List (Nat × Option Nat × Nat × Option Nat × Nat))
  | fold (off : Nat)
deriving DecidableEq, Repr

/-- A piece of a command: a read, a write or a memory-side operation within one granule, or one with nothing to do. -/
inductive Piece where
  | rd (va len : Nat)
  | wr (va len : Nat) (src : Source)
  | op (va len : Nat)
  | skip
deriving DecidableEq, Repr

/-- Reads of a range. -/
def readPieces (va len : Nat) : List Piece := (partsOf va len).map fun p => .rd p.1 p.2

/-- Writes of known bytes. -/
def litPieces (va : Nat) (bs : List Byte) : List Piece :=
  (partsOf va bs.length).map fun p => .wr p.1 p.2 (.lit (wholeBytes p.1 ((bs.drop (p.1 - va)).take p.2)))

/-- Writes of a range out of scratchpad from `a` on. -/
def spadPieces (va len a : Nat) : List Piece := (partsOf va len).map fun p => .wr p.1 p.2 (.spad (a + (p.1 - va)))

/-- The pieces of one copy; its reads are numbered from `n` on. -/
def copyPieces (n : Nat) : End × End × Nat → List Piece
  | (.glob a, .glob b, len) =>
    readPieces a len ++ (partsOf b len).map fun p => .wr p.1 p.2 (.seg n a (p.1 - b))
  | (.glob a, .spad _, len) => readPieces a len
  | (.spad a, .glob b, len) => spadPieces b len a
  | (.spad _, .spad _, _) => []

/-- The pieces of several copies, numbered on. -/
def copiesPieces : Nat → List (End × End × Nat) → List Piece
  | _, [] => []
  | n, x :: xs => copyPieces n x ++ copiesPieces (n + (copyPieces n x).length) xs

/-! ## Blocks of tensors (08 R154) -/

/-- The bytes that units have in one granule, as a write's source. -/
def unitSource (us : List TUnit) (g : Nat) : Source :=
  .units (us.filterMap fun u => u.glob.bind fun p =>
    let lo := max p.1 (64 * g)
    let hi := min (p.1 + u.len) (64 * g + 64)
    if lo < hi then some (lo, p.2, u.sp.1 + (lo - p.1), u.sp.2, hi - lo) else none)

/-- Pieces of a block: whole-granule reads into scratchpad, or one write a granule out of it. -/
def unitPieces (out : Bool) (us : List TUnit) : List Piece :=
  (unitGranules us).map fun g => if out then .wr (64 * g) 64 (unitSource us g) else .rd (64 * g) 64

/-- Pieces of a block. -/
def TDesc.pieces (t : TDesc) (out : Bool) (al : Vector (BitVec 256) 16) (b : List Nat) (sp : Nat) : List Piece :=
  unitPieces out (t.units al b sp)

/-! ## The pieces of a command -/

/-- Tiles of a combining put: ranges that do not cross 4 KiB (03 R57). -/
def tileRanges (va len : Nat) : List (Nat × Nat) :=
  if len = 0 then []
  else (List.range ((va + len - 1) / 4096 - va / 4096 + 1)).map fun i =>
    let a := max va ((va / 4096 + i) * 4096)
    (a, min (va + len) ((va / 4096 + i + 1) * 4096) - a)

/-- Bytes grouped by granule, each a write. -/
def maskedPieces (ws : List WByte) : List Piece :=
  (distinct (ws.map fun w => w.va / 64)).map fun g => .wr (64 * g) 64 (.lit (ws.filter fun w => w.va / 64 == g))

/-- The plane words of a fold. -/
def foldOps (k : SmockCfg) (l0 n : Nat) : List Piece :=
  let w := k.span l0 n
  (List.range w.2).map fun i => .op (k.aplane + 8 * (w.1 + i)) 8

/-- The gradients of a fold. -/
def foldWrites (k : SmockCfg) (gbase l0 n : Nat) : List Piece :=
  let w := k.span l0 n
  let a := gbase + 4 * w.1
  (partsOf a (4 * w.2)).map fun p => .wr p.1 p.2 (.fold (p.1 - a))

/-- The pieces of one held entry (13 R227). DESIGN CHOICE (log entry 91): a held combining put is added granule by granule at its
release in local memory, with no count of contributions; to a peer its granules leave as the steps of the put. -/
def heldPieces (h : Held) : List Piece :=
  match h.how with
  | .write halves =>
    let part := fun (w : WByte) => match halves.find? fun x => x.1 == w.va - h.va with
      | some x => { w with mask := x.2 }
      | none => w
    [.wr h.va 64 (.lit (((wholeBytes h.va h.data).filter fun w => h.mask.getLsbD (w.va - h.va)).map part))]
  | .addWords _ adds => adds.map fun a => .op (h.va + 8 * a.1) 8
  | .addElems _ => [.op h.va 64]

/-- The held entry and the index within it that a piece of `heldOut` belongs to. -/
def heldAt : List Held → Nat → Option (Held × Nat)
  | [], _ => none
  | h :: hs, k => if k < (heldPieces h).length then some (h, k) else heldAt hs (k - (heldPieces h).length)

/-- Held adds to plane words. -/
def Held.isAdd (h : Held) : Bool :=
  match h.how with
  | .addWords .. => true
  | _ => false

/-- The collective step that a piece of `heldOut` belongs to. -/
def heldStepAt (ws : List Held) (k : Nat) : Option HeldStep := (heldAt ws k).bind fun h => h.1.step

/-- The batches of the pieces of `heldOut`. -/
def heldBatches (ws : List Held) : List Nat := ws.flatMap fun h => (heldPieces h).map fun _ => h.bid

/-- Held writes go to memory in sealing order: a piece waits for those of the batches before its own (09 R172, 13 R228). -/
def heldTurn (c : Cmd) (k : Nat) : Bool :=
  match c.kind with
  | .heldOut ws =>
    let bs := heldBatches ws
    (bs.take k).zipIdx.all fun b => bs[k]? == some b.1 || c.done.contains b.2
  | _ => true

/-- The data that a read or an atomic has returned. -/
def Cmd.data (c : Cmd) (k : Nat) : Option (List Byte) := (c.got.find? fun g => g.1 == k).map (·.2)

/-- The status with which a block whose descriptor has been read is refused. -/
def tileRefusal (c : Cmd) (b : List Nat) (sp size : Nat) : Option Nat :=
  (c.data 0).bind fun d => match parseDesc d with
    | some t => t.refusal c.alph b sp size
    | none => some 0x15

/-- The descriptor of a block that moves: it has been read and is not refused. -/
def tileOk (c : Cmd) (b : List Nat) (sp size : Nat) : Option TDesc :=
  if (tileRefusal c b sp size).isSome then none else (c.data 0).bind parseDesc

/-- What a command does, before redundancy is considered. -/
def plainPieces (c : Cmd) : List Piece :=
  match c.kind with
  | .copy src dst len _ => copiesPieces 0 [(src, dst, len)]
  | .tile out desc b sp size => .rd desc 64 :: (match tileOk c b sp size with
    | some t => t.pieces out c.alph b sp
    | none => [])
  | .put _ va len _ _ _ => (tileRanges va len).map fun p => .op p.1 p.2
  | .bcast sp va len ndev span _ =>
    (List.range ndev).flatMap fun h => spadPieces (va + h * 2 ^ (30 + span)) len sp
  | .gathReg w _ _ lanes => lanes.map fun l => .rd l.2 w
  | .rows xs => copiesPieces 0 xs
  | .scatReg xs => maskedPieces (xs.map fun x => ⟨x.1, 0xFF, x.2⟩)
  | .hgcfg _ va => .rd va 64 :: (match c.data 0 with
    | some d => readPieces (nptrOf d) (4 * levelsOf d)
    | none => [])
  | .hgld k l0 n _ lanes => lanes.flatMap fun l => if nanLane l.2 then [] else (List.range n).flatMap fun j =>
    (corners k (l0 + j) l.2).map fun q => .rd (k.entryAddr (l0 + j) q.idx 0) (k.f * k.esz)
  | .hgsc _ _ _ _ adds => adds.map fun a => .op a.1 8
  | .hgfold _ cfg _ gbase l0 n _ => (match cfg with
    | some k => foldOps k l0 n ++ foldWrites k gbase l0 n
    | none => [])
  | .atom _ w _ _ _ _ _ _ lanes => lanes.map fun l => .op l.va w
  | .fetch ranges => ranges.flatMap fun r => readPieces r.1 r.2
  | .signal va _ _ => [.op va 8]
  | .compress _ pages result codes =>
    if codes.length = pages then
      litPieces result (codes.map fun x => x.getD 0)
    else []
  | .records area ents => ents.map fun e => .op (area + 16 * e.tid.toNat) 16
  | .store da bytes => litPieces da bytes
  | .peerOp (.read da len) => readPieces da len
  | .peerOp (.write da bytes) => maskedPieces (bytes.zipIdx.filterMap fun b => b.1.map fun v => ⟨da + b.2, 0xFF, v⟩)
  | .peerOp (.atom da _ wide _ _ _ _) => [.op da (if wide then 8 else 4)]
  | .peerOp (.combine t) => [.op t.da t.bytes.length]
  | .heldOut ws => ws.flatMap heldPieces
  | .tileAdd t => (partsOf t.da t.bytes.length).map fun p => .op p.1 p.2
  | .ringEntry _ | .mxz .. | .mma .. | .mxrdSp .. | .mxrdReg .. | .mxwr .. | .mxil .. => []

/-- The gang's global writes of a redundant panel are held (09 R172); a command that writes them out is not. -/
def heldBack (s : State) (c : Cmd) : Bool :=
  match c.owner, c.kind with
  | _, .heldOut _ => false
  | .gangs .., _ => ((c.panel s).map (·.hdr.redundant)).getD false
  | _, _ => false

/-- The secondary of a pair performs no atomic (09 R172). -/
def isSecondary (s : State) (c : Cmd) : Bool := ((c.panel s).map fun p => p.hdr.redundant && !p.primary).getD false

/-- Atomics, which the primary of a pair performs for both: those of ATOM and ATOMS, and the swaps of a fold with ZERO (09 R172,
12 R214). -/
def CmdKind.isAtomic : CmdKind → Bool
  | .atom .. => true
  | .hgfold _ _ zero .. => zero
  | _ => false

/-- A piece as a command of a redundant panel performs it: reads and the reads of a fold, and the primary's
atomics. -/
def heldPiece (k : CmdKind) (sec : Bool) (p : Piece) : Piece :=
  match p, k with
  | .wr .., _ => .skip
  | .op .., .atom .. => if sec then .skip else p
  | .op .., .hgfold _ _ zero .. => if sec && zero then .skip else p
  | .op .., _ => .skip
  | _, _ => p

/-- The pieces of a command. -/
def piecesOf (s : State) (c : Cmd) : List Piece :=
  if heldBack s c then (plainPieces c).map (heldPiece c.kind (isSecondary s c)) else plainPieces c

/-- Every piece is performed. -/
def allDone (s : State) (c : Cmd) : Bool :=
  (piecesOf s c).zipIdx.all fun p => p.1 == .skip || c.done.contains p.2

/-! ## The bytes that pieces move -/

/-- Join results, when all are there. -/
def joined : List (Option (List Byte)) → Option (List Byte)
  | [] => some []
  | none :: _ => none
  | some b :: xs => (joined xs).map (b ++ ·)

/-- `len` bytes at `off` of a range read from `va` on by the pieces numbered from `first`. -/
def segBytes (c : Cmd) (first va off len : Nat) : Option (List Byte) :=
  let j := (va + off) / 64 - va / 64
  let n := (va + off + len - 1) / 64 - (va + off) / 64 + 1
  let start := if j = 0 then va else (va / 64 + j) * 64
  (joined ((List.range n).map fun i => c.data (first + j + i))).map fun bs => (bs.drop (va + off - start)).take len

/-- The bytes of folded gradients: word `i` is the fold of what operation `i` returned (12 R214). -/
def foldBytes (c : Cmd) (k : SmockCfg) (l0 off len : Nat) : Option (List Byte) :=
  let word := fun i => (c.data i).map fun b =>
    let w := k.woff l0 + i
    let l := ((List.range k.levels).find? fun m => decide (w < k.woff (m + 1))).getD 0
    natBytes 4 (foldWord (bytesNat b) (k.e.getD l 0))
  (joined ((List.range ((off + len + 3) / 4 - off / 4)).map fun i => word (off / 4 + i))).map fun bs =>
    (bs.drop (off % 4)).take len

/-- Move a unit: the bytes, or the half byte, that it puts in its place. -/
def unitWrite (m : Memory) (u : Nat × Option Nat × Nat × Option Nat × Nat) : List WByte :=
  match u.2.1, u.2.2.2.1 with
  | some gh, some sh =>
    let v := (m.get u.2.2.1).toNat / 16 ^ sh % 16
    [⟨u.1, BitVec.ofNat 8 (15 * 16 ^ gh), BitVec.ofNat 8 (v * 16 ^ gh)⟩]
  | _, _ => wholeBytes u.1 (m.read u.2.2.1 u.2.2.2.2)

/-- Two halves of one byte as one byte to write. -/
def joinHalves (ws : List WByte) (w : WByte) : List WByte :=
  if ws.any fun x => x.va == w.va then
    ws.map fun x => if x.va = w.va then ⟨x.va, x.mask ||| w.mask, (x.v &&& ~~~w.mask) ||| (w.v &&& w.mask)⟩ else x
  else ws ++ [w]

/-- The byte at a global address, when the granule that holds it has been read: granule `gs[i]` is piece i + 1. -/
def granuleByte (c : Cmd) (gs : List Nat) (a : Nat) : Option (List Byte) :=
  (c.data (1 + (gs.findIdx? (· == a / 64)).getD 0)).map fun bs => [bs.getD (a % 64) 0]

/-- Bytes of granules that have been read. -/
def granuleBytes (c : Cmd) (gs : List Nat) (a len : Nat) : Option (List Byte) :=
  joined ((List.range len).map fun j => granuleByte c gs (a + j))

/-- The bytes that a write piece writes, when they are known. -/
def writeBytes (s : State) (c : Cmd) (va len : Nat) (src : Source) : Option (List WByte) :=
  match src with
  | .lit ws => some ws
  | .spad a => some (wholeBytes va ((imageOf s c).read a len))
  | .seg first base off => (segBytes c first base off len).map (wholeBytes va)
  | .units us => some ((us.flatMap (unitWrite (imageOf s c))).foldl joinHalves [])
  | .fold off =>
    match c.kind with
    | .hgfold _ (some k) _ _ l0 _ _ => (foldBytes c k l0 off len).map (wholeBytes va)
    | _ => none

/-- The scratchpad lines that a source takes bytes from. -/
def Source.lines (src : Source) (len : Nat) : List Nat :=
  match src with
  | .spad a => (List.range' (a / 64) ((a + len - 1) / 64 + 1 - a / 64))
  | .units us => distinct (us.flatMap fun u => [u.2.2.1 / 64, (u.2.2.1 + u.2.2.2.2 - 1) / 64])
  | _ => []


/-- Keep a scratchpad line as it stands, the first time that the command reads it (09 R163). -/
def captureLine (s : State) (id line : Nat) : State :=
  match getCmd s id with
  | some c =>
    if c.lines.any fun l => l.1 == line then s
    else updCmd s id fun d => { d with lines := d.lines ++ [(line, (spOf s c.pid).read (64 * line) 64)] }
  | none => s

/-- Keep several lines. -/
def captureLines (s : State) (id : Nat) (ls : List Nat) : State := ls.foldl (fun t l => captureLine t id l) s

/-! ## The scratchpad bytes that a command writes -/

/-- A run of scratchpad bytes that a command writes, with its content once that is known. -/
structure Out where
  addr : Nat
  len : Nat
  bytes : Option (List SpByte)

/-- Whole bytes as scratchpad bytes. -/
def spBytes (a : Nat) (bs : List Byte) : List SpByte := bs.mapIdx fun i b => ⟨a + i, none, b.toNat⟩

/-- What one copy puts in scratchpad: its reads are numbered from `n` on. -/
def copyOuts (s : State) (c : Cmd) (n : Nat) : End × End × Nat → List Out
  | (.glob a, .spad d, len) =>
    (partsOf a len).map fun p =>
      ⟨d + (p.1 - a), p.2, (segBytes c n a (p.1 - a) p.2).map (spBytes (d + (p.1 - a)))⟩
  | (.spad a, .spad d, len) =>
    (partsOf d len).map fun p => ⟨p.1, p.2, some (spBytes p.1 ((imageOf s c).read (a + (p.1 - d)) p.2))⟩
  | _ => []

/-- What several copies put in scratchpad. -/
def copiesOuts (s : State) (c : Cmd) : Nat → List (End × End × Nat) → List Out
  | _, [] => []
  | n, x :: xs => copyOuts s c n x ++ copiesOuts s c (n + (copyPieces n x).length) xs

/-- What a unit puts in scratchpad: zero where the tensor does not hold it (08 R154). -/
def unitOut (c : Cmd) (gs : List Nat) (u : TUnit) : Out :=
  let byte := fun (bs : List Byte) (p : Nat × Option Nat) =>
    match p.2, u.sp.2 with
    | some gh, some sh => [(⟨u.sp.1, some sh, (bs.getD 0 0).toNat / 16 ^ gh % 16⟩ : SpByte)]
    | _, _ => spBytes u.sp.1 bs
  match u.glob with
  | some p => ⟨u.sp.1, u.len, (granuleBytes c gs p.1 u.len).map fun bs => byte bs p⟩
  | none => ⟨u.sp.1, u.len, some (match u.sp.2 with
    | some sh => [⟨u.sp.1, some sh, 0⟩]
    | none => spBytes u.sp.1 (List.replicate u.len 0))⟩

/-- What a block puts in scratchpad. -/
def TDesc.outs (t : TDesc) (c : Cmd) (b : List Nat) (sp : Nat) : List Out :=
  (t.units c.alph b sp).map (unitOut c (unitGranules (t.units c.alph b sp)))

/-- An earlier MATRIX command of the core is not complete, so that the accumulator does not stand as this one finds it
(09 R167). -/
def matrixBehind (s : State) (c : Cmd) : Bool :=
  c.cls == .matrix && s.cmds.any fun d => d.cls == .matrix && d.core == c.core && decide (d.id < c.id)

/-- The scratchpad bytes that a command writes. -/
def outsOf (s : State) (c : Cmd) : List Out :=
  match c.kind with
  | .copy src dst len _ => copiesOuts s c 0 [(src, dst, len)]
  | .rows xs => copiesOuts s c 0 xs
  | .tile false _ b sp size =>
    match tileOk c b sp size with
    | some t => t.outs c b sp
    | none => []
  | .atom _ w _ _ _ _ (some a) _ _ => [⟨a, w, (c.data 0).map (spBytes a)⟩]
  | .mxrdSp t lay first count =>
    match c.panel s with
    | some p => if matrixBehind s c then [⟨0, p.hdr.size, none⟩] else
        (drainBytes (layOf lay) t (drained_ p.acc t first count)).map fun b => ⟨b.addr, 1, some [b]⟩
    | none => []
  | _ => []

/-- The runs that touch a line. -/
def Out.touches (o : Out) (line : Nat) : Bool := decide (o.addr / 64 ≤ line ∧ line ≤ (o.addr + o.len - 1) / 64)

/-- The scratchpad lines that a command's writes touch. -/
def outLines (s : State) (c : Cmd) : List Nat :=
  distinct ((outsOf s c).flatMap fun o => List.range' (o.addr / 64) ((o.addr + o.len - 1) / 64 + 1 - o.addr / 64))

/-- The bytes of a line, when all are known. -/
def lineBytes (os : List Out) (line : Nat) : Option (List SpByte) :=
  ((os.filter fun o => o.touches line).foldr (fun o acc => match o.bytes, acc with
    | some b, some r => some (b ++ r)
    | _, _ => none) (some [])).map fun bs => bs.filter fun b => b.addr / 64 == line

/-- Land one line. -/
def landLine (s : State) (c : Cmd) (line : Nat) : Option State :=
  (lineBytes (outsOf s c) line).map fun bs =>
    let s1 := updSp s c.pid fun m => bs.foldl (fun m b => b.put m) m
    updCmd s1 c.id fun d => { d with landed := d.landed ++ [line] }

/-- Land every line that has not landed, all of them with the content that stands now. -/
def landAll (s : State) (c : Cmd) : State :=
  let bs := (outsOf s c).flatMap fun o => o.bytes.getD []
  updSp s c.pid fun m => (bs.filter fun b => !c.landed.contains (b.addr / 64)).foldl (fun m b => b.put m) m

/-! ## Choices of engine scratchpad points (09 R163; log entry 10) -/

/-- An engine reads a scratchpad line of a live command now. -/
def spReadNow (s : State) (id line : Nat) : Option State :=
  match getCmd s id with
  | some c =>
    let size := ((c.panel s).map (·.hdr.size)).getD 0
    if c.fail.isNone && decide (64 * line < size) && !(c.lines.any fun l => l.1 == line) then
      some (captureLine s id line)
    else none
  | none => none

/-- The scratchpad lines that a copy within scratchpad reads, all of them before it writes a byte (21 Table 21-2). -/
def sourceLines (k : CmdKind) : List Nat :=
  match k with
  | .copy (.spad a) (.spad _) len _ => List.range' (a / 64) ((a + len - 1) / 64 + 1 - a / 64)
  | _ => []

/-- ATOMS writes its slot when it completes, and never when it fails (21 R343). -/
def landsLate (k : CmdKind) : Bool :=
  match k with
  | .atom .. => true
  | _ => false

/-- An engine writes a scratchpad line of a live command now. -/
def spWriteNow (s : State) (id line : Nat) : Option State :=
  match getCmd s id with
  | some c =>
    if c.fail.isNone && !landsLate c.kind && !c.landed.contains line && (outLines s c).contains line then
      let s1 := captureLines s id (sourceLines c.kind)
      (getCmd s1 id).bind fun d => landLine s1 d line
    else none
  | none => none

end Sys2Proof.Machine
end

