-- ==== Sys2Proof/Machine/Access.lean ====
section
/-! DEFINITION. How the pieces of engine commands are performed: translation, granule reads and reconstruction, writes
through the open-stripe log, memory-side operations, and the requests that leave on links with their responses (02 R25 to
R30, 03 R50 to R65, 04 R83, 09 R157 to R169). -/

namespace Sys2Proof.Machine

open Sys2Proof

/-! ## Where an access goes -/

/-- A place in memory: local with SUBV of a tolerant page, of a peer, or of the host. -/
inductive Spot where
  | loc (da : Nat) (tol : Option Nat)
  | peer (dev addr : Nat)
  | host (addr : Nat)
deriving DecidableEq, Repr

/-- Commands whose addresses are not translated: data addresses of local memory, and ring addresses (04 R68). -/
def Cmd.physical (c : Cmd) : Bool :=
  match c.owner with
  | .bar2 _ | .peer .. | .pleat _ | .ring _ | .pool => true
  | _ => false

/-- The place of an address that is not translated. -/
def physicalSpot (s : State) (c : Cmd) (va : Nat) : Spot :=
  match c.owner with
  | .ring q => if baseIsHost (queueAt s q).base then .host va else .loc va none
  | .pool => .host va
  | _ => .loc va none

/-- The command's panel is saved in memory, so that nothing of it acts until it resumes (06 R114). -/
def Cmd.frozen (s : State) (c : Cmd) : Bool :=
  (c.panel s).any fun p => match p.life with
    | .savedMem _ => true
    | _ => false

/-- The place that a leaf gives an address. A page of this device's own id is served locally (03 R53). -/
def spotOf (s : State) (t : TlbEntry) (va : Nat) : Spot :=
  let a := pteAddr t.leaf + va % 2 ^ pageBits t.level
  if pteTarget t.leaf = 1 then
    (if pteDev t.leaf = s.links.devid.toNat then .loc a (pteTol t.leaf) else .peer (pteDev t.leaf) a)
  else if pteTarget t.leaf = 2 then .host a
  else .loc a (pteTol t.leaf)

/-- An operation on a plane word reads and changes it: of a fold, only the swap that ZERO makes (12 R214). -/
def foldSwaps (c : Cmd) : Bool :=
  match c.kind with
  | .hgfold _ _ z _ _ _ _ => z
  | _ => true

/-- The access of a piece, as a translation fault names it: 0 read, 1 write, 2 atomic (04 R84). -/
def accessOf (c : Cmd) : Piece → Nat
  | .wr .. => 1
  | .op .. => if foldSwaps c then 2 else 0
  | _ => 0

/-- The address of a piece. -/
def Piece.va : Piece → Nat
  | .rd va _ => va
  | .wr va _ _ => va
  | .op va _ => va
  | .skip => 0

/-- The length of a piece. -/
def Piece.len : Piece → Nat
  | .rd _ n => n
  | .wr _ n _ => n
  | .op _ n => n
  | .skip => 0

/-- An access goes ahead with a cached leaf: it may write when it has to, and its page is not compressed. -/
def leafServes (t : TlbEntry) (access : Nat) : Bool := (access == 0 || pteW t.leaf) && !pteCmp t.leaf

/-- The place of an address for an access with its leaf, when the translation stands in the command's cache. -/
def resolve (s : State) (c : Cmd) (va access : Nat) : Option (Spot × Option DWord) :=
  if c.physical then some (physicalSpot s c va, none)
  else (tlbFind s c.core c.asid va).bind fun t =>
    if leafServes t access then some (spotOf s t va, some t.leaf) else none

/-- Piece `k` of a command, when it can be begun: the command has not failed and is not stalled, and the piece is not
under way, and of held writes it is its batch's turn. -/
def Cmd.fresh (s : State) (c : Cmd) (k : Nat) : Option Piece :=
  if c.frozen s || !heldTurn c k || c.fail.isSome || c.fault.isSome || c.done.contains k || c.sent.contains k || c.recon.any (fun r => r.1 == k)
      || c.opened.any (fun o => o.1 == k) then none
  else match (piecesOf s c)[k]? with
    | some .skip => none
    | p => p

/-- Mark a piece performed. -/
def markDone (s : State) (id k : Nat) : State :=
  updCmd s id fun c => { c with
    done := c.done ++ [k], sent := c.sent.filter (· != k), recon := c.recon.filter fun r => r.1 != k }

/-- Record what a piece has returned. -/
def gotData (s : State) (id k : Nat) (bs : List Byte) : State :=
  updCmd s id fun c => { c with got := c.got ++ [(k, bs)] }

/-! ## Buffered copies (09 R159, R160, R169) -/

/-- The space of a place, as copies name it: local, a peer's, or the host's. -/
def Spot.space : Spot → Nat
  | .loc .. => 0
  | .peer d _ => 1 + d
  | .host _ => 1000

/-- The address of a place. -/
def Spot.addr : Spot → Nat
  | .loc a _ => a
  | .peer _ a => a
  | .host a => a

/-- The granule address of a place. -/
def Spot.granule (p : Spot) : Nat := p.addr / 64 * 64

/-- HGLD reads through the cluster's smock cache (12 R210). -/
def readsSmock (c : Cmd) : Bool :=
  match c.kind with
  | .hgld .. => true
  | _ => false

/-- A command that no read buffer serves or copies: one of no core, a read that measures, and a code fetch, whose cache is its own (16
R246). -/
def Cmd.unbuffered (c : Cmd) : Bool :=
  match c.owner with
  | .code _ | .measure _ => true
  | _ => decide (512 ≤ c.core)

/-- Copies that serve a command: those of its core first, which its cluster's never stand behind. None serves a command of a panel
whose move has not ended with its acquire (06 R116, 09 R171). -/
def copiesFor (s : State) (c : Cmd) : List Copy :=
  let cl := vget s.clusters (c.born / 16) cluster0
  if c.unbuffered || (c.panel s).any (·.moving.isSome) then []
  else if readsSmock c then cl.smkCache
  else (coreAt s c.born).rbuf ++ cl.rbuf

/-- Copies with a new one of a granule; without `add` only where one stands. -/
def putCopy (add : Bool) (new : Copy) (xs : List Copy) : List Copy :=
  if add || xs.any (fun x => x.is new.space new.addr) then new :: without new.space new.addr xs else xs

/-- The granules that a smock cache holds: 1 MiB (00 R1). -/
abbrev smockGranules : Nat := 16384

/-- Keep what a read of memory has returned: in the buffers that serve the command, and in place of an older copy of the
others; what a read that is still outstanding in the cluster returns is not kept, as it may be older (09 R160). DESIGN CHOICE (log entry
115): a full smock cache drops the granule that was read longest ago. -/
def keepCopy (s : State) (c : Cmd) (p : Spot) (bytes : List Byte) : State :=
  if c.unbuffered then s
  else
    let new : Copy := ⟨p.space, p.granule, bytes⟩
    let s1 := updCore s c.born fun q => { q with rbuf := putCopy (!readsSmock c) new q.rbuf }
    let cl := vget s1.clusters (c.born / 16) cluster0
    soil { s1 with clusters := vset s1.clusters (c.born / 16) { cl with
      smkCache := (putCopy (readsSmock c) new cl.smkCache).take smockGranules, rbuf := putCopy (!readsSmock c) new cl.rbuf } }
      fun r => r.core / 16 == c.born / 16 && r.reads p.space p.granule

/-- A copy that the cluster holds has served a core: an older one of the core's own serves it no longer (09 R160). -/
def seenCopy (s : State) (c : Cmd) (x : Copy) : State :=
  updCore s c.born fun q => { q with rbuf := if q.rbuf.contains x then q.rbuf else without x.space x.addr q.rbuf }

/-- The earlier-issued of two reads that have returned a granule. -/
def earlierSeen (a : Option Seen) (b : Seen) : Option Seen :=
  if a.any fun x => decide (x.seq ≤ b.seq) then a else some b

/-- What a read of a granule returns because a later-issued read on its core has returned it already: no earlier-issued read sees
a newer content than that one (09 R160). -/
def laterSeen (s : State) (c : Cmd) (p : Spot) : Option (List Byte) :=
  if c.unbuffered then none
  else (((coreAt s c.born).seen.filter fun x => decide (c.seq < x.seq) && x.copy.is p.space p.granule).foldl earlierSeen none).map
    (·.copy.bytes)

/-- A command issued on a core before the place `seq` is unfinished. -/
def unfinishedBefore (s : State) (core seq : Nat) : Bool := s.cmds.any fun d => d.born == core && decide (d.seq < seq)

/-- Keep what a read has returned for the earlier-issued reads of its core; the first one of the granule stands for a command
(09 R160). -/
def noteSeen (s : State) (c : Cmd) (p : Spot) (granule : List Byte) : State :=
  if c.unbuffered || !unfinishedBefore s c.born c.seq then s
  else updCore s c.born fun q =>
    let live := q.seen.filter fun x => unfinishedBefore s c.born x.seq
    { q with seen := if live.any fun x => x.seq == c.seq && x.copy.is p.space p.granule then live
        else live ++ [⟨c.seq, ⟨p.space, p.granule, granule⟩⟩] }

/-- What a read that has found a granule returns, with the state that it leaves (09 R160). DESIGN CHOICE (log entry 130): where a
later-issued read on the core was done first, it is what that one returned. -/
def returned (s : State) (c : Cmd) (p : Spot) (granule : List Byte) : List Byte × State :=
  match laterSeen s c p with
  | some old => (old, s)
  | none => (granule, noteSeen s c p granule)

/-! ## Requests on links (03 R50, R53, R63) -/

/-- The port on which a request leaves: of the ports of the mask that are up, the one that the address picks; for a retry,
the next one after the port on which the step left last (03 R53, R62). -/
def portFor (s : State) (dev addr : Nat) (last : Option Nat) : Option Nat :=
  let mask := s.links.route.getD dev 0
  let ups := (List.range 18).filter fun i => mask.getLsbD i && (vget s.links.ual i ⟨false, 0, 0, 0⟩).up
  match last with
  | none => ups[addr / 64 % 2 ^ 26 % ups.length]?
  | some p => (ups.find? fun i => decide (p < i)).or ups.head?

/-- The home port of the queue on whose behalf a command acts (03 R50); reads of the pool ring, which no queue issues, take Port A
(log entry 42). -/
def Cmd.home (s : State) (c : Cmd) : Port :=
  if c.owner == .pool || decide (256 ≤ c.queue s) then .a else (queueAt s (c.queue s)).port

/-- A request of piece `k` of a command leaves; `tag` is that of a step. -/
def putReq (s : State) (c : Cmd) (k : Nat) (kind : ReqKind) (port dev addr len : Nat) (tag : Option Nat) : State :=
  let r : Req := ⟨s.nextId, c.id, k, kind, port, dev, addr, len, s.fs, c.born, true, tag⟩
  { s with links := { s.links with reqs := s.links.reqs ++ [r] }, nextId := s.nextId + 1 }

/-- Pieces of a command have been sent. -/
def markSent (s : State) (id : Nat) (ks : List Nat) : State := updCmd s id fun c => { c with sent := c.sent ++ ks }

/-- Send a request for piece `k` of a command. -/
def sendReq (s : State) (c : Cmd) (k : Nat) (kind : ReqKind) (port dev addr len : Nat) : State :=
  markSent (putReq s c k kind port dev addr len none) c.id [k]

/-- A host port takes a further request that is answered: at most 4,096 are outstanding (03 Table 3-1). -/
def hostRoom (s : State) (p : Port) : Bool :=
  decide ((s.links.reqs.filter fun r => r.port == 18 + portNo p).length < 4096)

/-- Retries of a command's steps: of the collective kinds, and of a COPY packet (03 R61, 04 R78). -/
def retryOf : CmdKind → Nat
  | .copy _ _ _ n => n
  | .put _ _ _ _ _ n => n
  | .bcast _ _ _ _ _ n => n
  | _ => 0

/-- Collective commands, whose writes to peers are steps. -/
def isStepped : CmdKind → Bool
  | .put .. | .bcast .. => true
  | .copy _ _ _ n => n != 0
  | _ => false

/-- A piece whose write to a peer is a step, or part of one: held granules of a collective command stay parts of its steps. -/
def Cmd.stepped (c : Cmd) (k : Nat) : Bool :=
  match c.kind with
  | .heldOut ws => (heldStepAt ws k).isSome
  | kind => isStepped kind

/-- Retries of the step that a piece belongs to. -/
def Cmd.retries (c : Cmd) (k : Nat) : Nat :=
  match c.kind with
  | .heldOut ws => ((heldStepAt ws k).map (·.retry)).getD 0
  | kind => retryOf kind

/-- The step that a piece belongs to, once that has been sent. -/
def Cmd.tryOf (c : Cmd) (k : Nat) : Option StepTry := c.tries.find? fun t => t.piece == k

/-- A step has been sent: from then on only its retry sends it. -/
def Cmd.begun (c : Cmd) (k : Nat) : Bool := (c.tryOf k).isSome

/-- Record a send, or a failed send, of the step that pieces `ks` make. -/
def noteTries (s : State) (id : Nat) (ks : List Nat) (t : StepTry) : State :=
  updCmd s id fun c => { c with
    tries := (c.tries.filter fun u => !ks.contains u.piece)
      ++ ks.map fun k => { t with piece := k, head := ks.head? == some k }
    sent := c.sent.filter fun k => !ks.contains k }

/-- A step fails with LINK_DOWN or TIMEOUT: it waits for its retry, or its command fails (03 R62). -/
def failStep (s : State) (c : Cmd) (ks : List Nat) (t : StepTry) (code va : Nat) : State :=
  let n := c.retries (ks.headD 0)
  if t.sends ≤ n then noteTries s c.id ks { t with at_ := s.fs }
  else failWith s c.id (if n = 0 then code else 0x17) va

/-- Steps towards a peer without an acknowledgement: those that are outstanding and those that wait for a retry (03 R62). -/
def stepsTo (s : State) (dev : Nat) : Nat :=
  ((s.cmds.filter fun c => c.fail.isNone).map fun c =>
    (c.tries.filter fun t => t.head && t.dev == dev && !c.done.contains t.piece).length).sum

/-- Send a read, a write or an atomic to a peer; one that finds no port fails with LINK_DOWN. -/
def sendToPeer (s : State) (c : Cmd) (k dev addr len : Nat) (kind : ReqKind) (va : Nat) : Option State :=
  if !s.links.enable then none
  else if localBytes < addr + len then some (failWith s c.id 0x15 va)
  else match portFor s dev addr none with
    | some p => some (sendReq s c k kind p dev addr len)
    | none => some (failWith s c.id 0x13 va)

/-- A run of pieces whose places in a peer's memory follow one another: its device, address and length. -/
structure StepRun where
  pieces : List Nat
  dev : Nat
  addr : Nat
  len : Nat
deriving DecidableEq, Repr

/-- Join pieces of one step to runs; a piece without a place in a peer's memory belongs to none. -/
def joinRuns : List (Nat × Option (Nat × Nat × Nat)) → List StepRun
  | [] => []
  | (_, none) :: xs => joinRuns xs
  | (i, some (dev, addr, len)) :: xs =>
    match joinRuns xs with
    | r :: rs =>
      if r.dev = dev ∧ r.addr = addr + len ∧ r.pieces.head? = some (i + 1) then ⟨i :: r.pieces, dev, addr, len + r.len⟩ :: rs
      else ⟨[i], dev, addr, len⟩ :: r :: rs
    | [] => [⟨[i], dev, addr, len⟩]

/-- The pieces that a step puts together: of a broadcast those of one device number h, of held granules those of one step, else the
piece alone (03 R61, 21 R333). DESIGN CHOICE (log entry 141): of a COPY packet with a retry count each granule written to a peer is a
step. -/
def stepPieces (c : Cmd) (k : Nat) : List Nat :=
  match c.kind with
  | .bcast _ va len _ _ _ =>
    let n := (partsOf va len).length
    List.range' (k / n * n) n
  | .heldOut ws => (List.range (ws.flatMap heldPieces).length).filter fun i => i == k || (c.stepped k && heldStepAt ws i == heldStepAt ws k)
  | _ => [k]

/-- The step of piece `k`: the pieces beside it that have come as far as it has, as one put to a peer. None while one of
them has no translation. -/
def stepRun (s : State) (c : Cmd) (k : Nat) : Option StepRun :=
  let tag := fun (i : Nat) => (c.tryOf i).map (·.tag)
  let fresh := (stepPieces c k).filterMap fun i => if tag i == tag k then (c.fresh s i).map fun p => (i, p) else none
  let places := fresh.map fun x => (x.1, x.2.len, resolve s c x.2.va (accessOf c x.2))
  if places.any fun x => x.2.2.isNone then none
  else (joinRuns (places.map fun x => (x.1, match x.2.2 with
    | some (.peer dev addr, _) => some (dev, addr, x.2.1)
    | _ => none))).find? fun r => r.pieces.contains k

/-- The addresses of the requests that carry a step to a range of a peer: one for each granule, which leaves on the port of that
granule (03 R53, Table 3-2; log entry 81). -/
def stepBlocks (addr len : Nat) : List Nat :=
  (List.range' (addr / 64) ((addr + len - 1) / 64 + 1 - addr / 64)).map fun g => 64 * g

/-- The piece of a run at an address: pieces lie one in each granule, but for a tile, which is one piece. -/
def StepRun.pieceAt (r : StepRun) (a : Nat) : Nat := (r.pieces[a / 64 - r.addr / 64]?).getD (r.pieces.headD 0)

/-- The requests of a step leave, each on its own port, or on the next one of a retry. -/
def sendBlocks (s : State) (c : Cmd) (r : StepRun) (last : Option Nat) (tag : Nat) : State :=
  markSent ((stepBlocks r.addr r.len).foldl (fun t a =>
    match portFor s r.dev a last with
    | some p => putReq t c (r.pieceAt a) .step p r.dev a 64 (some tag)
    | none => t) s) c.id r.pieces

/-- Send a step (03 R61, R62): the first time with a new tag, when fewer than 256 steps towards the peer wait for their
acknowledgement. One that finds no port fails with LINK_DOWN. -/
def sendStep (s : State) (c : Cmd) (k : Nat) (r : StepRun) (va : Nat) : Option State :=
  if !s.links.enable then none
  else if localBytes < r.addr + r.len then some (failWith s c.id 0x15 va)
  else
    let old := c.tryOf k
    if old.isNone && decide (256 ≤ stepsTo s r.dev) then none
    else
      let port := portFor s r.dev r.addr (old.bind (·.port))
      let t : StepTry := match old with
        | some t => { t with sends := t.sends + 1, at_ := s.fs, port := port, dev := r.dev }
        | none => ⟨k, true, 1, s.fs, s.links.stepTag, port, r.dev⟩
      let s1 := noteTries (if old.isSome then s else
        { s with links := { s.links with stepTag := (s.links.stepTag + 1) % 2 ^ 16 } }) c.id r.pieces t
      if port.isSome then some (sendBlocks s1 c r (old.bind (·.port)) t.tag) else some (failStep s1 c r.pieces t 0x13 va)

/-! ## Reads -/

/-- A read has returned its granule: the piece has its bytes. -/
def readDone (s : State) (c : Cmd) (k : Nat) (p : Spot) (granule : List Byte) (len : Nat) : State :=
  markDone (gotData s c.id k ((granule.drop (p.addr % 64)).take len)) c.id k

/-- A read has found its granule in memory or in a buffer: the piece has the bytes that the read returns. -/
def readFound (s : State) (c : Cmd) (k : Nat) (p : Spot) (granule : List Byte) (len : Nat) : State :=
  let r := returned s c p granule
  readDone r.2 c k p r.1 len

/-- A read of local memory settled for its piece: its granule, which buffers keep; a substitute, which is made anew by each
read (02 R33); or its failure. `none` when it has to wait. -/
def settlePiece (s : State) (c : Cmd) (k va da len : Nat) (tol : Option Nat) (r : ReadOut × State) : Option State :=
  match r, settleRead tol r with
  | (.ok b, s1), _ => some (readFound (keepCopy s1 c (.loc da tol) b) c k (.loc da tol) b len)
  | (.wait, _), _ => none
  | _, (.ok b, s1) => some (readDone s1 c k (.loc da tol) b len)
  | _, (.fail code, s1) => some (failWith s1 c.id code va)
  | _, (.wait, _) => some s

/-- The reads of the gang wait for its acquiring atomics (09 R170). -/
def Cmd.mayRead (s : State) (c : Cmd) : Bool := c.after.all fun i => (getCmd s i).isNone

/-- Begin a read of piece `k` at a place. DESIGN CHOICE (log entry 148): an HGLD reads an entry table in host memory as any other read
would. -/
def beginRead (s : State) (c : Cmd) (k va len : Nat) (p : Spot) : Option State :=
  match p with
  | .loc da tol =>
    if localBytes < da + len then some (failWith s c.id 0x15 va)
    else
      let q := placeOf da
      let r := rawDirect s q.stripe q.unit q.gran
      (settlePiece s c k va da len tol r).or
        (some (updCmd r.2 c.id fun d => { d with recon := d.recon ++ [(k, da, tol)] }))
  | .peer dev addr => sendToPeer s c k dev (addr / 64 * 64) 64 .read va
  | .host addr =>
    match carrier s (c.home s) with
    | some q => if hostRoom s q then some (sendReq s c k .read (18 + portNo q) 0 addr len) else none
    | none => some (failWith s c.id 0x13 va)

/-- GRANULE_READ: piece `k` of a command reads its granule, from memory or, when `buffered`, from a copy (02 R25, 09
R160). -/
def execGranuleRead (id k : Nat) (buffered : Bool) (s : State) : Host.Outcome State Fault Refusal :=
  let r : Option State := do
    let c ← getCmd s id
    match ← c.fresh s k with
    | .rd va len =>
      if !c.mayRead s then none
      else
        let (p, _) ← resolve s c va 0
        if buffered then
          let x ← (copiesFor s c).find? fun x => x.is p.space p.granule
          some (readFound (seenCopy s c x) c k p x.bytes len)
        else beginRead s c k va len p
    | _ => none
  match r with
  | some t => .next t
  | none => .fault .notEnabled

/-- GRANULE_RECONSTRUCT: a read that found its granule lost or uncorrectable goes on once its stripe is closed (02
R25). -/
def execGranuleReconstruct (id k : Nat) (s : State) : Host.Outcome State Fault Refusal :=
  let r : Option State := do
    let c ← getCmd s id
    let w ← c.recon.find? fun r => r.1 == k
    match (piecesOf s c)[k]? with
    | some (.rd va len) =>
      let q := placeOf w.2.1
      settlePiece s c k va w.2.1 len w.2.2 (rawReconstruct s q.stripe q.unit q.gran)
    | _ => none
  match r with
  | some t => .next t
  | none => .fault .notEnabled

/-! ## Writes -/

/-- The owning cluster of a data address (09 R169). -/
def owningCluster (da : Nat) : Nat := (da / 2 ^ 12 % 32) ^^^ (da / 2 ^ 17 % 32)

/-- A piece of a command that a service gang performs: a memory-side operation, or a write of a fold (09 R168). -/
def Cmd.served (c : Cmd) : Piece → Bool
  | .op .. => true
  | .wr .. => match c.kind with
    | .hgfold .. => true
    | _ => false
  | _ => false

/-- Granules under way at the service gang of a cluster: open writes of pieces that it performs (09 R168). -/
def serviceLoad (s : State) (cluster : Nat) : Nat :=
  (s.gus.log.filter fun e =>
    (e.parts.any fun p => owningCluster (dataAddr e.stripe p.unit p.gran) == cluster)
      && s.cmds.any fun c => c.opened.any fun o => o.2 == e.stripe && ((piecesOf s c)[o.1]?).any c.served).length

/-- The service gang that performs a write of a command has 64 granules under way (09 R168). -/
def serviceFull (s : State) (c : Cmd) (p : Piece) (da : Nat) : Bool :=
  c.served p && decide (64 ≤ serviceLoad s (owningCluster da))

/-- Who makes a command's writes. -/
def Cmd.origin (c : Cmd) : Origin :=
  match c.owner with
  | .bar2 p => .host p
  | _ => .cmd c.id

/-- A write that finds the log of its controller full waits, and is counted once (02 R29). -/
def noteWait (s : State) (stripe id k : Nat) : Option State :=
  let w : LogWait := ⟨stripe, .piece id k⟩
  if s.gus.waits.contains w then none
  else some { s with gus := { s.gus with waits := s.gus.waits ++ [w], cntOpenwait := bump s.gus.cntOpenwait } }

/-- An earlier write waits for the stripe's log: a later one to the stripe does not pass it (02 R27). -/
def waitsAhead (s : State) (stripe id k : Nat) : Bool :=
  (s.gus.waits.find? fun w => w.stripe == stripe).any fun w => w != ⟨stripe, .piece id k⟩

/-- The write has entered the log, so that it waits no longer. -/
def unwait (s : State) (id k : Nat) : State :=
  { s with gus := { s.gus with waits := s.gus.waits.filter fun w => w.who != .piece id k } }

/-- Pieces `ks` of a command stand in the log at a stripe. -/
def markOpened (s : State) (id : Nat) (ks : List Nat) (stripe : Nat) : State :=
  updCmd (ks.foldl (fun t k => unwait t id k) s) id fun c =>
    { c with opened := c.opened ++ ks.map fun k => (k, stripe) }

/-- The log entry of a command at a stripe. -/
def entryOf (s : State) (c : Cmd) (stripe : Nat) : Option OpenEntry :=
  s.gus.log.find? fun e => e.stripe == stripe && e.origin == c.origin

/-- A write that cannot be made: its command fails; a host write loses that granule alone (02 R39, 03 R389). -/
def failWrite (s : State) (c : Cmd) (k code va : Nat) : State :=
  match c.owner with
  | .bar2 _ => markDone s c.id k
  | _ => failWith s c.id code va

/-- The eleven units of a stripe from piece `k` on, when the command writes them whole in one page (02 R28). DESIGN CHOICE (log
entry 88): a command makes a full-stripe write when 88 whole granules that follow one another from the stripe's first on, in one
64 KiB page, have not been begun; the writes of a fold, which service gangs make granule by granule, are none. -/
def stripeRun (s : State) (c : Cmd) (k va da : Nat) : Option (List Byte) :=
  if da % 5632 ≠ 0 ∨ da % 65536 + 5632 > 65536 ∨ c.served (.wr va 64 (.lit [])) then none
  else (List.range 88).foldr (fun i acc => do
    let rest ← acc
    match ← c.fresh s (k + i) with
    | .wr a n src =>
      let ws ← writeBytes s c a n src
      if a == va + 64 * i && coversGranule ws then some (ws.map (·.v) ++ rest) else none
    | _ => none) (some [])

/-- Enter a write of a whole granule (02 R28). -/
def enterWhole (s : State) (c : Cmd) (k : Nat) (q : Place) (bytes : List Byte) : State :=
  markOpened (openGranule s q.stripe q.unit q.gran (heldGranule s q.stripe q.unit q.gran) bytes c.origin) c.id [k] q.stripe

/-- Begin a write of a whole granule of local memory: a full stripe when the command writes one (02 R28). DESIGN CHOICE (log entry
118): one that waits for its open stripe, or behind a write that waits there, is no wait of GUS_CNT_OPENWAIT, whether or not the log
is full. -/
def beginWrite (s : State) (c : Cmd) (k va da : Nat) (ws : List WByte) : Option State :=
  let q := placeOf da
  if localBytes < da + 64 then some (failWith s c.id 0x15 va)
  else if writeFails s q.stripe q.unit then some (failWrite s c k 0x11 va)
  else if stripeOpen s q.stripe || waitsAhead s q.stripe c.id k then none
  else if 256 ≤ logCount s q.stripe then noteWait s q.stripe c.id k
  else match stripeRun s c k va da with
    | some bs =>
      if s.gus.failed then some (enterWhole s c k q (ws.map (·.v)))
      else some (markOpened (openStripe s q.stripe bs c.origin) c.id ((List.range 88).map fun i => k + i) q.stripe)
    | none => some (enterWhole s c k q (ws.map (·.v)))

/-- The packet on whose behalf a command acts. -/
def Cmd.packet (s : State) (c : Cmd) : Option (Nat × Nat) :=
  match c.owner with
  | .packet q i => some (q, i)
  | o => (o.panel.bind (getPanel s)).map fun p => (p.hdr.queue, p.hdr.index)

/-- The gang on whose behalf a command acts, with the class of the command. -/
def Cmd.sender (c : Cmd) : Option (Nat × Cls) :=
  match c.owner with
  | .gangs _ ((gi, _) :: _) => some (gi, c.cls)
  | .gangs _ [] => some (c.unit, c.cls)
  | _ => none

/-- The scratchpad lines that the pieces of a step take bytes from. -/
def runLines (s : State) (c : Cmd) (r : StepRun) : List Nat :=
  r.pieces.flatMap fun i => match ((piecesOf s c)[i]? : Option Piece) with
    | some (.wr _ n src) => src.lines n
    | _ => []

/-- Send bytes of one granule as one posted write; bits that a mask leaves out stay as the write finds them. -/
def postBytes (s : State) (c : Cmd) (p : Port) (addr va : Nat) (ws : List WByte) : State :=
  postHost s ⟨p, c.owner.panel, some c.id, c.packet s, c.sender, ws.map fun w => { w with va := addr + (w.va - va) }, none⟩

/-- Write a piece to another memory: a request to a peer, or a posted write to the host, which is complete for its command
once the port has sent it (09 R157). UALink carries no write of less than 64 bytes (03 Table 3-2): one of part of a granule
is a request for the whole granule whose mask leaves the other bytes out (log entry 81). -/
def writeAway (s : State) (c : Cmd) (k va : Nat) (ws : List WByte) (p : Spot) : Option State :=
  match p with
  | .peer dev addr =>
    if c.stepped k then
      (stepRun s c k).bind fun r => sendStep (captureLines s c.id (runLines s c r)) c k r va
    else sendToPeer s c k dev (addr / 64 * 64) 64 .write va
  | .host addr =>
    match carrier s (c.home s) with
    | some q => some (markDone (dropCopy (postBytes s c q addr va ws) c.core 1000 (addr / 64 * 64)) c.id k)
    | none => some (failWith s c.id 0x13 va)
  | .loc .. => none

/-- STRIPE_WRITE on piece `k`: it enters the log with its data, and the second time its parity is written and the
entry retires (02 R28). A write to another memory is sent. -/
def execStripeWrite (id k : Nat) (s : State) : Host.Outcome State Fault Refusal :=
  let r : Option State := do
    let c ← getCmd s id
    match c.opened.find? fun o => o.1 == k with
    | some o => (entryOf s c o.2).map (closeEntry s)
    | none =>
      if c.begun k then none
      else match ← c.fresh s k with
      | .wr va len src =>
        let (p, _) ← resolve s c va 1
        let s1 := captureLines s id (src.lines len)
        let d ← getCmd s1 id
        let ws ← writeBytes s1 d va len src
        match p with
        | .loc da _ =>
          if coversGranule ws && !serviceFull s1 d (.wr va len src) da then beginWrite s1 d k va (da / 64 * 64) ws else none
        | _ => writeAway s1 d k va ws p
      | _ => none
  match r with
  | some t => .next t
  | none => .fault .notEnabled

/-- Read, merge and write a granule of local memory (02 R30), with a function that gives the new granule. DESIGN CHOICE (log entry
89): the stripe and the log are waited for before the read of R30. -/
def mergeWrite (s : State) (c : Cmd) (k va da : Nat) (tol : Option Nat) (new : List Byte → List Byte)
    (keep : List Byte → State → State) : Option State :=
  let q := placeOf da
  if localBytes < da / 64 * 64 + 64 then some (failWith s c.id 0x15 va)
  else if writeFails s q.stripe q.unit then some (failWrite s c k 0x11 va)
  else if stripeOpen s q.stripe || waitsAhead s q.stripe c.id k then none
  else if 256 ≤ logCount s q.stripe then noteWait s q.stripe c.id k
  else match readForMerge s (da / 64 * 64) tol with
    | (.error code, s1) => if code = 0 then none else some (failWrite s1 c k code va)
    | (.ok (old, o), s1) =>
      some (keep old (markOpened (openGranule s1 q.stripe q.unit q.gran o (new old) c.origin) c.id [k] q.stripe))

/-- SUB_GRANULE_WRITE on piece `k`: it covers its granule only in part (02 R30). Its entry retires by STRIPE_WRITE. -/
def execSubGranuleWrite (id k : Nat) (s : State) : Host.Outcome State Fault Refusal :=
  let r : Option State := do
    let c ← getCmd s id
    match ← c.fresh s k with
    | .wr va len src =>
      let (p, _) ← resolve s c va 1
      let s1 := captureLines s id (src.lines len)
      let d ← getCmd s1 id
      let ws ← writeBytes s1 d va len src
      match p with
      | .loc da tol =>
        if coversGranule ws || serviceFull s1 d (.wr va len src) da then none
        else mergeWrite s1 d k va da tol (fun old => mergeInto (va / 64 * 64) old ws) (fun _ t => t)
      | _ => none
    | _ => none
  match r with
  | some t => .next t
  | none => .fault .notEnabled

/-! ## Memory-side operations (09 R168, R169) -/

/-- A 64-bit atomic's new value (21 R344). -/
def atomDword (op : AtOp) (sgn : Bool) (old v cmp : DWord) : DWord :=
  let less := fun (a b : DWord) => if sgn then a.slt b else a.ult b
  match op with
  | .add => old + v
  | .min => if less v old then v else old
  | .max => if less old v then v else old
  | .and => old &&& v
  | .or => old ||| v
  | .xor => old ^^^ v
  | .swap => v
  | .cas => if old = cmp then v else old

/-- An atomic's new bytes (21 R344): F32 operations round to nearest even and keep subnormals. -/
def atomBytes (op : AtOp) (w : Nat) (sgn flt : Bool) (old : List Byte) (v cmp : DWord) : List Byte :=
  if w = 8 then natBytes 8 (atomDword op sgn (BitVec.ofNat 64 (bytesNat old)) v cmp).toNat
  else
    let t : LTy := if flt then .f32 else if sgn then .i32 else .n32
    natBytes 4 (atomWord 0 t op (BitVec.ofNat 32 (bytesNat old)) (v.setWidth 32) (cmp.setWidth 32)).1.toNat

/-- Split bytes into groups. -/
def chunks (w : Nat) : Nat → List Byte → List (List Byte)
  | 0, _ => []
  | n + 1, bs => if bs.isEmpty then [] else bs.take w :: chunks w n (bs.drop w)

/-- One element of a combining add (03 R58). -/
def addElem (f : TileFmt) (a b : List Byte) : List Byte :=
  match f with
  | .i32 => natBytes 4 ((bytesNat a + bytesNat b) % 2 ^ 32)
  | .i64 => natBytes 8 ((bytesNat a + bytesNat b) % 2 ^ 64)
  | .f32 => natBytes 4 (fF32.addV .rne false (fF32.value (bytesNat a)) (fF32.value (bytesNat b))).1

/-- Bytes of an element. -/
def fmtBytes (f : TileFmt) : Nat := if f = .i64 then 8 else 4

/-- Add the elements of two runs of bytes. -/
def addElems (f : TileFmt) (a b : List Byte) : List Byte :=
  (List.zipWith (addElem f) (chunks (fmtBytes f) a.length a) (chunks (fmtBytes f) b.length b)).flatten

/-- A record of the counter area after an addition (10 R192). -/
def addRecordEntry (old : List Byte) (e : ExcEntry) : List Byte :=
  let f := fun i n => natBytes 4 (sat32 (bytesNat ((old.drop (4 * i)).take 4)) n)
  natBytes 4 e.tid.toNat ++ f 1 e.sat ++ f 2 e.ftz ++ f 3 e.nan

/-- The bytes that operation `k` of a command leaves at its address in place of `old`. -/
def opBytes (c : Cmd) (k va : Nat) (old : List Byte) : List Byte :=
  let add8 := fun (v : Nat) => natBytes 8 ((bytesNat old + v) % 2 ^ 64)
  match c.kind with
  | .atom op w sgn flt _ _ _ _ lanes =>
    match lanes[k]? with
    | some l => atomBytes op w sgn flt old l.operand l.comparand
    | none => old
  | .hgsc _ _ _ _ adds => add8 (((adds[k]?).map (·.2.toNat)).getD 0)
  | .hgfold .. => natBytes 8 0
  | .signal _ add v => if add then add8 v.toNat else natBytes 8 v.toNat
  | .records _ ents =>
    match ents[k]? with
    | some e => addRecordEntry old e
    | none => old
  | .tileAdd t => addElems t.fmt old ((t.bytes.drop (va - t.da)).take old.length)
  | .peerOp (.atom _ op wide sgn flt v cmp) => atomBytes op (if wide then 8 else 4) sgn flt old v cmp
  | .heldOut ws =>
    match heldAt ws k with
    | some (h, i) =>
      match h.how with
      | .addElems f => addElems f old h.data
      | .addWords _ adds => add8 (((adds[i]?).map (·.2.toNat)).getD 0)
      | .write _ => old
    | none => old
  | _ => old

/-- The smock slot whose AOVF an operation may set: of the adds of HGSC (12 R212). -/
def overflowSlot (c : Cmd) (k : Nat) : Option Nat :=
  match c.kind with
  | .hgsc slot _ _ _ _ => some slot
  | .heldOut ws =>
    match heldAt ws k with
    | some (h, _) => match h.how with
      | .addWords slot _ => some slot
      | _ => none
    | none => none
  | _ => none

/-- The signed sum of an add leaves 64 bits. -/
def sumOverflows (old new : List Byte) : Bool :=
  let a := intOf true 64 (bytesNat old)
  let n := intOf true 64 (bytesNat new)
  let v := intOf true 64 ((bytesNat new + (2 ^ 64 - bytesNat old % 2 ^ 64)) % 2 ^ 64)
  n != a + v

/-- Set AOVF when an add overflowed (12 R212). DESIGN CHOICE (log entry 129): of a redundant pair the primary, which performs the add,
has AOVF set in its slot. -/
def noteOverflow (s : State) (c : Cmd) (k : Nat) (old new : List Byte) : State :=
  match overflowSlot c k with
  | some n =>
    if sumOverflows old new then
      updPanel s c.pid fun p => { p with smk := vset p.smk n { vget p.smk n smock0 with aovf := true } }
    else s
  | none => s

/-- Lanes of an ATOM that name the same word are performed in ascending order (21 R342). -/
def opInTurn (c : Cmd) (k : Nat) : Bool :=
  match c.kind with
  | .atom _ _ _ _ _ _ _ _ lanes =>
    match lanes[k]? with
    | some l => (lanes.take k).zipIdx.all fun m => m.1.va != l.va || c.done.contains m.2
    | none => false
  | _ => true

/-- Operations on memory that a leaf does not allow fail with PERMISSION: plane adds and zeroing folds need SMOCK (12
R204). -/
def needsSmock (c : Cmd) (k : Nat) : Bool :=
  match c.kind with
  | .hgsc .. => true
  | .hgfold _ _ zero _ _ _ _ => zero
  | .heldOut ws => (heldAt ws k).any fun h => h.1.isAdd
  | _ => false

/-- HGFOLD reads a plane, which is an engine read of the gang (09 R170). -/
def readsPlane (c : Cmd) : Bool :=
  match c.kind with
  | .hgfold .. => true
  | _ => false

/-- Operations that a UALink request carries to a peer (03 Table 3-2, 21 R344). -/
def peerCarries (k : CmdKind) : Bool :=
  match k with
  | .atom op _ _ flt _ _ _ _ _ => !(op == .and || op == .or || op == .xor || (op == .add && flt))
  | .records .. => false
  | _ => true

/-- Perform an operation at the owning service gang, which has at most 64 granules under way (09 R168, R169). -/
def opLocal (s : State) (c : Cmd) (k va len da : Nat) (tol : Option Nat) : Option State :=
  let part := fun (g : List Byte) => (g.drop (da % 64)).take len
  if 64 ≤ serviceLoad s (owningCluster da) then none
  else if foldSwaps c then
    mergeWrite s c k va da tol (fun old => mergeBytes old (da % 64) (opBytes c k va (part old)))
      (fun old t => dropAllCopies (noteOverflow (gotData t c.id k (part old)) c k (part old) (opBytes c k va (part old)))
        0 (da / 64 * 64))
  else if localBytes < da + len then some (failWith s c.id 0x15 va)
  else match readGranule s (da / 64 * 64) tol with
    | (.ok old, s1) => some (markDone (gotData (dropCopy s1 c.core 0 (da / 64 * 64)) c.id k (part old)) c.id k)
    | (.fail code, s1) => some (failWith s1 c.id code va)
    | (.wait, _) => none

/-- A SIGNAL to host memory: one atomic, which its port sends after the writes that it has sent before (04 R79), and whose
answer is outstanding (03 R63). -/
def signalHost (s : State) (c : Cmd) (k addr : Nat) : Option State :=
  match carrier s (c.home s), c.kind with
  | none, _ => some (failWith s c.id 0x13 addr)
  | some q, .signal _ add v =>
    if hostRoom s q then
      let s1 := postHost s ⟨q, c.owner.panel, some c.id, c.packet s, none, [], some (addr, add, v)⟩
      some (sendReq s1 c k .atom (18 + portNo q) 0 addr 8)
    else none
  | _, _ => none

/-- SERVICE_GANG_OP on piece `k`: an operation at the owning service gang; one on a peer's memory is sent there (03 R55,
09 R168, R169). A combining put to local memory goes through the pleat tables (TILE_ARRIVE). -/
def execServiceGangOp (id k : Nat) (s : State) : Host.Outcome State Fault Refusal :=
  let r : Option State := do
    let c ← getCmd s id
    match ← c.fresh s k with
    | .op va len =>
      let (p, leaf) ← resolve s c va (accessOf c (.op va len))
      if !opInTurn c k || c.begun k || (readsPlane c && !c.mayRead s) then none
      else if needsSmock c k && !(leaf.any pteSmock) then some (failWith s id 0x15 va)
      else match p, c.kind with
        | .peer .., .put .. => (stepRun s c k).bind fun r => sendStep s c k r va
        | .loc .., .put .. => none
        | .loc .., .peerOp (.combine _) => none
        | .host _, .put .. => some (failWith s id 0x15 va)
        | .loc da tol, _ => opLocal s c k va len da tol
        | .peer dev addr, .hgfold .. =>
          if foldSwaps c then sendToPeer s c k dev addr len .atom va
          else sendToPeer s c k dev (addr / 64 * 64) 64 .read va
        | .peer dev addr, .heldOut _ =>
          if c.stepped k then (stepRun s c k).bind fun r => sendStep s c k r va
          else sendToPeer s c k dev addr len .atom va
        | .peer dev addr, kind =>
          if peerCarries kind then sendToPeer s c k dev addr len .atom va else some (failWith s id 0x15 va)
        | .host addr, .signal .. => signalHost s c k addr
        | .host _, _ => some (failWith s id 0x15 va)
    | _ => none
  match r with
  | some t => .next t
  | none => .fault .notEnabled

/-! ## Translation -/

/-- A command stalls on a translation fault; a panel whose fetch of code stalls may leave its positions at once (04 R84, 07
R130). -/
def stallCmd (s : State) (c : Cmd) (kind va access : Nat) : State :=
  let s1 := raiseFault s c kind va access
  match c.owner with
  | .code pid => (getPanel s1 pid).elim s1 fun p => refreshCore s1 p.core
  | _ => s1

/-- TABLE_WALK for piece `k` (04 R83): the cache is filled, or the command fails or stalls. DESIGN CHOICE (log entry 127): a write of a
plane page with SMOCK = 0 and W = 0 raises the WRITE fault. -/
def execTableWalk (id k : Nat) (s : State) : Host.Outcome State Fault Refusal :=
  let r : Option State := do
    let c ← getCmd s id
    let p ← c.fresh s k
    if c.physical then none
    else
      let access := accessOf c p
      match walkVa s c.asid p.va with
      | (.wait, _) => none
      | (.fail code, s1) => some (failWith s1 id code p.va)
      | (.fault kind, s1) => some (stallCmd s1 c kind p.va access)
      | (.leaf level _ e, s1) =>
        let s2 := tlbFill s1 c.core ⟨c.asid, p.va / 2 ^ pageBits level, e, level⟩
        if access != 0 && !pteW e then some (stallCmd s2 c writeFault p.va access) else some s2
  match r with
  | some t => .next t
  | none => .fault .notEnabled

/-- Expand a page for an access of a command, or stall the command while the pool offers no frame (02 R47); the access of a page
beyond local memory fails (04 R82). None while a read has to wait. -/
def expandFor (s : State) (c : Cmd) (va ptr : Nat) (e : DWord) (access : Nat) : Option State :=
  if localBytes < 65536 + pteAddr e then some (failWith s c.id 0x15 va)
  else if poolIsEmpty s then some (stallCmd s c poolEmpty va access)
  else match poolNext s c.id with
    | .wait => none
    | .begin s1 => some s1
    | .fail code s1 => some (failWith s1 c.id code va)
    | .frame b s1 =>
      match expandPage s1 c.asid va ptr e b with
      | (none, s2) => some s2
      | (some 0, _) => none
      | (some code, s2) => some (failWith (endPool s2) c.id code va)

/-- PAGE_EXPAND for piece `k` (02 R47): a walk finds the page compressed; it is expanded, or the command stalls while the
pool offers no frame. -/
def execPageExpand (id k : Nat) (s : State) : Host.Outcome State Fault Refusal :=
  let r : Option State := do
    let c ← getCmd s id
    let p ← c.fresh s k
    if c.physical then none
    else match walkVa s c.asid p.va with
      | (.leaf level ptr e, s1) =>
        if level ≠ 3 ∨ pteCmp e = false then none else expandFor s1 c p.va ptr e (accessOf c p)
      | _ => none
  match r with
  | some t => .next t
  | none => .fault .notEnabled

/-! ## Responses -/

/-- An outstanding request. -/
def reqOf (s : State) (id : Nat) : Option Req := s.links.reqs.find? fun r => r.id == id

/-- A request is no longer outstanding. -/
def endReq (s : State) (r : Req) : State :=
  { s with links := { s.links with reqs := s.links.reqs.filter fun x => x.id != r.id } }

/-- A request that has failed: a response that still comes is late (03 R63). -/
def killReq (s : State) (r : Req) : State :=
  let s1 := endReq s r
  { s1 with links := { s1.links with dead := s1.links.dead ++ [r.id] } }

/-- The host port of a request to host memory. -/
def Req.hostPort (r : Req) : Port := if r.port = 18 then .a else .b

/-- The place that a request asks about. -/
def Req.spot (r : Req) : Spot := if 18 ≤ r.port then .host r.addr else .peer r.dev r.addr

/-- Status codes with which a target ends a request (03 R54). -/
def targetCode (code : Nat) : Bool := code == 0x11 || code == 0x12 || code == 0x15

/-- A read's response: its bytes for the piece, of the granule `bs`. What no buffer may keep may be newer than an older copy, which
then serves the core no longer (09 R160). -/
def respondRead (s : State) (c : Cmd) (r : Req) (bs : List Byte) : State :=
  match (piecesOf s c)[r.piece]? with
  | some (.rd va len) =>
    let s1 := if 18 ≤ r.port then s
      else if r.clean then keepCopy s c r.spot bs
      else dropCopy s c.born r.spot.space r.spot.granule
    let x := returned s1 c r.spot bs
    markDone (gotData x.2 c.id r.piece ((x.1.drop (va % 64)).take len)) c.id r.piece
  | some p =>
    markDone (gotData (dropCopy s c.born r.spot.space r.spot.granule) c.id r.piece ((bs.drop (p.va % 64)).take p.len)) c.id r.piece
  | none => s

/-- The response to a request of a live command, when it is one that can come. -/
def respond (s : State) (c : Cmd) (r : Req) (y : PeerReply) : Option State :=
  let s1 := endReq s r
  match y with
  | .failed code => if targetCode code.toNat && decide (r.port < 18) then
      some (failWith s1 c.id code.toNat (((piecesOf s c)[r.piece]?).map Piece.va |>.getD 0)) else none
  | .data bs =>
    match r.kind with
    | .read =>
      if 18 ≤ r.port then
        let s2 := deliverFor s1 r.hostPort r.addr
        if bs = s2.hostMem.read r.addr r.len then
          some (respondRead s2 c r (s2.hostMem.read (r.addr / 64 * 64) 64)) else none
      else if bs.length = r.len then some (respondRead s1 c r bs) else none
    | .write => if bs.isEmpty then some (markDone (dropCopy s1 c.core (1 + r.dev) (r.addr / 64 * 64)) c.id r.piece) else none
    | .atom =>
      if 18 ≤ r.port then
        if bs.isEmpty then some (markDone (deliverFor s1 r.hostPort r.addr) c.id r.piece) else none
      else if bs.length = r.len then
        let s2 := noteOverflow s1 c r.piece bs (opBytes c r.piece r.addr bs)
        some (markDone (dropAllCopies (gotData s2 c.id r.piece bs) (1 + r.dev) (r.addr / 64 * 64)) c.id r.piece)
      else none
    | .step => none

/-- PEER_RESPONSE: a response to an outstanding request, of a peer or of host memory; a late one is discarded and counted
(03 R63). -/
def execPeerResponse (id : Nat) (y : PeerReply) (s : State) : Host.Outcome State Fault Refusal :=
  if s.links.dead.contains id then
    .next { s with links := { s.links with
      dead := s.links.dead.filter (· != id), cntLate := bump s.links.cntLate } }
  else
    let r : Option State := do
      let r ← reqOf s id
      let c ← getCmd s r.cmd
      respond s c r y
    match r with
    | some t => .next t
    | none => .fault .notEnabled

/-- The pieces of the step that piece `k` belongs to. -/
def Cmd.stepOf (c : Cmd) (k : Nat) : List Nat :=
  ((c.tries.filter fun t => (c.tryOf k).map (·.tag) == some t.tag).map (·.piece)).mergeSort fun a b => decide (a ≤ b)

/-- The outstanding requests of the step that a request belongs to. -/
def stepReqs (s : State) (r : Req) : List Req :=
  s.links.reqs.filter fun x => x.cmd == r.cmd && x.kind == .step && x.tag == r.tag

/-- An outstanding request fails with LINK_DOWN or TIMEOUT (03 R62, R63); with a request of a step fails the step, with whatever it
has outstanding. -/
def failReq (s : State) (r : Req) (code : Nat) : State :=
  let s1 := (if r.kind = .step then stepReqs s r else [r]).foldl killReq s
  match getCmd s1 r.cmd with
  | some c =>
    let va := (((piecesOf s c)[r.piece]?).map Piece.va).getD 0
    match c.tryOf r.piece with
    | some t =>
      if r.kind = .step then failStep s1 c (c.stepOf r.piece) { t with port := some r.port } code va
      else failWith s1 r.cmd code va
    | none => failWith s1 r.cmd code va
  | none => s1

/-- REQUEST_TIMEOUT: no response for XL_TIMEOUT µs (03 R63). -/
def execRequestTimeout (id : Nat) (s : State) : Host.Outcome State Fault Refusal :=
  match reqOf s id with
  | some r => if r.sentAt + s.links.timeout * 10 ^ 9 ≤ s.fs then .next (failReq s r 0x14) else .fault .notEnabled
  | none => .fault .notEnabled

/-- STEP_ACK: the target has written or added a step's data (03 R61). -/
def execStepAck (id step : Nat) (s : State) : Host.Outcome State Fault Refusal :=
  match s.links.reqs.find? fun r => r.cmd == id && r.piece == step && r.kind == .step, getCmd s id with
  | some r, some c =>
    let ended := fun (t : State) (x : Req) =>
      (granulesOf x.addr x.len).foldl (fun t g => dropCopy t c.core (1 + x.dev) g) (endReq t x)
    .next ((c.stepOf step).foldl (fun t k => markDone t id k) ((stepReqs s r).foldl ended s))
  | _, _ => .fault .notEnabled

/-- STEP_RETRY: a step that failed goes out again, on the next port that is up, or 10 µs later when none is (03 R62). Its
source range is read again. -/
def execStepRetry (id step : Nat) (s : State) : Host.Outcome State Fault Refusal :=
  let r : Option State := do
    let c ← getCmd s id
    let t ← c.tryOf step
    let p ← c.fresh s step
    let r ← stepRun s c step
    if r.pieces.head? != some step || ((portFor s r.dev r.addr t.port).isNone && decide (s.fs < t.at_ + 10 ^ 10)) then none
    else
      let s1 := { s with links := { s.links with cntRetry := bump s.links.cntRetry } }
      let s2 := captureLines (updCmd s1 id fun d => { d with lines := [] }) id (runLines s c r)
      sendStep s2 c step r p.va
  match r with
  | some t => .next t
  | none => .fault .notEnabled

/-- UAL_LINK_UP: a port completes training and learns its peer (05 R89). -/
def execUalLinkUp (n dev port domain : Nat) (s : State) : Host.Outcome State Fault Refusal :=
  if n < 18 ∧ dev < 512 ∧ port < 18 ∧ domain < 256 then
    .next { s with links := { s.links with ual := vset s.links.ual n ⟨true, dev, port, domain⟩ } }
  else .fault .notEnabled

/-- UAL_LINK_DOWN: every request outstanding on the port fails with LINK_DOWN (03 R63). -/
def execUalLinkDown (n : Nat) (s : State) : Host.Outcome State Fault Refusal :=
  if n < 18 then
    let u := vget s.links.ual n ⟨false, 0, 0, 0⟩
    let s1 := { s with links := { s.links with ual := vset s.links.ual n { u with up := false } } }
    .next ((s.links.reqs.filter fun r => r.port == n).foldl (fun t r =>
      if (reqOf t r.id).isSome then failReq t r 0x13 else t) s1)
  else .fault .notEnabled

end Sys2Proof.Machine
end

