-- ==== Sys2Proof/Machine/Pleat.lean ====
section
/-! DEFINITION. Pleat tables and the requests of peers (03 R54, R57 to R62). -/

namespace Sys2Proof.Machine

open Sys2Proof

/-! ## Pleat tables (03 R57 to R60) -/

/-- Two tiles have one key: address, length, format and expected count. -/
def sameKey (a b : Tile) : Bool :=
  a.da == b.da && a.bytes.length == b.bytes.length && a.fmt == b.fmt && a.count == b.count

/-- Two tiles overlap. -/
def tilesMeet (a b : Tile) : Bool := decide (a.da < b.da + b.bytes.length ∧ b.da < a.da + a.bytes.length)

/-- A tile added into another of its key. DESIGN CHOICE (log entry 90): what an ingress table has combined counts at the owning
cluster's table as the number of its contributions, not as one arrival. -/
def joinTile (e t : Tile) : Tile :=
  { e with bytes := addElems e.fmt e.bytes t.bytes, src := e.src ++ t.src, arrivals := e.arrivals + t.arrivals }

/-- Add a tile into memory by the owning cluster's service gang (03 R59, R60). -/
def addIntoMemory (s : State) (t : Tile) : State := newCmd s (.pleat t.src) noCore .collective (.tileAdd t) 0 id

/-- A pleat table. -/
def pleatAt (s : State) (n : Nat) : List PleatEntry := vget s.links.pleats n []

/-- Change a pleat table. -/
def updPleat (s : State) (n : Nat) (f : List PleatEntry → List PleatEntry) : State :=
  { s with links := { s.links with pleats := vset s.links.pleats n (f (pleatAt s n)) } }

/-- A tile arrives at table `n`, whose deliveries and bypasses go on by `next` (03 R59, R60). -/
def arriveAt (n : Nat) (next : State → Tile → State) (s : State) (t : Tile) : State :=
  match (pleatAt s n).find? fun e => sameKey e.tile t with
  | some e =>
    let j := joinTile e.tile t
    if j.count ≤ j.arrivals then next (updPleat s n fun es => es.filter fun x => x.id != e.id) j
    else updPleat s n fun es => es.map fun x => if x.id == e.id then { x with tile := j, last := s.fs } else x
  | none =>
    if 64 ≤ (pleatAt s n).length ∨ (pleatAt s n).any (fun e => tilesMeet e.tile t) then
      next { s with links := { s.links with cntBypass := bump s.links.cntBypass } } t
    else if t.count ≤ t.arrivals then next s t
    else { updPleat s n fun es => es ++ [⟨s.nextId, t, s.fs⟩] with nextId := s.nextId + 1 }

/-- A tile arrives at the owning cluster's table. -/
def arriveCluster (s : State) (t : Tile) : State := arriveAt (18 + owningCluster t.da) addIntoMemory s t

/-- A tile arrives at an ingress station's table, or at the owning cluster's when it is of local origin. -/
def arriveTile (station : Option Nat) (s : State) (t : Tile) : State :=
  match station with
  | some n => arriveAt n arriveCluster s t
  | none => arriveCluster s t

/-- The tile of piece `k` of a combining put to local memory, or of a peer's combining step, with the station it
reaches. -/
def tileOf (s : State) (c : Cmd) (k da : Nat) : Option (Option Nat × Tile) :=
  match c.kind, c.owner with
  | .put sp va len fmt count _, _ =>
    ((tileRanges va len)[k]?).map fun p =>
      (none, ⟨da, fmt, count, (imageOf s c).read (sp + (p.1 - va)) p.2, [(c.id, k)], 1⟩)
  | .peerOp (.combine t), .peer port _ => some (some port, { t with src := [(c.id, k)], arrivals := 1 })
  | _, _ => none

/-- TILE_ARRIVE: the tile of a command's piece arrives at its first pleat table (03 R59). DESIGN CHOICE (log entry 140): a tile keeps
no TOL of its leaf, so that its add never substitutes for an unreadable granule. -/
def execTileArrive (station : Option Nat) (t : Tile) (s : State) : Host.Outcome State Fault Refusal :=
  let r : Option State := do
    let (id, k) ← t.src.head?
    let c ← getCmd s id
    match ← c.fresh s k with
    | .op va len =>
      match ← resolve s c va 2 with
      | (.loc da _, _) =>
        let x ← tileOf s c k da
        if localBytes < da + len then some (failWith s id 0x15 va)
        else if x == (station, t) then
          some (arriveTile station (updCmd s id fun d => { d with sent := d.sent ++ [k] }) t)
        else none
      | _ => none
    | _ => none
  match r with
  | some u => .next u
  | none => .fault .notEnabled

/-- PLEAT_ENTRY_TIMEOUT: 2 µs without a further arrival (03 R59). -/
def execPleatEntryTimeout (table entry : Nat) (s : State) : Host.Outcome State Fault Refusal :=
  match (pleatAt s table).find? fun e => e.id == entry with
  | some e =>
    if e.last + 2 * 10 ^ 9 ≤ s.fs then
      let s1 := updPleat s table fun es => es.filter fun x => x.id != entry
      .next (if table < 18 then arriveCluster s1 e.tile else addIntoMemory s1 e.tile)
    else .fault .notEnabled
  | none => .fault .notEnabled

/-! ## Requests of peers (03 R54, R62) -/

/-- The range that a request asks about. -/
def askRange : PeerAsk → Nat × Nat
  | .read da len => (da, len)
  | .write da bs => (da, bs.length)
  | .atom da _ wide _ _ _ _ => (da, if wide then 8 else 4)
  | .combine t => (t.da, t.bytes.length)

/-- An import window holds a range (03 Table 3-4). -/
def windowHolds (w : DWord) (da len : Nat) : Bool :=
  w.getLsbD 63 && decide (fieldOf w 35 0 * 65536 ≤ da
    ∧ da + len ≤ (fieldOf w 35 0 + fieldOf w 59 36) * 65536)

/-- A request passes the checks of the target (03 R54). -/
def importAllows (s : State) (da len : Nat) : Bool :=
  s.links.win.toList.any (fun w => windowHolds w da len) && decide (da + len ≤ localBytes)

/-- A request has a form that UALink carries (03 Table 3-2, R57). A step's put stands for every request that carries it, which are
whole granules (03 R61; log entry 81). -/
def askForm (step : Bool) : PeerAsk → Bool
  | .read _ len => decide (64 ≤ len ∧ len ≤ 256)
  | .write da bs =>
    if step then da % 64 == 0 && bs.length % 64 == 0 && decide (64 ≤ bs.length) else decide (64 ≤ bs.length ∧ bs.length ≤ 256)
  | .atom da op wide _ flt _ _ =>
    da % (if wide then 8 else 4) == 0 && (op == .min || op == .max || (!flt && (op == .add || op == .swap || op == .cas)))
      && !(wide && flt)
  | .combine t => t.da % 64 == 0 && t.bytes.length % 64 == 0 && decide (1 ≤ t.bytes.length)
      && decide (t.da % 4096 + t.bytes.length ≤ 4096 ∧ 2 ≤ t.count ∧ t.count ≤ 432)

/-- The target remembers a step of a source (03 R62). -/
def remembers (s : State) (dev tag : Nat) : Bool := s.links.tags.contains (dev, tag)

/-- Remember a step that has been applied: the last 256 of each source. -/
def remember (s : State) (dev tag : Nat) : State :=
  let mine := ((dev, tag) :: s.links.tags.filter fun t => t.1 == dev).take 256
  { s with links := { s.links with tags := mine ++ s.links.tags.filter fun t => t.1 != dev } }

/-- The step of a source is being applied (log entry 80). -/
def applying (s : State) (step : Nat × Nat) : Bool := s.cmds.any fun c => match c.owner with
  | .peer _ t => t == some step
  | _ => false

/-- PEER_REQUEST: an arriving request (03 R54, R62) of a device with an id of Table 3-2. One that fails a check is not
performed; a step that is remembered is acknowledged and counted, and one that is being applied is held until then. -/
def execPeerRequest (r : PeerReqIn) (s : State) : Host.Outcome State Fault Refusal :=
  let p := askRange r.ask
  if !s.links.enable || decide (431 < r.dev) || !askForm r.tag.isSome r.ask || !(vget s.links.ual r.port ⟨false, 0, 0, 0⟩).up then .fault .notEnabled
  else if !importAllows s p.1 p.2 then .next s
  else
    let start := fun (step : Option (Nat × Nat)) => newCmd s (.peer r.port step) noCore .atomic (.peerOp r.ask) 0 id
    match r.tag with
    | none => .next (start none)
    | some tag =>
      if remembers s r.dev tag.toNat then
        .next { s with links := { s.links with cntDup := bump s.links.cntDup } }
      else if applying s (r.dev, tag.toNat) then .fault .notEnabled
      else .next (start (some (r.dev, tag.toNat)))

end Sys2Proof.Machine
end

