-- ==== Sys2Proof/Machine/Complete.lean ====
section
/-! DEFINITION. How engine commands complete: register and scratchpad results, smock bindings, redundant panels, batches
and the work that follows (08 R146, 09 R166, R172, 12 R205, R206, R210, 13 R226, R227, 21 R331 to R334), and the parts of
staging and write-back (06 R102, R108, 10 R192). -/

namespace Sys2Proof.Machine

open Sys2Proof

/-! ## Register results -/

/-- The vector registers that a command writes. -/
def destRegs (k : CmdKind) : List Nat :=
  match k with
  | .gathReg _ _ d _ => [d]
  | .hgld b _ n d _ => List.range' d (n * b.f)
  | .atom _ _ _ _ _ (some d) _ _ _ => [d]
  | .mxrdReg t d _ _ count => List.range' d (count * rowRegs t)
  | _ => []

/-- The place of a lane in a list of lanes. -/
def placeIn (lanes : List Nat) (l : Nat) : Nat := (lanes.findIdx? (· == l)).getD lanes.length

/-- What a lane of GATH receives: its element, extended to the lane (21 R338). -/
def gathValue (c : Cmd) (w : Nat) (sgn : Bool) (i : Nat) : Word :=
  BitVec.ofInt 32 (intOf sgn (8 * w) (bytesNat ((c.data i).getD [])))

/-- What a lane of HGLD receives in register `q` of its destinations (12 R210). -/
def hgldValue (c : Cmd) (k : SmockCfg) (l0 n : Nat) (lanes : List (Nat × List Word)) (q i : Nat) : Word :=
  let xs := ((lanes[i]?).map (·.2)).getD []
  if nanLane xs then BitVec.ofNat 32 fF32.nan
  else
    let before := ((lanes.take i).filter fun l => !nanLane l.2).length
    let j := q / k.f
    let first := before * n * 2 ^ k.d + j * 2 ^ k.d
    let entry := fun (m : Corner) =>
      (fmtOf k.efmt).value (bytesNat ((((c.data (first + m.b)).getD []).drop (q % k.f * k.esz)).take k.esz))
    BitVec.ofNat 32 (lookup ((corners k (l0 + j) xs).map fun m => (m, entry m)))

/-- What lane `l` of destination `q` of a command receives. -/
def resultLane (s : State) (c : Cmd) (q l : Nat) : Word :=
  match c.kind with
  | .gathReg w sgn _ lanes => gathValue c w sgn (placeIn (lanes.map (·.1)) l)
  | .hgld k l0 n _ lanes => hgldValue c k l0 n lanes q (placeIn (lanes.map (·.1)) l)
  | .atom _ _ _ _ _ _ _ _ lanes =>
    BitVec.ofNat 32 (bytesNat ((c.data (placeIn (lanes.map (·.lane)) l)).getD []))
  | .mxrdReg t _ _ first _ => drainLane (((getPanel s c.pid).map (·.acc)).getD []) t first q l
  | _ => 0

/-- A register takes its result in the lanes that were active at issue and whose slices have not exited; lanes keep their
values when the command has failed, and the register is POISON (07 R137, 08 R146). -/
def landReg (c : Cmd) (exited : BitVec 8) (f : Option (Nat → Word)) (v : VReg) : VReg :=
  match f with
  | some f =>
    let on := fun (l : Nat) => c.act.getLsbD l && !exited.getLsbD (sliceOf l)
    { v with
      lanes := Vector.ofFn fun l : Fin 32 => if on l.val then f l.val else vget v.lanes l.val 0
      st := .full
      by_ := none
      marked := false }
  | none => { v with st := .poison }

/-- The slices in which a result has a lane to land in. -/
def landSlices (c : Cmd) (exited : BitVec 8) : BitVec 8 :=
  BitVec.ofFnLE fun i : Fin 8 => !exited.getLsbD i.val && (List.range 32).any fun l => sliceOf l == i.val && c.act.getLsbD l

/-- What stays pending when register `r` takes the result of a command in slices `sl`: no earlier result of it hides that one from
them (13 R231). -/
def dropPending (r : Nat) (sl : BitVec 8) (p : Pending) : List Pending :=
  if pendKey p = r then [pendFor p (pendSlices p &&& ~~~sl) (pendDue p)].filter fun q => pendSlices q != 0 else [p]

/-- The registers of a command that still await it take their results; the others count LATE_DISCARD (08 R146). -/
def landRegs (s : State) (c : Cmd) (ok : Bool) : State :=
  (destRegs c.kind).zipIdx.foldl (fun t r =>
    match getGang t c.pid c.gang with
    | none => t
    | some g =>
      let v := vget g.v r.1 vreg0
      if v.by_ = some c.id then
        let f := if ok then some (resultLane s c r.2) else none
        updGang t c.pid c.gang fun g => { g with
          v := vset g.v r.1 (landReg c g.exited f v)
          pending := if ok then g.pending.flatMap (dropPending r.1 (landSlices c g.exited)) else g.pending }
      else perfAdd t c.pid 3 1) s

/-! ## Redundant panels (13 R226, R227) -/

/-- A granule that a command of a redundant panel writes. -/
structure HoldOut where
  va : Nat
  mask : BitVec 64
  data : List Byte
  how : HeldHow
  step : Option HeldStep := none
deriving DecidableEq, Repr

/-- The bits of a list of offsets. -/
def maskOf (offs : List Nat) : BitVec 64 := offs.foldl (fun m o => m ||| BitVec.ofNat 64 (2 ^ o)) 0

/-- Bytes to write as a held granule. -/
def wrHold (base : Nat) (ws : List WByte) : HoldOut where
  va := base
  mask := maskOf (ws.map fun w => w.va - base)
  data := (List.range 64).map fun o => ((ws.find? fun w => w.va == base + o).map fun w => w.v &&& w.mask).getD 0
  how := .write ((ws.filter fun w => w.mask != 0xFF).map fun w => (w.va - base, w.mask))

/-- Adds of 8-byte words, by granule: the data of an entry is the sum for each word, and each add is performed on its own
(12 R212). -/
def addHolds (slot : Nat) (adds : List (Nat × BitVec 64)) : List HoldOut :=
  (distinct (adds.map fun a => a.1 / 64)).map fun g =>
    let mine := adds.filterMap fun a => if a.1 / 64 = g then some (a.1 % 64 / 8, a.2) else none
    let word := fun i => (mine.filter fun a => a.1 == i).map (·.2)
    { va := 64 * g
      mask := maskOf ((List.range 64).filter fun o => !(word (o / 8)).isEmpty)
      data := (List.range 8).flatMap fun i => natBytes 8 ((word i).foldl (· + ·) 0).toNat
      how := .addWords slot mine }

/-- The elements of a combining put, by granule. -/
def putHolds (fmt : TileFmt) (va : Nat) (bs : List Byte) : List HoldOut :=
  (partsOf va bs.length).map fun p =>
    { va := p.1, mask := BitVec.allOnes 64, data := (bs.drop (p.1 - va)).take p.2, how := .addElems fmt }

/-- The step of a collective command that its write of a granule belongs to: of a broadcast, the put to device number h; of a
combining put, the tile (03 R57, R61, 21 R333). -/
def collStep (c : Cmd) (va : Nat) : Option HeldStep :=
  match c.kind with
  | .put _ _ _ _ _ retry => some ⟨c.id, va / 4096, retry⟩
  | .bcast _ base _ _ span retry => some ⟨c.id, (va - base / 64 * 64) / 2 ^ (30 + span), retry⟩
  | _ => none

/-- Every granule that a command writes, in ascending order. -/
def holdOuts (s : State) (c : Cmd) : List HoldOut :=
  let writes := (plainPieces c).filterMap fun p =>
    match p with
    | .wr va len src => (writeBytes s c va len src).map (wrHold (va / 64 * 64))
    | _ => none
  let ops := match c.kind with
    | .hgsc slot _ _ _ adds => addHolds slot adds
    | .put sp va len fmt _ _ => putHolds fmt va ((imageOf s c).read sp len)
    | _ => []
  ((writes ++ ops).mergeSort fun a b => decide (a.va ≤ b.va)).map fun h => { h with step := collStep c h.va }

/-- The number of an atomic operation (21 Table 21-6). -/
def atopCode : AtOp → Nat
  | .add => 0
  | .min => 1
  | .max => 2
  | .and => 3
  | .or => 4
  | .xor => 5
  | .swap => 6
  | .cas => 7

/-- What one lane's atomic feeds: its address, its operation code and its operands (13 R226). -/
def atomFeed (op : AtOp) (w : Nat) (a : LaneAtom) : List Byte :=
  natBytes 8 a.va ++ [BitVec.ofNat 8 (atopCode op)] ++ natBytes w a.operand.toNat
    ++ if op = .cas then natBytes w a.comparand.toNat else []

/-- The batch of a command's gang. -/
def Cmd.bid (c : Cmd) : Nat :=
  match c.owner with
  | .gangs _ ((_, b) :: _) => b
  | _ => 0

/-- What the granules that a command writes feed, after `n` feeds of its own. -/
def granuleFeeds (c : Cmd) (n : Nat) (outs : List HoldOut) : List Feed :=
  outs.map fun h => ⟨c.bid, c.id, n + h.va, natBytes 8 h.va ++ natBytes 8 h.mask.toNat ++ h.data⟩

/-- What a command feeds to its gang's signature: a fold with ZERO feeds its atomic swaps with 0, word by word, and then its
gradients (log entry 96). -/
def feedsOf (c : Cmd) (outs : List HoldOut) : List Feed :=
  match c.kind with
  | .atom op w _ _ _ _ _ _ lanes => lanes.map fun a => ⟨c.bid, c.id, a.lane, atomFeed op w a⟩
  | .hgfold _ (some k) true _ l0 n _ =>
    let words := foldOps k l0 n
    (words.zipIdx.map fun w => ⟨c.bid, c.id, w.2, atomFeed .swap 8 ⟨0, w.1.va, 0, 0⟩⟩) ++ granuleFeeds c words.length outs
  | _ => granuleFeeds c 0 outs

/-- The lowest entry of the hold area that no held write occupies. -/
def freeSlot (p : Panel) : Nat :=
  ((List.range (p.held.length + 1)).find? fun i => !p.held.any fun h => h.slot == i).getD p.held.length

/-- Put one held write into the hold area: the address, the mask and the data (13 R227). -/
def keepHeld (c : Cmd) (p : Panel) (h : HoldOut) : Panel :=
  let i := freeSlot p
  { p with
    held := p.held ++ [⟨i, c.gang, c.bid, h.va, h.mask, h.data, h.how, h.step⟩]
    sp := p.sp.write (p.hdr.holdbase + 80 * i) (natBytes 8 h.va ++ natBytes 8 h.mask.toNat ++ h.data) }

/-- The entries of the hold area that a command takes once its need is known are `n`, in place of those that it took at issue. -/
def countHeld (c : Cmd) (n : Nat) (p : Panel) : Panel :=
  { p with heldCount := p.heldCount.erase (c.bid, c.holds) ++ if n = 0 then [] else [(c.bid, n)] }

/-- What an atomic of the primary leaves for the secondary. -/
def mirrorFor (c : Cmd) (f : Option Fail) (q : Panel) : Panel :=
  if c.kind.isAtomic then
    { q with mirror := q.mirror ++
        [⟨c.gang, c.releases, c.got.map fun g => (g.1, BitVec.ofNat 64 (bytesNat g.2)), f⟩] }
  else q

/-- The global writes of a command of a redundant panel: held by the primary, counted by the secondary, signed by both
(09 R172, 13 R226, R227). The status is that of an entry of the copy ring that needs more room than it took when it was
published and than is free: one that was changed before it was consumed (log entry 19). -/
def holdWrites (s : State) (c : Cmd) : State × Option Fail :=
  match getPanel s c.pid with
  | none => (s, none)
  | some p =>
    let outs := holdOuts s c
    if c.entry.isSome && decide (p.holdFree + c.holds < outs.length) then (s, some (refused 0x15 c.slotAddr c.id))
    else
      let s1 := updPanel s c.pid fun q =>
        let q1 := if q.primary then outs.foldl (keepHeld c) q else q
        if c.entry.isSome then countHeld c outs.length q1 else q1
      (updGang s1 c.pid c.gang fun g => { g with feeds := g.feeds ++ feedsOf c outs }, none)

/-- The primary's result for an atomic of the secondary. -/
def mirrorOf (s : State) (c : Cmd) : Option Mirror :=
  (getPanel s c.pid).bind fun p => p.mirror.find? fun m => m.gang == c.gang && m.key == c.releases

/-- An atomic of the secondary of a pair. -/
def waitsMirror (s : State) (c : Cmd) : Bool := c.kind.isAtomic && isSecondary s c

/-- Bytes of the words that an atomic returns. -/
def atomWidth : CmdKind → Nat
  | .atom _ w .. => w
  | _ => 8

/-- A command of the secondary with the primary's result. -/
def takeMirror (s : State) (c : Cmd) : State × Cmd :=
  match if waitsMirror s c then mirrorOf s c else none with
  | some m =>
    (updPanel s c.pid fun p => { p with mirror := p.mirror.filter fun x => !(x.gang == m.gang && x.key == m.key) },
     { c with
       got := m.olds.map fun o => (o.1, natBytes (atomWidth c.kind) o.2.toNat)
       fail := m.fail.map fun f => { f with cmd := c.id } })
  | none => (s, c)

/-! ## Smock slots (12 R205, R206) -/

/-- A held fold whose HGCFG commands have all taken effect. -/
def foldDue (s : State) (c : Cmd) : Bool :=
  match c.kind with
  | .hgfold slot none _ _ _ _ held =>
    ((getPanel s c.pid).map fun p => !(held.any fun h => (vget p.smk slot smock0).queue.contains h)).getD false
  | _ => false

/-- The status of a held fold that its binding, its base or the hold area refuses (12 R206, 21 R340; log entry 19). -/
def foldRefusal (p : Panel) (cfg : Option SmockCfg) (gbase l0 n : Nat) : Option Nat :=
  match cfg with
  | none => some 0x15
  | some k =>
    if k.levels < l0 + n ∨ gbase % 4 ≠ 0 then some 0x15
    else if p.hdr.redundant && decide (p.holdFree < foldNeed k gbase l0 n) then some 0x15
    else none

/-- Release a held fold: it takes the binding that results (12 R206). DESIGN CHOICE (log entry 146): one that is refused reports
GBASE. -/
def releaseFold (s : State) (c : Cmd) : State :=
  match c.kind, getPanel s c.pid with
  | .hgfold slot _ zero gbase l0 n held, some p =>
    let cfg := (vget p.smk slot smock0).cfg
    match foldRefusal p cfg gbase l0 n, cfg with
    | none, some k =>
      let s1 := updCmd s c.id fun d => { d with kind := .hgfold slot (some k) zero gbase l0 n held }
      if p.hdr.redundant then updPanel s1 c.pid (countHeld c (foldNeed k gbase l0 n)) else s1
    | _, _ => updCmd s c.id fun d => { d with fail := some (refused 0x15 gbase c.id) }
  | _, _ => s

/-- Release every fold that is due. -/
def releaseFolds (s : State) : State := (s.cmds.filter fun c => c.fail.isNone && foldDue s c).foldl releaseFold s

/-- An HGCFG takes effect on its slot: its binding, or none, replaces what the slot holds (12 R205). -/
def takeBinding (s : State) (c : Cmd) (slot : Nat) (cfg : Option SmockCfg) : State :=
  let s1 := releaseFolds s
  let s2 := updPanel s1 c.pid fun p =>
    let k := vget p.smk slot smock0
    { p with smk := vset p.smk slot { k with cfg := cfg, queue := k.queue.filter (· != c.id) } }
  releaseFolds s2

/-- The binding that an HGCFG's reads give. -/
def readBinding (s : State) (c : Cmd) : Option SmockCfg :=
  match c.data 0 with
  | some d =>
    let n := (piecesOf s c).length - 1
    (joined ((List.range n).map fun i => c.data (1 + i))).bind fun ns => parseSmock d ns
  | none => none

/-- The command is the next one of its slot to take effect. -/
def smockTurn (s : State) (c : Cmd) : Bool :=
  match c.kind with
  | .hgcfg slot _ => ((getPanel s c.pid).map fun p => (vget p.smk slot smock0).queue.head? == some c.id).getD false
  | _ => true

/-! ## Effects at completion -/

/-- After a SIGNAL every WAIT that has started rereads its counter (04 R79). -/
def rereadWaits (s : State) : State :=
  let mark := fun (p : Pkt) => if pktType p = 3 ∧ p.stage = .started then { p with reread := true } else p
  { s with queues := s.queues.map fun q => { q with pkts := q.pkts.map mark } }

/-- What a command that has performed its pieces does when it completes, and the failure that this may bring. DESIGN CHOICE (log entry
146): an HGCFG that its descriptor refuses reports the descriptor's address. -/
def finalEffect (s : State) (c : Cmd) : State × Option Fail :=
  match c.kind with
  | .hgcfg slot va =>
    match readBinding s c with
    | some k => (takeBinding s c slot (some k), none)
    | none => (takeBinding s c slot none, some (refused 0x15 va c.id))
  | .mxz first count => (runMxz s c first count, none)
  | .mma lead ta tb keepb ck layB scaleB alphaB as =>
    match runMma s c lead ta tb keepb ck layB scaleB alphaB as with
    | (s1, ok) => (s1, if ok then none else some ⟨true, 0, 0, c.id⟩)
  | .mxrdSp t _ first count =>
    (updPanel s c.pid fun p => chargePanel p c.tid (drainCounts (drained_ p.acc t first count)), none)
  | .mxrdReg t _ _ first count =>
    (updPanel s c.pid fun p => chargePanel p c.tid (drainCounts (drained_ p.acc t first count)), none)
  | .mxwr t lay first count => (runMxwr s c t lay first count, none)
  | .mxil fmt lay scale alpha krows => (runMxil s c c.gang fmt lay scale alpha krows, none)
  | .signal .. => (rereadWaits s, none)
  | _ => (s, none)

/-- What a failed command leaves: its slot unbound, when it is an HGCFG (12 R205). -/
def failedEffect (s : State) (c : Cmd) : State :=
  match c.kind with
  | .hgcfg slot _ => takeBinding s c slot none
  | _ => s

/-- A block that its descriptor or its place refuses, with the address that its failure reports (21 R334). -/
def tileFailure (c : Cmd) : Option Fail :=
  match c.kind with
  | .tile _ _ b sp size => (tileRefusal c b sp size).map fun code => refused code c.slotAddr c.id
  | _ => none

/-! ## The parts of staging and write-back (06 R102, R108) -/

/-- The global address of a region for its panel. -/
def regionVa (p : Panel) (r : RegionEnt) : Nat :=
  (((r.addr : Int) + p.px * r.sx + p.py * r.sy + p.pz * r.sz) % (2 ^ 64 : Nat)).toNat

/-- The copy of a region, in or out. -/
def regionKind (p : Panel) (out : Bool) (r : RegionEnt) : CmdKind :=
  if r.desc then .tile out r.addr [p.px, p.py, p.pz, 0] r.place p.hdr.size
  else if out then .copy (.spad r.place) (.glob (regionVa p r)) r.len 0
  else .copy (.glob (regionVa p r)) (.spad r.place) r.len 0

/-- The parts of staging: the argument bytes, then the IN and INOUT regions in table order. -/
def stageParts (p : Panel) : List CmdKind :=
  (if p.hdr.argLen = 0 then [] else [.copy (.glob p.hdr.argAddr) (.spad p.hdr.argbase) p.hdr.argLen 0])
    ++ (p.hdr.regions.filter fun r => r.dir != 2).map (regionKind p false)

/-- The entries of the exception table that are written: those with a nonzero counter (10 R192). -/
def recordsOf (p : Panel) : List ExcEntry :=
  (p.exc ++ [p.catchAll]).filter fun e => e.sat != 0 || e.ftz != 0 || e.nan != 0

/-- The parts of write-back: OUT and INOUT regions in table order, then the exception records; nothing for the secondary
of a pair (06 R108, 10 R192). -/
def writeParts (p : Panel) : List CmdKind :=
  if p.hdr.redundant && !p.primary then []
  else (p.hdr.regions.filter fun r => r.dir != 1).map (regionKind p true)
    ++ (if p.hdr.counterArea = 0 ∨ (recordsOf p).isEmpty then [] else [.records p.hdr.counterArea (recordsOf p)])

/-- A part whose descriptor does not lie on a multiple of 64 fails at once (08 R152, 21 R334). -/
def partRefusal (id : Nat) (k : CmdKind) : Option Fail :=
  match k with
  | .tile _ desc _ _ _ => if desc % 64 = 0 then none else some (refused 0x15 desc id)
  | _ => none

/-- Issue part `k` of a panel's staging, when there is one. -/
def issueStage (s : State) (pid k : Nat) : State :=
  match getPanel s pid with
  | some p =>
    match (stageParts p)[k]? with
    | some kind => newCmd s (.stage pid k) p.core .copy kind p.hdr.asid fun c =>
        { c with alph := p.alph, fail := partRefusal c.id kind }
    | none => s
  | none => s

/-- Issue part `k` of a panel's write-back, when there is one. -/
def issueWriteBack (s : State) (pid k : Nat) : State :=
  match getPanel s pid with
  | some p =>
    match (writeParts p)[k]? with
    | some kind => newCmd s (.writeBack pid k) p.core .copy kind p.hdr.asid fun c =>
        { c with alph := p.alph, fail := partRefusal c.id kind }
    | none => s
  | none => s

/-! ## After completion -/

/-- A completed batch of one command that failed, with its place among the seals. -/
def failedBatch (s : State) (cls : Cls) (f : Fail) (order : Nat) : Batch := ⟨s.nextId, cls, 1, [], some f, s.now, order, true⟩

/-- A gang has a failed batch: of held writes that did not reach memory (log entry 139), or of a command whose writes to host memory
were lost after it had completed (03 R50; log entry 82). -/
def addFailure (s : State) (pid gi : Nat) (b : Batch) : State :=
  { updGang s pid gi fun g => { g with seals := g.seals ++ [b] } with nextId := s.nextId + 1 }

/-- The batches that hold a command have one command less to wait for; unwinds that waited go on (09 R166, 13 R225). -/
def settleBatches (s : State) (pid id : Nat) (bs : List (Nat × Nat)) (f : Option Fail) : State :=
  updPanel s pid fun p => { p with
    gangs := bs.foldl (fun gs b => modifyAt (fun g => finishUnwind p.hdr p.clk (batchDone g b.2 id f)) gs b.1) p.gangs }

/-! ## Commands that wait, and moves (06 R116, 09 R171) -/

/-- A command waits for the gang's acquiring atomics with its first reads (09 R170). -/
def Cmd.waitsRead (s : State) (c : Cmd) : Bool :=
  !c.mayRead s && (readsPlane c || (piecesOf s c).any fun p => match p with
    | .rd .. => true
    | _ => false)

/-- A command that can do nothing before a translation fault of its panel is answered: it has faulted itself, or it waits
for a command that has not completed. -/
def Cmd.stuck (s : State) (c : Cmd) : Bool :=
  c.fail.isNone && c.opened.isEmpty && c.sent.isEmpty
    && (c.fault.isSome || c.waitsRead s || !smockTurn s c || (waitsMirror s c && (mirrorOf s c).isNone)
      || match c.kind with
        | .hgfold _ none .. => !foldDue s c
        | _ => false)

/-- Every engine operation of a victim is complete, but for those that wait for each other without a fault: for an atomic of the
secondary whose result never comes, as its primary has not sent its own. -/
def runQuiet (s : State) (ps : List Panel) : Bool :=
  s.cmds.all fun c => !(ps.any fun p => c.ofPanel p.pid) || (c.fault.isNone && c.stuck s)

/-- The narrowest scope of Table 9-1 that contains two cores, as R116 names it: 1 PANEL for one core, 2 CLUSTER, 3 DEVICE. -/
def sharedScope (a b : Nat) : Nat := if a = b then 1 else if a / 16 = b / 16 then 2 else 3

/-- The acquire of a move, after which the panel issues. -/
def endMove (s : State) (p : Panel) : State :=
  match p.moving with
  | some (scope, _) => refreshCore (updPanel (acquireAt p.core scope s) p.pid fun q => { q with moving := none }) p.core
  | none => s

/-- The release of a move has been made. -/
def releaseMade (s : State) (p : Panel) : State :=
  updPanel s p.pid fun q => { q with moving := q.moving.map fun m => (m.1, true) }

/-- Every engine command of a victim that moves is complete, as far as it can be; a fetch of code is none. -/
def moveQuiet (s : State) (ps : List Panel) : Bool :=
  runQuiet { s with cmds := s.cmds.filter fun c => !ps.any fun p => c.owner == .code p.pid } ps

/-- Seal every open batch of a gang. -/
def sealAll (s : State) (pid gi : Nat) : State := allClasses.foldl (fun t c => sealClass t pid gi c) s

/-- The implied release of a move matches for a gang of a pair: its held writes are sent and both signatures start again; fragments
that wait for their partner go on waiting (06 R116, 09 R171; log entry 83). -/
def moveMatch (s : State) (prim sec gi : Nat) : State :=
  let bounds := allSeals s
  let s1 := (sendHeld s prim gi bounds).1
  let end_ := fun (t : State) (pid : Nat) => updGang (updPanel t pid (dropHeld gi bounds)) pid gi (matched bounds)
  end_ (end_ s1 prim) sec

/-- A command of a gang of one of these panels is not complete. -/
def gangBusy (s : State) (ps : List Nat) (gi : Nat) : Bool :=
  s.cmds.any fun c => match c.owner with
    | .gangs pid bs => ps.contains pid && bs.any fun b => b.1 == gi
    | _ => false

/-- The release of one gang of a panel that moves, whose commands are all complete: every open batch is sealed. In a pair that
happens in both members, and the held writes go out, where the signatures agree and neither waits for the other's atomic; else
they stay held until the gang's own release (log entry 83). -/
def moveGang (p : Panel) (s : State) (gi : Nat) : State :=
  match p.partner with
  | none => sealAll s p.pid gi
  | some m =>
    let s1 := sealAll (sealAll s p.pid gi) m gi
    let sig := fun (pid : Nat) => (getGang s1 pid gi).map fun g => signature g (allSeals s1)
    if gangBusy s [p.pid, m] gi then s
    else if sig p.pid = sig m then moveMatch s1 (if p.primary then p.pid else m) (if p.primary then m else p.pid) gi else s

/-- A move goes on: when the commands of the panel, and of its partner, are complete, the release is made for each gang; when its
held writes are in memory, the acquire follows. -/
def settleMove (s : State) (pid : Nat) : State :=
  match getPanel s pid with
  | none => s
  | some p =>
    let ps := members s p
    if p.moving.isNone || !moveQuiet s ps then s
    else
      let s1 := if p.moving.any (·.2) then s else
        ps.foldl releaseMade ((List.range p.gangs.length).foldl (moveGang p) s)
      if moveQuiet s1 ps then (members s1 p).foldl endMove s1 else s1

/-- What follows when a command is complete. DESIGN CHOICE (log entry 139): held writes that fail at a release (09 R172, 13 R221) let
it complete, and leave a failed COPY batch for the gang's next release or CWAIT. -/
def afterCmd (s : State) (c : Cmd) (f : Option Fail) : State :=
  match c.owner with
  | .gangs pid [] =>
    match f with
    | some x => addFailure s pid c.unit (failedBatch s .copy x s.nextId)
    | none => s
  | .gangs pid bs => settleBatches s pid c.id bs f
  | .packet q i => endPacket s q i ((f.map (·.status)).getD 0)
  | .stage pid k => issueStage s pid (k + 1)
  | .writeBack pid k => issueWriteBack s pid (k + 1)
  | .pleat parts => parts.foldl (fun t x =>
      match f with
      | none => markDone t x.1 x.2
      | some y => failWith t x.1 y.status
          (((getCmd t x.1).bind fun d => (piecesOf t d)[x.2]?).map Piece.va |>.getD 0)) s
  | .peer _ (some t) => if f.isNone then remember s t.1 t.2 else s
  | _ => s

/-- End a command with its outcome: it leaves the list, and its core's active set is brought up to date. -/
def endCmd (s : State) (c : Cmd) (f : Option Fail) : State :=
  let s1 := endAcquire (leaveFaults (dropRequests s c.id) c.id) c
  let s2 := afterCmd { s1 with cmds := s1.cmds.filter fun d => d.id != c.id } c f
  let s3 := if (getPanel s2 c.pid).any (·.moving.isSome) then settleMove s2 c.pid else s2
  if c.core < 512 then refreshCore s3 c.core else s3

/-- The outcome of an atomic of the primary goes to the secondary. -/
def passMirror (s : State) (c : Cmd) (f : Option Fail) : State :=
  match (getPanel s c.pid).bind (·.partner) with
  | some m => if heldBack s c && !isSecondary s c then updPanel s m (mirrorFor c f) else s
  | none => s

/-- Complete a command that has failed. -/
def completeFailed (s : State) (c : Cmd) (f : Fail) : State :=
  endCmd (passMirror (failedEffect (landRegs s c false) c) c (some f)) c (some f)

/-- A block that is refused once its descriptor has been read: a part of staging or write-back has failed, which its panel's next
event finds (06 Table 6-3); another command completes failed. -/
def refuseTile (s : State) (c : Cmd) (f : Fail) : State :=
  match c.owner with
  | .stage .. | .writeBack .. => updCmd s c.id fun d => { d with fail := some f }
  | _ => completeFailed s c f

/-- Complete a command that has performed every piece. -/
def completeDone (s : State) (c : Cmd) : State :=
  match tileFailure c with
  | some f => refuseTile s c f
  | none =>
    let (s1, f) := if heldBack s c then holdWrites s c else (s, none)
    match f with
    | some f => completeFailed s c f
    | none =>
      let s2 := landRegs (landAll s1 c) c true
      let (s3, g) := finalEffect s2 c
      endCmd (passMirror s3 c none) c g

/-- Commands that another row of the operations table ends. -/
def endsElsewhere (c : Cmd) : Bool :=
  match c.owner, c.kind with
  | .packet .., .fetch .. => true
  | .ring _, _ => true
  | .code _, _ => true
  | .stage .., _ => c.fail.isSome
  | .writeBack .., _ => c.fail.isSome
  | .pool, _ => true
  | _, .ringEntry _ => true
  | _, _ => false

/-- A packet's and a write-back's writes to host memory are known to be delivered before the command is complete (03 R50,
04 R74). -/
def undelivered (s : State) (c : Cmd) : Bool :=
  match c.owner with
  | .packet .. | .writeBack .. => s.links.posted.any fun w => w.cmd == some c.id
  | _ => false

/-- A command whose pieces are all performed may complete. -/
def mayComplete (s : State) (c : Cmd) : Bool :=
  allDone s c && c.opened.isEmpty && !matrixBehind s c && (!waitsMirror s c || (mirrorOf s c).isSome) && !undelivered s c
    && match c.kind with
      | .compress _ pages _ codes => codes.length == pages
      | _ => true

/-- A read of the pool ring for a command that is gone. -/
def poolIdle (s : State) (c : Cmd) : Bool := c.owner == .pool && (getCmd s c.unit).isNone

/-- A read that measures has ended: the fragment that waits for it has its bytes, none where it failed (13 R227). -/
def endMeasure (s : State) (c : Cmd) (pid va len : Nat) (r : Option (List Byte)) : State :=
  let note := fun (e : SplitEntry) => if e.blk == some (.measure c.id) then { e with measured := (va, len, r) :: e.measured } else e
  let s1 := updPanel (forgetCmd s c.id) pid fun p => { p with gangs := p.gangs.map fun g => { g with split := g.split.map note } }
  refreshCore s1 c.core

/-- The end of a read that measures, when it has failed or every granule is there. -/
def measureEnd (s : State) (c : Cmd) (pid : Nat) : Option State :=
  match c.kind with
  | .fetch ((va, len) :: _) =>
    if c.fault.isSome then none
    else if c.fail.isSome then some (endMeasure s c pid va len none)
    else (segBytes c 0 va 0 len).map fun bs => endMeasure s c pid va len (some bs)
  | _ => none

/-- A panel's read that measures. -/
def Cmd.measures (c : Cmd) : Option Nat :=
  match c.owner with
  | .measure pid => some pid
  | _ => none

/-- COMMAND_COMPLETE (09 R166): a command whose every effect is done, or that has failed, completes. A held fold that is
due is released by it, and a read of the pool ring whose expansion is over ends (02 R46), as does a read that measures. -/
def execCommandComplete (id : Nat) (s : State) : Host.Outcome State Fault Refusal :=
  match getCmd s id with
  | none => .fault .notEnabled
  | some c =>
    if poolIdle s c then .next (endPool s)
    else match c.measures with
    | some pid => (match if c.frozen s then none else measureEnd s c pid with
      | some t => .next t
      | none => .fault .notEnabled)
    | none =>
    if endsElsewhere c || c.frozen s || c.fault.isSome || !smockTurn s c then .fault .notEnabled
    else match c.fail with
      | some f => if c.opened.isEmpty then .next (completeFailed s c f) else .fault .notEnabled
      | none =>
        match c.kind with
        | .hgfold _ none .. => if foldDue s c then .next (releaseFold s c) else .fault .notEnabled
        | _ =>
          if mayComplete s c then
            let (s1, d) := takeMirror s c
            .next (match d.fail with
              | some f => completeFailed s1 d f
              | none => completeDone s1 d)
          else .fault .notEnabled

/-! ## Consuming the copy ring (21 R331 to R334) -/

/-- The format of a combining put's TYPE. -/
def tileFmtOf (type : Nat) : TileFmt := if type = 0x05 then .i32 else if type = 0x07 then .i64 else .f32

/-- What an accepted entry does. -/
def RingEntry.command (e : RingEntry) (size : Nat) : CmdKind :=
  match e.kind with
  | 0 => .copy (.glob e.src) (.spad e.dst) e.len 0
  | 1 => .copy (.spad e.src) (.glob e.dst) e.len 0
  | 2 => .copy (.spad e.src) (.spad e.dst) e.len 0
  | 3 => .copy (.glob e.src) (.glob e.dst) e.len 0
  | 4 => .put e.src e.dst e.len (tileFmtOf e.type) e.count e.retry
  | 5 => .bcast e.src e.dst e.len e.ndev e.span e.retry
  | 6 => .tile false e.src e.block e.dst size
  | _ => .tile true e.src e.block e.dst size

/-- The status with which a consumed entry is refused; a descriptor lies on a multiple of 64 (08 R152). -/
def RingEntry.refusedWith (e : RingEntry) (size : Nat) (al : Vector (BitVec 256) 16) : Option Nat :=
  (e.refusal size al).or (if e.isTile && e.src % 64 != 0 then some 0x15 else none)

/-- What the engine reads of a slot: of each 4-byte word that has changed since the publication, the old or the new content, a
free value (21 R331; log entry 54). -/
def seenWords (n : Nat) (old new : Vector DWord 4) : Vector DWord 4 :=
  let half := fun (k : Nat) (a b : Word) => (if a = b ∨ Config.ringSeesNew n k then b else a).setWidth 64
  Vector.ofFn fun i =>
    half (2 * i.val) (old[i].setWidth 32) (new[i].setWidth 32)
      ||| half (2 * i.val + 1) ((old[i] >>> 32).setWidth 32) ((new[i] >>> 32).setWidth 32) <<< 32

/-- A published command takes its entry. -/
def consumeEntry (p : Panel) (n : Nat) (c : Cmd) : Cmd :=
  let new := slotWords p.sp c.slotAddr
  let words := seenWords n (c.entry.getD new) new
  let e := entryFrom words
  match e.refusedWith p.hdr.size c.alph with
  | some code => { c with entry := some words, kind := .rows [], fail := some (refused code c.slotAddr c.id) }
  | none => { c with entry := some words, kind := e.command p.hdr.size }

/-- RING_CONSUME: the copy engine reads entry CONS and advances (21 R331). An entry whose command was cancelled moves
nothing. -/
def execRingConsume (pid : Nat) (s : State) : Host.Outcome State Fault Refusal :=
  match getPanel s pid with
  | none => .fault .notEnabled
  | some p =>
    if (p.life == .running || p.life == .savedLining) && p.ring.cons != p.ring.pub then
      let mine := fun (c : Cmd) => c.ofPanel pid && c.kind == .ringEntry p.ring.cons
      let s1 := { s with cmds := (s.cmds.map fun c => if mine c then consumeEntry p s.free c else c), free := s.free + 1 }
      .next (refreshCore (updPanel s1 pid fun q =>
        { q with ring := { q.ring with cons := (q.ring.cons + 1) % 2 ^ 32 } }) p.core)
    else .fault .notEnabled

end Sys2Proof.Machine
end

