-- ==== Sys2Proof/Machine/Stacks.lean ====
section
/-! DEFINITION. The loss of stacks, the gusset registers and the expansion pool (02 R34 to R46). -/

namespace Sys2Proof.Machine

open Sys2Proof

/-! ## Registers in a reset (05 R96) -/

/-- A port carries host accesses: its link is up and it is not in reset. -/
def portServes (s : State) (p : Port) : Bool := portUp s p && !(vget s.mgmt.inReset (portNo p) false)

/-- An event that is a write of a BAR0 register: it needs its port, and while a device reset is in progress it is
ignored (05 R96). -/
def regWrite (s : State) (p : Port) (f : State → State) : Host.Outcome State Fault Refusal :=
  if portServes s p then .next (if s.mgmt.resetDone then f s else s) else .fault .notEnabled

/-- A write of a register by a port that the event does not name: one of them must serve. -/
def anyWrite (s : State) (f : State → State) : Host.Outcome State Fault Refusal :=
  if portServes s .a || portServes s .b then .next (if s.mgmt.resetDone then f s else s) else .fault .notEnabled

/-! ## Work that ends with a queue (02 R39, 04 R71, 01 R16) -/

/-- TYPE of a LAUNCH packet. -/
def isLaunch (p : Pkt) : Bool := pktType p == 1

/-- Every fetched packet of a queue ends: a LAUNCH with KILLED, another with FLUSHED. -/
def killPackets (s : State) (q : Nat) : State :=
  (queueAt s q).pkts.foldl (fun t p => flushPkt q (if isLaunch p then 0x04 else 0x02) t p) s

/-- A queue that is IDLE or RUNNING enters ERROR with CODE KILLED, and its fetched packets end (02 R39). -/
def killQueue (s : State) (q : Nat) : State :=
  let x := queueAt s q
  let s1 := if x.alive then updQueue s q fun y => { y with state := .error, stIndex := oldestIndex y, stCode := 0x04 }
    else s
  killPackets s1 q

/-- A G3 record for a job that the device kills, a LAUNCH of queue `q` with packet index `i`. DESIGN CHOICE of SOURCE and CODE (log
entry 18). -/
def killRecord (source : BitVec 8) (q i : Nat) (s : State) : State :=
  addRecord s { blankRecord 3 source 0x04 with
    queue := BitVec.ofNat 8 q, part := BitVec.ofNat 8 (queueAt s q).part, index := BitVec.ofNat 32 i
    asid := BitVec.ofNat 16 (queueAt s q).asid }

/-- The jobs that end KILLED: the fetched LAUNCH packets that are not complete, accepted or not (02 R37, R39). DESIGN CHOICE (log
entry 84): at a thermal trip too a LAUNCH that is not accepted is among them; 01 R16 speaks of running panels alone. -/
def launchJobs (s : State) : List (Nat × Nat) :=
  (List.range 256).flatMap fun q => ((queueAt s q).pkts.filter isLaunch).map fun p => (q, p.index)

/-- Every queue ends its work, with a record for each LAUNCH: when the device enters FAILED (02 R39), and at a thermal trip. DESIGN
CHOICE (log entry 84): at a thermal trip too a queue with no running panel enters ERROR and its packets that are no LAUNCH complete
FLUSHED; 01 R16 speaks of the queues of running panels alone. -/
def killAllQueues (source : BitVec 8) (s : State) : State :=
  (List.range 256).foldl killQueue ((launchJobs s).foldl (fun t j => killRecord source j.1 j.2 t) s)

/-! ## Loss points (02 R35 to R39) -/

/-- POISON_LOST in all eight parity granules of a stripe. -/
def poisonParity (s : State) (n : Nat) : State :=
  if stackLost s (parityStack n) then s
  else (List.range 8).foldl (fun t g => setMark t (physOf n 11 g) (some .poisonLost)) s

/-- The data address of the first byte of the unit of stripe `n` that lies on a stack. -/
def lostUnit (n k : Nat) : Nat :=
  dataAddr n (((List.range 11).find? fun j => unitStack n j == k).getD 0) 0

/-- The record of a host write that is open at a loss point (02 R36). -/
def openWriteRecord (s : State) (n k : Nat) (p : Port) : State :=
  addRecord s { blankRecord 1 1 0x12 with
    stack := BitVec.ofNat 8 k, port := BitVec.ofNat 8 (18 + portNo p), detail := BitVec.ofNat 64 (lostUnit n k) }

/-- An engine command fails with RECONSTRUCT_FAIL because its write was open (02 R35). Writes of the device that waited behind
it follow once every entry is closed. -/
def failOpen (s : State) (id : Nat) (e : OpenEntry) : State :=
  let s1 := { s with gus := { s.gus with cntRfail := bump s.gus.cntRfail } }
  let ks := ((getCmd s1 id).map fun c => (c.opened.filter fun o => o.2 == e.stripe).map (·.1)).getD []
  let va := ((getCmd s1 id).bind fun c => (ks.head?).bind fun k => ((piecesOf s1 c)[k]?).map Piece.va).getD 0
  noteFail (leaveLinks (settleEntry s1 e) id) id 0x12 va

/-- One open entry closed for the loss of stack `k` (02 R35, R36): its data is written already. -/
def closeAtLoss (k : Nat) (s : State) (e : OpenEntry) : State :=
  if parityStack e.stripe = k then settleEntry s e
  else match e.origin with
    | .cmd id => failOpen (poisonParity s e.stripe) id e
    | _ => settleEntry (poisonParity s e.stripe) e

/-- The record of an entry that the loss of stack `k` closes: a host write makes one, unless its parity was lost (02 R36). -/
def recordOpen (k : Nat) (s : State) (e : OpenEntry) : State :=
  match e.origin with
  | .host p => if parityStack e.stripe = k then s else openWriteRecord s e.stripe k p
  | _ => s

/-- The record of a loss: G1 for the first stack, G4 for the second (02 R37). -/
def lossRecord (s : State) (k cause : Nat) : State :=
  addRecord s { blankRecord (if lostCount s = 1 then 1 else 4) 1 (BitVec.ofNat 16 cause) with
    stack := BitVec.ofNat 8 k }

/-- The jobs whose command has failed with RECONSTRUCT_FAIL and whose packet is not yet complete: those of packets, and of
the staging and write-back of launches. -/
def failedJobs (s : State) : List (Nat × Nat) :=
  distinct (s.cmds.filterMap fun c =>
    if c.fail.any fun f => f.status == 0x12 then
      match c.owner with
      | .packet .. | .stage .. | .writeBack .. => c.packet s
      | _ => none
    else none)

/-- The work of the device ends as it enters FAILED (02 R39): each job that a loss has failed has its G2 record before its packet
ends (02 R37). -/
def enterFailed (s : State) : State :=
  let s1 := (failedJobs s).foldl (fun t j => packetRecord t j.1 j.2 0x12) s
  killAllQueues 1 s1

/-- One stack is lost (02 R35 to R39): mode, open entries, all of them closed before a write that waited reaches a stripe (02
R29), and records. A loss in FAILED mode is ignored. -/
def loseStack (s : State) (x : Nat × Nat) : State :=
  if s.gus.failed || stackLost s x.1 then s
  else
    let entries := s.gus.log
    let s0 := { s with gus := { s.gus with
      lost := s.gus.lost ||| BitVec.ofNat 12 (2 ^ x.1)
      first := if s.gus.lost = 0 then x.1 else s.gus.first
      cause := x.2
      log := [] } }
    let s1 := { s0 with gus := { s0.gus with failed := decide (2 ≤ lostCount s0) } }
    let s2 := landWaiting (entries.foldl (closeAtLoss x.1) s1)
    let s3 := entries.foldl (recordOpen x.1) (lossRecord s2 x.1 x.2)
    if s3.gus.failed then enterFailed s3 else s3

/-- A loss waits for the next loss point. -/
def declareLoss (s : State) (k cause : Nat) : State :=
  if 11 < k || s.gus.failed || stackLost s k || s.gus.pending.any (fun p => p.1 == k) then s
  else { s with gus := { s.gus with pending := s.gus.pending ++ [(k, cause)] } }

/-- STACK_LOSS (02 R35): the loss point of every stack that waits for one. -/
def execStackLoss (s : State) : Host.Outcome State Fault Refusal :=
  if s.gus.pending.isEmpty then .fault .notEnabled
  else .next (s.gus.pending.foldl loseStack { s with gus := { s.gus with pending := [] } })

/-- STACK_RETRAIN_FAIL (02 R34): an interface has failed retraining three times in succession. -/
def execStackRetrainFail (stack : Nat) (s : State) : Host.Outcome State Fault Refusal :=
  if stack < 12 then .next (declareLoss s stack 1) else .fault .notEnabled

/-- A granule of an earlier host write of the port has not entered its log yet. -/
def hostWriteAhead (s : State) (p : Port) : Bool :=
  s.cmds.any fun c => c.owner == .bar2 p
    && !(piecesOf s c).zipIdx.all fun x => c.done.contains x.2 || c.opened.any fun o => o.1 == x.2

/-- GUS_DECLARE_WRITE (02 R44). Posted writes of a port reach the device in order: a host write that comes before the
declaration has entered its log (27 R379). -/
def execGusDeclareWrite (p : Port) (v : DWord) (s : State) : Host.Outcome State Fault Refusal :=
  if hostWriteAhead s p then .fault .notEnabled
  else regWrite s p fun s =>
    if fieldOf v 63 16 = 0 ∧ fieldOf v 15 8 = 0xA5 ∧ fieldOf v 7 4 = 0 then declareLoss s (fieldOf v 3 0) 3 else s

/-! ## Counters and the expansion pool -/

/-- A gusset counter cleared. -/
def clearGus (g : Gusset) : GusCounter → Gusset
  | .corr => { g with cntCorr := 0 }
  | .uncorr => { g with cntUncorr := 0 }
  | .recon => { g with cntRecon := 0 }
  | .rfail => { g with cntRfail := 0 }
  | .subst => { g with cntSubst := 0 }
  | .openwait => { g with cntOpenwait := 0 }
  | .nocmp => { g with cntNocmp := 0 }

/-- GUS_COUNTER_CLEAR (02 R42). -/
def execGusCounterClear (c : GusCounter) (s : State) : Host.Outcome State Fault Refusal :=
  anyWrite s fun s => { s with gus := clearGus s.gus c }

/-- GUS_XPOOL is written: the change takes effect after an expansion in progress has taken its frame (02 R46). -/
def poolWritten (s : State) (v : DWord) : State :=
  if (poolCmd s).isSome then { s with gus := { s.gus with xpLater := s.gus.xpLater ++ [v] } }
  else resumePool { s with gus := writePool s.gus v }

/-- GUS_XPOOL_WRITE (02 R46). -/
def execGusXpoolWrite (p : Port) (v : DWord) (s : State) : Host.Outcome State Fault Refusal :=
  regWrite s p fun s => poolWritten s v

end Sys2Proof.Machine
end

