-- ==== Sys2Proof/Machine/HostPort.lean ====
section
/-! DEFINITION. The host ports: BAR2, link loss and port resets, semaphores, and the registers of the XL block (01 R17 to
R19, 03 R49 to R56, R389, 04 R67). -/

namespace Sys2Proof.Machine

open Sys2Proof

/-! ## BAR2 (03 R389) -/

/-- The size of the BAR2 window (03 Table 3-1). -/
def bar2Bytes : Nat := 2 ^ 36

/-- Bytes of a range of granules as a host read returns them: those of an unreadable granule are all ones and the
completion is poisoned. None when a granule waits for its stripe to close. -/
def hostGranules (s : State) : List Nat → Option (Bool × List Byte × State)
  | [] => some (false, [], s)
  | a :: as =>
    match readGranule s a none with
    | (.wait, _) => none
    | (.ok b, s1) => (hostGranules s1 as).map fun r => (r.1, b ++ r.2.1, r.2.2)
    | (.fail _, s1) => (hostGranules s1 as).map fun r => (true, List.replicate 64 0xFF ++ r.2.1, r.2.2)

/-- BAR2_READ: served by ReadGranule, or ended with Completer Abort beyond local memory (03 R389). -/
def execBar2Read (p : Port) (off len : Nat) (s : State) : Host.Outcome State Fault Refusal :=
  let da := s.links.bar2Base + off
  if !portServes s p || decide (bar2Bytes < off + len ∨ len < 1 ∨ 4096 < len) then .fault .notEnabled
  else if localBytes < da + len then .next { s with reply := some ⟨p, true, false, []⟩ }
  else match hostGranules s (granulesOf da len) with
    | some (bad, bs, s1) => .next { s1 with reply := some ⟨p, false, bad, (bs.drop (da % 64)).take len⟩ }
    | none => .fault .notEnabled

/-- BAR2_WRITE: a posted write through the stripe's controller, discarded beyond local memory (03 R389). DESIGN CHOICE (log entry
93): a later BAR2 access of the port may overtake it. -/
def execBar2Write (p : Port) (off : Nat) (bytes : List Byte) (s : State) : Host.Outcome State Fault Refusal :=
  let da := s.links.bar2Base + off
  if !portServes s p || decide (bar2Bytes < off + bytes.length ∨ bytes.length < 1 ∨ 512 < bytes.length) then
    .fault .notEnabled
  else if localBytes < da + bytes.length then .next s
  else .next (newCmd s (.bar2 p) noCore .copy (.store da bytes) 0 id)

/-! ## Ports (01 R17 to R19, 03 R50) -/

/-- The number under which requests of a host port are known. -/
def portReqNo (p : Port) : Nat := 18 + portNo p

/-- The first posted write of each command that is complete. -/
def orphanWrites (s : State) (ws : List Posted) : List Posted :=
  (distinct (ws.filterMap (·.cmd))).filterMap fun id => if (getCmd s id).isSome then none else ws.find? fun w => w.cmd == some id

/-- A command that was complete for its gang fails with LINK_DOWN, as its write was not delivered: the next release or wait of
the gang finds a failed batch, which lies before every seal; of a panel whose gangs have exited, its launch has failed (03 R50,
06 R390; log entry 82). -/
def loseWrite (s : State) (w : Posted) : State :=
  match w.pid, w.gang, w.cmd with
  | some pid, some (gi, cls), some id =>
    match getPanel s pid with
    | some p =>
      if p.life == .retiring then failLaunch s p.launch p.idx (some 0x13)
      else addFailure s pid gi (failedBatch s cls (refused 0x13 (((w.data.head?).map (·.va)).getD 0) id) 0)
    | none => match w.pkt.bind fun k => s.launches.find? fun l => l.queue == k.1 && l.index == k.2 with
      | some l => settleLaunch (failLaunch s l.id 0 (some 0x13)) l.id
      | none => s
  | _, _, _ => s

/-- A host port's link is down: commands with reads outstanding on it or with writes not known to be delivered fail with
LINK_DOWN (03 R50, R63). DESIGN CHOICE (log entry 109): a record of the device itself that the port had not delivered is lost,
although the other port may be up. -/
def linkLost (s : State) (p : Port) : State :=
  let lostWrites := s.links.posted.filter fun w => w.port == p
  let s1 := { s with links := { s.links with
    hostUp := vset s.links.hostUp (portNo p) false
    posted := s.links.posted.filter fun w => w.port != p } }
  let s2 := (s1.links.reqs.filter fun r => r.port == portReqNo p).foldl (fun t r =>
    if (reqOf t r.id).isSome then failReq t r 0x13 else t) s1
  let s3 := (s2.cmds.filter fun c => lostWrites.any fun w => w.cmd == some c.id).foldl (fun t c =>
    failWith t c.id 0x13 (((lostWrites.find? fun w => w.cmd == some c.id).bind fun w => w.data.head?).map (·.va) |>.getD 0)) s2
  (orphanWrites s3 lostWrites).foldl loseWrite s3

/-- OWNER of a semaphore that a port holds (04 Table 4-2). -/
def ownerCode (p : Port) : BitVec 2 := if p = .a then 1 else 2

/-- Every semaphore that a port owns is free (01 R18, 04 R67). -/
def freeSems (s : State) (p : Port) : State :=
  { s with sems := s.sems.map fun o => if o = ownerCode p then 0 else o }

/-- A port enters its reset: its link is down and its semaphores are free; nothing else changes (01 R17, R18). -/
def resetPort (s : State) (p : Port) : State :=
  let s1 := freeSems (if portUp s p then linkLost s p else s) p
  { s1 with mgmt := { s1.mgmt with inReset := vset s1.mgmt.inReset (portNo p) true } }

/-- PORT_RESET: hot reset or PERST# on one port, or loss of its link (01 R17, R18). -/
def execPortReset (p : Port) (s : State) : Host.Outcome State Fault Refusal := .next (resetPort s p)

/-- HOST_LINK_DOWN: the link of a port that was up goes down (01 R17, 03 R50). -/
def execHostLinkDown (p : Port) (s : State) : Host.Outcome State Fault Refusal :=
  if portUp s p then .next (resetPort s p) else .fault .notEnabled

/-! ## Semaphores (04 R67) -/

/-- The owner of a semaphore. -/
def semOwner (s : State) (n : Nat) : BitVec 2 := vget s.sems n 0

/-- The bytes that a read of a register returns: all eight, or the half that it names (03 R49). -/
def readBytes (half : Option Bool) (v : Nat) : List Byte :=
  match half with
  | none => natBytes 8 v
  | some high => natBytes 4 (if high then v / 2 ^ 32 else v)

/-- SEM_ACQUIRE: a read of SEM_ACQn, whole or of a half, tests and sets (03 R49, 04 R67). While a device
reset is in progress it reads 0. -/
def execSemAcquire (p : Port) (r : SemRead) (s : State) : Host.Outcome State Fault Refusal :=
  if !portServes s p then .fault .notEnabled
  else
    let answer := fun (v : Nat) (t : State) => { t with reply := some ⟨p, false, false, readBytes r.half v⟩ }
    if !s.mgmt.resetDone then .next (answer 0 s)
    else if semOwner s r.n.toNat = 0 then
      .next (answer (4 + (ownerCode p).toNat) { s with sems := vset s.sems r.n.toNat (ownerCode p) })
    else .next (answer (semOwner s r.n.toNat).toNat s)

/-- SEM_RELEASE: a write to SEM_ACQn (04 R67). -/
def execSemRelease (p : Port) (n : BitVec 5) (v : DWord) (s : State) : Host.Outcome State Fault Refusal :=
  regWrite s p fun s =>
    if v.getLsbD 0 && semOwner s n.toNat == ownerCode p then { s with sems := vset s.sems n.toNat 0 } else s

/-! ## The XL block (03 R52, R56) -/

/-- XL_CFG after a write (03 R52): DEVID and DOMAIN do not change while ENABLE is 1, and ENABLE is not set with a DEVID
above 431. -/
def writeXlCfg (l : Links) (v : DWord) : Links :=
  let l1 := if l.enable then l else
    { l with domain := BitVec.ofNat 8 (fieldOf v 31 24), devid := BitVec.ofNat 9 (fieldOf v 16 8) }
  { l1 with enable := v.getLsbD 0 && decide (l1.devid.toNat ≤ 431) }

/-- XL_CFG_WRITE (03 R52). -/
def execXlCfgWrite (p : Port) (v : DWord) (s : State) : Host.Outcome State Fault Refusal :=
  regWrite s p fun s => { s with links := writeXlCfg s.links v }

/-- XL_TIMEOUT after a write: 0 stores 1 (03 Table 3-4). -/
def writeXlTimeout (l : Links) (v : DWord) : Links := { l with timeout := max 1 (fieldOf v 15 0) }

/-- XL_TIMEOUT_WRITE (03 R56). -/
def execXlTimeoutWrite (p : Port) (v : DWord) (s : State) : Host.Outcome State Fault Refusal :=
  regWrite s p fun s => { s with links := writeXlTimeout s.links v }

/-- An XL counter cleared. -/
def clearXl (l : Links) : XlCounter → Links
  | .bypass => { l with cntBypass := 0 }
  | .retry => { l with cntRetry := 0 }
  | .dup => { l with cntDup := 0 }
  | .late => { l with cntLate := 0 }

/-- XL_COUNTER_CLEAR (03 R56). -/
def execXlCounterClear (c : XlCounter) (s : State) : Host.Outcome State Fault Refusal :=
  anyWrite s fun s => { s with links := clearXl s.links c }

end Sys2Proof.Machine
end

