-- ==== Sys2Proof/Machine/Queues.lean ====
section
/-! DEFINITION. Hardware queues: their registers and states, the doorbell, fetching packets, and the registers of
translation faults and invalidation (04 R68 to R73, R83 to R85). -/

namespace Sys2Proof.Machine

open Sys2Proof

/-! ## Queue states (04 Table 4-6) -/

/-- An IDLE queue with packets to fetch becomes RUNNING. -/
def startQueue (s : State) (q : Nat) : State :=
  let x := queueAt s q
  if x.state == .idle && x.head != x.tail then updQueue s q fun y => { y with state := .running } else s

/-- The fetch in progress of a queue ends; its packet was not read. -/
def dropFetch (s : State) (q : Nat) : State := cancelWhere s fun c => c.owner == .ring q

/-- Every fetched packet of a queue completes FLUSHED (04 R71, R76). -/
def flushFetched (s : State) (q : Nat) : State := (queueAt s q).pkts.foldl (flushPkt q 0x02) s

/-- STOP of a queue that is IDLE or RUNNING: ERROR with CODE FLUSHED, and INDEX as Table 4-5 gives (04 R70, R71). -/
def stopQueue (s : State) (q : Nat) : State :=
  if (queueAt s q).alive then
    flushFetched (updQueue (dropFetch s q) q fun y =>
      { y with state := .error, stIndex := oldestIndex y, stCode := 0x02 }) q
  else s

/-- Complete `n` packets that were never fetched, from HQ_HEAD on: FLUSHED, TYPE 0xFF, no interrupt (04 R71). -/
def flushUnread (q : Nat) : Nat → State → State
  | 0, s => s
  | n + 1, s =>
    let i := (queueAt s q).head
    flushUnread q n (updQueue (writeCompletion s q false i.toNat 0x02 0xFF) q fun y => { y with head := i + 1 })

/-- Every packet up to HQ_TAIL − 1 that is not complete completes FLUSHED, and HQ_HEAD ← HQ_TAIL (04 Table 4-6). -/
def flushAll (s : State) (q : Nat) : State :=
  let s1 := flushFetched (dropFetch s q) q
  let x := queueAt s1 q
  flushUnread q (x.tail - x.head).toNat s1

/-- RECOVER: a queue in ERROR becomes IDLE; HQ_STATUS keeps INDEX and CODE (04 Table 4-6). -/
def recoverQueue (s : State) (q : Nat) : State :=
  if (queueAt s q).state == .error then updQueue (flushAll s q) q fun y => { y with state := .idle } else s

/-- ENABLE ← 0 (04 Table 4-6). -/
def disableQueue (s : State) (q : Nat) : State :=
  updQueue (flushAll (stopQueue s q) q) q fun y => { y with state := .disabled, enable := false }

/-! ## HQ_CTL (04 R69) -/

/-- Fields of a written HQ_CTL. -/
def ctlStop (v : DWord) : Bool := v.getLsbD 30
def ctlRecover (v : DWord) : Bool := v.getLsbD 31
def ctlEnable (v : DWord) : Bool := v.getLsbD 24

/-- The fields that a write stores: all of them while ENABLE is 0, else PRIO alone. -/
def storeCtl (v : DWord) (x : Queue) : Queue :=
  let y := { x with prio := fieldOf v 20 15 }
  if x.enable then y
  else { y with
    size := min 12 (max 4 (fieldOf v 29 26))
    port := if v.getLsbD 25 then .b else .a
    part := fieldOf v 23 21
    asid := fieldOf v 9 0 }

/-- A write of HQ_CTL: its effects in the order of R69. No queue is enabled while no firmware runs (05 R97). -/
def writeCtl (s : State) (q : Nat) (v : DWord) : State :=
  let was := (queueAt s q).enable
  let s1 := updQueue s q (storeCtl v)
  let s2 := if ctlEnable v && !was && s.mgmt.fwSlot.isSome then
      updQueue s1 q fun y => { y with enable := true, state := .idle } else s1
  let s3 := if ctlStop v then stopQueue s2 q else s2
  let s4 := if ctlRecover v then recoverQueue s3 q else s3
  let s5 := if was && !ctlEnable v then disableQueue s4 q else s4
  startQueue s5 q

/-- HQ_ENABLE: a write of HQ_CTL with ENABLE = 1 to a disabled queue. -/
def execHqEnable (q : BitVec 8) (v : DWord) (s : State) : Host.Outcome State Fault Refusal :=
  if ctlEnable v && !(queueAt s q.toNat).enable then anyWrite s fun s => writeCtl s q.toNat v else .fault .notEnabled

/-- HQ_DISABLE: a write of HQ_CTL with ENABLE = 0 to an enabled queue. -/
def execHqDisable (q : BitVec 8) (v : DWord) (s : State) : Host.Outcome State Fault Refusal :=
  if !ctlEnable v && (queueAt s q.toNat).enable then anyWrite s fun s => writeCtl s q.toNat v else .fault .notEnabled

/-- HQ_STOP: a write of HQ_CTL with STOP = 1. -/
def execHqStop (q : BitVec 8) (v : DWord) (s : State) : Host.Outcome State Fault Refusal :=
  if ctlStop v then anyWrite s fun s => writeCtl s q.toNat v else .fault .notEnabled

/-- HQ_RECOVER: a write of HQ_CTL with RECOVER = 1. -/
def execHqRecover (q : BitVec 8) (v : DWord) (s : State) : Host.Outcome State Fault Refusal :=
  if ctlRecover v then anyWrite s fun s => writeCtl s q.toNat v else .fault .notEnabled

/-! ## The doorbell (04 R72) -/

/-- A write of HQ_TAIL: too far ahead or backwards, it is ignored. -/
def writeTail (s : State) (q : Nat) (v : DWord) : State :=
  let x := queueAt s q
  let d := v.setWidth 32 - x.head
  if 2 ^ x.size < d.toNat ∨ d.toNat < (x.tail - x.head).toNat then s
  else startQueue (updQueue s q fun y => { y with tail := v.setWidth 32 }) q

/-- HQ_TAIL_WRITE (04 R72). -/
def execHqTailWrite (q : BitVec 8) (v : DWord) (s : State) : Host.Outcome State Fault Refusal :=
  anyWrite s fun s => writeTail s q.toNat v

/-! ## Fetching (04 R72, R77) -/

/-- A field of a packet's bytes. -/
def pktNat (bs : List Byte) (at_ n : Nat) : Nat := bytesNat ((bs.drop at_).take n)

/-- Bytes from `a` up to `b` of a packet are zero. -/
def zeroBytes (bs : List Byte) (a b : Nat) : Bool := ((bs.take b).drop a).all (· == 0)

/-- A LAUNCH packet's fields lie in their ranges (04 Table 4-9). -/
def launchFields (bs : List Byte) : Bool :=
  let arg := pktNat bs 2 1
  (decide (arg < 64) || arg == 0xFF) && pktNat bs 8 8 % 256 == 0
    && [16, 18, 20].all (fun i => pktNat bs i 2 != 0) && zeroBytes bs 22 24 && decide (pktNat bs 32 4 ≤ 4096)
    && pktNat bs 36 4 != 0 && pktNat bs 40 8 % 16 == 0 && zeroBytes bs 48 64

/-- A packet is well formed: its TYPE, its reserved bytes and its fields (04 R77, R78). -/
def pktGood (bs : List Byte) : Bool :=
  let arg := pktNat bs 2 1
  zeroBytes bs 3 8 && decide (pktNat bs 1 1 < 4) && match pktNat bs 0 1 with
    | 0 => arg == 0 && zeroBytes bs 8 64
    | 1 => launchFields bs
    | 2 => arg == 0 && decide (1 ≤ pktNat bs 24 8 ∧ pktNat bs 24 8 ≤ 2 ^ 40) && decide (pktNat bs 32 1 < 8)
        && zeroBytes bs 33 64
    | 3 => arg == 0 && pktNat bs 8 8 % 8 == 0 && zeroBytes bs 24 64
    | 4 => decide (arg < 2) && pktNat bs 8 8 % 8 == 0 && zeroBytes bs 24 64
    | 5 => arg == 0 && zeroBytes bs 8 64
    | 6 => decide (arg < 64) && zeroBytes bs 8 64
    | 7 => arg == 0 && pktNat bs 8 8 % 65536 == 0 && decide (1 ≤ pktNat bs 16 4 ∧ pktNat bs 16 4 ≤ 4096)
        && zeroBytes bs 20 24 && zeroBytes bs 32 64
    | _ => false

/-- The address of the next packet's slot. -/
def slotOf (x : Queue) : Nat := baseAddr x.base + 64 * (x.head.toNat % 2 ^ x.size)

/-- The queue takes a packet that has been read, or whose read failed, and HQ_HEAD moves on. -/
def takePacket (s : State) (q : Nat) (bytes : Option (List Byte)) (code : Nat) : State :=
  let x := queueAt s q
  let p : Pkt := ⟨x.head.toNat, bytes, .fetched, 0, false⟩
  let s1 := updQueue s q fun y => { y with head := y.head + 1, pkts := y.pkts ++ [p] }
  match bytes with
  | none => endPkt s1 q p code
  | some bs => if pktGood bs then s1 else endPkt s1 q p 0x03

/-- The fetch of a queue in progress. -/
def fetchOf (s : State) (q : Nat) : Option Cmd := s.cmds.find? fun c => c.owner == .ring q

/-- PACKET_FETCH: the first time the read of a packet's slot begins; when it has returned, the queue takes the packet. One
that is not well formed completes BAD_PACKET, and one whose read failed with the read's status (04 R72, R77). -/
def execPacketFetch (q : BitVec 8) (s : State) : Host.Outcome State Fault Refusal :=
  let x := queueAt s q.toNat
  match fetchOf s q.toNat with
  | some c =>
    if x.state != .running then .next (forgetCmd s c.id)
    else match c.fail with
    | some f => .next (takePacket (forgetCmd s c.id) q.toNat none f.status)
    | none =>
      match c.data 0 with
      | some bs => .next (takePacket (forgetCmd s c.id) q.toNat (some bs) 0)
      | none => .fault .notEnabled
  | none =>
    if x.state == .running && x.head != x.tail then
      .next (newCmd s (.ring q.toNat) noCore .copy (.fetch [(slotOf x, 64)]) x.asid id)
    else .fault .notEnabled

/-! ## Translation faults and invalidation (04 R83 to R85) -/

/-- The host's answer to a fault: its commands walk again, or fail with XLATE_ABORT (04 R85). -/
def answerFault (s : State) (v : DWord) : State :=
  match s.xfaults.find? fun x => x.tag == some (fieldOf v 15 0) with
  | none => s
  | some x =>
    let s1 := { s with
      xfaults := s.xfaults.erase x
      cmds := s.cmds.map fun c => if x.cmds.contains c.id then { c with fault := none } else c }
    if v.getLsbD 16 then x.cmds.foldl (fun t id => failWith t id 0x10 x.va) s1
    else tlbDrop s1 fun t => t.asid == x.asid && t.page == x.page * 2 ^ 16 / 2 ^ pageBits t.level

/-- HQ_FQ_RESP_WRITE (04 R85). -/
def execHqFqRespWrite (p : Port) (v : DWord) (s : State) : Host.Outcome State Fault Refusal :=
  regWrite s p fun s => answerFault s v

/-- An invalidation covers a cached entry (04 R83). -/
def invalCovers (v : DWord) (t : TlbEntry) : Bool :=
  match fieldOf v 11 10 with
  | 0 => t.asid == fieldOf v 9 0 && t.page == fieldOf v 56 16 * 2 ^ 16 / 2 ^ pageBits t.level
  | 1 => t.asid == fieldOf v 9 0
  | _ => true

/-- An invalidation in progress completes. -/
def endInval (s : State) : State :=
  match s.inval with
  | some v => { tlbDrop s (invalCovers v) with inval := none }
  | none => s

/-- HQ_INVAL_WRITE: an invalidation begins; one in progress is completed first. -/
def execHqInvalWrite (p : Port) (v : DWord) (s : State) : Host.Outcome State Fault Refusal :=
  regWrite s p fun s => { endInval s with inval := some v }

/-- INVALIDATE_DONE (04 R83). -/
def execInvalidateDone (s : State) : Host.Outcome State Fault Refusal :=
  if s.inval.isSome then .next (endInval s) else .fault .notEnabled

end Sys2Proof.Machine
end

