-- ==== Sys2Proof/Machine/Packets.lean ====
section
/-! DEFINITION. Packets: their starts, and what each type does but LAUNCH (02 R45, 04 R73 to R80). -/

namespace Sys2Proof.Machine

open Sys2Proof

/-! ## Starting (04 R73) -/

/-- A packet waits for every earlier one: BARRIER, WAIT, SIGNAL and FENCE. -/
def waitsForEarlier (p : Pkt) : Bool := (pktFlags p).getLsbD 0 || pktType p == 3 || pktType p == 4 || pktType p == 5

/-- Earlier packets of a queue. -/
def earlierPkts (x : Queue) (p : Pkt) : List Pkt := x.pkts.filter fun y => later y.index p.index

/-- A fetched packet may start: earlier ones have started and none is an unsatisfied WAIT; one that waits finds none
before it, and every completion record written. -/
def mayStart (s : State) (q : Nat) (p : Pkt) : Bool :=
  let ps := earlierPkts (queueAt s q) p
  p.stage == .fetched && ps.all (fun y => y.stage != .fetched && pktType y != 3)
    && (!waitsForEarlier p || (ps.isEmpty && !recordWaits s q))

/-- The packet has started. -/
def markStarted (s : State) (q i : Nat) : State :=
  updQueue s q fun x => { x with pkts := x.pkts.map fun p => if p.index = i then { p with stage := .started } else p }

/-- A WAIT begins to read its counter. -/
def markPolled (s : State) (q i : Nat) : State :=
  updQueue s q fun x => { x with pkts := x.pkts.map fun p => if p.index = i then { p with polled := s.fs, reread := false } else p }

/-- Packet `i` of a queue with its bytes, when it has type `t`. -/
def pktOf (s : State) (q i t : Nat) : Option (Pkt × List Byte) :=
  (getPkt s q i).bind fun p => p.bytes.bind fun bs => if pktType p = t then some (p, bs) else none

/-- Start packet `i` of type `t`, when it may start. -/
def startPkt (s : State) (q : BitVec 8) (i : Word) (t : Nat) (f : List Byte → State → State) :
    Host.Outcome State Fault Refusal :=
  match pktOf s q.toNat i.toNat t with
  | some (p, bs) =>
    if mayStart s q.toNat p then .next (f bs (markStarted s q.toNat i.toNat)) else .fault .notEnabled
  | none => .fault .notEnabled

/-- A command of a packet, in the ASID of its queue. -/
def pktCmd (s : State) (q : BitVec 8) (i : Word) (c : Cls) (k : CmdKind) : State :=
  newCmd s (.packet q.toNat i.toNat) noCore c k (queueAt s q.toNat).asid id

/-- The commands of a packet. -/
def cmdOfPkt (s : State) (q : BitVec 8) (i : Word) : Option Cmd := s.cmds.find? fun c => c.ofPacket q.toNat i.toNat

/-! ## Packets that complete at once (04 R78) -/

/-- NOP_PACKET. -/
def execNopPacket (q : BitVec 8) (i : Word) (s : State) : Host.Outcome State Fault Refusal :=
  startPkt s q i 0 fun _ t => endPacket t q.toNat i.toNat 0

/-- FENCE_PACKET: every earlier packet has completed when it starts. -/
def execFencePacket (q : BitVec 8) (i : Word) (s : State) : Host.Outcome State Fault Refusal :=
  startPkt s q i 5 fun _ t => endPacket t q.toNat i.toNat 0

/-- SETPRIO_PACKET. -/
def execSetprioPacket (q : BitVec 8) (i : Word) (s : State) : Host.Outcome State Fault Refusal :=
  startPkt s q i 6 fun bs t =>
    endPacket (updQueue t q.toNat fun x => { x with prio := pktNat bs 2 1 }) q.toNat i.toNat 0

/-! ## COPY and SIGNAL (04 R78, R79) -/

/-- COPY_PACKET: its command copies; COMMAND_COMPLETE completes the packet. -/
def execCopyPacket (q : BitVec 8) (i : Word) (s : State) : Host.Outcome State Fault Refusal :=
  startPkt s q i 2 fun bs t =>
    pktCmd t q i .copy (.copy (.glob (pktNat bs 8 8)) (.glob (pktNat bs 16 8)) (pktNat bs 24 8) (pktNat bs 32 1))

/-- SIGNAL_PACKET: its atomic is sent once every earlier packet has completed. -/
def execSignalPacket (q : BitVec 8) (i : Word) (s : State) : Host.Outcome State Fault Refusal :=
  startPkt s q i 4 fun bs t =>
    pktCmd t q i .atomic (.signal (pktNat bs 8 8) (pktNat bs 2 1 == 1) (BitVec.ofNat 64 (pktNat bs 16 8)))

/-! ## WAIT (04 R79) -/

/-- WAIT_PACKET: it holds its queue until a poll satisfies it. -/
def execWaitPacket (q : BitVec 8) (i : Word) (s : State) : Host.Outcome State Fault Refusal :=
  startPkt s q i 3 fun _ t => t

/-- WAIT_POLL: a started WAIT reads its counter; when the read has returned, the WAIT is satisfied or reads again. -/
def execWaitPoll (q : BitVec 8) (i : Word) (s : State) : Host.Outcome State Fault Refusal :=
  match pktOf s q.toNat i.toNat 3 with
  | some (p, bs) =>
    if p.stage != .started then .fault .notEnabled
    else match cmdOfPkt s q i with
      | none => .next (pktCmd (markPolled s q.toNat i.toNat) q i .copy (.fetch [(pktNat bs 8 8, 8)]))
      | some c =>
        match c.fail, c.data 0 with
        | some f, _ => .next (endPacket (forgetCmd s c.id) q.toNat i.toNat f.status)
        | none, some v =>
          if pktNat bs 16 8 ≤ bytesNat v then .next (endPacket (forgetCmd s c.id) q.toNat i.toNat 0)
          else .next (forgetCmd s c.id)
        | none, none => .fault .notEnabled
  | none => .fault .notEnabled

/-! ## COMPRESS (02 R45) -/

/-- The result of one page: the byte reported. -/
def putCode (s : State) (id : Nat) (b : Byte) : State :=
  updCmd s id fun c => { c with kind := match c.kind with
    | .compress va n r codes => .compress va n r (codes ++ [some b])
    | k => k }

/-- A page is left uncompressed. -/
def leavePage (s : State) (id : Nat) : State :=
  putCode { s with gus := { s.gus with cntNocmp := bump s.gus.cntNocmp } } id 0

/-- A write of a granule of a range is open in the log: it reaches its stripes while the page is being compressed. -/
def rangeOpen (s : State) (da len : Nat) : Bool :=
  s.gus.log.any fun e => e.parts.any fun p =>
    let a := dataAddr e.stripe p.unit p.gran
    decide (da < a + 64 ∧ a < da + len)

/-- The page's entry with CMP set. -/
def withCmp (e : DWord) : DWord := e ||| 0x80

/-- Write an image through its page's leaf over the start of the page's frame and set CMP (02 R30, R45); a write that fails fails
the packet, and CMP stays clear (02 R39). DESIGN CHOICE (log entry 110): setting CMP drops the cached translations of the page. -/
def putImage (s : State) (c : Cmd) (va ptr : Nat) (e : DWord) (page image : List Byte) : State :=
  match writeThrough s .other (pteTol e) (pteAddr e) image with
  | (some code, s1) => failWith s1 c.id code va
  | (none, s1) =>
    let s2 := tlbDropVa (writeLocal s1 ptr (natBytes 8 (withCmp e).toNat)).2 c.asid va
    let rest := s2.gus.images.filter fun x => x.1 != pteAddr e
    putCode { s2 with gus := { s2.gus with images := (pteAddr e, page) :: rest } } c.id
      (BitVec.ofNat 8 (max 1 ((image.length + 4095) / 4096)))

/-- Compress one page whose entry has been found, or leave it; its granules are read through the leaf (02 R25, R31). None
while a read has to wait, or a write waits at a stripe of the page. DESIGN CHOICE (log entry 110): the record of a COMPRESS that finds
no frame for a compressed page names a write. -/
def compressPage (s : State) (c : Cmd) (va level ptr : Nat) (e : DWord) : Option State :=
  if level ≠ 3 ∨ pteTarget e ≠ 0 then some (leavePage s c.id)
  else if pteCmp e then expandFor s c va ptr e 1
  else if localBytes < 65536 + pteAddr e then some (failWith s c.id 0x15 va)
  else if rangeWaits s (pteAddr e) 65536 || rangeWaits s ptr 8 then none
  else if rangeOpen s (pteAddr e) 65536 then some (leavePage s c.id)
  else match readThrough s (pteTol e) (pteAddr e) 65536 with
    | (.error 0, _) => none
    | (.error code, s1) => some (failWith s1 c.id code va)
    | (.ok page, s1) =>
      let image := Config.compress page
      if image.length ≤ 49152 then some (putImage s1 c va ptr e page image) else some (leavePage s1 c.id)

/-- The next page of a COMPRESS. DESIGN CHOICE (log entry 110): the record of a fault of its walk names a read. -/
def compressNext (s : State) (c : Cmd) : Option State :=
  match c.kind with
  | .compress va0 n _ codes =>
    let va := va0 + 65536 * codes.length
    if n ≤ codes.length ∨ c.fail.isSome ∨ c.fault.isSome then none
    else match walkVa s c.asid va with
      | (.wait, _) => none
      | (.fail code, s1) => some (failWith s1 c.id code va)
      | (.fault kind, s1) => some (raiseFault s1 c kind va 0)
      | (.leaf level ptr e, s1) => compressPage s1 c va level ptr e
  | _ => none

/-- COMPRESS_PACKET: it starts, and then each further time it compresses one page. When the last page is done its results
are written, and COMMAND_COMPLETE completes the packet (02 R45, 04 R78). -/
def execCompressPacket (q : BitVec 8) (i : Word) (s : State) : Host.Outcome State Fault Refusal :=
  match (pktOf s q.toNat i.toNat 7).bind fun p => if p.1.stage = .fetched then none else cmdOfPkt s q i with
  | some c =>
    match compressNext s c with
    | some t => .next t
    | none => .fault .notEnabled
  | none =>
    startPkt s q i 7 fun bs t => pktCmd t q i .copy (.compress (pktNat bs 8 8) (pktNat bs 16 4) (pktNat bs 24 8) [])

end Sys2Proof.Machine
end

