-- ==== Sys2Proof/Machine/Accept.lean ====
section
/-! DEFINITION. LAUNCH packets: acceptance, the reading of the kernel object, the checks that refuse a launch, and what
its panels take from it (04 R80, R86 to R88, 05 R92, 06 R101 to R106, 08 R141, 23 R365). -/

namespace Sys2Proof.Machine

open Sys2Proof

/-! ## Acceptance -/

/-- What a launch takes from its packet and its queue at acceptance (04 R78, 06 R105). -/
def packetHdr (q : Nat) (i : Nat) (x : Queue) (bs : List Byte) : Hdr where
  queue := q
  index := i
  asid := x.asid
  part := x.part
  prio := if pktNat bs 2 1 = 0xFF then x.prio else pktNat bs 2 1
  kaddr := pktNat bs 8 8
  codeOff := 0
  handler := 0
  nGangs := 0
  vregs := 0
  regb := 0
  accb := 0
  banks := 0
  nSleeves := 0
  pm := false
  nw := false
  il := false
  erratum7 := false
  restartable := false
  redundant := false
  spillBytes := 0
  holdKib := 0
  spillbase := 0
  holdbase := 0
  argbase := 0
  argAddr := pktNat bs 24 8
  argLen := pktNat bs 32 4
  maxtime := pktNat bs 36 4
  counterArea := pktNat bs 40 8
  regions := []
  roles := []

/-- A launch that has been accepted; its kernel object has not been read. -/
def newLaunch (s : State) (q i : Nat) (bs : List Byte) : Launch where
  id := s.nextId
  queue := q
  index := i
  hdr := packetHdr q i (queueAt s q) bs
  gx := pktNat bs 16 2
  gy := pktNat bs 18 2
  gz := pktNat bs 20 2
  kh := Vector.replicate 4 0
  ready := false
  nextPanel := 0
  requeued := []
  failed := false
  code := none

/-- Accept a LAUNCH: it counts in LIVE and the read of its kernel header begins. On a partition that is not ACTIVE it
completes DRAINING without starting (04 R80, R88, 05 R92). -/
def accept (q : BitVec 8) (i : Word) (bs : List Byte) (s : State) : State :=
  let l := newLaunch s q.toNat i.toNat bs
  if partState s l.hdr.part ≠ 0 then endPacket s q.toNat i.toNat 1
  else pktCmd { s with launches := s.launches ++ [l], nextId := s.nextId + 1 } q i .copy (.fetch [(l.hdr.kaddr, 64)])

/-! ## The kernel header (04 R86, R88) -/

/-- A word of the header. -/
def khWord (bs : List Byte) (k : Nat) : DWord := BitVec.ofNat 64 (pktNat bs (8 * k) 8)

/-- REGIONS of KH0. -/
def khRegions (bs : List Byte) : Nat := fieldOf (khWord bs 0) 47 42

/-- Bytes of the header with its region table and its role table (06 R101). -/
def objectBytes (bs : List Byte) : Nat := 64 + 32 * khRegions bs

/-- The decisions 1 to 4 of Table 4-13: the status with which a header is refused. -/
def headerRefusal (bs : List Byte) : Option Nat :=
  let k := khWord bs 0
  let gangs := fieldOf k 39 32
  if fieldOf k 7 0 ≠ 0x5A then some 0x05
  else if Config.version < fieldOf k 15 8 then some 0x06
  else if fieldOf k 63 56 ≠ 0 ∨ fieldOf k 31 29 ≠ 0 ∨ gangs < 1 ∨ 32 < gangs ∨ 16 < khRegions bs ∨ 16 < fieldOf k 55 48
      ∨ fieldOf (khWord bs 3) 31 18 ≠ 0 then some 0x05
  else if khWord bs 2 &&& ~~~(BitVec.ofNat 64 Config.errata) ≠ 0 then some 0x07
  else none

/-! ## The region and role tables (06 R101) -/

/-- A signed 32-bit field of the tables. -/
def tableInt (e : List Byte) (at_ : Nat) : Int := (BitVec.ofNat 32 (pktNat e at_ 4)).toInt

/-- Entry `k` of the region table. -/
def regionAt (bs : List Byte) (k : Nat) : List Byte := (bs.drop (32 + 32 * k)).take 32

/-- A region table entry as its fields. -/
def parseRegion (e : List Byte) : RegionEnt where
  addr := pktNat e 0 8
  place := pktNat e 8 4 % 2 ^ 20
  dir := pktNat e 8 4 / 2 ^ 24 % 4
  desc := pktNat e 8 4 / 2 ^ 26 % 2 == 1
  len := pktNat e 12 4
  sx := tableInt e 16
  sy := tableInt e 20
  sz := tableInt e 24

/-- A region table entry keeps the rules of Table 6-2. -/
def regionGood (e : List Byte) : Bool :=
  let r := parseRegion e
  let word := pktNat e 8 4
  r.place % 64 == 0 && word / 2 ^ 20 % 16 == 0 && r.dir != 0 && word / 2 ^ 27 == 0
    && (r.desc || (r.len % 64 == 0 && decide (64 ≤ r.len ∧ r.len ≤ 1048576))) && zeroBytes e 28 32

/-- The regions of an object. -/
def objectRegions (bs : List Byte) : List RegionEnt :=
  (List.range (khRegions bs)).map fun k => parseRegion (regionAt bs k)

/-- The bytes of the role table. -/
def roleBytes (bs : List Byte) : List Byte := (bs.drop (32 + 32 * khRegions bs)).take 32

/-- A role by its code. -/
def roleOf (n : Nat) : Role := if n = 1 then .vec else if n = 2 then .mat else if n = 3 then .cpy else .any

/-- The role table keeps its rules for a number of gangs. -/
def rolesGood (rs : List Byte) (gangs : Nat) : Bool :=
  (rs.take gangs).all (fun b => decide (b.toNat < 4)) && (rs.drop gangs).all (· == 0)

/-! ## The partition word and the arrangement (06 R103, 08 R141) -/

/-- What a header says of a launch's panels, beside its regions. -/
def headerHdr (h : Hdr) (bs : List Byte) : Hdr :=
  let k0 := khWord bs 0
  let k3 := khWord bs 3
  let banks := if fieldOf k3 17 12 = 0 then 64 else fieldOf k3 17 12
  let room := (banks - fieldOf k3 5 0 - fieldOf k3 11 6) * 16384
  let spill := room - round64 (fieldOf k3 47 32)
  let hold := spill - 1024 * fieldOf k3 63 48
  let regions := objectRegions bs
  { h with
    codeOff := BitVec.ofNat 32 (fieldOf (khWord bs 1) 31 0)
    handler := BitVec.ofNat 32 (fieldOf (khWord bs 1) 63 32)
    nGangs := fieldOf k0 39 32
    vregs := 32 * (fieldOf k0 41 40 + 1)
    regb := fieldOf k3 5 0
    accb := fieldOf k3 11 6
    banks := banks
    nSleeves := fieldOf k0 55 48
    pm := k0.getLsbD 25
    nw := k0.getLsbD 24
    il := fieldOf k0 23 16 != Config.stepping || k0.getLsbD 26
    erratum7 := (khWord bs 2).getLsbD 7
    restartable := k0.getLsbD 27
    redundant := k0.getLsbD 28
    spillBytes := fieldOf k3 47 32
    holdKib := fieldOf k3 63 48
    spillbase := spill
    holdbase := hold
    argbase := hold - round64 h.argLen
    regions := regions
    roles := ((roleBytes bs).take (fieldOf k0 39 32)).map fun b => roleOf b.toNat }

/-- The partition word keeps the rules of R103, and the areas above the regions fit. -/
def footprintGood (h : Hdr) (bs : List Byte) : Bool :=
  h.accb % 4 == 0 && decide (h.regb + h.accb ≤ h.banks)
    && decide (h.nGangs * h.vregs * 128 ≤ h.regb * 16384)
    && decide (round64 h.spillBytes + 1024 * h.holdKib + round64 h.argLen ≤ h.size)

/-- The bytes of a region in scratchpad; those of a descriptor region come from its descriptor, none when it is not
valid. -/
def regionLen (r : RegionEnt) (desc : Option (List Byte)) : Nat :=
  if r.desc then
    match desc.bind parseDesc with
    | some t => if (alphaIdx t.etype).isSome then 0 else t.blockBytes (Vector.replicate 16 0)
    | none => 0
  else r.len

/-- The regions lie below argbase and are pairwise disjoint (08 R141). -/
def regionsFit (argbase : Nat) : List (Nat × Nat) → Bool
  | [] => true
  | (a, n) :: rs =>
    decide (a + n ≤ argbase) && rs.all (fun r => decide (a + n ≤ r.1 ∨ r.1 + r.2 ≤ a)) && regionsFit argbase rs

/-- The clusters of a partition (06 R99). -/
def clustersOf (s : State) (part : Nat) : List Nat :=
  (List.range 32).filter fun c => (partAt s part).clus.getLsbD c

/-- The checks after those of Table 4-13, but for the regions' places: each refuses with BAD_HEADER (06 R101, R103,
R106). -/
def tablesGood (s : State) (h : Hdr) (bs : List Byte) : Bool :=
  (List.range (khRegions bs)).all (fun k => regionGood (regionAt bs k)) && rolesGood (roleBytes bs) h.nGangs
    && footprintGood h bs && !(h.redundant && (clustersOf s h.part).length == 1)

/-! ## Reading the object -/

/-- A launch by its packet. -/
def launchOf (s : State) (q i : Nat) : Option Launch := s.launches.find? fun l => l.queue == q && l.index == i

/-- Change a launch. -/
def updLaunch (s : State) (lid : Nat) (f : Launch → Launch) : State :=
  { s with launches := s.launches.map fun l => if l.id == lid then f l else l }

/-- A launch is refused, or the read of its object has failed: it completes with the status. -/
def refuseLaunch (s : State) (c : Cmd) (l : Launch) (code : Nat) : State :=
  settleLaunch (failLaunch (forgetCmd s c.id) l.id 0 (some code)) l.id

/-- The read goes on with further ranges. -/
def readMore (s : State) (c : Cmd) (ranges : List (Nat × Nat)) : State :=
  updCmd s c.id fun d => { d with kind := .fetch ranges }

/-- Descriptors that have to be read for the arrangement: one each, on a multiple of 64. -/
def descRanges (rs : List RegionEnt) : List (Nat × Nat) :=
  (rs.filter fun r => r.desc && r.addr % 64 == 0).map fun r => (r.addr, 64)

/-- The regions' places and lengths; `n` is the number of the first piece that read a descriptor. -/
def regionSpans (c : Cmd) : Nat → List RegionEnt → List (Nat × Nat)
  | _, [] => []
  | n, r :: rs =>
    if r.desc && r.addr % 64 == 0 then (r.place, regionLen r (c.data n)) :: regionSpans c (n + 1) rs
    else (r.place, regionLen r none) :: regionSpans c n rs

/-- The launch may be dispatched: its panels take what its header gives (06 R105). -/
def makeReady (s : State) (c : Cmd) (l : Launch) (h : Hdr) (bs : List Byte) : State :=
  updLaunch (forgetCmd s c.id) l.id fun l => { l with
    hdr := h, kh := Vector.ofFn fun k => khWord bs k.val, ready := true }

/-- The next step of a launch whose ranges have been read: more of the object, a refusal, or readiness. -/
def launchNext (s : State) (c : Cmd) (l : Launch) (ranges : List (Nat × Nat)) (bs : List Byte) : State :=
  let size := (ranges.head?.map (·.2)).getD 0
  match headerRefusal bs with
  | some code => if 0 < khRegions bs ∧ khRegions bs ≤ 16 ∧ size < objectBytes bs then
      readMore s c [(l.hdr.kaddr, objectBytes bs)] else refuseLaunch s c l code
  | none =>
    if size < objectBytes bs then readMore s c [(l.hdr.kaddr, objectBytes bs)]
    else
      let h := headerHdr l.hdr bs
      if !tablesGood s h bs then refuseLaunch s c l 0x05
      else if ranges.length = 1 ∧ !(descRanges h.regions).isEmpty then readMore s c (ranges ++ descRanges h.regions)
      else if regionsFit h.argbase (regionSpans c (partsOf l.hdr.kaddr size).length h.regions) then
        makeReady s c l h bs
      else refuseLaunch s c l 0x05

/-- A launch whose object is being read goes on, once what it asked for has returned. -/
def acceptNext (s : State) (c : Cmd) (l : Launch) : Option State :=
  match c.fail, c.kind with
  | some f, _ => some (refuseLaunch s c l f.status)
  | none, .fetch ranges =>
    let n := (partsOf l.hdr.kaddr ((ranges.head?.map (·.2)).getD 0)).length
    if allDone s c then (joined ((List.range n).map c.data)).map fun bs => launchNext s c l ranges bs else none
  | none, _ => none

/-- LAUNCH_PACKET: the scheduler accepts the launch; each further time, the reading of its kernel object goes on, until
it is refused or its panels may be dispatched. -/
def execLaunchPacket (q : BitVec 8) (i : Word) (s : State) : Host.Outcome State Fault Refusal :=
  match launchOf s q.toNat i.toNat, cmdOfPkt s q i with
  | some l, some c =>
    match acceptNext s c l with
    | some t => .next t
    | none => .fault .notEnabled
  | some _, none => .fault .notEnabled
  | none, _ => startPkt s q i 1 (accept q i)

end Sys2Proof.Machine
end

