-- ==== Sys2Proof/Machine/Digest.lean ====
section
/-! DEFINITION. SHA3-256, which the boot ROM and the attestation report use (05 R97, R98). PRESUMED: the specification names
the function and FIPS 202 defines it (log entry 8). -/

namespace Sys2Proof.Machine

open Sys2Proof

/-- The lane in column `x` and row `y` of a state of 25 words; both wrap at 5. -/
def laneAt (a : List DWord) (x y : Nat) : DWord := a.getD (x % 5 + 5 * (y % 5)) 0

/-- A state of which each lane is given by its column and row. -/
def eachLane (f : Nat → Nat → DWord) : List DWord := (List.range 25).map fun i => f (i % 5) (i / 5)

/-- The sum of a column, bit by bit. -/
def columnSum (a : List DWord) (x : Nat) : DWord := ((List.range 5).map (laneAt a x)).foldl (· ^^^ ·) 0

/-- Each lane takes the sum of the column before it and, turned by one bit, of the column after it. -/
def mixColumns (a : List DWord) : List DWord :=
  eachLane fun x y => laneAt a x y ^^^ columnSum a (x + 4) ^^^ (columnSum a (x + 1)).rotateLeft 1

/-- The next place on the walk over the lanes other than (0, 0). -/
def walkNext (p : Nat × Nat) : Nat × Nat := (p.2, (2 * p.1 + 3 * p.2) % 5)

/-- The places of the walk, which begins at column 1 of row 0, with their numbers from 0. -/
def walk : Nat → Nat → Nat × Nat → List (Nat × (Nat × Nat))
  | 0, _, _ => []
  | n + 1, t, p => (t, p) :: walk n (t + 1) (walkNext p)

/-- How far the lane in column `x` and row `y` turns: on the walk, place t turns by the triangular number (t + 1)(t + 2)/2. -/
def turnOf (x y : Nat) : Nat :=
  match (walk 24 0 (1, 0)).find? fun w => w.2 == (x, y) with
  | some w => (w.1 + 1) * (w.1 + 2) / 2 % 64
  | none => 0

/-- Every lane turns and goes to its new place: the one that comes to column x of row y stood in column x + 3y of row x. -/
def moveLanes (a : List DWord) : List DWord :=
  eachLane fun x y => (laneAt a (x + 3 * y) x).rotateLeft (turnOf ((x + 3 * y) % 5) x)

/-- The step that is not linear: within a row. -/
def mixRows (a : List DWord) : List DWord :=
  eachLane fun x y => laneAt a x y ^^^ (laneAt a (x + 2) y &&& ~~~laneAt a (x + 1) y)

/-- The shift register that yields the bits of the round constants: x^8 + x^6 + x^5 + x^4 + 1. -/
def shiftBit (r : BitVec 8) : BitVec 8 := (r <<< 1) ^^^ (if r.msb then 0x71 else 0)

/-- The register after `n` shifts from 1. -/
def shifted (n : Nat) : BitVec 8 := n.repeat shiftBit 1

/-- The constant of round `r`: its bit 2^j - 1 is the low bit of the register after 7r + j shifts. -/
def roundWord (r : Nat) : DWord :=
  (List.range 7).foldl (fun w j => if (shifted (7 * r + j)).getLsbD 0 then w ||| (1 <<< (2 ^ j - 1)) else w) 0

/-- One round. -/
def keccakRound (a : List DWord) (r : Nat) : List DWord :=
  match mixRows (moveLanes (mixColumns a)) with
  | [] => []
  | w :: ws => (w ^^^ roundWord r) :: ws

/-- The permutation of a state: 24 rounds. -/
def keccak (a : List DWord) : List DWord := (List.range 24).foldl keccakRound a

/-- Bytes in a block. -/
def sha3Rate : Nat := 136

/-- A message with its padding. -/
def sha3Pad (bs : List Byte) : List Byte :=
  match sha3Rate - bs.length % sha3Rate with
  | 1 => bs ++ [0x86]
  | q => bs ++ [0x06] ++ List.replicate (q - 2) 0 ++ [0x80]

/-- Take a block into a state. -/
def absorb (a : List DWord) (block : List Byte) : List DWord :=
  keccak (a.mapIdx fun i w => w ^^^ BitVec.ofNat 64 (bytesNat ((block.drop (8 * i)).take 8)))

/-- Take `n` blocks. -/
def absorbAll : Nat → List Byte → List DWord → List DWord
  | 0, _, a => a
  | n + 1, bs, a => absorbAll n (bs.drop sha3Rate) (absorb a (bs.take sha3Rate))

/-- SHA3-256 of bytes. -/
def sha3_256 (bs : List Byte) : List Byte :=
  let p := sha3Pad bs
  ((absorbAll (p.length / sha3Rate) p (List.replicate 25 0)).take 4).flatMap fun w => natBytes 8 w.toNat

end Sys2Proof.Machine
end

