-- ==== Sys2Proof/Machine/Placement.lean ====
section
/-! DEFINITION. Dispatch: which panel is placed next, on which core, what a new panel is, and how a saved one resumes (06
R104 to R109, R116, 08 R141, 09 R159, R171). -/

namespace Sys2Proof.Machine

open Sys2Proof

/-! ## Room on a core (06 R104) -/

/-- The femtoseconds of one ACLK cycle at the present rate (01 R10). -/
def period (s : State) : Nat := 16000000 / s.mgmt.aclk

/-- A panel holds banks and slots of its core. -/
def Life.holds : Life → Bool
  | .staging | .running | .retiring => true
  | _ => false

/-- The panels that hold banks and slots of a core. -/
def holders (s : State) (c : Nat) : List Panel := s.panels.filter fun p => p.core == c && p.life.holds

/-- The sum of a quantity over panels. -/
def sumOf (f : Panel → Nat) (ps : List Panel) : Nat := (ps.map f).foldl (· + ·) 0

/-- Free banks of a core when only these panels hold any. -/
def banksLeft (ps : List Panel) : Nat := 64 - sumOf (·.hdr.banks) ps

/-- Free gang slots of a core when only these panels hold any. -/
def slotsLeft (ps : List Panel) : Nat := 32 - sumOf (·.hdr.nGangs) ps

/-- A core may take panels of a partition: it belongs to it and its cluster is not fenced. -/
def coreUsable (s : State) (part c : Nat) : Bool :=
  (partAt s part).clus.getLsbD (c / 16) && !(vget s.clusters (c / 16) cluster0).fenced

/-- A footprint fits beside these panels. -/
def fitsBeside (h : Hdr) (ps : List Panel) : Bool := decide (h.banks ≤ banksLeft ps ∧ h.nGangs ≤ slotsLeft ps)

/-- A footprint fits on a core (06 R104). -/
def fitsOn (s : State) (h : Hdr) (c : Nat) : Bool := coreUsable s h.part c && fitsBeside h (holders s c)

/-- Gangs of the resident panels of a core: those that are RUNNING (06 R119). -/
def residentGangs (s : State) (c : Nat) : Nat :=
  sumOf (·.hdr.nGangs) (s.panels.filter fun p => p.core == c && p.life == .running)

/-- Core `a` comes before core `b` in the order of BestCore (06 R105). -/
def coreBefore (s : State) (a b : Nat) : Bool :=
  let ga := residentGangs s a
  let gb := residentGangs s b
  let fa := banksLeft (holders s a)
  let fb := banksLeft (holders s b)
  decide (ga < gb ∨ (ga = gb ∧ (fb < fa ∨ (fa = fb ∧ a ≤ b))))

/-- The cores on which a footprint fits, in the order of BestCore. -/
def coresFor (s : State) (h : Hdr) : List Nat :=
  ((List.range 512).filter (fitsOn s h)).mergeSort (coreBefore s)

/-- The first pair of cores, in different clusters, that a test allows. -/
def firstPair (f : Nat → Nat → Bool) (as bs : List Nat) : Option (Nat × Nat) :=
  as.findSome? fun a => (bs.find? fun b => a / 16 != b / 16 && f a b).map fun b => (a, b)

/-- BestPair (06 R105): different dies before one die, then the order of the first core, then of the second. -/
def bestPair (f : Nat → Nat → Bool) (as bs : List Nat) : Option (Nat × Nat) :=
  (firstPair (fun a b => a / 128 != b / 128 && f a b) as bs).or (firstPair f as bs)

/-! ## Candidates (06 R105) -/

/-- What Dispatch may place: a saved panel, or panel `idx` of a launch. -/
inductive Cand where
  | saved (p : Panel)
  | fresh (l : Launch) (idx : Nat)
deriving DecidableEq, Repr

/-- What the candidate's launch and kernel give. -/
def Cand.hdr : Cand → Hdr
  | .saved p => p.hdr
  | .fresh l _ => l.hdr

/-- A panel is saved. -/
def Life.isSaved : Life → Bool
  | .savedLining | .savedMem _ => true
  | _ => false

/-- The next unplaced panel of a launch, in dispatch order. -/
def Launch.nextIdx (l : Launch) : Option Nat :=
  match l.requeued with
  | i :: is => some (is.foldl min i)
  | [] => if l.nextPanel < l.panels then some l.nextPanel else none

/-- A launch still has panels to place. -/
def Launch.unplaced (l : Launch) : Bool := !l.failed && l.nextIdx.isSome

/-- The oldest launch of a queue with panels to place. -/
def oldestUnplaced (s : State) (q : Nat) : Option Launch := s.launches.find? fun l => l.queue == q && l.unplaced

/-- The first saved panel of a queue at a priority; a pair goes by its primary. DESIGN CHOICE (log entry 114): the first is the one that
was placed earliest. -/
def firstSaved (s : State) (part q prio : Nat) : Option Panel :=
  s.panels.find? fun p => p.life.isSaved && p.hdr.queue == q && p.hdr.part == part && p.hdr.prio == prio
    && (p.primary || !p.hdr.redundant)

/-- What a queue offers at a priority. -/
def offer (s : State) (part prio q : Nat) : Option Cand :=
  match firstSaved s part q prio with
  | some p => some (.saved p)
  | none => (oldestUnplaced s q).bind fun l =>
      if l.ready && l.hdr.part == part && l.hdr.prio == prio then l.nextIdx.map (.fresh l) else none

/-- The cores on which a saved panel may resume: its own for one in a lining (06 R116). -/
def resumeCores (s : State) (p : Panel) : List Nat :=
  match p.life with
  | .savedLining => if fitsOn s p.hdr p.core then [p.core] else []
  | .savedMem _ => coresFor s p.hdr
  | _ => []

/-- Where a candidate is placed: a core, or the cores of the primary and of the secondary. -/
def target (s : State) : Cand → Option (Nat × Option Nat)
  | .fresh l _ =>
    if l.hdr.redundant then
      (bestPair (fun a b => decide (a < b)) (coresFor s l.hdr) (coresFor s l.hdr)).map fun c => (c.1, some c.2)
    else (coresFor s l.hdr).head?.map fun c => (c, none)
  | .saved p =>
    match p.partner.bind (getPanel s) with
    | some m =>
      let free := fun a b => p.life == .savedLining || m.life == .savedLining || decide (a < b)
      (bestPair free (resumeCores s p) (resumeCores s m)).map fun c => (c.1, some c.2)
    | none => (resumeCores s p).head?.map fun c => (c, none)

/-- The value of rr for a priority. -/
def rrOf (p : Part) (prio : Nat) : Nat := ((p.rr.find? fun r => r.1 == prio).map (·.2)).getD 0

/-- The queues that a partition may place for: those with a launch or a saved panel on it. -/
def activeQueues (s : State) (part : Nat) : List Nat :=
  distinct ((s.launches.filter fun l => l.hdr.part == part).map (·.queue))

/-- Queues in round-robin order from a number. -/
def roundRobin (from_ : Nat) (qs : List Nat) : List Nat :=
  qs.mergeSort fun a b => decide ((a + 256 - from_ % 256) % 256 ≤ (b + 256 - from_ % 256) % 256)

/-- What Dispatch tries, in its order: queue, priority and candidate. -/
def candidates (s : State) (part : Nat) : List (Nat × Nat × Cand) :=
  (List.range 64).reverse.flatMap fun prio =>
    (roundRobin (rrOf (partAt s part) prio) (activeQueues s part)).filterMap fun q =>
      (offer s part prio q).map fun c => (q, prio, c)

/-! ## A new panel (06 R104, Table 6-3, 08 R141) -/

/-- The lowest free gang slots of a core. -/
def takeSlots (s : State) (c n : Nat) : List Nat :=
  let used := (holders s c).flatMap (·.slots)
  ((List.range 32).filter fun i => !used.contains i).take n

/-- Gang `i` of a panel at its first instruction; its open batches have the ids from `bid` on. -/
def newGang (h : Hdr) (bid i : Nat) : Gang where
  role := h.roles.getD i .any
  v := Vector.replicate 128 vreg0
  s := vset (Vector.replicate 64 copies0) 62 (Vector.ofFn fun k : Fin 8 =>
    if (enabledSlices h).getLsbD k.val then BitVec.ofNat 64 h.argbase else 0)
  srs := seedAll 0
  em := lanesOf (enabledSlices h)
  nest := Vector.replicate 32 0
  split := oneFragment (enabledSlices h) h.codeOff none
  exited := 0
  ptr := 0
  fpcsr := 0
  tid := 0
  tcause := 0
  tpc := 0
  tinfo := 0
  handler := false
  hslices := 0
  regions := []
  opens := allClasses.map fun c => batch0 (bid + 5 * i + clsNo c) c
  seals := []
  mxA := .none
  mxB := .none
  pending := []
  wset := 0xFFFFFFFF
  readyAt := none
  unwind := none
  acquires := []
  releases := 0
  feeds := []
  sealedBids := []

/-- Panel `idx` of a launch as it is placed on a core. -/
def newPanel (s : State) (l : Launch) (idx pid core bid : Nat) (partner : Option Nat) (primary : Bool) : Panel where
  pid := pid
  launch := l.id
  idx := idx
  px := idx % l.gx
  py := idx / l.gx % l.gy
  pz := idx / (l.gx * l.gy)
  hdr := l.hdr
  life := .staging
  leaving := .no
  moving := none
  core := core
  slots := takeSlots s core l.hdr.nGangs
  placedAt := s.now
  begun := false
  elapsed := 0
  drain := none
  gangs := (List.range l.hdr.nGangs).map (newGang l.hdr bid)
  sp := []
  acc := []
  alph := Vector.replicate 16 0
  smk := Vector.replicate 16 smock0
  seams := Vector.replicate 16 seam0
  barw := Vector.replicate 16 barw0
  sleeves := Vector.replicate 16 sleeve0
  ring := ⟨0, 0, 0, 0, 0, 0⟩
  clk := 0
  perf := Vector.replicate 6 0
  exc := []
  catchAll := ⟨0xFFF, 0, 0, 0⟩
  ckFail := 0
  ckUnchk := 0
  latches := []
  keptFor := []
  tile := none
  partner := partner
  primary := primary
  held := []
  heldCount := []
  mirror := []

/-- Place one new panel: it holds its reservation, its start acquires at SYSTEM scope, and its staging begins (06 Table
6-3, 09 R159). -/
def placeNew (s : State) (l : Launch) (idx pid core : Nat) (partner : Option Nat) (primary : Bool) : State :=
  let p := newPanel s l idx pid core s.nextId partner primary
  let s1 := { s with panels := s.panels ++ [p], nextId := s.nextId + 5 * l.hdr.nGangs }
  issueStage (acquireAt core 5 s1) pid 0

/-- The launch has placed a panel. -/
def takeIdx (idx : Nat) (l : Launch) : Launch :=
  if l.requeued.contains idx then { l with requeued := l.requeued.filter (· != idx) }
  else { l with nextPanel := idx + 1 }

/-- Place panel `idx` of a launch on a core, or on the two cores of its pair. -/
def placeFresh (s : State) (l : Launch) (idx : Nat) (c : Nat × Option Nat) : State :=
  let a := s.nextId
  let s1 := updLaunch { s with nextId := s.nextId + 2 } l.id (takeIdx idx)
  match c.2 with
  | none => placeNew s1 l idx a c.1 none true
  | some d => placeNew (placeNew s1 l idx a c.1 (some (a + 1)) true) l idx (a + 1) d (some a) false

/-! ## Resuming (06 R116) -/

/-- A panel that owned the transpose tile when it was saved owns it again, with the content it had (08 R155). -/
def restoreTile (s : State) (p : Panel) (core : Nat) : State :=
  match p.tile with
  | some t => updCore s core fun c => { c with tile := t, tileOwner := some p.pid }
  | none => s

/-- The scope of a move, the wider one when an earlier move is not over; none where neither member of the victim moves. -/
def moveTo (old : Option (Nat × Bool)) (moves : Bool) (scope : Nat) : Option (Nat × Bool) :=
  if moves then some (max scope ((old.map (·.1)).getD 0), false) else old

/-- A saved panel takes up its work on a core: its lining or its save slot is free. Where it or its partner moves to another core,
a release and an acquire come before its first instruction. -/
def resumeOn (s : State) (pid core : Nat) (moves : Bool) : State :=
  match getPanel s pid with
  | none => s
  | some p =>
    let s1 := restoreTile (freeLining s p.core pid) p core
    let slots := takeSlots s1 core p.hdr.nGangs
    let s2 := updPanel s1 pid fun q => { q with
      life := .running, leaving := .no, moving := moveTo q.moving moves (sharedScope q.core core), core := core, slots := slots, placedAt := s.now, drain := none, tile := none }
    let s3 := { s2 with cmds := s2.cmds.map fun c => if c.ofPanel pid then { c with core := core } else c }
    refreshCore s3 core

/-- Place a candidate. -/
def place (s : State) (c : Cand) (t : Nat × Option Nat) : State :=
  match c with
  | .fresh l idx => placeFresh s l idx t
  | .saved p =>
    match p.partner, t.2 with
    | some m, some d =>
      let moves := t.1 != p.core || some d != (getPanel s m).map (·.core)
      settleMove (resumeOn (resumeOn s p.pid t.1 moves) m d moves) p.pid
    | _, _ => settleMove (resumeOn s p.pid t.1 (t.1 != p.core)) p.pid

/-! ## Dispatch (06 R105) -/

/-- The runs of a dispatcher in the last 8 cycles. -/
def recentRuns (s : State) (part : Nat) : List Nat := (partAt s part).runs.filter fun t => decide (s.now < t + 8)

/-- The dispatcher may run: at most once every 8 cycles for each cluster of its partition, and not under HALT. -/
def mayDispatch (s : State) (part : Nat) : Bool :=
  !(partAt s part).halt && decide ((recentRuns s part).length < (clustersOf s part).length)

/-- The first candidate that has a place, and the place. -/
def firstPlaceable (s : State) (part : Nat) : Option (Nat × Nat × Cand × Nat × Option Nat) :=
  (candidates s part).findSome? fun x => (target s x.2.2).map fun t => (x.1, x.2.1, x.2.2, t)

/-- The dispatcher has run for a queue at a priority. -/
def noteRun (s : State) (part q prio : Nat) : State :=
  let runs := s.now :: recentRuns s part
  updPart s part fun p => { p with rr := (prio, q + 1) :: p.rr.filter (fun r => r.1 != prio), runs := runs }

/-- DISPATCH: the dispatcher of a partition places one panel, or resumes one. -/
def execDispatch (part : BitVec 3) (s : State) : Host.Outcome State Fault Refusal :=
  if mayDispatch s part.toNat then
    match firstPlaceable s part.toNat with
    | some (q, prio, c, t) => .next (noteRun (place s c t) part.toNat q prio)
    | none => .fault .notEnabled
  else .fault .notEnabled

end Sys2Proof.Machine
end

