-- ==== Sys2Proof/Machine/Preempt.lean ====
section
/-! DEFINITION. Pre-emption: PreemptCheck and Choose, and the saves and flushes that they bring about (06 R111 to R118, 08
R155, 20 R324). -/

namespace Sys2Proof.Machine

open Sys2Proof

/-! ## Costs (06 R112) -/

/-- Cycles of a save into the lining (06 R113). -/
def liningCycles : Nat := 500

/-- The latency bound L in femtoseconds (06 R111). -/
def latBound (s : State) (part : Nat) : Nat :=
  let lat := (partAt s part).lat
  if lat = 0 then liningCycles * period s else lat * 10 ^ 8

/-- tD of one panel. -/
def drainCost (s : State) (p : Panel) : Nat := (p.hdr.maxtime * 1250 - p.elapsed) * period s

/-- The time that a save of a footprint to memory takes at 94 GB/s. -/
def memSaveCost (h : Hdr) : Nat := h.banks * 16384 * 10 ^ 6 / 94

/-- Save slots of a partition that no panel holds (06 R114). -/
def freeSaveSlots (s : State) (part : Nat) : List Nat :=
  let x := partAt s part
  if !x.saveEnable then []
  else (List.range x.saveSlots).filter fun i => !s.panels.any fun p => p.hdr.part == part &&
    (p.life == .savedMem i || p.leaving == .toMem i)

/-- The lining of a panel's core is free. -/
def liningFree (s : State) (p : Panel) : Bool := (coreAt s p.core).lining.isNone

/-- tS of the members of a victim when `free` save slots are left; none for infinity. -/
def saveCost (s : State) : Nat → List Panel → Option Nat
  | _, [] => some 0
  | free, p :: ps =>
    if liningFree s p then (saveCost s free ps).map (max (liningCycles * period s))
    else if free = 0 then none
    else (saveCost s (free - 1) ps).map (max (memSaveCost p.hdr))

/-- The outcomes of Choose. -/
inductive Choose where
  | drain | save | flush
deriving DecidableEq, Repr

/-- One cost is at most another; none stands for infinity. -/
def costLe : Option Nat → Option Nat → Bool
  | _, none => true
  | none, some _ => false
  | some a, some b => decide (a ≤ b)

/-- The greatest of a quantity over the members of a victim. -/
def worst (f : Panel → Nat) (ps : List Panel) : Nat := (ps.map f).foldl max 0

/-- Choose with its cost (06 R112); `again`: with tD infinite. -/
def choose (s : State) (p : Panel) (l : Nat) (again : Bool) : Choose × Nat :=
  let ps := members s p
  let tD := if again then none else some (worst (drainCost s) ps)
  let tS := saveCost s (freeSaveSlots s p.hdr.part).length ps
  let tF := worst (fun q => q.elapsed * period s) ps
  if costLe tD (some l) then (.drain, tD.getD 0)
  else if costLe tS (some l) then (.save, tS.getD 0)
  else if p.hdr.restartable then (.flush, tF)
  else if costLe tD tS then (.drain, tD.getD 0)
  else (.save, tS.getD 0)

/-! ## Acting on a choice -/

/-- A panel returns to QUEUED, or is KILLED when its launch has failed (06 Table 6-3, R390). -/
def requeue (s : State) (p : Panel) : State :=
  let s1 := (members s p).foldl (fun t m => removePanel t m.pid) s
  settleLaunch (updLaunch s1 p.launch fun l => if l.failed then l else { l with requeued := l.requeued ++ [p.idx] })
    p.launch

/-- Change the way in which a panel leaves its core; issue stops (06 R113). -/
def leaveAs (s : State) (p : Panel) (x : Leaving) : State :=
  refreshCore (updPanel s p.pid fun q => { q with leaving := x, drain := none }) p.core

/-- Begin the save of one panel: into its core's lining when that is free, else into a save slot. DESIGN CHOICE (log entry 114): of
several free slots it takes the lowest. -/
def beginSave (s : State) (p : Panel) : State :=
  if liningFree s p then leaveAs (updCore s p.core fun c => { c with lining := some p.pid }) p .toLining
  else match freeSaveSlots s p.hdr.part with
    | i :: _ => leaveAs s p (.toMem i)
    | [] => s

/-- Carry out a choice for every member of a victim. -/
def carryOut (s : State) (p : Panel) (l : Nat) (c : Choose) (again : Bool) : State :=
  let ps := members s p
  match c with
  | .drain =>
    let due := if again then none else some (s.fs + worst (drainCost s) ps + l)
    ps.foldl (fun t m => updPanel t m.pid fun q => { q with drain := some due }) s
  | .save => ps.foldl beginSave s
  | .flush => ps.foldl (fun t m => leaveAs t m .flush) s

/-- The panel is already being drained, saved or flushed. -/
def Panel.going (p : Panel) : Bool := p.drain.isSome || p.leaving != .no

/-- Preempt one victim (06 R111, R112): one in STAGING returns to QUEUED. For one that is being drained Choose runs anew; when it
is to be drained still, the time at which that is reconsidered stays. -/
def preempt (l : Nat) (s : State) (pid : Nat) : State :=
  match getPanel s pid with
  | none => s
  | some p =>
    let c := (choose s p l false).1
    if (members s p).any fun m => m.leaving != .no then s
    else if (members s p).any fun m => m.life == .staging then requeue s p
    else if p.life != .running || (p.drain.isSome && c == .drain) then s
    else carryOut s p l c false

/-! ## PreemptCheck (06 R111) -/

/-- The panels of a core that may be victims of one of priority `prio`, in the order in which they are taken. -/
def victims (s : State) (part c prio : Nat) : List Panel :=
  (s.panels.filter fun p => p.core == c && p.hdr.part == part && (p.life == .staging || p.life == .running)
      && decide (p.hdr.prio + (partAt s part).gap ≤ prio)).mergeSort fun a b =>
    decide (a.hdr.prio < b.hdr.prio ∨ (a.hdr.prio = b.hdr.prio ∧
      (b.placedAt < a.placedAt ∨ (b.placedAt = a.placedAt ∧ b.pid ≤ a.pid))))

/-- The fewest of these victims whose removal lets a footprint fit beside the rest. -/
def fewest (h : Hdr) (ps : List Panel) : List Panel → List Panel → Option (List Panel)
  | taken, [] => if fitsBeside h (ps.filter fun p => !taken.contains p) then some taken else none
  | taken, v :: vs =>
    if fitsBeside h (ps.filter fun p => !taken.contains p) then some taken else fewest h ps (taken ++ [v]) vs

/-- V(c) for a footprint: none when no set serves, when a member is already going, or when none is needed. DESIGN CHOICE (log entry
135): a member whose save or flush is under way counts as one that is being drained. -/
def victimSet (s : State) (h : Hdr) (c : Nat) : Option (List Panel) :=
  if !coreUsable s h.part c then none
  else (fewest h (holders s c) [] (victims s h.part c h.prio)).bind fun vs =>
    if vs.isEmpty || vs.any Panel.going then none else some vs

/-- cost(c): a victim in STAGING costs nothing. -/
def setCost (s : State) (l : Nat) (vs : List Panel) : Nat :=
  sumOf (fun p => if p.life == .staging then 0 else (choose s p l false).2) vs

/-- The cores that a candidate could use: any, or those that its linings name (06 R116). -/
def wantedCores (s : State) : Cand → List Nat
  | .fresh _ _ => List.range 512
  | .saved p =>
    if (members s p).all fun m => m.life == .savedLining then (members s p).map (·.core) else List.range 512

/-- The victims of the core of least cost. -/
def cheapest (s : State) (l : Nat) (w : Cand) : Option (List Panel) :=
  ((wantedCores s w).filterMap fun c => (victimSet s w.hdr c).map fun vs => (setCost s l vs, c, vs)).foldl
    (fun best x =>
      match best with
      | some b => if x.1 < b.1 ∨ (x.1 = b.1 ∧ x.2.1 < b.2.1) then some x else best
      | none => some x) none |>.map (·.2.2)

/-- The first panel that Dispatch would try and that fits nowhere. -/
def stuckCandidate (s : State) (part : Nat) : Option Cand :=
  ((candidates s part).find? fun x => (target s x.2.2).isNone).map (·.2.2)

/-- Every panel of a partition that is resident or staging. -/
def liveOnCores (s : State) (part : Nat) : List Nat :=
  (s.panels.filter fun p => p.hdr.part == part && (p.life == .running || p.life == .staging)).map (·.pid)

/-- PreemptCheck (06 R111). -/
def preemptCheck (s : State) (part : Nat) : State :=
  let x := partAt s part
  let l := latBound s part
  let s1 := updPart s part fun p => { p with lastCheck := s.fs }
  if x.halt then (liveOnCores s part).foldl (preempt l) s1
  else if x.lat = 0 then s1
  else match (stuckCandidate s part).bind (cheapest s l) with
    | some vs => (vs.map (·.pid)).foldl (preempt l) s1
    | none => s1

/-- PREEMPT_CHECK: the scheduler of a partition runs it every 1 µs. -/
def execPreemptCheck (part : BitVec 3) (s : State) : Host.Outcome State Fault Refusal :=
  if (partAt s part.toNat).lastCheck + 10 ^ 9 ≤ s.fs then .next (preemptCheck s part.toNat) else .fault .notEnabled

/-- DRAIN_VICTIM_TIMEOUT: a drained victim has not retired by tD + L after the choice (06 R112). -/
def execDrainVictimTimeout (pid : Nat) (s : State) : Host.Outcome State Fault Refusal :=
  match getPanel s pid with
  | none => .fault .notEnabled
  | some p =>
    match p.drain with
    | some (some due) =>
      if p.life == .running && decide (due ≤ s.fs) then
        let l := latBound s p.hdr.part
        .next (carryOut s p l (choose s p l true).1 true)
      else .fault .notEnabled
    | _ => .fault .notEnabled

/-! ## Saves (06 R113, R114) -/

/-- The transpose tile goes with the panel that owns it (08 R155). -/
def keepTile (s : State) (p : Panel) : State :=
  if (coreAt s p.core).tileOwner = some p.pid then
    let t := (coreAt s p.core).tile
    updCore (updPanel s p.pid fun q => { q with tile := some t }) p.core fun c =>
      { c with tile := [], tileOwner := none }
  else s

/-- A panel has left its core's banks and slots as a saved one. -/
def savedAs (s : State) (p : Panel) (x : Life) : State :=
  let s1 := saveLatch (clearPositions (keepTile s p) p.core p.pid) p.core p.pid
  updPanel s1 p.pid fun q => { q with life := x, leaving := .no, slots := [], drain := none }

/-- A stalled command is withdrawn, with its writes that wait for a log; it is replayed after the resume (04 R84, 06 R114). -/
def withdrawCmd (s : State) (c : Cmd) : State :=
  let s1 := updCmd (leaveFaults s c.id) c.id fun d => { d with fault := none, recon := [] }
  landWaiting { s1 with gus := { s1.gus with waits := s1.gus.waits.filter fun w => !w.ofCmd c.id } }

/-- The bytes of a save slot. -/
def saveSlotBytes : Nat := 1088 * 1024

/-- Write the image of a panel into its slot: the status when that fails. -/
def writeImage (s : State) (p : Panel) (slot : Nat) : Option Nat × State :=
  let a := (partAt s p.hdr.part).saveBase + slot * saveSlotBytes
  if localBytes < a + saveSlotBytes then (some 0x15, s)
  else
    let r := writeLocal s a ((Config.saveImage s.free).take saveSlotBytes)
    (r.1, { r.2 with free := r.2.free + 1 })

/-- Save a panel to memory: its stalled commands are withdrawn, and the image goes to the save slot; if the write fails the panel
is killed with the code (06 R114). -/
def saveToMem (s : State) (p : Panel) (slot : Nat) : State :=
  match writeImage ((s.cmds.filter fun c => c.ofPanel p.pid).foldl withdrawCmd s) p slot with
  | (some code, s1) => failPanel s1 p.pid code
  | (none, s1) => dropCode (savedAs s1 p (.savedMem slot)) (p.core / 16) p.hdr.asid p.hdr.kaddr

/-- The save of a panel may take place: into the lining at once, to memory when every command of it is stuck. -/
def saveReady (s : State) (p : Panel) : Bool :=
  p.life == .running && match p.leaving with
    | .toLining => true
    | .toMem _ => (s.cmds.filter fun c => c.ofPanel p.pid).all fun c => c.stuck s
    | _ => false

/-- Save one member: into the lining its banks are exchanged with it, and engine operations in flight go on into it (06
R113). -/
def saveMember (s : State) (p : Panel) : State :=
  if (getPanel s p.pid).isNone then s
  else match p.leaving with
    | .toLining => savedAs s p .savedLining
    | .toMem slot => saveToMem s p slot
    | _ => s

/-- Save a victim, both members of a pair together (06 R106). None while one of them has to wait. -/
def saveVictim (s : State) (p : Panel) : Option State :=
  let ps := members s p
  if ps.all (saveReady s) then some (ps.foldl (fun t m => refreshCore t m.core) (ps.foldl saveMember s)) else none

/-- PANEL_SAVE_LINING (06 R113): a panel goes into its core's lining, its partner with it. -/
def execPanelSaveLining (pid : Nat) (s : State) : Host.Outcome State Fault Refusal :=
  match (getPanel s pid).bind fun p => if p.leaving = .toLining then saveVictim s p else none with
  | some t => .next t
  | none => .fault .notEnabled

/-- PANEL_SAVE_MEM (06 R114): a panel goes to a save slot, its partner with it. -/
def execPanelSaveMem (pid : Nat) (s : State) : Host.Outcome State Fault Refusal :=
  match (getPanel s pid).bind fun p => if p.leaving = .toLining then none else saveVictim s p with
  | some t => .next t
  | none => .fault .notEnabled

/-! ## Flush (06 R115) -/

/-- PANEL_FLUSH: the run is discarded, and the panel returns to QUEUED. -/
def execPanelFlush (pid : Nat) (s : State) : Host.Outcome State Fault Refusal :=
  match getPanel s pid with
  | none => .fault .notEnabled
  | some p =>
    let ps := members s p
    if p.life == .running && ps.all (fun m => m.leaving = .flush) && runQuiet s ps then
      .next (ps.foldl (fun t m => refreshCore t m.core) (requeue s p))
    else .fault .notEnabled

end Sys2Proof.Machine
end

