-- ==== Sys2Proof/Machine/Residence.lean ====
section
/-! DEFINITION. A panel on its core: staging complete, the active set, code fetches, sleep, and retirement (06 R108, R390, 07
R130, R131, 13 R222, 16 R246, 17 R268). -/

namespace Sys2Proof.Machine

open Sys2Proof

/-! ## Staging (06 Table 6-3) -/

/-- A staging or write-back command of a panel that has failed and holds no open stripe. -/
def failedMove (s : State) (pid : Nat) : Option Nat :=
  (s.cmds.find? fun c => c.ofPanel pid && c.fail.isSome && c.opened.isEmpty).bind fun c => c.fail.map (·.status)

/-- STAGING_COMPLETE: everything has landed and the gangs may issue, or a staging copy has failed. -/
def execStagingComplete (pid : Nat) (s : State) : Host.Outcome State Fault Refusal :=
  match getPanel s pid with
  | none => .fault .notEnabled
  | some p =>
    if p.life != .staging then .fault .notEnabled
    else match failedMove s pid with
      | some code => .next (refreshCore (failPanel s pid code) p.core)
      | none =>
        if noCommands s [p] then .next (refreshCore (updPanel s pid fun q => { q with life := .running }) p.core)
        else .fault .notEnabled

/-! ## The active set (07 R130, R131) -/

/-- The pending gang of a core that became ready first, ties to the lower slot: time, slot, panel and gang. -/
def firstReady (s : State) (core : Nat) : Option (Nat × Nat × Nat × Nat) :=
  (pendingReady s core).foldl (fun best x =>
    match best with
    | some b => if x.1 < b.1 ∨ (x.1 = b.1 ∧ x.2.1 < b.2.1) then some x else best
    | none => some x) none

/-- A position that may be made to yield: it has been held for 8 cycles, and its gang has issued since it entered. -/
def mayYield (s : State) (q : Option Pos) : Bool :=
  match q with
  | some q => decide (q.since + 8 ≤ s.now) && q.issued
  | none => false

/-- The position that yields to a gang that has been ready for 8 cycles when none is free: of those that may, the one
held longest. DESIGN CHOICE (log entry 121): of two that have been held equally long, the lower-numbered one; and where the one held
longest of all may not yield, the longest-held of those that may. -/
def yielding (s : State) (core : Nat) : Option Nat :=
  let ps := (coreAt s core).active
  if ps.any Option.isNone then none
  else match firstReady s core with
    | none => none
    | some r =>
      if s.now < r.1 + 8 then none
      else (List.range 8).foldl (fun best i =>
        let since := fun (k : Nat) => ((ps[k]?).bind id).elim 0 fun (q : Pos) => q.since
        if mayYield s ((ps[i]?).getD none) then
          match best with
          | some b => if since i < since b then some i else best
          | none => some i
        else best) none

/-- A pending gang takes a free position: the swap lasts 8 cycles. DESIGN CHOICE (log entry 136): it holds the position from the swap's
start. -/
def swapIn (s : State) (core pos : Nat) (r : Nat × Nat × Nat × Nat) : State :=
  let q : Pos := ⟨r.2.2.1, r.2.2.2, s.now, false, s.now + 8⟩
  let s1 := updCore s core fun c => { c with active := c.active.set pos (some q) }
  perfAdd (updGang s1 r.2.2.1 r.2.2.2 fun g => { g with readyAt := none }) r.2.2.1 4 1

/-- A gang leaves its position to the gang that waits for it. -/
def evict (s : State) (core pos : Nat) : State :=
  match (coreAt s core).active[pos]? with
  | some (some q) => leaveActive s core q.pid q.gang
  | _ => s

/-- ACTIVE_SET_SWAP: a free position takes the pending gang that became ready first; when none is free, the position that
has to yields. -/
def execActiveSetSwap (core pos : Nat) (s : State) : Host.Outcome State Fault Refusal :=
  match firstReady s core with
  | none => .fault .notEnabled
  | some r =>
    match (coreAt s core).active[pos]? with
    | some none => .next (swapIn s core pos r)
    | some (some _) =>
      if yielding s core = some pos then .next (refreshCore (swapIn (evict s core pos) core pos r) core)
      else .fault .notEnabled
    | none => .fault .notEnabled

/-! ## Code (16 R246) -/

/-- A fragment of the panel stands in a window. -/
def needsWindow (p : Panel) (win : Nat) : Bool :=
  p.gangs.any fun g => g.split.any fun e => e.valid && e.pc.toNat / 32 == win

/-- The fetch of a window in progress for a panel. -/
def codeCmd (s : State) (pid win : Nat) : Option Cmd :=
  s.cmds.find? fun c => c.owner == .code pid && c.slotAddr == win

/-- The cores of a cluster are brought up to date. -/
def refreshCluster (s : State) (c : Nat) : State := (List.range' (16 * c) 16).foldl refreshCore s

/-- A window that has been read enters the cluster's instruction cache. -/
def fillWindow (s : State) (p : Panel) (win : Nat) (bytes : List Byte) : State :=
  let cl := vget s.clusters (p.core / 16) cluster0
  let w : Window := ⟨p.hdr.asid, p.hdr.kaddr, win, bytes⟩
  let rest := cl.icache.filter fun x => !(x.asid == w.asid && x.kaddr == w.kaddr && x.win == win)
  { s with clusters := vset s.clusters (p.core / 16) { cl with icache := w :: rest } }

/-- CODE_FETCH: the first time the read of a window in which a fragment stands begins; when it has returned, the window
enters the instruction cache, and a fetch that failed kills the panel with its status. -/
def execCodeFetch (pid window : Nat) (s : State) : Host.Outcome State Fault Refusal :=
  match getPanel s pid with
  | none => .fault .notEnabled
  | some p =>
    match codeCmd s pid window with
    | none =>
      if p.issues && needsWindow p window then
        .next (newCmd s (.code pid) p.core .copy (.fetch [(p.hdr.kaddr + 32 * window, 32)]) p.hdr.asid fun c =>
          { c with slotAddr := window })
      else .fault .notEnabled
    | some c =>
      match c.fail, c.data 0 with
      | some f, _ => .next (refreshCluster (failPanel s pid f.status) (p.core / 16))
      | none, some bs => .next (refreshCluster (fillWindow (forgetCmd s c.id) p window bs) (p.core / 16))
      | none, none => .fault .notEnabled

/-! ## Sleep (17 R268) -/

/-- SLEEP_WAKE: a fragment has slept for its cycles and goes on after its SLEEP. -/
def execSleepWake (pid gang entry : Nat) (s : State) : Host.Outcome State Fault Refusal :=
  match getPanel s pid, (getGang s pid gang).bind fun g => g.split[entry]? with
  | some p, some e =>
    if p.issues && e.valid && e.blk == some .sleep && decide (e.wake ≤ p.clk) then
      let s1 := updGang s pid gang fun g => { g with split := modifyAt (releaseEntry 12) g.split entry }
      let s2 := updPanel s1 pid fun q => { q with gangs := modifyAt (settleEntries q.hdr) q.gangs gang }
      .next (refreshCore s2 p.core)
    else .fault .notEnabled
  | _, _ => .fault .notEnabled

/-! ## Retirement (06 R108, R390, 13 R222) -/

/-- The failed batches of a panel that no instruction has consumed: when sealed, gang, class and failure. -/
def unconsumed (p : Panel) : List (Nat × Nat × Nat × Fail) :=
  p.gangs.zipIdx.flatMap fun g => g.1.seals.filterMap fun b =>
    if b.complete then b.fail.map fun f => (b.sealedAt, g.2, clsNo b.cls, f) else none

/-- One failed batch was sealed before another; those of one cycle rank by gang and class. -/
def sealedBefore (a b : Nat × Nat × Nat × Fail) : Bool :=
  decide (a.1 < b.1 ∨ (a.1 = b.1 ∧ (a.2.1 < b.2.1 ∨ (a.2.1 = b.2.1 ∧ a.2.2.1 ≤ b.2.2.1))))

/-- The failure that an unconsumed batch brings to the launch, if there is one (13 R222). DESIGN CHOICE (log entry 149): a failed matrix
checksum, which has no status, stands among the others and gives none. -/
def retireFailure (ps : List Panel) : Option Fail :=
  (((ps.flatMap unconsumed).mergeSort sealedBefore).head?).map (·.2.2.2)

/-- Every gang has exited. -/
def allExited (p : Panel) : Bool := p.gangs.all fun g => gangExited p.hdr g

/-- PANEL_RETIRE: every gang has exited and every engine operation is complete, in both members of a pair; write-back
begins. DESIGN CHOICE (log entry 149): a failed matrix checksum that comes first gives the LAUNCH no code, so that it is KILLED. -/
def execPanelRetire (pid : Nat) (s : State) : Host.Outcome State Fault Refusal :=
  match getPanel s pid with
  | none => .fault .notEnabled
  | some p =>
    let ps := members s p
    if (p.primary || !p.hdr.redundant) && ps.all (fun m => m.issues && allExited m) && noCommands s ps then
      let s1 := match retireFailure ps with
        | some f => failLaunch s p.launch p.idx (if f.checksum then none else some f.status)
        | none => s
      let s2 := ps.foldl (fun t m => clearPositions (updPanel t m.pid fun q =>
        { q with life := .retiring, drain := none }) m.core m.pid) s1
      .next (issueWriteBack s2 pid 0)
    else .fault .notEnabled

/-- Both members of a pair end. -/
def endMembers (s : State) (p : Panel) : State :=
  endPanel (match partnerOf s p with
    | some m => removePanel s m.pid
    | none => s) p.pid

/-- PANEL_WRITEBACK_DONE: the panel is DONE; a write-back that failed gives its launch the code. -/
def execPanelWritebackDone (pid : Nat) (s : State) : Host.Outcome State Fault Refusal :=
  match getPanel s pid with
  | none => .fault .notEnabled
  | some p =>
    if p.life != .retiring || !(p.primary || !p.hdr.redundant) then .fault .notEnabled
    else match failedMove s pid with
      | some code => .next (endMembers (failLaunch s p.launch p.idx (some code)) p)
      | none => if noCommands s [p] then .next (endMembers s p) else .fault .notEnabled

end Sys2Proof.Machine
end

