-- ==== Sys2Proof/Machine/Manage.lean ====
section
/-! DEFINITION. The management controller: power and cooling, the resets, the health page, drain, partitions, fault records
and attestation (01 R13 to R19, R385, 02 R40, 05 R89 to R98, 06 R99, R118). -/

namespace Sys2Proof.Machine

open Sys2Proof

/-- Change the management controller. -/
def updMgmt (s : State) (f : Mgmt → Mgmt) : State := { s with mgmt := f s.mgmt }

/-- Femtoseconds of a millisecond. -/
def msFs : Nat := 10 ^ 12

/-! ## Power (01 R13, R14) -/

/-- The thermal cap of a band (01 Table 1-4). -/
def bandCap : Band → Option Nat
  | .normal => none
  | .warm => some 2400
  | .hot => some 1500

/-- The active cap (01 R13). -/
def activeCap (m : Mgmt) : Nat := min (min m.pwrCap ((bandCap m.band).getD 3000)) 3000

/-- CAUSE of MG_PWR_CAP (01 Table 1-3). -/
def capCause (m : Mgmt) : Nat :=
  let cap := activeCap m
  (if m.pwrCap = cap ∧ cap < 3000 then 1 else 0) + (if bandCap m.band = some cap then 2 else 0)

/-- The sum of the samples of the last 10 ms. -/
def wattSum (m : Mgmt) : Nat := m.samples.foldl (· + ·) 0

/-- The average exceeds the active cap. -/
def overCap (m : Mgmt) : Bool := decide (activeCap m * m.samples.length < wattSum m)

/-- The average lies below 95 % of the active cap. -/
def underCap (m : Mgmt) : Bool := decide (wattSum m * 100 < 95 * activeCap m * m.samples.length)

/-- One 1 ms tick of power control: a sample, and one step down when the average exceeds the cap; ACLK counts in steps of
62.5 MHz and does not fall below ten of them. -/
def powerTick (watts : Nat) (m : Mgmt) : Mgmt :=
  let m1 := { m with samples := (watts :: m.samples).take 10 }
  let high := overCap m1
  let floorMs := if high && m1.aclk == 10 then m1.floorMs + 1 else 0
  { m1 with
    aclk := if high then max 10 (m1.aclk - 1) else m1.aclk
    floorMs := floorMs
    pwrCause := capCause m1 }

/-- POWER_SAMPLE: each 1 ms (01 R13). -/
def execPowerSample (s : State) : Host.Outcome State Fault Refusal :=
  if s.mgmt.lastPower + msFs ≤ s.fs then
    .next (updMgmt s fun m => { powerTick s.sensors.watts m with lastPower := s.fs })
  else .fault .notEnabled

/-- One step up, when the average lies below 95 % of the cap and ACLK is not held (01 R13). -/
def raiseTick (m : Mgmt) : Mgmt :=
  if underCap m && !m.held && decide (m.aclk < 20) then { m with aclk := m.aclk + 1, floorMs := 0 } else m

/-- ACLK_RAISE_TICK: each 10 ms (01 R13). -/
def execAclkRaiseTick (s : State) : Host.Outcome State Fault Refusal :=
  if s.mgmt.lastRaise + 10 * msFs ≤ s.fs then
    .next (updMgmt s fun m => { raiseTick m with lastRaise := s.fs })
  else .fault .notEnabled

/-- ACLK stands at 625 MHz, and the cap has been exceeded there for 100 ms and is so still (01 R13). -/
def atFloor (m : Mgmt) : Bool := !m.held && m.aclk == 10 && overCap m && decide (100 ≤ m.floorMs)

/-- ACLK_FLOOR_TIMEOUT: the cap is still exceeded after 100 ms at 625 MHz (01 R13). -/
def execAclkFloorTimeout (s : State) : Host.Outcome State Fault Refusal :=
  if atFloor s.mgmt then
    .next (addRecord (updMgmt s fun m => { m with held := true }) (blankRecord 1 4 0))
  else .fault .notEnabled

/-- CAP of a written MG_PWR_CAP (01 Table 1-3). -/
def clampCap (n : Nat) : Nat := min 3000 (max 1500 n)

/-- MG_PWR_CAP_WRITE (01 R14). -/
def execMgPwrCapWrite (p : Port) (v : DWord) (s : State) : Host.Outcome State Fault Refusal :=
  regWrite s p fun s => updMgmt s fun m => { m with pwrCap := clampCap (fieldOf v 11 0) }

/-! ## The cold reset (01 R17, R385, 05 R97) -/

/-- The SHA3-256 digest of a firmware image: of its version and its bytes (05 R97). -/
def imageDigest (version : Nat) (bytes : List Byte) : List Byte := sha3_256 (natBytes 8 version ++ bytes)

/-- The boot ROM accepts an image: its signature verifies and its security version is at least the fused minimum (05
R97). -/
def imageGood (minimum : Nat) (i : Image) : Bool :=
  Config.verify (imageDigest i.version i.bytes) i.signature && decide (minimum ≤ i.version)

/-- The firmware image that the boot ROM loads, with its slot: slot 1 is tried when slot 0 is refused (05 R97). -/
def bootSlot (f : Firmware) (minimum : Nat) : Option (Nat × Image) :=
  match f.slot0.filter (imageGood minimum) with
  | some i => some (0, i)
  | none => (f.slot1.filter (imageGood minimum)).map fun i => (1, i)

/-- Load firmware: with none, no queue is enabled and a G4 record is latched. DESIGN CHOICE (log entry 120): a report then holds security
version 0 and the digest of an image of that version with no bytes. -/
def firmwareBoot (s : State) : State :=
  match bootSlot s.flash s.mgmt.fwMinimum with
  | some (slot, i) => updMgmt s fun m =>
      { m with fwSlot := some slot, fwVersion := i.version, fwBytes := i.bytes, fwMinimum := max m.fwMinimum i.version }
  | none => addRecord (updMgmt s fun m => { m with fwSlot := none, fwVersion := 0, fwBytes := [] }) (blankRecord 4 6 0)

/-- A cold reset: every register at its reset value but the lost-stack marks, the G4 latch and the fused minimum; what
lies outside the module stays as it is. DESIGN CHOICE (log entry 132): a stack loss that has not come to its loss point is dropped,
where a device reset keeps it. -/
def coldReset (s : State) : State :=
  firmwareBoot { State.reset with
    mgmt := { mgmt0 with g4 := s.mgmt.g4, g4Served := s.mgmt.g4.isSome, fwMinimum := s.mgmt.fwMinimum }
    gus := { gusset0 with lost := s.gus.lost, first := s.gus.first, cause := s.gus.cause, failed := s.gus.failed }
    sensors := s.sensors
    flash := s.flash
    hostMem := s.hostMem
    agenda := s.agenda
    free := s.free
    nextId := s.nextId }

/-- COLD_RESET: a power cycle, or PERST# on both ports together (01 R17). -/
def execColdReset (s : State) : Host.Outcome State Fault Refusal := .next (coldReset s)

/-! ## Cooling (01 R15, R16) -/

/-- The junctions of a sample. -/
def Temps.junctions (t : Temps) : List Int := [t.cd0, t.cd1, t.cd2, t.cd3, t.iod] ++ t.hbm.toList

/-- The hottest stack (05 Table 5-1). -/
def Temps.hottest (t : Temps) : Int := t.hbm.toList.tail.foldl max (vget t.hbm 0 0)

/-- The band of a sample (01 Table 1-4). -/
def bandOf (t : Temps) : Band :=
  if 45 < t.inlet ∨ (Temps.junctions t).any (fun j => decide (95 < j)) then .hot
  else if 40 < t.inlet then .warm
  else .normal

/-- A sample trips: the inlet is above 55 °C, or a junction has been at 110 °C or more since the sample before. -/
def trips (old new : Temps) : Bool :=
  decide (55 < new.inlet)
    || ((Temps.junctions old).zip (Temps.junctions new)).any fun j => decide (110 ≤ j.1 ∧ 110 ≤ j.2)

/-- A thermal trip (01 R16): queues stop, panels are killed with G3 records, the G4 record is latched, and the module
cold-resets once the host has the records. -/
def thermalTrip (s : State) : State :=
  let s1 := addRecord (killAllQueues 4 s) (blankRecord 4 4 0)
  coldReset (deliverWhere s1 fun _ => true)

/-- The record on entry to a band. -/
def enterBand (s : State) (b : Band) : State :=
  if s.mgmt.band = b then s
  else
    let s1 := updMgmt s fun m => { m with band := b }
    match b with
    | .normal => s1
    | .warm => addRecord s1 (blankRecord 0 4 0)
    | .hot => addRecord s1 (blankRecord 1 4 0)

/-- THERMAL_SAMPLE: each 1 ms (01 R15). -/
def execThermalSample (s : State) : Host.Outcome State Fault Refusal :=
  if s.mgmt.lastThermal + msFs ≤ s.fs then
    let new := s.sensors.temps
    let s1 := updMgmt s fun m => { m with lastThermal := s.fs, temps := new }
    .next (if trips s.mgmt.temps new then thermalTrip s1 else enterBand s1 (bandOf new))
  else .fault .notEnabled

/-! ## The device reset (01 R17, R19, R385, 02 R40, 05 R96) -/

/-- Recompute the parity of a stripe from its data units. DESIGN CHOICE (log entry 86): these reads count in GUS_CNT_CORR and
GUS_CNT_UNCORR like any other. -/
def recomputeParity (s : State) (n : Nat) : State :=
  (List.range 8).foldl (fun t g =>
    let r := sumUnits t n g (List.range 11)
    storeParity r.2 n g r.1) s

/-- The lost stacks. -/
def lostStacks (s : State) : List Nat := (List.range 12).filter fun k => stackLost s k

/-- OPEN_STRIPE_CLOSE of one entry (02 R40): by its parity in NORMAL mode, else as at a loss point for each lost stack, with no
record. DESIGN
CHOICE (log entry 102): an open engine write counts in GUS_CNT_RFAIL as at a loss point, once for each lost data unit. -/
def closeForReset (s : State) (e : OpenEntry) : State :=
  match lostStacks s with
  | [] => settleEntry (recomputeParity s e.stripe) e
  | ks => ks.foldl (fun t k => closeAtLoss k t e) s

/-- The parts of a host write, one a granule: piece, data address and bytes. -/
def Cmd.hostParts (c : Cmd) : List (Nat × Nat × List Byte) :=
  match c.kind with
  | .store da bytes => (partsOf da bytes.length).zipIdx.map fun x => (x.2, x.1.1, (bytes.drop (x.1.1 - da)).take x.1.2)
  | _ => []

/-- Perform what is left of a host write and does not wait for a log (02 R40). -/
def performHostWrite (waits : List LogWait) (s : State) (c : Cmd) : State :=
  (c.hostParts.filter fun x => !c.done.contains x.1 && !waits.any fun w => w.who == .piece c.id x.1).foldl
    (fun t x => (writeThrough t .host none x.2.1 x.2.2).2) s

/-- A command that a device reset leaves: one of a peer's request or of a pleat table, which has no ASID. -/
def Cmd.survives (c : Cmd) : Bool :=
  match c.owner with
  | .peer .. | .pleat _ => true
  | _ => false

/-- A host write. -/
def Cmd.isBar2 (c : Cmd) : Bool :=
  match c.owner with
  | .bar2 _ => true
  | _ => false

/-- A write that waits for a log when a device reset is requested (02 R40): a host write is performed in its turn, as the
device's own; one of a command that the reset kills is discarded. -/
def settleWait (s : State) (w : LogWait) : Option LogWait :=
  match w.who with
  | .device .. => some w
  | .piece id k => (getCmd s id).bind fun c =>
    if c.survives then some w
    else if c.isBar2 then (c.hostParts.find? fun x => x.1 == k).map fun x => ⟨w.stripe, .device .host x.2.1 x.2.2⟩
    else none

/-- A posted write belongs to no work any longer. -/
def Posted.disown (w : Posted) : Posted := { w with pid := none, cmd := none, pkt := none, gang := none }

/-- The memory side of a device reset: open stripes are closed, host writes are performed, the other writes that wait are
discarded, every command of an ASID is gone, and an expansion that was taking its frame with them. DESIGN CHOICE (log entry 131):
posted writes to host memory that were sent and are not delivered yet land afterwards, those of killed commands too. -/
def resetCommands (s : State) : State :=
  let s1 := s.gus.log.foldl closeForReset { s with gus := { s.gus with log := [], waits := s.gus.waits.filterMap (settleWait s) } }
  let s2 := landWaiting ((s1.cmds.filter Cmd.isBar2).foldl (performHostWrite s.gus.waits) s1)
  let s3 := (s2.cmds.filter fun c => !c.survives).foldl (fun t c => dropRequests t c.id) s2
  applyLater { s3 with
    cmds := s3.cmds.filter Cmd.survives
    links := { s3.links with posted := s3.links.posted.map Posted.disown } }

/-- A queue after a device reset (01 Table 1-6). -/
def resetQueue (x : Queue) : Queue :=
  { x with tail := 0, head := 0, enable := false, state := .disabled, stIndex := 0, stCode := 0, pkts := [] }

/-- A partition after a device reset. -/
def resetPart (x : Part) : Part := { x with drain := false, drained := false, halt := false, runs := [] }

/-- Perform a device reset (01 Table 1-6): DONE reads 0 until DEVICE_RESET_DONE. -/
def deviceReset (s : State) : State :=
  let s1 := resetCommands s
  { s1 with
    launches := []
    panels := []
    cores := Vector.replicate 512 core0
    clusters := s1.clusters.map fun c => { cluster0 with fenced := c.fenced }
    iodTlb := []
    queues := s1.queues.map resetQueue
    parts := s1.parts.map resetPart
    sems := Vector.replicate 32 0
    fqProd := 0
    fqCons := 0
    xfaults := []
    inval := none
    issuer := none
    mgmt := { s1.mgmt with
      resetDone := false, resetWanted := false, resetAt := s1.fs, attBusy := false, attUsed := [], attReport := [] } }

/-- A port is in reset. -/
def anyInReset (s : State) : Bool := s.mgmt.inReset.toList.any id

/-- A device reset is requested: it is performed, or waits for a port reset in progress; one already requested takes
this one in (01 R19). DESIGN CHOICE (log entry 85): it does so for as long as DONE reads 0, which is at least the one SCLK period
that R19 names. -/
def requestReset (s : State) : State :=
  if !s.mgmt.resetDone then s
  else if anyInReset s then updMgmt s fun m => { m with resetDone := false, resetWanted := true }
  else deviceReset s

/-- DEVICE_RESET_REQUEST: a function-level reset on a port, or MG_RESET.DEV ← 1 through it (05 R96). -/
def execDeviceResetRequest (p : Port) (s : State) : Host.Outcome State Fault Refusal :=
  if portServes s p then .next (requestReset s) else .fault .notEnabled

/-- One period of SCLK in fs: 200 MHz (01 Table 1-1). -/
def sclkFs : Nat := 5 * 10 ^ 6

/-- The device reset in progress may end: a whole period of SCLK has passed since it was performed, so that a request of
the other port within that period is merged with it (01 R19), and every host write that waited for a log is performed (02
R40). -/
def resetOver (s : State) : Bool :=
  !s.mgmt.resetDone && !s.mgmt.resetWanted && decide (s.mgmt.resetAt + sclkFs < s.fs) && !hostWaits s

/-- DEVICE_RESET_DONE (01 R19): DONE reads 1. -/
def execDeviceResetDone (s : State) : Host.Outcome State Fault Refusal :=
  if resetOver s then .next (updMgmt s fun m => { m with resetDone := true })
  else .fault .notEnabled

/-- HOST_PORT_LINK_UP: the link of a port returns and its port reset is complete; a device reset that waited for it is
performed (01 R19). DESIGN CHOICE (log entry 103): a port reset lasts until the port's link is up again. -/
def execHostPortLinkUp (p : Port) (s : State) : Host.Outcome State Fault Refusal :=
  if portServes s p then .fault .notEnabled
  else
    let s1 := { s with
      links := { s.links with hostUp := vset s.links.hostUp (portNo p) true }
      mgmt := { s.mgmt with inReset := vset s.mgmt.inReset (portNo p) false } }
    .next (if s1.mgmt.resetWanted && !anyInReset s1 then deviceReset s1 else s1)

/-! ## Service (02 R34, 05 R94) -/

/-- The module is serviced: no stack is lost any longer, and a G4 latch may be cleared. DESIGN CHOICE (log entry 104): bytes, marks
and parity of every stack stay as they stand. -/
def service (s : State) : State :=
  { s with
    gus := { s.gus with lost := 0, first := 0, cause := 0, failed := false }
    mgmt := { s.mgmt with g4Served := s.mgmt.g4.isSome } }

/-! ## Registers that the health page mirrors -/

/-- Bits placed at a position. -/
def bitsAt (n pos : Nat) : Nat := n * 2 ^ pos

/-- MODE of GUS_STATUS (02 Table 2-6). -/
def modeOf (s : State) : Nat := if s.gus.failed then 2 else if s.gus.lost = 0 then 0 else 1

/-- GUS_STATUS (02 Table 2-6). -/
def gusStatus (s : State) : Nat :=
  modeOf s + bitsAt s.gus.cause 4 + bitsAt s.gus.first 8 + bitsAt s.gus.lost.toNat 12

/-- XL_CFG (03 Table 3-3). -/
def xlCfg (s : State) : Nat :=
  s.links.enable.toNat + bitsAt s.links.devid.toNat 8 + bitsAt s.links.domain.toNat 24

/-- XL_LINKUP (03 Table 3-4). -/
def linkUps (s : State) : Nat :=
  ((List.range 18).filter fun i => (vget s.links.ual i ⟨false, 0, 0, 0⟩).up).foldl (fun a i => a + 2 ^ i) 0
    + bitsAt (portUp s .a).toNat 18 + bitsAt (portUp s .b).toNat 19

/-- MG_PWR_CAP (01 Table 1-3). -/
def pwrCapReg (s : State) : Nat :=
  s.mgmt.pwrCap + bitsAt s.mgmt.pwrCause 12 + bitsAt (s.mgmt.aclk * 125 / 2) 20

/-- MG_FR_LOST (05 R93). -/
def frLostReg (s : State) : Nat :=
  (List.range 4).foldl (fun a g => a + bitsAt (vget s.mgmt.frLost g 0) (16 * g)) 0

/-! ## The health page (05 R89, R90) -/

/-- The average input power of the last 10 ms. DESIGN CHOICE (log entry 133): in whole watts without the fraction. -/
def averageWatts (m : Mgmt) : Nat := if m.samples.isEmpty then 0 else wattSum m / m.samples.length

/-- A temperature as a signed byte (05 Table 5-1); the byte of one that no such byte holds is free (log entry 133). -/
def signedByte (x : Int) : Byte := if -128 ≤ x ∧ x ≤ 127 then BitVec.ofInt 8 x else Config.tempByte x

/-- The entry of a UAL port (05 Table 5-1); 0 while its link is down. -/
def ualEntry (u : UalPort) : Nat := if u.up then 1 + bitsAt u.port 8 + bitsAt u.dev 16 + bitsAt u.domain 32 else 0

/-- The fields of the page from TIME on, at their offsets (05 Table 5-1). -/
def healthFields (s : State) : List (Nat × List Byte) :=
  let t := s.mgmt.temps
  [(0x008, natBytes 8 (micros s)), (0x010, natBytes 8 (gusStatus s)),
   (0x018, natBytes 8 (xlCfg s + bitsAt (linkUps s) 32)),
   (0x020, natBytes 8 (pwrCapReg s + bitsAt (averageWatts s.mgmt) 48)),
   (0x028, (List.range 8).map fun p => BitVec.ofNat 8 (partState s p)),
   (0x030, natBytes 8 ((List.range 32).foldl (fun a c =>
     a + bitsAt (vget s.clusters c cluster0).fenced.toNat (2 * c)) 0)),
   (0x038, [t.inlet, t.cd0, t.cd1, t.cd2, t.cd3, t.iod, Temps.hottest t].map signedByte)]
  ++ (List.range 18).map (fun n => (0x080 + 8 * n, natBytes 8 (ualEntry (vget s.links.ual n ⟨false, 0, 0, 0⟩))))
  ++ [(0x200, natBytes 8 s.gus.cntCorr), (0x208, natBytes 8 s.gus.cntUncorr), (0x210, natBytes 8 s.gus.cntRecon),
      (0x218, natBytes 8 s.gus.cntRfail), (0x220, natBytes 8 s.gus.cntSubst), (0x228, natBytes 8 s.gus.cntOpenwait),
      (0x230, natBytes 8 s.gus.cntNocmp), (0x238, natBytes 8 s.links.cntBypass), (0x240, natBytes 8 s.links.cntRetry),
      (0x248, natBytes 8 s.links.cntDup), (0x250, natBytes 8 s.links.cntLate)]
  ++ (List.range 5).map (fun g => (0x258 + 8 * g, natBytes 8 (vget s.mgmt.records g 0)))
  ++ [(0x280, natBytes 8 (frLostReg s)), (0x2C0, s.mgmt.g4.getD [])]

/-- The page as memory, without GEN; what no field covers reads 0. -/
def healthPage (s : State) : Memory := (healthFields s).foldl (fun m f => m.write f.1 f.2) []

/-- HEALTH_REFRESH: every 10 ms a refresh begins, with GEN odd; the next time it has written the page and GEN is even (05
R90). -/
def execHealthRefresh (s : State) : Host.Outcome State Fault Refusal :=
  if s.mgmt.gen % 2 = 1 then
    .next (updMgmt s fun m => { m with gen := (m.gen + 1) % 2 ^ 64, health := healthPage s })
  else if s.mgmt.lastHealth + 10 * msFs ≤ s.fs then
    .next (updMgmt s fun m => { m with gen := m.gen + 1, lastHealth := s.fs })
  else .fault .notEnabled

/-! ## Drain and partitions (05 R91, R92, 06 R99) -/

/-- DRAIN of MG_PART_CTLp is written. -/
def writeDrain (s : State) (p : Nat) (on : Bool) : State :=
  if on then (if (partAt s p).drain then s else settlePart (updPart s p fun x => { x with drain := true, drained := false }) p)
  else updPart s p fun x => { x with drain := false, drained := false }

/-- DRAIN_SET (05 Table 5-3). -/
def execDrainSet (part : BitVec 3) (s : State) : Host.Outcome State Fault Refusal :=
  anyWrite s fun s => writeDrain s part.toNat true

/-- DRAIN_CLEAR (05 Table 5-3). -/
def execDrainClear (part : BitVec 3) (s : State) : Host.Outcome State Fault Refusal :=
  anyWrite s fun s => writeDrain s part.toNat false

/-- A write of MG_PART_CLUSp is ignored: it names a cluster of another partition, or a panel of this one is staging,
running, retiring or saved (06 R99). -/
def clusRefused (s : State) (p : Nat) (w : Word) : Bool :=
  (List.range 8).any (fun q => q != p && (partAt s q).clus &&& w != 0) || s.panels.any fun x => x.hdr.part == p

/-- MG_PART_CLUSp is written. -/
def writeClus (s : State) (p : Nat) (v : DWord) : State :=
  if clusRefused s p (v.setWidth 32) then s else updPart s p fun x => { x with clus := v.setWidth 32 }

/-- MG_PART_CLUS_WRITE (06 R99). -/
def execMgPartClusWrite (part : BitVec 3) (v : DWord) (s : State) : Host.Outcome State Fault Refusal :=
  anyWrite s fun s => writeClus s part.toNat v

/-- MG_PREEMPT_CTLp takes its fields. -/
def storePreempt (s : State) (p : Nat) (v : DWord) : State :=
  updPart s p fun x => { x with halt := v.getLsbD 32, gap := max 1 (fieldOf v 21 16), lat := fieldOf v 15 0 }

/-- MG_PREEMPT_CTLp is written with its HALT: its fields are stored and PreemptCheck runs (06 R111, R118). -/
def writePreempt (s : State) (p : Nat) (v : DWord) : State := preemptCheck (storePreempt s p v) p

/-- PREEMPT_HALT: a write of MG_PREEMPT_CTLp with HALT = 1. -/
def execPreemptHalt (part : BitVec 3) (v : DWord) (s : State) : Host.Outcome State Fault Refusal :=
  if v.getLsbD 32 then anyWrite s fun s => writePreempt s part.toNat v else .fault .notEnabled

/-- PREEMPT_RESUME: a write of MG_PREEMPT_CTLp with HALT = 0. -/
def execPreemptResume (part : BitVec 3) (v : DWord) (s : State) : Host.Outcome State Fault Refusal :=
  if v.getLsbD 32 then .fault .notEnabled else anyWrite s fun s => writePreempt s part.toNat v

/-! ## Fault records (05 R93 to R95) -/

/-- The values that the fields of a record take (05 Table 5-4). -/
def recordFields (r : FaultRec) : Bool :=
  decide (r.grade ≤ 4 ∧ 1 ≤ r.source.toNat ∧ r.source.toNat ≤ 7) && (decide (r.part.toNat < 8) || r.part == 0xFF)
    && (decide (r.core.toNat < 512) || r.core == 0xFFFF) && (decide (r.asid.toNat < 1024) || r.asid == 0xFFFF)
    && (decide (r.stack.toNat < 12) || r.stack == 0xFF) && (decide (r.port.toNat < 20) || r.port == 0xFF)

/-- A record that names a hardware fault in a cluster names one of its units, with the core that R386 gives. -/
def unitNamed (r : FaultRec) : Bool :=
  !namesCluster r || (decide (r.detail.toNat ≤ 4) && (r.detail == 0 || r.core.toNat % 16 == 0))

/-- FAULT_RECORD_WRITE: the device records a fault that it has found (05 R93, R386). -/
def execFaultRecordWrite (r : FaultRec) (s : State) : Host.Outcome State Fault Refusal :=
  if recordFields r && unitNamed r then .next (addRecord s r) else .fault .notEnabled

/-- MG_FR_LOST is written. -/
def clearLost (s : State) : State := updMgmt s fun m => { m with frLost := Vector.replicate 4 0 }

/-- MG_FR_LOST_CLEAR (05 R95). -/
def execMgFrLostClear (s : State) : Host.Outcome State Fault Refusal := anyWrite s clearLost

/-- MG_G4_CLEAR is written (05 R94). -/
def writeG4Clear (s : State) (v : DWord) : State :=
  if v = 0xA5 && s.mgmt.g4Served then updMgmt s fun m => { m with g4 := none, g4Served := false } else s

/-- MG_G4_CLEAR_WRITE (05 R94). -/
def execMgG4ClearWrite (p : Port) (v : DWord) (s : State) : Host.Outcome State Fault Refusal :=
  regWrite s p fun s => writeG4Clear s v

/-! ## Attestation (05 R98) -/

/-- Bytes cut or padded with zeros to a length. -/
def fitTo (n : Nat) (bs : List Byte) : List Byte := (bs ++ List.replicate n 0).take n

/-- The nonce as bytes. -/
def nonceBytes (m : Mgmt) : List Byte := m.attNonce.toList.flatMap fun w => natBytes 8 w.toNat

/-- MG_ATT_CTL is written: GO starts a report over the nonce as it stands; while BUSY is 1 it is ignored. -/
def writeAttCtl (s : State) (v : DWord) : State :=
  if v.getLsbD 0 && !s.mgmt.attBusy then updMgmt s fun m => { m with attBusy := true, attUsed := nonceBytes m } else s

/-- ATTESTATION_START (05 R98). -/
def execAttestationStart (p : Port) (v : DWord) (s : State) : Host.Outcome State Fault Refusal :=
  regWrite s p fun s => writeAttCtl s v

/-- The report but for its signature. DESIGN CHOICE (log entry 113): the security version and the registers in it are eight bytes each,
the lowest first. -/
def reportBody (s : State) : List Byte :=
  s.mgmt.attUsed ++ fitTo 16 Config.serial ++ imageDigest s.mgmt.fwVersion s.mgmt.fwBytes
    ++ fitTo 32 Config.romDigest ++ natBytes 8 s.mgmt.fwVersion ++ natBytes 8 Config.devInfo ++ natBytes 8 (gusStatus s)
    ++ natBytes 8 (xlCfg s) ++ fitTo 1312 Config.publicKey

/-- ATTESTATION_DONE: the signed report is in the window. DESIGN CHOICE (log entry 113): GUS_STATUS and XL_CFG are those of this
moment, and until it the window shows the report before. -/
def execAttestationDone (s : State) : Host.Outcome State Fault Refusal :=
  if s.mgmt.attBusy then
    let body := reportBody s
    let signature := fitTo 2420 (Config.sign s.free (sha3_256 body))
    let s1 := updMgmt s fun m => { m with attBusy := false, attUsed := [], attReport := body ++ signature }
    .next { s1 with free := s.free + 1 }
  else .fault .notEnabled

end Sys2Proof.Machine
end

