-- ==== Sys2Proof/Machine/Bar0.lean ====
section
/-! DEFINITION. The BAR0 map: what every register reads as, and what a write of it does (03 R49, R56, 04 R66 to R70, R83,
R84, R87, 02 R42, 05 R95, R96). -/

namespace Sys2Proof.Machine

open Sys2Proof

/-! ## The map (03 Table 3-5) -/

/-- A register of BAR0. -/
inductive RegId where
  | asidBase | fqBase | fqCtl | fqResp | inval | devInfo
  | hqBase (q : Nat) | hqCpl (q : Nat) | hqTail (q : Nat) | hqHead (q : Nat) | hqCtl (q : Nat) | hqStatus (q : Nat)
  | semAcq (n : Nat) | semPeek (n : Nat)
  | gusStatus | gusDeclare | gusCnt (c : GusCounter) | gusXpool | gusXpoolBase
  | mgReset | pwrCap | partCtl (p : Nat) | partClus (p : Nat) | preemptCtl (p : Nat) | saveBase (p : Nat)
  | frBase | frCtl | frLost | g4Clear | attCtl | attNonce (k : Nat) | attReport (at_ : Nat)
  | xlCfg | xlTimeout | xlLinkup | bar2Base | xlWin (k : Nat) | xlCnt (c : XlCounter) | xlRoute (d : Nat)
  | health (at_ : Nat)
deriving DecidableEq, Repr

/-- A register of queue `q`, by its offset (04 Table 4-3). -/
def queueReg (q k : Nat) : Option RegId :=
  match k with
  | 0x00 => some (.hqBase q)
  | 0x08 => some (.hqCpl q)
  | 0x10 => some (.hqTail q)
  | 0x18 => some (.hqHead q)
  | 0x20 => some (.hqCtl q)
  | 0x28 => some (.hqStatus q)
  | _ => none

/-- A register of the HQ block. -/
def hqReg (o : Nat) : Option RegId :=
  if 0x10000 ≤ o ∧ o < 0x14000 then queueReg ((o - 0x10000) / 0x40) ((o - 0x10000) % 0x40)
  else match o with
    | 0x00 => some .asidBase
    | 0x08 => some .fqBase
    | 0x10 => some .fqCtl
    | 0x18 => some .fqResp
    | 0x20 => some .inval
    | 0x28 => some .devInfo
    | _ => none

/-- A register of the SEM block (04 Table 4-1). -/
def semReg (o : Nat) : Option RegId :=
  if o < 0x100 then some (.semAcq (o / 8)) else if o < 0x200 then some (.semPeek (o / 8 - 32)) else none

/-- A register of the GUS block (02 Table 2-5). -/
def gusReg (o : Nat) : Option RegId :=
  match o with
  | 0x00 => some .gusStatus
  | 0x08 => some .gusDeclare
  | 0x10 => some (.gusCnt .corr)
  | 0x18 => some (.gusCnt .uncorr)
  | 0x20 => some (.gusCnt .recon)
  | 0x28 => some (.gusCnt .rfail)
  | 0x30 => some (.gusCnt .subst)
  | 0x38 => some (.gusCnt .openwait)
  | 0x40 => some (.gusCnt .nocmp)
  | 0x48 => some .gusXpool
  | 0x50 => some .gusXpoolBase
  | _ => none

/-- A register of the MG block (05 Table 5-6). -/
def mgReg (o : Nat) : Option RegId :=
  if 0x100 ≤ o ∧ o < 0x140 then some (.partCtl ((o - 0x100) / 8))
  else if 0x140 ≤ o ∧ o < 0x180 then some (.partClus ((o - 0x140) / 8))
  else if 0x180 ≤ o ∧ o < 0x1C0 then some (.preemptCtl ((o - 0x180) / 8))
  else if 0x1C0 ≤ o ∧ o < 0x200 then some (.saveBase ((o - 0x1C0) / 8))
  else if 0x308 ≤ o ∧ o < 0x328 then some (.attNonce ((o - 0x308) / 8))
  else if 0x1000 ≤ o ∧ o < 0x2000 then some (.attReport (o - 0x1000))
  else match o with
    | 0x000 => some .mgReset
    | 0x040 => some .pwrCap
    | 0x200 => some .frBase
    | 0x208 => some .frCtl
    | 0x210 => some .frLost
    | 0x218 => some .g4Clear
    | 0x300 => some .attCtl
    | _ => none

/-- A register of the XL block (03 Table 3-4). -/
def xlReg (o : Nat) : Option RegId :=
  if 0x40 ≤ o ∧ o < 0x80 then some (.xlWin ((o - 0x40) / 8))
  else if 0x1000 ≤ o ∧ o < 0x1D80 then some (.xlRoute ((o - 0x1000) / 8))
  else match o with
    | 0x000 => some .xlCfg
    | 0x008 => some .xlTimeout
    | 0x010 => some .xlLinkup
    | 0x018 => some .bar2Base
    | 0x100 => some (.xlCnt .bypass)
    | 0x108 => some (.xlCnt .retry)
    | 0x110 => some (.xlCnt .dup)
    | 0x118 => some (.xlCnt .late)
    | _ => none

/-- The register at a BAR0 offset that is a multiple of 8. -/
def regAt (o : Nat) : Option RegId :=
  if o < 0x100000 then hqReg o
  else if o < 0x200000 then semReg (o - 0x100000)
  else if o < 0x300000 then gusReg (o - 0x200000)
  else if o < 0x400000 then mgReg (o - 0x300000)
  else if o < 0x500000 then xlReg (o - 0x400000)
  else if 0x3FF0000 ≤ o ∧ o < 0x3FF1000 then some (.health (o - 0x3FF0000))
  else none

/-! ## Reading -/

/-- STATE of HQ_STATUS (04 Table 4-5). -/
def qstateCode : QState → Nat
  | .disabled => 0
  | .idle => 1
  | .running => 2
  | .error => 3

/-- HQ_CTL (04 Table 4-4). -/
def hqCtlReg (x : Queue) : Nat :=
  x.asid + bitsAt x.prio 15 + bitsAt x.part 21 + bitsAt x.enable.toNat 24 + bitsAt (portNo x.port) 25 + bitsAt x.size 26

/-- HQ_STATUS (04 Table 4-5). -/
def hqStatusReg (x : Queue) : Nat := qstateCode x.state + bitsAt x.stCode 8 + bitsAt x.stIndex.toNat 32

/-- SIZE and the indices of a record ring (04 R84, 05 R93). -/
def ringCtl (size prod cons : Nat) : Nat := bitsAt size 12 + bitsAt prod 16 + bitsAt cons 32

/-- MG_PART_CTLp (05 Table 5-2). -/
def partCtlReg (s : State) (p : Nat) : Nat :=
  (partAt s p).drain.toNat + bitsAt (partState s p) 1 + bitsAt (liveOf s p) 8

/-- HALTED of a partition (06 Table 6-4). -/
def halted (s : State) (p : Nat) : Bool := (partAt s p).halt && (liveOnCores s p).isEmpty

/-- MG_PREEMPT_CTLp (06 Table 6-4). -/
def preemptReg (s : State) (p : Nat) : Nat :=
  let x := partAt s p
  x.lat + bitsAt x.gap 16 + bitsAt x.halt.toNat 32 + bitsAt (halted s p).toNat 33

/-- MG_SAVE_BASEp (06 Table 6-7). -/
def saveReg (x : Part) : Nat := x.saveSlots + x.saveBase + bitsAt x.saveEnable.toNat 63

/-- A gusset counter. -/
def gusCntOf (g : Gusset) : GusCounter → Nat
  | .corr => g.cntCorr
  | .uncorr => g.cntUncorr
  | .recon => g.cntRecon
  | .rfail => g.cntRfail
  | .subst => g.cntSubst
  | .openwait => g.cntOpenwait
  | .nocmp => g.cntNocmp

/-- An XL counter. -/
def xlCntOf (l : Links) : XlCounter → Nat
  | .bypass => l.cntBypass
  | .retry => l.cntRetry
  | .dup => l.cntDup
  | .late => l.cntLate

/-- What a register reads as, outside a device reset; a read of SEM_ACQn has an effect of its own (04 R67). -/
def regValue (s : State) : RegId → Nat
  | .asidBase => s.asidBase.toNat
  | .fqBase => s.fqBase.toNat
  | .fqCtl => ringCtl s.fqSize s.fqProd s.fqCons
  | .fqResp => 0
  | .inval => bitsAt s.inval.isSome.toNat 63
  | .devInfo => Config.devInfo
  | .hqBase q => (queueAt s q).base.toNat
  | .hqCpl q => (queueAt s q).cplBase.toNat
  | .hqTail q => (queueAt s q).tail.toNat
  | .hqHead q => (queueAt s q).head.toNat
  | .hqCtl q => hqCtlReg (queueAt s q)
  | .hqStatus q => hqStatusReg (queueAt s q)
  | .semAcq n => (semOwner s n).toNat
  | .semPeek n => (semOwner s n).toNat
  | .gusStatus => Machine.gusStatus s
  | .gusDeclare => 0
  | .gusCnt c => gusCntOf s.gus c
  | .gusXpool => s.gus.xpProd + bitsAt s.gus.xpCons 16 + bitsAt s.gus.xpSize 32
  | .gusXpoolBase => s.gus.xpBase.toNat
  | .mgReset => bitsAt s.mgmt.resetDone.toNat 1
  | .pwrCap => pwrCapReg s
  | .partCtl p => partCtlReg s p
  | .partClus p => (partAt s p).clus.toNat
  | .preemptCtl p => preemptReg s p
  | .saveBase p => saveReg (partAt s p)
  | .frBase => s.mgmt.frBase.toNat
  | .frCtl => ringCtl s.mgmt.frSize s.mgmt.frProd s.mgmt.frCons
  | .frLost => frLostReg s
  | .g4Clear => 0
  | .attCtl => bitsAt s.mgmt.attBusy.toNat 1
  | .attNonce k => (vget s.mgmt.attNonce k 0).toNat
  | .attReport a => bytesNat (fitTo 8 (s.mgmt.attReport.drop a))
  | .xlCfg => Machine.xlCfg s
  | .xlTimeout => s.links.timeout
  | .xlLinkup => linkUps s
  | .bar2Base => s.links.bar2Base
  | .xlWin k => (vget s.links.win k 0).toNat
  | .xlCnt c => xlCntOf s.links c
  | .xlRoute d => (s.links.route.getD d 0).toNat
  | .health a => if a = 0 then s.mgmt.gen else s.mgmt.health.readNat a 8

/-- What a register reads as: while a device reset is in progress every register but MG_RESET reads 0 (05 R96). -/
def readReg (s : State) (r : RegId) : Nat := if s.mgmt.resetDone || r == .mgReset then regValue s r else 0

/-- A read of BAR0 of a register with no effect of its own (03 R49): the bytes at an offset, 0 for an access of another
size or alignment and where no register is. -/
def readBar0 (s : State) (off : Nat) (size : AccSize) : Nat :=
  let part := fun (n : Nat) =>
    if off % n ≠ 0 then 0
    else match regAt (off / 8 * 8) with
      | some r => readReg s r / 2 ^ (8 * (off % 8)) % 2 ^ (8 * n)
      | none => 0
  match size with
  | .four => part 4
  | .eight => part 8
  | .other _ => 0

/-! ## Writing -/

/-- The bits of a ring base that exist (04 Table 4-3). -/
def baseBits (v : DWord) : DWord := v &&& 0x81FFFFFFFFFFF000

/-- SIZE of a record ring, held to 4 to 12. -/
def ringSize (v : DWord) : Nat := min 12 (max 4 (fieldOf v 15 12))

/-- MG_SAVE_BASEp is written. -/
def writeSaveBase (v : DWord) (x : Part) : Part :=
  { x with saveEnable := v.getLsbD 63, saveBase := fieldOf v 40 16 * 2 ^ 16, saveSlots := fieldOf v 7 0 }

/-- The fault ring takes what waits for it. -/
def settleRing (s : State) : State := frFlush 65 s

/-- What a whole write of a register does; a register that is only read ignores it. DESIGN CHOICE (log entry 119): bits [62:60] of
XL_WINn read 0, and what is written there is ignored. -/
def writeReg (s : State) (p : Port) (v : DWord) : RegId → State
  | .asidBase => { s with asidBase := v }
  | .fqBase => fqSettle { s with fqBase := baseBits v, fqWritten := true }
  | .fqCtl => fqSettle { s with fqSize := ringSize v, fqCons := fieldOf v 47 32 }
  | .fqResp => answerFault s v
  | .inval => { endInval s with inval := some v }
  | .hqBase q => updQueue s q fun x => { x with base := baseBits v }
  | .hqCpl q => updQueue s q fun x => { x with cplBase := baseBits v }
  | .hqTail q => writeTail s q v
  | .hqCtl q => writeCtl s q v
  | .semAcq n => if v.getLsbD 0 && semOwner s n == ownerCode p then { s with sems := vset s.sems n 0 } else s
  | .gusDeclare =>
    if fieldOf v 63 16 = 0 ∧ fieldOf v 15 8 = 0xA5 ∧ fieldOf v 7 4 = 0 then declareLoss s (fieldOf v 3 0) 3 else s
  | .gusCnt c => { s with gus := clearGus s.gus c }
  | .gusXpool => poolWritten s v
  | .gusXpoolBase => { s with gus := { s.gus with xpBase := v } }
  | .mgReset => if v.getLsbD 0 then requestReset s else s
  | .pwrCap => updMgmt s fun m => { m with pwrCap := clampCap (fieldOf v 11 0) }
  | .partCtl n => writeDrain s n (v.getLsbD 0)
  | .partClus n => writeClus s n v
  | .preemptCtl n => writePreempt s n v
  | .saveBase n => updPart s n (writeSaveBase v)
  | .frBase => settleRing (updMgmt s fun m => { m with frBase := baseBits v, frWritten := true })
  | .frCtl => settleRing (updMgmt s fun m => { m with frSize := ringSize v, frCons := fieldOf v 47 32 })
  | .frLost => clearLost s
  | .g4Clear => writeG4Clear s v
  | .attCtl => writeAttCtl s v
  | .attNonce k => updMgmt s fun m => { m with attNonce := vset m.attNonce k v }
  | .xlCfg => { s with links := writeXlCfg s.links v }
  | .xlTimeout => { s with links := writeXlTimeout s.links v }
  | .bar2Base => { s with links := { s.links with bar2Base := fieldOf v 40 16 * 2 ^ 16 } }
  | .xlWin k => { s with links := { s.links with win := vset s.links.win k (v &&& 0x8FFFFFFFFFFFFFFF) } }
  | .xlCnt c => { s with links := clearXl s.links c }
  | .xlRoute d => { s with links := { s.links with route := s.links.route.set d (v.setWidth 18) } }
  | .devInfo | .hqHead _ | .hqStatus _ | .semPeek _ | .gusStatus | .attReport _ | .xlLinkup | .health _ => s

/-- Registers whose writes do more than store a value: a 4-byte write acts as an 8-byte write whose other half is 0 (03
R49). -/
def actsWhole : RegId → Bool
  | .hqTail _ | .hqCtl _ | .semAcq _ | .gusCnt _ | .xlCnt _ | .gusDeclare | .inval | .fqResp | .mgReset | .g4Clear
  | .attCtl => true
  | _ => false

/-- The value that a 4-byte write writes: with the other half of the register as it stands, or 0. The half of GUS_XPOOL is as the
writes of it that wait will leave it (02 R46). -/
def halfValue (s : State) (r : RegId) (high : Bool) (v : DWord) : DWord :=
  let w := v.toNat % 2 ^ 32
  let old := if actsWhole r then 0 else if r == .gusXpool then readReg { s with gus := poolAhead s.gus } r else readReg s r
  BitVec.ofNat 64 (if high then old % 2 ^ 32 + w * 2 ^ 32 else old / 2 ^ 32 * 2 ^ 32 + w)

/-- A 4-byte write of a register (03 R49): one of the lower half of MG_PREEMPT_CTLp writes no HALT, so that PreemptCheck does not
run (06 R111). -/
def writeHalf (s : State) (p : Port) (r : RegId) (high : Bool) (v : DWord) : State :=
  match r, high with
  | .preemptCtl n, false => storePreempt s n (halfValue s r false v)
  | _, _ => writeReg s p (halfValue s r high v) r

/-- A write of BAR0 (03 R49): an offset that no register has and an access that is not aligned are ignored. -/
def writeBar0 (s : State) (p : Port) (off : Nat) (size : AccSize) (v : DWord) : State :=
  match regAt (off / 8 * 8) with
  | none => s
  | some r =>
    if !(s.mgmt.resetDone || r == .mgReset) then s
    else match size with
      | .eight => if off % 8 = 0 then writeReg s p v r else s
      | .four => if off % 4 = 0 then writeHalf s p r (off % 8 == 4) v else s
      | .other _ => s

/-- REGISTER_WRITE: a host write of a register through BAR0 (03 R49, 04 R66); GUS_DECLARE comes after the host writes
before it, as in GUS_DECLARE_WRITE. -/
def execRegisterWrite (p : Port) (off : Nat) (size : AccSize) (v : DWord) (s : State) :
    Host.Outcome State Fault Refusal :=
  if regAt (off / 8 * 8) == some .gusDeclare && hostWriteAhead s p then .fault .notEnabled
  else if portServes s p then .next (writeBar0 s p off size v)
  else .fault .notEnabled

end Sys2Proof.Machine
end

