-- ==== Sys2Proof/Machine/Sync.lean ====
section
/-! DEFINITION. Seams, panel-slot barriers, sleeves, phases and fences, register states, working sets and spills,
containment regions and tensor ids, major opcodes 0xF0 to 0xFC (chapter 22). -/

namespace Sys2Proof.Machine

open Sys2Proof

/-! ## Seams and panel-slot barriers -/

/-- Seam `i` as it stands. -/
def seamOf (s : State) (pid i : Nat) : Seam := ((getPanel s pid).map fun p => vget p.seams i seam0).getD seam0

/-- Change a seam. -/
def Ctx.updSeam (x : Ctx) (i : Nat) (f : Seam → Seam) (s : State) : State :=
  x.updP (fun p => { p with seams := vset p.seams i (f (vget p.seams i seam0)) }) s

/-- JOIN (07 R134, 22 R347): the active lanes become members. -/
def execJoin (c : Ctl) (i : BitVec 4) (s : State) : Host.Outcome State Fault Refusal :=
  runInstr (.join c i) (fun x t =>
    if x.act = 0 then .ok t
    else .ok (x.updSeam i.toNat (fun k => { k with
      members := setLanes k.members x.gi (lanesIn k.members x.gi ||| x.act) }) t)) s

/-- LEAVE (07 R134, R135): the active lanes are members no longer, which can trip the seam. -/
def execLeave (c : Ctl) (i : BitVec 4) (s : State) : Host.Outcome State Fault Refusal :=
  runInstr (.leave c i) (fun x t =>
    if x.act = 0 then .ok t
    else .ok (x.updP (tripSeam i.toNat) (x.updSeam i.toNat (fun k => k.drop x.gi x.act) t))) s

/-- The non-exited lanes of the fragment. -/
def Ctx.liveLanes (x : Ctx) : Word := lanesOf (x.e.slices &&& ~~~x.g.exited)

/-- SEAMBAR (07 R135, 22 R347): the fragment's member lanes arrive, and the seam trips or the fragment blocks. -/
def execSeambar (c : Ctl) (i : BitVec 4) (s : State) : Host.Outcome State Fault Refusal :=
  runInstr (.seambar c i) (fun x t => do
    let k := seamOf t x.pid i.toNat
    let mine := lanesIn k.members x.gi &&& x.liveLanes
    check (mine != 0) cSeam (i.setWidth 64)
    let k1 : Seam := { k with arrived := setLanes k.arrived x.gi (lanesIn k.arrived x.gi ||| mine) }
    let t1 := x.updSeam i.toNat (fun _ => k1) t
    if k1.a = k1.m then .ok (x.updP (tripSeam i.toNat) t1) else .error (.park t1 (.seam i.toNat))) s

/-- A fragment of the gang waits at another BARW slot (07 R136). -/
def waitsElsewhere (p : Panel) (gi b : Nat) : Bool :=
  (List.range 16).any fun j => j != b && waitingAt (vget p.barw j barw0) gi != 0

/-- BARW (07 R136, 22 R348). The fragment goes on when its gang is among those that a trip releases. -/
def execBarw (c : Ctl) (b : BitVec 4) (n : BitVec 6) (s : State) : Host.Outcome State Fault Refusal :=
  runInstr (.barw c b n) (fun x t => do
    let k := vget x.p.barw b.toNat barw0
    check (decide (1 ≤ n.toNat ∧ n.toNat ≤ 32)) cBarrier (b.setWidth 64)
    check (k.count.all fun m => m == n.toNat) cBarrier (b.setWidth 64)
    check (!waitsElsewhere x.p x.gi b.toNat) cBarrier (b.setWidth 64)
    let k1 : Barw := ⟨some n.toNat, k.waiting ++ [(x.gi, x.e.slices &&& ~~~x.g.exited)]⟩
    let t1 := x.updP (fun p => { p with barw := vset p.barw b.toNat k1 }) t
    if n.toNat ≤ arrivals x.p k1 then
      let t2 := x.updP (tripBarw b.toNat) t1
      if gangArrived x.p k1 x.gi then .ok t2 else .error (.park t2 (.barw b.toNat))
    else .error (.park t1 (.barw b.toNat))) s

/-! ## Sleeves -/

/-- Change a sleeve. -/
def Ctx.updSleeve (x : Ctx) (n : Nat) (f : Sleeve → Sleeve) (s : State) : State :=
  x.updP (fun p => { p with sleeves := vset p.sleeves n (f (vget p.sleeves n sleeve0)) }) s

/-- A sleeve as it stands. -/
def Ctx.sleeve (x : Ctx) (n : Nat) : Sleeve := vget x.p.sleeves n sleeve0

/-- SLEEVE with the sleeve number (22 R353). -/
def sleeveCheck (c : Bool) (n : BitVec 4) : Except Stop Unit := check c cSleeve (n.setWidth 64)

/-- The panel has the sleeve, and SLVINIT has run on it (22 R353). -/
def Ctx.sleeveReady (x : Ctx) (n : BitVec 4) : Except Stop Unit :=
  sleeveCheck (decide (n.toNat < x.p.hdr.nSleeves) && (x.sleeve n.toNat).init) n

/-- Some fragment of the panel waits as `b`. -/
def someWaits (p : Panel) (b : Block) : Bool := p.gangs.any fun g => g.split.any fun e => e.valid && e.blk == some b

/-- Block on a sleeve unless it allows the act; a fragment that has not waited goes behind those that wait (22 R353). -/
def Ctx.sleeveWait (x : Ctx) (ok : Bool) (b : Block) : Except Stop Unit :=
  if ok && (x.e.blk == some b || !someWaits x.p b) then .ok () else .error (.block b)

/-- The address of a handle (22 R349). -/
def Sleeve.addr (v : Sleeve) (i : Nat) : Nat := v.base + 8 * (i % v.d)

/-- An index counts modulo 2^32. -/
def idxNext (i : Nat) : Nat := (i + 1) % 2 ^ 32

/-- SLVINIT (22 R349). -/
def execSlvinit (c : Ctl) (n : BitVec 4) (a : Reg) (s : State) : Host.Outcome State Fault Refusal :=
  runInstr (.slvinit c n a) (fun x t => do
    let v := (x.sLow a).toNat
    let base : Nat := v % 2 ^ 20
    let d := v / 2 ^ 20 % 32 + 1
    let old := x.sleeve n.toNat
    alignCheck base 8
    x.rangeCheck base (8 * d)
    sleeveCheck (decide (n.toNat < x.p.hdr.nSleeves) && v / 2 ^ 25 == 0) n
    sleeveCheck (old.t == old.g && !someWaits x.p (.sleevePush n.toNat) && !someWaits x.p (.sleevePop n.toNat)) n
    .ok (x.updSleeve n.toNat (fun _ => ⟨true, base, d, 0, 0, 0⟩) t)) s

/-- SLVPUSH (22 R350). -/
def execSlvpush (c : Ctl) (n : BitVec 4) (a : Reg) (s : State) : Host.Outcome State Fault Refusal :=
  runInstr (.slvpush c n a) (fun x t => do
    x.sleeveReady n
    sleeveCheck (!(x.sLow a).msb) n
    let v := x.sleeve n.toNat
    x.sleeveWait (decide (0 < v.allowance)) (.sleevePush n.toNat)
    let t1 := updSp t x.pid fun m => m.writeNat (v.addr v.t) 8 (x.sLow a).toNat
    x.stored [(v.addr v.t, 8)] (x.updSleeve n.toNat (fun v => { v with t := idxNext v.t }) t1)) s

/-- Take the handle of slot H mod D (22 Table 22-3). -/
def Ctx.takeHandle (x : Ctx) (n : Nat) (d : Reg) (s : State) : State :=
  let v := x.sleeve n
  let h := BitVec.ofNat 64 ((spOf s x.pid).readNat (v.addr v.h) 8)
  x.setS d (fun _ => h) (x.updSleeve n (fun v => { v with h := idxNext v.h }) s)

/-- SLVPOP (22 R351). -/
def execSlvpop (c : Ctl) (n : BitVec 4) (d : Reg) (s : State) : Host.Outcome State Fault Refusal :=
  runInstr (.slvpop c n d) (fun x t => do
    x.sleeveReady n
    x.sleeveWait (x.sleeve n.toNat).full (.sleevePop n.toNat)
    .ok (x.takeHandle n.toNat d t)) s

/-- SLVTRY (22 R351). -/
def execSlvtry (c : Ctl) (n : BitVec 4) (d : Reg) (s : State) : Host.Outcome State Fault Refusal :=
  runInstr (.slvtry c n d) (fun x t => do
    x.sleeveReady n
    if (x.sleeve n.toNat).full then .ok (x.takeHandle n.toNat d t)
    else .ok (x.setS d (fun _ => 0xFFFFFFFFFFFFFFFF) t)) s

/-- SLVGRANT (22 R352). -/
def execSlvgrant (c : Ctl) (n : BitVec 4) (s : State) : Host.Outcome State Fault Refusal :=
  runInstr (.slvgrant c n) (fun x t => do
    x.sleeveReady n
    sleeveCheck ((x.sleeve n.toNat).g != (x.sleeve n.toNat).h) n
    .ok (x.updSleeve n.toNat (fun v => { v with g := idxNext v.g }) t)) s

/-! ## Phases and fences -/

/-- SYSTEM scope (09 Table 9-1). -/
def isSystem (scope : BitVec 3) : Bool := scope == 5

/-- PHASE.ACQ (09 R159). -/
def execPhaseAcq (c : Ctl) (scope : BitVec 3) (s : State) : Host.Outcome State Fault Refusal :=
  runInstr (.phaseAcq c scope) (fun x t => .ok (acquireAt x.p.core scope.toNat t)) s

/-- PHASE.REL (09 R158). -/
def execPhaseRel (c : Ctl) (scope : BitVec 3) (s : State) : Host.Outcome State Fault Refusal :=
  runInstr (.phaseRel c scope) (fun x t => x.releaseThen (isSystem scope) .ok t) s

/-- PHASE.AR (22 R354). -/
def execPhaseAr (c : Ctl) (scope : BitVec 3) (s : State) : Host.Outcome State Fault Refusal :=
  runInstr (.phaseAr c scope) (fun x t =>
    x.releaseThen (isSystem scope) (fun u => .ok (acquireAt x.p.core scope.toNat u)) t) s

/-- A class of a mask has batches that are sealed and not complete. -/
def fenceBusy (g : Gang) (m : BitVec 5) : Bool := allClasses.any fun c => inMask m c && counterOf g c != 0

/-- FENCE (22 R355). -/
def execFence (c : Ctl) (mask : BitVec 5) (s : State) : Host.Outcome State Fault Refusal :=
  runInstr (.fence c mask) (fun x t => do
    let (t1, bounds) ← x.sealOnce mask t
    if ((getGang t1 x.pid x.gi).map fun g => fenceBusy g mask).getD false then
      .error (.park (x.keepSeals bounds none t1) (.fence mask))
    else
      x.raiseFailures mask t1
      .ok t1) s

/-! ## Register states, working sets and spills -/

/-- FEWAIT (22 R356): the checks of its source are all that it does. -/
def execFewait (c : Ctl) (a : Reg) (s : State) : Host.Outcome State Fault Refusal :=
  runInstr (.fewait c a) (fun _ t => .ok t) s

/-- Change a vector register, whatever the lane activity. -/
def Ctx.updV (x : Ctx) (r : Reg) (f : VReg → VReg) (s : State) : State :=
  x.updG (fun g => { g with v := vset g.v r.toNat (f (vget g.v r.toNat vreg0)) }) s

/-- FEMARK (22 R357): an outstanding completion is no longer awaited. -/
def execFemark (c : Ctl) (st : FeState) (d : Reg) (s : State) : Host.Outcome State Fault Refusal :=
  runInstr (.femark c st d) (fun x t => .ok (x.updV d (fun v => { v with st := st, by_ := none, marked := true }) t)) s

/-- The registers that a mask names: bit i names the pair at `base + 2 i` (22 R358). -/
def pairSet (base : Nat) (mask : Word) : BitVec 128 :=
  BitVec.ofFnLE fun r : Fin 128 => decide (base ≤ r.val) && decide (r.val < base + 64) && mask.getLsbD ((r.val - base) / 2)

/-- The registers of a set in ascending order. -/
def setRegs (w : BitVec 128) : List Nat := (List.range 128).filter fun r => w.getLsbD r

/-- RGN on one half of the register file (22 R358). -/
def Ctx.regions (x : Ctx) (base : Nat) (mask : Word) (s : State) : Body := do
  let new := pairSet base mask
  match (setRegs new).find? fun r => decide (x.p.hdr.vregs ≤ r) with
  | some r => raise cRegRange (regInfo r fA)
  | none => .ok ()
  let n := ((setRegs (new ^^^ x.g.wset)).length + 7) / 8
  let later := fun j (e : SplitEntry) =>
    if j = x.ei then { e with prev := e.prev.map (· + n) }
    else { e with nextIssue := max e.nextIssue (x.p.clk + 1 + n) }
  .ok (x.updG (fun g => { g with wset := new, split := g.split.mapIdx later }) s)

/-- RGN.LO (22 R358). -/
def execRgnLo (c : Ctl) (mask : Word) (s : State) : Host.Outcome State Fault Refusal :=
  runInstr (.rgnLo c mask) (fun x t => x.regions 0 mask t) s

/-- RGN.HI (22 R358). -/
def execRgnHi (c : Ctl) (mask : Word) (s : State) : Host.Outcome State Fault Refusal :=
  runInstr (.rgnHi c mask) (fun x t => x.regions 64 mask t) s

/-- Spill slots of a panel (08 R147). -/
def Hdr.spillSlots (h : Hdr) : Nat := h.spillBytes / 128

/-- The address of a spill slot, or SP_RANGE (08 R147). -/
def Ctx.spillAddr (x : Ctx) (slot : BitVec 9) : Except Stop Nat := do
  let a := x.p.hdr.spillbase + 128 * slot.toNat
  check (decide (slot.toNat < x.p.hdr.spillSlots)) cSpRange (infoOf a)
  .ok a

/-- The spill form of 32 lanes: tag and bytes (08 Table 8-3). -/
def spillForm (v : Nat → Word) : BitVec 3 × List Byte :=
  let all := fun (f : Nat → Bool) => (List.range 32).all f
  let stride := v 1 - v 0
  if all fun l => v l == v 0 then (1, natBytes 4 (v 0).toNat)
  else if all fun l => v l == v 0 + BitVec.ofNat 32 l * stride then
    (2, natBytes 4 (v 0).toNat ++ natBytes 4 stride.toNat)
  else if all fun l => v l == ((v l).setWidth 8).signExtend 32 then
    (3, (List.range 32).map fun l => (v l).setWidth 8)
  else if all fun l => v l == ((v l).setWidth 16).signExtend 32 then
    (4, (List.range 32).flatMap fun l => natBytes 2 ((v l).toNat % 2 ^ 16))
  else (0, (List.range 32).flatMap fun l => natBytes 4 (v l).toNat)

/-- SPILL (08 R147, 22 R359). -/
def execSpill (c : Ctl) (a : Reg) (slot : BitVec 9) (s : State) : Host.Outcome State Fault Refusal :=
  runInstr (.spill c a slot) (fun x t => do
    let p ← x.spillAddr slot
    let (tag, bytes) := if (x.vr a.toNat).st = .poison then (5, []) else spillForm (x.v a)
    let t1 := updSp (x.updV a (fun v => { v with tag := tag }) t) x.pid fun m => m.write p bytes
    let touched := if bytes.isEmpty then [] else [p, p + bytes.length - 1]
    x.stored (if bytes.isEmpty then [] else [(p, bytes.length)]) (x.bankCost touched t1)) s

/-- The lanes that a slot holds by a format tag (22 R360). -/
def spillLane (m : Memory) (p : Nat) (tag : BitVec 3) (l : Nat) : Word :=
  match tag.toNat with
  | 1 => BitVec.ofNat 32 (m.readNat p 4)
  | 2 => BitVec.ofNat 32 (m.readNat p 4) + BitVec.ofNat 32 l * BitVec.ofNat 32 (m.readNat (p + 4) 4)
  | 3 => (m.get (p + l)).signExtend 32
  | 4 => (BitVec.ofNat 16 (m.readNat (p + 2 * l) 2)).signExtend 32
  | _ => BitVec.ofNat 32 (m.readNat (p + 4 * l) 4)

/-- Bytes that a form holds (08 Table 8-3). -/
def formBytes (tag : BitVec 3) : Nat :=
  match tag.toNat with
  | 1 => 4
  | 2 => 8
  | 3 => 32
  | 4 => 64
  | 0 => 128
  | _ => 0

/-- FILL (22 R360); ILLEGAL for a reserved tag is among the checks at issue. -/
def execFill (c : Ctl) (d : Reg) (slot : BitVec 9) (s : State) : Host.Outcome State Fault Refusal :=
  runInstr (.fill c d slot) (fun x t => do
    let p ← x.spillAddr slot
    let tag := (x.vr d.toNat).tag
    let m := spOf t x.pid
    let n := formBytes tag
    let touched := if n = 0 then [] else [p, p + n - 1]
    let fill := fun (v : VReg) =>
      if tag = 5 then { v with st := .poison, by_ := none, marked := false }
      else { v with lanes := Vector.ofFn fun l : Fin 32 => spillLane m p tag l.val, st := .full, by_ := none, marked := false }
    .ok (x.bankCost touched (x.updV d fill t))) s

/-- FTAG (22 R361). -/
def execFtag (c : Ctl) (d a : Reg) (s : State) : Host.Outcome State Fault Refusal :=
  runInstr (.ftag c d a) (fun x t => .ok (x.setS d (fun _ => (x.vr a.toNat).tag.setWidth 64) t)) s

/-! ## Containment and tensor ids -/

/-- CTNOPEN (13 R224, 22 R362). -/
def execCtnopen (c : Ctl) (x1 : Word) (s : State) : Host.Outcome State Fault Refusal :=
  runInstr (.ctnopen c x1) (fun x t => do
    check x.whole cIllegal 0
    check (decide (x.g.regions.length < 4)) cCtnDepth 0
    let r : Region := ⟨x.target x1, x.g.em, x.g.nest, vget x.g.s 62 copies0, t.nextId, t.nextId⟩
    .ok (x.updG (fun g => { g with regions := r :: g.regions }) t)) s

/-- CTNCLOSE (13 R224, 22 R362). -/
def execCtnclose (c : Ctl) (s : State) : Host.Outcome State Fault Refusal :=
  runInstr (.ctnclose c) (fun x t => do
    check x.whole cIllegal 0
    check (!x.g.regions.isEmpty) cCtnDepth 0
    .ok (x.updG (fun g => { g with regions := g.regions.drop 1 }) t)) s

/-- CTNRAISE (13 R225, 22 R362): an unwind with a region open, else a trap, with its code in STATUS. -/
def execCtnraise (c : Ctl) (code : BitVec 8) (s : State) : Host.Outcome State Fault Refusal :=
  runInstr (.ctnraise c code) (fun x t => do
    check x.whole cIllegal 0
    .error (.ended (takeTrap (x.back t) x.pid x.gi x.ei ⟨cTrapInstr, 0, code.toNat, 0, none⟩ true))) s

/-- TIDSET (22 R363). -/
def execTidset (c : Ctl) (id : BitVec 12) (s : State) : Host.Outcome State Fault Refusal :=
  runInstr (.tidset c id) (fun x t => .ok (x.updG (fun g => { g with tid := id }) t)) s

end Sys2Proof.Machine
end

