-- ==== Sys2Proof/Machine/Dispatch.lean ====
section
/-! DEFINITION. The meaning of every row of the operations table: one arm for each constructor of `Instr`, each one a
direct call of that row's own meaning. -/

namespace Sys2Proof.Machine

open Sys2Proof

/-- Perform one row of the operations table: an encoded instruction for the fragment that issues it, or an event of
the part. -/
def exec (i : Instr) (s : State) : Host.Outcome State Fault Refusal :=
  match i with
  | .portReset p => Sys2Proof.Machine.execPortReset p s
  | .deviceResetRequest p => Sys2Proof.Machine.execDeviceResetRequest p s
  | .mgPwrCapWrite p v => Sys2Proof.Machine.execMgPwrCapWrite p v s
  | .granuleRead cmd k buffered => Sys2Proof.Machine.execGranuleRead cmd k buffered s
  | .granuleReconstruct cmd k => Sys2Proof.Machine.execGranuleReconstruct cmd k s
  | .stripeWrite cmd k => Sys2Proof.Machine.execStripeWrite cmd k s
  | .subGranuleWrite cmd k => Sys2Proof.Machine.execSubGranuleWrite cmd k s
  | .stackRetrainFail stack => Sys2Proof.Machine.execStackRetrainFail stack s
  | .gusDeclareWrite p v => Sys2Proof.Machine.execGusDeclareWrite p v s
  | .gusCounterClear c => Sys2Proof.Machine.execGusCounterClear c s
  | .gusXpoolWrite p v => Sys2Proof.Machine.execGusXpoolWrite p v s
  | .compressPacket q idx => Sys2Proof.Machine.execCompressPacket q idx s
  | .pageExpand cmd k => Sys2Proof.Machine.execPageExpand cmd k s
  | .bar2Read p off len => Sys2Proof.Machine.execBar2Read p off len s
  | .bar2Write p off bytes => Sys2Proof.Machine.execBar2Write p off bytes s
  | .registerWrite p off size v => Sys2Proof.Machine.execRegisterWrite p off size v s
  | .hostLinkDown p => Sys2Proof.Machine.execHostLinkDown p s
  | .xlCfgWrite p v => Sys2Proof.Machine.execXlCfgWrite p v s
  | .xlTimeoutWrite p v => Sys2Proof.Machine.execXlTimeoutWrite p v s
  | .xlCounterClear c => Sys2Proof.Machine.execXlCounterClear c s
  | .ualLinkUp n dev port domain => Sys2Proof.Machine.execUalLinkUp n dev port domain s
  | .ualLinkDown n => Sys2Proof.Machine.execUalLinkDown n s
  | .peerRequest r => Sys2Proof.Machine.execPeerRequest r s
  | .peerResponse req r => Sys2Proof.Machine.execPeerResponse req r s
  | .requestTimeout req => Sys2Proof.Machine.execRequestTimeout req s
  | .tileArrive station t => Sys2Proof.Machine.execTileArrive station t s
  | .pleatEntryTimeout table entry => Sys2Proof.Machine.execPleatEntryTimeout table entry s
  | .serviceGangOp cmd k => Sys2Proof.Machine.execServiceGangOp cmd k s
  | .stepAck cmd step => Sys2Proof.Machine.execStepAck cmd step s
  | .stepRetry cmd step => Sys2Proof.Machine.execStepRetry cmd step s
  | .semAcquire p r => Sys2Proof.Machine.execSemAcquire p r s
  | .semRelease p n v => Sys2Proof.Machine.execSemRelease p n v s
  | .hqTailWrite q v => Sys2Proof.Machine.execHqTailWrite q v s
  | .hqEnable q v => Sys2Proof.Machine.execHqEnable q v s
  | .hqDisable q v => Sys2Proof.Machine.execHqDisable q v s
  | .hqStop q v => Sys2Proof.Machine.execHqStop q v s
  | .hqRecover q v => Sys2Proof.Machine.execHqRecover q v s
  | .packetFetch q => Sys2Proof.Machine.execPacketFetch q s
  | .nopPacket q idx => Sys2Proof.Machine.execNopPacket q idx s
  | .launchPacket q idx => Sys2Proof.Machine.execLaunchPacket q idx s
  | .copyPacket q idx => Sys2Proof.Machine.execCopyPacket q idx s
  | .waitPacket q idx => Sys2Proof.Machine.execWaitPacket q idx s
  | .waitPoll q idx => Sys2Proof.Machine.execWaitPoll q idx s
  | .signalPacket q idx => Sys2Proof.Machine.execSignalPacket q idx s
  | .fencePacket q idx => Sys2Proof.Machine.execFencePacket q idx s
  | .setprioPacket q idx => Sys2Proof.Machine.execSetprioPacket q idx s
  | .tableWalk cmd k => Sys2Proof.Machine.execTableWalk cmd k s
  | .hqFqRespWrite p v => Sys2Proof.Machine.execHqFqRespWrite p v s
  | .hqInvalWrite p v => Sys2Proof.Machine.execHqInvalWrite p v s
  | .faultRecordWrite r => Sys2Proof.Machine.execFaultRecordWrite r s
  | .mgG4ClearWrite p v => Sys2Proof.Machine.execMgG4ClearWrite p v s
  | .drainSet part => Sys2Proof.Machine.execDrainSet part s
  | .drainClear part => Sys2Proof.Machine.execDrainClear part s
  | .mgPartClusWrite part v => Sys2Proof.Machine.execMgPartClusWrite part v s
  | .preemptHalt part v => Sys2Proof.Machine.execPreemptHalt part v s
  | .preemptResume part v => Sys2Proof.Machine.execPreemptResume part v s
  | .attestationStart p v => Sys2Proof.Machine.execAttestationStart p v s
  | .dispatch part => Sys2Proof.Machine.execDispatch part s
  | .preemptCheck part => Sys2Proof.Machine.execPreemptCheck part s
  | .drainVictimTimeout pid => Sys2Proof.Machine.execDrainVictimTimeout pid s
  | .panelSaveLining pid => Sys2Proof.Machine.execPanelSaveLining pid s
  | .panelSaveMem pid => Sys2Proof.Machine.execPanelSaveMem pid s
  | .panelFlush pid => Sys2Proof.Machine.execPanelFlush pid s
  | .panelRetire pid => Sys2Proof.Machine.execPanelRetire pid s
  | .panelWritebackDone pid => Sys2Proof.Machine.execPanelWritebackDone pid s
  | .activeSetSwap core pos => Sys2Proof.Machine.execActiveSetSwap core pos s
  | .codeFetch pid window => Sys2Proof.Machine.execCodeFetch pid window s
  | .ringConsume pid => Sys2Proof.Machine.execRingConsume pid s
  | .commandComplete cmd => Sys2Proof.Machine.execCommandComplete cmd s
  | .sleepWake pid gang entry => Sys2Proof.Machine.execSleepWake pid gang entry s
  | .nop c len => Sys2Proof.Machine.execNop c len s
  | .bra c x1 => Sys2Proof.Machine.execBra c x1 s
  | .brx c a x1 => Sys2Proof.Machine.execBrx c a x1 s
  | .brs c cond a x1 x2 => Sys2Proof.Machine.execBrs c cond a x1 x2 s
  | .brv c cond a x1 x2 => Sys2Proof.Machine.execBrv c cond a x1 x2 s
  | .call c x1 => Sys2Proof.Machine.execCall c x1 s
  | .ret c a => Sys2Proof.Machine.execRet c a s
  | .regang c => Sys2Proof.Machine.execRegang c s
  | .exit c => Sys2Proof.Machine.execExit c s
  | .ifMask c a => Sys2Proof.Machine.execIfMask c a s
  | .elseMask c => Sys2Proof.Machine.execElseMask c s
  | .endif c => Sys2Proof.Machine.execEndif c s
  | .loop c => Sys2Proof.Machine.execLoop c s
  | .endloop c x1 => Sys2Proof.Machine.execEndloop c x1 s
  | .breakMask c a k => Sys2Proof.Machine.execBreakMask c a k s
  | .contMask c a k => Sys2Proof.Machine.execContMask c a k s
  | .yield c => Sys2Proof.Machine.execYield c s
  | .sleep c n => Sys2Proof.Machine.execSleep c n s
  | .trap c code => Sys2Proof.Machine.execTrap c code s
  | .rett c => Sys2Proof.Machine.execRett c s
  | .brk c code => Sys2Proof.Machine.execBrk c code s
  | .srd c d num => Sys2Proof.Machine.execSrd c d num s
  | .swr c a num => Sys2Proof.Machine.execSwr c a num s
  | .clk c d => Sys2Proof.Machine.execClk c d s
  | .perf c d ev => Sys2Proof.Machine.execPerf c d ev s
  | .sadd c d a b => Sys2Proof.Machine.execSadd c d a b s
  | .ssub c d a b => Sys2Proof.Machine.execSsub c d a b s
  | .smul c d a b => Sys2Proof.Machine.execSmul c d a b s
  | .smulh c u d a b => Sys2Proof.Machine.execSmulh c u d a b s
  | .sdiv c u d a b => Sys2Proof.Machine.execSdiv c u d a b s
  | .srem c u d a b => Sys2Proof.Machine.execSrem c u d a b s
  | .sand c d a b => Sys2Proof.Machine.execSand c d a b s
  | .sor c d a b => Sys2Proof.Machine.execSor c d a b s
  | .sxor c d a b => Sys2Proof.Machine.execSxor c d a b s
  | .sshl c d a b => Sys2Proof.Machine.execSshl c d a b s
  | .sshr c d a b => Sys2Proof.Machine.execSshr c d a b s
  | .ssra c d a b => Sys2Proof.Machine.execSsra c d a b s
  | .smin c u d a b => Sys2Proof.Machine.execSmin c u d a b s
  | .smax c u d a b => Sys2Proof.Machine.execSmax c u d a b s
  | .scmp c cond d a b => Sys2Proof.Machine.execScmp c cond d a b s
  | .ssel c d a b cc => Sys2Proof.Machine.execSsel c d a b cc s
  | .smov c d a => Sys2Proof.Machine.execSmov c d a s
  | .smovi c d x => Sys2Proof.Machine.execSmovi c d x s
  | .sclz c d a => Sys2Proof.Machine.execSclz c d a s
  | .spopc c d a => Sys2Proof.Machine.execSpopc c d a s
  | .sbfx c sgn d a pos wid => Sys2Proof.Machine.execSbfx c sgn d a pos wid s
  | .sbfi c d a pos wid => Sys2Proof.Machine.execSbfi c d a pos wid s
  | .sld c t d a off => Sys2Proof.Machine.execSld c t d a off s
  | .sst c t a b off => Sys2Proof.Machine.execSst c t a b off s
  | .slda c wide add d a off => Sys2Proof.Machine.execSlda c wide add d a off s
  | .vadd c t d a b => Sys2Proof.Machine.execVadd c t d a b s
  | .vsub c t d a b => Sys2Proof.Machine.execVsub c t d a b s
  | .vmul c t d a b => Sys2Proof.Machine.execVmul c t d a b s
  | .vmulh c t d a b => Sys2Proof.Machine.execVmulh c t d a b s
  | .vmad c t d a b cc => Sys2Proof.Machine.execVmad c t d a b cc s
  | .vadds c t d a b => Sys2Proof.Machine.execVadds c t d a b s
  | .vsubs c t d a b => Sys2Proof.Machine.execVsubs c t d a b s
  | .vand c d a b => Sys2Proof.Machine.execVand c d a b s
  | .vor c d a b => Sys2Proof.Machine.execVor c d a b s
  | .vxor c d a b => Sys2Proof.Machine.execVxor c d a b s
  | .vnot c d a => Sys2Proof.Machine.execVnot c d a s
  | .vshl c t d a b => Sys2Proof.Machine.execVshl c t d a b s
  | .vshr c t d a b => Sys2Proof.Machine.execVshr c t d a b s
  | .vsra c t d a b => Sys2Proof.Machine.execVsra c t d a b s
  | .vmin c t d a b => Sys2Proof.Machine.execVmin c t d a b s
  | .vmax c t d a b => Sys2Proof.Machine.execVmax c t d a b s
  | .vabs c t d a => Sys2Proof.Machine.execVabs c t d a s
  | .vneg c t d a => Sys2Proof.Machine.execVneg c t d a s
  | .vclz c t d a => Sys2Proof.Machine.execVclz c t d a s
  | .vpopc c t d a => Sys2Proof.Machine.execVpopc c t d a s
  | .vbfx c sgn d a pos wid => Sys2Proof.Machine.execVbfx c sgn d a pos wid s
  | .vbfi c d a pos wid => Sys2Proof.Machine.execVbfi c d a pos wid s
  | .vaddc c t d a b cc => Sys2Proof.Machine.execVaddc c t d a b cc s
  | .vmov c d a => Sys2Proof.Machine.execVmov c d a s
  | .vbcast c d a => Sys2Proof.Machine.execVbcast c d a s
  | .vlid c d => Sys2Proof.Machine.execVlid c d s
  | .vsel c d a b cc => Sys2Proof.Machine.execVsel c d a b cc s
  | .vcmp c t cond d a b => Sys2Proof.Machine.execVcmp c t cond d a b s
  | .vmask c d a => Sys2Proof.Machine.execVmask c d a s
  | .fadd c t d a b => Sys2Proof.Machine.execFadd c t d a b s
  | .fsub c t d a b => Sys2Proof.Machine.execFsub c t d a b s
  | .fmul c t d a b => Sys2Proof.Machine.execFmul c t d a b s
  | .ffma c t d a b cc => Sys2Proof.Machine.execFfma c t d a b cc s
  | .fmin c t d a b => Sys2Proof.Machine.execFmin c t d a b s
  | .fmax c t d a b => Sys2Proof.Machine.execFmax c t d a b s
  | .fabs c t d a => Sys2Proof.Machine.execFabs c t d a s
  | .fneg c t d a => Sys2Proof.Machine.execFneg c t d a s
  | .fdiv c t d a b => Sys2Proof.Machine.execFdiv c t d a b s
  | .frcp c t d a => Sys2Proof.Machine.execFrcp c t d a s
  | .frsq c t d a => Sys2Proof.Machine.execFrsq c t d a s
  | .fsqrt c t d a => Sys2Proof.Machine.execFsqrt c t d a s
  | .fexp2 c t d a => Sys2Proof.Machine.execFexp2 c t d a s
  | .flog2 c t d a => Sys2Proof.Machine.execFlog2 c t d a s
  | .ffloor c t d a => Sys2Proof.Machine.execFfloor c t d a s
  | .ffrac c t d a => Sys2Proof.Machine.execFfrac c t d a s
  | .fscale c t d a b => Sys2Proof.Machine.execFscale c t d a b s
  | .fclass c t d a => Sys2Proof.Machine.execFclass c t d a s
  | .cvt c dt d a st part => Sys2Proof.Machine.execCvt c dt d a st part s
  | .cvti c dt d a st part sat => Sys2Proof.Machine.execCvti c dt d a st part sat s
  | .cvtf c dt d a st part => Sys2Proof.Machine.execCvtf c dt d a st part s
  | .cvtbx c dt d a b st part delta => Sys2Proof.Machine.execCvtbx c dt d a b st part delta s
  | .shfi c seg d a b => Sys2Proof.Machine.execShfi c seg d a b s
  | .shfu c seg d a b => Sys2Proof.Machine.execShfu c seg d a b s
  | .shfd c seg d a b => Sys2Proof.Machine.execShfd c seg d a b s
  | .shfx c seg d a b => Sys2Proof.Machine.execShfx c seg d a b s
  | .gshf c kind width delta d a => Sys2Proof.Machine.execGshf c kind width delta d a s
  | .vote c kind d a => Sys2Proof.Machine.execVote c kind d a s
  | .vreda c t op d a => Sys2Proof.Machine.execVreda c t op d a s
  | .vscan c ex t op d a => Sys2Proof.Machine.execVscan c ex t op d a s
  | .aldef c d a off => Sys2Proof.Machine.execAldef c d a off s
  | .alrd c d a word => Sys2Proof.Machine.execAlrd c d a word s
  | .unpk c sym an d a first => Sys2Proof.Machine.execUnpk c sym an d a first s
  | .pack c sym an d a first => Sys2Proof.Machine.execPack c sym an d a first s
  | .symx c sym an d a b => Sys2Proof.Machine.execSymx c sym an d a b s
  | .symi c sym an d a b cc => Sys2Proof.Machine.execSymi c sym an d a b cc s
  | .symld c sym an d a b => Sys2Proof.Machine.execSymld c sym an d a b s
  | .symst c sym an a b cc => Sys2Proof.Machine.execSymst c sym an a b cc s
  | .dota c acc an am d a b nmax => Sys2Proof.Machine.execDota c acc an am d a b nmax s
  | .valc c an d a => Sys2Proof.Machine.execValc c an d a s
  | .ld c t d a off => Sys2Proof.Machine.execLd c t d a off s
  | .st c t a b off => Sys2Proof.Machine.execSt c t a b off s
  | .ldt c t d a b => Sys2Proof.Machine.execLdt c t d a b s
  | .stt c t a b cc => Sys2Proof.Machine.execStt c t a b cc s
  | .ldb c t d a off => Sys2Proof.Machine.execLdb c t d a off s
  | .ats c ret t op d a b off => Sys2Proof.Machine.execAts c ret t op d a b off s
  | .trtw c a b => Sys2Proof.Machine.execTrtw c a b s
  | .trtr c d a => Sys2Proof.Machine.execTrtr c d a s
  | .layset c fld d a x1 => Sys2Proof.Machine.execLayset c fld d a x1 s
  | .mxz c first count => Sys2Proof.Machine.execMxz c first count s
  | .mma c ta tb keepb ck d a b cc => Sys2Proof.Machine.execMma c ta tb keepb ck d a b cc s
  | .mxrd c toReg t d first count => Sys2Proof.Machine.execMxrd c toReg t d first count s
  | .mxwr c t a first count => Sys2Proof.Machine.execMxwr c t a first count s
  | .mxsc c opB kind a b => Sys2Proof.Machine.execMxsc c opB kind a b s
  | .mxck c clr d => Sys2Proof.Machine.execMxck c clr d s
  | .mxil c t a krows => Sys2Proof.Machine.execMxil c t a krows s
  | .cpyq c a => Sys2Proof.Machine.execCpyq c a s
  | .cpypub c => Sys2Proof.Machine.execCpypub c s
  | .cseal c cls => Sys2Proof.Machine.execCseal c cls s
  | .cwait c cls n => Sys2Proof.Machine.execCwait c cls n s
  | .cstat c form cls d => Sys2Proof.Machine.execCstat c form cls d s
  | .gath c t d a x => Sys2Proof.Machine.execGath c t d a x s
  | .scat c t a b x => Sys2Proof.Machine.execScat c t a b x s
  | .hgcfg c a slot => Sys2Proof.Machine.execHgcfg c a slot s
  | .hgld c d a x => Sys2Proof.Machine.execHgld c d a x s
  | .hgsc c a b x => Sys2Proof.Machine.execHgsc c a b x s
  | .hgfold c zero a x => Sys2Proof.Machine.execHgfold c zero a x s
  | .hgidx c d a slot level corner => Sys2Proof.Machine.execHgidx c d a slot level corner s
  | .atom c form t op scope ret d a b cc => Sys2Proof.Machine.execAtom c form t op scope ret d a b cc s
  | .atoms c form t op scope ret a b off => Sys2Proof.Machine.execAtoms c form t op scope ret a b off s
  | .join c slot => Sys2Proof.Machine.execJoin c slot s
  | .leave c slot => Sys2Proof.Machine.execLeave c slot s
  | .seambar c slot => Sys2Proof.Machine.execSeambar c slot s
  | .barw c b n => Sys2Proof.Machine.execBarw c b n s
  | .slvinit c n a => Sys2Proof.Machine.execSlvinit c n a s
  | .slvpush c n a => Sys2Proof.Machine.execSlvpush c n a s
  | .slvpop c n d => Sys2Proof.Machine.execSlvpop c n d s
  | .slvtry c n d => Sys2Proof.Machine.execSlvtry c n d s
  | .slvgrant c n => Sys2Proof.Machine.execSlvgrant c n s
  | .phaseAcq c scope => Sys2Proof.Machine.execPhaseAcq c scope s
  | .phaseRel c scope => Sys2Proof.Machine.execPhaseRel c scope s
  | .phaseAr c scope => Sys2Proof.Machine.execPhaseAr c scope s
  | .fence c mask => Sys2Proof.Machine.execFence c mask s
  | .fewait c a => Sys2Proof.Machine.execFewait c a s
  | .femark c st d => Sys2Proof.Machine.execFemark c st d s
  | .rgnLo c mask => Sys2Proof.Machine.execRgnLo c mask s
  | .rgnHi c mask => Sys2Proof.Machine.execRgnHi c mask s
  | .spill c a slot => Sys2Proof.Machine.execSpill c a slot s
  | .fill c d slot => Sys2Proof.Machine.execFill c d slot s
  | .ftag c d a => Sys2Proof.Machine.execFtag c d a s
  | .ctnopen c x1 => Sys2Proof.Machine.execCtnopen c x1 s
  | .ctnclose c => Sys2Proof.Machine.execCtnclose c s
  | .ctnraise c code => Sys2Proof.Machine.execCtnraise c code s
  | .tidset c id => Sys2Proof.Machine.execTidset c id s
  | .stagingComplete pid => Sys2Proof.Machine.execStagingComplete pid s
  | .hostPortLinkUp p => Sys2Proof.Machine.execHostPortLinkUp p s
  | .deviceResetDone => Sys2Proof.Machine.execDeviceResetDone s
  | .coldReset => Sys2Proof.Machine.execColdReset s
  | .powerSample => Sys2Proof.Machine.execPowerSample s
  | .aclkRaiseTick => Sys2Proof.Machine.execAclkRaiseTick s
  | .aclkFloorTimeout => Sys2Proof.Machine.execAclkFloorTimeout s
  | .thermalSample => Sys2Proof.Machine.execThermalSample s
  | .stackLoss => Sys2Proof.Machine.execStackLoss s
  | .invalidateDone => Sys2Proof.Machine.execInvalidateDone s
  | .mgFrLostClear => Sys2Proof.Machine.execMgFrLostClear s
  | .healthRefresh => Sys2Proof.Machine.execHealthRefresh s
  | .attestationDone => Sys2Proof.Machine.execAttestationDone s
  | .unassignedEncoding => Sys2Proof.Machine.execUnassignedEncoding s

end Sys2Proof.Machine
end

