-- ==== Sys2Proof/Machine/Schedule.lean ====
section
/-! DEFINITION. Time, the world outside the module, the default order of events, and the placing of one instruction where
the next step fetches it (01 R10, 07 R129; log entries 1 and 3). -/

namespace Sys2Proof.Machine

open Sys2Proof

/-! ## ACLK -/

/-- The cores with a panel that issues. -/
def busyCores (s : State) : List Nat := distinct ((s.panels.filter Panel.issues).map (·.core))

/-- A swap of a core's active set is due: a pending gang is ready, and a position is free or has to yield (07 R131). -/
def swapDue (s : State) (core : Nat) : Bool :=
  (firstReady s core).isSome && ((coreAt s core).active.any Option.isNone || (yielding s core).isSome)

/-- A started WAIT has to read its counter: a microsecond after its last read, or after a SIGNAL (04 R79). -/
def pollDue (s : State) (p : Pkt) : Bool := p.reread || decide (p.polled + 10 ^ 9 ≤ s.fs)

/-- A WAIT has to read its counter and no read of it is under way. -/
def waitDue (s : State) : Bool :=
  (List.range 256).any fun q => (queueAt s q).pkts.any fun p =>
    p.stage == .started && pktType p == 3 && pollDue s p && !s.cmds.any fun c => c.ofPacket q p.index

/-- Nothing of this cycle is left to do: no fragment can issue any more, and no swap, no wake and no read of a WAIT is due. -/
def cycleOver (s : State) : Bool :=
  ((busyCores s).all fun c => (nextIssue s c).isNone && !swapDue s c) && !s.panels.any wakeDue && !waitDue s

/-- A cycle of the wait before a panel's first instruction: clk stands still until that instruction issues (17 R272), so the
waits of its fragments come nearer instead. -/
def waitBegins (g : Gang) : Gang := { g with split := g.split.map fun e => { e with nextIssue := e.nextIssue - 1 } }

/-- A panel after one more cycle of ACLK. -/
def tickPanel (p : Panel) : Panel :=
  if p.life == .running then
    if p.begun then { p with elapsed := p.elapsed + 1, clk := (p.clk + 1) % 2 ^ 64 }
    else { p with elapsed := p.elapsed + 1, gangs := p.gangs.map waitBegins }
  else p

/-- A core at the start of a cycle: its scan begins one position further, and second passes of GSHF take their slots (07
R129, 23 R368). -/
def tickCore (c : CoreSt) : CoreSt :=
  { c with start := (c.start + 1) % 8, scan := 0, used := [c.pass2, 0, 0, 0, 0], pass2 := 0 }

/-- ACLK advances by one cycle. -/
def tickAll (s : State) : State :=
  let s1 := { s with
    now := s.now + 1
    fs := s.fs + period s
    panels := s.panels.map tickPanel
    cores := s.cores.map tickCore }
  (s1.panels.filter (·.moving.isSome)).foldl (fun t p => settleMove t p.pid) ((busyCores s1).foldl refreshCore s1)

/-! ## Deliveries -/

/-- The cores of panels whose last posted write has reached host memory, or is lost, from one state to the next (09 R158). -/
def deliveredCores (s t : State) : List Nat :=
  distinct ((t.panels.filter fun p => (s.links.posted.any fun w => w.pid == some p.pid)
    && !t.links.posted.any fun w => w.pid == some p.pid).map (·.core))

/-- The gangs whose release at SYSTEM scope waited for those deliveries are ready in the same cycle (07 R130, 09 R158). -/
def noteDelivered (s t : State) : State := (deliveredCores s t).foldl refreshCore t

/-- What an act of the machine leaves, with its deliveries noted. -/
def noting (s : State) : Host.Outcome State Fault Refusal → Host.Outcome State Fault Refusal
  | .next t => .next (noteDelivered s t)
  | o => o

/-! ## The world outside -/

/-- A poison code of a granule. -/
def Mark.isPoison : Mark → Bool
  | .poisonLost | .poisonData => true
  | _ => false

/-- A granule of a stack takes an upset, or its content is good again (02 R23). No upset makes or removes a poison code (log entry
79). -/
def upsetGranule (s : State) (stack off : Nat) (m : Option Mark) : Option State :=
  let a := stack * 2 ^ 37 + off / 64 * 64
  if stack < 12 ∧ off < 2 ^ 37 ∧ m.any Mark.isPoison = false then
    some (if (markAt s a).any Mark.isPoison then s else setMark s a m)
  else none

/-- Host software stores bytes in host memory. -/
def hostWrite (s : State) (a : Nat) (bytes : List Byte) : State := { s with hostMem := s.hostMem.write a bytes }

/-! ## The default order (log entry 1) -/

/-- The range that piece `k` of a command combines, as a tile that arrives. -/
def tileEvent (s : State) (c : Cmd) (k : Nat) : List Instr :=
  match c.fresh s k with
  | some (.op va _) =>
    match resolve s c va 2 with
    | some (.loc da _, _) => ((tileOf s c k da).map fun x => Instr.tileArrive x.1 x.2).toList
    | _ => []
  | _ => []

/-- A walk of an address finds the compressed page that its cache holds already: the page is to be expanded (02 R47), and
another walk changes nothing. -/
def foundCompressed (s : State) (c : Cmd) (va access : Nat) : Bool :=
  match tlbFind s c.core c.asid va, (walkVa s c.asid va).1 with
  | some t, .leaf level _ e => (access == 0 || pteW e) && pteCmp e && t.leaf == e && t.level == level
  | _, _ => false

/-- The walk that piece `k` of a command needs: none when its cache serves it or names the compressed page that it has to
expand. -/
def walkEvent (s : State) (c : Cmd) (k : Nat) : List Instr :=
  match c.fresh s k with
  | some p =>
    if (resolve s c p.va (accessOf c p)).isNone && !foundCompressed s c p.va (accessOf c p) then [.tableWalk c.id k] else []
  | none => []

/-- What may come about for piece `k` of a command. -/
def pieceEvents (s : State) (c : Cmd) (k : Nat) : List Instr :=
  walkEvent s c k ++ [.pageExpand c.id k, .granuleRead c.id k false, .granuleReconstruct c.id k, .stripeWrite c.id k,
   .subGranuleWrite c.id k] ++ tileEvent s c k ++ [.serviceGangOp c.id k, .stepRetry c.id k]

/-- What may come about for a command. -/
def cmdEvents (s : State) (c : Cmd) : List Instr :=
  (List.range (piecesOf s c).length).flatMap (fun k => if c.done.contains k then [] else pieceEvents s c k)
    ++ [.commandComplete c.id]

/-- Host memory answers a read or a SIGNAL. -/
def hostReads (s : State) : List Instr :=
  (s.links.reqs.filter fun r => decide (18 ≤ r.port)).map fun r =>
    .peerResponse r.id (.data (if r.kind = .read then
      (deliverFor s r.hostPort r.addr).hostMem.read r.addr r.len else []))

/-- The windows that fragments of a panel wait for. -/
def missingWindows (s : State) (p : Panel) : List Nat :=
  distinct (p.gangs.flatMap fun g => g.split.filterMap fun e =>
    if e.valid && (windowOf s p e.pc).isNone then some (e.pc.toNat / 32) else none)

/-- The sleeping fragments of a panel. -/
def sleepers (p : Panel) : List Instr :=
  p.gangs.zipIdx.flatMap fun g => (List.range g.1.split.length).map fun ei => .sleepWake p.pid g.2 ei

/-- What may come about for a panel. -/
def panelEvents (s : State) (p : Panel) : List Instr :=
  (if p.issues then (missingWindows s p).map (.codeFetch p.pid) else [])
    ++ (s.cmds.filter fun c => c.owner == .code p.pid).map (fun c => .codeFetch p.pid c.slotAddr)
    ++ [.ringConsume p.pid, .stagingComplete p.pid, .drainVictimTimeout p.pid, .panelSaveLining p.pid,
        .panelSaveMem p.pid, .panelFlush p.pid, .panelRetire p.pid, .panelWritebackDone p.pid]
    ++ sleepers p

/-- What may come about for a packet. -/
def packetEvents (s : State) (q : Nat) (p : Pkt) : List Instr :=
  let a : BitVec 8 := BitVec.ofNat 8 q
  let i : Word := BitVec.ofNat 32 p.index
  let poll := (cmdOfPkt s a i).isSome || pollDue s p
  match pktType p with
  | 0 => [.nopPacket a i]
  | 1 => [.launchPacket a i]
  | 2 => [.copyPacket a i]
  | 3 => .waitPacket a i :: if poll then [.waitPoll a i] else []
  | 4 => [.signalPacket a i]
  | 5 => [.fencePacket a i]
  | 6 => [.setprioPacket a i]
  | 7 => [.compressPacket a i]
  | _ => []

/-- What may come about for a queue. -/
def queueEvents (s : State) (q : Nat) : List Instr :=
  let x := queueAt s q
  if x.state == .disabled then []
  else .packetFetch (BitVec.ofNat 8 q) :: x.pkts.flatMap (packetEvents s q)

/-- Swaps of the active sets. -/
def swapEvents (s : State) : List Instr :=
  (busyCores s).flatMap fun c => (List.range 8).map fun k => .activeSetSwap c k

/-- The partitions that have launches. -/
def usedParts (s : State) : List Nat := distinct (s.launches.map fun l => l.hdr.part)

/-- Events of the parts outside the cores that are due. -/
def deviceEvents (s : State) : List Instr :=
  [.stackLoss, .invalidateDone, .deviceResetDone, .attestationDone, .aclkFloorTimeout, .powerSample, .aclkRaiseTick,
   .thermalSample, .healthRefresh]
    ++ s.links.reqs.map (fun r => .requestTimeout r.id)
    ++ (List.range 50).flatMap (fun t => (pleatAt s t).map fun e => .pleatEntryTimeout t e.id)
    ++ (usedParts s).flatMap fun p => [.dispatch (BitVec.ofNat 3 p), .preemptCheck (BitVec.ofNat 3 p)]

/-- The events that the default order tries, the first one that is enabled being taken. -/
def pendingEvents (s : State) : List Instr :=
  swapEvents s ++ s.panels.flatMap (panelEvents s) ++ hostReads s ++ s.cmds.flatMap (cmdEvents s)
    ++ (List.range 256).flatMap (queueEvents s) ++ deviceEvents s

/-- The choices that the default order tries: an issue, a posted write, then an event. -/
def defaultChoices (s : State) : List Choice :=
  ((busyCores s).filter fun c => (nextIssue s c).isSome).map .issue
    ++ (s.links.posted.map fun w => .deliver w.port) ++ (pendingEvents s).map .ev

/-! ## Placing one instruction (log entry 3) -/

/-- The header of the panel that runs a placed instruction: one gang of 128 registers, every bank, four accumulator
banks. -/
def probeHdr : Hdr where
  queue := 0
  index := 0
  asid := 0
  part := 0
  prio := 0
  kaddr := 0
  codeOff := 64
  handler := 0
  nGangs := 1
  vregs := 128
  regb := 1
  accb := 4
  banks := 64
  nSleeves := 16
  pm := false
  nw := false
  il := false
  erratum7 := false
  restartable := false
  redundant := false
  spillBytes := 65472
  holdKib := 0
  spillbase := 901120
  holdbase := 901120
  argbase := 901120
  argAddr := 0
  argLen := 0
  maxtime := 1
  counterArea := 0
  regions := []
  roles := [.any]

/-- A launch that only gives the placed panel its header. -/
def probeLaunch (s : State) : Launch where
  id := s.nextId
  queue := 0
  index := 0
  hdr := probeHdr
  gx := 1
  gy := 1
  gz := 1
  kh := Vector.replicate 4 0
  ready := true
  nextPanel := 1
  requeued := []
  failed := false
  code := none

/-- The panel of a placed instruction, RUNNING on core 0. -/
def probePanel (s : State) : Panel :=
  { newPanel s (probeLaunch s) 0 (s.nextId + 1) 0 (s.nextId + 2) none true with life := .running, slots := [0] }

/-- The window of a placed instruction: its bits, then zeros. -/
def probeWindow (nbits w : Nat) : Window := ⟨0, 0, 2, natBytes 32 (w % 2 ^ nbits)⟩

/-- Place an instruction at the PC of a running gang that holds position 0 of core 0, as the next to issue. -/
def placeInstr (s : State) (nbits w : Nat) : State :=
  let core := coreAt s 0
  let cl := vget s.clusters 0 cluster0
  { s with
    panels := probePanel s :: s.panels
    cores := vset s.cores 0 { core with
      active := some ⟨s.nextId + 1, 0, s.now, false, 0⟩ :: core.active.drop 1
      start := 0, scan := 0, used := [0, 0, 0, 0, 0] }
    clusters := vset s.clusters 0 { cl with icache := probeWindow nbits w :: cl.icache }
    issuer := none
    agenda := .issue 0 :: s.agenda
    nextId := s.nextId + 7 }

end Sys2Proof.Machine
end

