-- ==== Sys2Proof/Machine/Step.lean ====
section
/-! DEFINITION. One step of the machine: the choice at the head of the agenda, or the default one (log entry 1). -/

namespace Sys2Proof.Machine

open Sys2Proof

/-- Issue the next instruction of a core's scan: the fragment that the scan reaches performs the instruction at its PC
(07 R129, 16 R246). -/
def issueNext (core : Nat) (s : State) : Host.Outcome State Fault Refusal :=
  match nextIssue s core with
  | some (_, u, i) => exec i { s with issuer := some u }
  | none => .fault .notEnabled

/-- The outcome of an act of the outside world, or of one that is not enabled. -/
def outcomeOf : Option State → Host.Outcome State Fault Refusal
  | some s => .next s
  | none => .fault .notEnabled

/-- What one choice does. -/
def act (c : Choice) (s : State) : Host.Outcome State Fault Refusal :=
  match c with
  | .ev i => exec i s
  | .issue core => issueNext core s
  | .tick => if cycleOver s then .next (tickAll s) else .fault .notEnabled
  | .sense x => .next { s with sensors := x }
  | .flash f => .next { s with flash := f }
  | .hostStore a bytes => .next (hostWrite s a bytes)
  | .deliver p => outcomeOf (deliverOne s p)
  | .upset stack off m => outcomeOf (upsetGranule s stack off m)
  | .spRead cmd line => outcomeOf (spReadNow s cmd line)
  | .spWrite cmd line => outcomeOf (spWriteNow s cmd line)
  | .service => .next (service s)

/-- Perform one choice, and note the posted writes that it delivers. -/
def perform (c : Choice) (s : State) : Host.Outcome State Fault Refusal := noting s (act c s)

/-- The next state of a choice, when it is enabled. -/
def enabledNext (s : State) (c : Choice) : Option State :=
  match perform c s with
  | .next t => some t
  | _ => none

/-- The default order: the first choice that is enabled, else a cycle of ACLK. -/
def auto (s : State) : State := ((defaultChoices s).findSome? (enabledNext s)).getD (tickAll s)

/-- One step. -/
def step (s : State) : Host.Outcome State Fault Refusal :=
  match s.agenda with
  | c :: cs => perform c { s with agenda := cs }
  | [] => .next (auto s)

/-- The state with an instruction placed where the next step fetches: the bits of `w` below `nbits`, numbered as the
operations table numbers them. -/
def State.withFetchWord (s : State) (nbits w : Nat) : State := placeInstr s nbits w

end Sys2Proof.Machine
end

