-- ==== Sys2Proof/Safety.lean ====
section
/-! DEFINITION. What claims call a good state and a safe run: the form of every memory, the ranges of the control registers,
and runs on which every step answers a next state. -/

namespace Sys2Proof.Machine

open Sys2Proof

/-- The memories of a panel have the canonical form. -/
def Panel.memOk (p : Panel) : Bool :=
  Memory.wf p.sp && Memory.wf p.acc && (match p.tile with
    | some t => Memory.wf t
    | none => true)

/-- The memories of a core have the canonical form. -/
def CoreSt.memOk (c : CoreSt) : Bool := Memory.wf c.tile && Memory.wf c.latch.bytes

/-- Every memory of the machine has the canonical form. -/
def memoriesOk (s : State) : Bool :=
  Memory.wf s.hbm && Memory.wf s.hostMem && Memory.wf s.mgmt.health && s.panels.all Panel.memOk
    && s.cores.toList.all CoreSt.memOk

/-- A cluster belongs to at most one partition (06 R99). -/
def clustersDisjoint (s : State) : Bool :=
  (List.range 8).all fun p => (List.range 8).all fun q => p == q || (partAt s p).clus &&& (partAt s q).clus == 0

/-- The least margin of every partition lies in 1 to 63 (06 Table 6-4). -/
def gapsOk (s : State) : Bool := (List.range 8).all fun p => decide (1 ≤ (partAt s p).gap ∧ (partAt s p).gap ≤ 63)

/-- ACLK lies between 625 MHz and 1.25 GHz, and the host cap between 1,500 W and 3,000 W (01 R10, Table 1-3). -/
def powerOk (s : State) : Bool :=
  decide (10 ≤ s.mgmt.aclk ∧ s.mgmt.aclk ≤ 20 ∧ 1500 ≤ s.mgmt.pwrCap ∧ s.mgmt.pwrCap ≤ 3000)

/-- What every step keeps of the control registers. -/
def controlsOk (s : State) : Bool := clustersDisjoint s && gapsOk s && powerOk s

/-! ## Issue, as claims speak of it -/

/-- A gang without the bookkeeping of issue: its pointer, results not yet visible, and the cycle it became ready. -/
def Gang.quiet (g : Gang) : Gang := { g with ptr := 0, pending := [], readyAt := none }

/-- A panel without the bookkeeping of issue. -/
def Panel.quiet (p : Panel) : Panel := { p with begun := false, gangs := p.gangs.map Gang.quiet }

/-- A core without its active set and its scan. -/
def CoreSt.quiet (c : CoreSt) : CoreSt := { c with active := [], start := 0, scan := 0, used := [] }

/-- The state without the bookkeeping of issue (07 R126 to R131): which gangs stand in the active sets, how far the scans
have come, which results are not yet visible, the issuing fragment and the model's own counter. Everything that an
instruction can compute or store is kept. -/
def State.quiet (s : State) : State :=
  { s with issuer := none, free := 0, panels := s.panels.map Panel.quiet, cores := s.cores.map CoreSt.quiet }

/-- Fragments of the issuing gang that have come together are one again (07 R124, R125). -/
def Ctx.settle (x : Ctx) (s : State) : State :=
  x.updP (fun p => { p with gangs := modifyAt (settleEntries p.hdr) p.gangs x.gi }) s

/-- A state after one issue of the panel: ISSUE and POCKET_MISS count it (16 Table 16-9, 17 R273), and fragments come together. -/
def Ctx.issued (x : Ctx) (u : State) : State := x.settle (x.countIssue u)

/-- Instruction `i` completes in `s` with the effect that leads to `u`: `exec` answers a next state, which is `u` after one
issue, but for the bookkeeping of issue. `x` is what the issuing fragment sees. -/
def Ctx.completes (x : Ctx) (i : Instr) (s u : State) : Prop :=
  ∃ t, exec i s = .next t ∧ t.quiet = (x.issued u).quiet

/-- Instruction `i` traps in `s`: `exec` answers the state in which the issuing fragment has taken trap `t` (13 R217 to R220,
R225), and nothing else has happened. -/
def Ctx.traps (x : Ctx) (i : Instr) (s : State) (t : Trap) : Prop :=
  ∃ u, exec i s = .next u ∧ u.quiet = (x.settle (takeTrap s x.pid x.gi x.ei t (unwinds t.cause))).quiet

/-- The instruction passes the checks of issue and waits for nothing (13 R218, 16 R256, R258, R259): it stays in its window,
it is legal in its mode and state, its registers exist, the gang's role allows it, every vector register it reads is FULL
(POISON too for SPILL), and neither interlock nor pocket holds it. -/
def Ctx.ready (x : Ctx) (i : Instr) : Prop :=
  crosses x.pc x.len = false ∧ legal i = true ∧ barred x.p.hdr i = false ∧ illegalNow x.p x.g x.e i = false ∧
    rangeTrap x.p.hdr (operandsAt x.p i) = none ∧ roleAllows x.g.role (opOf i) = true ∧
    (∀ r ∈ vecSources (operandsAt x.p i), (vget x.g.v r.2 vreg0).st = .full ∨
      (keepsPoison i = true ∧ (vget x.g.v r.2 vreg0).st = .poison)) ∧
    interlockUntil x.p.hdr x.p.clk x.g x.e.slices i (sourceKeys x.ctl (operandsAt x.p i)) = none ∧
    (pocketMisses x.g (vecSources (operandsAt x.p i)) = 0 ∨ x.e.held ≠ 0)

/-- Whatever the issuing fragment sees, if the instruction is ready and `h` holds, it completes and `f` is its effect on the
state in which the PC has moved past it. -/
def completesWhen (i : Instr) (s : State) (h : Ctx → Prop) (f : Ctx → State → State) : Prop :=
  ∀ x, ctxOf i s = some x → x.ready i → h x → x.completes i s (f x (x.begin s))

/-- A ready instruction completes, and `f` is its effect. -/
def completesWith (i : Instr) (s : State) (f : Ctx → State → State) : Prop := completesWhen i s (fun _ => True) f

/-- Whatever the issuing fragment sees, if the instruction is ready, `h` holds and its last part, which `r` gives, answers a
state, it completes with that state. -/
def completesTo (i : Instr) (s : State) (h : Ctx → Prop) (r : Ctx → State → Body) : Prop :=
  ∀ x u, ctxOf i s = some x → x.ready i → h x → r x (x.begin s) = .ok u → x.completes i s u

/-- Whatever the issuing fragment sees, if the instruction is ready and `h` holds, it takes trap `t`. -/
def trapsWhen (i : Instr) (s : State) (h : Ctx → Prop) (t : Ctx → Trap) : Prop :=
  ∀ x, ctxOf i s = some x → x.ready i → h x → x.traps i s (t x)

/-- The same after effects that stand, which `f` gives (13 R218): the PC stands at the instruction again. -/
def trapsAfter (i : Instr) (s : State) (h : Ctx → Prop) (f : Ctx → State → State) (t : Ctx → Trap) : Prop :=
  ∀ x, ctxOf i s = some x → x.ready i → h x → ∃ u, exec i s = .next u ∧
    u.quiet = (x.settle (takeTrap (x.back (f x (x.begin s))) x.pid x.gi x.ei (t x) (unwinds (t x).cause))).quiet

/-- Whatever the issuing fragment sees, if the instruction is ready and `h` holds, its fragment blocks for `b` without an
effect, and the instruction issues again later (07 R130). -/
def blocksWhen (i : Instr) (s : State) (h : Ctx → Prop) (b : Ctx → Block) : Prop :=
  ∀ x, ctxOf i s = some x → x.ready i → h x → ∃ u, exec i s = .next u ∧
    u.quiet = (x.settle (x.blockAs (b x) s)).quiet

/-- Whatever the issuing fragment sees, if the instruction is ready and `h` holds, its fragment waits for a read of `len` bytes at `va`,
which measures what the instruction needs, and the instruction issues again later (13 R227). -/
def measuresWhen (i : Instr) (s : State) (h : Ctx → Prop) (va len : Nat) : Prop :=
  ∀ x, ctxOf i s = some x → x.ready i → h x → ∃ u, exec i s = .next u ∧
    u.quiet = (x.settle (x.blockAs (.measure s.nextId)
      (newCmd s (.measure x.pid) x.p.core .copy (.fetch [(va, len)]) x.p.hdr.asid id))).quiet

/-- Whatever the issuing fragment sees, if the instruction is ready and `h` holds, it issues, its effect `f` stands, and its
fragment waits as `b` for the event that lets it go on (07 R130, R135, R136, R138). -/
def waitsWhen (i : Instr) (s : State) (h : Ctx → Prop) (b : Ctx → Block) (f : Ctx → State → State) : Prop :=
  ∀ x, ctxOf i s = some x → x.ready i → h x → ∃ u, exec i s = .next u ∧
    u.quiet = (x.issued (x.blockAs (b x) (x.back (f x (x.begin s))))).quiet

/-- Whatever the issuing fragment sees, if the instruction is ready and `h` holds, its effect `f` stands and its fragment waits
as `b` at the instruction, which issues again later (07 R130, 22 R354, R355). -/
def parksWhen (i : Instr) (s : State) (h : Ctx → Prop) (b : Ctx → Block) (f : Ctx → State → State) : Prop :=
  ∀ x, ctxOf i s = some x → x.ready i → h x → ∃ u, exec i s = .next u ∧
    u.quiet = (x.settle (x.blockAs (b x) (x.back (f x (x.begin s))))).quiet

/-- A ready instruction with `h` whose addresses are `as`, each of `w` bytes, traps with ALIGN where one is misaligned, and
else with SP_RANGE where one leaves the panel's scratchpad; tinfo is the first address that fails (08 R142). -/
def addressTraps (i : Instr) (s : State) (h : Ctx → Prop) (as : Ctx → List Int) (w : Ctx → Nat) : Prop :=
  ∀ a, trapsWhen i s (fun x => h x ∧ (as x).find? (fun b => b % (w x : Int) != 0) = some a)
      (fun _ => mkTrap cAlign (BitVec.ofInt 64 a)) ∧
    trapsWhen i s (fun x => h x ∧ (∀ b ∈ as x, b % (w x : Int) = 0) ∧
        (as x).find? (fun b => !decide (0 ≤ b ∧ b + w x ≤ (x.p.hdr.size : Int))) = some a)
      (fun _ => mkTrap cSpRange (BitVec.ofInt 64 a))

/-- A store to the byte ranges `rs` reaches none of bytes 0 to 3 of the notify word (21 R330). -/
def Ctx.ringApart (x : Ctx) (rs : List (Nat × Nat)) : Prop :=
  x.p.ring.size = 0 ∨ ∀ r ∈ rs, r.1 + r.2 ≤ x.p.ring.notify.toNat ∨ x.p.ring.notify.toNat + 4 ≤ r.1

/-- The state after a store to the byte ranges `rs`, with what it publishes (21 R330). -/
def Ctx.published (x : Ctx) (rs : List (Nat × Nat)) (s : State) : State :=
  match x.stored rs s with
  | .ok t => t
  | .error _ => s

/-- A ready instruction with `h` stores to the byte ranges `rs`, with effect `f`, and publishes what the notify word then
says. It completes unless what it publishes finds no room in the hold area of a redundant panel. -/
def storesTo (i : Instr) (s : State) (h : Ctx → Prop) (rs : Ctx → List (Nat × Nat)) (f : Ctx → State → State) : Prop :=
  completesTo i s h (fun x u => x.stored (rs x) (f x u)) ∧
  completesWhen i s (fun x => h x ∧ (x.p.hdr.redundant = false ∨ x.ringApart (rs x)))
    (fun x u => x.published (rs x) (f x u))

/-- A ready instruction with `h` counts `n` invalid codes in alphabet register `r` and has effect `f`; it traps with
INVALID_CODE, the count standing and nothing else, when there is one and the register's TRAP bit is set (11 R199). -/
def decodes (i : Instr) (s : State) (h : Ctx → Prop) (r : Nat) (n : Ctx → Nat) (f : Ctx → State → State) : Prop :=
  completesWhen i s (fun x => h x ∧ ((x.alpha r).trap = false ∨ n x = 0)) (fun x u => f x (x.countInvalid r (n x) u)) ∧
  trapsAfter i s (fun x => h x ∧ (x.alpha r).trap = true ∧ n x ≠ 0) (fun x => x.countInvalid r (n x))
    (fun _ => mkTrap cInvalidCode (BitVec.ofNat 64 r))

/-! ## What groups of instructions do and need -/

/-- What a structured-nesting instruction makes of the counter of a lane (07 Table 7-2); none for the other instructions. -/
def nestOp : Instr → Option (Ctx → Nat → Nat → Nat)
  | .ifMask _ a => some fun x l n => if n = 0 then (if x.on l && x.maskBit a l then 0 else 1) else n + 1
  | .elseMask _ => some fun _ _ n => if n = 0 then 1 else if n = 1 then 0 else n
  | .endif _ => some fun _ _ n => n - 1
  | .loop _ => some fun _ _ n => if n = 0 then 0 else n + 2
  | .breakMask _ a k => some fun x l n => if n = 0 && x.on l && x.maskBit a l then k.toNat + 2 else n
  | .contMask _ a k => some fun x l n => if n = 0 && x.on l && x.maskBit a l then k.toNat + 1 else n
  | _ => none

/-- A gang with the nesting counters of the fragment's lanes set (07 R128). -/
def Ctx.nested (x : Ctx) (f : Nat → Nat) (g : Gang) : Gang :=
  let new := fun l => if x.fragLanes.contains l then BitVec.ofNat 6 (f l) else vget g.nest l 0
  { g with nest := Vector.ofFn fun l : Fin 32 => new l.val }

/-- The value of element `j` of a lane, after the flush of its subnormal when FTZ asks for it (10 R186). -/
def Ctx.fval (x : Ctx) (m : Fmt) (v : Word) (j : Nat) : FVal := m.value (x.fin m v j)

/-- A float result: the lanes of a register, and the events of all active lanes charged to the gang's tid (18 R287, 10
R191). -/
def floatEffect (t : Ty) (d : Reg) (f : Ctx → Fmt → Nat → Nat → Elem) (x : Ctx) (u : State) : State :=
  x.count (x.tally fun l => countsOf t.perLane (f x (fmtOf t) l))
    (x.setV d (fun l => elemsOf t.perLane (f x (fmtOf t) l)) u)

/-- A conversion's result: the lanes of a register, the stochastic-rounding states of the lanes, and the events (18 R291, 10
R185, R191). -/
def convertEffect (sr : Bool) (dt : Ty) (d a : Reg) (st : Ty) (part : BitVec 3) (conv : Ctx → Nat → Rnd → Nat → Elem)
    (x : Ctx) (u : State) : State :=
  let r := x.convLane sr dt st part (conv x) a
  let next := fun (g : Gang) l => if x.on l then (r l).sr else vget g.srs l 0
  x.count (x.tally fun l => (r l).c) (x.updG (fun g => { g with srs := Vector.ofFn fun l : Fin 32 => next g l.val })
    (x.setV d (fun l => x.convWord dt d l (r l)) u))

/-- The words at the active lanes' addresses lie in the panel's scratchpad, each aligned (19 R309). -/
def Ctx.lanesFit (x : Ctx) (a : Reg) (off : Off) : Prop :=
  ∀ l ∈ x.lanes, x.laneAddr a off l % 4 = 0 ∧ 0 ≤ x.laneAddr a off l ∧ x.laneAddr a off l + 4 ≤ x.p.hdr.size

/-- The slices of the fragment that have an active lane. -/
def Ctx.usedSlices (x : Ctx) : List Nat := x.slices.filter fun i => x.lanes.any fun l => sliceOf l == i

/-- The layout words of LDT and STT name the instruction's type, no alphabet and no 64-bit type, and the elements lie in
scratchpad (19 R310). -/
def Ctx.tensorFits (x : Ctx) (t : Ty) (a b : Reg) : Prop :=
  t ≠ .n64 ∧ t ≠ .i64 ∧ alphaIdx t = none ∧
    ∀ l ∈ x.lanes, (x.layout a (sliceOf l)).bad = false ∧ Ty.ofCode (x.layout a (sliceOf l)).etype = some t ∧
      layAlpha (x.layout a (sliceOf l)) = none ∧ x.tensorAddr a b l % elemBytes x.p.alph t = 0 ∧
      x.tensorAddr a b l + elemBytes x.p.alph t ≤ x.p.hdr.size

/-- The layout words of SYMLD and SYMST name the instruction's alphabet, which is defined, and the containers lie in
scratchpad (19 R305). -/
def Ctx.symbolsFit (x : Ctx) (an : BitVec 4) (a b : Reg) : Prop :=
  (x.alpha an.toNat).defd = true ∧
    ∀ l ∈ x.lanes, (x.layout a (sliceOf l)).bad = false ∧ (x.layout a (sliceOf l)).etype = 0x20 + an.toNat ∧
      ((x.layout a (sliceOf l)).addr x.p.alph (x.v b l).toNat 0 0 0) % (x.alpha an.toNat).bytes = 0 ∧
      ((x.layout a (sliceOf l)).addr x.p.alph (x.v b l).toNat 0 0 0) + (x.alpha an.toNat).bytes ≤ x.p.hdr.size

/-- The address of the container that lane `l` of SYMLD or SYMST names (19 R305). -/
def Ctx.symbolAddr (x : Ctx) (a b : Reg) (l : Nat) : Nat :=
  (x.layout a (sliceOf l)).addr x.p.alph (x.v b l).toNat 0 0 0

/-- Active lanes whose value no code of the alphabet carries (19 R306). -/
def Ctx.lostSymbols (x : Ctx) (sym : Bool) (an : BitVec 4) (b cc : Reg) : Nat :=
  (x.lanes.filter fun l =>
    ((x.alpha an.toNat).carried sym (ftzOf x.g.fpcsr) (x.v cc l) ((x.v b l).toNat % (x.alpha an.toNat).k)).isNone).length

/-- The containers that PACK rewrites, with their new codes and the invalid codes met: those whose every lane is active
(19 R303). -/
def Ctx.packedContainers (x : Ctx) (sym : Bool) (an : BitVec 4) (d a : Reg) (first : Word) : List (Nat × Nat × Nat) :=
  let al := x.alpha an.toNat
  ((distinct ((x.lanes.map fun l => (first.toNat + l) / al.k).filter fun k => decide (k < 1024 / al.w))).filter
    fun k => (containerLanes al k).all x.on).map (x.packContainer al sym d a first.toNat)

/-- The address and the image of ALDEF (19 R300). -/
def Ctx.aldefAddr (x : Ctx) (a : Reg) (off : Off) : Int := addrOf (x.sLow a) off
def Ctx.aldefImage (x : Ctx) (s : State) (a : Reg) (off : Off) : BitVec 256 :=
  BitVec.ofNat 256 ((spOf s x.pid).readNat (x.aldefAddr a off).toNat 32)

/-- Rows `first` to `first + count − 1` of the accumulator exist (20 R315). -/
def Ctx.rowsFit (x : Ctx) (first count : Nat) : Prop := first + count ≤ x.p.hdr.rows

/-- Addresses with their widths: aligned and in scratchpad. -/
def Ctx.rangesFit (x : Ctx) (as : List (Nat × Nat)) : Prop := ∀ q ∈ as, q.1 % q.2 = 0 ∧ q.1 + q.2 ≤ x.p.hdr.size

/-- The layout words of MXWR and MXRD name the instruction's type, with its alphabet defined, and rows and elements exist
(20 R317, R318). -/
def Ctx.tileFits (x : Ctx) (t : Ty) (a : Reg) (first count : Nat) : Prop :=
  (∀ n, layAlpha (layOf (x.layWords a)) = some n → (x.alpha n).defd = true) ∧ (layOf (x.layWords a)).bad = false ∧
    Ty.ofCode (layOf (x.layWords a)).etype = some t ∧ x.rowsFit first count ∧
    x.rangesFit (tileAddrs (layOf (x.layWords a)) x.p.alph count)

/-- The layout words of a matrix operand have the format of its index, its alphabet defined and eligible (20 R319, 11
R202). -/
def Ctx.formatFits (x : Ctx) (index : Nat) (lay : Layout) : Prop :=
  (∀ n, layAlpha lay = some n → (x.alpha n).defd = true ∧ (index = 10 → (x.alpha n).eligible = true)) ∧
    lay.bad = false ∧ indexIsType index lay = true

/-- The K of an MMA's pass: the lesser of its formats' (20 R319). -/
def Ctx.mmaK (x : Ctx) (ta tb : Nat) (a b cc : Reg) : Nat :=
  min (passK ta (x.arrival ta tb a b cc).alphaA) (passK tb (x.arrival ta tb a b cc).alphaB)

/-- The operands of an MMA fit: formats, rows of A, B and the accumulator, elements and scales (20 R319 to R321). -/
def Ctx.mmaFits (x : Ctx) (ta tb : Nat) (a b cc : Reg) : Prop :=
  let y := x.arrival ta tb a b cc
  let k := x.mmaK ta tb a b cc
  let rows := y.rows.map fun r => r.2.1
  x.formatFits ta (layOf (x.layWords b)) ∧ x.formatFits tb (layOf (x.layWords cc)) ∧
    (∀ r ∈ y.rows, x.rowsFit r.2.2 1) ∧
    x.rangesFit (rowAddrs (layOf (x.layWords b)) x.p.alph k rows ++ tileAddrs (layOf (x.layWords cc)) x.p.alph k ++
      scaleAddrs y.scaleA k k rows ++ scaleAddrs y.scaleB k k (List.range 128))

/-- The gang list of a joint MMA, and the latch of its lead as an arrival finds it (20 R321, 07 R138). -/
def Ctx.gangList (x : Ctx) (d : Reg) : Nat := (x.sLow d).toNat % 2 ^ 33
def Ctx.latchOf (x : Ctx) (ta tb : BitVec 4) (keepb ck : Bool) (d cc : Reg) : Latch :=
  let list := x.gangList d
  (x.p.latches.find? fun l => l.lead == listSlot list 0).getD
    ⟨listSlot list 0, list, x.layWords cc, tb.toNat * 16 + ta.toNat, keepb.toNat + 2 * ck.toNat, []⟩

/-- A joint MMA may arrive: its list names two to six gangs of the panel, its own among them, once each and none exited, the
fragment is the whole gang, and the latch says the same as it does (20 R321, 07 R138, R139). -/
def Ctx.joins (x : Ctx) (ta tb : BitVec 4) (keepb ck : Bool) (d cc : Reg) : Prop :=
  let list := x.gangList d
  let l := x.latchOf ta tb keepb ck d cc
  2 ≤ list % 8 ∧ list % 8 ≤ 6 ∧ x.whole = true ∧ badList list x.gi x.p.gangs.length = false ∧
    (∀ n ∈ listGangs list, ∀ g, x.p.gangs[n]? = some g → gangExited x.p.hdr g = false) ∧
    l.list = list ∧ l.layB = x.layWords cc ∧ l.sub = tb.toNat * 16 + ta.toNat ∧ l.mod = keepb.toNat + 2 * ck.toNat

/-- The latch with this gang's arrival. -/
def Ctx.latched (x : Ctx) (ta tb : BitVec 4) (keepb ck : Bool) (d a b cc : Reg) : Latch :=
  let l := x.latchOf ta tb keepb ck d cc
  { l with arrivals := l.arrivals ++ [x.arrival ta.toNat tb.toNat a b cc] }

/-- Every gang of the list has arrived. -/
def allArrived (l : Latch) : Prop := ∀ n ∈ listGangs l.list, ∃ y ∈ l.arrivals, y.gang = n

/-- The ring and its notify word lie in scratchpad (21 R329). -/
def Ctx.ringFits (x : Ctx) : Prop :=
  x.p.ring.base.toNat + 32 * x.p.ring.size.toNat ≤ x.p.hdr.size ∧ x.p.ring.notify.toNat + 8 ≤ x.p.hdr.size

/-- No batch of the classes of a mask is outstanding or has failed, and the instruction has sealed nothing yet (09 R158, 22
R355). -/
def Ctx.calm (x : Ctx) (m : BitVec 5) : Prop :=
  x.e.sealed = [] ∧ x.e.paired = none ∧ ∀ c, inMask m c = true →
    (openOf x.g c).left = 0 ∧ (openOf x.g c).fail = none ∧ counterOf x.g c = 0 ∧ failedOf x.g c = none

/-- A release has nothing to wait for: no batch is outstanding, no partner's signature is compared, and at SYSTEM scope the
home port holds no write of the panel (09 R158, 13 R228). -/
def Ctx.calmRelease (x : Ctx) (system : Bool) (s : State) : Prop :=
  x.calm allMask ∧ x.p.hdr.redundant = false ∧
    (system = true → (s.links.posted.any fun w => w.pid == some x.pid) = false)

/-- The open batches of the classes of a mask are sealed, in ascending class order (09 R166, 22 R355). -/
def Ctx.sealAll (x : Ctx) (m : BitVec 5) (s : State) : State :=
  (allClasses.filter (inMask m)).foldl (fun t c => sealClass t x.pid x.gi c) s

/-- The places below which a fence or a release that seals from the number `n` on has its seals, by class (13 R218). -/
def sealBounds (m : BitVec 5) (n : Nat) : List (Nat × Nat) :=
  ((allClasses.filter (inMask m)).mapIdx fun k c => (clsNo c, n + 2 * (k + 1))).reverse

/-- A fence or a release that has sealed nothing yet may seal every class of its mask (09 R166). -/
def Ctx.sealable (x : Ctx) (m : BitVec 5) : Prop :=
  x.e.sealed = [] ∧ x.e.paired = none ∧ ∀ c, inMask m c = true → counterOf x.g c < 63 ∧ (openOf x.g c).complete = false

/-- A command of a class of the mask is outstanding, in the open batch or in a sealed one (09 R166). -/
def Ctx.outstanding (x : Ctx) (m : BitVec 5) (s : State) : Prop :=
  ∃ c, inMask m c = true ∧ (0 < (openOf x.g c).left ∨
    ∃ b ∈ x.g.seals, b.cls = c ∧ b.complete = false ∧ 0 < b.left ∧ b.order < s.nextId)

/-- A fence or a release that has sealed every class of its mask finds those batches complete and none of them failed (09
R158, 22 R355). -/
def Ctx.settled (x : Ctx) (m : BitVec 5) : Prop :=
  (∀ c, inMask m c = true → ∃ b ∈ x.e.sealed, b.1 = clsNo c) ∧
    ∀ b ∈ x.g.seals, b.order < boundOf x.e.sealed b.cls → b.complete = true ∧ b.fail = none

/-- A release that has sealed every class finds those batches and the earlier ones complete, and one of them failed: of the completed
batches of the gang whose failures no instruction has consumed, the lowest class that has one is `k`, and the earliest sealed of that
class failed with `f` (09 R158, 21 R336). -/
def Ctx.failedRelease (x : Ctx) (k : Cls) (f : Fail) : Prop :=
  (∀ c, ∃ b ∈ x.e.sealed, b.1 = clsNo c) ∧
    (∀ b ∈ x.g.seals, b.order < boundOf x.e.sealed b.cls → b.complete = true) ∧
    (∃ b ∈ x.g.seals, b.order < boundOf x.e.sealed b.cls ∧ b.fail.isSome = true) ∧
    (failedOf x.g k).bind (·.fail) = some f ∧ ∀ c, clsNo c < clsNo k → failedOf x.g c = none

/-- A fence that has sealed its classes finds every sealed batch of them complete, and of those whose failures no instruction has
consumed, the lowest class that has one is `k`, and the earliest sealed of that class failed with `f` (22 R355, 21 R336). -/
def Ctx.failedFence (x : Ctx) (m : BitVec 5) (k : Cls) (f : Fail) : Prop :=
  (∀ c, inMask m c = true → counterOf x.g c = 0 ∧ ∃ b ∈ x.e.sealed, b.1 = clsNo c) ∧ inMask m k = true ∧
    (failedOf x.g k).bind (·.fail) = some f ∧ ∀ c, inMask m c = true → clsNo c < clsNo k → failedOf x.g c = none

/-- A release of a panel that is not redundant finds no write of the panel at the home port, where it waits for them (09
R158). -/
def Ctx.delivered (x : Ctx) (system : Bool) (s : State) : Prop :=
  x.p.hdr.redundant = false ∧ (system = true → (s.links.posted.any fun w => w.pid == some x.pid) = false)

/-- The hold area has room for `n` entries, where the panel is redundant (13 R227). -/
def Ctx.holdFits (x : Ctx) (n : Nat) : Prop := x.p.hdr.redundant = false ∨ n ≤ x.p.holdFree

/-- The state in which `n` entries of the hold area are taken for the open batch of a class (13 R227). -/
def Ctx.holding (x : Ctx) (c : Cls) (n : Nat) (s : State) : State :=
  if x.p.hdr.redundant && n != 0 then
    x.updP (fun p => { p with heldCount := p.heldCount ++
      [(((p.gangs[x.gi]?).map fun g => (openOf g c).bid).getD 0, n)] }) s
  else s

/-- The rows of a row form lie in scratchpad (21 R338). -/
def Ctx.rowsIn (x : Ctx) (t : Ty) (a : Reg) (n : Nat) : Prop :=
  (∀ k, alphaIdx t = some k → (x.alpha k).defd = true) ∧ (x.sLow (a + 1)).toNat % 2 ^ 20 % 64 = 0 ∧
    ∀ l ∈ x.lanes, (x.sLow (a + 1)).toNat % 2 ^ 20 + 64 * n * l + 64 * n ≤ x.p.hdr.size

/-- The scratchpad address of the row of lane `l` (21 R338). -/
def Ctx.rowAt (x : Ctx) (a : Reg) (n l : Nat) : Nat := (x.sLow (a + 1)).toNat % 2 ^ 20 + 64 * n * l

/-- The bytes that the register form of SCAT stores, and the row form, a higher lane over a lower one (21 R339). -/
def Ctx.scatBytes (x : Ctx) (t : Ty) (a b : Reg) (scale : Nat) : List (Nat × Byte) :=
  (x.lanes.flatMap fun l => bytesAt (x.gathAddr a b scale (gathWidth t) l)
    (natBytes (gathWidth t) (x.v (b + 1) l).toNat)).foldl putByte []
def Ctx.scatRows (x : Ctx) (a b : Reg) (scale n : Nat) : List (Nat × Byte) :=
  (x.lanes.flatMap fun l => bytesAt (x.gathAddr a b scale 0 l) (x.p.sp.read (x.rowAt a n l) (64 * n))).foldl putByte []

/-- The granules that bytes touch. -/
def touchedGranules (bs : List (Nat × Byte)) : Nat := (distinct (bs.map fun p => p.1 / 64)).length

/-- A slot is bound, no HGCFG is pending on it, and it has levels `l0` to `l0 + n − 1` (12 R206). -/
def Ctx.bound (x : Ctx) (slot : BitVec 4) (l0 n : Nat) (k : SmockCfg) : Prop :=
  (x.smock slot).queue = [] ∧ (x.smock slot).cfg = some k ∧ l0 + n ≤ k.levels

/-- A sleeve of the panel on which SLVINIT has run (22 R353). -/
def Ctx.sleeveOn (x : Ctx) (n : BitVec 4) : Prop := n.toNat < x.p.hdr.nSleeves ∧ (x.sleeve n.toNat).init = true

/-- A fragment that has waited as `b`, or one that finds no other waiting so (22 R353). -/
def Ctx.turn (x : Ctx) (b : Block) : Prop := x.e.blk = some b ∨ someWaits x.p b = false

/-- The adds that HGSC sends, and the granules of the plane that they touch (12 R211). -/
def Ctx.planeAdds (x : Ctx) (k : SmockCfg) (a b : Reg) (y : SmkX) : List (Nat × Int) :=
  ((x.lanes.map (x.laneAdds k a b y.l0.toNat (y.n1.toNat + 1))).flatMap (·.1)).filter fun p => p.2 != 0
def Ctx.addGranules (x : Ctx) (k : SmockCfg) (a b : Reg) (y : SmkX) : Nat :=
  (distinct ((x.planeAdds k a b y).map fun p => p.1 / 64)).length

/-- The lanes of the fragment that are members of a seam, and the seam once they have arrived (07 R135). -/
def Ctx.memberLanes (x : Ctx) (n : BitVec 4) : Word :=
  lanesIn (vget x.p.seams n.toNat seam0).members x.gi &&& x.liveLanes
def Ctx.arrivedAt (x : Ctx) (n : BitVec 4) : Seam :=
  let k := vget x.p.seams n.toNat seam0
  { k with arrived := setLanes k.arrived x.gi (lanesIn k.arrived x.gi ||| x.memberLanes n) }

/-! ## Frames -/

/-- What of a gang an instruction leaves that writes no vector register but those of `vs`, and no scalar register but those
of `ss`: every other register, em and the nesting counters, the exited slices, fpcsr and tid, the trap registers, the
regions, the scale states and the role, the sealed batches, the acquires, releases and signatures, and the working set. The
split table, which holds the PCs, may change, and so may the open batches (see `Gang.opens`). -/
def Gang.keeps (vs ss : List Nat) (g h : Gang) : Prop :=
  (∀ r, r ∉ vs → vget h.v r vreg0 = vget g.v r vreg0) ∧ (∀ r, r ∉ ss → vget h.s r copies0 = vget g.s r copies0) ∧
    h.em = g.em ∧ h.nest = g.nest ∧ h.exited = g.exited ∧ h.fpcsr = g.fpcsr ∧ h.tid = g.tid ∧ h.tcause = g.tcause ∧
    h.tpc = g.tpc ∧ h.tinfo = g.tinfo ∧ h.handler = g.handler ∧ h.hslices = g.hslices ∧ h.regions = g.regions ∧
    h.mxA = g.mxA ∧ h.mxB = g.mxB ∧ h.unwind = g.unwind ∧ h.role = g.role ∧ h.seals = g.seals ∧
    h.acquires = g.acquires ∧ h.releases = g.releases ∧ h.feeds = g.feeds ∧ h.sealedBids = g.sealedBids ∧ h.wset = g.wset

/-- What of a panel such an instruction leaves besides its gangs and its scratchpad: every byte of the accumulator, the
smock slots, the seams, the BARW slots, the sleeves, the rendezvous latches, clk and the check counters, its place, its
pre-emption, its partner and its held writes. -/
def Panel.keeps (p q : Panel) : Prop :=
  q.hdr = p.hdr ∧ q.life = p.life ∧ (∀ a, q.acc.get a = p.acc.get a) ∧ q.smk = p.smk ∧ q.seams = p.seams ∧
    q.barw = p.barw ∧ q.sleeves = p.sleeves ∧ q.latches = p.latches ∧ q.clk = p.clk ∧ q.ckFail = p.ckFail ∧
    q.ckUnchk = p.ckUnchk ∧ q.tile = p.tile ∧ q.keptFor = p.keptFor ∧ q.core = p.core ∧ q.slots = p.slots ∧
    q.leaving = p.leaving ∧ q.moving = p.moving ∧ q.drain = p.drain ∧ q.elapsed = p.elapsed ∧ q.partner = p.partner ∧
    q.primary = p.primary ∧ q.held = p.held ∧ q.mirror = p.mirror

/-- What such an instruction of gang `gi` of panel `pid` leaves outside that gang: every byte of the stacks and of host
memory, the other gangs of the panel and the other panels, but for the bookkeeping of issue, the transpose tiles, the B
latches, the read buffers, what reads have returned and the linings, the launches, and the registers of the part. The commands are those of `State.cmds`:
an instruction that issues none leaves them too. -/
def State.keeps (pid gi : Nat) (s t : State) : Prop :=
  (∀ a, t.hbm.get a = s.hbm.get a) ∧ (∀ a, t.hostMem.get a = s.hostMem.get a) ∧ t.marks = s.marks ∧ t.gus = s.gus ∧
    t.mgmt = s.mgmt ∧ t.links = s.links ∧ t.sems = s.sems ∧ t.queues = s.queues ∧ t.parts = s.parts ∧
    t.asidBase = s.asidBase ∧ t.xfaults = s.xfaults ∧ t.clusters = s.clusters ∧ t.iodTlb = s.iodTlb ∧
    (∀ n, (coreAt t n).tile = (coreAt s n).tile ∧ (coreAt t n).tileOwner = (coreAt s n).tileOwner ∧
      (coreAt t n).latch = (coreAt s n).latch ∧ (coreAt t n).rbuf = (coreAt s n).rbuf ∧
      (coreAt t n).seen = (coreAt s n).seen ∧ (coreAt t n).lining = (coreAt s n).lining) ∧
    t.launches = s.launches ∧ t.inval = s.inval ∧ t.sensors = s.sensors ∧ t.flash = s.flash ∧ t.fqBase = s.fqBase ∧
    t.fqWritten = s.fqWritten ∧ t.fqSize = s.fqSize ∧ t.fqProd = s.fqProd ∧ t.fqCons = s.fqCons ∧ t.nextTag = s.nextTag ∧
    t.irqs = s.irqs ∧ t.reply = s.reply ∧ t.now = s.now ∧ t.fs = s.fs ∧
    (∀ q, q ≠ pid → (getPanel t q).map Panel.quiet = (getPanel s q).map Panel.quiet) ∧
    (∀ h, h ≠ gi → (getGang t pid h).map Gang.quiet = (getGang s pid h).map Gang.quiet)

/-- `q` and `h` are the issuing panel and gang after an instruction that leaves everything but the registers of `vs` and
`ss`, the panel's scratchpad, alphabet registers, ring and counters. -/
def Ctx.keeps (x : Ctx) (vs ss : List Nat) (s t : State) (q : Panel) (h : Gang) : Prop :=
  getPanel t x.pid = some q ∧ getGang t x.pid x.gi = some h ∧ x.g.keeps vs ss h ∧ x.p.keeps q ∧ s.keeps x.pid x.gi t

/-- What an instruction that stores nothing leaves of the panel besides: every byte of scratchpad, the alphabet registers,
the ring, and the counts of the hold area. -/
def Panel.keepsBytes (p q : Panel) : Prop :=
  (∀ a, q.sp.get a = p.sp.get a) ∧ q.alph = p.alph ∧ q.ring = p.ring ∧ q.heldCount = p.heldCount

/-- An instruction that issues no command leaves the open batches of its gang, every command and the next number. -/
def Ctx.issuesNone (x : Ctx) (s t : State) (g : Gang) : Prop :=
  g.opens = x.g.opens ∧ t.cmds = s.cmds ∧ t.nextId = s.nextId

/-- The scalar register that an instruction of the scalar chapter, a compare or a vote writes; none for the others. -/
def scalarDest : Instr → Option Reg
  | .sadd _ d _ _ | .ssub _ d _ _ | .smul _ d _ _ | .smulh _ _ d _ _ | .sdiv _ _ d _ _ | .srem _ _ d _ _ | .sand _ d _ _
  | .sor _ d _ _ | .sxor _ d _ _ | .sshl _ d _ _ | .sshr _ d _ _ | .ssra _ d _ _ | .smin _ _ d _ _ | .smax _ _ d _ _
  | .scmp _ _ d _ _ | .ssel _ d _ _ _ | .smov _ d _ | .smovi _ d _ | .sclz _ d _ | .spopc _ d _ | .sbfx _ _ d _ _ _
  | .sbfi _ d _ _ _ | .srd _ d _ | .clk _ d | .perf _ d _ | .vcmp _ _ _ d _ _ | .vote _ _ d _ | .ftag _ d _ => some d
  | _ => none

/-- The vector register that an integer, float, conversion or cross-lane instruction writes; none for the others. -/
def vectorDest : Instr → Option Reg
  | .vadd _ _ d _ _ | .vsub _ _ d _ _ | .vmul _ _ d _ _ | .vmulh _ _ d _ _ | .vmad _ _ d _ _ _ | .vadds _ _ d _ _
  | .vsubs _ _ d _ _ | .vand _ d _ _ | .vor _ d _ _ | .vxor _ d _ _ | .vnot _ d _ | .vshl _ _ d _ _ | .vshr _ _ d _ _
  | .vsra _ _ d _ _ | .vmin _ _ d _ _ | .vmax _ _ d _ _ | .vabs _ _ d _ | .vneg _ _ d _ | .vclz _ _ d _ | .vpopc _ _ d _
  | .vbfx _ _ d _ _ _ | .vbfi _ d _ _ _ | .vaddc _ _ d _ _ _ | .vmov _ d _ | .vbcast _ d _ | .vlid _ d | .vsel _ d _ _ _
  | .vmask _ d _ | .fadd _ _ d _ _ | .fsub _ _ d _ _ | .fmul _ _ d _ _ | .ffma _ _ d _ _ _ | .fmin _ _ d _ _
  | .fmax _ _ d _ _ | .fabs _ _ d _ | .fneg _ _ d _ | .fdiv _ _ d _ _ | .frcp _ _ d _ | .frsq _ _ d _ | .fsqrt _ _ d _
  | .fexp2 _ _ d _ | .flog2 _ _ d _ | .ffloor _ _ d _ | .ffrac _ _ d _ | .fscale _ _ d _ _ | .fclass _ _ d _
  | .cvt _ _ d _ _ _ | .cvti _ _ d _ _ _ _ | .cvtf _ _ d _ _ _ | .cvtbx _ _ d _ _ _ _ _ | .shfi _ _ d _ _ | .shfu _ _ d _ _
  | .shfd _ _ d _ _ | .shfx _ _ d _ _ | .gshf _ _ _ _ d _ | .vreda _ _ _ d _ | .vscan _ _ _ _ d _ => some d
  | _ => none

/-- Instructions that may draw from the stochastic-rounding states of the lanes (10 R184, R185, 18 R291 to R293): the
conversions that narrow, and CVTBX. -/
def drawsRandom : Instr → Bool
  | .cvt _ dt _ _ st _ => floatNarrows dt st
  | .cvtf _ dt _ _ st _ => intNarrows dt st
  | .cvtbx .. => true
  | _ => false

/-- Instructions that charge exception events (10 R191): saturating sums, float arithmetic, conversions, reductions and
scans. -/
def chargesEvents : Instr → Bool
  | .vadds .. | .vsubs .. | .fadd .. | .fsub .. | .fmul .. | .ffma .. | .fdiv .. | .frcp .. | .frsq .. | .fsqrt .. | .fexp2 ..
  | .flog2 .. | .ffloor .. | .ffrac .. | .fscale .. | .cvt .. | .cvti .. | .cvtf .. | .cvtbx .. | .vreda .. | .vscan .. => true
  | _ => false

/-- The frame of a store: when a ready instruction with `h` answers a next state, and what it publishes, if anything, finds
room, every register of the gang but those of `vs` and `ss`, every byte of memory but those of the ranges `rs`, and all
else that `Ctx.keeps` names stay. Every alphabet register keeps its definition, and all of it but for the count of register
`al`; the exception counters stay unless `ev` says that the instruction charges events. What it publishes moves PUB of the
ring and adds commands; a store apart from the notify word leaves the ring, the open batches, the commands and the hold
area. -/
def framesStore (i : Instr) (s : State) (h : Ctx → Prop) (rs : Ctx → List (Nat × Nat)) (vs ss : List Nat)
    (al : Option Nat) (ev : Bool) : Prop :=
  ∀ x t, ctxOf i s = some x → x.ready i → h x → (x.p.hdr.redundant = false ∨ x.ringApart (rs x)) → exec i s = .next t →
    ∃ q g, x.keeps vs ss s t q g ∧ g.srs = x.g.srs ∧
      (∀ a, (∀ r ∈ rs x, a < r.1 ∨ r.1 + r.2 ≤ a) → q.sp.get a = x.p.sp.get a) ∧
      (∀ n, alphaOf (vget q.alph n 0) = x.alpha n ∧ (al ≠ some n → vget q.alph n 0 = vget x.p.alph n 0)) ∧
      (ev = false → q.exc = x.p.exc ∧ q.catchAll = x.p.catchAll) ∧
      q.ring = { x.p.ring with pub := q.ring.pub } ∧ s.cmds <+: t.cmds ∧
      (x.ringApart (rs x) → q.ring = x.p.ring ∧ q.heldCount = x.p.heldCount ∧ x.issuesNone s t g)

/-- A register that discards writes is no destination: s0 (17 R256). -/
def destOf (d : Reg) : List Nat := if d = 0 then [] else [d.toNat]

/-- A run of `n` steps on which every step answers a next state. -/
def safeRun : Nat → State → Prop
  | 0, _ => True
  | n + 1, s => ∃ t, step s = .next t ∧ safeRun n t

end Sys2Proof.Machine
end

