-- ==== Sys2Proof/Certificates/Slice0/Obligations.lean ====
section
/-! DEFINITION. The statements for the provers: what the instructions and the events of the part do, by the rules of the
specification. -/

open Sys2Proof Sys2Proof.Machine

/-! ## Scalar instructions (chapter 17) -/

/-- 17 Table 17-5, R274: on every slice of the fragment the destination receives the result of the slice's own copies; divisions
by zero and the most negative quotient as the table gives them. 17 Table 17-5, R274: bitwise operations, and shifts by bits [5:0]
of the second source. -/
def Obligations.ScalarArithmetic : Prop :=
  (∀ (c : Ctl) (d a : Reg) (b : Src) (u : Bool) (s : State),
     completesWith (.sadd c d a b) s (fun x => x.setS d fun k => x.s a k + x.sb b k) ∧
     completesWith (.ssub c d a b) s (fun x => x.setS d fun k => x.s a k - x.sb b k) ∧
     completesWith (.smul c d a b) s (fun x => x.setS d fun k => x.s a k * x.sb b k) ∧
     completesWith (.smulh c u d a b) s (fun x => x.setS d fun k =>
       if u then BitVec.ofNat 64 ((x.s a k).toNat * (x.sb b k).toNat / 2 ^ 64)
       else BitVec.ofInt 64 ((x.s a k).toInt * (x.sb b k).toInt / 2 ^ 64)) ∧
     completesWith (.sdiv c u d a b) s (fun x => x.setS d fun k =>
       if x.sb b k = 0 then 0xFFFFFFFFFFFFFFFF
       else if u then (x.s a k).udiv (x.sb b k) else (x.s a k).sdiv (x.sb b k)) ∧
     completesWith (.srem c u d a b) s (fun x => x.setS d fun k =>
       if x.sb b k = 0 then x.s a k
       else if u then (x.s a k).umod (x.sb b k) else (x.s a k).srem (x.sb b k)) ∧
     completesWith (.smin c u d a b) s (fun x => x.setS d fun k =>
       if u then (if (x.sb b k).toNat < (x.s a k).toNat then x.sb b k else x.s a k)
       else (if (x.sb b k).toInt < (x.s a k).toInt then x.sb b k else x.s a k)) ∧
     completesWith (.smax c u d a b) s (fun x => x.setS d fun k =>
       if u then (if (x.s a k).toNat < (x.sb b k).toNat then x.sb b k else x.s a k)
       else (if (x.s a k).toInt < (x.sb b k).toInt then x.sb b k else x.s a k))) ∧
  (∀ (c : Ctl) (d a : Reg) (b : Src) (s : State),
     completesWith (.sand c d a b) s (fun x => x.setS d fun k => x.s a k &&& x.sb b k) ∧
     completesWith (.sor c d a b) s (fun x => x.setS d fun k => x.s a k ||| x.sb b k) ∧
     completesWith (.sxor c d a b) s (fun x => x.setS d fun k => x.s a k ^^^ x.sb b k) ∧
     completesWith (.sshl c d a b) s (fun x => x.setS d fun k => x.s a k <<< ((x.sb b k).toNat % 64)) ∧
     completesWith (.sshr c d a b) s (fun x => x.setS d fun k => x.s a k >>> ((x.sb b k).toNat % 64)) ∧
     completesWith (.ssra c d a b) s (fun x => x.setS d fun k => (x.s a k).sshiftRight ((x.sb b k).toNat % 64)))

/-- 17 R275, R276: comparison, selection, moves and counts. Both forms of SMOVI. 17 R276: bit fields. -/
def Obligations.ScalarMoves : Prop :=
  (∀ (c : Ctl) (cond : SCond) (d a b cc : Reg) (o : Src) (w : Word) (v : DWord) (s : State),
     completesWith (.scmp c cond d a o) s (fun x => x.setS d fun k =>
       if scHolds cond (x.s a k) (x.sb o k) then 1 else 0) ∧
     completesWith (.ssel c d a b cc) s (fun x => x.setS d fun k => if x.s cc k = 0 then x.s b k else x.s a k) ∧
     completesWith (.smov c d a) s (fun x => x.setS d fun k => x.s a k) ∧
     completesWith (.smovi c d (.short w)) s (fun x => x.setS d fun _ => w.signExtend 64) ∧
     completesWith (.smovi c d (.long v)) s (fun x => x.setS d fun _ => v) ∧
     completesWith (.sclz c d a) s (fun x => x.setS d fun k =>
       if x.s a k = 0 then 64 else BitVec.ofNat 64 (63 - (x.s a k).toNat.log2)) ∧
     completesWith (.spopc c d a) s (fun x => x.setS d fun k => BitVec.ofNat 64 (onesIn (x.s a k).toNat 64))) ∧
  (∀ (c : Ctl) (sgn : Bool) (d a : Reg) (pos : BitVec 6) (wid : BitVec 7) (s : State),
     completesWith (.sbfx c sgn d a pos wid) s (fun x => x.setS d fun k =>
       let f := (x.s a k).toNat / 2 ^ pos.toNat % 2 ^ wid.toNat
       if sgn && f.testBit (wid.toNat - 1) then BitVec.ofInt 64 ((f : Int) - 2 ^ wid.toNat) else BitVec.ofNat 64 f) ∧
     completesWith (.sbfi c d a pos wid) s (fun x => x.setS d fun k =>
       let m := BitVec.ofNat 64 ((2 ^ wid.toNat - 1) * 2 ^ pos.toNat)
       (x.s d k &&& ~~~m) ||| (x.s a k <<< pos.toNat &&& m)))

/-- 17 R271 to R273: SRD of every special register of Table 14-5, CLK and PERF give every slice of the fragment the same value;
SRD of a number outside the table is ILLEGAL, so it is not ready. 17 R271, 07 R127, 10 R185, 13 R219, 21 R328: SWR writes
em, tid, fpcsr with the stochastic-rounding states, the trap registers and the ring registers. -/
def Obligations.SpecialRegisters : Prop :=
  (∀ (c : Ctl) (d : Reg) (num : BitVec 12) (ev : BitVec 8) (s : State),
     completesWith (.srd c d num) s (fun x => x.setS d fun _ => (x.special num.toNat).getD 0) ∧
     (∀ x : Ctx, x.ready (.srd c d num) → (x.special num.toNat).isSome) ∧
     completesWith (.clk c d) s (fun x => x.setS d fun _ => BitVec.ofNat 64 x.p.clk) ∧
     completesWith (.perf c d ev) s (fun x => x.setS d fun _ => BitVec.ofNat 64 (vget x.p.perf ev.toNat 0))) ∧
  (∀ (c : Ctl) (a : Reg) (s : State),
     completesWith (.swr c a 0x000) s (fun x => x.writeEm a) ∧
     completesWith (.swr c a 0x008) s (fun x => x.updG fun g => { g with tid := (x.sLow a).setWidth 12 }) ∧
     completesWith (.swr c a 0x009) s (fun x => x.updG fun g =>
       { g with fpcsr := x.sLow a &&& 0xFFFFFFFF0000000F, srs := seedAll (x.sLow a &&& 0xFFFFFFFF0000000F) }) ∧
     completesWith (.swr c a 0x010) s (fun x => x.updG fun g => { g with tcause := x.sLow a &&& 0x0FFF07FF }) ∧
     completesWith (.swr c a 0x011) s (fun x => x.updG fun g => { g with tpc := x.sLow a &&& 0xFFFFFFFC }) ∧
     completesWith (.swr c a 0x012) s (fun x => x.updG fun g => { g with tinfo := x.sLow a }) ∧
     completesWhen (.swr c a 0x020) s
       (fun x => x.p.ring.w = x.p.ring.cons ∧ (x.sLow a).toNat < 2 ^ 20 ∧ (x.sLow a).toNat % 32 = 0)
       (fun x => x.updP fun p => { p with ring := { p.ring with base := x.sLow a, wix := 0, pub := 0, cons := 0 } }) ∧
     completesWhen (.swr c a 0x021) s
       (fun x => x.p.ring.w = x.p.ring.cons ∧ 16 ≤ (x.sLow a).toNat ∧ (x.sLow a).toNat ≤ 256)
       (fun x => x.updP fun p => { p with ring := { p.ring with size := x.sLow a, wix := 0, pub := 0, cons := 0 } }) ∧
     completesWhen (.swr c a 0x022) s
       (fun x => x.p.ring.w = x.p.ring.cons ∧ (x.sLow a).toNat < 2 ^ 20 ∧ (x.sLow a).toNat % 8 = 0)
       (fun x => x.updP fun p => { p with ring := { p.ring with notify := x.sLow a, wix := 0, pub := 0, cons := 0 } }) ∧
     trapsWhen (.swr c a 0x020) s
       (fun x => x.p.ring.w = x.p.ring.cons ∧ (x.sLow a).toNat < 2 ^ 20 ∧ (x.sLow a).toNat % 32 ≠ 0)
       (fun x => mkTrap cAlign (x.sLow a)) ∧
     trapsWhen (.swr c a 0x021) s (fun x => x.p.ring.w ≠ x.p.ring.cons) (fun _ => mkTrap cIllegal 0))

/-! ## Control (chapters 07 and 17) -/

/-- 17 R264, R265, R266, R268, R279: where each control instruction leaves its fragment. The target and the reconvergence
address are byte offsets from the instruction itself (16 R251); a NOP and a YIELD go to the next instruction. 17 R264, R265:
BRX to an address that is not a multiple of 4 in some slice, and RET with copies that differ, are ILLEGAL and move no slice.
17 R268: SLEEP 0 yields and goes on; SLEEP n blocks the fragment, which goes on at the next instruction once clk has
advanced by n. ISSUE counts both. -/
def Obligations.ControlFlow : Prop :=
  (∀ (c : Ctl) (len : Len) (cond : BrCond) (a : Reg) (x1 x2 : Word) (s : State),
     completesWith (.nop c len) s (fun _ u => u) ∧
     completesWith (.yield c) s (fun _ u => u) ∧
     completesWith (.bra c x1) s (fun x => x.jump (x.pc + x1)) ∧
     completesWith (.brs c cond a x1 x2) s (fun x =>
       x.branch (fun i => if brHolds cond (x.s a i).toInt then x.pc + x1 else x.pc + 16)
         (if x2 = 0 then higher (x.pc + x1) (x.pc + 16) else x.pc + x2)) ∧
     completesWith (.brv c cond a x1 x2) s (fun x =>
       x.branch (fun i =>
           if x.lanes.any (fun l => sliceOf l == i && brHolds cond (x.v a l).toInt) then x.pc + x1 else x.pc + 16)
         (if x2 = 0 then higher (x.pc + x1) (x.pc + 16) else x.pc + x2)) ∧
     completesWhen (.brx c a x1) s (fun x => ∀ i ∈ x.slices, (x.s a i).toNat % 4 = 0) (fun x =>
       x.branch (fun i => (x.s a i).setWidth 32) (if x1 = 0 then x.pc + 12 else x.pc + x1)) ∧
     completesWith (.call c x1) s (fun x u => x.jump (x.pc + x1) (x.setS 61 (fun _ => (x.pc + 12).setWidth 64) u)) ∧
     completesWhen (.ret c a) s
       (fun x => (∀ i ∈ x.slices, (x.s a i).setWidth 32 = (x.sLow a).setWidth 32) ∧
         ((x.sLow a).setWidth 32 : Word).toNat % 4 = 0)
       (fun x => x.jump ((x.sLow a).setWidth 32)) ∧
     completesWith (.regang c) s (fun x => x.updEntry fun e => { e with wait := .regang })) ∧
  (∀ (c : Ctl) (a : Reg) (x1 : Word) (s : State),
     trapsWhen (.brx c a x1) s (fun x => ∃ i ∈ x.slices, (x.s a i).toNat % 4 ≠ 0) (fun _ => mkTrap cIllegal 0) ∧
     trapsWhen (.ret c a) s (fun x => ∃ i ∈ x.slices, ((x.s a i).setWidth 32 : Word) ≠ (x.sLow a).setWidth 32)
       (fun _ => mkTrap cIllegal 0)) ∧
  (∀ (c : Ctl) (n : BitVec 20) (s : State),
     completesWith (.sleep c 0) s (fun _ u => u) ∧
     (∀ x, ctxOf (.sleep c n) s = some x → x.ready (.sleep c n) → n ≠ 0 →
       ∃ t, exec (.sleep c n) s = .next t ∧
         t.quiet = (x.issued (x.blockAs .sleep (x.back
           (x.updEntry (fun e => { e with wake := x.p.clk + n.toNat }) (x.begin s))))).quiet))

/-- 07 R123: a branch whose slices all go to one address moves the fragment and leaves the split table otherwise alone. One
whose slices go to different addresses divides it: each distinct next PC has one entry, with the slices that go there, so
that the entries part the slices of the fragment; every entry is one level deeper, with the reconvergence address `t` and
the fragment's slices as its parent, or at the fragment's own level where `t` is its reconvergence address already. The
address of the lowest slice keeps the fragment's entry, the next ones take the lowest-numbered invalid entries in
ascending order of their lowest slices, and the other fragments stay. A table of eight entries whose valid ones hold
disjoint slices, none of them empty, has room for every part. -/
def Obligations.BranchDivides : Prop :=
  ∀ (next : Nat → Word) (t : Word) (k : Nat) (f : SplitEntry) (es : List SplitEntry),
    let targets := distinct (((List.range 8).filter fun i => f.slices.getLsbD i).map next)
    let u := branchTo next t k es
    let free := fun (j : Nat) => (es[j]?).map (·.valid) = some false
    es[k]? = some f → f.valid = true → f.slices ≠ 0 →
    (∀ pc, (∀ i, f.slices.getLsbD i = true → next i = pc) → u = es.set k { f with pc := pc }) ∧
    ((∃ i j, f.slices.getLsbD i = true ∧ f.slices.getLsbD j = true ∧ next i ≠ next j) →
      targets.length ≤ 1 + (es.filter fun e => !e.valid).length →
      (∀ i, f.slices.getLsbD i = true → ∃ j sl, (j = k ∨ free j) ∧
        (∀ n, sl.getLsbD n = true ↔ f.slices.getLsbD n = true ∧ next n = next i) ∧
        u[j]? = some { f with
          slices := sl, pc := next i, wait := .run
          levels := if f.levels.head?.any (fun l => l.rcv == t) then f.levels else ⟨t, f.slices⟩ :: f.levels }) ∧
      (u.filter (·.valid)).length + 1 = (es.filter (·.valid)).length + targets.length ∧
      (∀ i, f.slices.getLsbD i = true → (∀ n, f.slices.getLsbD n = true → i ≤ n) →
        (u[k]?).map (·.pc) = some (next i)) ∧
      (∀ (i j : Nat) (d e : SplitEntry), i < j → free i → free j → u[i]? = some d → u[j]? = some e → e.valid = true →
        d.valid = true ∧ ∃ n, d.slices.getLsbD n = true ∧ ∀ m, e.slices.getLsbD m = true → n < m) ∧
      (∀ (j : Nat) (e : SplitEntry), j ≠ k → es[j]? = some e → e.valid = true → u[j]? = some e)) ∧
    (es.length = 8 →
      (∀ (i j : Nat) (d e : SplitEntry), es[i]? = some d → es[j]? = some e → d.valid = true → e.valid = true →
        d.slices ≠ 0 ∧ (i ≠ j → d.slices &&& e.slices = 0)) →
      targets.length ≤ 1 + (es.filter fun e => !e.valid).length)

/-- 07 R128, Table 7-2: the structured-nesting instructions change the counters of the fragment's lanes, with NEST_OVF and no
change when a counter would pass 63. -/
def Obligations.Nesting : Prop :=
  ∀ (c : Ctl) (a : Reg) (k : BitVec 8) (x1 : Word) (s : State),
    (∀ (i : Instr) (f : Ctx → Nat → Nat → Nat), nestOp i = some f →
      completesWhen i s (fun x => ∀ l ∈ x.fragLanes, f x l (x.nestOf l) ≤ 63)
        (fun x => x.updG (x.nested fun l => f x l (x.nestOf l))) ∧
      trapsWhen i s (fun x => ∃ l ∈ x.fragLanes, 63 < f x l (x.nestOf l)) (fun _ => mkTrap cNestOvf 0)) ∧
    nestOp (.ifMask c a) = some (fun x l n => if n = 0 then (if x.on l && x.maskBit a l then 0 else 1) else n + 1) ∧
    nestOp (.elseMask c) = some (fun _ _ n => if n = 0 then 1 else if n = 1 then 0 else n) ∧
    nestOp (.endif c) = some (fun _ _ n => n - 1) ∧
    nestOp (.loop c) = some (fun _ _ n => if n = 0 then 0 else n + 2) ∧
    nestOp (.breakMask c a k) = some (fun x l n => if n = 0 && x.on l && x.maskBit a l then k.toNat + 2 else n) ∧
    nestOp (.contMask c a k) = some (fun x l n => if n = 0 && x.on l && x.maskBit a l then k.toNat + 1 else n) ∧
    completesWhen (.endloop c x1) s (fun x => ∃ l ∈ x.fragLanes, x.nestOf l ≤ 1) (fun x u =>
      x.jump (x.pc + x1) (x.updG (x.nested fun l => if x.nestOf l = 1 then 0 else x.nestOf l) u)) ∧
    completesWhen (.endloop c x1) s (fun x => ∀ l ∈ x.fragLanes, 2 ≤ x.nestOf l)
      (fun x => x.updG (x.nested fun l => x.nestOf l - 2))

/-- 07 R137, 17 R266: EXIT ends the fragment's slices: they are exited, no entry of the split table holds them any more,
every register and every slice exited before stay, and their lanes leave the members and the arrivals of every seam, which
trips where the arrivals then equal the members. While the gang has a live slice nothing else happens; with its last one
its open batches that hold commands are sealed. 13 R228: an EXIT of the whole gang in a redundant panel releases first: it
seals, waits for the partner's gang, and exits once the two have been compared.
Where the rules leave a point open this rests on the model's reading: log entries 27 and 49. -/
def Obligations.Exit : Prop :=
  (∀ (c : Ctl) (s : State),
    completesWhen (.exit c) s (fun x => (x.p.hdr.redundant && x.whole) = false) (fun x => exitSlices x) ∧
    completesWhen (.exit c) s (fun x => x.p.hdr.redundant = true ∧ x.whole = true ∧ x.e.paired = some none ∧
      x.settled allMask) (fun x => exitSlices x) ∧
    parksWhen (.exit c) s
      (fun x => x.p.hdr.redundant = true ∧ x.whole = true ∧ x.calm allMask ∧
        ∃ m q og, x.p.partner = some m ∧ m ≠ x.pid ∧ getPanel s m = some q ∧ q.gangs[x.gi]? = some og ∧
          gangExited q.hdr og = false ∧ pairWaiter og = none)
      (fun _ => .pair) (fun x u => x.keepSeals (sealBounds allMask u.nextId) none (x.sealAll allMask u))) ∧
  (∀ (x : Ctx) (p : Panel) (g : Gang) (e : SplitEntry) (s : State), getPanel s x.pid = some p →
    p.gangs[x.gi]? = some g → g.split[x.ei]? = some e →
    let t := updPanel s x.pid (dropSlices x.gi x.ei x.e.slices)
    ∃ q h, getPanel t x.pid = some q ∧ q.gangs[x.gi]? = some h ∧
      h.exited = g.exited ||| x.e.slices ∧ h.v = g.v ∧ h.s = g.s ∧ h.em = g.em ∧ h.opens = g.opens ∧ h.seals = g.seals ∧
      ((∀ (j : Nat) (d : SplitEntry), j ≠ x.ei → g.split[j]? = some d → d.valid = true → d.slices &&& x.e.slices = 0) →
        ∀ d ∈ h.split, d.valid = true → d.slices &&& x.e.slices = 0) ∧
      (∀ n, n < 16 →
        let k := (vget p.seams n seam0).drop x.gi (lanesOf x.e.slices)
        vget q.seams n seam0 = if k.a = k.m ∧ 0 < k.a then { k with arrived := [] } else k) ∧
      (gangExited q.hdr h = false → exitSlices x s = t) ∧
      (gangExited q.hdr h = true → (∀ l ∈ q.latches, (listGangs l.list).contains x.gi = false) →
        exitSlices x s = (h.opens.filter fun b => b.count != 0).foldl (fun u b => sealClass u x.pid x.gi b.cls) t)) ∧
  (∀ (k : Seam) (gi gj : Nat) (w : Word),
    lanesIn (k.drop gi w).members gi = lanesIn k.members gi &&& ~~~w ∧
      lanesIn (k.drop gi w).arrived gi = lanesIn k.arrived gi &&& ~~~w ∧
      (gj ≠ gi → lanesIn (k.drop gi w).members gj = lanesIn k.members gj ∧
        lanesIn (k.drop gi w).arrived gj = lanesIn k.arrived gj))

/-- 13 R217 to R220, 17 R269: TRAP and BRK take their trap with tinfo 0, and TRAP does not unwind a region. 16 R245, R248, R255:
a fragment at an encoding that the hardware refuses traps: FETCH_CROSS when it crosses its window, else ILLEGAL. -/
def Obligations.TrapInstructions : Prop :=
  (∀ (c : Ctl) (code : BitVec 8) (s : State),
     trapsWhen (.trap c code) s (fun _ => True) (fun _ => mkTrap cTrapInstr 0) ∧
     trapsWhen (.brk c code) s (fun _ => True) (fun _ => mkTrap cBrk 0) ∧
     unwinds cTrapInstr = false ∧ unwinds cBrk = false) ∧
  (∀ (s : State) (x : Ctx), ctxOf .unassignedEncoding s = some x →
     ∃ t, exec .unassignedEncoding s = .next t ∧
       t.quiet = (x.settle (takeTrap s x.pid x.gi x.ei (mkTrap
         (if crosses x.pc (lengthAt (codeAt ((windowOf s x.p x.pc).getD []) x.pc)) then cFetchCross else cIllegal) 0)
         false)).quiet)

/-- 13 R218, R219, R220: taking a trap with a handler and no handler running writes tcause, tpc and tinfo, sets the handler
flag, and the fragment goes on at the handler; every register, memory and other gang keeps its content. A trap taken while
a handler runs, or in a panel without a handler and outside a region, kills the panel.
Where the rules leave a point open this rests on the model's reading: log entry 18. -/
def Obligations.TrapEntry : Prop :=
  ∀ (s : State) (pid gi ei : Nat) (t : Trap) (unw : Bool) (p : Panel) (g : Gang) (e : SplitEntry),
    getPanel s pid = some p → getGang s pid gi = some g → g.split[ei]? = some e →
    (g.handler = false → (unw && !g.regions.isEmpty) = false → p.hdr.handler ≠ 0 →
      takeTrap s pid gi ei t unw = updGang s pid gi (enterHandler p.hdr p.clk ei e t) ∧
      ∃ g', getGang (takeTrap s pid gi ei t unw) pid gi = some g' ∧
        g'.tcause = tcauseOf t false g.regions.length ∧ g'.tpc = e.pc.setWidth 64 ∧ g'.tinfo = t.info ∧
        g'.handler = true ∧ g'.hslices = e.slices ∧ (g'.split[ei]?).map (·.pc) = some p.hdr.handler ∧
        g'.s = g.s ∧ g'.v = g.v ∧ g'.em = g.em ∧ g'.fpcsr = g.fpcsr ∧ g'.tid = g.tid) ∧
    ((g.handler = true ∨ (p.hdr.handler = 0 ∧ g.regions = [])) →
      takeTrap s pid gi ei t unw = killPanel s pid t.cause t.status e.pc.toNat)

/-- 17 R270: RETT in a handler clears the handler flag and goes on at tpc, an address of an instruction, which has its low two
bits clear. With the handler flag clear, or with a slice that entered the handler, has not exited and is outside the
fragment, it traps with ILLEGAL. Its word is the one of L 0b01 and OP 0x13. -/
def Obligations.TrapReturn : Prop :=
  ∀ (c : Ctl) (s : State),
    completesWith (.rett c) s (fun x => x.updG fun g => { g with
      handler := false, hslices := 0
      split := modifyAt (fun e => { e with pc := BitVec.ofNat 32 (g.tpc.toNat / 4 * 4) }) g.split x.ei }) ∧
    (∀ x : Ctx, x.ready (.rett c) → x.g.handler = true ∧ ∀ k, x.g.hslices.getLsbD k = true →
      x.g.exited.getLsbD k = false → x.e.slices.getLsbD k = true) ∧
    (∀ x : Ctx, ctxOf (.rett c) s = some x → crosses x.pc x.len = false →
      (x.g.handler = false ∨ ∃ k, x.g.hslices.getLsbD k = true ∧ x.g.exited.getLsbD k = false ∧
        x.e.slices.getLsbD k = false) → x.traps (.rett c) s (mkTrap cIllegal 0)) ∧
    decodeTableWord 64 (1 + 0x13 * 4) = some (.rett ⟨0, false, 0, none⟩)

/-- 13 R218, 16 R252, R256, 08 R144, R146: the checks of issue trap in this order: FETCH_CROSS, ILLEGAL, REG_RANGE, ROLE, then
a POISON source, then an EMPTY source whose FE bit is set, and nothing else: an EMPTY source whose FE bit is clear is no trap.
16 R259: an instruction that passes them and misses the pocket is held for 3 cycles for each miss, once, and nothing is counted
until it issues.
Where the rules leave a point open this rests on the model's reading: log entries 26 and 30. -/
def Obligations.IssueChecks : Prop :=
  ∀ (i : Instr) (x : Ctx),
    (crosses x.pc x.len = true → x.checkIssue i = .error (.trap (mkTrap cFetchCross 0))) ∧
    (crosses x.pc x.len = false → (legal i && !barred x.p.hdr i && !illegalNow x.p x.g x.e i) = false →
      x.checkIssue i = .error (.trap (mkTrap cIllegal 0))) ∧
    (crosses x.pc x.len = false → (legal i && !barred x.p.hdr i && !illegalNow x.p x.g x.e i) = true →
      (∀ t, rangeTrap x.p.hdr (operandsAt x.p i) = some t → x.checkIssue i = .error (.trap t)) ∧
      (rangeTrap x.p.hdr (operandsAt x.p i) = none →
        (roleAllows x.g.role (opOf i) = false → x.checkIssue i = .error (.trap (mkTrap cRole 0))) ∧
        (roleAllows x.g.role (opOf i) = true → ∀ r ∈ vecSources (operandsAt x.p i), keepsPoison i = false →
          (vget x.g.v r.2 vreg0).st = .poison →
          ∃ q ∈ vecSources (operandsAt x.p i), (vget x.g.v q.2 vreg0).st = .poison ∧
            x.checkIssue i = .error (.trap { mkTrap cPoisoned (regInfo q.2 q.1) with reg := some q.2 })) ∧
        (roleAllows x.g.role (opOf i) = true →
          (∀ r ∈ vecSources (operandsAt x.p i), keepsPoison i = true ∨ (vget x.g.v r.2 vreg0).st ≠ .poison) →
          (∀ r ∈ vecSources (operandsAt x.p i), (vget x.g.v r.2 vreg0).st = .empty → feTraps x.ctl r.1 = true →
            ∃ q ∈ vecSources (operandsAt x.p i), (vget x.g.v q.2 vreg0).st = .empty ∧ feTraps x.ctl q.1 = true ∧
              x.checkIssue i = .error (.trap (mkTrap cRegEmpty (regInfo q.2 q.1)))) ∧
          ((∀ r ∈ vecSources (operandsAt x.p i), (vget x.g.v r.2 vreg0).st = .empty → feTraps x.ctl r.1 = false) →
            ∀ t, x.checkIssue i ≠ .error (.trap t))))) ∧
    (let misses := pocketMisses x.g (vecSources (operandsAt x.p i))
     ∀ (s : State) (body : Ctx → State → Body), ctxOf i s = some x → Ctx.ready { x with e := { x.e with held := 1 } } i →
      misses ≠ 0 → x.e.held = 0 → runInstr i body s =
        .next { x.updEntry (fun e => { e with nextIssue := x.p.clk + 3 * misses, held := misses }) s with issuer := none })

/-! ## Vector instructions (chapter 18) -/

/-- 18 R281, R282, R283, Table 18-1: every active lane of the destination receives, element by element of the packed type, the
integer result reduced to the element's width. 18 Table 18-1, 10 R191: the saturating sums clamp each element to its type
and charge each clamped element to the gang's tid as sat. -/
def Obligations.VectorArithmetic : Prop :=
  (∀ (c : Ctl) (t : Ty) (d a b cc : Reg) (o : Src) (s : State),
     completesWith (.vadd c t d a o) s (fun x => x.setV d fun l => map2 t (fun _ p q => p + q) (x.v a l) (x.vb o l)) ∧
     completesWith (.vsub c t d a o) s (fun x => x.setV d fun l => map2 t (fun _ p q => p - q) (x.v a l) (x.vb o l)) ∧
     completesWith (.vmul c t d a o) s (fun x => x.setV d fun l => map2 t (fun _ p q => p * q) (x.v a l) (x.vb o l)) ∧
     completesWith (.vmulh c t d a o) s (fun x => x.setV d fun l =>
       map2 t (fun w p q => p * q / ((2 ^ w : Nat) : Int)) (x.v a l) (x.vb o l)) ∧
     completesWith (.vmad c t d a b cc) s (fun x => x.setV d fun l =>
       map2 t (fun _ p q => p + q) (map2 t (fun _ p q => p * q) (x.v a l) (x.v b l)) (x.v cc l)) ∧
     completesWith (.vmin c t d a o) s (fun x => x.setV d fun l => map2 t (fun _ p q => min p q) (x.v a l) (x.vb o l)) ∧
     completesWith (.vmax c t d a o) s (fun x => x.setV d fun l => map2 t (fun _ p q => max p q) (x.v a l) (x.vb o l)) ∧
     completesWith (.vabs c t d a) s (fun x => x.setV d fun l => map1 t (fun _ p => p.natAbs) (x.v a l)) ∧
     completesWith (.vneg c t d a) s (fun x => x.setV d fun l => map1 t (fun _ p => -p) (x.v a l)) ∧
     completesWith (.vaddc c t d a b cc) s (fun x => x.setV d fun l => carryLane t (x.v a l) (x.v b l) (x.v cc l))) ∧
  (∀ (c : Ctl) (t : Ty) (d a : Reg) (o : Src) (s : State),
     completesWith (.vadds c t d a o) s (fun x u =>
       x.count ⟨clampCount x t (fun p q => p + q) a o, 0, 0⟩
         (x.setV d (fun l => map2 t (fun w p q => clampTo t w (p + q)) (x.v a l) (x.vb o l)) u)) ∧
     completesWith (.vsubs c t d a o) s (fun x u =>
       x.count ⟨clampCount x t (fun p q => p - q) a o, 0, 0⟩
         (x.setV d (fun l => map2 t (fun w p q => clampTo t w (p - q)) (x.v a l) (x.vb o l)) u)))

/-- 18 R283, R284: shifts by the low bits of each element of the second source, bitwise operations and counts. -/
def Obligations.VectorBits : Prop :=
  ∀ (c : Ctl) (t : Ty) (d a : Reg) (o : Src) (s : State),
    completesWith (.vand c d a o) s (fun x => x.setV d fun l => x.v a l &&& x.vb o l) ∧
    completesWith (.vor c d a o) s (fun x => x.setV d fun l => x.v a l ||| x.vb o l) ∧
    completesWith (.vxor c d a o) s (fun x => x.setV d fun l => x.v a l ^^^ x.vb o l) ∧
    completesWith (.vnot c d a) s (fun x => x.setV d fun l => ~~~x.v a l) ∧
    completesWith (.vshl c t d a o) s (fun x => x.setV d fun l =>
      map2 t (fun w p q => p * ((2 ^ (asNat w q % w) : Nat) : Int)) (x.v a l) (x.vb o l)) ∧
    completesWith (.vshr c t d a o) s (fun x => x.setV d fun l =>
      map2 t (fun w p q => ((asNat w p / 2 ^ (asNat w q % w) : Nat) : Int)) (x.v a l) (x.vb o l)) ∧
    completesWith (.vsra c t d a o) s (fun x => x.setV d fun l =>
      map2 t (fun w p q => asSigned w p / ((2 ^ (asNat w q % w) : Nat) : Int)) (x.v a l) (x.vb o l)) ∧
    completesWith (.vclz c t d a) s (fun x => x.setV d fun l =>
      map1 t (fun w p => leadingZeros w (asNat w p)) (x.v a l)) ∧
    completesWith (.vpopc c t d a) s (fun x => x.setV d fun l => map1 t (fun w p => onesIn (asNat w p) w) (x.v a l))

/-- 18 R284, R285, R286: bit fields, moves, broadcasts, lane numbers, masks and compares. -/
def Obligations.VectorMoves : Prop :=
  ∀ (c : Ctl) (sgn : Bool) (pos : BitVec 5) (wid : BitVec 6) (lt : LTy) (cond : VCond) (d a b cc : Reg) (o : Src)
    (w : Word) (s : State),
    completesWith (.vbfx c sgn d a pos wid) s (fun x => x.setV d fun l =>
      let f := (x.v a l).toNat / 2 ^ pos.toNat % 2 ^ wid.toNat
      if sgn && f.testBit (wid.toNat - 1) then BitVec.ofInt 32 ((f : Int) - 2 ^ wid.toNat) else BitVec.ofNat 32 f) ∧
    completesWith (.vbfi c d a pos wid) s (fun x => x.setV d fun l =>
      let m := BitVec.ofNat 32 ((2 ^ wid.toNat - 1) * 2 ^ pos.toNat)
      (x.v d l &&& ~~~m) ||| (x.v a l <<< pos.toNat &&& m)) ∧
    completesWith (.vmov c d a) s (fun x => x.setV d fun l => x.v a l) ∧
    completesWith (.vbcast c d (.reg a)) s (fun x => x.setV d fun l => (x.s a (sliceOf l)).setWidth 32) ∧
    completesWith (.vbcast c d (.imm w)) s (fun x => x.setV d fun _ => w) ∧
    completesWith (.vlid c d) s (fun x => x.setV d fun l => BitVec.ofNat 32 l) ∧
    completesWith (.vsel c d a b cc) s (fun x => x.setV d fun l =>
      if (x.s cc (sliceOf l)).getLsbD l then x.v a l else x.v b l) ∧
    completesWith (.vmask c d a) s (fun x => x.setV d fun l =>
      if (x.s a (sliceOf l)).getLsbD l then 0xFFFFFFFF else 0) ∧
    completesWith (.vcmp c lt cond d a o) s (fun x => x.setS d fun _ =>
      x.maskOf fun l => compareLanes (ftzOf x.g.fpcsr) lt cond (x.v a l) (x.vb o l))

/-- 18 R287 to R290, 10 R182 to R191: every active lane of the destination receives the rounded result of each of its elements,
and the exception counters of the gang's tid are charged with what rounding met. 18 R288, R290: the float instructions that
charge no event: minimum, maximum, the sign operations and the class.
Where the rules leave a point open this rests on the model's reading: log entry 6. -/
def Obligations.FloatArithmetic : Prop :=
  (∀ (c : Ctl) (t : Ty) (d a b cc : Reg) (o : Src) (s : State),
     completesWith (.fadd c t d a o) s (floatEffect t d fun x m l j =>
       m.addV (rmOf x.g.fpcsr) (ftzOf x.g.fpcsr) (x.fval m (x.v a l) j) (x.fval m (x.vb o l) j)) ∧
     completesWith (.fsub c t d a o) s (floatEffect t d fun x m l j =>
       m.addV (rmOf x.g.fpcsr) (ftzOf x.g.fpcsr) (x.fval m (x.v a l) j) (x.fval m (x.vb o l) j).negate) ∧
     completesWith (.fmul c t d a o) s (floatEffect t d fun x m l j =>
       m.ofVal (rmOf x.g.fpcsr) (ftzOf x.g.fpcsr) ((x.fval m (x.v a l) j).mul (x.fval m (x.vb o l) j))) ∧
     completesWith (.ffma c t d a b cc) s (floatEffect t d fun x m l j =>
       m.addV (rmOf x.g.fpcsr) (ftzOf x.g.fpcsr) ((x.fval m (x.v a l) j).mul (x.fval m (x.v b l) j))
         (x.fval m (x.v cc l) j)) ∧
     completesWith (.fdiv c t d a o) s (floatEffect t d fun x m l j =>
       m.divV (ftzOf x.g.fpcsr) (x.fval m (x.v a l) j) (x.fval m (x.vb o l) j)) ∧
     completesWith (.frcp c t d a) s (floatEffect t d fun x m l j =>
       m.divV (ftzOf x.g.fpcsr) oneVal (x.fval m (x.v a l) j)) ∧
     completesWith (.frsq c t d a) s (floatEffect t d fun x m l j => m.rsqrtV (ftzOf x.g.fpcsr) (x.fval m (x.v a l) j)) ∧
     completesWith (.fsqrt c t d a) s (floatEffect t d fun x m l j => m.sqrtV (ftzOf x.g.fpcsr) (x.fval m (x.v a l) j)) ∧
     completesWith (.fexp2 c t d a) s (floatEffect t d fun x m l j => m.exp2V (ftzOf x.g.fpcsr) (x.fval m (x.v a l) j)) ∧
     completesWith (.flog2 c t d a) s (floatEffect t d fun x m l j => m.log2V (ftzOf x.g.fpcsr) (x.fval m (x.v a l) j)) ∧
     completesWith (.ffrac c t d a) s (floatEffect t d fun x m l j => m.fracV (ftzOf x.g.fpcsr) (x.fval m (x.v a l) j)) ∧
     completesWith (.ffloor c t d a) s (floatEffect t d fun x m l j => m.floorV (x.fval m (x.v a l) j)) ∧
     completesWith (.fscale c t d a o) s (floatEffect t d fun x m l j =>
       m.scaleV (rmOf x.g.fpcsr) (ftzOf x.g.fpcsr) (x.fval m (x.v a l) j) (intOf true m.width (elem m.width (x.vb o l) j)))) ∧
  (∀ (c : Ctl) (t : Ty) (d a : Reg) (o : Src) (s : State),
     completesWith (.fmin c t d a o) s (floatEffect t d fun x m l j =>
       plainElem (m.minMax false (x.fin m (x.v a l) j) (x.fin m (x.vb o l) j))) ∧
     completesWith (.fmax c t d a o) s (floatEffect t d fun x m l j =>
       plainElem (m.minMax true (x.fin m (x.v a l) j) (x.fin m (x.vb o l) j))) ∧
     completesWith (.fabs c t d a) s (floatEffect t d fun x m l j =>
       plainElem (x.fin m (x.v a l) j % 2 ^ (m.width - 1))) ∧
     completesWith (.fneg c t d a) s (floatEffect t d fun x m l j =>
       plainElem (x.fin m (x.v a l) j ^^^ 2 ^ (m.width - 1))) ∧
     completesWith (.fclass c t d a) s (floatEffect t d fun x m l j => plainElem (m.classOf (elem m.width (x.v a l) j))) ∧
     (∀ (x : Ctx) (f : Ctx → Fmt → Nat → Nat → Nat) (u : State),
       floatEffect t d (fun x m l j => plainElem (f x m l j)) x u =
         x.setV d (fun l => packLane t.perLane fun j => f x (fmtOf t) l j) u))

/-- 18 R291 to R293, 10 R184, R185: conversions write the destination's elements, advance the stochastic-rounding state of the
lanes that drew from it, and charge the events.
Where the rules leave a point open this rests on the model's reading: log entry 74. -/
def Obligations.Conversions : Prop :=
  ∀ (c : Ctl) (dt st : Ty) (d a b : Reg) (part : BitVec 3) (sat : Bool) (delta : BitVec 4) (s : State),
    completesWith (.cvt c dt d a st part) s (convertEffect (floatNarrows dt st) dt d a st part fun x _ r e =>
      cvtElem dt st (ftzOf x.g.fpcsr) r e) ∧
    completesWith (.cvti c dt d a st part sat) s (convertEffect false dt d a st part fun x _ r e =>
      cvtiElem dt st sat (ftzOf x.g.fpcsr) r e) ∧
    completesWith (.cvtf c dt d a st part) s (convertEffect (intNarrows dt st) dt d a st part fun x _ r e =>
      cvtfElem dt st (ftzOf x.g.fpcsr) r e) ∧
    completesWith (.cvtbx c dt d a b st part delta) s (convertEffect true dt d a st part fun x l r e =>
      cvtbxElem dt st (ftzOf x.g.fpcsr) (delta.toNat - ((x.s b (sliceOf l)).setWidth 8 : BitVec 8).toInt) r e)

/-- 18 R294, R295, 07 R132: shuffles read the lane that the operand names within the segment when it is active, else the lane's
own value. 18 R296, R297: votes give every slice the same mask or count; reductions give every active lane the fold of the
active lanes in ascending order; scans give each active lane the fold up to itself. -/
def Obligations.CrossLane : Prop :=
  (∀ (c : Ctl) (seg : Seg) (k : GKind) (width : BitVec 2) (delta : BitVec 4) (d a : Reg) (o : Src) (s : State),
     completesWith (.shfi c seg d a o) s (fun x => x.setV d fun l =>
       x.lane a l (runBase (segWidth seg) l + (x.vb o l).toNat) (runBase (segWidth seg) l) (segWidth seg)) ∧
     completesWith (.shfu c seg d a o) s (fun x => x.setV d fun l =>
       x.lane a l ((l : Int) - (x.vb o l).toNat) (runBase (segWidth seg) l) (segWidth seg)) ∧
     completesWith (.shfd c seg d a o) s (fun x => x.setV d fun l =>
       x.lane a l ((l : Int) + (x.vb o l).toNat) (runBase (segWidth seg) l) (segWidth seg)) ∧
     completesWith (.shfx c seg d a o) s (fun x => x.setV d fun l =>
       x.lane a l ((l ^^^ (x.vb o l).toNat : Nat) : Int) (runBase (segWidth seg) l) (segWidth seg)) ∧
     completesWhen (.gshf c k width delta d a) s (fun _ => width ≠ 3) (fun x =>
       x.setV d (x.gshfLane k (2 ^ (width.toNat + 1)) delta.toNat a)) ∧
     completesWhen (.gshf c k 3 delta d a) s (fun _ => True) (fun x u =>
       x.secondPass (x.setV d (x.gshfLane k 16 delta.toNat a) u))) ∧
  (∀ (c : Ctl) (k : VoteKind) (ex : Bool) (t : LTy) (op : RedOp) (d a : Reg) (s : State),
     completesWith (.vote c k d a) s (fun x => x.setS d fun _ => x.vote k a) ∧
     completesWith (.vreda c t op d a) s (fun x u =>
       x.count (x.foldLanes t op a).c (x.setV d (fun _ => (x.foldLanes t op a).value t op) u)) ∧
     completesWith (.vscan c ex t op d a) s (fun x u =>
       x.count (x.foldLanes t op a).c (x.setV d (fun l =>
         (((x.foldLanes t op a).steps.find? fun y => y.1 == l).map fun y => if ex then y.2.1 else y.2.2).getD 0) u)))

/-- 07 R133: VOTE and VREDA count and combine active lanes only: they depend on no other lane's value, and with no active lane
every vote's count is 0 and VREDA returns the identity of its operation, which 18 R297 gives. -/
def Obligations.ActiveLanesOnly : Prop :=
  ∀ (c : Ctl) (k : VoteKind) (t : LTy) (op : RedOp) (d a : Reg) (s : State),
    completesWith (.vote c k d a) s (fun x => x.setS d fun _ => x.vote k a) ∧
    completesWith (.vreda c t op d a) s (fun x u =>
      x.count (x.foldLanes t op a).c (x.setV d (fun _ => (x.foldLanes t op a).value t op) u)) ∧
    (∀ x y : Ctx, x.act = y.act → x.g.fpcsr = y.g.fpcsr → (∀ l, x.on l = true → x.v a l = y.v a l) →
      x.vote k a = y.vote k a ∧ x.foldLanes t op a = y.foldLanes t op a) ∧
    (∀ x : Ctx, x.act = 0 → x.vote k a = 0 ∧ (x.foldLanes t op a).c = Counts.zero ∧
      (x.foldLanes t op a).value t op = redIdentity t op) ∧
    redIdentity .n32 .add = 0 ∧ redIdentity .i32 .add = 0 ∧ redIdentity t .and = 0xFFFFFFFF ∧ redIdentity t .or = 0 ∧
    redIdentity t .xor = 0

/-! ## Alphabets and scratchpad (chapters 08, 11, 19) -/

/-- 08 R142, 19 R309, 17 R277: addresses of an access are checked for ALIGN, all of them before any is checked for SP_RANGE;
tinfo is the first address that fails. SLD, SST and SLDA check the addresses of the fragment's slices, LD, ST and ATS those
of its active lanes, and LDB those of the slices that have an active lane, in ascending order; where one fails, the
instruction traps and does nothing else.
Where the rules leave a point open this rests on the model's reading: log entry 28. -/
def Obligations.AddressChecks : Prop :=
  (∀ (c : Ctl) (t : Ty) (lt : LTy) (op : AtOp) (wide ret : Bool) (add : BitVec 6) (d a b : Reg) (off : Off) (s : State),
    let known := fun (x : Ctx) => ∀ n, alphaIdx t = some n → (x.alpha n).defd = true
    let slices := fun (x : Ctx) => x.slices.map (x.sliceAddr a off)
    let lanes := fun (x : Ctx) => x.lanes.map (x.laneAddr a off)
    addressTraps (.sld c t d a off) s (fun _ => True) slices (fun _ => intWidth t) ∧
    addressTraps (.sst c t a b off) s (fun _ => True) slices (fun _ => intWidth t) ∧
    addressTraps (.slda c wide add d a off) s (fun _ => True) slices (fun _ => if wide then 8 else 4) ∧
    addressTraps (.ld c t d a off) s known lanes (fun _ => 4) ∧
    addressTraps (.ldb c t d a off) s known (fun x => x.usedSlices.map (x.sliceAddr a off))
      (fun x => elemBytes x.p.alph t) ∧
    addressTraps (.st c t a b off) s known lanes (fun _ => 4) ∧
    addressTraps (.ats c ret lt op d a b off) s (fun _ => True) lanes (fun _ => 4)) ∧
  ∀ (x : Ctx) (as : List Int) (w : Nat),
    ((∀ a ∈ as, a % (w : Int) = 0 ∧ 0 ≤ a ∧ a + w ≤ x.p.hdr.size) → x.checkAddrs as w = .ok ()) ∧
    (∀ a, as.find? (fun b => b % (w : Int) != 0) = some a →
      x.checkAddrs as w = .error (.trap (mkTrap cAlign (BitVec.ofInt 64 a)))) ∧
    (∀ a, (∀ b ∈ as, b % (w : Int) = 0) → as.find? (fun b => !decide (0 ≤ b ∧ b + w ≤ (x.p.hdr.size : Int))) = some a →
      x.checkAddrs as w = .error (.trap (mkTrap cSpRange (BitVec.ofInt 64 a))))

/-- 17 R277: SLD gives each slice the integer at its own address, extended to 64 bits. 17 R277, R278, 21 R330: SST stores each
slice's value at its own address, the higher slice last, and SLDA adds to the word there and gives its old value; a store
that reaches the notify word publishes, and one that touches none of its first four bytes, or in a panel without a ring,
publishes nothing. -/
def Obligations.ScalarMemory : Prop :=
  (∀ (c : Ctl) (t : Ty) (d a : Reg) (off : Off) (s : State),
     completesWhen (.sld c t d a off) s
       (fun x => ∀ k ∈ x.slices, x.sliceAddr a off k % (intWidth t : Int) = 0 ∧ 0 ≤ x.sliceAddr a off k ∧
         x.sliceAddr a off k + intWidth t ≤ x.p.hdr.size)
       (fun x u => x.bankCost (x.slices.map fun k => (x.sliceAddr a off k).toNat)
         (x.setS d (fun k => extendInt t ((spOf u x.pid).readNat (x.sliceAddr a off k).toNat (intWidth t))) u))) ∧
  (∀ (c : Ctl) (t : Ty) (wide : Bool) (add : BitVec 6) (d a b : Reg) (off : Off) (s : State),
     storesTo (.sst c t a b off) s
       (fun x => ∀ k ∈ x.slices, x.sliceAddr a off k % (intWidth t : Int) = 0 ∧ 0 ≤ x.sliceAddr a off k ∧
         x.sliceAddr a off k + intWidth t ≤ x.p.hdr.size)
       (fun x => x.slices.map fun k => ((x.sliceAddr a off k).toNat, intWidth t))
       (fun x u => x.bankCost (x.slices.map fun k => (x.sliceAddr a off k).toNat) (updSp u x.pid fun m =>
           x.slices.foldl (fun m k => m.writeNat (x.sliceAddr a off k).toNat (intWidth t) (x.s b k).toNat) m)) ∧
     storesTo (.slda c wide add d a off) s
       (fun x => ∀ k ∈ x.slices, x.sliceAddr a off k % ((if wide then 8 else 4 : Nat) : Int) = 0 ∧
         0 ≤ x.sliceAddr a off k ∧ x.sliceAddr a off k + (if wide then 8 else 4 : Nat) ≤ x.p.hdr.size)
       (fun x => x.slices.map fun k => ((x.sliceAddr a off k).toNat, if wide then 8 else 4))
       (fun x u =>
         let r := x.slices.foldl (sldaSlice x a off (if wide then 8 else 4) add) (spOf u x.pid, [])
         x.bankCost (x.slices.map fun k => (x.sliceAddr a off k).toNat)
           (x.setS d (fun k => ((r.2.find? fun g => g.1 == k).map (·.2)).getD 0) (updSp u x.pid fun _ => r.1))) ∧
     (∀ (x : Ctx) (rs : List (Nat × Nat)) (u : State), x.ringApart rs → x.stored rs u = .ok u))

/-- 19 R309, R311: LD gives each active lane the word at its slice's address plus 4 times its number, and LDB fills it with the
element at its slice's address. 19 R309, R312, 21 R330: ST stores each active lane's word, the higher lane last; ATS
performs the lanes' operations in ascending order and gives the old words when it returns them.
Where the rules leave a point open this rests on the model's reading: log entry 20. -/
def Obligations.VectorMemory : Prop :=
  (∀ (c : Ctl) (t : Ty) (d a : Reg) (off : Off) (s : State),
     completesWhen (.ld c t d a off) s
       (fun x => (∀ n, alphaIdx t = some n → (x.alpha n).defd = true) ∧ x.lanesFit a off)
       (fun x u => x.bankCost (x.lanes.map fun l => (x.laneAddr a off l).toNat)
         (x.setV d (fun l => BitVec.ofNat 32 ((spOf u x.pid).readNat (x.laneAddr a off l).toNat 4)) u)) ∧
     completesWhen (.ldb c t d a off) s
       (fun x => (∀ n, alphaIdx t = some n → (x.alpha n).defd = true) ∧ ∀ k ∈ x.usedSlices,
         x.sliceAddr a off k % (elemBytes x.p.alph t : Int) = 0 ∧ 0 ≤ x.sliceAddr a off k ∧
           x.sliceAddr a off k + elemBytes x.p.alph t ≤ x.p.hdr.size)
       (fun x u => x.bankCost (x.usedSlices.map fun k => (x.sliceAddr a off k).toNat)
         (x.setV d (fun l => fillLane (elemBytes x.p.alph t)
           ((spOf u x.pid).readNat (x.sliceAddr a off (sliceOf l)).toNat (elemBytes x.p.alph t))) u))) ∧
  (∀ (c : Ctl) (t : Ty) (ret : Bool) (lt : LTy) (op : AtOp) (d a b : Reg) (off : Off) (s : State),
     storesTo (.st c t a b off) s
       (fun x => (∀ n, alphaIdx t = some n → (x.alpha n).defd = true) ∧ x.lanesFit a off)
       (fun x => x.lanes.map fun l => ((x.laneAddr a off l).toNat, 4))
       (fun x u => x.bankCost (x.lanes.map fun l => (x.laneAddr a off l).toNat) (updSp u x.pid fun m =>
         x.lanes.foldl (fun m l => m.writeNat (x.laneAddr a off l).toNat 4 (x.v b l).toNat) m)) ∧
     storesTo (.ats c ret lt op d a b off) s (fun x => x.lanesFit a off)
       (fun x => x.lanes.map fun l => ((x.laneAddr a off l).toNat, 4))
       (fun x u =>
         let r := x.lanes.foldl (atsLane x lt op d a b off) ⟨spOf u x.pid, [], Counts.zero⟩
         let u1 := updSp u x.pid fun _ => r.mem
         let u2 := if ret then x.setV d (fun l => ((r.olds.find? fun o => o.1 == l).map (·.2)).getD 0) u1 else u1
         x.bankCost (x.lanes.map fun l => (x.laneAddr a off l).toNat) (x.count r.n u2)))

/-- 19 R310: LDT and STT move the element that each active lane's index names through its slice's layout word; of two that
share a byte, the one of the index's parity. -/
def Obligations.TensorAccess : Prop :=
  ∀ (c : Ctl) (t : Ty) (d a b cc : Reg) (s : State),
    completesWhen (.ldt c t d a b) s (fun x => x.tensorFits t a b)
      (fun x u => x.bankCost (x.lanes.map (x.tensorAddr a b)) (x.setV d (fun l =>
        let v := (spOf u x.pid).readNat (x.tensorAddr a b l) (elemBytes x.p.alph t)
        if halfByte t then BitVec.ofNat 32 (v / 16 ^ ((x.v b l).toNat % 2) % 16)
        else laneOfElem t (elemBytes x.p.alph t) v) u)) ∧
    storesTo (.stt c t a b cc) s (fun x => x.tensorFits t a b)
      (fun x => x.lanes.map fun l => (x.tensorAddr a b l, elemBytes x.p.alph t))
      (fun x u =>
        let w := elemBytes x.p.alph t
        x.bankCost (x.lanes.map (x.tensorAddr a b))
          (updSp u x.pid fun m => x.lanes.foldl (fun m l => m.writeNat (x.tensorAddr a b l) w
            (if halfByte t then
              putNibble (m.readNat (x.tensorAddr a b l) w) ((x.v b l).toNat % 2) (x.v cc l).toNat
            else (x.v cc l).toNat)) m))

/-- 08 R155, 19 R313, R314: the transpose tile is written by rows and read by columns by the panel that owns it, and LAYSET
sets one field of a layout word. -/
def Obligations.TileAndLayout : Prop :=
  ∀ (c : Ctl) (f : LayFld) (d a b : Reg) (x1 : Word) (s : State),
    completesWith (.trtw c a b) s (fun x u =>
      updCore (x.ownTile u) x.p.core fun k => { k with tile := x.lanes.foldl (fun m l =>
        m.writeNat (tileLine ((x.sLow a).toNat % 64) l * 64 + 4 * (l % 16)) 4 (x.v b l).toNat) k.tile }) ∧
    completesWith (.trtr c d a) s (fun x u =>
      x.setV d (fun l => tileColumn (coreAt (x.ownTile u) x.p.core).tile (tileLine ((x.sLow a).toNat % 64) l) l)
        (x.ownTile u)) ∧
    completesWith (.layset c f d a x1) s (fun x u =>
      let w := fun i => setLayout f (x.s a i + x1.signExtend 64).toNat
        ((x.s d i).toNat, (x.s (d + 1) i).toNat, (x.s (d + 2) i).toNat)
      x.setS (d + 2) (fun i => BitVec.ofNat 64 (w i).2.2) (x.setS (d + 1) (fun i => BitVec.ofNat 64 (w i).2.1)
        (x.setS d (fun i => BitVec.ofNat 64 (w i).1) u)))

/-- 11 R193, 19 R300, R301: ALDEF defines an alphabet register from 32 bytes of scratchpad, with counters cleared; ALRD reads a
word of a defined one. An image that the rules refuse, and an undefined register, trap with ALPHABET_CONFIG. -/
def Obligations.AlphabetRegisters : Prop :=
  ∀ (c : Ctl) (d a : Reg) (off : Off) (word : BitVec 2) (s : State),
    completesWhen (.aldef c d a off) s
      (fun x => x.aldefAddr a off % 32 = 0 ∧ 0 ≤ x.aldefAddr a off ∧ x.aldefAddr a off + 32 ≤ x.p.hdr.size ∧
        badAlphabet (x.aldefImage s a off) = false)
      (fun x u => x.updP (fun p => { p with alph := vset p.alph d.toNat (definedAlphabet (x.aldefImage s a off)) }) u) ∧
    trapsWhen (.aldef c d a off) s
      (fun x => x.aldefAddr a off % 32 = 0 ∧ 0 ≤ x.aldefAddr a off ∧ x.aldefAddr a off + 32 ≤ x.p.hdr.size ∧
        badAlphabet (x.aldefImage s a off) = true)
      (fun _ => mkTrap cAlphabet (BitVec.ofNat 64 d.toNat)) ∧
    completesWhen (.alrd c d a word) s (fun x => (x.alpha a.toNat).defd = true)
      (fun x => x.setS d fun _ => (vget x.p.alph a.toNat 0).extractLsb' (64 * word.toNat) 64) ∧
    trapsWhen (.alrd c d a word) s (fun x => (x.alpha a.toNat).defd = false)
      (fun _ => mkTrap cAlphabet (BitVec.ofNat 64 a.toNat))

/-- 11 R199, 19 R302, R303, R308: UNPK gives each active lane the element FIRST + l of the register, 0 beyond its last
element; PACK rewrites the containers whose every lane is active; VALC marks the invalid containers. Invalid codes are
counted in the alphabet register. An undefined alphabet traps with ALPHABET_CONFIG.
Where the rules leave a point open this rests on the model's reading: log entries 33 and 150. -/
def Obligations.SymbolRegisters : Prop :=
  ∀ (c : Ctl) (sym : Bool) (an : BitVec 4) (d a : Reg) (first : Word) (s : State),
    decodes (.unpk c sym an d a first) s (fun x => (x.alpha an.toNat).defd = true) an.toNat
      (fun x =>
        let al := x.alpha an.toNat
        (distinct ((x.lanes.filter fun l => decide (first.toNat + l < al.perReg) &&
          !al.valid (x.regContainer al a l ((first.toNat + l) / al.k))).map fun l => (first.toNat + l) / al.k)).length)
      (fun x =>
        let al := x.alpha an.toNat
        x.setV d fun l =>
          if first.toNat + l < al.perReg then
            al.given sym ((al.decode (x.regContainer al a l ((first.toNat + l) / al.k))).getD
              ((first.toNat + l) % al.k) 0) ((first.toNat + l) % al.k)
          else 0) ∧
    decodes (.pack c sym an d a first) s (fun x => (x.alpha an.toNat).defd = true) an.toNat
      (fun x => ((x.packedContainers sym an d a first).map fun k => k.2.2).sum)
      (fun x => x.setV d fun l => packedLane (x.alpha an.toNat) (x.v d l) (x.packedContainers sym an d a first) l) ∧
    completesWhen (.valc c an d a) s (fun x => (x.alpha an.toNat).defd = true) (fun x =>
      let al := x.alpha an.toNat
      x.setV d fun l => (((List.range (if al.wcode = 3 then 1 else 32 / al.w)).filter fun k =>
        !al.valid (x.wordContainer al a l k)).map fun k => BitVec.ofNat 32 (2 ^ k)).foldl (· ||| ·) (0 : Word)) ∧
    trapsWhen (.unpk c sym an d a first) s (fun x => (x.alpha an.toNat).defd = false)
      (fun _ => mkTrap cAlphabet (BitVec.ofNat 64 an.toNat)) ∧
    trapsWhen (.pack c sym an d a first) s (fun x => (x.alpha an.toNat).defd = false)
      (fun _ => mkTrap cAlphabet (BitVec.ofNat 64 an.toNat)) ∧
    trapsWhen (.valc c an d a) s (fun x => (x.alpha an.toNat).defd = false)
      (fun _ => mkTrap cAlphabet (BitVec.ofNat 64 an.toNat))

/-- 11 R199, 19 R304: SYMX gives each active lane the element that its index names in its packed word, and SYMI the word with
that element replaced; an index beyond the word gives 0, or the word as it was.
Where the rules leave a point open this rests on the model's reading: log entries 33, 34 and 150. -/
def Obligations.SymbolWords : Prop :=
  ∀ (c : Ctl) (sym : Bool) (an : BitVec 4) (d a b cc : Reg) (s : State),
    decodes (.symx c sym an d a b) s (fun x => (x.alpha an.toNat).defd = true) an.toNat
      (fun x =>
        let al := x.alpha an.toNat
        let e := fun l => (x.pairLane al b l).toNat
        (distinct ((x.lanes.filter fun l => decide (e l < al.perWord) &&
          !al.valid (x.wordContainer al a l (e l / al.k))).map fun l => containerId al l (e l / al.k))).length)
      (fun x =>
        let al := x.alpha an.toNat
        let e := fun l => (x.pairLane al b l).toNat
        x.setV d fun l =>
          if e l < al.perWord then
            al.given sym ((al.decode (x.wordContainer al a l (e l / al.k))).getD (e l % al.k) 0) (e l % al.k)
          else 0) ∧
    decodes (.symi c sym an d a b cc) s (fun x => (x.alpha an.toNat).defd = true) an.toNat
      (fun x =>
        let al := x.alpha an.toNat
        let e := fun l => (x.pairLane al b l).toNat
        let hit := x.lanes.filter fun l => decide (e l < al.perWord)
        let name := fun l => containerId al l (e l / al.k)
        (distinct ((hit.filter fun l => !al.valid (x.wordContainer al a l (e l / al.k))).map name)).length +
          (distinct ((hit.filter fun l => (al.carried sym (ftzOf x.g.fpcsr) (x.pairLane al cc l) (e l % al.k)).isNone).map name)).length)
      (fun x =>
        let al := x.alpha an.toNat
        let e := fun l => (x.pairLane al b l).toNat
        x.setV d fun l =>
          if e l < al.perWord then
            putContainer al (x.v a l) l (e l / al.k)
              (al.encode ((al.decode (x.wordContainer al a l (e l / al.k))).set (e l % al.k)
                ((al.carried sym (ftzOf x.g.fpcsr) (x.pairLane al cc l) (e l % al.k)).getD al.subst)))
          else x.v a l) ∧
    trapsWhen (.symx c sym an d a b) s (fun x => (x.alpha an.toNat).defd = false)
      (fun _ => mkTrap cAlphabet (BitVec.ofNat 64 an.toNat)) ∧
    trapsWhen (.symi c sym an d a b cc) s (fun x => (x.alpha an.toNat).defd = false)
      (fun _ => mkTrap cAlphabet (BitVec.ofNat 64 an.toNat))

/-- 11 R199, R200, 19 R305, R306: SYMLD gives each active lane the symbol that its index names through its slice's layout word,
and SYMST rewrites one digit of that container, lanes in ascending order.
Where the rules leave a point open this rests on the model's reading: log entries 28, 33 and 150. -/
def Obligations.SymbolMemory : Prop :=
  ∀ (c : Ctl) (sym : Bool) (an : BitVec 4) (d a b cc : Reg) (s : State),
    decodes (.symld c sym an d a b) s (fun x => x.symbolsFit an a b) an.toNat
      (fun x => (distinct ((x.lanes.filter fun l =>
        !(x.alpha an.toNat).valid (x.p.sp.readNat (x.symbolAddr a b l) (x.alpha an.toNat).bytes)).map
          (x.symbolAddr a b))).length)
      (fun x u =>
        let al := x.alpha an.toNat
        x.bankCost (x.lanes.map (x.symbolAddr a b)) (x.setV d (fun l =>
          al.given sym ((al.decode (x.p.sp.readNat (x.symbolAddr a b l) al.bytes)).getD ((x.v b l).toNat % al.k) 0)
            ((x.v b l).toNat % al.k)) u)) ∧
    storesTo (.symst c sym an a b cc) s
      (fun x => x.symbolsFit an a b ∧ ((x.alpha an.toNat).trap = false ∨ x.lostSymbols sym an b cc = 0))
      (fun x => (distinct (x.lanes.map (x.symbolAddr a b))).map fun p => (p, (x.alpha an.toNat).bytes))
      (fun x u =>
        let al := x.alpha an.toNat
        let ps := distinct (x.lanes.map (x.symbolAddr a b))
        let old := (ps.filter fun p => !al.valid (x.p.sp.readNat p al.bytes)).length
        x.bankCost ps (x.countInvalid an.toNat old
          (updSp (x.countInvalid an.toNat (x.lostSymbols sym an b cc) u) x.pid fun m =>
            ps.foldl (fun m p => rewriteContainer al m p ((x.lanes.filter fun l => x.symbolAddr a b l == p).map fun l =>
              ((x.v b l).toNat % al.k, (al.carried sym (ftzOf x.g.fpcsr) (x.v cc l) ((x.v b l).toNat % al.k)).getD al.subst))) m))) ∧
    trapsAfter (.symst c sym an a b cc) s
      (fun x => x.symbolsFit an a b ∧ (x.alpha an.toNat).trap = true ∧ x.lostSymbols sym an b cc ≠ 0)
      (fun x => x.countInvalid an.toNat (x.lostSymbols sym an b cc))
      (fun _ => mkTrap cInvalidCode (BitVec.ofNat 64 an.toNat))

/-- 19 R307: DOTA with integer values gives each active lane the sum of the products of the symbols' values, with the old lane
when it accumulates, modulo 2^32, and with a table of F8E4 values that sum rounded once; no code of either word being
invalid, nothing is counted.
Where the rules leave a point open this rests on the model's reading: log entries 32 and 33. -/
def Obligations.SymbolDot : Prop :=
  ∀ (c : Ctl) (acc : Bool) (an am : BitVec 4) (d a b : Reg) (nmax : BitVec 8) (s : State),
    completesWhen (.dota c acc an am d a b nmax) s
      (fun x =>
        let p := x.alpha an.toNat
        let q := x.alpha am.toNat
        let k := if nmax = 0 then min p.perWord q.perWord else nmax.toNat
        p.defd = true ∧ q.defd = true ∧ nmax.toNat ≤ min p.perWord q.perWord ∧
          ((p.isTable && p.tfmt) || (q.isTable && q.tfmt)) = false ∧ x.badWords p a k = [] ∧ x.badWords q b k = [])
      (fun x =>
        let p := x.alpha an.toNat
        let q := x.alpha am.toNat
        let k := if nmax = 0 then min p.perWord q.perWord else nmax.toNat
        x.setV d fun l => BitVec.ofInt 32
          (((List.zip (x.wordSymbols p a l k) (x.wordSymbols q b l k)).mapIdx fun e y =>
              symInt (p.value y.1 (e % p.k)) * symInt (q.value y.2 (e % q.k))).sum +
            if acc then (x.v d l).toInt else 0)) ∧
    completesWhen (.dota c acc an am d a b nmax) s
      (fun x =>
        let p := x.alpha an.toNat
        let q := x.alpha am.toNat
        let k := if nmax = 0 then min p.perWord q.perWord else nmax.toNat
        p.defd = true ∧ q.defd = true ∧ nmax.toNat ≤ min p.perWord q.perWord ∧
          ((p.isTable && p.tfmt) || (q.isTable && q.tfmt)) = true ∧ x.badWords p a k = [] ∧ x.badWords q b k = [])
      (fun x u =>
        let p := x.alpha an.toNat
        let q := x.alpha am.toNat
        let k := if nmax = 0 then min p.perWord q.perWord else nmax.toNat
        let lane := fun l => dotaFloat x.g.fpcsr
          ((List.zip (x.wordSymbols p a l k) (x.wordSymbols q b l k)).mapIdx fun e y =>
            (symFVal (p.value y.1 (e % p.k))).mul (symFVal (q.value y.2 (e % q.k))))
          (if acc then some (x.v d l) else none)
        x.count (x.tally fun l => (lane l).2) (x.setV d (fun l => BitVec.ofNat 32 (lane l).1) u)) ∧
    trapsWhen (.dota c acc an am d a b nmax) s
      (fun x => (x.alpha an.toNat).defd = true ∧ (x.alpha am.toNat).defd = true ∧
        min (x.alpha an.toNat).perWord (x.alpha am.toNat).perWord < nmax.toNat)
      (fun _ => mkTrap cIllegal 0)

/-! ## The matrix engine at issue (chapter 20) -/

/-- 20 R317, R318: MXZ, MXWR and both forms of MXRD send a command of class MATRIX; MXRD to registers leaves them EMPTY,
awaiting it, and sends nothing with no active lane. Rows that do not exist trap with SP_RANGE. 20 R320, R325, R326: MXSC
sets the scale state of an operand, MXCK reads and clears the checksum counters, MXIL sends the interleave of B.
Where the rules leave a point open this rests on the model's reading: log entry 37. -/
def Obligations.Accumulators : Prop :=
  (∀ (c : Ctl) (t : Ty) (d a : Reg) (first count : BitVec 12) (s : State),
     completesWhen (.mxz c first count) s (fun x => x.rowsFit first.toNat count.toNat)
       (fun x => x.issue .matrix (.mxz first.toNat count.toNat)) ∧
     completesWhen (.mxwr c t a first count) s (fun x => x.tileFits t a first.toNat count.toNat)
       (fun x => x.issue .matrix (.mxwr t (x.layWords a) first.toNat count.toNat)) ∧
     completesWhen (.mxrd c false t d first count) s (fun x => x.tileFits t d first.toNat count.toNat)
       (fun x => x.issue .matrix (.mxrdSp t (x.layWords d) first.toNat count.toNat)) ∧
     completesWhen (.mxrd c true t d first count) s (fun x => x.rowsFit first.toNat count.toNat)
       (fun x u => if x.act = 0 then u else
         (List.range (count.toNat * (4 / t.perLane))).foldl (fun w k => x.await (d.toNat + k) u.nextId w)
           (issueCmd u x.pid x.gi .matrix (.mxrdReg t d.toNat x.act first.toNat count.toNat)
             fun k => { k with act := x.act })) ∧
     trapsWhen (.mxz c first count) s (fun x => ¬ x.rowsFit first.toNat count.toNat)
       (fun x => mkTrap cSpRange (BitVec.ofNat 64 (2 ^ 63 + 512 * max first.toNat x.p.hdr.rows))) ∧
     trapsWhen (.mxrd c true t d first count) s (fun x => ¬ x.rowsFit first.toNat count.toNat)
       (fun x => mkTrap cSpRange (BitVec.ofNat 64 (2 ^ 63 + 512 * max first.toNat x.p.hdr.rows)))) ∧
  (∀ (c : Ctl) (opB clr : Bool) (kind : MxScale) (t : Ty) (d a b : Reg) (krows : BitVec 10) (s : State),
     completesWhen (.mxsc c opB kind a b) s (fun x => isQa kind = true → (x.sLow b).toNat % 4 = 0)
       (fun x => x.updG fun g => if opB then { g with mxB := x.scaleOf kind a b } else { g with mxA := x.scaleOf kind a b }) ∧
     trapsWhen (.mxsc c opB kind a b) s (fun x => isQa kind = true ∧ (x.sLow b).toNat % 4 ≠ 0)
       (fun x => mkTrap cAlign (x.sLow b)) ∧
     completesWith (.mxck c clr d) s (fun x u =>
       x.setS d (fun _ => BitVec.ofNat 64 (x.p.ckFail % 2 ^ 16 * 2 ^ 32 + x.p.ckUnchk % 2 ^ 32))
         (if clr then x.updP (fun p => { p with ckFail := 0, ckUnchk := 0 }) u else u)) ∧
     completesWhen (.mxil c t a krows) s
       (fun x =>
         let lay := layOf (x.layWords a)
         let k := passK (formatIndex t) (x.usedAlpha (formatIndex t) lay)
         (∀ n, layAlpha lay = some n →
           (x.alpha n).defd = true ∧ (formatIndex t = 10 → (x.alpha n).eligible = true)) ∧
           lay.bad = false ∧ Ty.ofCode lay.etype = some t ∧ krows.toNat ≤ k ∧
           x.rangesFit (tileAddrs lay x.p.alph (if krows = 0 then k else krows.toNat) ++
             scaleAddrs (usedScale (formatIndex t) x.g.mxB) k (if krows = 0 then k else krows.toNat) (List.range 128)))
       (fun x =>
         let alpha := x.usedAlpha (formatIndex t) (layOf (x.layWords a))
         x.issue .matrix (.mxil (formatIndex t) (x.layWords a) (usedScale (formatIndex t) x.g.mxB) alpha
           (if krows = 0 then passK (formatIndex t) alpha else krows.toNat))))

/-- 20 R321 to R323, 07 R138, R139: an MMA of one gang is accepted at its issue. A joint MMA waits until every gang of its list
has arrived; the last arrival sends one command for all and lets them go on. A fragment that is not its whole gang, and a
list that names one gang or seven, are MMA_MISMATCH.
Where the rules leave a point open this rests on the model's reading: log entries 35 and 72. -/
def Obligations.MatrixMultiply : Prop :=
  ∀ (c : Ctl) (ta tb : BitVec 4) (keepb ck : Bool) (d a b cc : Reg) (s : State),
    completesWhen (.mma c ta tb keepb ck d a b cc) s
      (fun x => x.mmaFits ta.toNat tb.toNat a b cc ∧ x.gangList d % 8 = 0)
      (fun x u => sendMma u x.pid x.gi ta.toNat tb.toNat keepb ck (x.layWords cc)
        [x.arrival ta.toNat tb.toNat a b cc]) ∧
    completesWhen (.mma c ta tb keepb ck d a b cc) s
      (fun x => x.mmaFits ta.toNat tb.toNat a b cc ∧ x.joins ta tb keepb ck d cc ∧
        allArrived (x.latched ta tb keepb ck d a b cc))
      (fun x u =>
        let lead := listSlot (x.gangList d) 0
        x.releaseJoint lead (sendMma u x.pid lead ta.toNat tb.toNat keepb ck (x.layWords cc)
          ((listGangs (x.gangList d)).filterMap fun n =>
            (x.latched ta tb keepb ck d a b cc).arrivals.find? fun y => y.gang == n))) ∧
    waitsWhen (.mma c ta tb keepb ck d a b cc) s
      (fun x => x.mmaFits ta.toNat tb.toNat a b cc ∧ x.joins ta tb keepb ck d cc ∧
        ¬ allArrived (x.latched ta tb keepb ck d a b cc))
      (fun x => .rendezvous (listSlot (x.gangList d) 0))
      (fun x => x.updP fun p => { p with latches := setLatch (x.latched ta tb keepb ck d a b cc) p.latches }) ∧
    trapsWhen (.mma c ta tb keepb ck d a b cc) s
      (fun x => x.mmaFits ta.toNat tb.toNat a b cc ∧ x.gangList d % 8 ≠ 0 ∧
        (x.gangList d % 8 = 1 ∨ x.gangList d % 8 = 7 ∨ x.whole = false))
      (fun x => mkTrap cMmaMismatch (BitVec.ofNat 64 (listSlot (x.gangList d) 0)))

/-! ## Engine commands (chapters 09 and 21) -/

/-- 21 R328 to R330: CPYQ writes its entry to the ring slot of W and advances W, and CPYPUB stores W to the notify word, which
publishes. A full ring traps with RING_FULL when FE bit A is set, else the fragment blocks. A publication that needs a descriptor that
is not known waits for a read of it (13 R227).
Where the rules leave a point open this rests on the model's reading: log entries 19 and 39. -/
def Obligations.CopyRing : Prop :=
  ∀ (c : Ctl) (a : Reg) (va len : Nat) (s : State),
    storesTo (.cpyq c a) s (fun x => x.ringFits ∧ x.p.ring.full = false)
      (fun x => [(x.p.ring.slot x.p.ring.w, 32)])
      (fun x u => x.setWix ((x.p.ring.w + 1) % 2 ^ 32) (updSp u x.pid fun m => m.write (x.p.ring.slot x.p.ring.w)
        ((List.range 4).flatMap fun k => natBytes 8 (x.sLow (a + BitVec.ofNat 7 k)).toNat))) ∧
    storesTo (.cpypub c) s (fun x => x.ringFits ∧ (x.p.ring.w = x.p.ring.pub → x.p.ring.full = false))
      (fun x => [(x.p.ring.notify.toNat, 8)])
      (fun x u =>
        let w := if x.p.ring.w = x.p.ring.pub then (x.p.ring.w + 1) % 2 ^ 32 else x.p.ring.w
        x.setWix w (updSp u x.pid fun m => m.writeNat x.p.ring.notify.toNat 8 w)) ∧
    measuresWhen (.cpypub c) s (fun x => x.ringFits ∧ (x.p.ring.w = x.p.ring.pub → x.p.ring.full = false) ∧
      let w := if x.p.ring.w = x.p.ring.pub then (x.p.ring.w + 1) % 2 ^ 32 else x.p.ring.w
      x.stored [(x.p.ring.notify.toNat, 8)] (x.setWix w (updSp (x.begin s) x.pid fun m =>
        m.writeNat x.p.ring.notify.toNat 8 w)) = .error (.measure va len)) va len ∧
    trapsWhen (.cpyq c a) s (fun x => x.ringFits ∧ x.p.ring.full = true ∧ feTraps x.ctl fA = true)
      (fun _ => mkTrap cRingFull 0) ∧
    blocksWhen (.cpyq c a) s (fun x => x.ringFits ∧ x.p.ring.full = true ∧ feTraps x.ctl fA = false) (fun _ => .ring) ∧
    trapsWhen (.cpyq c a) s
      (fun x => x.p.hdr.size < x.p.ring.base.toNat + 32 * x.p.ring.size.toNat)
      (fun x => mkTrap cSpRange x.p.ring.base)

/-- 21 R330, 13 R227: a published index that lies from PUB forward to at most CONS + ringsize becomes PUB; any other index is
ignored. The commands that stand before stay, and the entries from PUB up to the index add one command each, in the order
of the ring, in the open batch of the entry's class of the publishing gang. In a redundant panel each entry takes its
entries of the hold area, or HOLD_FULL is taken: where no entry copies a block out of scratchpad (kind 7) it is taken
exactly when the needs of the entries together pass what is free. An entry of kind 7 whose descriptor is not known waits for
a read of it.
The need of an entry of kind 7 and its wait rest on the model's reading: log entry 19. -/
def Obligations.Publishing : Prop :=
  ∀ (x : Ctx) (v : Nat) (p : Panel) (s : State), getPanel s x.pid = some p → x.p.hdr = p.hdr →
    let count := idxDiff v p.ring.pub
    let index := fun (k : Nat) => (fun i => (i + 1) % 2 ^ 32)^[k] p.ring.pub
    let entry := fun k => entryFrom (slotWords p.sp (p.ring.slot (index k)))
    let need := ((List.range count).map fun k => (entry k).holdNeed p.hdr.size p.alph none).sum
    let published := fun (t : State) (held : Nat) =>
      (∃ q, getPanel t x.pid = some q ∧ q.ring = { p.ring with pub := v } ∧ q.sp = p.sp ∧ q.holdFree = p.holdFree - held) ∧
      s.cmds <+: t.cmds ∧ (getGang s x.pid x.gi = none → t.cmds = s.cmds) ∧
      ∀ g, getGang s x.pid x.gi = some g → t.cmds.length = s.cmds.length + count ∧ ∀ k, k < count →
        ∃ d, t.cmds[s.cmds.length + k]? = some d ∧ d.kind = .ringEntry (index k) ∧ d.cls = (entry k).cls ∧
          d.owner = .gangs x.pid [(x.gi, (openOf g (entry k).cls).bid)]
    (pubAccepts p.ring v = false → x.publish v s = .ok s) ∧
    (pubAccepts p.ring v = true →
      (p.hdr.redundant = false → ∃ t, x.publish v s = .ok t ∧ published t 0) ∧
      (p.hdr.redundant = true →
        ((∃ t held, x.publish v s = .ok t ∧ published t held) ∨ x.publish v s = .error (.trap (mkTrap cHoldFull 0)) ∨
          ∃ k, k < count ∧ (entry k).kind = 7 ∧ x.publish v s = .error (.measure (entry k).src 64)) ∧
        ((∀ k, k < count → (entry k).kind ≠ 7) →
          (need ≤ p.holdFree → ∃ t, x.publish v s = .ok t ∧ published t need) ∧
          (p.holdFree < need → x.publish v s = .error (.trap (mkTrap cHoldFull 0))))))

/-- 09 R166, 21 R335 to R337: CSEAL seals the open batch of a class, and blocks while the class's counter is 63; CWAIT goes on
when the counter is at most N, trapping for a failed batch, and blocks otherwise; CSTAT reads the counter, the status and the
ring's indices. -/
def Obligations.Batches : Prop :=
  ∀ (c : Ctl) (cls : Cls) (n : BitVec 6) (d : Reg) (f : Fail) (s : State),
    completesWhen (.cseal c cls) s (fun x => counterOf x.g cls < 63) (fun x u => sealClass u x.pid x.gi cls) ∧
    blocksWhen (.cseal c cls) s (fun x => 63 ≤ counterOf x.g cls) (fun _ => .sealFull cls) ∧
    completesWhen (.cwait c cls n) s (fun x => counterOf x.g cls ≤ n.toNat ∧ failedOf x.g cls = none) (fun _ u => u) ∧
    blocksWhen (.cwait c cls n) s (fun x => n.toNat < counterOf x.g cls) (fun _ => .cwait cls n.toNat) ∧
    trapsAfter (.cwait c cls n) s
      (fun x => counterOf x.g cls ≤ n.toNat ∧ (failedOf x.g cls).bind (·.fail) = some f)
      (fun x => x.updG fun g => consume g cls) (fun _ => failTrap cls f) ∧
    completesWith (.cstat c .cnt cls d) s (fun x => x.setS d fun _ => statWord x.g cls) ∧
    completesWhen (.cstat c .raise cls d) s (fun x => failedOf x.g cls = none)
      (fun x => x.setS d fun _ => statWord x.g cls) ∧
    trapsAfter (.cstat c .raise cls d) s (fun x => (failedOf x.g cls).bind (·.fail) = some f)
      (fun x => x.updG fun g => consume g cls) (fun _ => failTrap cls f) ∧
    completesWith (.cstat c .ring cls d) s (fun x => x.setS d fun _ =>
      BitVec.ofNat 64 (x.p.ring.w % 2 ^ 32 + x.p.ring.cons % 2 ^ 32 * 2 ^ 32))

/-- 21 R338, R339: GATH leaves its register EMPTY until its command of class GATHER completes; its row form copies rows to
scratchpad; SCAT sends the bytes of its lanes, read at issue. Row addresses that split a container fail the command.
Where the rules leave a point open this rests on the model's reading: log entry 38. -/
def Obligations.GatherScatter : Prop :=
  ∀ (c : Ctl) (t : Ty) (d a b : Reg) (gx : GathX) (bad : Nat) (s : State),
    completesWhen (.gath c t d a gx) s
      (fun x => gx.row = false ∧ ∀ l ∈ x.lanes, x.gathAddr a d gx.scale.toNat (gathWidth t) l % gathWidth t = 0)
      (fun x u => if x.act = 0 then u else x.await d.toNat u.nextId (issueCmd u x.pid x.gi .gather
        (.gathReg (gathWidth t) t.isSigned d.toNat
          (x.lanes.map fun l => (l, x.gathAddr a d gx.scale.toNat (gathWidth t) l)))
        fun k => { k with act := x.act })) ∧
    trapsWhen (.gath c t d a gx) s
      (fun x => gx.row = false ∧ x.lanes.find? (fun l =>
        x.gathAddr a d gx.scale.toNat (gathWidth t) l % gathWidth t != 0) = some bad)
      (fun x => mkTrap cAlign (BitVec.ofNat 64 (x.gathAddr a d gx.scale.toNat (gathWidth t) bad))) ∧
    completesWhen (.gath c t d a gx) s (fun x => gx.row = true ∧ x.rowsIn t a gx.rl.toNat)
      (fun x u => issueCmd u x.pid x.gi .gather (.rows (x.lanes.map fun l =>
          (End.glob (x.gathAddr a d gx.scale.toNat 0 l), End.spad (x.rowAt a gx.rl.toNat l), 64 * gx.rl.toNat)))
        fun k => { k with
          act := x.act
          fail := (x.rowSplit t (x.lanes.map (x.gathAddr a d gx.scale.toNat 0))).map fun p => refused 0x16 p k.id }) ∧
    completesWhen (.scat c t a b gx) s
      (fun x => gx.row = false ∧ (∀ l ∈ x.lanes, x.gathAddr a b gx.scale.toNat (gathWidth t) l % gathWidth t = 0) ∧
        x.holdFits (touchedGranules (x.scatBytes t a b gx.scale.toNat)))
      (fun x u => issueCmd (x.holding .gather (touchedGranules (x.scatBytes t a b gx.scale.toNat)) u) x.pid x.gi .gather
        (.scatReg (x.scatBytes t a b gx.scale.toNat)) fun k => { k with act := x.act, fail := none }) ∧
    completesWhen (.scat c t a b gx) s
      (fun x => gx.row = true ∧ x.rowsIn t a gx.rl.toNat ∧
        x.holdFits (touchedGranules (x.scatRows a b gx.scale.toNat gx.rl.toNat)))
      (fun x u => issueCmd (x.holding .gather (touchedGranules (x.scatRows a b gx.scale.toNat gx.rl.toNat)) u) x.pid x.gi
        .gather (.scatReg (x.scatRows a b gx.scale.toNat gx.rl.toNat)) fun k => { k with
          act := x.act
          fail := (x.rowSplit t (x.lanes.map (x.gathAddr a b gx.scale.toNat 0))).map fun p => refused 0x16 p k.id })

/-- 09 R170, R172, 21 R342, R343: ATOM and ATOMS send a command of class ATOMIC; a releasing form seals every class first. A
returning ATOM leaves its register EMPTY; an acquiring form holds the gang's later engine reads.
Where the rules leave a point open this rests on the model's reading: log entries 27 and 38. -/
def Obligations.Atomics : Prop :=
  ∀ (c : Ctl) (form : AtForm) (lt : LTy) (st : STy) (op : AtOp) (scope : BitVec 3) (ret : Bool) (d a b cc : Reg)
    (off : Off) (s : State),
    completesWhen (.atom c form lt op scope ret d a b cc) s
      (fun x => (∀ y ∈ x.lanes.map (x.laneAtom d a b cc), y.va % 4 = 0) ∧ x.act ≠ 0 ∧
        if atReleases form then x.calmRelease (scope == 5) s else x.p.hdr.redundant = false)
      (fun x u =>
        let u1 := if atReleases form then x.sealAll allMask u else u
        let u2 := x.sendAtomic form (.atom op 4 (lt == .i32) (lt == .f32) ret (if ret then some d.toNat else none) none
          (acquireScope form scope.toNat) (x.lanes.map (x.laneAtom d a b cc))) u1
        if ret then x.await d.toNat u1.nextId u2 else u2) ∧
    completesWhen (.atom c form lt op scope ret d a b cc) s
      (fun x => x.act = 0 ∧ if atReleases form then x.calmRelease (scope == 5) s else x.p.hdr.redundant = false)
      (fun x u =>
        let u1 := if atReleases form then x.sealAll allMask u else u
        if atAcquires form then acquireAt x.p.core scope.toNat u1 else u1) ∧
    completesWhen (.atoms c form st op scope ret a b off) s
      (fun x => (addrOf (x.sLow a) off % (2 ^ 64 : Nat)).toNat % stBytes st = 0 ∧
        (ret = true → (x.sLow (b + 2)).toNat % 2 ^ 20 % stBytes st = 0 ∧
          (x.sLow (b + 2)).toNat % 2 ^ 20 + stBytes st ≤ x.p.hdr.size) ∧
        if atReleases form then x.calmRelease (scope == 5) s else x.p.hdr.redundant = false)
      (fun x u => x.sendAtomic form (.atom op (stBytes st) (stSigned st) false ret none
          (if ret then some ((x.sLow (b + 2)).toNat % 2 ^ 20) else none) (acquireScope form scope.toNat)
          [⟨0, (addrOf (x.sLow a) off % (2 ^ 64 : Nat)).toNat, x.sLow b, x.sLow (b + 1)⟩])
        (if atReleases form then x.sealAll allMask u else u))

/-! ## Smock regions (chapter 12) -/

/-- 12 R205, R206, R210, R211, R214, R215, 13 R227, R228: HGCFG marks its slot pending until its command completes; HGLD leaves
its registers EMPTY; HGSC sends the adds of its lanes, none for a lane with a NaN coordinate; HGFOLD sends a fold, at once on
a pending slot; HGIDX gives each active lane the index of one corner. HGLD, HGSC and HGIDX block on a pending slot. With
the slot unbound these three and HGFOLD trap with SMOCK_CONFIG. An HGFOLD.ZERO of a redundant panel releases first: it
seals and waits for the partner's gang, and sends the fold once the two have been compared. HGSC and HGFOLD of a redundant
panel take their entries of the hold area, an HGFOLD on a pending slot none at its issue, and trap with HOLD_FULL where too few
are free. A descriptor that is accepted has one to eight coordinates, one, two, four or
eight features, a format of 16 or 32 bits, levels of 1 to 2^24 entries with resolutions from 1 to 2^24, and aligned areas
below 2^57 (12 R205, Table 12-1).
Where the rules leave a point open this rests on the model's reading: log entries 19, 36 and 96. That HGSC sends no add whose q is 0,
and counts no hold entry for it, is the model's choice of what 12 R211 lets be done: log entry 128. -/
def Obligations.SmockInstructions : Prop :=
  (∀ (c : Ctl) (d a b : Reg) (slot : BitVec 4) (y : SmkX) (zero : Bool) (level : BitVec 5) (corner : BitVec 8)
    (k : SmockCfg) (s : State),
    let released := fun (x : Ctx) => (zero && x.p.hdr.redundant) = false ∨ (x.e.paired = some none ∧ x.settled allMask)
    completesWhen (.hgcfg c a slot) s (fun x => (x.sLow a).toNat % 64 = 0)
      (fun x u => x.updP
          (fun p =>
            let q := vget p.smk slot.toNat smock0
            let new := { q with desc := (x.sLow a).toNat, queue := q.queue ++ [u.nextId], aovf := false }
            { p with smk := vset p.smk slot.toNat new })
        (issueCmd u x.pid x.gi .gather (.hgcfg slot.toNat (x.sLow a).toNat) id)) ∧
    trapsWhen (.hgcfg c a slot) s (fun x => (x.sLow a).toNat % 64 ≠ 0) (fun x => mkTrap cAlign (x.sLow a)) ∧
    completesWhen (.hgld c d a y) s
      (fun x => x.bound y.slot y.l0.toNat (y.n1.toNat + 1) k ∧ (y.n1.toNat + 1) * k.f ≤ 32)
      (fun x u => if x.act = 0 then u else
        x.count (x.nanLanes k a) ((List.range ((y.n1.toNat + 1) * k.f)).foldl
          (fun w j => x.await (d.toNat + j) u.nextId w)
          (issueCmd u x.pid x.gi .gather (.hgld k y.l0.toNat (y.n1.toNat + 1) d.toNat
            (x.lanes.map fun l => (l, x.coords k a l))) fun q => { q with act := x.act }))) ∧
    completesWhen (.hgsc c a b y) s
      (fun x => x.bound y.slot y.l0.toNat (y.n1.toNat + 1) k ∧ (y.n1.toNat + 1) * k.f ≤ 32 ∧
        x.holdFits (x.addGranules k a b y))
      (fun x u => x.count ((x.lanes.map (x.laneAdds k a b y.l0.toNat (y.n1.toNat + 1))).foldl (fun n p => n.add p.2)
          Counts.zero)
        (x.issue .gather (.hgsc y.slot.toNat k y.l0.toNat (y.n1.toNat + 1)
          ((x.planeAdds k a b y).map fun p => (p.1, BitVec.ofInt 64 p.2)))
          (x.holding .gather (x.addGranules k a b y) u))) ∧
    completesWhen (.hgfold c zero a y) s
      (fun x => x.bound y.slot y.l0.toNat (y.n1.toNat + 1) k ∧ released x ∧
        x.holdFits (foldNeed k (x.sLow a).toNat y.l0.toNat (y.n1.toNat + 1)))
      (fun x u => issueCmd (x.holding .gather (foldNeed k (x.sLow a).toNat y.l0.toNat (y.n1.toNat + 1)) u)
        x.pid x.gi .gather (.hgfold y.slot.toNat (some k) zero (x.sLow a).toNat y.l0.toNat (y.n1.toNat + 1) [])
        fun m => { m with
          fail := (if (x.sLow a).toNat % 4 = 0 then none else some (refused 0x15 (x.sLow a).toNat m.id)) }) ∧
    completesWhen (.hgfold c zero a y) s
      (fun x => (x.smock y.slot).queue ≠ [] ∧ released x)
      (fun x u => issueCmd u x.pid x.gi .gather
          (.hgfold y.slot.toNat none zero (x.sLow a).toNat y.l0.toNat (y.n1.toNat + 1) (x.smock y.slot).queue) id) ∧
    trapsWhen (.hgfold c zero a y) s
      (fun x => x.bound y.slot y.l0.toNat (y.n1.toNat + 1) k ∧ (zero && x.p.hdr.redundant) = false ∧
        ¬ x.holdFits (foldNeed k (x.sLow a).toNat y.l0.toNat (y.n1.toNat + 1)))
      (fun _ => mkTrap cHoldFull 0) ∧
    trapsAfter (.hgfold c true a y) s
      (fun x => x.bound y.slot y.l0.toNat (y.n1.toNat + 1) k ∧ x.p.hdr.redundant = true ∧ x.e.paired = some none ∧
        x.settled allMask ∧ ¬ x.holdFits (foldNeed k (x.sLow a).toNat y.l0.toNat (y.n1.toNat + 1)))
      (fun _ u => u) (fun _ => mkTrap cHoldFull 0) ∧
    parksWhen (.hgfold c true a y) s
      (fun x => ((x.smock y.slot).queue ≠ [] ∨ x.bound y.slot y.l0.toNat (y.n1.toNat + 1) k) ∧
        x.p.hdr.redundant = true ∧ x.calm allMask ∧
        ∃ m q og, x.p.partner = some m ∧ m ≠ x.pid ∧ getPanel s m = some q ∧ q.gangs[x.gi]? = some og ∧
          gangExited q.hdr og = false ∧ pairWaiter og = none)
      (fun _ => .pair) (fun x u => x.keepSeals (sealBounds allMask u.nextId) none (x.sealAll allMask u)) ∧
    completesWhen (.hgidx c d a slot level corner) s
      (fun x => x.bound slot level.toNat 1 k ∧ corner.toNat < 2 ^ k.d)
      (fun x u => x.joinDone .gather (x.setV d (fun l =>
        if nanLane (x.coords k a l) then 0xFFFFFFFF
        else BitVec.ofNat 32 (((corners k level.toNat (x.coords k a l))[corner.toNat]?.map (·.idx)).getD 0)) u)) ∧
    blocksWhen (.hgld c d a y) s (fun x => (x.smock y.slot).queue ≠ []) (fun _ => .smock y.slot.toNat) ∧
    blocksWhen (.hgsc c a b y) s (fun x => (x.smock y.slot).queue ≠ []) (fun _ => .smock y.slot.toNat) ∧
    blocksWhen (.hgidx c d a slot level corner) s (fun x => (x.smock slot).queue ≠ []) (fun _ => .smock slot.toNat) ∧
    (∀ i ∈ [.hgld c d a y, .hgsc c a b y, .hgfold c zero a y],
      trapsWhen i s (fun x => (x.smock y.slot).queue = [] ∧ (x.smock y.slot).cfg = none)
        (fun _ => mkTrap cSmock (y.slot.setWidth 64))) ∧
    trapsWhen (.hgidx c d a slot level corner) s (fun x => (x.smock slot).queue = [] ∧ (x.smock slot).cfg = none)
      (fun _ => mkTrap cSmock (slot.setWidth 64))) ∧
  (∀ (ds ns : List Byte) (k : SmockCfg), parseSmock ds ns = some k →
    1 ≤ k.d ∧ k.d ≤ 8 ∧ k.f ∈ [1, 2, 4, 8] ∧ (k.esz = 2 ∨ k.esz = 4) ∧ k.levels = levelsOf ds ∧ 1 ≤ k.levels ∧
      k.tbase % 64 = 0 ∧ k.aplane % 64 = 0 ∧ k.e.length = k.levels ∧ k.n.length = k.levels ∧
      (∀ m ∈ k.n, 1 ≤ m ∧ m ≤ 2 ^ 24) ∧ (∀ t ∈ k.tlog, t ≤ 24) ∧
      k.tbase + k.toff k.levels < 2 ^ 57 ∧ k.aplane + 8 * k.woff k.levels < 2 ^ 57)

/-! ## Seams, barriers, sleeves, phases and containment (chapters 07, 09, 13, 22) -/

/-- 07 R134, R135, 22 R347: JOIN and LEAVE change the members of a seam by the active lanes; SEAMBAR waits until the arrivals
are all the members, and the last one trips the seam. A fragment with no member lane is SEAM. 07 R136, 22 R348: a fragment
that comes to a panel-slot barrier waits until as many gangs have arrived as the barrier counts; the last one releases
them, and no fragment of a gang that has not arrived. A count outside 1 to 32, one that differs from the barrier's, and a gang that waits at another barrier are
BARRIER_COUNT.
Where the rules leave a point open this rests on the model's reading: log entry 49. -/
def Obligations.SeamsAndBarriers : Prop :=
  (∀ (c : Ctl) (n : BitVec 4) (s : State),
     completesWith (.join c n) s (fun x u => if x.act = 0 then u else x.updSeam n.toNat (fun k =>
       { k with members := setLanes k.members x.gi (lanesIn k.members x.gi ||| x.act) }) u) ∧
     completesWith (.leave c n) s (fun x u => if x.act = 0 then u else
       x.updP (tripSeam n.toNat) (x.updSeam n.toNat (fun k => k.drop x.gi x.act) u)) ∧
     completesWhen (.seambar c n) s (fun x => x.memberLanes n ≠ 0 ∧ (x.arrivedAt n).a = (x.arrivedAt n).m)
       (fun x u => x.updP (tripSeam n.toNat) (x.updSeam n.toNat (fun _ => x.arrivedAt n) u)) ∧
     waitsWhen (.seambar c n) s (fun x => x.memberLanes n ≠ 0 ∧ (x.arrivedAt n).a ≠ (x.arrivedAt n).m)
       (fun _ => .seam n.toNat) (fun x => x.updSeam n.toNat fun _ => x.arrivedAt n) ∧
     trapsWhen (.seambar c n) s (fun x => x.memberLanes n = 0) (fun _ => mkTrap cSeam (n.setWidth 64)) ∧
     (∀ (k : Seam) (gi : Nat) (w : Word), lanesIn (setLanes k.members gi w) gi = w ∧
       ∀ gj, gj ≠ gi → lanesIn (setLanes k.members gi w) gj = lanesIn k.members gj)) ∧
  (∀ (c : Ctl) (b : BitVec 4) (n : BitVec 6) (s : State),
     let fits := fun (x : Ctx) => 1 ≤ n.toNat ∧ n.toNat ≤ 32 ∧
       (∀ m, (vget x.p.barw b.toNat barw0).count = some m → m = n.toNat) ∧ waitsElsewhere x.p x.gi b.toNat = false
     let joined := fun (x : Ctx) => (⟨some n.toNat, (vget x.p.barw b.toNat barw0).waiting ++
       [(x.gi, x.e.slices &&& ~~~x.g.exited)]⟩ : Barw)
     let tripped := fun (x : Ctx) u => x.updP (tripBarw b.toNat) (x.updP (fun p =>
       { p with barw := vset p.barw b.toNat (joined x) }) u)
     completesWhen (.barw c b n) s
       (fun x => fits x ∧ n.toNat ≤ arrivals x.p (joined x) ∧ gangArrived x.p (joined x) x.gi = true) tripped ∧
     waitsWhen (.barw c b n) s
       (fun x => fits x ∧ n.toNat ≤ arrivals x.p (joined x) ∧ gangArrived x.p (joined x) x.gi = false)
       (fun _ => .barw b.toNat) tripped ∧
     waitsWhen (.barw c b n) s (fun x => fits x ∧ arrivals x.p (joined x) < n.toNat) (fun _ => .barw b.toNat)
       (fun x => x.updP fun p => { p with barw := vset p.barw b.toNat (joined x) }) ∧
     trapsWhen (.barw c b n) s (fun x => ¬ fits x) (fun _ => mkTrap cBarrier (b.setWidth 64))) ∧
  (∀ (i m gi : Nat) (p : Panel), i < 16 → (vget p.barw i barw0).count = some m → m ≤ arrivals p (vget p.barw i barw0) →
     (vget (tripBarw i p).barw i barw0).count = none ∧
     (gangArrived p (vget p.barw i barw0) gi = false → (tripBarw i p).gangs[gi]? = p.gangs[gi]? ∧
       waitingAt (vget (tripBarw i p).barw i barw0) gi = waitingAt (vget p.barw i barw0) gi) ∧
     (∀ g e, gangArrived p (vget p.barw i barw0) gi = true → (tripBarw i p).gangs[gi]? = some g → e ∈ g.split →
       e.valid = true → e.blk ≠ some (.barw i)))

/-- 22 R349 to R353: SLVINIT sets up an idle sleeve; SLVPUSH writes a handle at its tail when the allowance lets it, and
SLVPOP takes the one at its head when there is one, each in its turn, else they block; SLVTRY answers all ones for an empty
sleeve; SLVGRANT lets one more be pushed.
Where the rules leave a point open this rests on the model's reading: log entries 48 and 51. -/
def Obligations.Sleeves : Prop :=
  ∀ (c : Ctl) (n : BitVec 4) (d a : Reg) (s : State),
    completesWhen (.slvinit c n a) s
      (fun x => (x.sLow a).toNat % 2 ^ 20 % 8 = 0 ∧
        (x.sLow a).toNat % 2 ^ 20 + 8 * ((x.sLow a).toNat / 2 ^ 20 % 32 + 1) ≤ x.p.hdr.size ∧
        n.toNat < x.p.hdr.nSleeves ∧ (x.sLow a).toNat < 2 ^ 25 ∧ (x.sleeve n.toNat).t = (x.sleeve n.toNat).g ∧
        someWaits x.p (.sleevePush n.toNat) = false ∧ someWaits x.p (.sleevePop n.toNat) = false)
      (fun x => x.updSleeve n.toNat fun _ =>
        ⟨true, (x.sLow a).toNat % 2 ^ 20, (x.sLow a).toNat / 2 ^ 20 % 32 + 1, 0, 0, 0⟩) ∧
    storesTo (.slvpush c n a) s
      (fun x => x.sleeveOn n ∧ (x.sLow a).msb = false ∧ 0 < (x.sleeve n.toNat).allowance ∧ x.turn (.sleevePush n.toNat))
      (fun x => [((x.sleeve n.toNat).addr (x.sleeve n.toNat).t, 8)])
      (fun x u => x.updSleeve n.toNat (fun v => { v with t := (v.t + 1) % 2 ^ 32 }) (updSp u x.pid fun m =>
        m.writeNat ((x.sleeve n.toNat).addr (x.sleeve n.toNat).t) 8 (x.sLow a).toNat)) ∧
    blocksWhen (.slvpush c n a) s
      (fun x => x.sleeveOn n ∧ (x.sLow a).msb = false ∧ ¬ (0 < (x.sleeve n.toNat).allowance ∧ x.turn (.sleevePush n.toNat)))
      (fun _ => .sleevePush n.toNat) ∧
    completesWhen (.slvpop c n d) s
      (fun x => x.sleeveOn n ∧ (x.sleeve n.toNat).t ≠ (x.sleeve n.toNat).h ∧ x.turn (.sleevePop n.toNat))
      (fun x => x.takeHandle n.toNat d) ∧
    blocksWhen (.slvpop c n d) s
      (fun x => x.sleeveOn n ∧ ¬ ((x.sleeve n.toNat).t ≠ (x.sleeve n.toNat).h ∧ x.turn (.sleevePop n.toNat)))
      (fun _ => .sleevePop n.toNat) ∧
    completesWhen (.slvtry c n d) s (fun x => x.sleeveOn n) (fun x u =>
      if (x.sleeve n.toNat).t = (x.sleeve n.toNat).h then x.setS d (fun _ => 0xFFFFFFFFFFFFFFFF) u
      else x.takeHandle n.toNat d u) ∧
    completesWhen (.slvgrant c n) s (fun x => x.sleeveOn n ∧ (x.sleeve n.toNat).g ≠ (x.sleeve n.toNat).h)
      (fun x => x.updSleeve n.toNat fun v => { v with g := (v.g + 1) % 2 ^ 32 }) ∧
    trapsWhen (.slvgrant c n) s (fun x => ¬ x.sleeveOn n ∨ (x.sleeve n.toNat).g = (x.sleeve n.toNat).h)
      (fun _ => mkTrap cSleeve (n.setWidth 64)) ∧
    (∀ (x : Ctx) (u : State), x.takeHandle n.toNat d u =
      x.setS d (fun _ => BitVec.ofNat 64 ((spOf u x.pid).readNat ((x.sleeve n.toNat).addr (x.sleeve n.toNat).h) 8))
        (x.updSleeve n.toNat (fun v => { v with h := (v.h + 1) % 2 ^ 32 }) u))

/-- 09 R158, R159, 22 R354, R355: a release and a fence with nothing outstanding seal every open batch of their classes and go
on; an acquire at CLUSTER scope or beyond discards the read buffers of the core and the smock cache of the cluster, and at
GANG and PANEL scope it discards nothing. A fence or a release with a batch outstanding seals, keeps its seals and waits:
its fragment stands at the instruction, and goes on when it issues again with the batches it sealed complete. When one of these has
failed, a release consumes every failure of a completed batch of the gang and traps for the lowest class that has one. A fence whose
sealed batches are complete consumes the failures of its classes and traps for the lowest that has one. At the sixty-fourth seal of
a class it waits before it seals.
Where the rules leave a point open this rests on the model's reading: log entry 27; which failures a release reports and consumes,
also of batches that it does not wait for, is the model's reading of 09 R158 and 21 R336 beside 13 R221: log entry 97. That an
acquire leaves no copy is the model's choice: log entry 138. -/
def Obligations.Phases : Prop :=
  ∀ (c : Ctl) (scope : BitVec 3) (mask : BitVec 5) (k : Cls) (f : Fail) (s : State),
    completesWith (.phaseAcq c scope) s (fun x => acquireAt x.p.core scope.toNat) ∧
    completesWhen (.phaseRel c scope) s (fun x => x.calmRelease (scope == 5) s) (fun x => x.sealAll allMask) ∧
    completesWhen (.phaseAr c scope) s (fun x => x.calmRelease (scope == 5) s)
      (fun x u => acquireAt x.p.core scope.toNat (x.sealAll allMask u)) ∧
    completesWhen (.fence c mask) s (fun x => x.calm mask) (fun x => x.sealAll mask) ∧
    parksWhen (.fence c mask) s (fun x => x.sealable mask ∧ x.outstanding mask s) (fun _ => .fence mask)
      (fun x u => x.keepSeals (sealBounds mask u.nextId) none (x.sealAll mask u)) ∧
    parksWhen (.phaseRel c scope) s (fun x => x.sealable allMask ∧ x.outstanding allMask s)
      (fun _ => .release allMask (scope == 5))
      (fun x u => x.keepSeals (sealBounds allMask u.nextId) none (x.sealAll allMask u)) ∧
    parksWhen (.phaseAr c scope) s (fun x => x.sealable allMask ∧ x.outstanding allMask s)
      (fun _ => .release allMask (scope == 5))
      (fun x u => x.keepSeals (sealBounds allMask u.nextId) none (x.sealAll allMask u)) ∧
    parksWhen (.fence c mask) s (fun x => mask.getLsbD 0 = true ∧ x.e.sealed = [] ∧ x.e.paired = none ∧
      63 ≤ counterOf x.g .copy) (fun _ => .sealFull .copy) (fun x u => x.keepSeals [] none u) ∧
    completesWhen (.fence c mask) s (fun x => x.settled mask ∧ ∀ k, inMask mask k = true →
      counterOf x.g k = 0 ∧ failedOf x.g k = none) (fun _ u => u) ∧
    completesWhen (.phaseRel c scope) s (fun x => x.settled allMask ∧ x.delivered (scope == 5) s) (fun _ u => u) ∧
    trapsAfter (.phaseRel c scope) s (fun x => x.failedRelease k f)
      (fun x => x.updG (consumeAmong fun b => inMask allMask b.cls)) (fun _ => failTrap k f) ∧
    trapsAfter (.phaseAr c scope) s (fun x => x.failedRelease k f)
      (fun x => x.updG (consumeAmong fun b => inMask allMask b.cls)) (fun _ => failTrap k f) ∧
    trapsAfter (.fence c mask) s (fun x => x.failedFence mask k f)
      (fun x => x.updG (consumeAmong fun b => inMask mask b.cls)) (fun _ => failTrap k f) ∧
    completesWhen (.phaseAr c scope) s (fun x => x.settled allMask ∧ x.delivered (scope == 5) s)
      (fun x => acquireAt x.p.core scope.toNat) ∧
    (∀ (core : Nat) (u : State), acquireAt core 0 u = u ∧ acquireAt core 1 u = u ∧
      (core < 512 → 2 ≤ scope.toNat → (coreAt (acquireAt core scope.toNat u) core).rbuf = [] ∧
        (vget (acquireAt core scope.toNat u).clusters (core / 16) cluster0).smkCache = []))

/-- 22 R356 to R361, 08 R146, R147: FEWAIT waits for its source only; FEMARK sets a register's state; RGN names the working
set of one half of the register file; SPILL stores a register by the form of its lanes with its tag, and FILL reads it back
by that tag; FTAG reads the tag.
Where the rules leave a point open this rests on the model's reading: log entries 50, 51 and 70. -/
def Obligations.RegisterStates : Prop :=
  ∀ (c : Ctl) (st : FeState) (d a : Reg) (mask : Word) (slot : BitVec 9) (s : State),
    completesWith (.fewait c a) s (fun _ u => u) ∧
    completesWith (.femark c st d) s (fun x => x.updV d fun v => { v with st := st, by_ := none, marked := true }) ∧
    completesTo (.rgnLo c mask) s (fun _ => True) (fun x => x.regions 0 mask) ∧
    completesTo (.rgnHi c mask) s (fun _ => True) (fun x => x.regions 64 mask) ∧
    (∀ (x : Ctx) (base : Nat) (u : State), (∀ r ∈ setRegs (pairSet base mask), r < x.p.hdr.vregs) →
      ∃ v, x.regions base mask u = .ok v ∧
        (getGang v x.pid x.gi).map (·.wset) = (getGang u x.pid x.gi).map fun _ => pairSet base mask) ∧
    storesTo (.spill c a slot) s (fun x => slot.toNat < x.p.hdr.spillSlots ∧ (x.vr a.toNat).st ≠ .poison)
      (fun x => [(x.p.hdr.spillbase + 128 * slot.toNat, (spillForm (x.v a)).2.length)])
      (fun x u =>
        let p := x.p.hdr.spillbase + 128 * slot.toNat
        let f := spillForm (x.v a)
        x.bankCost [p, p + f.2.length - 1] (updSp (x.updV a (fun v => { v with tag := f.1 }) u) x.pid fun m =>
          m.write p f.2)) ∧
    completesWhen (.spill c a slot) s (fun x => slot.toNat < x.p.hdr.spillSlots ∧ (x.vr a.toNat).st = .poison)
      (fun x => x.updV a fun v => { v with tag := 5 }) ∧
    completesWhen (.fill c d slot) s (fun x => slot.toNat < x.p.hdr.spillSlots ∧ (x.vr d.toNat).tag ≠ 5)
      (fun x u =>
        let p := x.p.hdr.spillbase + 128 * slot.toNat
        let tag := (x.vr d.toNat).tag
        x.bankCost [p, p + formBytes tag - 1] (x.updV d (fun v => { v with
          lanes := Vector.ofFn fun l : Fin 32 => spillLane x.p.sp p tag l.val, st := .full, by_ := none,
          marked := false }) u)) ∧
    completesWhen (.fill c d slot) s (fun x => slot.toNat < x.p.hdr.spillSlots ∧ (x.vr d.toNat).tag = 5)
      (fun x => x.updV d fun v => { v with st := .poison, by_ := none, marked := false }) ∧
    completesWith (.ftag c d a) s (fun x => x.setS d fun _ => (x.vr a.toNat).tag.setWidth 64)

/-- 08 Table 8-3, 22 R359, R360: whatever the lanes of a register, a slot that SPILL wrote gives FILL the same lanes back by the
tag that SPILL set. -/
def Obligations.SpillThenFill : Prop :=
  ∀ (v : Nat → Word) (m : Memory) (p l : Nat), Memory.wf m = true → l < 32 →
    spillLane (m.write p (spillForm v).2) p (spillForm v).1 l = v l ∧
      (spillForm v).2.length = formBytes (spillForm v).1

/-- 13 R224, R225, 22 R362, R363: CTNOPEN opens a region that keeps em, the nesting counters and s62, at most four deep;
CTNCLOSE closes the innermost; CTNRAISE traps with its code in STATUS, which unwinds the innermost region where one is open:
with no command of it to wait for, the gang stands whole at the region's handler with what the region kept restored; TIDSET
sets the tensor id. A CTNOPEN, CTNCLOSE or CTNRAISE of a fragment that is not its whole gang is ILLEGAL.
Where the rules leave a point open this rests on the model's reading: log entry 52. -/
def Obligations.Containment : Prop :=
  ∀ (c : Ctl) (x1 : Word) (code : BitVec 8) (id : BitVec 12) (s : State),
    completesWhen (.ctnopen c x1) s (fun x => x.whole = true ∧ x.g.regions.length < 4)
      (fun x u => x.updG (fun g => { g with regions :=
        ⟨x.pc + x1, x.g.em, x.g.nest, vget x.g.s 62 copies0, u.nextId, u.nextId⟩ :: g.regions }) u) ∧
    trapsWhen (.ctnopen c x1) s (fun x => x.whole = true ∧ 4 ≤ x.g.regions.length) (fun _ => mkTrap cCtnDepth 0) ∧
    trapsWhen (.ctnopen c x1) s (fun x => x.whole = false) (fun _ => mkTrap cIllegal 0) ∧
    trapsWhen (.ctnclose c) s (fun x => x.whole = false) (fun _ => mkTrap cIllegal 0) ∧
    trapsWhen (.ctnraise c code) s (fun x => x.whole = false) (fun _ => mkTrap cIllegal 0) ∧
    completesWhen (.ctnclose c) s (fun x => x.whole = true ∧ x.g.regions ≠ [])
      (fun x => x.updG fun g => { g with regions := g.regions.drop 1 }) ∧
    trapsWhen (.ctnclose c) s (fun x => x.whole = true ∧ x.g.regions = []) (fun _ => mkTrap cCtnDepth 0) ∧
    (∀ x, ctxOf (.ctnraise c code) s = some x → x.ready (.ctnraise c code) → x.whole = true →
      ∃ u, exec (.ctnraise c code) s = .next u ∧
        u.quiet = (x.settle (takeTrap (x.back (x.begin s)) x.pid x.gi x.ei
          ⟨cTrapInstr, 0, code.toNat, 0, none⟩ true)).quiet) ∧
    (∀ x r rest, ctxOf (.ctnraise c code) s = some x → x.ready (.ctnraise c code) → x.whole = true →
      x.g.handler = false → x.g.regions = r :: rest →
      (∀ b ∈ x.g.seals, r.firstSeal ≤ b.order → ∀ n ∈ b.live, n < r.firstCmd) →
      ∃ u g, exec (.ctnraise c code) s = .next u ∧ getGang u x.pid x.gi = some g ∧
        g.regions = rest ∧ g.em = r.em ∧ g.nest = r.nest ∧ vget g.s 62 copies0 = r.s62 ∧ g.unwind = none ∧
        g.tcause = tcauseOf ⟨cTrapInstr, 0, code.toNat, 0, none⟩ true x.g.regions.length ∧
        g.tpc = x.e.pc.setWidth 64 ∧ g.tinfo = 0 ∧
        ∀ e ∈ g.split, e.valid = true → e.pc = r.handler ∧ e.slices = liveSlices x.p.hdr x.g ∧ e.levels = []) ∧
    completesWith (.tidset c id) s (fun x => x.updG fun g => { g with tid := id })

/-- 13 R225: a trap whose cause unwinds, taken in an open region with no handler running, begins its unwind. The commands that
the gang has issued since the region was opened and that stand in its open batches are cancelled, and a register that
awaited one is FULL. The gang then waits for the commands of the region that stand in sealed batches, keeping what the
trap is, and the region stays open; or, with none outstanding, the unwind ends. Its end restores em, the nesting counters
and s62, closes the region, and the gang goes on whole at the region's handler with UNW in tcause. No sealed batch of the
region that is complete stands after it.
Where the rules leave a point open this rests on the model's reading: log entry 71. -/
def Obligations.Unwinding : Prop :=
  (∀ (s : State) (pid gi ei : Nat) (t : Trap) (p : Panel) (g : Gang) (e : SplitEntry) (r : Region) (rest : List Region),
    getPanel s pid = some p → getGang s pid gi = some g → g.split[ei]? = some e → g.handler = false →
    g.regions = r :: rest →
    let u := takeTrap s pid gi ei t true
    let waits := fun (b : Batch) => r.firstSeal ≤ b.order ∧ ∃ n ∈ b.live, r.firstCmd ≤ n
    (∃ h, getGang u pid gi = some h ∧
      ((∃ b ∈ h.seals, waits b) → h.unwind = some ⟨t.cause, t.status, t.cls, e.pc, t.info, g.regions.length, t.reg⟩ ∧
        h.regions = g.regions ∧ h.em = g.em ∧ h.s = g.s ∧ ∀ d ∈ h.split, d.blk = none) ∧
      ((¬ ∃ b ∈ g.seals, waits b) → ¬ ∃ b ∈ h.seals, waits b) ∧
      ((¬ ∃ b ∈ h.seals, waits b) → h.unwind = none ∧ h.regions = rest ∧ h.em = r.em ∧ h.nest = r.nest ∧
        vget h.s 62 copies0 = r.s62 ∧ h.tcause = tcauseOf t true g.regions.length ∧ h.tpc = e.pc.setWidth 64 ∧
        h.tinfo = t.info ∧ h.split = oneFragment (liveSlices p.hdr g) r.handler (some p.clk)) ∧
      (∀ c ∈ s.cmds, r.firstCmd ≤ c.id →
        (∃ bs b, c.owner = .gangs pid bs ∧ b ∈ bs ∧ b.1 = gi ∧ b.2 ∈ g.opens.map (·.bid)) →
        getCmd u c.id = none ∧ ∀ n, (vget g.v n vreg0).by_ = some c.id → (vget g.v n vreg0).st = .empty →
          (vget h.v n vreg0).st = .full))) ∧
  (∀ (h : Hdr) (clk : Nat) (g : Gang) (u : Unwind) (r : Region) (rest : List Region),
    g.unwind = some u → g.regions = r :: rest →
    ((∀ b ∈ g.seals, r.firstSeal ≤ b.order → ∀ n ∈ b.live, n < r.firstCmd) →
      let t := finishUnwind h clk g
      t.em = r.em ∧ t.nest = r.nest ∧ vget t.s 62 copies0 = r.s62 ∧ t.regions = rest ∧ t.unwind = none ∧
        t.tinfo = u.info ∧ t.tpc = u.tpc.setWidth 64 ∧
        t.tcause = tcauseOf ⟨u.cause, u.info, u.status, u.cls, none⟩ true u.depth ∧
        t.split = oneFragment (liveSlices h g) r.handler (some clk) ∧
        (∀ b ∈ t.seals, r.firstSeal ≤ b.order → b.complete = false)) ∧
    ((∃ b ∈ g.seals, r.firstSeal ≤ b.order ∧ ∃ n ∈ b.live, r.firstCmd ≤ n) → finishUnwind h clk g = g))

/-! ## Events of the host and of the device (chapters 01 to 06) -/

/-- 01 R14, 02 R42, R44, R46, 03 R52, R56, 04 R67, R70, R72, R83, R85, 05 R91 to R98, 06 R99, R111: a write of a register that has
an event of its own, through a port that serves, does what the register's rule says. While a device reset is in progress it is
ignored (05 R96). GUS_DECLARE takes effect once the port's earlier BAR2 writes have begun (27 R379).
Where the rules leave a point open this rests on the model's reading: log entries 56 and 65. -/
def Obligations.HostWrites : Prop :=
  ∀ (p : Port) (v : DWord) (q : BitVec 8) (n : BitVec 5) (part : BitVec 3) (gc : GusCounter) (xc : XlCounter) (s : State),
    portServes s p = true →
    (s.mgmt.resetDone = true →
      (hostWriteAhead s p = false → exec (.gusDeclareWrite p v) s = .next
        (if v.toNat / 2 ^ 16 = 0 ∧ v.toNat / 2 ^ 8 % 2 ^ 8 = 0xA5 ∧ v.toNat / 2 ^ 4 % 2 ^ 4 = 0
          then declareLoss s (v.toNat % 2 ^ 4) 3 else s)) ∧
      exec (.gusXpoolWrite p v) s = .next (poolWritten s v) ∧
      exec (.gusCounterClear gc) s = .next { s with gus := clearGus s.gus gc } ∧
      exec (.xlCounterClear xc) s = .next { s with links := clearXl s.links xc } ∧
      exec (.xlCfgWrite p v) s = .next { s with links := writeXlCfg s.links v } ∧
      exec (.xlTimeoutWrite p v) s =
        .next { s with links := { s.links with timeout := max 1 (v.toNat % 2 ^ 16) } } ∧
      exec (.hqFqRespWrite p v) s = .next (answerFault s v) ∧
      exec (.hqInvalWrite p v) s = .next { endInval s with inval := some v } ∧
      exec (.hqTailWrite q v) s = .next (writeTail s q.toNat v) ∧
      (v.getLsbD 24 = true → (queueAt s q.toNat).enable = false →
        exec (.hqEnable q v) s = .next (writeCtl s q.toNat v)) ∧
      (v.getLsbD 24 = false → (queueAt s q.toNat).enable = true →
        exec (.hqDisable q v) s = .next (writeCtl s q.toNat v)) ∧
      (v.getLsbD 30 = true → exec (.hqStop q v) s = .next (writeCtl s q.toNat v)) ∧
      (v.getLsbD 31 = true → exec (.hqRecover q v) s = .next (writeCtl s q.toNat v)) ∧
      exec (.mgPwrCapWrite p v) s =
        .next { s with mgmt := { s.mgmt with pwrCap := min 3000 (max 1500 (v.toNat % 2 ^ 12)) } } ∧
      exec (.drainSet part) s = .next (writeDrain s part.toNat true) ∧
      exec (.drainClear part) s = .next (writeDrain s part.toNat false) ∧
      exec (.mgPartClusWrite part v) s = .next (writeClus s part.toNat v) ∧
      (v.getLsbD 32 = true → exec (.preemptHalt part v) s = .next (writePreempt s part.toNat v)) ∧
      (v.getLsbD 32 = false → exec (.preemptResume part v) s = .next (writePreempt s part.toNat v)) ∧
      exec .mgFrLostClear s = .next { s with mgmt := { s.mgmt with frLost := Vector.replicate 4 0 } } ∧
      exec (.mgG4ClearWrite p v) s = .next
        (if v = 0xA5 ∧ s.mgmt.g4Served = true then { s with mgmt := { s.mgmt with g4 := none, g4Served := false } }
          else s) ∧
      exec (.attestationStart p v) s = .next
        (if v.getLsbD 0 = true ∧ s.mgmt.attBusy = false then
          { s with mgmt := { s.mgmt with attBusy := true, attUsed := nonceBytes s.mgmt } } else s) ∧
      exec (.semRelease p n v) s = .next
        (if v.getLsbD 0 = true ∧ semOwner s n.toNat = ownerCode p then { s with sems := vset s.sems n.toNat 0 } else s)) ∧
    (s.mgmt.resetDone = false → (hostWriteAhead s p = false → exec (.gusDeclareWrite p v) s = .next s) ∧
      ∀ i ∈ [.gusXpoolWrite p v, .gusCounterClear gc, .xlCounterClear xc, .xlCfgWrite p v,
        .xlTimeoutWrite p v, .hqFqRespWrite p v, .hqInvalWrite p v, .hqTailWrite q v, .mgPwrCapWrite p v, .drainSet part,
        .drainClear part, .mgPartClusWrite part v, .mgFrLostClear, .mgG4ClearWrite p v, .attestationStart p v,
        .semRelease p n v], exec i s = .next s)

/-- 01 R17 to R19, R389, 03 R49, R50, 04 R67, 05 R96: host accesses through a port that serves, resets of a port, and the
return of its link. A semaphore that is free answers a read, whole or of either half, with its new owner and bit 2; a
4-byte write of a register that only stores a value keeps the other half.
Where the rules leave a point open this rests on the model's reading: log entries 45, 57, 64, 65, 93 and 103. -/
def Obligations.HostPorts : Prop :=
  ∀ (p : Port) (n : BitVec 5) (half : Option Bool) (off len : Nat) (size : AccSize) (bytes : List Byte) (v : DWord) (s : State),
    exec (.portReset p) s = .next (resetPort s p) ∧
    (portUp s p = true → exec (.hostLinkDown p) s = .next (resetPort s p)) ∧
    (portServes s p = false → exec (.hostPortLinkUp p) s = .next
      (let u := { s with links := { s.links with hostUp := vset s.links.hostUp (portNo p) true },
                         mgmt := { s.mgmt with inReset := vset s.mgmt.inReset (portNo p) false } }
       if u.mgmt.resetWanted = true ∧ anyInReset u = false then deviceReset u else u)) ∧
    (portServes s p = true →
      ((regAt (off / 8 * 8) = some .gusDeclare → hostWriteAhead s p = false) →
        exec (.registerWrite p off size v) s = .next (writeBar0 s p off size v)) ∧
      (s.mgmt.resetDone = true → semOwner s n.toNat = 0 → exec (.semAcquire p ⟨n, half⟩) s = .next
        { s with sems := vset s.sems n.toNat (ownerCode p),
                 reply := some ⟨p, false, false, readBytes half (4 + (ownerCode p).toNat)⟩ }) ∧
      (s.mgmt.resetDone = true → semOwner s n.toNat ≠ 0 → exec (.semAcquire p ⟨n, half⟩) s = .next
        { s with reply := some ⟨p, false, false, readBytes half (semOwner s n.toNat).toNat⟩ }) ∧
      (off + len ≤ bar2Bytes → 1 ≤ len → len ≤ 4096 →
        (localBytes < s.links.bar2Base + off + len →
          exec (.bar2Read p off len) s = .next { s with reply := some ⟨p, true, false, []⟩ }) ∧
        (∀ bad bs s1, s.links.bar2Base + off + len ≤ localBytes →
          hostGranules s (granulesOf (s.links.bar2Base + off) len) = some (bad, bs, s1) →
          exec (.bar2Read p off len) s = .next
            { s1 with reply := some ⟨p, false, bad, (bs.drop ((s.links.bar2Base + off) % 64)).take len⟩ })) ∧
      (off + bytes.length ≤ bar2Bytes → 1 ≤ bytes.length → bytes.length ≤ 512 →
        exec (.bar2Write p off bytes) s = .next
          (if localBytes < s.links.bar2Base + off + bytes.length then s
          else newCmd s (.bar2 p) noCore .copy (.store (s.links.bar2Base + off) bytes) 0 id))) ∧
    (regAt off = none → off % 8 = 0 → writeBar0 s p off .eight v = s ∧ readBar0 s off .eight = 0) ∧
    (s.mgmt.resetDone = true → writeBar0 s p 0x400018 .four v =
      { s with links := { s.links with
        bar2Base := (s.links.bar2Base / 2 ^ 32 * 2 ^ 32 + v.toNat % 2 ^ 32) / 2 ^ 16 % 2 ^ 25 * 2 ^ 16 } })

/-- 02 R21: StripeMap. Data address DA lies on stack stk at offset off, as byte o mod 64 of its granule, and the parity unit of
its stripe on stack p at offset n × 512; the stripe is below 2^28 and every offset below 128 GiB; two data addresses never
share a byte, and no data byte lies in a parity unit. -/
def Obligations.StripeMap : Prop :=
  ∀ da : Nat, da < localBytes →
    (let n := da / 5632
     let o := da % 5632
     let j := o / 512
     let b := o % 512
     let p := 11 - n % 12
     let stk := (p + 1 + j) % 12
     let off := n * 512 + b
     let q := placeOf da
     physOf q.stripe q.unit q.gran + da % 64 = stk * 2 ^ 37 + off ∧
       physOf q.stripe 11 0 = p * 2 ^ 37 + n * 512 ∧ n < 2 ^ 28 ∧ off < 2 ^ 37 ∧ stk < 12 ∧ stk ≠ p) ∧
    (∀ db, db < localBytes → physOf (placeOf da).stripe (placeOf da).unit (placeOf da).gran + da % 64 =
      physOf (placeOf db).stripe (placeOf db).unit (placeOf db).gran + db % 64 → da = db) ∧
    (∀ m k, m < 2 ^ 28 → k < 512 → physOf m 11 0 + k ≠
      physOf (placeOf da).stripe (placeOf da).unit (placeOf da).gran + da % 64)

/-- 02 R25 to R30, 09 R157 to R168, 21 R331: the pieces of an engine command. A read gives its bytes, gives the substitute of a
tolerant page, fails with a status, or waits for a reconstruction; a whole-granule write enters the log with its data and retires with its parity; a part of a
granule is merged; an operation is performed at its place. A command whose every piece is done completes. 09 R160: what a read has
returned is what an earlier-issued read of the granule on its core, done later, returns; R170: a read that an acquiring atomic
held is issued with its acquire, and takes nothing that was returned before.
Where the rules leave a point open this rests on the model's reading: log entries 10, 17, 21, 44, 130 and 148. -/
def Obligations.MemoryEvents : Prop :=
  ∀ (id k va len da : Nat) (tol : Option Nat) (leaf : Option DWord) (c : Cmd) (s : State), getCmd s id = some c →
    (c.fresh s k = some (.rd va len) → c.mayRead s = true → resolve s c va 0 = some (.loc da tol, leaf) →
      let q := placeOf da
      (localBytes < da + len → exec (.granuleRead id k false) s = .next (failWith s id 0x15 va)) ∧
      (da + len ≤ localBytes →
        (∀ b u, rawDirect s q.stripe q.unit q.gran = (.ok b, u) → exec (.granuleRead id k false) s =
          .next (readFound (keepCopy u c (.loc da tol) b) c k (.loc da tol) b len)) ∧
        (∀ e u b w, rawDirect s q.stripe q.unit q.gran = (.fail e, u) → failRead u e tol = (.ok b, w) →
          exec (.granuleRead id k false) s = .next (readDone w c k (.loc da tol) b len)) ∧
        (∀ e u f w, rawDirect s q.stripe q.unit q.gran = (.fail e, u) → failRead u e tol = (.fail f, w) →
          exec (.granuleRead id k false) s = .next (failWith w id f va)) ∧
        (∀ u, rawDirect s q.stripe q.unit q.gran = (.wait, u) →
          exec (.granuleRead id k false) s = .next
            (updCmd u id fun d => { d with recon := d.recon ++ [(k, da, tol)] }))) ∧
      (∀ y, (copiesFor s c).find? (fun y => y.is 0 (da / 64 * 64)) = some y →
        exec (.granuleRead id k true) s =
          .next (readFound (seenCopy s c y) c k (.loc da tol) y.bytes len))) ∧
    (∀ d p b, d.born = c.born → d.born < 512 → c.seq < d.seq → c.unbuffered = false → d.unbuffered = false →
      laterSeen s c p = none → laterSeen s d p = none → laterSeen (returned s d p b).2 c p = some b) ∧
    (∀ p b old, laterSeen s c p = some old → returned s c p b = (old, s)) ∧
    (∀ a1 a2 a3 a4 a5 a6 a7 scope a9, c.kind = .atom a1 a2 a3 a4 a5 a6 a7 (some scope) a9 → endAcquire s c =
      issueHeldReads c.id (acquireAt c.core scope
        (updGang s c.pid c.gang fun g => { g with acquires := g.acquires.filter (· != c.id) }))) ∧
    (∀ d p, d ∈ (issueHeldReads id s).cmds → d.after.contains id = true → (∀ x ∈ (coreAt s d.born).seen, x.seq < s.nextId) →
      laterSeen (issueHeldReads id s) d p = none) ∧
    (c.recon.find? (fun r => r.1 == k) = some (k, da, tol) → (piecesOf s c)[k]? = some (.rd va len) →
      let q := placeOf da
      (∀ b u, rawReconstruct s q.stripe q.unit q.gran = (.ok b, u) → exec (.granuleReconstruct id k) s =
        .next (readFound (keepCopy u c (.loc da tol) b) c k (.loc da tol) b len)) ∧
      (∀ e u b w, rawReconstruct s q.stripe q.unit q.gran = (.fail e, u) → failRead u e tol = (.ok b, w) →
        exec (.granuleReconstruct id k) s = .next (readDone w c k (.loc da tol) b len)) ∧
      (∀ e u f w, rawReconstruct s q.stripe q.unit q.gran = (.fail e, u) → failRead u e tol = (.fail f, w) →
        exec (.granuleReconstruct id k) s = .next (failWith w id f va))) ∧
    (∀ n e, c.opened.find? (fun o => o.1 == k) = some (k, n) → entryOf s c n = some e →
      exec (.stripeWrite id k) s = .next (closeEntry s e)) ∧
    (∀ src d ws, c.fresh s k = some (.wr va len src) → c.begun k = false →
      resolve s c va 1 = some (.loc da tol, leaf) → getCmd (captureLines s id (src.lines len)) id = some d →
      writeBytes (captureLines s id (src.lines len)) d va len src = some ws →
      let u := captureLines s id (src.lines len)
      let q := placeOf (da / 64 * 64)
      (coversGranule ws = true → da / 64 * 64 + 64 ≤ localBytes → writeFails u q.stripe q.unit = false →
        stripeOpen u q.stripe = false → waitsAhead u q.stripe d.id k = false → logCount u q.stripe < 256 →
        stripeRun u d k va (da / 64 * 64) = none → serviceFull u d (.wr va len src) da = false →
        exec (.stripeWrite id k) s = .next (enterWhole u d k q (ws.map (·.v)))) ∧
      (∀ t, coversGranule ws = false → serviceFull u d (.wr va len src) da = false →
        mergeWrite u d k va da tol (fun old => mergeInto (va / 64 * 64) old ws) (fun _ w => w) = some t →
        exec (.subGranuleWrite id k) s = .next t)) ∧
    (c.fresh s k = some (.op va len) → opInTurn c k = true → c.begun k = false →
      resolve s c va (accessOf c (.op va len)) = some (.loc da tol, leaf) →
      (needsSmock c k = true → leaf.any pteSmock = true) → (readsPlane c = true → c.mayRead s = true) →
      (∀ a b m f n r, c.kind ≠ .put a b m f n r) → (∀ t, c.kind ≠ .peerOp (.combine t)) →
      ∀ t, opLocal s c k va len da tol = some t → exec (.serviceGangOp id k) s = .next t) ∧
    (∀ pid t, c.owner = .measure pid → c.frozen s = false → measureEnd s c pid = some t → exec (.commandComplete id) s = .next t) ∧
    (c.measures = none → poolIdle s c = false → endsElsewhere c = false → c.frozen s = false → c.fault = none → smockTurn s c = true →
      (∀ f, c.fail = some f → c.opened = [] → exec (.commandComplete id) s = .next (completeFailed s c f)) ∧
      (c.fail = none → mayComplete s c = true → waitsMirror s c = false → mirrorOf s c = none →
        (∀ a z g l n w, c.kind ≠ .hgfold a none z g l n w) →
        exec (.commandComplete id) s = .next (completeDone s c))) ∧
    (∀ pid p, getPanel s pid = some p → (p.life = .running ∨ p.life = .savedLining) → p.ring.cons ≠ p.ring.pub →
      ∃ t, exec (.ringConsume pid) s = .next t ∧
        (getPanel t pid).map (·.ring) = some { p.ring with cons := (p.ring.cons + 1) % 2 ^ 32 } ∧
        ∀ d ∈ s.cmds, d.ofPanel pid = true → d.kind = .ringEntry p.ring.cons → consumeEntry p s.free d ∈ t.cmds)

/-- 02 R47, 03 R53 to R63, 04 R81 to R84: translation of a piece's address, requests of peers and responses to the device's
own, steps and their retries, tiles and pleat entries.
Where the rules leave a point open this rests on the model's reading: log entries 7, 42, 43, 46, 111, 140, 141 and 143. -/
def Obligations.LinkEvents : Prop :=
  ∀ (id k : Nat) (s : State),
    (∀ (c : Cmd) (x : Piece), getCmd s id = some c → c.fresh s k = some x → c.physical = false →
      (∀ level ptr e u, walkVa s c.asid x.va = (.leaf level ptr e, u) →
        (accessOf c x = 0 ∨ pteW e = true → exec (.tableWalk id k) s =
          .next (tlbFill u c.core ⟨c.asid, x.va / 2 ^ pageBits level, e, level⟩)) ∧
        (level = 3 → pteCmp e = true →
          (localBytes < 65536 + pteAddr e → exec (.pageExpand id k) s = .next (failWith u c.id 0x15 x.va)) ∧
          (65536 + pteAddr e ≤ localBytes → poolIsEmpty u = true → exec (.pageExpand id k) s =
            .next (stallCmd u c poolEmpty x.va (accessOf c x))) ∧
          (∀ t, expandFor u c x.va ptr e (accessOf c x) = some t →
            exec (.pageExpand id k) s = .next t))) ∧
      (∀ f u, walkVa s c.asid x.va = (.fault f, u) →
        exec (.tableWalk id k) s = .next (stallCmd u c f x.va (accessOf c x))) ∧
      (∀ e u, walkVa s c.asid x.va = (.fail e, u) → exec (.tableWalk id k) s = .next (failWith u id e x.va))) ∧
    (s.links.dead.contains id = true → ∀ y, exec (.peerResponse id y) s = .next
      { s with links := { s.links with
        dead := s.links.dead.filter (fun d => d != id), cntLate := bump s.links.cntLate } }) ∧
    (∀ r c y t, s.links.dead.contains id = false → reqOf s id = some r → getCmd s r.cmd = some c →
      respond s c r y = some t → exec (.peerResponse id y) s = .next t) ∧
    (∀ r, reqOf s id = some r → r.sentAt + s.links.timeout * 10 ^ 9 ≤ s.fs →
      exec (.requestTimeout id) s = .next (failReq s r 0x14)) ∧
    (∀ r c, s.links.reqs.find? (fun r => r.cmd == id && r.piece == k && r.kind == .step) = some r →
      getCmd s id = some c → exec (.stepAck id k) s =
        .next ((c.stepOf k).foldl (fun t j => markDone t id j) ((stepReqs s r).foldl
          (fun t y => (granulesOf y.addr y.len).foldl (fun t g => dropCopy t c.core (1 + y.dev) g) (endReq t y)) s))) ∧
    (∀ c x y r t, getCmd s id = some c → c.tryOf k = some y → c.fresh s k = some x → stepRun s c k = some r →
      r.pieces.head? = some k → ((portFor s r.dev r.addr y.port).isSome ∨ y.at_ + 10 ^ 10 ≤ s.fs) →
      sendStep (captureLines (updCmd { s with links := { s.links with cntRetry := bump s.links.cntRetry } } id
        fun d => { d with lines := [] }) id (runLines s c r)) c k r x.va = some t →
      exec (.stepRetry id k) s = .next t) ∧
    (∀ n dev port domain, n < 18 → dev < 512 → port < 18 → domain < 256 →
      exec (.ualLinkUp n dev port domain) s =
        .next { s with links := { s.links with ual := vset s.links.ual n ⟨true, dev, port, domain⟩ } }) ∧
    (∀ n, n < 18 → exec (.ualLinkDown n) s = .next ((s.links.reqs.filter fun r => r.port == n).foldl
      (fun t r => if (reqOf t r.id).isSome then failReq t r 0x13 else t)
      { s with links := { s.links with
        ual := vset s.links.ual n { vget s.links.ual n ⟨false, 0, 0, 0⟩ with up := false } } })) ∧
    (∀ r : PeerReqIn, s.links.enable = true → r.dev ≤ 431 → askForm r.tag.isSome r.ask = true →
      (vget s.links.ual r.port ⟨false, 0, 0, 0⟩).up = true →
      (importAllows s (askRange r.ask).1 (askRange r.ask).2 = false → exec (.peerRequest r) s = .next s) ∧
      (importAllows s (askRange r.ask).1 (askRange r.ask).2 = true → r.tag = none → exec (.peerRequest r) s =
        .next (newCmd s (.peer r.port none) noCore .atomic (.peerOp r.ask) 0 (fun q => q))) ∧
      (∀ tag, importAllows s (askRange r.ask).1 (askRange r.ask).2 = true → r.tag = some tag →
        (remembers s r.dev tag.toNat = true → exec (.peerRequest r) s =
          .next { s with links := { s.links with cntDup := bump s.links.cntDup } }) ∧
        (remembers s r.dev tag.toNat = false → applying s (r.dev, tag.toNat) = false → exec (.peerRequest r) s =
          .next (newCmd s (.peer r.port (some (r.dev, tag.toNat))) noCore .atomic (.peerOp r.ask) 0 (fun q => q))))) ∧
    (∀ c va len da tol leaf st t, getCmd s id = some c → t.src.head? = some (id, k) → c.fresh s k = some (.op va len) →
      resolve s c va 2 = some (.loc da tol, leaf) → da + len ≤ localBytes → tileOf s c k da = some (st, t) →
      exec (.tileArrive st t) s =
        .next (arriveTile st (updCmd s id fun d => { d with sent := d.sent ++ [k] }) t)) ∧
    (∀ table e, (pleatAt s table).find? (fun e => e.id == id) = some e → e.last + 2 * 10 ^ 9 ≤ s.fs →
      exec (.pleatEntryTimeout table id) s =
        .next (let u := updPleat s table fun es => es.filter fun x => x.id != id
          if table < 18 then arriveCluster u e.tile else addIntoMemory u e.tile))

/-- 02 R45, 04 R72 to R80: a queue that runs fetches the packet at HQ_HEAD and takes it; a packet that may start does what its
type says.
Where the rules leave a point open this rests on the model's reading: log entries 7, 54 and 66. -/
def Obligations.PacketEvents : Prop :=
  ∀ (q : BitVec 8) (i : Word) (s : State),
    ((queueAt s q.toNat).state = .running → fetchOf s q.toNat = none → (queueAt s q.toNat).head ≠ (queueAt s q.toNat).tail →
      exec (.packetFetch q) s = .next (newCmd s (.ring q.toNat) noCore .copy
        (.fetch [(slotOf (queueAt s q.toNat), 64)]) (queueAt s q.toNat).asid (fun c => c))) ∧
    (∀ c bs, (queueAt s q.toNat).state = .running → fetchOf s q.toNat = some c → c.fail = none → c.data 0 = some bs →
      exec (.packetFetch q) s = .next (takePacket (forgetCmd s c.id) q.toNat (some bs) 0)) ∧
    (∀ p bs, getPkt s q.toNat i.toNat = some p → p.bytes = some bs → mayStart s q.toNat p = true →
      let u := markStarted s q.toNat i.toNat
      (pktType p = 0 → exec (.nopPacket q i) s = .next (endPacket u q.toNat i.toNat 0)) ∧
      (pktType p = 1 → launchOf s q.toNat i.toNat = none → exec (.launchPacket q i) s = .next (accept q i bs u)) ∧
      (pktType p = 2 → exec (.copyPacket q i) s = .next (pktCmd u q i .copy
        (.copy (.glob (pktNat bs 8 8)) (.glob (pktNat bs 16 8)) (pktNat bs 24 8) (pktNat bs 32 1)))) ∧
      (pktType p = 3 → exec (.waitPacket q i) s = .next u) ∧
      (pktType p = 4 → exec (.signalPacket q i) s = .next (pktCmd u q i .atomic
        (.signal (pktNat bs 8 8) (pktNat bs 2 1 == 1) (BitVec.ofNat 64 (pktNat bs 16 8))))) ∧
      (pktType p = 5 → exec (.fencePacket q i) s = .next (endPacket u q.toNat i.toNat 0)) ∧
      (pktType p = 6 → exec (.setprioPacket q i) s = .next
        (endPacket (updQueue u q.toNat fun x => { x with prio := pktNat bs 2 1 }) q.toNat i.toNat 0)) ∧
      (pktType p = 7 → p.stage = .fetched → exec (.compressPacket q i) s = .next (pktCmd u q i .copy
        (.compress (pktNat bs 8 8) (pktNat bs 16 4) (pktNat bs 24 8) [])))) ∧
    (∀ p bs, getPkt s q.toNat i.toNat = some p → p.bytes = some bs → pktType p = 3 → p.stage = .started →
      (cmdOfPkt s q i = none → exec (.waitPoll q i) s =
        .next (pktCmd (markPolled s q.toNat i.toNat) q i .copy (.fetch [(pktNat bs 8 8, 8)]))) ∧
      (∀ c v, cmdOfPkt s q i = some c → c.fail = none → c.data 0 = some v → exec (.waitPoll q i) s =
        .next (if pktNat bs 16 8 ≤ bytesNat v then endPacket (forgetCmd s c.id) q.toNat i.toNat 0
          else forgetCmd s c.id))) ∧
    (∀ l c t, launchOf s q.toNat i.toNat = some l → cmdOfPkt s q i = some c → acceptNext s c l = some t →
      exec (.launchPacket q i) s = .next t)

/-- 01 R13 to R19, R385, 02 R34, R35, 04 R83, 05 R89 to R98: samples of power and temperature, health refreshes, resets, records,
attestation and the loss of stacks, each when it is due.
Where the rules leave a point open this rests on the model's reading: log entries 2, 8, 18, 23, 63, 64, 67, 68,
84, 85, 86, 131 to 133 and 144. -/
def Obligations.ManagementEvents : Prop :=
  ∀ (p : Port) (stack : Nat) (r : FaultRec) (s : State),
    (s.mgmt.lastPower + 10 ^ 12 ≤ s.fs → exec .powerSample s =
      .next { s with mgmt := { powerTick s.sensors.watts s.mgmt with lastPower := s.fs } }) ∧
    (s.mgmt.lastRaise + 10 ^ 13 ≤ s.fs → exec .aclkRaiseTick s = .next { s with mgmt := { s.mgmt with
      aclk := if underCap s.mgmt = true ∧ s.mgmt.held = false ∧ s.mgmt.aclk < 20 then s.mgmt.aclk + 1 else s.mgmt.aclk,
      floorMs := if underCap s.mgmt = true ∧ s.mgmt.held = false ∧ s.mgmt.aclk < 20 then 0 else s.mgmt.floorMs,
      lastRaise := s.fs } }) ∧
    (s.mgmt.held = false → s.mgmt.aclk = 10 → overCap s.mgmt = true → 100 ≤ s.mgmt.floorMs →
      exec .aclkFloorTimeout s =
        .next (addRecord { s with mgmt := { s.mgmt with held := true } } (blankRecord 1 4 0))) ∧
    (s.mgmt.held = true ∨ s.mgmt.aclk ≠ 10 ∨ overCap s.mgmt = false ∨ s.mgmt.floorMs < 100 →
      exec .aclkFloorTimeout s = .fault .notEnabled) ∧
    (s.mgmt.lastThermal + 10 ^ 12 ≤ s.fs → trips s.mgmt.temps s.sensors.temps = false → exec .thermalSample s =
      .next (enterBand { s with mgmt := { s.mgmt with lastThermal := s.fs, temps := s.sensors.temps } }
        (bandOf s.sensors.temps))) ∧
    (s.mgmt.lastThermal + 10 ^ 12 ≤ s.fs → trips s.mgmt.temps s.sensors.temps = true → exec .thermalSample s =
      .next (thermalTrip { s with mgmt := { s.mgmt with lastThermal := s.fs, temps := s.sensors.temps } })) ∧
    (s.mgmt.gen % 2 = 0 → s.mgmt.lastHealth + 10 ^ 13 ≤ s.fs → exec .healthRefresh s =
      .next { s with mgmt := { s.mgmt with gen := s.mgmt.gen + 1, lastHealth := s.fs } }) ∧
    (s.mgmt.gen % 2 = 1 → exec .healthRefresh s =
      .next { s with mgmt := { s.mgmt with gen := (s.mgmt.gen + 1) % 2 ^ 64, health := healthPage s } }) ∧
    (portServes s p = true → s.mgmt.resetDone = true → anyInReset s = false →
      exec (.deviceResetRequest p) s = .next (deviceReset s)) ∧
    (portServes s p = true → s.mgmt.resetDone = true → anyInReset s = true → exec (.deviceResetRequest p) s =
      .next { s with mgmt := { s.mgmt with resetDone := false, resetWanted := true } }) ∧
    (s.mgmt.resetDone = false → s.mgmt.resetWanted = false → s.mgmt.resetAt + sclkFs < s.fs → hostWaits s = false →
      exec .deviceResetDone s = .next { s with mgmt := { s.mgmt with resetDone := true } }) ∧
    (portServes s p = true → s.mgmt.resetDone = false → exec (.deviceResetRequest p) s = .next s) ∧
    (s.fs ≤ s.mgmt.resetAt + sclkFs → exec .deviceResetDone s = .fault .notEnabled) ∧
    ((deviceReset s).mgmt.resetDone = false ∧ (deviceReset s).mgmt.resetAt = (deviceReset s).fs ∧ sclkFs = 5 * 10 ^ 6) ∧
    exec .coldReset s = .next (coldReset s) ∧
    ((coldReset s).gus.lost = s.gus.lost ∧ (coldReset s).gus.failed = s.gus.failed ∧ (coldReset s).hbm = [] ∧
      (coldReset s).panels = [] ∧ (coldReset s).cmds = [] ∧ s.mgmt.fwMinimum ≤ (coldReset s).mgmt.fwMinimum) ∧
    (s.gus.pending ≠ [] → exec .stackLoss s =
      .next (s.gus.pending.foldl loseStack { s with gus := { s.gus with pending := [] } })) ∧
    (stack < 12 → exec (.stackRetrainFail stack) s = .next (declareLoss s stack 1)) ∧
    (∀ v, s.inval = some v → ∃ t, exec .invalidateDone s = .next t ∧ t.inval = none ∧
      ∀ e ∈ t.iodTlb, invalCovers v e = false) ∧
    (recordFields r = true → unitNamed r = true → exec (.faultRecordWrite r) s = .next (addRecord s r)) ∧
    (s.mgmt.attBusy = true → ∃ t, exec .attestationDone s = .next t ∧ t.mgmt.attBusy = false ∧
      (t.mgmt.attReport.take 32 = s.mgmt.attUsed.take 32 ∨ s.mgmt.attUsed.length < 32))

/-- 06 R104 to R118, R390, 07 R130, R131, 13 R222, 16 R246, 17 R268: the life of a panel on its core.
Where the rules leave a point open this rests on the model's reading: log entries 9, 11, 55, 60, 61, 62, 69, 121,
135 and 136. -/
def Obligations.SchedulerEvents : Prop :=
  ∀ (part : BitVec 3) (pid core pos gang entry window : Nat) (s : State),
    (∀ q prio c t, mayDispatch s part.toNat = true → firstPlaceable s part.toNat = some (q, prio, c, t) →
      exec (.dispatch part) s = .next (noteRun (place s c t) part.toNat q prio)) ∧
    ((partAt s part.toNat).lastCheck + 10 ^ 9 ≤ s.fs → exec (.preemptCheck part) s = .next (preemptCheck s part.toNat)) ∧
    (∀ r, firstReady s core = some r → (coreAt s core).active[pos]? = some none →
      exec (.activeSetSwap core pos) s = .next (swapIn s core pos r)) ∧
    (∀ r x, firstReady s core = some r → (coreAt s core).active[pos]? = some (some x) → yielding s core = some pos →
      exec (.activeSetSwap core pos) s = .next (refreshCore (swapIn (evict s core pos) core pos r) core)) ∧
    (∀ p, getPanel s pid = some p →
      (p.life = .staging → failedMove s pid = none → noCommands s [p] = true → ∃ t,
        exec (.stagingComplete pid) s = .next t ∧ (getPanel t pid).map (·.life) = some .running) ∧
      (∀ code, p.life = .staging → failedMove s pid = some code →
        exec (.stagingComplete pid) s = .next (refreshCore (failPanel s pid code) p.core)) ∧
      (p.issues = true → codeCmd s pid window = none → needsWindow p window = true →
        exec (.codeFetch pid window) s = .next (newCmd s (.code pid) p.core .copy
          (.fetch [(p.hdr.kaddr + 32 * window, 32)]) p.hdr.asid fun c => { c with slotAddr := window })) ∧
      (∀ c bs, codeCmd s pid window = some c → c.fail = none → c.data 0 = some bs → exec (.codeFetch pid window) s =
        .next (refreshCluster (fillWindow (forgetCmd s c.id) p window bs) (p.core / 16))) ∧
      (∀ g e, p.gangs[gang]? = some g → g.split[entry]? = some e → p.issues = true → e.valid = true → e.blk = some .sleep →
        e.wake ≤ p.clk → e.wait = .run → (∀ l ∈ e.levels.head?, l.rcv ≠ e.pc + 12) →
        ∃ t h, exec (.sleepWake pid gang entry) s = .next t ∧ getGang t pid gang = some h ∧
          h.split[entry]? = some { e with blk := none, pc := e.pc + 12 }) ∧
      ((p.primary = true ∨ p.hdr.redundant = false) → (∀ m ∈ members s p, m.issues = true ∧ allExited m = true) →
        noCommands s (members s p) = true → ∃ t, exec (.panelRetire pid) s = .next t ∧
          (∀ m ∈ members s p, (getPanel t m.pid).map (fun q => (q.life, q.drain)) = some (.retiring, none)) ∧
          (writeParts p = [] → t.cmds = s.cmds) ∧
          (∀ kind ks, writeParts p = kind :: ks → ∃ c, t.cmds = s.cmds ++ [c] ∧ c.owner = .writeBack pid 0 ∧
            c.kind = kind ∧ c.id = s.nextId)) ∧
      ((p.primary = true ∨ p.hdr.redundant = false) → p.life = .retiring → failedMove s pid = none →
        noCommands s [p] = true → exec (.panelWritebackDone pid) s = .next (endMembers s p)) ∧
      (∀ due, p.drain = some (some due) → p.life = .running → due ≤ s.fs → exec (.drainVictimTimeout pid) s =
        .next (carryOut s p (latBound s p.hdr.part) (choose s p (latBound s p.hdr.part) true).1 true)) ∧
      (members s p = [p] → p.leaving = .toLining → p.life = .running → exec (.panelSaveLining pid) s =
        .next (refreshCore (savedAs s p .savedLining) p.core)) ∧
      (∀ slot u, members s p = [p] → p.leaving = .toMem slot → p.life = .running →
        (s.cmds.filter fun c => c.ofPanel pid).all (fun c => c.stuck s) = true →
        writeImage ((s.cmds.filter fun c => c.ofPanel pid).foldl withdrawCmd s) p slot = (none, u) →
        exec (.panelSaveMem pid) s = .next (refreshCore
          (dropCode (savedAs u p (.savedMem slot)) (p.core / 16) p.hdr.asid p.hdr.kaddr) p.core)) ∧
      ((∀ m ∈ members s p, saveReady s m = true) →
        let t := (members s p).foldl (fun t m => refreshCore t m.core) ((members s p).foldl saveMember s)
        (p.leaving = .toLining → exec (.panelSaveLining pid) s = .next t) ∧
        (p.leaving ≠ .toLining → exec (.panelSaveMem pid) s = .next t)) ∧
      (p.life = .running → (∀ m ∈ members s p, m.leaving = .flush) → runQuiet s (members s p) = true →
        exec (.panelFlush pid) s = .next ((members s p).foldl (fun t m => refreshCore t m.core) (requeue s p))))

/-! ## The whole machine -/

/-- 07 R129, 16 R245, R246, R249: issuing on a core runs the instruction that the window holds at the PC of the fragment that the
scan reaches. When the window's bytes from the PC on decode and the instruction ends within the window, it is that
instruction that `exec` runs, with the issuing fragment noted; when they do not, or it does not, `exec` runs
UNASSIGNED_ENCODING.
An event that the agenda names runs as it is. After either the step brings the active sets of the cores up to date whose panels have
had their last write to host memory delivered, or lost, by it (07 R130, 09 R158): of a state with no such write, none.
Where the rules leave a point open this rests on the model's reading: log entry 1. -/
def Obligations.StepRunsDecoded : Prop :=
  (∀ (s : State) (core : Nat) (cs : List Choice) (k : Nat) (u : Issuer) (i : Instr), s.agenda = .issue core :: cs →
    nextIssue { s with agenda := cs } core = some (k, u, i) →
    step s = noting s (exec i { s with agenda := cs, issuer := some u }) ∧
    ∃ p g e w, getPanel s u.pid = some p ∧ getGang s u.pid u.gang = some g ∧ g.split[u.entry]? = some e ∧
      windowOf s p e.pc = some w ∧ i = instrAt w e.pc ∧
      (∀ j rest, decode (codeAt w e.pc) = .ok (j, rest) → crosses e.pc (lengthAt (codeAt w e.pc)) = false → i = j)) ∧
  (∀ (s : State) (i : Instr) (cs : List Choice), s.agenda = .ev i :: cs →
    step s = noting s (exec i { s with agenda := cs })) ∧
  (∀ s t : State, noting s (.next t) = .next (noteDelivered s t) ∧ (s.links.posted = [] → noteDelivered s t = t)) ∧
  (∀ (s : State) (e : Fault), noting s (.fault e) = .fault e) ∧
  (∀ (w : List Byte) (pc : Word) (e : DecodeError), decode (codeAt w pc) = .error e → instrAt w pc = .unassignedEncoding) ∧
  (∀ (w : List Byte) (pc : Word), crosses pc (lengthAt (codeAt w pc)) = true → instrAt w pc = .unassignedEncoding)

/-- 16 R245, R247 to R254: for every encoded instruction that is well formed, decoding the bytes that the encoder gives, with
anything after them, gives the instruction and what stands after it. -/
def Obligations.EncodeDecode : Prop :=
  ∀ (i : Instr) (rest : List Byte), i.WellFormed → i.isEvent = false →
    decode (encode i ++ rest) = .ok (i, rest) ∧ (encode i).length = i.length

/-- Words that the specification assembles in chapters 16 to 22, 26 and 27, and three that R245, R248 and R255 refuse: L = 0, OP
0x19, and a NOP with a bit of SUB set. -/
def Obligations.DecodeWords : Prop :=
  decodeTableWord 64 0x008000C1424C11C1 = some (.fadd ⟨4, false, 0, some ⟨2, true⟩⟩ .f32 4 5 (.reg 6)) ∧
  decodeTableWord 96 0x0000620B00000000050004C6 = some (.smovi ⟨1, false, 0, none⟩ 10 (.short 0x620B)) ∧
  decodeTableWord 128 0x00000000FFFFFFC000080001C000040F = some (.brs ⟨1, false, 0, none⟩ .nz 7 0xFFFFFFC0 0) ∧
  decodeTableWord 96 0x0000000800200001028004E2 = some (.slda ⟨1, false, 0, none⟩ false 1 5 4 (some 8)) ∧
  decodeTableWord 64 0x080000A101800491 = some (.sdiv ⟨1, false, 0, none⟩ true 3 4 (.reg 5)) ∧
  decodeTableWord 96 0x000000730000000102800692 = some (.gshf ⟨1, false, 0, none⟩ .dn 3 3 5 4) ∧
  decodeTableWord 96 0x00000A2101000060820006E2 = some (.dota ⟨1, false, 0, none⟩ false 0 1 4 2 3 10) ∧
  decodeTableWord 64 0x0CD1018505000745 = some (.mma ⟨1, false, 0, none⟩ 10 9 true false 10 20 12 16) ∧
  decodeTableWord 64 0x3E807105048C07B1 =
    some (.atom ⟨1, false, 0, some ⟨2, false⟩⟩ .ar .n32 .add 3 true 9 20 8 7) ∧
  decodeTableWord 96 0x0000000300100000000007C2 = some (.seambar ⟨1, false, 0, none⟩ 3) ∧
  decodeTableWord 64 0x00080000000007ED = some (.ctnclose ⟨1, false, 0, none⟩) ∧
  decodeTableWord 64 0 = none ∧ decodeTableWord 64 0x65 = none ∧ decodeTableWord 64 0x0008000000000001 = none

/-- 01 Table 1-3, 02 Tables 2-6, 2-8, 03 Table 3-4, 04 Tables 4-2 to 4-5, 05 Tables 5-2, 5-6, 06 R99, Table 6-4: the values that the
specification gives the registers for reset, and what R91 and 06 Table 6-3 imply, no launch, no panel and no command.
Where the rules leave a point open this rests on the model's reading: log entry 5. -/
def Obligations.ResetState : Prop :=
  let s := State.reset
  readReg s .pwrCap % 2 ^ 12 = 3000 ∧ s.mgmt.aclk = 20 ∧ s.mgmt.resetDone = true ∧
  (∀ n, semOwner s n = 0) ∧
  (∀ q, (queueAt s q).enable = false ∧ (queueAt s q).state = .disabled ∧ (queueAt s q).head = 0 ∧
    (queueAt s q).tail = 0 ∧ (queueAt s q).size = 4) ∧
  (partAt s 0).clus = 0xFFFFFFFF ∧ (∀ p, 1 ≤ p → p < 8 → (partAt s p).clus = 0) ∧
  (∀ p, p < 8 → (partAt s p).drain = false ∧ (partAt s p).halt = false ∧ (partAt s p).gap = 1 ∧ (partAt s p).lat = 0) ∧
  readReg s .gusStatus = 0 ∧ s.links.enable = false ∧ s.links.devid = 0x1FF ∧ s.links.timeout = 50 ∧
  s.launches = [] ∧ s.panels = [] ∧ s.cmds = [] ∧ s.mgmt.g4 = none

/-- 01 R10, R13, Table 1-3, 06 R99, R111, Table 6-4: no step takes ACLK out of 625 MHz to 1.25 GHz, the host cap out of 1,500 W to
3,000 W or the least margin of a partition out of 1 to 63, or gives a cluster to two partitions. -/
def Obligations.ControlsKept : Prop :=
  ∀ s t : State, controlsOk s = true → step s = .next t → controlsOk t = true

/-- The state after reset is such a state. -/
def Obligations.ControlsAtReset : Prop := controlsOk State.reset = true

/-! ## Frames -/

/-- 17 R262, R271 to R276, 18 R286, R296, 22 R361, 16 R256: an instruction that writes a scalar register, once it is ready and
answers a next state, leaves every other register of the gang, the copies of its destination on the other slices, every
other state of the gang but its split table, every byte of memory, every command and batch, and the rest of the part. A
write to s0 is none. -/
def Obligations.FrameScalar : Prop :=
  ∀ (i : Instr) (d : Reg) (s t : State) (x : Ctx), scalarDest i = some d → ctxOf i s = some x → x.ready i →
    exec i s = .next t →
    ∃ q g, x.keeps [] (destOf d) s t q g ∧ x.p.keepsBytes q ∧ q.exc = x.p.exc ∧ q.catchAll = x.p.catchAll ∧
      g.srs = x.g.srs ∧ x.issuesNone s t g ∧
      ∀ k, k < 8 → x.e.slices.getLsbD k = false →
        vget (vget g.s d.toNat copies0) k 0 = vget (vget x.g.s d.toNat copies0) k 0

/-- 18 R281 to R297, 10 R184, R185, R191, 16 R256: an instruction that writes a vector register, once it is ready and answers a next
state, leaves every other register of the gang, the lanes of its destination that are not active, every other state of the
gang but its split table, every byte of memory, every command and batch, and the rest of the part. The stochastic-rounding states change only by a
conversion, on active lanes; the exception counters only by an instruction that charges events. With no lane active the
destination stays too. -/
def Obligations.FrameVector : Prop :=
  ∀ (i : Instr) (d : Reg) (s t : State) (x : Ctx), vectorDest i = some d → ctxOf i s = some x → x.ready i →
    exec i s = .next t →
    ∃ q g, x.keeps (if x.act = 0 then [] else [d.toNat]) [] s t q g ∧ x.p.keepsBytes q ∧
      (chargesEvents i = false → q.exc = x.p.exc ∧ q.catchAll = x.p.catchAll) ∧
      (drawsRandom i = false → g.srs = x.g.srs) ∧ x.issuesNone s t g ∧
      ∀ l, l < 32 → x.on l = false → vget g.srs l 0 = vget x.g.srs l 0 ∧
        vget (vget g.v d.toNat vreg0).lanes l 0 = vget (vget x.g.v d.toNat vreg0).lanes l 0

/-- 17 R277, R278, 19 R305, R309, R310, R312: a store, once it is ready and its addresses fit, changes only the scratchpad bytes at the
addresses that it computes, the destination of the forms that return a value, and what it publishes. SYMST may count in its
alphabet register, whose definition stays, and ATS on F32 may charge exception events. A store that publishes moves PUB
and adds commands to the open batches; one apart from the notify word leaves the ring, the batches and the commands. -/
def Obligations.FrameStores : Prop :=
  ∀ (c : Ctl) (t : Ty) (lt : LTy) (op : AtOp) (wide ret sym : Bool) (add : BitVec 6) (an : BitVec 4) (d a b cc : Reg)
    (off : Off) (s : State),
    framesStore (.sst c t a b off) s
      (fun x => ∀ k ∈ x.slices, x.sliceAddr a off k % (intWidth t : Int) = 0 ∧ 0 ≤ x.sliceAddr a off k ∧
        x.sliceAddr a off k + intWidth t ≤ x.p.hdr.size)
      (fun x => x.slices.map fun k => ((x.sliceAddr a off k).toNat, intWidth t)) [] [] none false ∧
    framesStore (.slda c wide add d a off) s
      (fun x => ∀ k ∈ x.slices, x.sliceAddr a off k % ((if wide then 8 else 4 : Nat) : Int) = 0 ∧
        0 ≤ x.sliceAddr a off k ∧ x.sliceAddr a off k + (if wide then 8 else 4 : Nat) ≤ x.p.hdr.size)
      (fun x => x.slices.map fun k => ((x.sliceAddr a off k).toNat, if wide then 8 else 4)) [] (destOf d) none false ∧
    framesStore (.st c t a b off) s
      (fun x => (∀ n, alphaIdx t = some n → (x.alpha n).defd = true) ∧ x.lanesFit a off)
      (fun x => x.lanes.map fun l => ((x.laneAddr a off l).toNat, 4)) [] [] none false ∧
    framesStore (.ats c ret lt op d a b off) s (fun x => x.lanesFit a off)
      (fun x => x.lanes.map fun l => ((x.laneAddr a off l).toNat, 4)) (if ret then [d.toNat] else []) [] none
      (lt == .f32) ∧
    framesStore (.stt c t a b cc) s (fun x => x.tensorFits t a b)
      (fun x => x.lanes.map fun l => (x.tensorAddr a b l, elemBytes x.p.alph t)) [] [] none false ∧
    framesStore (.symst c sym an a b cc) s
      (fun x => x.symbolsFit an a b ∧ ((x.alpha an.toNat).trap = false ∨ x.lostSymbols sym an b cc = 0))
      (fun x => (distinct (x.lanes.map (x.symbolAddr a b))).map fun p => (p, (x.alpha an.toNat).bytes)) [] []
      (some an.toNat) false
end

