-- ==== Sys2Proof/Laws/Issue.lean ====
section
/-! SUPPORT. What issuing an instruction does, said once: the checks of issue, the bookkeeping around a body, and the state
that a completed or trapping instruction answers. -/

namespace Sys2Proof.Machine

open Sys2Proof

/-! ## The bookkeeping of issue changes nothing else -/

@[simp] theorem Panel.quiet_pid (p : Panel) : p.quiet.pid = p.pid := rfl

/-- A change of a panel, seen without the bookkeeping of issue. -/
theorem quiet_updPanel {s : State} {pid : Nat} {f g : Panel → Panel} (h : ∀ p, (f p).quiet = g p.quiet) :
    (updPanel s pid f).quiet = updPanel s.quiet pid g := by
  simp only [updPanel, State.quiet, List.map_map]
  congr 1
  apply List.map_congr_left
  intro p _
  simp only [Function.comp_apply, Panel.quiet_pid]
  by_cases e : p.pid = pid <;> simp [e, h]

theorem updPanel_id (s : State) (pid : Nat) : updPanel s pid id = s := by
  have h : (s.panels.map fun p => if p.pid == pid then id p else p) = s.panels := by simp
  simp only [updPanel, h]

/-- A change of bookkeeping only. -/
theorem quiet_updPanel_same {s : State} {pid : Nat} {f : Panel → Panel} (h : ∀ p, (f p).quiet = p.quiet) :
    (updPanel s pid f).quiet = s.quiet := by
  rw [quiet_updPanel (g := id) h, updPanel_id]

theorem map_modifyAt {α β : Type} {f : α → α} {g : β → β} {q : α → β} (h : ∀ a, q (f a) = g (q a)) (xs : List α)
    (k : Nat) : (modifyAt f xs k).map q = modifyAt g (xs.map q) k := by
  induction xs generalizing k with
  | nil => rfl
  | cons a as ih => cases k <;> simp [modifyAt, h, ih]

theorem modifyAt_id {α : Type} (xs : List α) (k : Nat) : modifyAt id xs k = xs := by
  induction xs generalizing k with
  | nil => rfl
  | cons a as ih => cases k <;> simp [modifyAt, ih]

theorem map_modifyAt_same {α β : Type} {f : α → α} {q : α → β} (h : ∀ a, q (f a) = q a) (xs : List α) (k : Nat) :
    (modifyAt f xs k).map q = xs.map q := by
  rw [map_modifyAt (g := id) h, modifyAt_id]

/-- A change of a gang, seen without the bookkeeping of issue. -/
theorem quiet_updGang {s : State} {pid gi : Nat} {f g : Gang → Gang} (h : ∀ a, (f a).quiet = g a.quiet) :
    (updGang s pid gi f).quiet = updGang s.quiet pid gi g :=
  quiet_updPanel fun p => by simp [Panel.quiet, map_modifyAt h]

theorem quiet_updGang_same {s : State} {pid gi : Nat} {f : Gang → Gang} (h : ∀ a, (f a).quiet = a.quiet) :
    (updGang s pid gi f).quiet = s.quiet :=
  quiet_updPanel_same fun p => by simp [Panel.quiet, map_modifyAt_same h]

theorem map_vset {α β : Type} {n : Nat} (v : Vector α n) (i : Nat) (a : α) (q : α → β) :
    (vset v i a).map q = vset (v.map q) i (q a) := by
  apply Vector.ext
  intro j hj
  simp only [vset, Vector.getElem_map, Vector.getElem_setIfInBounds]
  split <;> simp_all

theorem vset_vget_same {α β : Type} {n : Nat} (v : Vector α n) (i : Nat) (d a : α) (q : α → β)
    (h : q a = q (vget v i d)) : (vset v i a).map q = v.map q := by
  apply Vector.ext
  intro j hj
  simp only [vset, Vector.getElem_map, Vector.getElem_setIfInBounds]
  split
  · next e => subst e; rw [h]; simp [vget, hj]
  · rfl

/-- A change of a core's bookkeeping. -/
theorem quiet_updCore_same {s : State} {c : Nat} {f : CoreSt → CoreSt} (h : ∀ a, (f a).quiet = a.quiet) :
    (updCore s c f).quiet = s.quiet := by
  simp only [updCore, State.quiet]
  rw [vset_vget_same _ _ core0 _ _ (h _)]

@[simp] theorem quiet_leaveActive (s : State) (core pid gi : Nat) : (leaveActive s core pid gi).quiet = s.quiet := by
  refine Eq.trans (quiet_updGang_same ?_) (quiet_updCore_same ?_) <;> (intro a; rfl)

theorem foldl_quiet {α : Type} {f : State → α → State} (h : ∀ s a, (f s a).quiet = s.quiet) (xs : List α) (s : State) :
    (xs.foldl f s).quiet = s.quiet := by
  induction xs generalizing s with
  | nil => rfl
  | cons a as ih => rw [List.foldl_cons, ih, h]

@[simp] theorem quiet_freeBlocked (s : State) (core : Nat) : (freeBlocked s core).quiet = s.quiet :=
  foldl_quiet (fun s a => by
    cases a with
    | none => rfl
    | some q =>
      simp only
      cases getPanel s q.pid <;> cases getGang s q.pid q.gang <;> simp
      split <;> simp) _ _

@[simp] theorem quiet_markReady (s : State) (core : Nat) : (markReady s core).quiet = s.quiet := by
  simp only [markReady, State.quiet, List.map_map]
  congr 1
  apply List.map_congr_left
  intro p _
  simp only [Function.comp_apply]
  split
  · simp only [Panel.quiet]
    congr 1
    apply List.ext_getElem
    · simp
    · intro i h1 h2
      simp only [List.getElem_mapIdx, List.getElem_map]
      split
      · split <;> rfl
      · rfl
  · rfl

@[simp] theorem quiet_refreshCore (s : State) (core : Nat) : (refreshCore s core).quiet = s.quiet := by
  simp [refreshCore]

theorem quiet_noIssuer (s : State) : { s with issuer := none : State }.quiet = s.quiet := rfl

theorem quiet_bookkeeping (s : State) (n : Nat) : { s with free := n : State }.quiet = s.quiet := rfl

@[simp] theorem quiet_takeSlot (x : Ctx) (k : Option Nat) (op : Nat) (s : State) : (x.takeSlot k op s).quiet = s.quiet := by
  simp only [Ctx.takeSlot, Ctx.updG, Ctx.updP]
  rw [quiet_updGang_same, quiet_updPanel_same]
  · refine Eq.trans (quiet_bookkeeping _ _) (quiet_updCore_same ?_)
    intro c; split <;> rfl
  · intro a; rfl
  · intro a; rfl

@[simp] theorem quiet_yieldAfter (x : Ctx) (i : Instr) (s : State) : (x.yieldAfter i s).quiet = s.quiet := by
  unfold Ctx.yieldAfter
  split <;> simp

theorem quiet_settleEntries (h : Hdr) (g : Gang) : (settleEntries h g).quiet = settleEntries h g.quiet := by
  simp only [settleEntries, Gang.quiet, liveSlices]

/-- Fragments that come together, seen without the bookkeeping of issue. -/
theorem quiet_settle (x : Ctx) (s : State) : (x.settle s).quiet = x.settle s.quiet :=
  quiet_updPanel fun p => by
    have h : (modifyAt (settleEntries p.hdr) p.gangs x.gi).map Gang.quiet =
        modifyAt (settleEntries p.hdr) (p.gangs.map Gang.quiet) x.gi :=
      map_modifyAt (fun a => quiet_settleEntries _ a) _ _
    simp only [Panel.quiet, h]

theorem settle_congr (x : Ctx) {s t : State} (h : s.quiet = t.quiet) : (x.settle s).quiet = (x.settle t).quiet := by
  rw [quiet_settle, quiet_settle, h]

theorem quiet_close (x : Ctx) (s : State) : (x.close s).quiet = (x.settle s).quiet :=
  (quiet_refreshCore _ _).trans rfl

theorem quiet_perfAdd (s : State) (pid ev n : Nat) : (perfAdd s pid ev n).quiet = perfAdd s.quiet pid ev n :=
  quiet_updPanel fun _ => rfl

/-! ## The checks of issue -/

/-- Registers that are all FULL, or POISON where the instruction keeps it, neither trap nor block. -/
theorem checkRegs_full {g : Gang} {c : Ctl} {keeps : Bool} {rs : List (Nat × Nat)}
    (h : ∀ r ∈ rs, (vget g.v r.2 vreg0).st = .full ∨ (keeps = true ∧ (vget g.v r.2 vreg0).st = .poison)) :
    checkRegs g c keeps rs = .ok [] := by
  have e1 : rs.find? (fun r => !keeps && (vget g.v r.2 vreg0).st == .poison) = none := by
    rw [List.find?_eq_none]
    intro r hr
    rcases h r hr with h | ⟨h, h'⟩ <;> simp [h]
  have e2 : rs.find? (fun r => (vget g.v r.2 vreg0).st == .empty && feTraps c r.1) = none := by
    rw [List.find?_eq_none]
    intro r hr
    rcases h r hr with h | ⟨_, h⟩ <;> simp [h]
  have e3 : rs.filter (fun r => (vget g.v r.2 vreg0).st == .empty) = [] := by
    rw [List.filter_eq_nil_iff]
    intro r hr
    rcases h r hr with h | ⟨_, h⟩ <;> simp [h]
  simp [checkRegs, e1, e2, e3]

/-- The hypotheses of `ready` are what the checks of issue ask for. -/
theorem checkIssue_ready {x : Ctx} {i : Instr} (h : x.ready i) : x.checkIssue i = .ok [] := by
  obtain ⟨h1, h2, h3, h4, h5, h6, h7, h8, h9⟩ := h
  have e4 : ¬ (pocketMisses x.g (vecSources (operandsAt x.p i)) ≠ 0 ∧ x.e.held = 0) := by
    rintro ⟨a, b⟩
    rcases h9 with h | h
    · exact a h
    · exact h b
  simp [Ctx.checkIssue, check, h1, h2, h3, h4, h5, h6, h8, checkRegs_full h7, e4, Bind.bind, Except.bind]

/-- An instruction that only its pocket misses keep from issuing is held for them (16 R259). -/
theorem checkIssue_held {x : Ctx} {i : Instr} (h : Ctx.ready { x with e := { x.e with held := 1 } } i)
    (hm : pocketMisses x.g (vecSources (operandsAt x.p i)) ≠ 0) (hh : x.e.held = 0) :
    x.checkIssue i = .error (.hold (x.p.clk + 3 * pocketMisses x.g (vecSources (operandsAt x.p i)))
      (pocketMisses x.g (vecSources (operandsAt x.p i)))) := by
  obtain ⟨h1, h2, h3, h4, h5, h6, h7, h8, -⟩ := h
  have h1 : crosses x.pc x.len = false := h1
  have h4 : illegalNow x.p x.g x.e i = false := by
    simpa [illegalNow] using h4
  simp_all [Ctx.checkIssue, check, checkRegs_full h7, Bind.bind, Except.bind]

/-- An instruction that is ready and whose body answers a state completes with it. -/
theorem runInstr_completes {x : Ctx} {i : Instr} {body : Ctx → State → Body} {s u : State} (hx : ctxOf i s = some x)
    (hr : x.ready i) (hb : body x (x.begin s) = .ok u) :
    ∃ t, runInstr i body s = .next t ∧ t.quiet = (x.issued u).quiet := by
  have ha : x.attempt i body s = .ok u := by
    simp [Ctx.attempt, checkIssue_ready hr, Bind.bind, Except.bind, hb]
  refine ⟨x.conclude i s (.ok u), by simp [runInstr, hx, ha], ?_⟩
  simp only [Ctx.conclude, quiet_close]
  apply settle_congr
  have hp : (x.updG (fun g => { g with pending := x.pendings i (x.extra u) }) u).quiet = u.quiet :=
    quiet_updGang_same fun _ => rfl
  simp [Ctx.countIssue, quiet_perfAdd, hp]

/-- An instruction that is ready and whose body traps takes the trap. -/
theorem runInstr_traps {x : Ctx} {i : Instr} {body : Ctx → State → Body} {s : State} {t : Trap}
    (hx : ctxOf i s = some x) (hr : x.ready i) (hb : body x (x.begin s) = .error (.trap t)) :
    ∃ u, runInstr i body s = .next u ∧
      u.quiet = (x.settle (takeTrap s x.pid x.gi x.ei t (unwinds t.cause))).quiet := by
  have ha : x.attempt i body s = .error (.trap t) := by
    simp [Ctx.attempt, checkIssue_ready hr, Bind.bind, Except.bind, hb]
  refine ⟨x.conclude i s (.error (.trap t)), by simp [runInstr, hx, ha], ?_⟩
  simp only [Ctx.conclude, quiet_close]
  exact settle_congr x (quiet_takeSlot _ _ _ _)

/-- An instruction that fails a check of issue takes its trap. -/
theorem runInstr_refused {x : Ctx} {i : Instr} {body : Ctx → State → Body} {s : State} {t : Trap}
    (hx : ctxOf i s = some x) (hc : x.checkIssue i = .error (.trap t)) :
    ∃ u, runInstr i body s = .next u ∧
      u.quiet = (x.settle (takeTrap s x.pid x.gi x.ei t (unwinds t.cause))).quiet := by
  have ha : x.attempt i body s = .error (.trap t) := by
    simp [Ctx.attempt, hc, Bind.bind, Except.bind]
  refine ⟨x.conclude i s (.error (.trap t)), by simp [runInstr, hx, ha], ?_⟩
  simp only [Ctx.conclude, quiet_close]
  exact settle_congr x (quiet_takeSlot _ _ _ _)

end Sys2Proof.Machine
end

