-- ==== Sys2Proof/Laws/Memory.lean ====
section
/-! SUPPORT. The laws of memory: what a read gives after a write, and that every operation keeps the canonical form. -/

namespace Sys2Proof.Machine

open Sys2Proof

/-! ## The canonical form -/

theorem wfFrom_cons {lo a : Nat} {b : Byte} {m : Memory} :
    wfFrom lo ((a, b) :: m) = true ↔ lo ≤ a ∧ b ≠ unlisted ∧ wfFrom (a + 1) m = true := by
  simp [wfFrom, and_assoc]

/-- A lower bound may be lowered. -/
theorem wfFrom_mono {lo hi : Nat} {m : Memory} (h : wfFrom hi m = true) (hl : lo ≤ hi) : wfFrom lo m = true := by
  cases m with
  | nil => rfl
  | cons c m =>
    obtain ⟨h1, h2⟩ := wfFrom_cons.mp h
    exact wfFrom_cons.mpr ⟨Nat.le_trans hl h1, h2⟩

theorem wfFrom_put {lo x : Nat} {v : Byte} {m : Memory} (h : wfFrom lo m = true) (hx : lo ≤ x) :
    wfFrom lo (Memory.put m x v) = true := by
  induction m generalizing lo with
  | nil =>
    unfold Memory.put
    split
    · rfl
    · next hv => exact wfFrom_cons.mpr ⟨hx, hv, rfl⟩
  | cons c m ih =>
    obtain ⟨a, b⟩ := c
    obtain ⟨h1, h2, h3⟩ := wfFrom_cons.mp h
    unfold Memory.put
    split
    · next hlt =>
      split
      · exact h
      · next hv => exact wfFrom_cons.mpr ⟨hx, hv, wfFrom_cons.mpr ⟨hlt, h2, h3⟩⟩
    · split
      · next hne he =>
        subst he
        split
        · exact wfFrom_mono h3 (by omega)
        · next hv => exact wfFrom_cons.mpr ⟨hx, hv, h3⟩
      · next hge hne => exact wfFrom_cons.mpr ⟨h1, h2, ih h3 (by omega)⟩

/-- Storing a byte keeps the canonical form. -/
theorem wf_put {m : Memory} (h : Memory.wf m = true) (x : Nat) (v : Byte) : Memory.wf (Memory.put m x v) = true :=
  wfFrom_put h (Nat.zero_le _)

/-- Storing bytes keeps the canonical form. -/
theorem wf_write {m : Memory} (h : Memory.wf m = true) (a : Nat) (bs : List Byte) :
    Memory.wf (Memory.write m a bs) = true := by
  induction bs generalizing m a with
  | nil => exact h
  | cons b bs ih => exact ih (wf_put h a b) (a + 1)

theorem wf_writeNat {m : Memory} (h : Memory.wf m = true) (a n x : Nat) :
    Memory.wf (Memory.writeNat m a n x) = true := wf_write h _ _

theorem wfFrom_filter {lo : Nat} {m : Memory} (h : wfFrom lo m = true) (f : Host.Cell → Bool) :
    wfFrom lo (m.filter f) = true := by
  induction m generalizing lo with
  | nil => rfl
  | cons c m ih =>
    obtain ⟨h1, h2, h3⟩ := wfFrom_cons.mp h
    by_cases e : f c
    · rw [List.filter_cons_of_pos e]
      exact wfFrom_cons.mpr ⟨h1, h2, ih h3⟩
    · rw [List.filter_cons_of_neg e]
      exact wfFrom_mono (ih h3) (by omega)

/-- Clearing cells keeps the canonical form. -/
theorem wf_clear {m : Memory} (h : Memory.wf m = true) (a n : Nat) : Memory.wf (Memory.clear m a n) = true :=
  wfFrom_filter h _

/-! ## Reads -/

/-- In a canonical memory nothing below the bound is listed. -/
theorem get_below {lo x : Nat} {m : Memory} (h : wfFrom lo m = true) (hx : x < lo) : Memory.get m x = unlisted := by
  induction m generalizing lo with
  | nil => rfl
  | cons c m ih =>
    obtain ⟨h1, h2, h3⟩ := wfFrom_cons.mp h
    unfold Memory.get
    rw [if_neg (by omega)]
    exact ih h3 (by omega)

theorem get_put_from {lo x y : Nat} {v : Byte} {m : Memory} (h : wfFrom lo m = true) :
    Memory.get (Memory.put m x v) y = if y = x then v else Memory.get m y := by
  induction m generalizing lo with
  | nil =>
    unfold Memory.put
    by_cases hv : v = unlisted
    · subst hv; simp [Memory.get]
    · rw [if_neg hv]; rfl
  | cons c m ih =>
    obtain ⟨a, b⟩ := c
    obtain ⟨h1, h2, h3⟩ := wfFrom_cons.mp h
    unfold Memory.put
    split
    · next hlt =>
      split
      · next hv =>
        split
        · next e => subst e; rw [hv]; exact get_below (wfFrom_cons.mpr ⟨Nat.le_refl a, h2, h3⟩) hlt
        · rfl
      · rfl
    · split
      · next hge he =>
        subst he
        split
        · next hv =>
          split
          · next e => subst e; rw [hv]; exact get_below h3 (Nat.lt_succ_self _)
          · next e => simp [Memory.get, e]
        · by_cases e : y = x <;> simp [Memory.get, e]
      · next hge hne =>
        simp only [Memory.get]
        by_cases e : y = a
        · subst e; simp [Ne.symm hne]
        · simp [e, ih h3]

/-- A read after a write of one byte. -/
theorem get_put {m : Memory} (h : Memory.wf m = true) (x y : Nat) (v : Byte) :
    Memory.get (Memory.put m x v) y = if y = x then v else Memory.get m y := get_put_from h

/-- A read after a write of bytes. -/
theorem get_write {m : Memory} (h : Memory.wf m = true) (a y : Nat) (bs : List Byte) :
    Memory.get (Memory.write m a bs) y = if a ≤ y then (bs[y - a]?).getD (Memory.get m y) else Memory.get m y := by
  induction bs generalizing m a with
  | nil => simp [Memory.write]
  | cons b bs ih =>
    simp only [Memory.write]
    rw [ih (wf_put h a b), get_put h]
    by_cases e : y = a
    · subst e; simp
    · by_cases e2 : a ≤ y
      · have : a + 1 ≤ y := by omega
        have hs : y - a = (y - (a + 1)) + 1 := by omega
        simp [e, e2, this, hs]
      · have : ¬ a + 1 ≤ y := by omega
        simp [e, e2, this]

/-- A write leaves every byte outside it alone. -/
theorem get_write_outside {m : Memory} (h : Memory.wf m = true) {a y : Nat} {bs : List Byte}
    (hy : y < a ∨ a + bs.length ≤ y) : Memory.get (Memory.write m a bs) y = Memory.get m y := by
  rw [get_write h]
  split
  · rw [List.getElem?_eq_none (by omega)]; rfl
  · rfl

/-- A read of what a write stored. -/
theorem get_write_inside {m : Memory} (h : Memory.wf m = true) {a y : Nat} {bs : List Byte} (h1 : a ≤ y)
    (h2 : y - a < bs.length) : Memory.get (Memory.write m a bs) y = bs[y - a] := by
  rw [get_write h, if_pos h1, List.getElem?_eq_getElem h2]; rfl

/-- What a clear leaves. -/
theorem get_clear {m : Memory} (a n y : Nat) :
    Memory.get (Memory.clear m a n) y = if a ≤ y ∧ y < a + n then unlisted else Memory.get m y := by
  unfold Memory.clear
  induction m with
  | nil => simp [Memory.get]
  | cons c m ih =>
    obtain ⟨b, v⟩ := c
    by_cases e : b < a ∨ a + n ≤ b
    · rw [List.filter_cons_of_pos (by simpa using e)]
      simp only [Memory.get]
      by_cases ey : y = b
      · subst ey
        have : ¬ (a ≤ y ∧ y < a + n) := by omega
        simp [this]
      · simp only [ey, if_false]; exact ih
    · rw [List.filter_cons_of_neg (by simpa using e), ih]
      by_cases ey : y = b
      · subst ey
        have : a ≤ y ∧ y < a + n := by omega
        simp [this]
      · simp [Memory.get, ey]

/-- Reading bytes that a write stored. -/
theorem read_congr {m m' : Memory} {a n : Nat} (h : ∀ y, a ≤ y → y < a + n → Memory.get m y = Memory.get m' y) :
    Memory.read m a n = Memory.read m' a n := by
  induction n generalizing a with
  | zero => rfl
  | succ n ih =>
    simp only [Memory.read]
    rw [h a (Nat.le_refl _) (by omega), ih fun y h1 h2 => h y (by omega) (by omega)]

theorem readNat_congr {m m' : Memory} {a n : Nat} (h : ∀ y, a ≤ y → y < a + n → Memory.get m y = Memory.get m' y) :
    Memory.readNat m a n = Memory.readNat m' a n := by
  induction n generalizing a with
  | zero => rfl
  | succ n ih =>
    simp only [Memory.readNat]
    rw [h a (Nat.le_refl _) (by omega), ih fun y h1 h2 => h y (by omega) (by omega)]

@[simp] theorem length_natBytes (n x : Nat) : (natBytes n x).length = n := by
  induction n generalizing x with
  | zero => rfl
  | succ n ih => simp [natBytes, ih]

@[simp] theorem length_read (m : Memory) (a n : Nat) : (Memory.read m a n).length = n := by
  induction n generalizing a with
  | zero => rfl
  | succ n ih => simp [Memory.read, ih]

/-- A number that was stored reads back, cut to its bytes. -/
theorem readNat_writeNat {m : Memory} (h : Memory.wf m = true) (a n x : Nat) :
    Memory.readNat (Memory.writeNat m a n x) a n = x % 256 ^ n := by
  induction n generalizing m a x with
  | zero => simp [Memory.readNat, Nat.mod_one]
  | succ n ih =>
    simp only [Memory.readNat, Memory.writeNat, natBytes, Memory.write]
    have h0 : Memory.get (Memory.write (Memory.put m a (BitVec.ofNat 8 x)) (a + 1) (natBytes n (x / 256))) a =
        BitVec.ofNat 8 x := by
      rw [get_write_outside (wf_put h _ _) (Or.inl (Nat.lt_succ_self _)), get_put h, if_pos rfl]
    rw [h0]
    have := ih (m := Memory.put m a (BitVec.ofNat 8 x)) (wf_put h _ _) (a + 1) (x / 256)
    simp only [Memory.writeNat] at this
    rw [this, BitVec.toNat_ofNat, show 256 ^ (n + 1) = 256 * 256 ^ n by rw [Nat.pow_succ, Nat.mul_comm], Nat.mod_mul]

/-! ## Reset -/

set_option maxRecDepth 100000 in
/-- Every memory of the machine is in canonical form at reset. -/
theorem reset_memOk : memoriesOk State.reset = true := by decide

end Sys2Proof.Machine
end

