-- ==== Sys2Proof/Laws/Panels.lean ====
section
/-! SUPPORT. Reading panels, gangs, cores and commands after a change of one of them, and what the issuing fragment sees. -/

namespace Sys2Proof.Machine

open Sys2Proof

/-! ## Lists and fixed arrays -/

theorem getElem?_modifyAt {α : Type} (f : α → α) (xs : List α) (k j : Nat) :
    (modifyAt f xs k)[j]? = if k = j then (xs[j]?).map f else xs[j]? := by
  induction xs generalizing k j with
  | nil => simp [modifyAt]
  | cons a as ih => cases k <;> cases j <;> simp [modifyAt, ih]

@[simp] theorem length_modifyAt {α : Type} (f : α → α) (xs : List α) (k : Nat) :
    (modifyAt f xs k).length = xs.length := by
  induction xs generalizing k with
  | nil => rfl
  | cons a as ih => cases k <;> simp [modifyAt, ih]

theorem vget_vset {α : Type} {n : Nat} (v : Vector α n) (i j : Nat) (a d : α) :
    vget (vset v i a) j d = if i = j ∧ j < n then a else vget v j d := by
  unfold vget vset
  split
  · next h => by_cases e : i = j <;> simp [e, h]
  · next h => simp [h]

theorem vget_vset_same {α : Type} {n : Nat} (v : Vector α n) (i : Nat) (a d : α) (h : i < n) :
    vget (vset v i a) i d = a := by simp [vget_vset, h]

theorem vget_vset_ne {α : Type} {n : Nat} (v : Vector α n) (i j : Nat) (a d : α) (h : i ≠ j) :
    vget (vset v i a) j d = vget v j d := by simp [vget_vset, h]

/-! ## Panels and gangs -/

/-- A change that keeps every panel's number reads as the changed panel. -/
theorem getPanel_updPanel (s : State) (pid q : Nat) (f : Panel → Panel) (hf : ∀ p, (f p).pid = p.pid) :
    getPanel (updPanel s pid f) q = (getPanel s q).map fun p => if p.pid = pid then f p else p := by
  simp only [getPanel, updPanel]
  generalize s.panels = ps
  induction ps with
  | nil => rfl
  | cons a as ih =>
    by_cases h : a.pid = pid <;> by_cases e : a.pid = q <;> simp_all

theorem getPanel_pid {s : State} {pid : Nat} {p : Panel} (h : getPanel s pid = some p) : p.pid = pid := by
  have := List.find?_some h
  simpa using this

theorem getPanel_updPanel_same (s : State) (pid : Nat) (f : Panel → Panel) (hf : ∀ p, (f p).pid = p.pid) :
    getPanel (updPanel s pid f) pid = (getPanel s pid).map f := by
  rw [getPanel_updPanel _ _ _ _ hf]
  cases h : getPanel s pid with
  | none => rfl
  | some p => simp [getPanel_pid h]

theorem getPanel_updPanel_ne (s : State) {pid q : Nat} (f : Panel → Panel) (hf : ∀ p, (f p).pid = p.pid)
    (hq : q ≠ pid) : getPanel (updPanel s pid f) q = getPanel s q := by
  rw [getPanel_updPanel _ _ _ _ hf]
  cases h : getPanel s q with
  | none => rfl
  | some p => simp [getPanel_pid h, hq]

theorem getPanel_updGang (s : State) (pid gi : Nat) (f : Gang → Gang) :
    getPanel (updGang s pid gi f) pid = (getPanel s pid).map fun p => { p with gangs := modifyAt f p.gangs gi } :=
  getPanel_updPanel_same _ _ _ fun _ => rfl

theorem getGang_updGang (s : State) (pid gi : Nat) (f : Gang → Gang) :
    getGang (updGang s pid gi f) pid gi = (getGang s pid gi).map f := by
  simp only [getGang, getPanel_updGang]
  cases getPanel s pid <;> simp [getElem?_modifyAt]

theorem getGang_updGang_ne (s : State) (pid gi gj : Nat) (f : Gang → Gang) (h : gi ≠ gj) :
    getGang (updGang s pid gi f) pid gj = getGang s pid gj := by
  simp only [getGang, getPanel_updGang]
  cases getPanel s pid <;> simp [getElem?_modifyAt, h]

theorem getGang_updPanel (s : State) (pid gi : Nat) (f : Panel → Panel) (hf : ∀ p, (f p).pid = p.pid)
    (hg : ∀ p, (f p).gangs = p.gangs) : getGang (updPanel s pid f) pid gi = getGang s pid gi := by
  simp only [getGang, getPanel_updPanel_same _ _ _ hf]
  cases getPanel s pid <;> simp [hg]

/-! ## What the issuing fragment sees -/

/-- What `ctxOf` answers stands in the state: the issuer's panel, gang and entry, with nothing unknown. -/
theorem ctxOf_spec {i : Instr} {s : State} {x : Ctx} (h : ctxOf i s = some x) :
    s.issuer = some ⟨x.pid, x.gi, x.ei⟩ ∧ getPanel s x.pid = some x.p ∧ getGang s x.pid x.gi = some x.g ∧
      x.g.split[x.ei]? = some x.e ∧ x.unknown = [] ∧ x.len = i.length ∧ x.act = activeLanes { x with act := 0 } ∧
      x.now = s.now ∧ x.free = s.free := by
  unfold ctxOf at h
  split at h
  · simp at h
  · next u hu =>
    split at h
    · next p g hp hg =>
      split at h
      · next e he =>
        simp only [Option.some.injEq] at h
        subst h
        exact ⟨hu, hp, hg, he, rfl, rfl, rfl, rfl, rfl⟩
      · simp at h
    · simp at h

theorem ctxOf_knows {i : Instr} {s : State} {x : Ctx} (h : ctxOf i s = some x) (r : Reg) : x.knows r = true := by
  simp [Ctx.knows, (ctxOf_spec h).2.2.2.2.1]

/-- The state in which the body acts: the panel is the one of before but for the entry's place. -/
theorem begin_panel {i : Instr} {s : State} {x : Ctx} (h : ctxOf i s = some x) :
    ∃ f : SplitEntry → SplitEntry, getPanel (x.begin s) x.pid =
      some { x.p with gangs := modifyAt (fun g => { g with split := modifyAt f g.split x.ei }) x.p.gangs x.gi } := by
  refine ⟨fun e => { e with
    pc := e.pc + BitVec.ofNat 32 x.len, blk := none, sealed := [], paired := none, held := 0, measured := []
    prev := some x.p.clk }, ?_⟩
  simp only [Ctx.begin, Ctx.updEntry, getPanel_updGang, (ctxOf_spec h).2.1, Option.map_some]

theorem begin_gang {i : Instr} {s : State} {x : Ctx} (h : ctxOf i s = some x) :
    ∃ f : SplitEntry → SplitEntry,
      getGang (x.begin s) x.pid x.gi = some { x.g with split := modifyAt f x.g.split x.ei } := by
  refine ⟨fun e => { e with
    pc := e.pc + BitVec.ofNat 32 x.len, blk := none, sealed := [], paired := none, held := 0, measured := []
    prev := some x.p.clk }, ?_⟩
  simp only [Ctx.begin, Ctx.updEntry, getGang_updGang, (ctxOf_spec h).2.2.1, Option.map_some]

theorem begin_sp {i : Instr} {s : State} {x : Ctx} (h : ctxOf i s = some x) : spOf (x.begin s) x.pid = x.p.sp := by
  obtain ⟨f, hf⟩ := begin_panel h
  simp [spOf, hf]

end Sys2Proof.Machine
end

