-- ==== Sys2Proof/Laws/State.lean ====
section
/-! SUPPORT. Every field of the state after every basic update, so that no proof unfolds a record update. -/

namespace Sys2Proof.Machine

open Sys2Proof

/-! ## updPanel -/

@[simp] theorem updPanel_now (s : State) (pid : Nat) (f : Panel → Panel) : (updPanel s pid f).now = s.now := rfl
@[simp] theorem updPanel_fs (s : State) (pid : Nat) (f : Panel → Panel) : (updPanel s pid f).fs = s.fs := rfl
@[simp] theorem updPanel_mgmt (s : State) (pid : Nat) (f : Panel → Panel) : (updPanel s pid f).mgmt = s.mgmt := rfl
@[simp] theorem updPanel_sensors (s : State) (pid : Nat) (f : Panel → Panel) :
    (updPanel s pid f).sensors = s.sensors := rfl
@[simp] theorem updPanel_flash (s : State) (pid : Nat) (f : Panel → Panel) : (updPanel s pid f).flash = s.flash := rfl
@[simp] theorem updPanel_hbm (s : State) (pid : Nat) (f : Panel → Panel) : (updPanel s pid f).hbm = s.hbm := rfl
@[simp] theorem updPanel_marks (s : State) (pid : Nat) (f : Panel → Panel) : (updPanel s pid f).marks = s.marks := rfl
@[simp] theorem updPanel_gus (s : State) (pid : Nat) (f : Panel → Panel) : (updPanel s pid f).gus = s.gus := rfl
@[simp] theorem updPanel_links (s : State) (pid : Nat) (f : Panel → Panel) : (updPanel s pid f).links = s.links := rfl
@[simp] theorem updPanel_sems (s : State) (pid : Nat) (f : Panel → Panel) : (updPanel s pid f).sems = s.sems := rfl
@[simp] theorem updPanel_queues (s : State) (pid : Nat) (f : Panel → Panel) :
    (updPanel s pid f).queues = s.queues := rfl
@[simp] theorem updPanel_asidBase (s : State) (pid : Nat) (f : Panel → Panel) :
    (updPanel s pid f).asidBase = s.asidBase := rfl
@[simp] theorem updPanel_fqBase (s : State) (pid : Nat) (f : Panel → Panel) :
    (updPanel s pid f).fqBase = s.fqBase := rfl
@[simp] theorem updPanel_fqWritten (s : State) (pid : Nat) (f : Panel → Panel) :
    (updPanel s pid f).fqWritten = s.fqWritten := rfl
@[simp] theorem updPanel_fqSize (s : State) (pid : Nat) (f : Panel → Panel) :
    (updPanel s pid f).fqSize = s.fqSize := rfl
@[simp] theorem updPanel_fqProd (s : State) (pid : Nat) (f : Panel → Panel) :
    (updPanel s pid f).fqProd = s.fqProd := rfl
@[simp] theorem updPanel_fqCons (s : State) (pid : Nat) (f : Panel → Panel) :
    (updPanel s pid f).fqCons = s.fqCons := rfl
@[simp] theorem updPanel_xfaults (s : State) (pid : Nat) (f : Panel → Panel) :
    (updPanel s pid f).xfaults = s.xfaults := rfl
@[simp] theorem updPanel_nextTag (s : State) (pid : Nat) (f : Panel → Panel) :
    (updPanel s pid f).nextTag = s.nextTag := rfl
@[simp] theorem updPanel_inval (s : State) (pid : Nat) (f : Panel → Panel) : (updPanel s pid f).inval = s.inval := rfl
@[simp] theorem updPanel_irqs (s : State) (pid : Nat) (f : Panel → Panel) : (updPanel s pid f).irqs = s.irqs := rfl
@[simp] theorem updPanel_parts (s : State) (pid : Nat) (f : Panel → Panel) : (updPanel s pid f).parts = s.parts := rfl
@[simp] theorem updPanel_launches (s : State) (pid : Nat) (f : Panel → Panel) :
    (updPanel s pid f).launches = s.launches := rfl
theorem updPanel_panels (s : State) (pid : Nat) (f : Panel → Panel) :
    (updPanel s pid f).panels = s.panels.map fun p => if p.pid == pid then f p else p := rfl
@[simp] theorem updPanel_cores (s : State) (pid : Nat) (f : Panel → Panel) : (updPanel s pid f).cores = s.cores := rfl
@[simp] theorem updPanel_clusters (s : State) (pid : Nat) (f : Panel → Panel) :
    (updPanel s pid f).clusters = s.clusters := rfl
@[simp] theorem updPanel_iodTlb (s : State) (pid : Nat) (f : Panel → Panel) :
    (updPanel s pid f).iodTlb = s.iodTlb := rfl
@[simp] theorem updPanel_cmds (s : State) (pid : Nat) (f : Panel → Panel) : (updPanel s pid f).cmds = s.cmds := rfl
@[simp] theorem updPanel_hostMem (s : State) (pid : Nat) (f : Panel → Panel) :
    (updPanel s pid f).hostMem = s.hostMem := rfl
@[simp] theorem updPanel_reply (s : State) (pid : Nat) (f : Panel → Panel) : (updPanel s pid f).reply = s.reply := rfl
@[simp] theorem updPanel_agenda (s : State) (pid : Nat) (f : Panel → Panel) :
    (updPanel s pid f).agenda = s.agenda := rfl
@[simp] theorem updPanel_issuer (s : State) (pid : Nat) (f : Panel → Panel) :
    (updPanel s pid f).issuer = s.issuer := rfl
@[simp] theorem updPanel_free (s : State) (pid : Nat) (f : Panel → Panel) : (updPanel s pid f).free = s.free := rfl
@[simp] theorem updPanel_nextId (s : State) (pid : Nat) (f : Panel → Panel) :
    (updPanel s pid f).nextId = s.nextId := rfl

/-! ## updGang -/

@[simp] theorem updGang_now (s : State) (pid gi : Nat) (f : Gang → Gang) : (updGang s pid gi f).now = s.now := rfl
@[simp] theorem updGang_fs (s : State) (pid gi : Nat) (f : Gang → Gang) : (updGang s pid gi f).fs = s.fs := rfl
@[simp] theorem updGang_mgmt (s : State) (pid gi : Nat) (f : Gang → Gang) : (updGang s pid gi f).mgmt = s.mgmt := rfl
@[simp] theorem updGang_sensors (s : State) (pid gi : Nat) (f : Gang → Gang) :
    (updGang s pid gi f).sensors = s.sensors := rfl
@[simp] theorem updGang_flash (s : State) (pid gi : Nat) (f : Gang → Gang) : (updGang s pid gi f).flash = s.flash := rfl
@[simp] theorem updGang_hbm (s : State) (pid gi : Nat) (f : Gang → Gang) : (updGang s pid gi f).hbm = s.hbm := rfl
@[simp] theorem updGang_marks (s : State) (pid gi : Nat) (f : Gang → Gang) : (updGang s pid gi f).marks = s.marks := rfl
@[simp] theorem updGang_gus (s : State) (pid gi : Nat) (f : Gang → Gang) : (updGang s pid gi f).gus = s.gus := rfl
@[simp] theorem updGang_links (s : State) (pid gi : Nat) (f : Gang → Gang) : (updGang s pid gi f).links = s.links := rfl
@[simp] theorem updGang_sems (s : State) (pid gi : Nat) (f : Gang → Gang) : (updGang s pid gi f).sems = s.sems := rfl
@[simp] theorem updGang_queues (s : State) (pid gi : Nat) (f : Gang → Gang) :
    (updGang s pid gi f).queues = s.queues := rfl
@[simp] theorem updGang_asidBase (s : State) (pid gi : Nat) (f : Gang → Gang) :
    (updGang s pid gi f).asidBase = s.asidBase := rfl
@[simp] theorem updGang_fqBase (s : State) (pid gi : Nat) (f : Gang → Gang) :
    (updGang s pid gi f).fqBase = s.fqBase := rfl
@[simp] theorem updGang_fqWritten (s : State) (pid gi : Nat) (f : Gang → Gang) :
    (updGang s pid gi f).fqWritten = s.fqWritten := rfl
@[simp] theorem updGang_fqSize (s : State) (pid gi : Nat) (f : Gang → Gang) :
    (updGang s pid gi f).fqSize = s.fqSize := rfl
@[simp] theorem updGang_fqProd (s : State) (pid gi : Nat) (f : Gang → Gang) :
    (updGang s pid gi f).fqProd = s.fqProd := rfl
@[simp] theorem updGang_fqCons (s : State) (pid gi : Nat) (f : Gang → Gang) :
    (updGang s pid gi f).fqCons = s.fqCons := rfl
@[simp] theorem updGang_xfaults (s : State) (pid gi : Nat) (f : Gang → Gang) :
    (updGang s pid gi f).xfaults = s.xfaults := rfl
@[simp] theorem updGang_nextTag (s : State) (pid gi : Nat) (f : Gang → Gang) :
    (updGang s pid gi f).nextTag = s.nextTag := rfl
@[simp] theorem updGang_inval (s : State) (pid gi : Nat) (f : Gang → Gang) : (updGang s pid gi f).inval = s.inval := rfl
@[simp] theorem updGang_irqs (s : State) (pid gi : Nat) (f : Gang → Gang) : (updGang s pid gi f).irqs = s.irqs := rfl
@[simp] theorem updGang_parts (s : State) (pid gi : Nat) (f : Gang → Gang) : (updGang s pid gi f).parts = s.parts := rfl
@[simp] theorem updGang_launches (s : State) (pid gi : Nat) (f : Gang → Gang) :
    (updGang s pid gi f).launches = s.launches := rfl
theorem updGang_panels (s : State) (pid gi : Nat) (f : Gang → Gang) :
    (updGang s pid gi f).panels = s.panels.map fun p => if p.pid == pid then { p with gangs := modifyAt f p.gangs gi } else p := rfl
@[simp] theorem updGang_cores (s : State) (pid gi : Nat) (f : Gang → Gang) : (updGang s pid gi f).cores = s.cores := rfl
@[simp] theorem updGang_clusters (s : State) (pid gi : Nat) (f : Gang → Gang) :
    (updGang s pid gi f).clusters = s.clusters := rfl
@[simp] theorem updGang_iodTlb (s : State) (pid gi : Nat) (f : Gang → Gang) :
    (updGang s pid gi f).iodTlb = s.iodTlb := rfl
@[simp] theorem updGang_cmds (s : State) (pid gi : Nat) (f : Gang → Gang) : (updGang s pid gi f).cmds = s.cmds := rfl
@[simp] theorem updGang_hostMem (s : State) (pid gi : Nat) (f : Gang → Gang) :
    (updGang s pid gi f).hostMem = s.hostMem := rfl
@[simp] theorem updGang_reply (s : State) (pid gi : Nat) (f : Gang → Gang) : (updGang s pid gi f).reply = s.reply := rfl
@[simp] theorem updGang_agenda (s : State) (pid gi : Nat) (f : Gang → Gang) :
    (updGang s pid gi f).agenda = s.agenda := rfl
@[simp] theorem updGang_issuer (s : State) (pid gi : Nat) (f : Gang → Gang) :
    (updGang s pid gi f).issuer = s.issuer := rfl
@[simp] theorem updGang_free (s : State) (pid gi : Nat) (f : Gang → Gang) : (updGang s pid gi f).free = s.free := rfl
@[simp] theorem updGang_nextId (s : State) (pid gi : Nat) (f : Gang → Gang) :
    (updGang s pid gi f).nextId = s.nextId := rfl

/-! ## updSp -/

@[simp] theorem updSp_now (s : State) (pid : Nat) (f : Memory → Memory) : (updSp s pid f).now = s.now := rfl
@[simp] theorem updSp_fs (s : State) (pid : Nat) (f : Memory → Memory) : (updSp s pid f).fs = s.fs := rfl
@[simp] theorem updSp_mgmt (s : State) (pid : Nat) (f : Memory → Memory) : (updSp s pid f).mgmt = s.mgmt := rfl
@[simp] theorem updSp_sensors (s : State) (pid : Nat) (f : Memory → Memory) : (updSp s pid f).sensors = s.sensors := rfl
@[simp] theorem updSp_flash (s : State) (pid : Nat) (f : Memory → Memory) : (updSp s pid f).flash = s.flash := rfl
@[simp] theorem updSp_hbm (s : State) (pid : Nat) (f : Memory → Memory) : (updSp s pid f).hbm = s.hbm := rfl
@[simp] theorem updSp_marks (s : State) (pid : Nat) (f : Memory → Memory) : (updSp s pid f).marks = s.marks := rfl
@[simp] theorem updSp_gus (s : State) (pid : Nat) (f : Memory → Memory) : (updSp s pid f).gus = s.gus := rfl
@[simp] theorem updSp_links (s : State) (pid : Nat) (f : Memory → Memory) : (updSp s pid f).links = s.links := rfl
@[simp] theorem updSp_sems (s : State) (pid : Nat) (f : Memory → Memory) : (updSp s pid f).sems = s.sems := rfl
@[simp] theorem updSp_queues (s : State) (pid : Nat) (f : Memory → Memory) : (updSp s pid f).queues = s.queues := rfl
@[simp] theorem updSp_asidBase (s : State) (pid : Nat) (f : Memory → Memory) :
    (updSp s pid f).asidBase = s.asidBase := rfl
@[simp] theorem updSp_fqBase (s : State) (pid : Nat) (f : Memory → Memory) : (updSp s pid f).fqBase = s.fqBase := rfl
@[simp] theorem updSp_fqWritten (s : State) (pid : Nat) (f : Memory → Memory) :
    (updSp s pid f).fqWritten = s.fqWritten := rfl
@[simp] theorem updSp_fqSize (s : State) (pid : Nat) (f : Memory → Memory) : (updSp s pid f).fqSize = s.fqSize := rfl
@[simp] theorem updSp_fqProd (s : State) (pid : Nat) (f : Memory → Memory) : (updSp s pid f).fqProd = s.fqProd := rfl
@[simp] theorem updSp_fqCons (s : State) (pid : Nat) (f : Memory → Memory) : (updSp s pid f).fqCons = s.fqCons := rfl
@[simp] theorem updSp_xfaults (s : State) (pid : Nat) (f : Memory → Memory) : (updSp s pid f).xfaults = s.xfaults := rfl
@[simp] theorem updSp_nextTag (s : State) (pid : Nat) (f : Memory → Memory) : (updSp s pid f).nextTag = s.nextTag := rfl
@[simp] theorem updSp_inval (s : State) (pid : Nat) (f : Memory → Memory) : (updSp s pid f).inval = s.inval := rfl
@[simp] theorem updSp_irqs (s : State) (pid : Nat) (f : Memory → Memory) : (updSp s pid f).irqs = s.irqs := rfl
@[simp] theorem updSp_parts (s : State) (pid : Nat) (f : Memory → Memory) : (updSp s pid f).parts = s.parts := rfl
@[simp] theorem updSp_launches (s : State) (pid : Nat) (f : Memory → Memory) :
    (updSp s pid f).launches = s.launches := rfl
theorem updSp_panels (s : State) (pid : Nat) (f : Memory → Memory) :
    (updSp s pid f).panels = s.panels.map fun p => if p.pid == pid then { p with sp := f p.sp } else p := rfl
@[simp] theorem updSp_cores (s : State) (pid : Nat) (f : Memory → Memory) : (updSp s pid f).cores = s.cores := rfl
@[simp] theorem updSp_clusters (s : State) (pid : Nat) (f : Memory → Memory) :
    (updSp s pid f).clusters = s.clusters := rfl
@[simp] theorem updSp_iodTlb (s : State) (pid : Nat) (f : Memory → Memory) : (updSp s pid f).iodTlb = s.iodTlb := rfl
@[simp] theorem updSp_cmds (s : State) (pid : Nat) (f : Memory → Memory) : (updSp s pid f).cmds = s.cmds := rfl
@[simp] theorem updSp_hostMem (s : State) (pid : Nat) (f : Memory → Memory) : (updSp s pid f).hostMem = s.hostMem := rfl
@[simp] theorem updSp_reply (s : State) (pid : Nat) (f : Memory → Memory) : (updSp s pid f).reply = s.reply := rfl
@[simp] theorem updSp_agenda (s : State) (pid : Nat) (f : Memory → Memory) : (updSp s pid f).agenda = s.agenda := rfl
@[simp] theorem updSp_issuer (s : State) (pid : Nat) (f : Memory → Memory) : (updSp s pid f).issuer = s.issuer := rfl
@[simp] theorem updSp_free (s : State) (pid : Nat) (f : Memory → Memory) : (updSp s pid f).free = s.free := rfl
@[simp] theorem updSp_nextId (s : State) (pid : Nat) (f : Memory → Memory) : (updSp s pid f).nextId = s.nextId := rfl

/-! ## updCore -/

@[simp] theorem updCore_now (s : State) (c : Nat) (f : CoreSt → CoreSt) : (updCore s c f).now = s.now := rfl
@[simp] theorem updCore_fs (s : State) (c : Nat) (f : CoreSt → CoreSt) : (updCore s c f).fs = s.fs := rfl
@[simp] theorem updCore_mgmt (s : State) (c : Nat) (f : CoreSt → CoreSt) : (updCore s c f).mgmt = s.mgmt := rfl
@[simp] theorem updCore_sensors (s : State) (c : Nat) (f : CoreSt → CoreSt) : (updCore s c f).sensors = s.sensors := rfl
@[simp] theorem updCore_flash (s : State) (c : Nat) (f : CoreSt → CoreSt) : (updCore s c f).flash = s.flash := rfl
@[simp] theorem updCore_hbm (s : State) (c : Nat) (f : CoreSt → CoreSt) : (updCore s c f).hbm = s.hbm := rfl
@[simp] theorem updCore_marks (s : State) (c : Nat) (f : CoreSt → CoreSt) : (updCore s c f).marks = s.marks := rfl
@[simp] theorem updCore_gus (s : State) (c : Nat) (f : CoreSt → CoreSt) : (updCore s c f).gus = s.gus := rfl
@[simp] theorem updCore_links (s : State) (c : Nat) (f : CoreSt → CoreSt) : (updCore s c f).links = s.links := rfl
@[simp] theorem updCore_sems (s : State) (c : Nat) (f : CoreSt → CoreSt) : (updCore s c f).sems = s.sems := rfl
@[simp] theorem updCore_queues (s : State) (c : Nat) (f : CoreSt → CoreSt) : (updCore s c f).queues = s.queues := rfl
@[simp] theorem updCore_asidBase (s : State) (c : Nat) (f : CoreSt → CoreSt) :
    (updCore s c f).asidBase = s.asidBase := rfl
@[simp] theorem updCore_fqBase (s : State) (c : Nat) (f : CoreSt → CoreSt) : (updCore s c f).fqBase = s.fqBase := rfl
@[simp] theorem updCore_fqWritten (s : State) (c : Nat) (f : CoreSt → CoreSt) :
    (updCore s c f).fqWritten = s.fqWritten := rfl
@[simp] theorem updCore_fqSize (s : State) (c : Nat) (f : CoreSt → CoreSt) : (updCore s c f).fqSize = s.fqSize := rfl
@[simp] theorem updCore_fqProd (s : State) (c : Nat) (f : CoreSt → CoreSt) : (updCore s c f).fqProd = s.fqProd := rfl
@[simp] theorem updCore_fqCons (s : State) (c : Nat) (f : CoreSt → CoreSt) : (updCore s c f).fqCons = s.fqCons := rfl
@[simp] theorem updCore_xfaults (s : State) (c : Nat) (f : CoreSt → CoreSt) : (updCore s c f).xfaults = s.xfaults := rfl
@[simp] theorem updCore_nextTag (s : State) (c : Nat) (f : CoreSt → CoreSt) : (updCore s c f).nextTag = s.nextTag := rfl
@[simp] theorem updCore_inval (s : State) (c : Nat) (f : CoreSt → CoreSt) : (updCore s c f).inval = s.inval := rfl
@[simp] theorem updCore_irqs (s : State) (c : Nat) (f : CoreSt → CoreSt) : (updCore s c f).irqs = s.irqs := rfl
@[simp] theorem updCore_parts (s : State) (c : Nat) (f : CoreSt → CoreSt) : (updCore s c f).parts = s.parts := rfl
@[simp] theorem updCore_launches (s : State) (c : Nat) (f : CoreSt → CoreSt) :
    (updCore s c f).launches = s.launches := rfl
@[simp] theorem updCore_panels (s : State) (c : Nat) (f : CoreSt → CoreSt) : (updCore s c f).panels = s.panels := rfl
theorem updCore_cores (s : State) (c : Nat) (f : CoreSt → CoreSt) :
    (updCore s c f).cores = vset s.cores c (f (coreAt s c)) := rfl
@[simp] theorem updCore_clusters (s : State) (c : Nat) (f : CoreSt → CoreSt) :
    (updCore s c f).clusters = s.clusters := rfl
@[simp] theorem updCore_iodTlb (s : State) (c : Nat) (f : CoreSt → CoreSt) : (updCore s c f).iodTlb = s.iodTlb := rfl
@[simp] theorem updCore_cmds (s : State) (c : Nat) (f : CoreSt → CoreSt) : (updCore s c f).cmds = s.cmds := rfl
@[simp] theorem updCore_hostMem (s : State) (c : Nat) (f : CoreSt → CoreSt) : (updCore s c f).hostMem = s.hostMem := rfl
@[simp] theorem updCore_reply (s : State) (c : Nat) (f : CoreSt → CoreSt) : (updCore s c f).reply = s.reply := rfl
@[simp] theorem updCore_agenda (s : State) (c : Nat) (f : CoreSt → CoreSt) : (updCore s c f).agenda = s.agenda := rfl
@[simp] theorem updCore_issuer (s : State) (c : Nat) (f : CoreSt → CoreSt) : (updCore s c f).issuer = s.issuer := rfl
@[simp] theorem updCore_free (s : State) (c : Nat) (f : CoreSt → CoreSt) : (updCore s c f).free = s.free := rfl
@[simp] theorem updCore_nextId (s : State) (c : Nat) (f : CoreSt → CoreSt) : (updCore s c f).nextId = s.nextId := rfl

/-! ## updQueue -/

@[simp] theorem updQueue_now (s : State) (q : Nat) (f : Queue → Queue) : (updQueue s q f).now = s.now := rfl
@[simp] theorem updQueue_fs (s : State) (q : Nat) (f : Queue → Queue) : (updQueue s q f).fs = s.fs := rfl
@[simp] theorem updQueue_mgmt (s : State) (q : Nat) (f : Queue → Queue) : (updQueue s q f).mgmt = s.mgmt := rfl
@[simp] theorem updQueue_sensors (s : State) (q : Nat) (f : Queue → Queue) : (updQueue s q f).sensors = s.sensors := rfl
@[simp] theorem updQueue_flash (s : State) (q : Nat) (f : Queue → Queue) : (updQueue s q f).flash = s.flash := rfl
@[simp] theorem updQueue_hbm (s : State) (q : Nat) (f : Queue → Queue) : (updQueue s q f).hbm = s.hbm := rfl
@[simp] theorem updQueue_marks (s : State) (q : Nat) (f : Queue → Queue) : (updQueue s q f).marks = s.marks := rfl
@[simp] theorem updQueue_gus (s : State) (q : Nat) (f : Queue → Queue) : (updQueue s q f).gus = s.gus := rfl
@[simp] theorem updQueue_links (s : State) (q : Nat) (f : Queue → Queue) : (updQueue s q f).links = s.links := rfl
@[simp] theorem updQueue_sems (s : State) (q : Nat) (f : Queue → Queue) : (updQueue s q f).sems = s.sems := rfl
theorem updQueue_queues (s : State) (q : Nat) (f : Queue → Queue) :
    (updQueue s q f).queues = vset s.queues q (f (queueAt s q)) := rfl
@[simp] theorem updQueue_asidBase (s : State) (q : Nat) (f : Queue → Queue) :
    (updQueue s q f).asidBase = s.asidBase := rfl
@[simp] theorem updQueue_fqBase (s : State) (q : Nat) (f : Queue → Queue) : (updQueue s q f).fqBase = s.fqBase := rfl
@[simp] theorem updQueue_fqWritten (s : State) (q : Nat) (f : Queue → Queue) :
    (updQueue s q f).fqWritten = s.fqWritten := rfl
@[simp] theorem updQueue_fqSize (s : State) (q : Nat) (f : Queue → Queue) : (updQueue s q f).fqSize = s.fqSize := rfl
@[simp] theorem updQueue_fqProd (s : State) (q : Nat) (f : Queue → Queue) : (updQueue s q f).fqProd = s.fqProd := rfl
@[simp] theorem updQueue_fqCons (s : State) (q : Nat) (f : Queue → Queue) : (updQueue s q f).fqCons = s.fqCons := rfl
@[simp] theorem updQueue_xfaults (s : State) (q : Nat) (f : Queue → Queue) : (updQueue s q f).xfaults = s.xfaults := rfl
@[simp] theorem updQueue_nextTag (s : State) (q : Nat) (f : Queue → Queue) : (updQueue s q f).nextTag = s.nextTag := rfl
@[simp] theorem updQueue_inval (s : State) (q : Nat) (f : Queue → Queue) : (updQueue s q f).inval = s.inval := rfl
@[simp] theorem updQueue_irqs (s : State) (q : Nat) (f : Queue → Queue) : (updQueue s q f).irqs = s.irqs := rfl
@[simp] theorem updQueue_parts (s : State) (q : Nat) (f : Queue → Queue) : (updQueue s q f).parts = s.parts := rfl
@[simp] theorem updQueue_launches (s : State) (q : Nat) (f : Queue → Queue) :
    (updQueue s q f).launches = s.launches := rfl
@[simp] theorem updQueue_panels (s : State) (q : Nat) (f : Queue → Queue) : (updQueue s q f).panels = s.panels := rfl
@[simp] theorem updQueue_cores (s : State) (q : Nat) (f : Queue → Queue) : (updQueue s q f).cores = s.cores := rfl
@[simp] theorem updQueue_clusters (s : State) (q : Nat) (f : Queue → Queue) :
    (updQueue s q f).clusters = s.clusters := rfl
@[simp] theorem updQueue_iodTlb (s : State) (q : Nat) (f : Queue → Queue) : (updQueue s q f).iodTlb = s.iodTlb := rfl
@[simp] theorem updQueue_cmds (s : State) (q : Nat) (f : Queue → Queue) : (updQueue s q f).cmds = s.cmds := rfl
@[simp] theorem updQueue_hostMem (s : State) (q : Nat) (f : Queue → Queue) : (updQueue s q f).hostMem = s.hostMem := rfl
@[simp] theorem updQueue_reply (s : State) (q : Nat) (f : Queue → Queue) : (updQueue s q f).reply = s.reply := rfl
@[simp] theorem updQueue_agenda (s : State) (q : Nat) (f : Queue → Queue) : (updQueue s q f).agenda = s.agenda := rfl
@[simp] theorem updQueue_issuer (s : State) (q : Nat) (f : Queue → Queue) : (updQueue s q f).issuer = s.issuer := rfl
@[simp] theorem updQueue_free (s : State) (q : Nat) (f : Queue → Queue) : (updQueue s q f).free = s.free := rfl
@[simp] theorem updQueue_nextId (s : State) (q : Nat) (f : Queue → Queue) : (updQueue s q f).nextId = s.nextId := rfl

/-! ## updPart -/

@[simp] theorem updPart_now (s : State) (p : Nat) (f : Part → Part) : (updPart s p f).now = s.now := rfl
@[simp] theorem updPart_fs (s : State) (p : Nat) (f : Part → Part) : (updPart s p f).fs = s.fs := rfl
@[simp] theorem updPart_mgmt (s : State) (p : Nat) (f : Part → Part) : (updPart s p f).mgmt = s.mgmt := rfl
@[simp] theorem updPart_sensors (s : State) (p : Nat) (f : Part → Part) : (updPart s p f).sensors = s.sensors := rfl
@[simp] theorem updPart_flash (s : State) (p : Nat) (f : Part → Part) : (updPart s p f).flash = s.flash := rfl
@[simp] theorem updPart_hbm (s : State) (p : Nat) (f : Part → Part) : (updPart s p f).hbm = s.hbm := rfl
@[simp] theorem updPart_marks (s : State) (p : Nat) (f : Part → Part) : (updPart s p f).marks = s.marks := rfl
@[simp] theorem updPart_gus (s : State) (p : Nat) (f : Part → Part) : (updPart s p f).gus = s.gus := rfl
@[simp] theorem updPart_links (s : State) (p : Nat) (f : Part → Part) : (updPart s p f).links = s.links := rfl
@[simp] theorem updPart_sems (s : State) (p : Nat) (f : Part → Part) : (updPart s p f).sems = s.sems := rfl
@[simp] theorem updPart_queues (s : State) (p : Nat) (f : Part → Part) : (updPart s p f).queues = s.queues := rfl
@[simp] theorem updPart_asidBase (s : State) (p : Nat) (f : Part → Part) : (updPart s p f).asidBase = s.asidBase := rfl
@[simp] theorem updPart_fqBase (s : State) (p : Nat) (f : Part → Part) : (updPart s p f).fqBase = s.fqBase := rfl
@[simp] theorem updPart_fqWritten (s : State) (p : Nat) (f : Part → Part) :
    (updPart s p f).fqWritten = s.fqWritten := rfl
@[simp] theorem updPart_fqSize (s : State) (p : Nat) (f : Part → Part) : (updPart s p f).fqSize = s.fqSize := rfl
@[simp] theorem updPart_fqProd (s : State) (p : Nat) (f : Part → Part) : (updPart s p f).fqProd = s.fqProd := rfl
@[simp] theorem updPart_fqCons (s : State) (p : Nat) (f : Part → Part) : (updPart s p f).fqCons = s.fqCons := rfl
@[simp] theorem updPart_xfaults (s : State) (p : Nat) (f : Part → Part) : (updPart s p f).xfaults = s.xfaults := rfl
@[simp] theorem updPart_nextTag (s : State) (p : Nat) (f : Part → Part) : (updPart s p f).nextTag = s.nextTag := rfl
@[simp] theorem updPart_inval (s : State) (p : Nat) (f : Part → Part) : (updPart s p f).inval = s.inval := rfl
@[simp] theorem updPart_irqs (s : State) (p : Nat) (f : Part → Part) : (updPart s p f).irqs = s.irqs := rfl
theorem updPart_parts (s : State) (p : Nat) (f : Part → Part) :
    (updPart s p f).parts = vset s.parts p (f (partAt s p)) := rfl
@[simp] theorem updPart_launches (s : State) (p : Nat) (f : Part → Part) : (updPart s p f).launches = s.launches := rfl
@[simp] theorem updPart_panels (s : State) (p : Nat) (f : Part → Part) : (updPart s p f).panels = s.panels := rfl
@[simp] theorem updPart_cores (s : State) (p : Nat) (f : Part → Part) : (updPart s p f).cores = s.cores := rfl
@[simp] theorem updPart_clusters (s : State) (p : Nat) (f : Part → Part) : (updPart s p f).clusters = s.clusters := rfl
@[simp] theorem updPart_iodTlb (s : State) (p : Nat) (f : Part → Part) : (updPart s p f).iodTlb = s.iodTlb := rfl
@[simp] theorem updPart_cmds (s : State) (p : Nat) (f : Part → Part) : (updPart s p f).cmds = s.cmds := rfl
@[simp] theorem updPart_hostMem (s : State) (p : Nat) (f : Part → Part) : (updPart s p f).hostMem = s.hostMem := rfl
@[simp] theorem updPart_reply (s : State) (p : Nat) (f : Part → Part) : (updPart s p f).reply = s.reply := rfl
@[simp] theorem updPart_agenda (s : State) (p : Nat) (f : Part → Part) : (updPart s p f).agenda = s.agenda := rfl
@[simp] theorem updPart_issuer (s : State) (p : Nat) (f : Part → Part) : (updPart s p f).issuer = s.issuer := rfl
@[simp] theorem updPart_free (s : State) (p : Nat) (f : Part → Part) : (updPart s p f).free = s.free := rfl
@[simp] theorem updPart_nextId (s : State) (p : Nat) (f : Part → Part) : (updPart s p f).nextId = s.nextId := rfl

/-! ## updCmd -/

@[simp] theorem updCmd_now (s : State) (id : Nat) (f : Cmd → Cmd) : (updCmd s id f).now = s.now := rfl
@[simp] theorem updCmd_fs (s : State) (id : Nat) (f : Cmd → Cmd) : (updCmd s id f).fs = s.fs := rfl
@[simp] theorem updCmd_mgmt (s : State) (id : Nat) (f : Cmd → Cmd) : (updCmd s id f).mgmt = s.mgmt := rfl
@[simp] theorem updCmd_sensors (s : State) (id : Nat) (f : Cmd → Cmd) : (updCmd s id f).sensors = s.sensors := rfl
@[simp] theorem updCmd_flash (s : State) (id : Nat) (f : Cmd → Cmd) : (updCmd s id f).flash = s.flash := rfl
@[simp] theorem updCmd_hbm (s : State) (id : Nat) (f : Cmd → Cmd) : (updCmd s id f).hbm = s.hbm := rfl
@[simp] theorem updCmd_marks (s : State) (id : Nat) (f : Cmd → Cmd) : (updCmd s id f).marks = s.marks := rfl
@[simp] theorem updCmd_gus (s : State) (id : Nat) (f : Cmd → Cmd) : (updCmd s id f).gus = s.gus := rfl
@[simp] theorem updCmd_links (s : State) (id : Nat) (f : Cmd → Cmd) : (updCmd s id f).links = s.links := rfl
@[simp] theorem updCmd_sems (s : State) (id : Nat) (f : Cmd → Cmd) : (updCmd s id f).sems = s.sems := rfl
@[simp] theorem updCmd_queues (s : State) (id : Nat) (f : Cmd → Cmd) : (updCmd s id f).queues = s.queues := rfl
@[simp] theorem updCmd_asidBase (s : State) (id : Nat) (f : Cmd → Cmd) : (updCmd s id f).asidBase = s.asidBase := rfl
@[simp] theorem updCmd_fqBase (s : State) (id : Nat) (f : Cmd → Cmd) : (updCmd s id f).fqBase = s.fqBase := rfl
@[simp] theorem updCmd_fqWritten (s : State) (id : Nat) (f : Cmd → Cmd) : (updCmd s id f).fqWritten = s.fqWritten := rfl
@[simp] theorem updCmd_fqSize (s : State) (id : Nat) (f : Cmd → Cmd) : (updCmd s id f).fqSize = s.fqSize := rfl
@[simp] theorem updCmd_fqProd (s : State) (id : Nat) (f : Cmd → Cmd) : (updCmd s id f).fqProd = s.fqProd := rfl
@[simp] theorem updCmd_fqCons (s : State) (id : Nat) (f : Cmd → Cmd) : (updCmd s id f).fqCons = s.fqCons := rfl
@[simp] theorem updCmd_xfaults (s : State) (id : Nat) (f : Cmd → Cmd) : (updCmd s id f).xfaults = s.xfaults := rfl
@[simp] theorem updCmd_nextTag (s : State) (id : Nat) (f : Cmd → Cmd) : (updCmd s id f).nextTag = s.nextTag := rfl
@[simp] theorem updCmd_inval (s : State) (id : Nat) (f : Cmd → Cmd) : (updCmd s id f).inval = s.inval := rfl
@[simp] theorem updCmd_irqs (s : State) (id : Nat) (f : Cmd → Cmd) : (updCmd s id f).irqs = s.irqs := rfl
@[simp] theorem updCmd_parts (s : State) (id : Nat) (f : Cmd → Cmd) : (updCmd s id f).parts = s.parts := rfl
@[simp] theorem updCmd_launches (s : State) (id : Nat) (f : Cmd → Cmd) : (updCmd s id f).launches = s.launches := rfl
@[simp] theorem updCmd_panels (s : State) (id : Nat) (f : Cmd → Cmd) : (updCmd s id f).panels = s.panels := rfl
@[simp] theorem updCmd_cores (s : State) (id : Nat) (f : Cmd → Cmd) : (updCmd s id f).cores = s.cores := rfl
@[simp] theorem updCmd_clusters (s : State) (id : Nat) (f : Cmd → Cmd) : (updCmd s id f).clusters = s.clusters := rfl
@[simp] theorem updCmd_iodTlb (s : State) (id : Nat) (f : Cmd → Cmd) : (updCmd s id f).iodTlb = s.iodTlb := rfl
theorem updCmd_cmds (s : State) (id : Nat) (f : Cmd → Cmd) :
    (updCmd s id f).cmds = s.cmds.map fun c => if c.id == id then f c else c := rfl
@[simp] theorem updCmd_hostMem (s : State) (id : Nat) (f : Cmd → Cmd) : (updCmd s id f).hostMem = s.hostMem := rfl
@[simp] theorem updCmd_reply (s : State) (id : Nat) (f : Cmd → Cmd) : (updCmd s id f).reply = s.reply := rfl
@[simp] theorem updCmd_agenda (s : State) (id : Nat) (f : Cmd → Cmd) : (updCmd s id f).agenda = s.agenda := rfl
@[simp] theorem updCmd_issuer (s : State) (id : Nat) (f : Cmd → Cmd) : (updCmd s id f).issuer = s.issuer := rfl
@[simp] theorem updCmd_free (s : State) (id : Nat) (f : Cmd → Cmd) : (updCmd s id f).free = s.free := rfl
@[simp] theorem updCmd_nextId (s : State) (id : Nat) (f : Cmd → Cmd) : (updCmd s id f).nextId = s.nextId := rfl

/-! ## updMgmt -/

@[simp] theorem updMgmt_now (s : State) (f : Mgmt → Mgmt) : (updMgmt s f).now = s.now := rfl
@[simp] theorem updMgmt_fs (s : State) (f : Mgmt → Mgmt) : (updMgmt s f).fs = s.fs := rfl
theorem updMgmt_mgmt (s : State) (f : Mgmt → Mgmt) : (updMgmt s f).mgmt = f s.mgmt := rfl
@[simp] theorem updMgmt_sensors (s : State) (f : Mgmt → Mgmt) : (updMgmt s f).sensors = s.sensors := rfl
@[simp] theorem updMgmt_flash (s : State) (f : Mgmt → Mgmt) : (updMgmt s f).flash = s.flash := rfl
@[simp] theorem updMgmt_hbm (s : State) (f : Mgmt → Mgmt) : (updMgmt s f).hbm = s.hbm := rfl
@[simp] theorem updMgmt_marks (s : State) (f : Mgmt → Mgmt) : (updMgmt s f).marks = s.marks := rfl
@[simp] theorem updMgmt_gus (s : State) (f : Mgmt → Mgmt) : (updMgmt s f).gus = s.gus := rfl
@[simp] theorem updMgmt_links (s : State) (f : Mgmt → Mgmt) : (updMgmt s f).links = s.links := rfl
@[simp] theorem updMgmt_sems (s : State) (f : Mgmt → Mgmt) : (updMgmt s f).sems = s.sems := rfl
@[simp] theorem updMgmt_queues (s : State) (f : Mgmt → Mgmt) : (updMgmt s f).queues = s.queues := rfl
@[simp] theorem updMgmt_asidBase (s : State) (f : Mgmt → Mgmt) : (updMgmt s f).asidBase = s.asidBase := rfl
@[simp] theorem updMgmt_fqBase (s : State) (f : Mgmt → Mgmt) : (updMgmt s f).fqBase = s.fqBase := rfl
@[simp] theorem updMgmt_fqWritten (s : State) (f : Mgmt → Mgmt) : (updMgmt s f).fqWritten = s.fqWritten := rfl
@[simp] theorem updMgmt_fqSize (s : State) (f : Mgmt → Mgmt) : (updMgmt s f).fqSize = s.fqSize := rfl
@[simp] theorem updMgmt_fqProd (s : State) (f : Mgmt → Mgmt) : (updMgmt s f).fqProd = s.fqProd := rfl
@[simp] theorem updMgmt_fqCons (s : State) (f : Mgmt → Mgmt) : (updMgmt s f).fqCons = s.fqCons := rfl
@[simp] theorem updMgmt_xfaults (s : State) (f : Mgmt → Mgmt) : (updMgmt s f).xfaults = s.xfaults := rfl
@[simp] theorem updMgmt_nextTag (s : State) (f : Mgmt → Mgmt) : (updMgmt s f).nextTag = s.nextTag := rfl
@[simp] theorem updMgmt_inval (s : State) (f : Mgmt → Mgmt) : (updMgmt s f).inval = s.inval := rfl
@[simp] theorem updMgmt_irqs (s : State) (f : Mgmt → Mgmt) : (updMgmt s f).irqs = s.irqs := rfl
@[simp] theorem updMgmt_parts (s : State) (f : Mgmt → Mgmt) : (updMgmt s f).parts = s.parts := rfl
@[simp] theorem updMgmt_launches (s : State) (f : Mgmt → Mgmt) : (updMgmt s f).launches = s.launches := rfl
@[simp] theorem updMgmt_panels (s : State) (f : Mgmt → Mgmt) : (updMgmt s f).panels = s.panels := rfl
@[simp] theorem updMgmt_cores (s : State) (f : Mgmt → Mgmt) : (updMgmt s f).cores = s.cores := rfl
@[simp] theorem updMgmt_clusters (s : State) (f : Mgmt → Mgmt) : (updMgmt s f).clusters = s.clusters := rfl
@[simp] theorem updMgmt_iodTlb (s : State) (f : Mgmt → Mgmt) : (updMgmt s f).iodTlb = s.iodTlb := rfl
@[simp] theorem updMgmt_cmds (s : State) (f : Mgmt → Mgmt) : (updMgmt s f).cmds = s.cmds := rfl
@[simp] theorem updMgmt_hostMem (s : State) (f : Mgmt → Mgmt) : (updMgmt s f).hostMem = s.hostMem := rfl
@[simp] theorem updMgmt_reply (s : State) (f : Mgmt → Mgmt) : (updMgmt s f).reply = s.reply := rfl
@[simp] theorem updMgmt_agenda (s : State) (f : Mgmt → Mgmt) : (updMgmt s f).agenda = s.agenda := rfl
@[simp] theorem updMgmt_issuer (s : State) (f : Mgmt → Mgmt) : (updMgmt s f).issuer = s.issuer := rfl
@[simp] theorem updMgmt_free (s : State) (f : Mgmt → Mgmt) : (updMgmt s f).free = s.free := rfl
@[simp] theorem updMgmt_nextId (s : State) (f : Mgmt → Mgmt) : (updMgmt s f).nextId = s.nextId := rfl

/-! ## What the updates read as -/

theorem coreAt_updCore (s : State) (c : Nat) (f : CoreSt → CoreSt) (h : c < 512) :
    coreAt (updCore s c f) c = f (coreAt s c) := vget_vset_same _ _ _ _ h

theorem coreAt_updCore_ne (s : State) {c d : Nat} (f : CoreSt → CoreSt) (h : c ≠ d) :
    coreAt (updCore s c f) d = coreAt s d := vget_vset_ne _ _ _ _ _ h

theorem queueAt_updQueue (s : State) (q : Nat) (f : Queue → Queue) (h : q < 256) :
    queueAt (updQueue s q f) q = f (queueAt s q) := vget_vset_same _ _ _ _ h

theorem queueAt_updQueue_ne (s : State) {q r : Nat} (f : Queue → Queue) (h : q ≠ r) :
    queueAt (updQueue s q f) r = queueAt s r := vget_vset_ne _ _ _ _ _ h

theorem partAt_updPart (s : State) (p : Nat) (f : Part → Part) (h : p < 8) :
    partAt (updPart s p f) p = f (partAt s p) := vget_vset_same _ _ _ _ h

theorem partAt_updPart_ne (s : State) {p q : Nat} (f : Part → Part) (h : p ≠ q) :
    partAt (updPart s p f) q = partAt s q := vget_vset_ne _ _ _ _ _ h

theorem spOf_updSp (s : State) (pid : Nat) (f : Memory → Memory) (p : Panel) (h : getPanel s pid = some p) :
    spOf (updSp s pid f) pid = f p.sp := by
  simp [spOf, updSp, getPanel_updPanel_same, h]

/-! ## Registers of the issuing gang -/

/-- No active lane: a vector write changes nothing (16 R256). -/
theorem setV_none {x : Ctx} (h : x.act = 0) (r : Reg) (f : Nat → Word) (s : State) : x.setV r f s = s := by
  simp [Ctx.setV, h]

/-- A write of s0 has no effect (16 R256). -/
@[simp] theorem setS_zero (x : Ctx) (f : Nat → DWord) (s : State) : x.setS 0 f s = s := by simp [Ctx.setS]

/-- What a vector write leaves in the register file. -/
theorem setV_gang {x : Ctx} (h : x.act ≠ 0) {s : State} {g : Gang} (hg : getGang s x.pid x.gi = some g) (r : Reg)
    (f : Nat → Word) : getGang (x.setV r f s) x.pid x.gi = some { g with
      v := vset g.v r.toNat { vget g.v r.toNat vreg0 with
        lanes := Vector.ofFn fun l : Fin 32 => if x.on l.val then f l.val else vget (vget g.v r.toNat vreg0).lanes l.val 0
        st := .full, by_ := none, marked := false } } := by
  unfold Ctx.setV
  rw [if_neg h, getGang_updGang, hg]
  rfl

/-- What a scalar write leaves in the register file. -/
theorem setS_gang {x : Ctx} {n : Reg} (h : n ≠ 0) {s : State} {g : Gang} (hg : getGang s x.pid x.gi = some g)
    (f : Nat → DWord) : getGang (x.setS n f s) x.pid x.gi = some { g with
      s := vset g.s n.toNat (Vector.ofFn fun i : Fin 8 =>
        if x.e.slices.getLsbD i.val then f i.val else vget (vget g.s n.toNat copies0) i.val 0) } := by
  unfold Ctx.setS
  rw [if_neg h, getGang_updGang, hg]
  rfl

@[simp] theorem setV_now (x : Ctx) (r : Reg) (f : Nat → Word) (s : State) : (x.setV r f s).now = s.now := by
  unfold Ctx.setV; split <;> rfl
@[simp] theorem setV_fs (x : Ctx) (r : Reg) (f : Nat → Word) (s : State) : (x.setV r f s).fs = s.fs := by
  unfold Ctx.setV; split <;> rfl
@[simp] theorem setV_mgmt (x : Ctx) (r : Reg) (f : Nat → Word) (s : State) : (x.setV r f s).mgmt = s.mgmt := by
  unfold Ctx.setV; split <;> rfl
@[simp] theorem setV_sensors (x : Ctx) (r : Reg) (f : Nat → Word) (s : State) : (x.setV r f s).sensors = s.sensors := by
  unfold Ctx.setV; split <;> rfl
@[simp] theorem setV_flash (x : Ctx) (r : Reg) (f : Nat → Word) (s : State) : (x.setV r f s).flash = s.flash := by
  unfold Ctx.setV; split <;> rfl
@[simp] theorem setV_hbm (x : Ctx) (r : Reg) (f : Nat → Word) (s : State) : (x.setV r f s).hbm = s.hbm := by
  unfold Ctx.setV; split <;> rfl
@[simp] theorem setV_marks (x : Ctx) (r : Reg) (f : Nat → Word) (s : State) : (x.setV r f s).marks = s.marks := by
  unfold Ctx.setV; split <;> rfl
@[simp] theorem setV_gus (x : Ctx) (r : Reg) (f : Nat → Word) (s : State) : (x.setV r f s).gus = s.gus := by
  unfold Ctx.setV; split <;> rfl
@[simp] theorem setV_links (x : Ctx) (r : Reg) (f : Nat → Word) (s : State) : (x.setV r f s).links = s.links := by
  unfold Ctx.setV; split <;> rfl
@[simp] theorem setV_sems (x : Ctx) (r : Reg) (f : Nat → Word) (s : State) : (x.setV r f s).sems = s.sems := by
  unfold Ctx.setV; split <;> rfl
@[simp] theorem setV_queues (x : Ctx) (r : Reg) (f : Nat → Word) (s : State) : (x.setV r f s).queues = s.queues := by
  unfold Ctx.setV; split <;> rfl
@[simp] theorem setV_asidBase (x : Ctx) (r : Reg) (f : Nat → Word) (s : State) : (x.setV r f s).asidBase = s.asidBase := by
  unfold Ctx.setV; split <;> rfl
@[simp] theorem setV_fqBase (x : Ctx) (r : Reg) (f : Nat → Word) (s : State) : (x.setV r f s).fqBase = s.fqBase := by
  unfold Ctx.setV; split <;> rfl
@[simp] theorem setV_fqWritten (x : Ctx) (r : Reg) (f : Nat → Word) (s : State) : (x.setV r f s).fqWritten = s.fqWritten := by
  unfold Ctx.setV; split <;> rfl
@[simp] theorem setV_fqSize (x : Ctx) (r : Reg) (f : Nat → Word) (s : State) : (x.setV r f s).fqSize = s.fqSize := by
  unfold Ctx.setV; split <;> rfl
@[simp] theorem setV_fqProd (x : Ctx) (r : Reg) (f : Nat → Word) (s : State) : (x.setV r f s).fqProd = s.fqProd := by
  unfold Ctx.setV; split <;> rfl
@[simp] theorem setV_fqCons (x : Ctx) (r : Reg) (f : Nat → Word) (s : State) : (x.setV r f s).fqCons = s.fqCons := by
  unfold Ctx.setV; split <;> rfl
@[simp] theorem setV_xfaults (x : Ctx) (r : Reg) (f : Nat → Word) (s : State) : (x.setV r f s).xfaults = s.xfaults := by
  unfold Ctx.setV; split <;> rfl
@[simp] theorem setV_nextTag (x : Ctx) (r : Reg) (f : Nat → Word) (s : State) : (x.setV r f s).nextTag = s.nextTag := by
  unfold Ctx.setV; split <;> rfl
@[simp] theorem setV_inval (x : Ctx) (r : Reg) (f : Nat → Word) (s : State) : (x.setV r f s).inval = s.inval := by
  unfold Ctx.setV; split <;> rfl
@[simp] theorem setV_irqs (x : Ctx) (r : Reg) (f : Nat → Word) (s : State) : (x.setV r f s).irqs = s.irqs := by
  unfold Ctx.setV; split <;> rfl
@[simp] theorem setV_parts (x : Ctx) (r : Reg) (f : Nat → Word) (s : State) : (x.setV r f s).parts = s.parts := by
  unfold Ctx.setV; split <;> rfl
@[simp] theorem setV_launches (x : Ctx) (r : Reg) (f : Nat → Word) (s : State) : (x.setV r f s).launches = s.launches := by
  unfold Ctx.setV; split <;> rfl
@[simp] theorem setV_cores (x : Ctx) (r : Reg) (f : Nat → Word) (s : State) : (x.setV r f s).cores = s.cores := by
  unfold Ctx.setV; split <;> rfl
@[simp] theorem setV_clusters (x : Ctx) (r : Reg) (f : Nat → Word) (s : State) : (x.setV r f s).clusters = s.clusters := by
  unfold Ctx.setV; split <;> rfl
@[simp] theorem setV_iodTlb (x : Ctx) (r : Reg) (f : Nat → Word) (s : State) : (x.setV r f s).iodTlb = s.iodTlb := by
  unfold Ctx.setV; split <;> rfl
@[simp] theorem setV_cmds (x : Ctx) (r : Reg) (f : Nat → Word) (s : State) : (x.setV r f s).cmds = s.cmds := by
  unfold Ctx.setV; split <;> rfl
@[simp] theorem setV_hostMem (x : Ctx) (r : Reg) (f : Nat → Word) (s : State) : (x.setV r f s).hostMem = s.hostMem := by
  unfold Ctx.setV; split <;> rfl
@[simp] theorem setV_reply (x : Ctx) (r : Reg) (f : Nat → Word) (s : State) : (x.setV r f s).reply = s.reply := by
  unfold Ctx.setV; split <;> rfl
@[simp] theorem setV_agenda (x : Ctx) (r : Reg) (f : Nat → Word) (s : State) : (x.setV r f s).agenda = s.agenda := by
  unfold Ctx.setV; split <;> rfl
@[simp] theorem setV_issuer (x : Ctx) (r : Reg) (f : Nat → Word) (s : State) : (x.setV r f s).issuer = s.issuer := by
  unfold Ctx.setV; split <;> rfl
@[simp] theorem setV_free (x : Ctx) (r : Reg) (f : Nat → Word) (s : State) : (x.setV r f s).free = s.free := by
  unfold Ctx.setV; split <;> rfl
@[simp] theorem setV_nextId (x : Ctx) (r : Reg) (f : Nat → Word) (s : State) : (x.setV r f s).nextId = s.nextId := by
  unfold Ctx.setV; split <;> rfl

@[simp] theorem setS_now (x : Ctx) (n : Reg) (f : Nat → DWord) (s : State) : (x.setS n f s).now = s.now := by
  unfold Ctx.setS; split <;> rfl
@[simp] theorem setS_fs (x : Ctx) (n : Reg) (f : Nat → DWord) (s : State) : (x.setS n f s).fs = s.fs := by
  unfold Ctx.setS; split <;> rfl
@[simp] theorem setS_mgmt (x : Ctx) (n : Reg) (f : Nat → DWord) (s : State) : (x.setS n f s).mgmt = s.mgmt := by
  unfold Ctx.setS; split <;> rfl
@[simp] theorem setS_sensors (x : Ctx) (n : Reg) (f : Nat → DWord) (s : State) : (x.setS n f s).sensors = s.sensors := by
  unfold Ctx.setS; split <;> rfl
@[simp] theorem setS_flash (x : Ctx) (n : Reg) (f : Nat → DWord) (s : State) : (x.setS n f s).flash = s.flash := by
  unfold Ctx.setS; split <;> rfl
@[simp] theorem setS_hbm (x : Ctx) (n : Reg) (f : Nat → DWord) (s : State) : (x.setS n f s).hbm = s.hbm := by
  unfold Ctx.setS; split <;> rfl
@[simp] theorem setS_marks (x : Ctx) (n : Reg) (f : Nat → DWord) (s : State) : (x.setS n f s).marks = s.marks := by
  unfold Ctx.setS; split <;> rfl
@[simp] theorem setS_gus (x : Ctx) (n : Reg) (f : Nat → DWord) (s : State) : (x.setS n f s).gus = s.gus := by
  unfold Ctx.setS; split <;> rfl
@[simp] theorem setS_links (x : Ctx) (n : Reg) (f : Nat → DWord) (s : State) : (x.setS n f s).links = s.links := by
  unfold Ctx.setS; split <;> rfl
@[simp] theorem setS_sems (x : Ctx) (n : Reg) (f : Nat → DWord) (s : State) : (x.setS n f s).sems = s.sems := by
  unfold Ctx.setS; split <;> rfl
@[simp] theorem setS_queues (x : Ctx) (n : Reg) (f : Nat → DWord) (s : State) : (x.setS n f s).queues = s.queues := by
  unfold Ctx.setS; split <;> rfl
@[simp] theorem setS_asidBase (x : Ctx) (n : Reg) (f : Nat → DWord) (s : State) : (x.setS n f s).asidBase = s.asidBase := by
  unfold Ctx.setS; split <;> rfl
@[simp] theorem setS_fqBase (x : Ctx) (n : Reg) (f : Nat → DWord) (s : State) : (x.setS n f s).fqBase = s.fqBase := by
  unfold Ctx.setS; split <;> rfl
@[simp] theorem setS_fqWritten (x : Ctx) (n : Reg) (f : Nat → DWord) (s : State) : (x.setS n f s).fqWritten = s.fqWritten := by
  unfold Ctx.setS; split <;> rfl
@[simp] theorem setS_fqSize (x : Ctx) (n : Reg) (f : Nat → DWord) (s : State) : (x.setS n f s).fqSize = s.fqSize := by
  unfold Ctx.setS; split <;> rfl
@[simp] theorem setS_fqProd (x : Ctx) (n : Reg) (f : Nat → DWord) (s : State) : (x.setS n f s).fqProd = s.fqProd := by
  unfold Ctx.setS; split <;> rfl
@[simp] theorem setS_fqCons (x : Ctx) (n : Reg) (f : Nat → DWord) (s : State) : (x.setS n f s).fqCons = s.fqCons := by
  unfold Ctx.setS; split <;> rfl
@[simp] theorem setS_xfaults (x : Ctx) (n : Reg) (f : Nat → DWord) (s : State) : (x.setS n f s).xfaults = s.xfaults := by
  unfold Ctx.setS; split <;> rfl
@[simp] theorem setS_nextTag (x : Ctx) (n : Reg) (f : Nat → DWord) (s : State) : (x.setS n f s).nextTag = s.nextTag := by
  unfold Ctx.setS; split <;> rfl
@[simp] theorem setS_inval (x : Ctx) (n : Reg) (f : Nat → DWord) (s : State) : (x.setS n f s).inval = s.inval := by
  unfold Ctx.setS; split <;> rfl
@[simp] theorem setS_irqs (x : Ctx) (n : Reg) (f : Nat → DWord) (s : State) : (x.setS n f s).irqs = s.irqs := by
  unfold Ctx.setS; split <;> rfl
@[simp] theorem setS_parts (x : Ctx) (n : Reg) (f : Nat → DWord) (s : State) : (x.setS n f s).parts = s.parts := by
  unfold Ctx.setS; split <;> rfl
@[simp] theorem setS_launches (x : Ctx) (n : Reg) (f : Nat → DWord) (s : State) : (x.setS n f s).launches = s.launches := by
  unfold Ctx.setS; split <;> rfl
@[simp] theorem setS_cores (x : Ctx) (n : Reg) (f : Nat → DWord) (s : State) : (x.setS n f s).cores = s.cores := by
  unfold Ctx.setS; split <;> rfl
@[simp] theorem setS_clusters (x : Ctx) (n : Reg) (f : Nat → DWord) (s : State) : (x.setS n f s).clusters = s.clusters := by
  unfold Ctx.setS; split <;> rfl
@[simp] theorem setS_iodTlb (x : Ctx) (n : Reg) (f : Nat → DWord) (s : State) : (x.setS n f s).iodTlb = s.iodTlb := by
  unfold Ctx.setS; split <;> rfl
@[simp] theorem setS_cmds (x : Ctx) (n : Reg) (f : Nat → DWord) (s : State) : (x.setS n f s).cmds = s.cmds := by
  unfold Ctx.setS; split <;> rfl
@[simp] theorem setS_hostMem (x : Ctx) (n : Reg) (f : Nat → DWord) (s : State) : (x.setS n f s).hostMem = s.hostMem := by
  unfold Ctx.setS; split <;> rfl
@[simp] theorem setS_reply (x : Ctx) (n : Reg) (f : Nat → DWord) (s : State) : (x.setS n f s).reply = s.reply := by
  unfold Ctx.setS; split <;> rfl
@[simp] theorem setS_agenda (x : Ctx) (n : Reg) (f : Nat → DWord) (s : State) : (x.setS n f s).agenda = s.agenda := by
  unfold Ctx.setS; split <;> rfl
@[simp] theorem setS_issuer (x : Ctx) (n : Reg) (f : Nat → DWord) (s : State) : (x.setS n f s).issuer = s.issuer := by
  unfold Ctx.setS; split <;> rfl
@[simp] theorem setS_free (x : Ctx) (n : Reg) (f : Nat → DWord) (s : State) : (x.setS n f s).free = s.free := by
  unfold Ctx.setS; split <;> rfl
@[simp] theorem setS_nextId (x : Ctx) (n : Reg) (f : Nat → DWord) (s : State) : (x.setS n f s).nextId = s.nextId := by
  unfold Ctx.setS; split <;> rfl

@[simp] theorem Ctx.updEntry_now (x : Ctx) (f : SplitEntry → SplitEntry) (s : State) : (x.updEntry f s).now = s.now := rfl
@[simp] theorem Ctx.updEntry_fs (x : Ctx) (f : SplitEntry → SplitEntry) (s : State) : (x.updEntry f s).fs = s.fs := rfl
@[simp] theorem Ctx.updEntry_mgmt (x : Ctx) (f : SplitEntry → SplitEntry) (s : State) : (x.updEntry f s).mgmt = s.mgmt := rfl
@[simp] theorem Ctx.updEntry_sensors (x : Ctx) (f : SplitEntry → SplitEntry) (s : State) : (x.updEntry f s).sensors = s.sensors := rfl
@[simp] theorem Ctx.updEntry_flash (x : Ctx) (f : SplitEntry → SplitEntry) (s : State) : (x.updEntry f s).flash = s.flash := rfl
@[simp] theorem Ctx.updEntry_hbm (x : Ctx) (f : SplitEntry → SplitEntry) (s : State) : (x.updEntry f s).hbm = s.hbm := rfl
@[simp] theorem Ctx.updEntry_marks (x : Ctx) (f : SplitEntry → SplitEntry) (s : State) : (x.updEntry f s).marks = s.marks := rfl
@[simp] theorem Ctx.updEntry_gus (x : Ctx) (f : SplitEntry → SplitEntry) (s : State) : (x.updEntry f s).gus = s.gus := rfl
@[simp] theorem Ctx.updEntry_links (x : Ctx) (f : SplitEntry → SplitEntry) (s : State) : (x.updEntry f s).links = s.links := rfl
@[simp] theorem Ctx.updEntry_sems (x : Ctx) (f : SplitEntry → SplitEntry) (s : State) : (x.updEntry f s).sems = s.sems := rfl
@[simp] theorem Ctx.updEntry_queues (x : Ctx) (f : SplitEntry → SplitEntry) (s : State) : (x.updEntry f s).queues = s.queues := rfl
@[simp] theorem Ctx.updEntry_asidBase (x : Ctx) (f : SplitEntry → SplitEntry) (s : State) : (x.updEntry f s).asidBase = s.asidBase := rfl
@[simp] theorem Ctx.updEntry_fqBase (x : Ctx) (f : SplitEntry → SplitEntry) (s : State) : (x.updEntry f s).fqBase = s.fqBase := rfl
@[simp] theorem Ctx.updEntry_fqWritten (x : Ctx) (f : SplitEntry → SplitEntry) (s : State) : (x.updEntry f s).fqWritten = s.fqWritten := rfl
@[simp] theorem Ctx.updEntry_fqSize (x : Ctx) (f : SplitEntry → SplitEntry) (s : State) : (x.updEntry f s).fqSize = s.fqSize := rfl
@[simp] theorem Ctx.updEntry_fqProd (x : Ctx) (f : SplitEntry → SplitEntry) (s : State) : (x.updEntry f s).fqProd = s.fqProd := rfl
@[simp] theorem Ctx.updEntry_fqCons (x : Ctx) (f : SplitEntry → SplitEntry) (s : State) : (x.updEntry f s).fqCons = s.fqCons := rfl
@[simp] theorem Ctx.updEntry_xfaults (x : Ctx) (f : SplitEntry → SplitEntry) (s : State) : (x.updEntry f s).xfaults = s.xfaults := rfl
@[simp] theorem Ctx.updEntry_nextTag (x : Ctx) (f : SplitEntry → SplitEntry) (s : State) : (x.updEntry f s).nextTag = s.nextTag := rfl
@[simp] theorem Ctx.updEntry_inval (x : Ctx) (f : SplitEntry → SplitEntry) (s : State) : (x.updEntry f s).inval = s.inval := rfl
@[simp] theorem Ctx.updEntry_irqs (x : Ctx) (f : SplitEntry → SplitEntry) (s : State) : (x.updEntry f s).irqs = s.irqs := rfl
@[simp] theorem Ctx.updEntry_parts (x : Ctx) (f : SplitEntry → SplitEntry) (s : State) : (x.updEntry f s).parts = s.parts := rfl
@[simp] theorem Ctx.updEntry_launches (x : Ctx) (f : SplitEntry → SplitEntry) (s : State) : (x.updEntry f s).launches = s.launches := rfl
@[simp] theorem Ctx.updEntry_cores (x : Ctx) (f : SplitEntry → SplitEntry) (s : State) : (x.updEntry f s).cores = s.cores := rfl
@[simp] theorem Ctx.updEntry_clusters (x : Ctx) (f : SplitEntry → SplitEntry) (s : State) : (x.updEntry f s).clusters = s.clusters := rfl
@[simp] theorem Ctx.updEntry_iodTlb (x : Ctx) (f : SplitEntry → SplitEntry) (s : State) : (x.updEntry f s).iodTlb = s.iodTlb := rfl
@[simp] theorem Ctx.updEntry_cmds (x : Ctx) (f : SplitEntry → SplitEntry) (s : State) : (x.updEntry f s).cmds = s.cmds := rfl
@[simp] theorem Ctx.updEntry_hostMem (x : Ctx) (f : SplitEntry → SplitEntry) (s : State) : (x.updEntry f s).hostMem = s.hostMem := rfl
@[simp] theorem Ctx.updEntry_reply (x : Ctx) (f : SplitEntry → SplitEntry) (s : State) : (x.updEntry f s).reply = s.reply := rfl
@[simp] theorem Ctx.updEntry_agenda (x : Ctx) (f : SplitEntry → SplitEntry) (s : State) : (x.updEntry f s).agenda = s.agenda := rfl
@[simp] theorem Ctx.updEntry_issuer (x : Ctx) (f : SplitEntry → SplitEntry) (s : State) : (x.updEntry f s).issuer = s.issuer := rfl
@[simp] theorem Ctx.updEntry_free (x : Ctx) (f : SplitEntry → SplitEntry) (s : State) : (x.updEntry f s).free = s.free := rfl
@[simp] theorem Ctx.updEntry_nextId (x : Ctx) (f : SplitEntry → SplitEntry) (s : State) : (x.updEntry f s).nextId = s.nextId := rfl

@[simp] theorem Ctx.jump_now (x : Ctx) (pc : Word) (s : State) : (x.jump pc s).now = s.now := rfl
@[simp] theorem Ctx.jump_fs (x : Ctx) (pc : Word) (s : State) : (x.jump pc s).fs = s.fs := rfl
@[simp] theorem Ctx.jump_mgmt (x : Ctx) (pc : Word) (s : State) : (x.jump pc s).mgmt = s.mgmt := rfl
@[simp] theorem Ctx.jump_sensors (x : Ctx) (pc : Word) (s : State) : (x.jump pc s).sensors = s.sensors := rfl
@[simp] theorem Ctx.jump_flash (x : Ctx) (pc : Word) (s : State) : (x.jump pc s).flash = s.flash := rfl
@[simp] theorem Ctx.jump_hbm (x : Ctx) (pc : Word) (s : State) : (x.jump pc s).hbm = s.hbm := rfl
@[simp] theorem Ctx.jump_marks (x : Ctx) (pc : Word) (s : State) : (x.jump pc s).marks = s.marks := rfl
@[simp] theorem Ctx.jump_gus (x : Ctx) (pc : Word) (s : State) : (x.jump pc s).gus = s.gus := rfl
@[simp] theorem Ctx.jump_links (x : Ctx) (pc : Word) (s : State) : (x.jump pc s).links = s.links := rfl
@[simp] theorem Ctx.jump_sems (x : Ctx) (pc : Word) (s : State) : (x.jump pc s).sems = s.sems := rfl
@[simp] theorem Ctx.jump_queues (x : Ctx) (pc : Word) (s : State) : (x.jump pc s).queues = s.queues := rfl
@[simp] theorem Ctx.jump_asidBase (x : Ctx) (pc : Word) (s : State) : (x.jump pc s).asidBase = s.asidBase := rfl
@[simp] theorem Ctx.jump_fqBase (x : Ctx) (pc : Word) (s : State) : (x.jump pc s).fqBase = s.fqBase := rfl
@[simp] theorem Ctx.jump_fqWritten (x : Ctx) (pc : Word) (s : State) : (x.jump pc s).fqWritten = s.fqWritten := rfl
@[simp] theorem Ctx.jump_fqSize (x : Ctx) (pc : Word) (s : State) : (x.jump pc s).fqSize = s.fqSize := rfl
@[simp] theorem Ctx.jump_fqProd (x : Ctx) (pc : Word) (s : State) : (x.jump pc s).fqProd = s.fqProd := rfl
@[simp] theorem Ctx.jump_fqCons (x : Ctx) (pc : Word) (s : State) : (x.jump pc s).fqCons = s.fqCons := rfl
@[simp] theorem Ctx.jump_xfaults (x : Ctx) (pc : Word) (s : State) : (x.jump pc s).xfaults = s.xfaults := rfl
@[simp] theorem Ctx.jump_nextTag (x : Ctx) (pc : Word) (s : State) : (x.jump pc s).nextTag = s.nextTag := rfl
@[simp] theorem Ctx.jump_inval (x : Ctx) (pc : Word) (s : State) : (x.jump pc s).inval = s.inval := rfl
@[simp] theorem Ctx.jump_irqs (x : Ctx) (pc : Word) (s : State) : (x.jump pc s).irqs = s.irqs := rfl
@[simp] theorem Ctx.jump_parts (x : Ctx) (pc : Word) (s : State) : (x.jump pc s).parts = s.parts := rfl
@[simp] theorem Ctx.jump_launches (x : Ctx) (pc : Word) (s : State) : (x.jump pc s).launches = s.launches := rfl
@[simp] theorem Ctx.jump_cores (x : Ctx) (pc : Word) (s : State) : (x.jump pc s).cores = s.cores := rfl
@[simp] theorem Ctx.jump_clusters (x : Ctx) (pc : Word) (s : State) : (x.jump pc s).clusters = s.clusters := rfl
@[simp] theorem Ctx.jump_iodTlb (x : Ctx) (pc : Word) (s : State) : (x.jump pc s).iodTlb = s.iodTlb := rfl
@[simp] theorem Ctx.jump_cmds (x : Ctx) (pc : Word) (s : State) : (x.jump pc s).cmds = s.cmds := rfl
@[simp] theorem Ctx.jump_hostMem (x : Ctx) (pc : Word) (s : State) : (x.jump pc s).hostMem = s.hostMem := rfl
@[simp] theorem Ctx.jump_reply (x : Ctx) (pc : Word) (s : State) : (x.jump pc s).reply = s.reply := rfl
@[simp] theorem Ctx.jump_agenda (x : Ctx) (pc : Word) (s : State) : (x.jump pc s).agenda = s.agenda := rfl
@[simp] theorem Ctx.jump_issuer (x : Ctx) (pc : Word) (s : State) : (x.jump pc s).issuer = s.issuer := rfl
@[simp] theorem Ctx.jump_free (x : Ctx) (pc : Word) (s : State) : (x.jump pc s).free = s.free := rfl
@[simp] theorem Ctx.jump_nextId (x : Ctx) (pc : Word) (s : State) : (x.jump pc s).nextId = s.nextId := rfl

@[simp] theorem Ctx.updG_now (x : Ctx) (f : Gang → Gang) (s : State) : (x.updG f s).now = s.now := rfl
@[simp] theorem Ctx.updG_fs (x : Ctx) (f : Gang → Gang) (s : State) : (x.updG f s).fs = s.fs := rfl
@[simp] theorem Ctx.updG_mgmt (x : Ctx) (f : Gang → Gang) (s : State) : (x.updG f s).mgmt = s.mgmt := rfl
@[simp] theorem Ctx.updG_sensors (x : Ctx) (f : Gang → Gang) (s : State) : (x.updG f s).sensors = s.sensors := rfl
@[simp] theorem Ctx.updG_flash (x : Ctx) (f : Gang → Gang) (s : State) : (x.updG f s).flash = s.flash := rfl
@[simp] theorem Ctx.updG_hbm (x : Ctx) (f : Gang → Gang) (s : State) : (x.updG f s).hbm = s.hbm := rfl
@[simp] theorem Ctx.updG_marks (x : Ctx) (f : Gang → Gang) (s : State) : (x.updG f s).marks = s.marks := rfl
@[simp] theorem Ctx.updG_gus (x : Ctx) (f : Gang → Gang) (s : State) : (x.updG f s).gus = s.gus := rfl
@[simp] theorem Ctx.updG_links (x : Ctx) (f : Gang → Gang) (s : State) : (x.updG f s).links = s.links := rfl
@[simp] theorem Ctx.updG_sems (x : Ctx) (f : Gang → Gang) (s : State) : (x.updG f s).sems = s.sems := rfl
@[simp] theorem Ctx.updG_queues (x : Ctx) (f : Gang → Gang) (s : State) : (x.updG f s).queues = s.queues := rfl
@[simp] theorem Ctx.updG_asidBase (x : Ctx) (f : Gang → Gang) (s : State) : (x.updG f s).asidBase = s.asidBase := rfl
@[simp] theorem Ctx.updG_fqBase (x : Ctx) (f : Gang → Gang) (s : State) : (x.updG f s).fqBase = s.fqBase := rfl
@[simp] theorem Ctx.updG_fqWritten (x : Ctx) (f : Gang → Gang) (s : State) : (x.updG f s).fqWritten = s.fqWritten := rfl
@[simp] theorem Ctx.updG_fqSize (x : Ctx) (f : Gang → Gang) (s : State) : (x.updG f s).fqSize = s.fqSize := rfl
@[simp] theorem Ctx.updG_fqProd (x : Ctx) (f : Gang → Gang) (s : State) : (x.updG f s).fqProd = s.fqProd := rfl
@[simp] theorem Ctx.updG_fqCons (x : Ctx) (f : Gang → Gang) (s : State) : (x.updG f s).fqCons = s.fqCons := rfl
@[simp] theorem Ctx.updG_xfaults (x : Ctx) (f : Gang → Gang) (s : State) : (x.updG f s).xfaults = s.xfaults := rfl
@[simp] theorem Ctx.updG_nextTag (x : Ctx) (f : Gang → Gang) (s : State) : (x.updG f s).nextTag = s.nextTag := rfl
@[simp] theorem Ctx.updG_inval (x : Ctx) (f : Gang → Gang) (s : State) : (x.updG f s).inval = s.inval := rfl
@[simp] theorem Ctx.updG_irqs (x : Ctx) (f : Gang → Gang) (s : State) : (x.updG f s).irqs = s.irqs := rfl
@[simp] theorem Ctx.updG_parts (x : Ctx) (f : Gang → Gang) (s : State) : (x.updG f s).parts = s.parts := rfl
@[simp] theorem Ctx.updG_launches (x : Ctx) (f : Gang → Gang) (s : State) : (x.updG f s).launches = s.launches := rfl
@[simp] theorem Ctx.updG_cores (x : Ctx) (f : Gang → Gang) (s : State) : (x.updG f s).cores = s.cores := rfl
@[simp] theorem Ctx.updG_clusters (x : Ctx) (f : Gang → Gang) (s : State) : (x.updG f s).clusters = s.clusters := rfl
@[simp] theorem Ctx.updG_iodTlb (x : Ctx) (f : Gang → Gang) (s : State) : (x.updG f s).iodTlb = s.iodTlb := rfl
@[simp] theorem Ctx.updG_cmds (x : Ctx) (f : Gang → Gang) (s : State) : (x.updG f s).cmds = s.cmds := rfl
@[simp] theorem Ctx.updG_hostMem (x : Ctx) (f : Gang → Gang) (s : State) : (x.updG f s).hostMem = s.hostMem := rfl
@[simp] theorem Ctx.updG_reply (x : Ctx) (f : Gang → Gang) (s : State) : (x.updG f s).reply = s.reply := rfl
@[simp] theorem Ctx.updG_agenda (x : Ctx) (f : Gang → Gang) (s : State) : (x.updG f s).agenda = s.agenda := rfl
@[simp] theorem Ctx.updG_issuer (x : Ctx) (f : Gang → Gang) (s : State) : (x.updG f s).issuer = s.issuer := rfl
@[simp] theorem Ctx.updG_free (x : Ctx) (f : Gang → Gang) (s : State) : (x.updG f s).free = s.free := rfl
@[simp] theorem Ctx.updG_nextId (x : Ctx) (f : Gang → Gang) (s : State) : (x.updG f s).nextId = s.nextId := rfl

@[simp] theorem Ctx.updP_now (x : Ctx) (f : Panel → Panel) (s : State) : (x.updP f s).now = s.now := rfl
@[simp] theorem Ctx.updP_fs (x : Ctx) (f : Panel → Panel) (s : State) : (x.updP f s).fs = s.fs := rfl
@[simp] theorem Ctx.updP_mgmt (x : Ctx) (f : Panel → Panel) (s : State) : (x.updP f s).mgmt = s.mgmt := rfl
@[simp] theorem Ctx.updP_sensors (x : Ctx) (f : Panel → Panel) (s : State) : (x.updP f s).sensors = s.sensors := rfl
@[simp] theorem Ctx.updP_flash (x : Ctx) (f : Panel → Panel) (s : State) : (x.updP f s).flash = s.flash := rfl
@[simp] theorem Ctx.updP_hbm (x : Ctx) (f : Panel → Panel) (s : State) : (x.updP f s).hbm = s.hbm := rfl
@[simp] theorem Ctx.updP_marks (x : Ctx) (f : Panel → Panel) (s : State) : (x.updP f s).marks = s.marks := rfl
@[simp] theorem Ctx.updP_gus (x : Ctx) (f : Panel → Panel) (s : State) : (x.updP f s).gus = s.gus := rfl
@[simp] theorem Ctx.updP_links (x : Ctx) (f : Panel → Panel) (s : State) : (x.updP f s).links = s.links := rfl
@[simp] theorem Ctx.updP_sems (x : Ctx) (f : Panel → Panel) (s : State) : (x.updP f s).sems = s.sems := rfl
@[simp] theorem Ctx.updP_queues (x : Ctx) (f : Panel → Panel) (s : State) : (x.updP f s).queues = s.queues := rfl
@[simp] theorem Ctx.updP_asidBase (x : Ctx) (f : Panel → Panel) (s : State) : (x.updP f s).asidBase = s.asidBase := rfl
@[simp] theorem Ctx.updP_fqBase (x : Ctx) (f : Panel → Panel) (s : State) : (x.updP f s).fqBase = s.fqBase := rfl
@[simp] theorem Ctx.updP_fqWritten (x : Ctx) (f : Panel → Panel) (s : State) : (x.updP f s).fqWritten = s.fqWritten := rfl
@[simp] theorem Ctx.updP_fqSize (x : Ctx) (f : Panel → Panel) (s : State) : (x.updP f s).fqSize = s.fqSize := rfl
@[simp] theorem Ctx.updP_fqProd (x : Ctx) (f : Panel → Panel) (s : State) : (x.updP f s).fqProd = s.fqProd := rfl
@[simp] theorem Ctx.updP_fqCons (x : Ctx) (f : Panel → Panel) (s : State) : (x.updP f s).fqCons = s.fqCons := rfl
@[simp] theorem Ctx.updP_xfaults (x : Ctx) (f : Panel → Panel) (s : State) : (x.updP f s).xfaults = s.xfaults := rfl
@[simp] theorem Ctx.updP_nextTag (x : Ctx) (f : Panel → Panel) (s : State) : (x.updP f s).nextTag = s.nextTag := rfl
@[simp] theorem Ctx.updP_inval (x : Ctx) (f : Panel → Panel) (s : State) : (x.updP f s).inval = s.inval := rfl
@[simp] theorem Ctx.updP_irqs (x : Ctx) (f : Panel → Panel) (s : State) : (x.updP f s).irqs = s.irqs := rfl
@[simp] theorem Ctx.updP_parts (x : Ctx) (f : Panel → Panel) (s : State) : (x.updP f s).parts = s.parts := rfl
@[simp] theorem Ctx.updP_launches (x : Ctx) (f : Panel → Panel) (s : State) : (x.updP f s).launches = s.launches := rfl
@[simp] theorem Ctx.updP_cores (x : Ctx) (f : Panel → Panel) (s : State) : (x.updP f s).cores = s.cores := rfl
@[simp] theorem Ctx.updP_clusters (x : Ctx) (f : Panel → Panel) (s : State) : (x.updP f s).clusters = s.clusters := rfl
@[simp] theorem Ctx.updP_iodTlb (x : Ctx) (f : Panel → Panel) (s : State) : (x.updP f s).iodTlb = s.iodTlb := rfl
@[simp] theorem Ctx.updP_cmds (x : Ctx) (f : Panel → Panel) (s : State) : (x.updP f s).cmds = s.cmds := rfl
@[simp] theorem Ctx.updP_hostMem (x : Ctx) (f : Panel → Panel) (s : State) : (x.updP f s).hostMem = s.hostMem := rfl
@[simp] theorem Ctx.updP_reply (x : Ctx) (f : Panel → Panel) (s : State) : (x.updP f s).reply = s.reply := rfl
@[simp] theorem Ctx.updP_agenda (x : Ctx) (f : Panel → Panel) (s : State) : (x.updP f s).agenda = s.agenda := rfl
@[simp] theorem Ctx.updP_issuer (x : Ctx) (f : Panel → Panel) (s : State) : (x.updP f s).issuer = s.issuer := rfl
@[simp] theorem Ctx.updP_free (x : Ctx) (f : Panel → Panel) (s : State) : (x.updP f s).free = s.free := rfl
@[simp] theorem Ctx.updP_nextId (x : Ctx) (f : Panel → Panel) (s : State) : (x.updP f s).nextId = s.nextId := rfl

@[simp] theorem Ctx.delay_now (x : Ctx) (n : Nat) (s : State) : (x.delay n s).now = s.now := rfl
@[simp] theorem Ctx.delay_fs (x : Ctx) (n : Nat) (s : State) : (x.delay n s).fs = s.fs := rfl
@[simp] theorem Ctx.delay_mgmt (x : Ctx) (n : Nat) (s : State) : (x.delay n s).mgmt = s.mgmt := rfl
@[simp] theorem Ctx.delay_sensors (x : Ctx) (n : Nat) (s : State) : (x.delay n s).sensors = s.sensors := rfl
@[simp] theorem Ctx.delay_flash (x : Ctx) (n : Nat) (s : State) : (x.delay n s).flash = s.flash := rfl
@[simp] theorem Ctx.delay_hbm (x : Ctx) (n : Nat) (s : State) : (x.delay n s).hbm = s.hbm := rfl
@[simp] theorem Ctx.delay_marks (x : Ctx) (n : Nat) (s : State) : (x.delay n s).marks = s.marks := rfl
@[simp] theorem Ctx.delay_gus (x : Ctx) (n : Nat) (s : State) : (x.delay n s).gus = s.gus := rfl
@[simp] theorem Ctx.delay_links (x : Ctx) (n : Nat) (s : State) : (x.delay n s).links = s.links := rfl
@[simp] theorem Ctx.delay_sems (x : Ctx) (n : Nat) (s : State) : (x.delay n s).sems = s.sems := rfl
@[simp] theorem Ctx.delay_queues (x : Ctx) (n : Nat) (s : State) : (x.delay n s).queues = s.queues := rfl
@[simp] theorem Ctx.delay_asidBase (x : Ctx) (n : Nat) (s : State) : (x.delay n s).asidBase = s.asidBase := rfl
@[simp] theorem Ctx.delay_fqBase (x : Ctx) (n : Nat) (s : State) : (x.delay n s).fqBase = s.fqBase := rfl
@[simp] theorem Ctx.delay_fqWritten (x : Ctx) (n : Nat) (s : State) : (x.delay n s).fqWritten = s.fqWritten := rfl
@[simp] theorem Ctx.delay_fqSize (x : Ctx) (n : Nat) (s : State) : (x.delay n s).fqSize = s.fqSize := rfl
@[simp] theorem Ctx.delay_fqProd (x : Ctx) (n : Nat) (s : State) : (x.delay n s).fqProd = s.fqProd := rfl
@[simp] theorem Ctx.delay_fqCons (x : Ctx) (n : Nat) (s : State) : (x.delay n s).fqCons = s.fqCons := rfl
@[simp] theorem Ctx.delay_xfaults (x : Ctx) (n : Nat) (s : State) : (x.delay n s).xfaults = s.xfaults := rfl
@[simp] theorem Ctx.delay_nextTag (x : Ctx) (n : Nat) (s : State) : (x.delay n s).nextTag = s.nextTag := rfl
@[simp] theorem Ctx.delay_inval (x : Ctx) (n : Nat) (s : State) : (x.delay n s).inval = s.inval := rfl
@[simp] theorem Ctx.delay_irqs (x : Ctx) (n : Nat) (s : State) : (x.delay n s).irqs = s.irqs := rfl
@[simp] theorem Ctx.delay_parts (x : Ctx) (n : Nat) (s : State) : (x.delay n s).parts = s.parts := rfl
@[simp] theorem Ctx.delay_launches (x : Ctx) (n : Nat) (s : State) : (x.delay n s).launches = s.launches := rfl
@[simp] theorem Ctx.delay_cores (x : Ctx) (n : Nat) (s : State) : (x.delay n s).cores = s.cores := rfl
@[simp] theorem Ctx.delay_clusters (x : Ctx) (n : Nat) (s : State) : (x.delay n s).clusters = s.clusters := rfl
@[simp] theorem Ctx.delay_iodTlb (x : Ctx) (n : Nat) (s : State) : (x.delay n s).iodTlb = s.iodTlb := rfl
@[simp] theorem Ctx.delay_cmds (x : Ctx) (n : Nat) (s : State) : (x.delay n s).cmds = s.cmds := rfl
@[simp] theorem Ctx.delay_hostMem (x : Ctx) (n : Nat) (s : State) : (x.delay n s).hostMem = s.hostMem := rfl
@[simp] theorem Ctx.delay_reply (x : Ctx) (n : Nat) (s : State) : (x.delay n s).reply = s.reply := rfl
@[simp] theorem Ctx.delay_agenda (x : Ctx) (n : Nat) (s : State) : (x.delay n s).agenda = s.agenda := rfl
@[simp] theorem Ctx.delay_issuer (x : Ctx) (n : Nat) (s : State) : (x.delay n s).issuer = s.issuer := rfl
@[simp] theorem Ctx.delay_free (x : Ctx) (n : Nat) (s : State) : (x.delay n s).free = s.free := rfl
@[simp] theorem Ctx.delay_nextId (x : Ctx) (n : Nat) (s : State) : (x.delay n s).nextId = s.nextId := rfl

end Sys2Proof.Machine
end

