-- ==== Sys2Proof/Laws/Checks.lean ====
section
/-! SUPPORT. The checks that bodies share, each with what it answers when it passes, and what taking a trap does. -/

namespace Sys2Proof.Machine

open Sys2Proof

/-! ## Lists of checks -/

theorem forM_ok {α : Type} {f : α → Except Stop Unit} : ∀ {xs : List α}, (∀ a ∈ xs, f a = .ok ()) → xs.forM f = .ok ()
  | [], _ => rfl
  | a :: as, h => by
    have h1 := h a (by simp)
    have h2 := forM_ok (xs := as) fun b hb => h b (by simp [hb])
    show (f a >>= fun _ => as.forM f) = _
    rw [h1]
    exact h2

/-- The first check of a list that fails decides. -/
theorem forM_error {α : Type} {f : α → Except Stop Unit} {e : Stop} (pre : List α) (a : α) (post : List α)
    (hp : ∀ b ∈ pre, f b = .ok ()) (ha : f a = .error e) : (pre ++ a :: post).forM f = .error e := by
  induction pre with
  | nil =>
    show (f a >>= fun _ => post.forM f) = _
    rw [ha]
    rfl
  | cons b bs ih =>
    show (f b >>= fun _ => (bs ++ a :: post).forM f) = _
    rw [hp b (by simp)]
    exact ih fun c hc => hp c (by simp [hc])

/-! ## Addresses (08 R142, 13 Table 13-1) -/

theorem alignCheck_ok {a w : Nat} (h : a % w = 0) : alignCheck (a : Int) w = .ok () := by
  unfold alignCheck check
  rw [if_pos]
  simp only [beq_iff_eq]
  norm_cast

theorem alignCheck_bad {a w : Nat} (h : a % w ≠ 0) :
    alignCheck (a : Int) w = .error (.trap (mkTrap cAlign (BitVec.ofNat 64 a))) := by
  unfold alignCheck check
  rw [if_neg]
  · rfl
  · simp only [beq_iff_eq]
    norm_cast

theorem rangeCheck_ok {x : Ctx} {a w : Nat} (h : a + w ≤ x.p.hdr.size) : x.rangeCheck (a : Int) w = .ok () := by
  unfold Ctx.rangeCheck check
  rw [if_pos]
  simp only [decide_eq_true_eq]
  omega

theorem rangeCheck_bad {x : Ctx} {a w : Nat} (h : x.p.hdr.size < a + w) :
    x.rangeCheck (a : Int) w = .error (.trap (mkTrap cSpRange (BitVec.ofNat 64 a))) := by
  unfold Ctx.rangeCheck check
  rw [if_neg]
  · rfl
  · simp only [decide_eq_true_eq]
    omega

/-- A list of aligned addresses inside the scratchpad passes. -/
theorem checkAddrs_ok {x : Ctx} {as : List Int} {w : Nat} (h1 : ∀ a ∈ as, alignCheck a w = .ok ())
    (h2 : ∀ a ∈ as, x.rangeCheck a w = .ok ()) : x.checkAddrs as w = .ok () := by
  simp only [Ctx.checkAddrs, forM_ok h1, forM_ok h2, Bind.bind, Except.bind]

theorem checkRanges_ok {x : Ctx} {as : List (Nat × Nat)} (h : x.rangesFit as) :
    (as.forM fun a => alignCheck a.1 a.2) = .ok () ∧ (as.forM fun a => x.rangeCheck a.1 a.2) = .ok () :=
  ⟨forM_ok fun a ha => alignCheck_ok (h a ha).1, forM_ok fun a ha => rangeCheck_ok (h a ha).2⟩

/-- A row form whose rows lie in scratchpad passes (21 R338). -/
theorem rowCheck_ok {x : Ctx} {t : Ty} {a : Reg} {n : Nat} (h : x.rowsIn t a n) :
    x.rowCheck t a n = .ok ((x.sLow (a + 1)).toNat % 2 ^ 20) := by
  obtain ⟨h1, h2, h3⟩ := h
  have e1 : x.typeCheck t = .ok () := by
    unfold Ctx.typeCheck
    split
    · next n hn => simp [Ctx.alphaCheck, check, h1 n hn]
    · rfl
  have e2 : (x.lanes.forM fun l =>
      x.rangeCheck (((x.sLow (a + 1)).toNat % 2 ^ 20 + 64 * n * l : Nat) : Int) (64 * n)) = .ok () :=
    forM_ok fun l hl => rangeCheck_ok (h3 l hl)
  simp only [Ctx.rowCheck, e1, alignCheck_ok h2, e2, Bind.bind, Except.bind]

/-! ## The hold area, smock slots and sleeves -/

/-- With room in the hold area the entries are taken (13 R227). -/
theorem hold_ok {i : Instr} {s : State} {x : Ctx} (hx : ctxOf i s = some x) {c : Cls} {n : Nat} (h : x.holdFits n) :
    x.hold c n (x.begin s) = .ok (x.holding c n (x.begin s)) := by
  unfold Ctx.hold Ctx.holding
  split
  · next hc =>
    obtain ⟨f, hf⟩ := begin_panel hx
    have hn : n ≤ x.p.holdFree := by
      rcases h with h | h
      · simp [h] at hc
      · exact h
    have e : ((getPanel (x.begin s) x.pid).map (·.holdFree)).getD 0 = x.p.holdFree := by rw [hf]; rfl
    rw [if_pos (by rw [e]; exact hn)]
  · rfl

theorem binding_ok {x : Ctx} {slot : BitVec 4} {l0 n : Nat} {k : SmockCfg} (h : x.bound slot l0 n k) :
    x.binding slot l0 n = .ok k := by
  obtain ⟨h1, h2, h3⟩ := h
  simp [Ctx.binding, h1, h2, h3]

theorem sleeveReady_ok {x : Ctx} {n : BitVec 4} (h : x.sleeveOn n) : x.sleeveReady n = .ok () := by
  simp [Ctx.sleeveReady, sleeveCheck, check, h.1, h.2]

/-! ## Failures of sealed batches (09 R166, 13 Table 13-3) -/

theorem inMask_one (cls c : Cls) : inMask (maskOfCls cls) c = decide (c = cls) := by
  cases c <;> cases cls <;> decide

/-- Among the batches of one class the failed one of that class is found, and none of another. -/
theorem failedAmong_one {m : BitVec 5} {c : Cls} (hm : ∀ c', inMask m c' = decide (c' = c)) (g : Gang) (c' : Cls) :
    failedAmong (fun b => inMask m b.cls) g c' = if c' = c then failedOf g c else none := by
  unfold failedOf failedAmong
  split
  · next h =>
    subst h
    congr 1
    funext b
    by_cases hb : b.cls = c' <;> simp [hm, hb]
  · next h =>
    rw [List.find?_eq_none]
    intro b _
    by_cases hb : b.cls = c <;> simp [hm, hb, Ne.symm h]

/-- A failure of the one class that is asked for traps, and its class is consumed. -/
theorem raiseFailures_one {i : Instr} {s : State} {x : Ctx} (h : ctxOf i s = some x) {m : BitVec 5} {f : Fail} {c : Cls}
    (hm : ∀ c', inMask m c' = decide (c' = c)) (hf : (failedOf x.g c).bind (·.fail) = some f) :
    x.raiseFailures m (x.begin s) = .error (.trapIn (x.updG (fun g => consume g c) (x.begin s)) (failTrap c f)) := by
  obtain ⟨q, hq⟩ := begin_gang h
  have e : failedOf { x.g with split := modifyAt q x.g.split x.ei } c = failedOf x.g c := rfl
  have hfind : (allClasses.findSome? fun c' =>
      (failedAmong (fun b => inMask m b.cls) { x.g with split := modifyAt q x.g.split x.ei } c').bind fun b =>
        b.fail.map fun e => (c', e)) = some (c, f) := by
    obtain ⟨b, hb, hbf⟩ := Option.bind_eq_some_iff.mp hf
    simp only [failedAmong_one hm, e, hb, allClasses]
    cases c <;> simp [List.findSome?, hbf]
  have hc : (consumeAmong fun b => inMask m b.cls) = fun g => consume g c := by
    funext g
    have : (fun b : Batch => inMask m b.cls) = fun b => b.cls == c := by
      funext b
      by_cases hb : b.cls = c <;> simp [hm, hb]
    rw [this, consume]
  unfold Ctx.raiseFailures Ctx.raiseAmong
  rw [hq]
  simp only [hfind, hc]

/-- With no failure of the one class that is asked for, nothing traps. -/
theorem raiseFailures_none {i : Instr} {s : State} {x : Ctx} (h : ctxOf i s = some x) {m : BitVec 5} {c : Cls}
    (hm : ∀ c', inMask m c' = decide (c' = c)) (hf : failedOf x.g c = none) :
    x.raiseFailures m (x.begin s) = .ok () := by
  obtain ⟨q, hq⟩ := begin_gang h
  have e : failedOf { x.g with split := modifyAt q x.g.split x.ei } c = failedOf x.g c := rfl
  have hfind : (allClasses.findSome? fun c' =>
      (failedAmong (fun b => inMask m b.cls) { x.g with split := modifyAt q x.g.split x.ei } c').bind fun b =>
        b.fail.map fun e => (c', e)) = none := by
    simp only [failedAmong_one hm, e, hf, allClasses]
    cases c <;> simp [List.findSome?]
  unfold Ctx.raiseFailures Ctx.raiseAmong
  rw [hq]
  simp only [hfind]

/-! ## Taking a trap (13 R217 to R220, R225) -/

/-- Everything that taking a trap can do: nothing, where the fragment is not there; kill the panel; begin the unwinding of
a region; or enter the handler. -/
theorem takeTrap_cases (s : State) (pid gi ei : Nat) (t : Trap) (unw : Bool) :
    (∀ g, getGang s pid gi = some g → g.split[ei]? = none) ∧ takeTrap s pid gi ei t unw = s ∨
    ∃ p g e, getPanel s pid = some p ∧ getGang s pid gi = some g ∧ g.split[ei]? = some e ∧
      ((g.handler = true ∨ p.hdr.handler = 0 ∧ (unw && !g.regions.isEmpty) = false) ∧
          takeTrap s pid gi ei t unw = killPanel s pid t.cause t.status e.pc.toNat ∨
       g.handler = false ∧ (unw && !g.regions.isEmpty) = true ∧
          takeTrap s pid gi ei t unw = beginUnwind s pid gi e.pc t ∨
       g.handler = false ∧ (unw && !g.regions.isEmpty) = false ∧ p.hdr.handler ≠ 0 ∧
          takeTrap s pid gi ei t unw = updGang s pid gi (enterHandler p.hdr p.clk ei e t)) := by
  unfold takeTrap
  cases hp : getPanel s pid with
  | none => left; simp [getGang, hp]
  | some p =>
    cases hg : getGang s pid gi with
    | none => left; simp
    | some g =>
      cases he : g.split[ei]? with
      | none =>
        left
        refine ⟨?_, by simp [he]⟩
        rintro _ ⟨⟩
        exact he
      | some e =>
        right
        refine ⟨p, g, e, rfl, rfl, he, ?_⟩
        simp only [he]
        cases h1 : g.handler <;> cases h2 : (unw && !g.regions.isEmpty) <;>
          by_cases h3 : p.hdr.handler = 0#32 <;> simp [h3]

/-- Entering the handler writes the saved registers and the handler flag, and moves the fragment; the register files and
the mask stay (13 R219, R220). -/
theorem enterHandler_saves (h : Hdr) (clk ei : Nat) (e : SplitEntry) (t : Trap) (g : Gang) :
    (enterHandler h clk ei e t g).tcause = tcauseOf t false g.regions.length ∧
    (enterHandler h clk ei e t g).tpc = e.pc.setWidth 64 ∧ (enterHandler h clk ei e t g).tinfo = t.info ∧
    (enterHandler h clk ei e t g).handler = true ∧ (enterHandler h clk ei e t g).hslices = e.slices := ⟨rfl, rfl, rfl, rfl, rfl⟩

@[simp] theorem enterHandler_s (h : Hdr) (clk ei : Nat) (e : SplitEntry) (t : Trap) (g : Gang) :
    (enterHandler h clk ei e t g).s = g.s := rfl
@[simp] theorem enterHandler_v (h : Hdr) (clk ei : Nat) (e : SplitEntry) (t : Trap) (g : Gang) :
    (enterHandler h clk ei e t g).v = g.v := rfl
@[simp] theorem enterHandler_em (h : Hdr) (clk ei : Nat) (e : SplitEntry) (t : Trap) (g : Gang) :
    (enterHandler h clk ei e t g).em = g.em := rfl

/-! ## Sealed batches -/

/-- No batch of the classes is outstanding. -/
def calmFor (P : Cls → Bool) (bs : List Batch) : Prop := ∀ b ∈ bs, P b.cls = true → b.complete = true

/-- Settling adds no batch of a class that has none outstanding. -/
theorem settle_mem {P : Cls → Bool} : ∀ (bs before : List Batch), calmFor P bs → calmFor P before →
    ∀ b ∈ settleSeals before bs, P b.cls = true → b ∈ bs
  | [], _, _, _, b, hb, _ => by simp [settleSeals] at hb
  | a :: as, before, h, hbf, b, hb, hP => by
    have h' : calmFor P as := fun c hc => h c (by simp [hc])
    unfold settleSeals at hb
    split at hb
    · rcases List.mem_cons.mp hb with rfl | hb
      · simp
      · simp [settle_mem as before h' hbf b hb hP]
    · next hc =>
      have ha : P a.cls = false := by
        cases e : P a.cls
        · rfl
        · exact absurd (h a (by simp) e) hc
      split at hb
      · split at hb
        · rcases List.mem_cons.mp hb with rfl | hb
          · simp [ha] at hP
          · simp [settle_mem as before h' hbf b hb hP]
        · simp [settle_mem as before h' hbf b hb hP]
      · have hbf' : calmFor P (a :: before) := by
          intro c hc' hPc
          rcases List.mem_cons.mp hc' with rfl | hc'
          · simp [ha] at hPc
          · exact hbf c hc' hPc
        rcases List.mem_cons.mp hb with rfl | hb
        · simp
        · simp [settle_mem as (a :: before) h' hbf' b hb hP]

end Sys2Proof.Machine
end

