-- ==== Sys2Proof/Laws/Completion.lean ====
section
/-! SUPPORT. From what a body answers to what the instruction does: one lemma for each form of statement. -/

namespace Sys2Proof.Machine

open Sys2Proof

/-- An instruction whose body always answers a state completes with it. -/
theorem completesWith_of {i : Instr} {s : State} {f : Ctx → State → State} {body : Ctx → State → Body}
    (he : exec i s = runInstr i body s) (hb : ∀ x u, body x u = .ok (f x u)) : completesWith i s f := by
  intro x hx hr _
  obtain ⟨t, h1, h2⟩ := runInstr_completes (body := body) hx hr (hb x _)
  exact ⟨t, he.trans h1, h2⟩

/-- An instruction whose body answers a state under a premise completes with it. -/
theorem completesWhen_of {i : Instr} {s : State} {h : Ctx → Prop} {f : Ctx → State → State} {body
    : Ctx → State → Body}
    (he : exec i s = runInstr i body s) (hb : ∀ x, ctxOf i s = some x → x.ready i → h x → body x (x.begin s) = .ok
    (f x (x.begin s))) : completesWhen i s h f := by
  intro x hx hr hh
  obtain ⟨t, h1, h2⟩ := runInstr_completes (body := body) hx hr (hb x hx hr hh)
  exact ⟨t, he.trans h1, h2⟩

/-- An instruction whose body is a given computation completes with what that answers. -/
theorem completesTo_of {i : Instr} {s : State} {h : Ctx → Prop} {r : Ctx → State → Body} {body : Ctx → State → Body}
    (he : exec i s = runInstr i body s) (hb : ∀ x, ctxOf i s = some x → x.ready i → h x → body x (x.begin s) = r x
    (x.begin s)) : completesTo i s h r := by
  intro x u hx hr hh hu
  obtain ⟨t, h1, h2⟩ := runInstr_completes (body := body) hx hr ((hb x hx hr hh).trans hu)
  exact ⟨t, he.trans h1, h2⟩

/-- An instruction whose body traps takes the trap. -/
theorem trapsWhen_of {i : Instr} {s : State} {h : Ctx → Prop} {t : Ctx → Trap} {body : Ctx → State → Body}
    (he : exec i s = runInstr i body s) (hb : ∀ x, ctxOf i s = some x → x.ready i → h x → body x
    (x.begin s) = .error (.trap (t x))) : trapsWhen i s h t := by
  intro x hx hr hh
  obtain ⟨u, h1, h2⟩ := runInstr_traps (body := body) hx hr (hb x hx hr hh)
  exact ⟨u, he.trans h1, h2⟩

/-- The attempt of a ready instruction is its body. -/
theorem attempt_of {x : Ctx} {i : Instr} {body : Ctx → State → Body} {s : State} {r : Body}
    (hr : x.ready i) (hb : body x (x.begin s) = r) : x.attempt i body s = r := by
  simp [Ctx.attempt, checkIssue_ready hr, Bind.bind, Except.bind, hb]

/-- An instruction whose body traps in a changed state takes the trap there. -/
theorem trapsAfter_of {i : Instr} {s : State} {h : Ctx → Prop} {t : Ctx → Trap} {f : Ctx → State → State} {body
    : Ctx → State → Body}
    (he : exec i s = runInstr i body s) (hb : ∀ x, ctxOf i s = some x → x.ready i → h x → body x
    (x.begin s) = .error (.trapIn (f x (x.begin s)) (t x))) : trapsAfter i s h f t := by
  intro x hx hr hh
  refine ⟨x.conclude i s (.error (.trapIn (f x (x.begin s)) (t x))), ?_, ?_⟩
  · rw [he]; simp [runInstr, hx, attempt_of hr (hb x hx hr hh)]
  · simp only [Ctx.conclude, quiet_close]
    exact settle_congr x (quiet_takeSlot _ _ _ _)

/-- An instruction whose body finds its condition unmet waits. -/
theorem blocksWhen_of {i : Instr} {s : State} {h : Ctx → Prop} {b : Ctx → Block} {body : Ctx → State → Body}
    (he : exec i s = runInstr i body s) (hb : ∀ x, ctxOf i s = some x → x.ready i → h x → body x
    (x.begin s) = .error (.block (b x))) : blocksWhen i s h b := by
  intro x hx hr hh
  refine ⟨x.conclude i s (.error (.block (b x))), ?_, ?_⟩
  · rw [he]; simp [runInstr, hx, attempt_of hr (hb x hx hr hh)]
  · simp only [Ctx.conclude, quiet_close]
    exact settle_congr x (quiet_takeSlot _ _ _ _)

/-- An instruction whose body needs bytes to count its hold entries waits for a read of them. -/
theorem measuresWhen_of {i : Instr} {s : State} {h : Ctx → Prop} {va len : Nat} {body : Ctx → State → Body}
    (he : exec i s = runInstr i body s) (hb : ∀ x, ctxOf i s = some x → x.ready i → h x → body x
    (x.begin s) = .error (.measure va len)) : measuresWhen i s h va len := by
  intro x hx hr hh
  refine ⟨x.conclude i s (.error (.measure va len)), ?_, ?_⟩
  · rw [he]; simp [runInstr, hx, attempt_of hr (hb x hx hr hh)]
  · simp only [Ctx.conclude, quiet_close]
    exact settle_congr x (quiet_takeSlot _ _ _ _)

/-- An instruction that arrives and then waits. -/
theorem waitsWhen_of {i : Instr} {s : State} {h : Ctx → Prop} {b : Ctx → Block} {f : Ctx → State → State} {body
    : Ctx → State → Body}
    (he : exec i s = runInstr i body s) (hbl : ∀ x, endsByRelease (b x) = true) (hb
    : ∀ x, ctxOf i s = some x → x.ready i → h x → body x (x.begin s) = .error (.park (f x (x.begin s)) (b x)))
    : waitsWhen i s h b f := by
  intro x hx hr hh
  refine ⟨x.conclude i s (.error (.park (f x (x.begin s)) (b x))), ?_, ?_⟩
  · rw [he]; simp [runInstr, hx, attempt_of hr (hb x hx hr hh)]
  · simp only [Ctx.conclude, quiet_close, hbl, if_true]
    refine settle_congr x ?_
    simp [quiet_takeSlot]

/-- An instruction whose body leaves an effect and waits at the instruction. -/
theorem parksWhen_of {i : Instr} {s : State} {h : Ctx → Prop} {b : Ctx → Block} {f : Ctx → State → State} {body
    : Ctx → State → Body}
    (he : exec i s = runInstr i body s) (hbl : ∀ x, endsByRelease (b x) = false) (hb
    : ∀ x, ctxOf i s = some x → x.ready i → h x → body x (x.begin s) = .error (.park (f x (x.begin s)) (b x)))
    : parksWhen i s h b f := by
  intro x hx hr hh
  refine ⟨x.conclude i s (.error (.park (f x (x.begin s)) (b x))), ?_, ?_⟩
  · rw [he]; simp [runInstr, hx, attempt_of hr (hb x hx hr hh)]
  · simp only [Ctx.conclude, hbl, Bool.false_eq_true, if_false, quiet_close]
    exact settle_congr x (quiet_takeSlot _ _ _ _)

/-- A store apart from the copy ring publishes nothing. -/
theorem stored_apart {x : Ctx} {rs : List (Nat × Nat)} {u : State} (h : x.ringApart rs) : x.stored rs u = .ok u := by
  unfold Ctx.stored; dsimp only
  split
  · next hc =>
    simp at hc
    rcases h with h | h
    · simp [h] at hc
    · obtain ⟨_, a, b, hm, h1, h2⟩ := hc
      have := h _ hm
      simp at this
      omega
  · rfl

/-- Publishing in a panel that is not redundant answers a state. -/
theorem publishEntries_ok {x : Ctx} (h : x.p.hdr.redundant = false) (n i : Nat) (u : State)
    : ∃ t, x.publishEntries n i u = .ok t := by
  induction n generalizing i u with
  | zero => exact ⟨u, rfl⟩
  | succ n ih =>
    simp only [Ctx.publishEntries]
    split
    · exact ⟨u, rfl⟩
    · simp only [Ctx.publishNeed, Ctx.hold, h, Bool.false_and, Bool.false_eq_true, if_false, Bind.bind, Except.bind]
      exact ih _ _

/-- What a store answers after publishing. -/
theorem stored_published {x : Ctx} {rs : List (Nat × Nat)} {u : State} (h
    : x.p.hdr.redundant = false ∨ x.ringApart rs) :
    x.stored rs u = .ok (x.published rs u) := by
  have : ∃ t, x.stored rs u = .ok t := by
    rcases h with h | h
    · unfold Ctx.stored; dsimp only
      split
      · unfold Ctx.publish
        split
        · exact ⟨_, rfl⟩
        · split
          · exact publishEntries_ok h _ _ _
          · exact ⟨_, rfl⟩
      · exact ⟨_, rfl⟩
    · exact ⟨_, stored_apart h⟩
  obtain ⟨t, ht⟩ := this
  simp [Ctx.published, ht]

/-- An instruction that ends in a store. -/
theorem storesTo_of {i : Instr} {s : State} {h : Ctx → Prop} {rs : Ctx → List (Nat × Nat)} {f
    : Ctx → State → State} {body : Ctx → State → Body}
    (he : exec i s = runInstr i body s) (hb : ∀ x, ctxOf i s = some x → x.ready i → h x → body x
    (x.begin s) = x.stored (rs x) (f x (x.begin s))) : storesTo i s h rs f :=
  ⟨completesTo_of he hb, completesWhen_of he fun x hx hr hh => (hb x hx hr hh.1).trans (stored_published hh.2)⟩

end Sys2Proof.Machine
end

