-- ==== Sys2Proof/Laws/PerInstr.lean ====
section
/-! SUPPORT. The encoding, instruction by instruction: the fields that the encoder gives an instruction decode to it, and
fields that its length has no room for are 0 (16 R245 to R254). -/

namespace Sys2Proof.Laws

open Sys2Proof

/-- Extension words that a form does not have are 0. -/
def fieldsFit (r : Raw) : Prop := (r.l = 1 → r.x1 = 0 ∧ r.x2 = 0) ∧ (r.l = 2 → r.x2 = 0)

/-- The fields of an encoded, well-formed instruction decode to it and fit its length. -/
def Encoding.Statement (i : Instr) : Prop :=
  i.isEvent = false → fieldsFit (rawOf i) ∧ (i.WellFormed → (rawOf i).decode = .ok i)

/-! ## The issue-control fields -/

/-- Fields that hold the issue-control fields of an instruction. -/
def holdsCtl (r : Raw) (c : Ctl) : Prop :=
  r.stall = c.stall ∧ r.fe = c.fe ∧ r.y = BitVec.ofBool c.y ∧ r.g = (c.raw 0 0).g ∧ r.gn = (c.raw 0 0).gn

theorem ctl_of_holds {r : Raw} {c : Ctl} (h : holdsCtl r c) : r.ctl = .ok c := by
  obtain ⟨stall, y, fe, guard⟩ := c
  obtain ⟨h1, h2, h3, h4, h5⟩ := h
  unfold Raw.ctl
  rw [h1, h2, h3, h4, h5]
  cases guard with
  | none => cases y <;> rfl
  | some q =>
    obtain ⟨g, neg⟩ := q
    have e : ∀ g : BitVec 3, ∀ neg y : Bool,
        (BitVec.ofNat 4 (g.toNat + 1) == 0) = false ∧ ¬ 8 < (BitVec.ofNat 4 (g.toNat + 1)).toNat ∧
        BitVec.ofNat 3 ((BitVec.ofNat 4 (g.toNat + 1)).toNat - 1) = g ∧ (BitVec.ofBool neg == 1) = neg ∧
        (BitVec.ofBool y == 1) = y := by decide
    obtain ⟨e1, e2, e3, e4, e5⟩ := e g neg y
    simp only [Ctl.raw, e1, e2, e3, e4, e5, if_false, Bool.false_eq_true]

/-- An instruction whose fields name it decodes. -/
theorem decode_ok {i : Instr} {c : Ctl} (hl : ((rawOf i).l == 0) = false) (hc : holdsCtl (rawOf i) c)
    (hk : (rawOf i).candidate c = .ok i) (hw : i.WellFormed) : (rawOf i).decode = .ok i := by
  have h : illegalReason i = none := by simpa [Instr.WellFormed, legal] using hw
  simp only [Raw.decode, hl, ctl_of_holds hc, hk, h, if_true, if_false, Bool.false_eq_true]

theorem encoding_of {i : Instr} (c : Ctl) (hf : fieldsFit (rawOf i)) (hl : ((rawOf i).l == 0) = false)
    (hc : holdsCtl (rawOf i) c) (hk : (rawOf i).candidate c = .ok i) : Encoding.Statement i :=
  fun _ => ⟨hf, decode_ok hl hc hk⟩

/-- The 64-bit form. -/
theorem short_of {i : Instr} (c : Ctl) (hl : (rawOf i).l = 1) (h1 : (rawOf i).x1 = 0) (h2 : (rawOf i).x2 = 0)
    (hc : holdsCtl (rawOf i) c) (hk : (rawOf i).candidate c = .ok i) : Encoding.Statement i :=
  encoding_of c ⟨fun _ => ⟨h1, h2⟩, fun _ => h2⟩ (by rw [hl]; rfl) hc hk

/-- The 96-bit form. -/
theorem mid_of {i : Instr} (c : Ctl) (hl : (rawOf i).l = 2) (h2 : (rawOf i).x2 = 0)
    (hc : holdsCtl (rawOf i) c) (hk : (rawOf i).candidate c = .ok i) : Encoding.Statement i :=
  encoding_of c ⟨fun h => absurd (hl.symm.trans h) (by decide), fun _ => h2⟩ (by rw [hl]; rfl) hc hk

/-- The 128-bit form. -/
theorem long_of {i : Instr} (c : Ctl) (hl : (rawOf i).l = 3)
    (hc : holdsCtl (rawOf i) c) (hk : (rawOf i).candidate c = .ok i) : Encoding.Statement i :=
  encoding_of c ⟨fun h => absurd (hl.symm.trans h) (by decide), fun h => absurd (hl.symm.trans h) (by decide)⟩
    (by rw [hl]; rfl) hc hk

/-- An event has no encoding. -/
theorem event_of {i : Instr} (h : i.isEvent = true) : Encoding.Statement i := fun h' => absurd h (by simp [h'])

/-! ## Codes -/

theorem ofCode_code (t : Ty) : Ty.ofCode t.sub.toNat = some t := by
  cases t with
  | alpha n => revert n; decide
  | _ => decide

theorem ty_of {r : Raw} {t : Ty} (h : r.sub = t.sub) : r.ty = .ok t := by simp [Raw.ty, h, ofCode_code]

theorem alpha_of {r : Raw} {n : BitVec 4} (h : r.sub = (Ty.alpha n).sub) : r.alpha = .ok n := by
  simp [Raw.alpha, h, ofCode_code]

theorem code_lt (t : Ty) : t.code < 256 := by
  cases t with
  | alpha n => simp only [Ty.code]; omega
  | _ => decide

theorem sub_toNat (t : Ty) : t.sub.toNat = t.code := by
  simp only [Ty.sub, BitVec.toNat_ofNat]
  exact Nat.mod_eq_of_lt (code_lt t)

theorem code_back (t : Ty) : Ty.ofCode t.code = some t := by rw [← sub_toNat, ofCode_code]

theorem x1_cvt (st : Ty) (part : BitVec 3) (sat : Bool) (delta : BitVec 4) :
    (cvtX st part sat delta).toNat = st.code + part.toNat * 2 ^ 8 + sat.toNat * 2 ^ 11 + delta.toNat * 2 ^ 12 := by
  have := code_lt st
  have := part.isLt
  have := delta.isLt
  have : sat.toNat ≤ 1 := by cases sat <;> decide
  simp only [cvtX, BitVec.toNat_ofNat]
  omega

theorem st_cvt {r : Raw} {st : Ty} {part : BitVec 3} {sat : Bool} {delta : BitVec 4} (h : r.x1 = cvtX st part sat delta) :
    r.st = .ok st := by
  have e : r.x1.toNat % 256 = st.code := by
    rw [h, x1_cvt]
    have := code_lt st
    omega
  simp [Raw.st, e, code_back]

theorem part_cvt {r : Raw} {st : Ty} {part : BitVec 3} {sat : Bool} {delta : BitVec 4}
    (h : r.x1 = cvtX st part sat delta) : r.part = part := by
  apply BitVec.eq_of_toNat_eq
  rw [Raw.part, h, x1_cvt, BitVec.toNat_ofNat]
  have := code_lt st
  have := part.isLt
  have := delta.isLt
  have : sat.toNat ≤ 1 := by cases sat <;> decide
  omega

theorem sat_cvt {r : Raw} {st : Ty} {part : BitVec 3} {sat : Bool} {delta : BitVec 4}
    (h : r.x1 = cvtX st part sat delta) : r.x1.getLsbD 11 = sat := by
  rw [h, BitVec.getLsbD, x1_cvt, Nat.testBit_eq_decide_div_mod_eq]
  have := code_lt st
  have := part.isLt
  have := delta.isLt
  have : sat.toNat ≤ 1 := by cases sat <;> decide
  have e : (st.code + part.toNat * 2 ^ 8 + sat.toNat * 2 ^ 11 + delta.toNat * 2 ^ 12) / 2 ^ 11 % 2 = sat.toNat := by omega
  rw [e]
  cases sat <;> rfl

theorem delta_cvt {r : Raw} {st : Ty} {part : BitVec 3} {sat : Bool} {delta : BitVec 4}
    (h : r.x1 = cvtX st part sat delta) : r.delta = delta := by
  apply BitVec.eq_of_toNat_eq
  rw [Raw.delta, h, x1_cvt, BitVec.toNat_ofNat]
  have := code_lt st
  have := part.isLt
  have := delta.isLt
  have : sat.toNat ≤ 1 := by cases sat <;> decide
  omega

/-- A field at the foot of an extension word, and one above it. -/
theorem low_field {n m w : Nat} (a : BitVec n) (b : BitVec m) (h : n + m ≤ w) :
    BitVec.ofNat n (BitVec.ofNat w (a.toNat + b.toNat * 2 ^ n)).toNat = a := by
  apply BitVec.eq_of_toNat_eq
  rw [BitVec.toNat_ofNat, BitVec.toNat_ofNat, Nat.mod_mod_of_dvd _ (Nat.pow_dvd_pow 2 (by omega)),
    Nat.add_mul_mod_self_right, Nat.mod_eq_of_lt a.isLt]

theorem high_field {n m w : Nat} (a : BitVec n) (b : BitVec m) (h : n + m ≤ w) :
    BitVec.ofNat m ((BitVec.ofNat w (a.toNat + b.toNat * 2 ^ n)).toNat / 2 ^ n) = b := by
  apply BitVec.eq_of_toNat_eq
  have hlt : a.toNat + b.toNat * 2 ^ n < 2 ^ w := by
    have ha := a.isLt
    have hb := b.isLt
    have h1 : a.toNat + b.toNat * 2 ^ n < (b.toNat + 1) * 2 ^ n := by rw [Nat.add_mul, Nat.one_mul]; omega
    have h2 : (b.toNat + 1) * 2 ^ n ≤ 2 ^ m * 2 ^ n := Nat.mul_le_mul_right _ hb
    have h3 : 2 ^ m * 2 ^ n ≤ 2 ^ w := by rw [← Nat.pow_add]; exact Nat.pow_le_pow_right (by decide) (by omega)
    omega
  rw [BitVec.toNat_ofNat, BitVec.toNat_ofNat, Nat.mod_eq_of_lt hlt, Nat.add_mul_div_right _ _ (Nat.two_pow_pos n),
    Nat.div_eq_of_lt a.isLt, Nat.zero_add, Nat.mod_eq_of_lt b.isLt]

/-- A field alone in a wider word. -/
theorem only_field {n w : Nat} (a : BitVec n) (h : n ≤ w) : BitVec.ofNat n (a.setWidth w).toNat = a := by
  apply BitVec.eq_of_toNat_eq
  rw [BitVec.toNat_ofNat, BitVec.toNat_setWidth, Nat.mod_mod_of_dvd _ (Nat.pow_dvd_pow 2 h), Nat.mod_eq_of_lt a.isLt]

theorem gath_back (x : GathX) : GathX.ofWord x.word = x := by
  obtain ⟨scale, row, rl⟩ := x
  have := scale.isLt
  have := rl.isLt
  have hr : row.toNat ≤ 1 := by cases row <;> decide
  have e : (GathX.word ⟨scale, row, rl⟩).toNat = scale.toNat + row.toNat * 2 ^ 20 + rl.toNat * 2 ^ 21 := by
    simp only [GathX.word, BitVec.toNat_ofNat]
    omega
  have e1 : (scale.toNat + row.toNat * 2 ^ 20 + rl.toNat * 2 ^ 21) / 2 ^ 20 % 2 = row.toNat := by omega
  simp only [GathX.ofWord, e, GathX.mk.injEq]
  refine ⟨BitVec.eq_of_toNat_eq ?_, ?_, BitVec.eq_of_toNat_eq ?_⟩
  · rw [BitVec.toNat_ofNat]; omega
  · rw [Nat.testBit_eq_decide_div_mod_eq, e1]; cases row <;> rfl
  · rw [BitVec.toNat_ofNat]; omega

theorem smk_back (x : SmkX) : SmkX.ofWord x.word = x := by
  obtain ⟨slot, l0, n1⟩ := x
  have := slot.isLt
  have := l0.isLt
  have := n1.isLt
  have e : (SmkX.word ⟨slot, l0, n1⟩).toNat = slot.toNat + l0.toNat * 2 ^ 4 + n1.toNat * 2 ^ 9 := by
    simp only [SmkX.word, BitVec.toNat_ofNat]
    omega
  simp only [SmkX.ofWord, e, SmkX.mk.injEq]
  refine ⟨BitVec.eq_of_toNat_eq ?_, BitVec.eq_of_toNat_eq ?_, BitVec.eq_of_toNat_eq ?_⟩ <;>
    (rw [BitVec.toNat_ofNat]; omega)

theorem long_back (v : DWord) : BitVec.ofNat 64 ((BitVec.ofNat 32 v.toNat).toNat +
    (BitVec.ofNat 32 (v.toNat / 2 ^ 32)).toNat * 2 ^ 32) = v := by
  apply BitVec.eq_of_toNat_eq
  have := v.isLt
  simp only [BitVec.toNat_ofNat]
  omega

theorem slda_sub (wide : Bool) (add : BitVec 6) :
    (BitVec.ofNat 8 (wide.toNat + add.toNat * 4)).toNat = wide.toNat + add.toNat * 4 := by
  have := add.isLt
  have : wide.toNat ≤ 1 := by cases wide <;> decide
  simp only [BitVec.toNat_ofNat]
  omega

theorem slda_wide (wide : Bool) (add : BitVec 6) : (BitVec.ofNat 8 (wide.toNat + add.toNat * 4)).getLsbD 0 = wide := by
  revert add
  cases wide <;> decide

theorem slda_add (wide : Bool) (add : BitVec 6) :
    BitVec.ofNat 6 ((BitVec.ofNat 8 (wide.toNat + add.toNat * 4)).toNat / 4) = add := by
  revert add
  cases wide <;> decide

theorem gshf_width (width : BitVec 2) (delta : BitVec 4) (k : Nat) :
    BitVec.ofNat 2 ((BitVec.ofNat 32 (delta.toNat + width.toNat * 2 ^ 4 + k * 2 ^ 6)).toNat / 2 ^ 4) = width := by
  apply BitVec.eq_of_toNat_eq
  have := delta.isLt
  have := width.isLt
  simp only [BitVec.toNat_ofNat]
  omega

theorem gshf_delta (width : BitVec 2) (delta : BitVec 4) (k : Nat) :
    BitVec.ofNat 4 (BitVec.ofNat 32 (delta.toNat + width.toNat * 2 ^ 4 + k * 2 ^ 6)).toNat = delta := by
  apply BitVec.eq_of_toNat_eq
  have := delta.isLt
  have := width.isLt
  simp only [BitVec.toNat_ofNat]
  omega

theorem gshf_kind (kind : GKind) (width : BitVec 2) (delta : BitVec 4) :
    GKind.ofCode ((BitVec.ofNat 32 (delta.toNat + width.toNat * 2 ^ 4 + kind.code * 2 ^ 6)).toNat / 2 ^ 6 % 4) =
      some kind := by
  revert delta width
  cases kind <;> decide

theorem x1_dota (am : BitVec 4) (nmax : BitVec 8) :
    (BitVec.ofNat 32 ((Ty.alpha am).code + nmax.toNat * 2 ^ 8)).toNat = (Ty.alpha am).code + nmax.toNat * 2 ^ 8 := by
  have := code_lt (Ty.alpha am)
  have := nmax.isLt
  simp only [BitVec.toNat_ofNat]
  omega

theorem st_dota {r : Raw} {am : BitVec 4} {nmax : BitVec 8}
    (h : r.x1 = BitVec.ofNat 32 ((Ty.alpha am).code + nmax.toNat * 2 ^ 8)) : r.st = .ok (.alpha am) := by
  have e : r.x1.toNat % 256 = (Ty.alpha am).code := by
    rw [h, x1_dota]
    have := code_lt (Ty.alpha am)
    omega
  simp [Raw.st, e, code_back]

theorem nmax_dota (am : BitVec 4) (nmax : BitVec 8) :
    BitVec.ofNat 8 ((BitVec.ofNat 32 ((Ty.alpha am).code + nmax.toNat * 2 ^ 8)).toNat / 2 ^ 8) = nmax := by
  apply BitVec.eq_of_toNat_eq
  rw [x1_dota, BitVec.toNat_ofNat]
  have := code_lt (Ty.alpha am)
  have := nmax.isLt
  omega

theorem mma_ta (ta tb : BitVec 4) : BitVec.ofNat 4 (opSub ta.toNat tb.toNat 0).toNat = ta := by
  revert ta tb
  decide

theorem mma_tb (ta tb : BitVec 4) : BitVec.ofNat 4 ((opSub ta.toNat tb.toNat 0).toNat / 16) = tb := by
  revert ta tb
  decide

theorem hgidx_back (slot : BitVec 4) (level : BitVec 5) (corner : BitVec 8) :
    BitVec.ofNat 4 (BitVec.ofNat 32 (slot.toNat + level.toNat * 2 ^ 4 + corner.toNat * 2 ^ 9)).toNat = slot ∧
    BitVec.ofNat 5 ((BitVec.ofNat 32 (slot.toNat + level.toNat * 2 ^ 4 + corner.toNat * 2 ^ 9)).toNat / 2 ^ 4) = level ∧
    BitVec.ofNat 8 ((BitVec.ofNat 32 (slot.toNat + level.toNat * 2 ^ 4 + corner.toNat * 2 ^ 9)).toNat / 2 ^ 9) =
      corner := by
  have := slot.isLt
  have := level.isLt
  have := corner.isLt
  refine ⟨?_, ?_, ?_⟩ <;> (apply BitVec.eq_of_toNat_eq; simp only [BitVec.toNat_ofNat]; omega)

theorem mod_back (scope : BitVec 3) (ret : Bool) :
    BitVec.ofNat 3 ((atomMod scope ret).toNat / 2) = scope ∧ (atomMod scope ret).getLsbD 0 = ret := by
  revert scope ret
  decide

theorem phase_sub (scope : BitVec 3) : (BitVec.ofNat 8 (scope.toNat + 8)).toNat / 8 = 1 ∧
    (BitVec.ofNat 8 (scope.toNat + 16)).toNat / 8 = 2 ∧ (BitVec.ofNat 8 (scope.toNat + 24)).toNat / 8 = 3 ∧
    BitVec.ofNat 3 (BitVec.ofNat 8 (scope.toNat + 8)).toNat = scope ∧
    BitVec.ofNat 3 (BitVec.ofNat 8 (scope.toNat + 16)).toNat = scope ∧
    BitVec.ofNat 3 (BitVec.ofNat 8 (scope.toNat + 24)).toNat = scope := by
  revert scope
  decide

theorem m0_of {r : Raw} {b : Bool} (h : r.mod = mod0 b) : r.m0 = b := by
  rw [Raw.m0, h]
  cases b <;> rfl

theorem vcmp_sub (t : LTy) (cond : VCond) : LTy.ofCode ((opSub cond.code t.code 0).toNat / 16 % 4) = some t ∧
    VCond.ofCode ((opSub cond.code t.code 0).toNat % 16) = some cond := by
  cases t <;> cases cond <;> decide

theorem vreda_sub (t : LTy) (op : RedOp) : LTy.ofCode ((opSub op.code t.code 0).toNat / 16 % 4) = some t ∧
    RedOp.ofCode ((opSub op.code t.code 0).toNat % 8) = some op := by
  cases t <;> cases op <;> decide

theorem vscan_sub (ex : Bool) (t : LTy) (op : RedOp) :
    (opSub (op.code + 8 * ex.toNat) t.code 0).getLsbD 3 = ex ∧
    LTy.ofCode ((opSub (op.code + 8 * ex.toNat) t.code 0).toNat / 16 % 4) = some t ∧
    RedOp.ofCode ((opSub (op.code + 8 * ex.toNat) t.code 0).toNat % 8) = some op := by
  cases ex <;> cases t <;> cases op <;> decide

theorem ats_sub (t : LTy) (op : AtOp) : LTy.ofCode ((opSub op.code t.code 0).toNat / 16 % 4) = some t ∧
    AtOp.ofCode ((opSub op.code t.code 0).toNat % 16) = some op := by
  cases t <;> cases op <;> decide

theorem atom_sub (form : AtForm) (t : LTy) (op : AtOp) :
    AtForm.ofCode ((opSub op.code t.code form.code).toNat / 64) = some form ∧
    LTy.ofCode ((opSub op.code t.code form.code).toNat / 16 % 4) = some t ∧
    AtOp.ofCode ((opSub op.code t.code form.code).toNat % 16) = some op := by
  cases form <;> cases t <;> cases op <;> decide

theorem atoms_sub (form : AtForm) (t : STy) (op : AtOp) :
    AtForm.ofCode ((opSub op.code t.code form.code).toNat / 64) = some form ∧
    STy.ofCode ((opSub op.code t.code form.code).toNat / 16 % 4) = some t ∧
    AtOp.ofCode ((opSub op.code t.code form.code).toNat % 16) = some op := by
  cases form <;> cases t <;> cases op <;> decide

theorem mma_flags (keepb ck : Bool) : (BitVec.ofNat 5 (keepb.toNat + ck.toNat * 2)).getLsbD 0 = keepb ∧
    (BitVec.ofNat 5 (keepb.toNat + ck.toNat * 2)).getLsbD 1 = ck := by
  cases keepb <;> cases ck <;> decide

theorem mxsc_sub (opB : Bool) (kind : MxScale) : (BitVec.ofNat 8 (opB.toNat + kind.code * 2)).getLsbD 0 = opB ∧
    MxScale.ofCode ((BitVec.ofNat 8 (opB.toNat + kind.code * 2)).toNat / 2) = some kind := by
  cases opB <;> cases kind <;> decide

theorem cstat_sub (form : StatForm) (cls : Cls) :
    StatForm.ofCode ((BitVec.ofNat 8 (cls.code + form.code * 8)).toNat / 8 % 4) = some form ∧
    Cls.ofCode ((BitVec.ofNat 8 (cls.code + form.code * 8)).toNat % 8) = some cls := by
  cases form <;> cases cls <;> decide

/-! ## One lemma for each instruction -/

theorem Encoding.portReset (p : Port) : Encoding.Statement (.portReset p) :=
  event_of rfl

theorem Encoding.deviceResetRequest (p : Port) : Encoding.Statement (.deviceResetRequest p) :=
  event_of rfl

theorem Encoding.mgPwrCapWrite (p : Port) (v : DWord) : Encoding.Statement (.mgPwrCapWrite p v) :=
  event_of rfl

theorem Encoding.granuleRead (cmd : Nat) (k : Nat) (buffered : Bool) : Encoding.Statement (.granuleRead cmd k buffered) :=
  event_of rfl

theorem Encoding.granuleReconstruct (cmd : Nat) (k : Nat) : Encoding.Statement (.granuleReconstruct cmd k) :=
  event_of rfl

theorem Encoding.stripeWrite (cmd : Nat) (k : Nat) : Encoding.Statement (.stripeWrite cmd k) :=
  event_of rfl

theorem Encoding.subGranuleWrite (cmd : Nat) (k : Nat) : Encoding.Statement (.subGranuleWrite cmd k) :=
  event_of rfl

theorem Encoding.stackRetrainFail (stack : Nat) : Encoding.Statement (.stackRetrainFail stack) :=
  event_of rfl

theorem Encoding.gusDeclareWrite (p : Port) (v : DWord) : Encoding.Statement (.gusDeclareWrite p v) :=
  event_of rfl

theorem Encoding.gusCounterClear (c : GusCounter) : Encoding.Statement (.gusCounterClear c) :=
  event_of rfl

theorem Encoding.gusXpoolWrite (p : Port) (v : DWord) : Encoding.Statement (.gusXpoolWrite p v) :=
  event_of rfl

theorem Encoding.compressPacket (q : BitVec 8) (i : Word) : Encoding.Statement (.compressPacket q i) :=
  event_of rfl

theorem Encoding.pageExpand (cmd : Nat) (k : Nat) : Encoding.Statement (.pageExpand cmd k) :=
  event_of rfl

theorem Encoding.bar2Read (p : Port) (off : Nat) (len : Nat) : Encoding.Statement (.bar2Read p off len) :=
  event_of rfl

theorem Encoding.bar2Write (p : Port) (off : Nat) (bytes : List Byte) : Encoding.Statement (.bar2Write p off bytes) :=
  event_of rfl

theorem Encoding.registerWrite (p : Port) (off : Nat) (size : AccSize) (v : DWord) : Encoding.Statement (.registerWrite p off size v) :=
  event_of rfl

theorem Encoding.hostLinkDown (p : Port) : Encoding.Statement (.hostLinkDown p) :=
  event_of rfl

theorem Encoding.xlCfgWrite (p : Port) (v : DWord) : Encoding.Statement (.xlCfgWrite p v) :=
  event_of rfl

theorem Encoding.xlTimeoutWrite (p : Port) (v : DWord) : Encoding.Statement (.xlTimeoutWrite p v) :=
  event_of rfl

theorem Encoding.xlCounterClear (c : XlCounter) : Encoding.Statement (.xlCounterClear c) :=
  event_of rfl

theorem Encoding.ualLinkUp (n : Nat) (dev : Nat) (port : Nat) (domain : Nat) : Encoding.Statement (.ualLinkUp n dev port domain) :=
  event_of rfl

theorem Encoding.ualLinkDown (n : Nat) : Encoding.Statement (.ualLinkDown n) :=
  event_of rfl

theorem Encoding.peerRequest (r : PeerReqIn) : Encoding.Statement (.peerRequest r) :=
  event_of rfl

theorem Encoding.peerResponse (req : Nat) (r : PeerReply) : Encoding.Statement (.peerResponse req r) :=
  event_of rfl

theorem Encoding.requestTimeout (req : Nat) : Encoding.Statement (.requestTimeout req) :=
  event_of rfl

theorem Encoding.tileArrive (station : Option Nat) (t : Tile) : Encoding.Statement (.tileArrive station t) :=
  event_of rfl

theorem Encoding.pleatEntryTimeout (table : Nat) (entry : Nat) : Encoding.Statement (.pleatEntryTimeout table entry) :=
  event_of rfl

theorem Encoding.serviceGangOp (cmd : Nat) (k : Nat) : Encoding.Statement (.serviceGangOp cmd k) :=
  event_of rfl

theorem Encoding.stepAck (cmd : Nat) (step : Nat) : Encoding.Statement (.stepAck cmd step) :=
  event_of rfl

theorem Encoding.stepRetry (cmd : Nat) (step : Nat) : Encoding.Statement (.stepRetry cmd step) :=
  event_of rfl

theorem Encoding.semAcquire (p : Port) (r : SemRead) : Encoding.Statement (.semAcquire p r) :=
  event_of rfl

theorem Encoding.semRelease (p : Port) (n : BitVec 5) (v : DWord) : Encoding.Statement (.semRelease p n v) :=
  event_of rfl

theorem Encoding.hqTailWrite (q : BitVec 8) (v : DWord) : Encoding.Statement (.hqTailWrite q v) :=
  event_of rfl

theorem Encoding.hqEnable (q : BitVec 8) (v : DWord) : Encoding.Statement (.hqEnable q v) :=
  event_of rfl

theorem Encoding.hqDisable (q : BitVec 8) (v : DWord) : Encoding.Statement (.hqDisable q v) :=
  event_of rfl

theorem Encoding.hqStop (q : BitVec 8) (v : DWord) : Encoding.Statement (.hqStop q v) :=
  event_of rfl

theorem Encoding.hqRecover (q : BitVec 8) (v : DWord) : Encoding.Statement (.hqRecover q v) :=
  event_of rfl

theorem Encoding.packetFetch (q : BitVec 8) : Encoding.Statement (.packetFetch q) :=
  event_of rfl

theorem Encoding.nopPacket (q : BitVec 8) (i : Word) : Encoding.Statement (.nopPacket q i) :=
  event_of rfl

theorem Encoding.launchPacket (q : BitVec 8) (i : Word) : Encoding.Statement (.launchPacket q i) :=
  event_of rfl

theorem Encoding.copyPacket (q : BitVec 8) (i : Word) : Encoding.Statement (.copyPacket q i) :=
  event_of rfl

theorem Encoding.waitPacket (q : BitVec 8) (i : Word) : Encoding.Statement (.waitPacket q i) :=
  event_of rfl

theorem Encoding.waitPoll (q : BitVec 8) (i : Word) : Encoding.Statement (.waitPoll q i) :=
  event_of rfl

theorem Encoding.signalPacket (q : BitVec 8) (i : Word) : Encoding.Statement (.signalPacket q i) :=
  event_of rfl

theorem Encoding.fencePacket (q : BitVec 8) (i : Word) : Encoding.Statement (.fencePacket q i) :=
  event_of rfl

theorem Encoding.setprioPacket (q : BitVec 8) (i : Word) : Encoding.Statement (.setprioPacket q i) :=
  event_of rfl

theorem Encoding.tableWalk (cmd : Nat) (k : Nat) : Encoding.Statement (.tableWalk cmd k) :=
  event_of rfl

theorem Encoding.hqFqRespWrite (p : Port) (v : DWord) : Encoding.Statement (.hqFqRespWrite p v) :=
  event_of rfl

theorem Encoding.hqInvalWrite (p : Port) (v : DWord) : Encoding.Statement (.hqInvalWrite p v) :=
  event_of rfl

theorem Encoding.faultRecordWrite (r : FaultRec) : Encoding.Statement (.faultRecordWrite r) :=
  event_of rfl

theorem Encoding.mgG4ClearWrite (p : Port) (v : DWord) : Encoding.Statement (.mgG4ClearWrite p v) :=
  event_of rfl

theorem Encoding.drainSet (part : BitVec 3) : Encoding.Statement (.drainSet part) :=
  event_of rfl

theorem Encoding.drainClear (part : BitVec 3) : Encoding.Statement (.drainClear part) :=
  event_of rfl

theorem Encoding.mgPartClusWrite (part : BitVec 3) (v : DWord) : Encoding.Statement (.mgPartClusWrite part v) :=
  event_of rfl

theorem Encoding.preemptHalt (part : BitVec 3) (v : DWord) : Encoding.Statement (.preemptHalt part v) :=
  event_of rfl

theorem Encoding.preemptResume (part : BitVec 3) (v : DWord) : Encoding.Statement (.preemptResume part v) :=
  event_of rfl

theorem Encoding.attestationStart (p : Port) (v : DWord) : Encoding.Statement (.attestationStart p v) :=
  event_of rfl

theorem Encoding.dispatch (part : BitVec 3) : Encoding.Statement (.dispatch part) :=
  event_of rfl

theorem Encoding.preemptCheck (part : BitVec 3) : Encoding.Statement (.preemptCheck part) :=
  event_of rfl

theorem Encoding.drainVictimTimeout (pid : Nat) : Encoding.Statement (.drainVictimTimeout pid) :=
  event_of rfl

theorem Encoding.panelSaveLining (pid : Nat) : Encoding.Statement (.panelSaveLining pid) :=
  event_of rfl

theorem Encoding.panelSaveMem (pid : Nat) : Encoding.Statement (.panelSaveMem pid) :=
  event_of rfl

theorem Encoding.panelFlush (pid : Nat) : Encoding.Statement (.panelFlush pid) :=
  event_of rfl

theorem Encoding.panelRetire (pid : Nat) : Encoding.Statement (.panelRetire pid) :=
  event_of rfl

theorem Encoding.panelWritebackDone (pid : Nat) : Encoding.Statement (.panelWritebackDone pid) :=
  event_of rfl

theorem Encoding.activeSetSwap (core : Nat) (pos : Nat) : Encoding.Statement (.activeSetSwap core pos) :=
  event_of rfl

theorem Encoding.codeFetch (pid : Nat) (window : Nat) : Encoding.Statement (.codeFetch pid window) :=
  event_of rfl

theorem Encoding.ringConsume (pid : Nat) : Encoding.Statement (.ringConsume pid) :=
  event_of rfl

theorem Encoding.commandComplete (cmd : Nat) : Encoding.Statement (.commandComplete cmd) :=
  event_of rfl

theorem Encoding.sleepWake (pid : Nat) (gang : Nat) (entry : Nat) : Encoding.Statement (.sleepWake pid gang entry) :=
  event_of rfl

theorem Encoding.nop (c : Ctl) (len : Len) : Encoding.Statement (.nop c len) := by
  cases len with
  | l64 => exact short_of c rfl rfl rfl ⟨rfl, rfl, rfl, rfl, rfl⟩ rfl
  | l96 => exact mid_of c rfl rfl ⟨rfl, rfl, rfl, rfl, rfl⟩ rfl
  | l128 => exact long_of c rfl ⟨rfl, rfl, rfl, rfl, rfl⟩ rfl

theorem Encoding.bra (c : Ctl) (x1 : Word) : Encoding.Statement (.bra c x1) := by
  exact mid_of c rfl rfl ⟨rfl, rfl, rfl, rfl, rfl⟩ rfl

theorem Encoding.brx (c : Ctl) (a : Reg) (x1 : Word) : Encoding.Statement (.brx c a x1) := by
  exact mid_of c rfl rfl ⟨rfl, rfl, rfl, rfl, rfl⟩ rfl

theorem Encoding.brs (c : Ctl) (cond : BrCond) (a : Reg) (x1 : Word) (x2 : Word) : Encoding.Statement (.brs c cond a x1 x2) := by
  refine long_of c rfl ⟨rfl, rfl, rfl, rfl, rfl⟩ ?_
  cases cond <;> rfl

theorem Encoding.brv (c : Ctl) (cond : BrCond) (a : Reg) (x1 : Word) (x2 : Word) : Encoding.Statement (.brv c cond a x1 x2) := by
  refine long_of c rfl ⟨rfl, rfl, rfl, rfl, rfl⟩ ?_
  cases cond <;> rfl

theorem Encoding.call (c : Ctl) (x1 : Word) : Encoding.Statement (.call c x1) := by
  exact mid_of c rfl rfl ⟨rfl, rfl, rfl, rfl, rfl⟩ rfl

theorem Encoding.ret (c : Ctl) (a : Reg) : Encoding.Statement (.ret c a) := by
  exact short_of c rfl rfl rfl ⟨rfl, rfl, rfl, rfl, rfl⟩ rfl

theorem Encoding.regang (c : Ctl) : Encoding.Statement (.regang c) := by
  exact short_of c rfl rfl rfl ⟨rfl, rfl, rfl, rfl, rfl⟩ rfl

theorem Encoding.exit (c : Ctl) : Encoding.Statement (.exit c) := by
  exact short_of c rfl rfl rfl ⟨rfl, rfl, rfl, rfl, rfl⟩ rfl

theorem Encoding.ifMask (c : Ctl) (a : Reg) : Encoding.Statement (.ifMask c a) := by
  exact short_of c rfl rfl rfl ⟨rfl, rfl, rfl, rfl, rfl⟩ rfl

theorem Encoding.elseMask (c : Ctl) : Encoding.Statement (.elseMask c) := by
  exact short_of c rfl rfl rfl ⟨rfl, rfl, rfl, rfl, rfl⟩ rfl

theorem Encoding.endif (c : Ctl) : Encoding.Statement (.endif c) := by
  exact short_of c rfl rfl rfl ⟨rfl, rfl, rfl, rfl, rfl⟩ rfl

theorem Encoding.loop (c : Ctl) : Encoding.Statement (.loop c) := by
  exact short_of c rfl rfl rfl ⟨rfl, rfl, rfl, rfl, rfl⟩ rfl

theorem Encoding.endloop (c : Ctl) (x1 : Word) : Encoding.Statement (.endloop c x1) := by
  exact mid_of c rfl rfl ⟨rfl, rfl, rfl, rfl, rfl⟩ rfl

theorem Encoding.breakMask (c : Ctl) (a : Reg) (k : BitVec 8) : Encoding.Statement (.breakMask c a k) := by
  exact short_of c rfl rfl rfl ⟨rfl, rfl, rfl, rfl, rfl⟩ rfl

theorem Encoding.contMask (c : Ctl) (a : Reg) (k : BitVec 8) : Encoding.Statement (.contMask c a k) := by
  exact short_of c rfl rfl rfl ⟨rfl, rfl, rfl, rfl, rfl⟩ rfl

theorem Encoding.yield (c : Ctl) : Encoding.Statement (.yield c) := by
  exact short_of c rfl rfl rfl ⟨rfl, rfl, rfl, rfl, rfl⟩ rfl

theorem Encoding.sleep (c : Ctl) (n : BitVec 20) : Encoding.Statement (.sleep c n) := by
  refine mid_of c rfl rfl ⟨rfl, rfl, rfl, rfl, rfl⟩ ?_
  exact congrArg (fun n => Except.ok (Instr.sleep c n)) (only_field n (by decide))

theorem Encoding.trap (c : Ctl) (code : BitVec 8) : Encoding.Statement (.trap c code) := by
  exact short_of c rfl rfl rfl ⟨rfl, rfl, rfl, rfl, rfl⟩ rfl

theorem Encoding.rett (c : Ctl) : Encoding.Statement (.rett c) := by
  exact short_of c rfl rfl rfl ⟨rfl, rfl, rfl, rfl, rfl⟩ rfl

theorem Encoding.brk (c : Ctl) (code : BitVec 8) : Encoding.Statement (.brk c code) := by
  exact short_of c rfl rfl rfl ⟨rfl, rfl, rfl, rfl, rfl⟩ rfl

theorem Encoding.srd (c : Ctl) (d : Reg) (num : BitVec 12) : Encoding.Statement (.srd c d num) := by
  refine mid_of c rfl rfl ⟨rfl, rfl, rfl, rfl, rfl⟩ ?_
  exact congrArg (fun n => Except.ok (Instr.srd c d n)) (only_field num (by decide))

theorem Encoding.swr (c : Ctl) (a : Reg) (num : BitVec 12) : Encoding.Statement (.swr c a num) := by
  refine mid_of c rfl rfl ⟨rfl, rfl, rfl, rfl, rfl⟩ ?_
  exact congrArg (fun n => Except.ok (Instr.swr c a n)) (only_field num (by decide))

theorem Encoding.clk (c : Ctl) (d : Reg) : Encoding.Statement (.clk c d) := by
  exact short_of c rfl rfl rfl ⟨rfl, rfl, rfl, rfl, rfl⟩ rfl

theorem Encoding.perf (c : Ctl) (d : Reg) (ev : BitVec 8) : Encoding.Statement (.perf c d ev) := by
  exact short_of c rfl rfl rfl ⟨rfl, rfl, rfl, rfl, rfl⟩ rfl

theorem Encoding.sadd (c : Ctl) (d : Reg) (a : Reg) (b : Src) : Encoding.Statement (.sadd c d a b) := by
  cases b with
  | reg _ =>
    exact short_of c rfl rfl rfl ⟨rfl, rfl, rfl, rfl, rfl⟩ rfl
  | imm _ =>
    exact mid_of c rfl rfl ⟨rfl, rfl, rfl, rfl, rfl⟩ rfl

theorem Encoding.ssub (c : Ctl) (d : Reg) (a : Reg) (b : Src) : Encoding.Statement (.ssub c d a b) := by
  cases b with
  | reg _ =>
    exact short_of c rfl rfl rfl ⟨rfl, rfl, rfl, rfl, rfl⟩ rfl
  | imm _ =>
    exact mid_of c rfl rfl ⟨rfl, rfl, rfl, rfl, rfl⟩ rfl

theorem Encoding.smul (c : Ctl) (d : Reg) (a : Reg) (b : Src) : Encoding.Statement (.smul c d a b) := by
  cases b with
  | reg _ =>
    exact short_of c rfl rfl rfl ⟨rfl, rfl, rfl, rfl, rfl⟩ rfl
  | imm _ =>
    exact mid_of c rfl rfl ⟨rfl, rfl, rfl, rfl, rfl⟩ rfl

theorem Encoding.smulh (c : Ctl) (u : Bool) (d : Reg) (a : Reg) (b : Src) : Encoding.Statement (.smulh c u d a b) := by
  cases b with
  | reg _ =>
    refine short_of c rfl rfl rfl ⟨rfl, rfl, rfl, rfl, rfl⟩ ?_
    exact congrArg (fun v => Except.ok (Instr.smulh c v d a _)) (m0_of rfl)
  | imm _ =>
    refine mid_of c rfl rfl ⟨rfl, rfl, rfl, rfl, rfl⟩ ?_
    exact congrArg (fun v => Except.ok (Instr.smulh c v d a _)) (m0_of rfl)

theorem Encoding.sdiv (c : Ctl) (u : Bool) (d : Reg) (a : Reg) (b : Src) : Encoding.Statement (.sdiv c u d a b) := by
  cases b with
  | reg _ =>
    refine short_of c rfl rfl rfl ⟨rfl, rfl, rfl, rfl, rfl⟩ ?_
    exact congrArg (fun v => Except.ok (Instr.sdiv c v d a _)) (m0_of rfl)
  | imm _ =>
    refine mid_of c rfl rfl ⟨rfl, rfl, rfl, rfl, rfl⟩ ?_
    exact congrArg (fun v => Except.ok (Instr.sdiv c v d a _)) (m0_of rfl)

theorem Encoding.srem (c : Ctl) (u : Bool) (d : Reg) (a : Reg) (b : Src) : Encoding.Statement (.srem c u d a b) := by
  cases b with
  | reg _ =>
    refine short_of c rfl rfl rfl ⟨rfl, rfl, rfl, rfl, rfl⟩ ?_
    exact congrArg (fun v => Except.ok (Instr.srem c v d a _)) (m0_of rfl)
  | imm _ =>
    refine mid_of c rfl rfl ⟨rfl, rfl, rfl, rfl, rfl⟩ ?_
    exact congrArg (fun v => Except.ok (Instr.srem c v d a _)) (m0_of rfl)

theorem Encoding.sand (c : Ctl) (d : Reg) (a : Reg) (b : Src) : Encoding.Statement (.sand c d a b) := by
  cases b with
  | reg _ =>
    exact short_of c rfl rfl rfl ⟨rfl, rfl, rfl, rfl, rfl⟩ rfl
  | imm _ =>
    exact mid_of c rfl rfl ⟨rfl, rfl, rfl, rfl, rfl⟩ rfl

theorem Encoding.sor (c : Ctl) (d : Reg) (a : Reg) (b : Src) : Encoding.Statement (.sor c d a b) := by
  cases b with
  | reg _ =>
    exact short_of c rfl rfl rfl ⟨rfl, rfl, rfl, rfl, rfl⟩ rfl
  | imm _ =>
    exact mid_of c rfl rfl ⟨rfl, rfl, rfl, rfl, rfl⟩ rfl

theorem Encoding.sxor (c : Ctl) (d : Reg) (a : Reg) (b : Src) : Encoding.Statement (.sxor c d a b) := by
  cases b with
  | reg _ =>
    exact short_of c rfl rfl rfl ⟨rfl, rfl, rfl, rfl, rfl⟩ rfl
  | imm _ =>
    exact mid_of c rfl rfl ⟨rfl, rfl, rfl, rfl, rfl⟩ rfl

theorem Encoding.sshl (c : Ctl) (d : Reg) (a : Reg) (b : Src) : Encoding.Statement (.sshl c d a b) := by
  cases b with
  | reg _ =>
    exact short_of c rfl rfl rfl ⟨rfl, rfl, rfl, rfl, rfl⟩ rfl
  | imm _ =>
    exact mid_of c rfl rfl ⟨rfl, rfl, rfl, rfl, rfl⟩ rfl

theorem Encoding.sshr (c : Ctl) (d : Reg) (a : Reg) (b : Src) : Encoding.Statement (.sshr c d a b) := by
  cases b with
  | reg _ =>
    exact short_of c rfl rfl rfl ⟨rfl, rfl, rfl, rfl, rfl⟩ rfl
  | imm _ =>
    exact mid_of c rfl rfl ⟨rfl, rfl, rfl, rfl, rfl⟩ rfl

theorem Encoding.ssra (c : Ctl) (d : Reg) (a : Reg) (b : Src) : Encoding.Statement (.ssra c d a b) := by
  cases b with
  | reg _ =>
    exact short_of c rfl rfl rfl ⟨rfl, rfl, rfl, rfl, rfl⟩ rfl
  | imm _ =>
    exact mid_of c rfl rfl ⟨rfl, rfl, rfl, rfl, rfl⟩ rfl

theorem Encoding.smin (c : Ctl) (u : Bool) (d : Reg) (a : Reg) (b : Src) : Encoding.Statement (.smin c u d a b) := by
  cases b with
  | reg _ =>
    refine short_of c rfl rfl rfl ⟨rfl, rfl, rfl, rfl, rfl⟩ ?_
    exact congrArg (fun v => Except.ok (Instr.smin c v d a _)) (m0_of rfl)
  | imm _ =>
    refine mid_of c rfl rfl ⟨rfl, rfl, rfl, rfl, rfl⟩ ?_
    exact congrArg (fun v => Except.ok (Instr.smin c v d a _)) (m0_of rfl)

theorem Encoding.smax (c : Ctl) (u : Bool) (d : Reg) (a : Reg) (b : Src) : Encoding.Statement (.smax c u d a b) := by
  cases b with
  | reg _ =>
    refine short_of c rfl rfl rfl ⟨rfl, rfl, rfl, rfl, rfl⟩ ?_
    exact congrArg (fun v => Except.ok (Instr.smax c v d a _)) (m0_of rfl)
  | imm _ =>
    refine mid_of c rfl rfl ⟨rfl, rfl, rfl, rfl, rfl⟩ ?_
    exact congrArg (fun v => Except.ok (Instr.smax c v d a _)) (m0_of rfl)

theorem Encoding.scmp (c : Ctl) (cond : SCond) (d : Reg) (a : Reg) (b : Src) : Encoding.Statement (.scmp c cond d a b) := by
  cases b with
  | reg _ =>
    refine short_of c rfl rfl rfl ⟨rfl, rfl, rfl, rfl, rfl⟩ ?_
    cases cond <;> rfl
  | imm _ =>
    refine mid_of c rfl rfl ⟨rfl, rfl, rfl, rfl, rfl⟩ ?_
    cases cond <;> rfl

theorem Encoding.ssel (c : Ctl) (d : Reg) (a : Reg) (b : Reg) (cc : Reg) : Encoding.Statement (.ssel c d a b cc) := by
  exact short_of c rfl rfl rfl ⟨rfl, rfl, rfl, rfl, rfl⟩ rfl

theorem Encoding.smov (c : Ctl) (d : Reg) (a : Reg) : Encoding.Statement (.smov c d a) := by
  exact short_of c rfl rfl rfl ⟨rfl, rfl, rfl, rfl, rfl⟩ rfl

theorem Encoding.smovi (c : Ctl) (d : Reg) (x : SImm) : Encoding.Statement (.smovi c d x) := by
  cases x with
  | short _ => exact mid_of c rfl rfl ⟨rfl, rfl, rfl, rfl, rfl⟩ rfl
  | long v =>
    refine long_of c rfl ⟨rfl, rfl, rfl, rfl, rfl⟩ ?_
    show Except.ok (Instr.smovi c d (.long (BitVec.ofNat 64 ((BitVec.ofNat 32 v.toNat).toNat +
      (BitVec.ofNat 32 (v.toNat / 2 ^ 32)).toNat * 2 ^ 32)))) = _
    rw [long_back]

theorem Encoding.sclz (c : Ctl) (d : Reg) (a : Reg) : Encoding.Statement (.sclz c d a) := by
  exact short_of c rfl rfl rfl ⟨rfl, rfl, rfl, rfl, rfl⟩ rfl

theorem Encoding.spopc (c : Ctl) (d : Reg) (a : Reg) : Encoding.Statement (.spopc c d a) := by
  exact short_of c rfl rfl rfl ⟨rfl, rfl, rfl, rfl, rfl⟩ rfl

theorem Encoding.sbfx (c : Ctl) (sgn : Bool) (d : Reg) (a : Reg) (pos : BitVec 6) (wid : BitVec 7) : Encoding.Statement (.sbfx c sgn d a pos wid) := by
  refine mid_of c rfl rfl ⟨rfl, rfl, rfl, rfl, rfl⟩ ?_
  show Except.ok (Instr.sbfx c _ d a _ _) = _
  rw [m0_of (b := sgn) rfl]
  exact congrArg₂ (fun p w => Except.ok (Instr.sbfx c sgn d a p w)) (low_field (w := 32) pos wid (by decide))
    (high_field (w := 32) pos wid (by decide))

theorem Encoding.sbfi (c : Ctl) (d : Reg) (a : Reg) (pos : BitVec 6) (wid : BitVec 7) : Encoding.Statement (.sbfi c d a pos wid) := by
  refine mid_of c rfl rfl ⟨rfl, rfl, rfl, rfl, rfl⟩ ?_
  exact congrArg₂ (fun p w => Except.ok (Instr.sbfi c d a p w)) (low_field pos wid (by decide))
    (high_field pos wid (by decide))

theorem Encoding.sld (c : Ctl) (t : Ty) (d : Reg) (a : Reg) (off : Off) : Encoding.Statement (.sld c t d a off) := by
  cases off with
  | none =>
    refine short_of c rfl rfl rfl ⟨rfl, rfl, rfl, rfl, rfl⟩ ?_
    show (Raw.ty _ >>= _) = _
    rw [ty_of (t := t) rfl]
    rfl
  | some _ =>
    refine mid_of c rfl rfl ⟨rfl, rfl, rfl, rfl, rfl⟩ ?_
    show (Raw.ty _ >>= _) = _
    rw [ty_of (t := t) rfl]
    rfl

theorem Encoding.sst (c : Ctl) (t : Ty) (a : Reg) (b : Reg) (off : Off) : Encoding.Statement (.sst c t a b off) := by
  cases off with
  | none =>
    refine short_of c rfl rfl rfl ⟨rfl, rfl, rfl, rfl, rfl⟩ ?_
    show (Raw.ty _ >>= _) = _
    rw [ty_of (t := t) rfl]
    rfl
  | some _ =>
    refine mid_of c rfl rfl ⟨rfl, rfl, rfl, rfl, rfl⟩ ?_
    show (Raw.ty _ >>= _) = _
    rw [ty_of (t := t) rfl]
    rfl

theorem Encoding.slda (c : Ctl) (wide : Bool) (add : BitVec 6) (d : Reg) (a : Reg) (off : Off) : Encoding.Statement (.slda c wide add d a off) := by
  cases off with
  | none =>
    refine short_of c rfl rfl rfl ⟨rfl, rfl, rfl, rfl, rfl⟩ ?_
    exact congrArg₂ (fun w n => Except.ok (Instr.slda c w n d a _)) (slda_wide wide add) (slda_add wide add)
  | some _ =>
    refine mid_of c rfl rfl ⟨rfl, rfl, rfl, rfl, rfl⟩ ?_
    exact congrArg₂ (fun w n => Except.ok (Instr.slda c w n d a _)) (slda_wide wide add) (slda_add wide add)

theorem Encoding.vadd (c : Ctl) (t : Ty) (d : Reg) (a : Reg) (b : Src) : Encoding.Statement (.vadd c t d a b) := by
  cases b with
  | reg _ =>
    refine short_of c rfl rfl rfl ⟨rfl, rfl, rfl, rfl, rfl⟩ ?_
    show (Raw.ty _ >>= _) = _
    rw [ty_of (t := t) rfl]
    rfl
  | imm _ =>
    refine mid_of c rfl rfl ⟨rfl, rfl, rfl, rfl, rfl⟩ ?_
    show (Raw.ty _ >>= _) = _
    rw [ty_of (t := t) rfl]
    rfl

theorem Encoding.vsub (c : Ctl) (t : Ty) (d : Reg) (a : Reg) (b : Src) : Encoding.Statement (.vsub c t d a b) := by
  cases b with
  | reg _ =>
    refine short_of c rfl rfl rfl ⟨rfl, rfl, rfl, rfl, rfl⟩ ?_
    show (Raw.ty _ >>= _) = _
    rw [ty_of (t := t) rfl]
    rfl
  | imm _ =>
    refine mid_of c rfl rfl ⟨rfl, rfl, rfl, rfl, rfl⟩ ?_
    show (Raw.ty _ >>= _) = _
    rw [ty_of (t := t) rfl]
    rfl

theorem Encoding.vmul (c : Ctl) (t : Ty) (d : Reg) (a : Reg) (b : Src) : Encoding.Statement (.vmul c t d a b) := by
  cases b with
  | reg _ =>
    refine short_of c rfl rfl rfl ⟨rfl, rfl, rfl, rfl, rfl⟩ ?_
    show (Raw.ty _ >>= _) = _
    rw [ty_of (t := t) rfl]
    rfl
  | imm _ =>
    refine mid_of c rfl rfl ⟨rfl, rfl, rfl, rfl, rfl⟩ ?_
    show (Raw.ty _ >>= _) = _
    rw [ty_of (t := t) rfl]
    rfl

theorem Encoding.vmulh (c : Ctl) (t : Ty) (d : Reg) (a : Reg) (b : Src) : Encoding.Statement (.vmulh c t d a b) := by
  cases b with
  | reg _ =>
    refine short_of c rfl rfl rfl ⟨rfl, rfl, rfl, rfl, rfl⟩ ?_
    show (Raw.ty _ >>= _) = _
    rw [ty_of (t := t) rfl]
    rfl
  | imm _ =>
    refine mid_of c rfl rfl ⟨rfl, rfl, rfl, rfl, rfl⟩ ?_
    show (Raw.ty _ >>= _) = _
    rw [ty_of (t := t) rfl]
    rfl

theorem Encoding.vmad (c : Ctl) (t : Ty) (d : Reg) (a : Reg) (b : Reg) (cc : Reg) : Encoding.Statement (.vmad c t d a b cc) := by
  refine short_of c rfl rfl rfl ⟨rfl, rfl, rfl, rfl, rfl⟩ ?_
  show (Raw.ty _ >>= _) = _
  rw [ty_of (t := t) rfl]
  rfl

theorem Encoding.vadds (c : Ctl) (t : Ty) (d : Reg) (a : Reg) (b : Src) : Encoding.Statement (.vadds c t d a b) := by
  cases b with
  | reg _ =>
    refine short_of c rfl rfl rfl ⟨rfl, rfl, rfl, rfl, rfl⟩ ?_
    show (Raw.ty _ >>= _) = _
    rw [ty_of (t := t) rfl]
    rfl
  | imm _ =>
    refine mid_of c rfl rfl ⟨rfl, rfl, rfl, rfl, rfl⟩ ?_
    show (Raw.ty _ >>= _) = _
    rw [ty_of (t := t) rfl]
    rfl

theorem Encoding.vsubs (c : Ctl) (t : Ty) (d : Reg) (a : Reg) (b : Src) : Encoding.Statement (.vsubs c t d a b) := by
  cases b with
  | reg _ =>
    refine short_of c rfl rfl rfl ⟨rfl, rfl, rfl, rfl, rfl⟩ ?_
    show (Raw.ty _ >>= _) = _
    rw [ty_of (t := t) rfl]
    rfl
  | imm _ =>
    refine mid_of c rfl rfl ⟨rfl, rfl, rfl, rfl, rfl⟩ ?_
    show (Raw.ty _ >>= _) = _
    rw [ty_of (t := t) rfl]
    rfl

theorem Encoding.vand (c : Ctl) (d : Reg) (a : Reg) (b : Src) : Encoding.Statement (.vand c d a b) := by
  cases b with
  | reg _ =>
    exact short_of c rfl rfl rfl ⟨rfl, rfl, rfl, rfl, rfl⟩ rfl
  | imm _ =>
    exact mid_of c rfl rfl ⟨rfl, rfl, rfl, rfl, rfl⟩ rfl

theorem Encoding.vor (c : Ctl) (d : Reg) (a : Reg) (b : Src) : Encoding.Statement (.vor c d a b) := by
  cases b with
  | reg _ =>
    exact short_of c rfl rfl rfl ⟨rfl, rfl, rfl, rfl, rfl⟩ rfl
  | imm _ =>
    exact mid_of c rfl rfl ⟨rfl, rfl, rfl, rfl, rfl⟩ rfl

theorem Encoding.vxor (c : Ctl) (d : Reg) (a : Reg) (b : Src) : Encoding.Statement (.vxor c d a b) := by
  cases b with
  | reg _ =>
    exact short_of c rfl rfl rfl ⟨rfl, rfl, rfl, rfl, rfl⟩ rfl
  | imm _ =>
    exact mid_of c rfl rfl ⟨rfl, rfl, rfl, rfl, rfl⟩ rfl

theorem Encoding.vnot (c : Ctl) (d : Reg) (a : Reg) : Encoding.Statement (.vnot c d a) := by
  exact short_of c rfl rfl rfl ⟨rfl, rfl, rfl, rfl, rfl⟩ rfl

theorem Encoding.vshl (c : Ctl) (t : Ty) (d : Reg) (a : Reg) (b : Src) : Encoding.Statement (.vshl c t d a b) := by
  cases b with
  | reg _ =>
    refine short_of c rfl rfl rfl ⟨rfl, rfl, rfl, rfl, rfl⟩ ?_
    show (Raw.ty _ >>= _) = _
    rw [ty_of (t := t) rfl]
    rfl
  | imm _ =>
    refine mid_of c rfl rfl ⟨rfl, rfl, rfl, rfl, rfl⟩ ?_
    show (Raw.ty _ >>= _) = _
    rw [ty_of (t := t) rfl]
    rfl

theorem Encoding.vshr (c : Ctl) (t : Ty) (d : Reg) (a : Reg) (b : Src) : Encoding.Statement (.vshr c t d a b) := by
  cases b with
  | reg _ =>
    refine short_of c rfl rfl rfl ⟨rfl, rfl, rfl, rfl, rfl⟩ ?_
    show (Raw.ty _ >>= _) = _
    rw [ty_of (t := t) rfl]
    rfl
  | imm _ =>
    refine mid_of c rfl rfl ⟨rfl, rfl, rfl, rfl, rfl⟩ ?_
    show (Raw.ty _ >>= _) = _
    rw [ty_of (t := t) rfl]
    rfl

theorem Encoding.vsra (c : Ctl) (t : Ty) (d : Reg) (a : Reg) (b : Src) : Encoding.Statement (.vsra c t d a b) := by
  cases b with
  | reg _ =>
    refine short_of c rfl rfl rfl ⟨rfl, rfl, rfl, rfl, rfl⟩ ?_
    show (Raw.ty _ >>= _) = _
    rw [ty_of (t := t) rfl]
    rfl
  | imm _ =>
    refine mid_of c rfl rfl ⟨rfl, rfl, rfl, rfl, rfl⟩ ?_
    show (Raw.ty _ >>= _) = _
    rw [ty_of (t := t) rfl]
    rfl

theorem Encoding.vmin (c : Ctl) (t : Ty) (d : Reg) (a : Reg) (b : Src) : Encoding.Statement (.vmin c t d a b) := by
  cases b with
  | reg _ =>
    refine short_of c rfl rfl rfl ⟨rfl, rfl, rfl, rfl, rfl⟩ ?_
    show (Raw.ty _ >>= _) = _
    rw [ty_of (t := t) rfl]
    rfl
  | imm _ =>
    refine mid_of c rfl rfl ⟨rfl, rfl, rfl, rfl, rfl⟩ ?_
    show (Raw.ty _ >>= _) = _
    rw [ty_of (t := t) rfl]
    rfl

theorem Encoding.vmax (c : Ctl) (t : Ty) (d : Reg) (a : Reg) (b : Src) : Encoding.Statement (.vmax c t d a b) := by
  cases b with
  | reg _ =>
    refine short_of c rfl rfl rfl ⟨rfl, rfl, rfl, rfl, rfl⟩ ?_
    show (Raw.ty _ >>= _) = _
    rw [ty_of (t := t) rfl]
    rfl
  | imm _ =>
    refine mid_of c rfl rfl ⟨rfl, rfl, rfl, rfl, rfl⟩ ?_
    show (Raw.ty _ >>= _) = _
    rw [ty_of (t := t) rfl]
    rfl

theorem Encoding.vabs (c : Ctl) (t : Ty) (d : Reg) (a : Reg) : Encoding.Statement (.vabs c t d a) := by
  refine short_of c rfl rfl rfl ⟨rfl, rfl, rfl, rfl, rfl⟩ ?_
  show (Raw.ty _ >>= _) = _
  rw [ty_of (t := t) rfl]
  rfl

theorem Encoding.vneg (c : Ctl) (t : Ty) (d : Reg) (a : Reg) : Encoding.Statement (.vneg c t d a) := by
  refine short_of c rfl rfl rfl ⟨rfl, rfl, rfl, rfl, rfl⟩ ?_
  show (Raw.ty _ >>= _) = _
  rw [ty_of (t := t) rfl]
  rfl

theorem Encoding.vclz (c : Ctl) (t : Ty) (d : Reg) (a : Reg) : Encoding.Statement (.vclz c t d a) := by
  refine short_of c rfl rfl rfl ⟨rfl, rfl, rfl, rfl, rfl⟩ ?_
  show (Raw.ty _ >>= _) = _
  rw [ty_of (t := t) rfl]
  rfl

theorem Encoding.vpopc (c : Ctl) (t : Ty) (d : Reg) (a : Reg) : Encoding.Statement (.vpopc c t d a) := by
  refine short_of c rfl rfl rfl ⟨rfl, rfl, rfl, rfl, rfl⟩ ?_
  show (Raw.ty _ >>= _) = _
  rw [ty_of (t := t) rfl]
  rfl

theorem Encoding.vbfx (c : Ctl) (sgn : Bool) (d : Reg) (a : Reg) (pos : BitVec 5) (wid : BitVec 6) : Encoding.Statement (.vbfx c sgn d a pos wid) := by
  refine mid_of c rfl rfl ⟨rfl, rfl, rfl, rfl, rfl⟩ ?_
  show Except.ok (Instr.vbfx c _ d a _ _) = _
  rw [m0_of (b := sgn) rfl]
  exact congrArg₂ (fun p w => Except.ok (Instr.vbfx c sgn d a p w)) (low_field (w := 32) pos wid (by decide))
    (high_field (w := 32) pos wid (by decide))

theorem Encoding.vbfi (c : Ctl) (d : Reg) (a : Reg) (pos : BitVec 5) (wid : BitVec 6) : Encoding.Statement (.vbfi c d a pos wid) := by
  refine mid_of c rfl rfl ⟨rfl, rfl, rfl, rfl, rfl⟩ ?_
  exact congrArg₂ (fun p w => Except.ok (Instr.vbfi c d a p w)) (low_field pos wid (by decide))
    (high_field pos wid (by decide))

theorem Encoding.vaddc (c : Ctl) (t : Ty) (d : Reg) (a : Reg) (b : Reg) (cc : Reg) : Encoding.Statement (.vaddc c t d a b cc) := by
  refine short_of c rfl rfl rfl ⟨rfl, rfl, rfl, rfl, rfl⟩ ?_
  show (Raw.ty _ >>= _) = _
  rw [ty_of (t := t) rfl]
  rfl

theorem Encoding.vmov (c : Ctl) (d : Reg) (a : Reg) : Encoding.Statement (.vmov c d a) := by
  exact short_of c rfl rfl rfl ⟨rfl, rfl, rfl, rfl, rfl⟩ rfl

theorem Encoding.vbcast (c : Ctl) (d : Reg) (a : Src) : Encoding.Statement (.vbcast c d a) := by
  cases a with
  | reg _ =>
    exact short_of c rfl rfl rfl ⟨rfl, rfl, rfl, rfl, rfl⟩ rfl
  | imm _ =>
    exact mid_of c rfl rfl ⟨rfl, rfl, rfl, rfl, rfl⟩ rfl

theorem Encoding.vlid (c : Ctl) (d : Reg) : Encoding.Statement (.vlid c d) := by
  exact short_of c rfl rfl rfl ⟨rfl, rfl, rfl, rfl, rfl⟩ rfl

theorem Encoding.vsel (c : Ctl) (d : Reg) (a : Reg) (b : Reg) (cc : Reg) : Encoding.Statement (.vsel c d a b cc) := by
  exact short_of c rfl rfl rfl ⟨rfl, rfl, rfl, rfl, rfl⟩ rfl

theorem Encoding.vcmp (c : Ctl) (t : LTy) (cond : VCond) (d : Reg) (a : Reg) (b : Src) : Encoding.Statement (.vcmp c t cond d a b) := by
  cases b with
  | reg _ =>
    refine short_of c rfl rfl rfl ⟨rfl, rfl, rfl, rfl, rfl⟩ ?_
    show (sub? (LTy.ofCode ((opSub cond.code t.code 0).toNat / 16 % 4)) >>= _) = _
    rw [(vcmp_sub t cond).1]
    show (sub? (VCond.ofCode ((opSub cond.code t.code 0).toNat % 16)) >>= _) = _
    rw [(vcmp_sub t cond).2]
    rfl
  | imm _ =>
    refine mid_of c rfl rfl ⟨rfl, rfl, rfl, rfl, rfl⟩ ?_
    show (sub? (LTy.ofCode ((opSub cond.code t.code 0).toNat / 16 % 4)) >>= _) = _
    rw [(vcmp_sub t cond).1]
    show (sub? (VCond.ofCode ((opSub cond.code t.code 0).toNat % 16)) >>= _) = _
    rw [(vcmp_sub t cond).2]
    rfl

theorem Encoding.vmask (c : Ctl) (d : Reg) (a : Reg) : Encoding.Statement (.vmask c d a) := by
  exact short_of c rfl rfl rfl ⟨rfl, rfl, rfl, rfl, rfl⟩ rfl

theorem Encoding.fadd (c : Ctl) (t : Ty) (d : Reg) (a : Reg) (b : Src) : Encoding.Statement (.fadd c t d a b) := by
  cases b with
  | reg _ =>
    refine short_of c rfl rfl rfl ⟨rfl, rfl, rfl, rfl, rfl⟩ ?_
    show (Raw.ty _ >>= _) = _
    rw [ty_of (t := t) rfl]
    rfl
  | imm _ =>
    refine mid_of c rfl rfl ⟨rfl, rfl, rfl, rfl, rfl⟩ ?_
    show (Raw.ty _ >>= _) = _
    rw [ty_of (t := t) rfl]
    rfl

theorem Encoding.fsub (c : Ctl) (t : Ty) (d : Reg) (a : Reg) (b : Src) : Encoding.Statement (.fsub c t d a b) := by
  cases b with
  | reg _ =>
    refine short_of c rfl rfl rfl ⟨rfl, rfl, rfl, rfl, rfl⟩ ?_
    show (Raw.ty _ >>= _) = _
    rw [ty_of (t := t) rfl]
    rfl
  | imm _ =>
    refine mid_of c rfl rfl ⟨rfl, rfl, rfl, rfl, rfl⟩ ?_
    show (Raw.ty _ >>= _) = _
    rw [ty_of (t := t) rfl]
    rfl

theorem Encoding.fmul (c : Ctl) (t : Ty) (d : Reg) (a : Reg) (b : Src) : Encoding.Statement (.fmul c t d a b) := by
  cases b with
  | reg _ =>
    refine short_of c rfl rfl rfl ⟨rfl, rfl, rfl, rfl, rfl⟩ ?_
    show (Raw.ty _ >>= _) = _
    rw [ty_of (t := t) rfl]
    rfl
  | imm _ =>
    refine mid_of c rfl rfl ⟨rfl, rfl, rfl, rfl, rfl⟩ ?_
    show (Raw.ty _ >>= _) = _
    rw [ty_of (t := t) rfl]
    rfl

theorem Encoding.ffma (c : Ctl) (t : Ty) (d : Reg) (a : Reg) (b : Reg) (cc : Reg) : Encoding.Statement (.ffma c t d a b cc) := by
  refine short_of c rfl rfl rfl ⟨rfl, rfl, rfl, rfl, rfl⟩ ?_
  show (Raw.ty _ >>= _) = _
  rw [ty_of (t := t) rfl]
  rfl

theorem Encoding.fmin (c : Ctl) (t : Ty) (d : Reg) (a : Reg) (b : Src) : Encoding.Statement (.fmin c t d a b) := by
  cases b with
  | reg _ =>
    refine short_of c rfl rfl rfl ⟨rfl, rfl, rfl, rfl, rfl⟩ ?_
    show (Raw.ty _ >>= _) = _
    rw [ty_of (t := t) rfl]
    rfl
  | imm _ =>
    refine mid_of c rfl rfl ⟨rfl, rfl, rfl, rfl, rfl⟩ ?_
    show (Raw.ty _ >>= _) = _
    rw [ty_of (t := t) rfl]
    rfl

theorem Encoding.fmax (c : Ctl) (t : Ty) (d : Reg) (a : Reg) (b : Src) : Encoding.Statement (.fmax c t d a b) := by
  cases b with
  | reg _ =>
    refine short_of c rfl rfl rfl ⟨rfl, rfl, rfl, rfl, rfl⟩ ?_
    show (Raw.ty _ >>= _) = _
    rw [ty_of (t := t) rfl]
    rfl
  | imm _ =>
    refine mid_of c rfl rfl ⟨rfl, rfl, rfl, rfl, rfl⟩ ?_
    show (Raw.ty _ >>= _) = _
    rw [ty_of (t := t) rfl]
    rfl

theorem Encoding.fabs (c : Ctl) (t : Ty) (d : Reg) (a : Reg) : Encoding.Statement (.fabs c t d a) := by
  refine short_of c rfl rfl rfl ⟨rfl, rfl, rfl, rfl, rfl⟩ ?_
  show (Raw.ty _ >>= _) = _
  rw [ty_of (t := t) rfl]
  rfl

theorem Encoding.fneg (c : Ctl) (t : Ty) (d : Reg) (a : Reg) : Encoding.Statement (.fneg c t d a) := by
  refine short_of c rfl rfl rfl ⟨rfl, rfl, rfl, rfl, rfl⟩ ?_
  show (Raw.ty _ >>= _) = _
  rw [ty_of (t := t) rfl]
  rfl

theorem Encoding.fdiv (c : Ctl) (t : Ty) (d : Reg) (a : Reg) (b : Src) : Encoding.Statement (.fdiv c t d a b) := by
  cases b with
  | reg _ =>
    refine short_of c rfl rfl rfl ⟨rfl, rfl, rfl, rfl, rfl⟩ ?_
    show (Raw.ty _ >>= _) = _
    rw [ty_of (t := t) rfl]
    rfl
  | imm _ =>
    refine mid_of c rfl rfl ⟨rfl, rfl, rfl, rfl, rfl⟩ ?_
    show (Raw.ty _ >>= _) = _
    rw [ty_of (t := t) rfl]
    rfl

theorem Encoding.frcp (c : Ctl) (t : Ty) (d : Reg) (a : Reg) : Encoding.Statement (.frcp c t d a) := by
  refine short_of c rfl rfl rfl ⟨rfl, rfl, rfl, rfl, rfl⟩ ?_
  show (Raw.ty _ >>= _) = _
  rw [ty_of (t := t) rfl]
  rfl

theorem Encoding.frsq (c : Ctl) (t : Ty) (d : Reg) (a : Reg) : Encoding.Statement (.frsq c t d a) := by
  refine short_of c rfl rfl rfl ⟨rfl, rfl, rfl, rfl, rfl⟩ ?_
  show (Raw.ty _ >>= _) = _
  rw [ty_of (t := t) rfl]
  rfl

theorem Encoding.fsqrt (c : Ctl) (t : Ty) (d : Reg) (a : Reg) : Encoding.Statement (.fsqrt c t d a) := by
  refine short_of c rfl rfl rfl ⟨rfl, rfl, rfl, rfl, rfl⟩ ?_
  show (Raw.ty _ >>= _) = _
  rw [ty_of (t := t) rfl]
  rfl

theorem Encoding.fexp2 (c : Ctl) (t : Ty) (d : Reg) (a : Reg) : Encoding.Statement (.fexp2 c t d a) := by
  refine short_of c rfl rfl rfl ⟨rfl, rfl, rfl, rfl, rfl⟩ ?_
  show (Raw.ty _ >>= _) = _
  rw [ty_of (t := t) rfl]
  rfl

theorem Encoding.flog2 (c : Ctl) (t : Ty) (d : Reg) (a : Reg) : Encoding.Statement (.flog2 c t d a) := by
  refine short_of c rfl rfl rfl ⟨rfl, rfl, rfl, rfl, rfl⟩ ?_
  show (Raw.ty _ >>= _) = _
  rw [ty_of (t := t) rfl]
  rfl

theorem Encoding.ffloor (c : Ctl) (t : Ty) (d : Reg) (a : Reg) : Encoding.Statement (.ffloor c t d a) := by
  refine short_of c rfl rfl rfl ⟨rfl, rfl, rfl, rfl, rfl⟩ ?_
  show (Raw.ty _ >>= _) = _
  rw [ty_of (t := t) rfl]
  rfl

theorem Encoding.ffrac (c : Ctl) (t : Ty) (d : Reg) (a : Reg) : Encoding.Statement (.ffrac c t d a) := by
  refine short_of c rfl rfl rfl ⟨rfl, rfl, rfl, rfl, rfl⟩ ?_
  show (Raw.ty _ >>= _) = _
  rw [ty_of (t := t) rfl]
  rfl

theorem Encoding.fscale (c : Ctl) (t : Ty) (d : Reg) (a : Reg) (b : Src) : Encoding.Statement (.fscale c t d a b) := by
  cases b with
  | reg _ =>
    refine short_of c rfl rfl rfl ⟨rfl, rfl, rfl, rfl, rfl⟩ ?_
    show (Raw.ty _ >>= _) = _
    rw [ty_of (t := t) rfl]
    rfl
  | imm _ =>
    refine mid_of c rfl rfl ⟨rfl, rfl, rfl, rfl, rfl⟩ ?_
    show (Raw.ty _ >>= _) = _
    rw [ty_of (t := t) rfl]
    rfl

theorem Encoding.fclass (c : Ctl) (t : Ty) (d : Reg) (a : Reg) : Encoding.Statement (.fclass c t d a) := by
  refine short_of c rfl rfl rfl ⟨rfl, rfl, rfl, rfl, rfl⟩ ?_
  show (Raw.ty _ >>= _) = _
  rw [ty_of (t := t) rfl]
  rfl

theorem Encoding.cvt (c : Ctl) (dt : Ty) (d : Reg) (a : Reg) (st : Ty) (part : BitVec 3) : Encoding.Statement (.cvt c dt d a st part) := by
  refine mid_of c rfl rfl ⟨rfl, rfl, rfl, rfl, rfl⟩ ?_
  show (Raw.ty _ >>= fun _ => Raw.st _ >>= _) = _
  rw [ty_of (t := dt) rfl]
  show (Raw.st _ >>= _) = _
  rw [st_cvt (st := st) rfl]
  exact congrArg (fun p => Except.ok (Instr.cvt c dt d a st p)) (part_cvt rfl)

theorem Encoding.cvti (c : Ctl) (dt : Ty) (d : Reg) (a : Reg) (st : Ty) (part : BitVec 3) (sat : Bool) : Encoding.Statement (.cvti c dt d a st part sat) := by
  refine mid_of c rfl rfl ⟨rfl, rfl, rfl, rfl, rfl⟩ ?_
  show (Raw.ty _ >>= fun _ => Raw.st _ >>= _) = _
  rw [ty_of (t := dt) rfl]
  show (Raw.st _ >>= _) = _
  rw [st_cvt (st := st) rfl]
  exact congrArg₂ (fun p q => Except.ok (Instr.cvti c dt d a st p q)) (part_cvt rfl) (sat_cvt rfl)

theorem Encoding.cvtf (c : Ctl) (dt : Ty) (d : Reg) (a : Reg) (st : Ty) (part : BitVec 3) : Encoding.Statement (.cvtf c dt d a st part) := by
  refine mid_of c rfl rfl ⟨rfl, rfl, rfl, rfl, rfl⟩ ?_
  show (Raw.ty _ >>= fun _ => Raw.st _ >>= _) = _
  rw [ty_of (t := dt) rfl]
  show (Raw.st _ >>= _) = _
  rw [st_cvt (st := st) rfl]
  exact congrArg (fun p => Except.ok (Instr.cvtf c dt d a st p)) (part_cvt rfl)

theorem Encoding.cvtbx (c : Ctl) (dt : Ty) (d : Reg) (a : Reg) (b : Reg) (st : Ty) (part : BitVec 3) (delta : BitVec 4) : Encoding.Statement (.cvtbx c dt d a b st part delta) := by
  refine mid_of c rfl rfl ⟨rfl, rfl, rfl, rfl, rfl⟩ ?_
  show (Raw.ty _ >>= fun _ => Raw.st _ >>= _) = _
  rw [ty_of (t := dt) rfl]
  show (Raw.st _ >>= _) = _
  rw [st_cvt (st := st) rfl]
  exact congrArg₂ (fun p q => Except.ok (Instr.cvtbx c dt d a b st p q)) (part_cvt rfl) (delta_cvt rfl)

theorem Encoding.shfi (c : Ctl) (seg : Seg) (d : Reg) (a : Reg) (b : Src) : Encoding.Statement (.shfi c seg d a b) := by
  cases b with
  | reg _ =>
    refine short_of c rfl rfl rfl ⟨rfl, rfl, rfl, rfl, rfl⟩ ?_
    cases seg <;> rfl
  | imm _ =>
    refine mid_of c rfl rfl ⟨rfl, rfl, rfl, rfl, rfl⟩ ?_
    cases seg <;> rfl

theorem Encoding.shfu (c : Ctl) (seg : Seg) (d : Reg) (a : Reg) (b : Src) : Encoding.Statement (.shfu c seg d a b) := by
  cases b with
  | reg _ =>
    refine short_of c rfl rfl rfl ⟨rfl, rfl, rfl, rfl, rfl⟩ ?_
    cases seg <;> rfl
  | imm _ =>
    refine mid_of c rfl rfl ⟨rfl, rfl, rfl, rfl, rfl⟩ ?_
    cases seg <;> rfl

theorem Encoding.shfd (c : Ctl) (seg : Seg) (d : Reg) (a : Reg) (b : Src) : Encoding.Statement (.shfd c seg d a b) := by
  cases b with
  | reg _ =>
    refine short_of c rfl rfl rfl ⟨rfl, rfl, rfl, rfl, rfl⟩ ?_
    cases seg <;> rfl
  | imm _ =>
    refine mid_of c rfl rfl ⟨rfl, rfl, rfl, rfl, rfl⟩ ?_
    cases seg <;> rfl

theorem Encoding.shfx (c : Ctl) (seg : Seg) (d : Reg) (a : Reg) (b : Src) : Encoding.Statement (.shfx c seg d a b) := by
  cases b with
  | reg _ =>
    refine short_of c rfl rfl rfl ⟨rfl, rfl, rfl, rfl, rfl⟩ ?_
    cases seg <;> rfl
  | imm _ =>
    refine mid_of c rfl rfl ⟨rfl, rfl, rfl, rfl, rfl⟩ ?_
    cases seg <;> rfl

theorem Encoding.gshf (c : Ctl) (kind : GKind) (width : BitVec 2) (delta : BitVec 4) (d : Reg) (a : Reg) : Encoding.Statement (.gshf c kind width delta d a) := by
  refine mid_of c rfl rfl ⟨rfl, rfl, rfl, rfl, rfl⟩ ?_
  show (sub? (GKind.ofCode ((BitVec.ofNat 32 (delta.toNat + width.toNat * 2 ^ 4 + kind.code * 2 ^ 6)).toNat / 2 ^ 6 % 4)) >>= _) = _
  rw [gshf_kind]
  exact congrArg₂ (fun w n => Except.ok (Instr.gshf c kind w n d a)) (gshf_width width delta _) (gshf_delta width delta _)

theorem Encoding.vote (c : Ctl) (kind : VoteKind) (d : Reg) (a : Reg) : Encoding.Statement (.vote c kind d a) := by
  refine short_of c rfl rfl rfl ⟨rfl, rfl, rfl, rfl, rfl⟩ ?_
  cases kind <;> rfl

theorem Encoding.vreda (c : Ctl) (t : LTy) (op : RedOp) (d : Reg) (a : Reg) : Encoding.Statement (.vreda c t op d a) := by
  refine short_of c rfl rfl rfl ⟨rfl, rfl, rfl, rfl, rfl⟩ ?_
  show (sub? (LTy.ofCode ((opSub op.code t.code 0).toNat / 16 % 4)) >>= _) = _
  rw [(vreda_sub t op).1]
  show (sub? (RedOp.ofCode ((opSub op.code t.code 0).toNat % 8)) >>= _) = _
  rw [(vreda_sub t op).2]
  rfl

theorem Encoding.vscan (c : Ctl) (ex : Bool) (t : LTy) (op : RedOp) (d : Reg) (a : Reg) : Encoding.Statement (.vscan c ex t op d a) := by
  refine short_of c rfl rfl rfl ⟨rfl, rfl, rfl, rfl, rfl⟩ ?_
  show (sub? (LTy.ofCode ((opSub (op.code + 8 * ex.toNat) t.code 0).toNat / 16 % 4)) >>= _) = _
  rw [(vscan_sub ex t op).2.1]
  show (sub? (RedOp.ofCode ((opSub (op.code + 8 * ex.toNat) t.code 0).toNat % 8)) >>= _) = _
  rw [(vscan_sub ex t op).2.2]
  exact congrArg (fun e => Except.ok (Instr.vscan c e t op d a)) (vscan_sub ex t op).1

theorem Encoding.aldef (c : Ctl) (d : Reg) (a : Reg) (off : Off) : Encoding.Statement (.aldef c d a off) := by
  cases off with
  | none =>
    exact short_of c rfl rfl rfl ⟨rfl, rfl, rfl, rfl, rfl⟩ rfl
  | some _ =>
    exact mid_of c rfl rfl ⟨rfl, rfl, rfl, rfl, rfl⟩ rfl

theorem Encoding.alrd (c : Ctl) (d : Reg) (a : Reg) (word : BitVec 2) : Encoding.Statement (.alrd c d a word) := by
  refine short_of c rfl rfl rfl ⟨rfl, rfl, rfl, rfl, rfl⟩ ?_
  exact congrArg (fun w => Except.ok (Instr.alrd c d a w)) (only_field word (by decide))

theorem Encoding.unpk (c : Ctl) (sym : Bool) (an : BitVec 4) (d : Reg) (a : Reg) (first : Word) : Encoding.Statement (.unpk c sym an d a first) := by
  refine mid_of c rfl rfl ⟨rfl, rfl, rfl, rfl, rfl⟩ ?_
  show (Raw.alpha _ >>= _) = _
  rw [alpha_of (n := an) rfl]
  exact congrArg (fun v => Except.ok (Instr.unpk c v an d a first)) (m0_of rfl)

theorem Encoding.pack (c : Ctl) (sym : Bool) (an : BitVec 4) (d : Reg) (a : Reg) (first : Word) : Encoding.Statement (.pack c sym an d a first) := by
  refine mid_of c rfl rfl ⟨rfl, rfl, rfl, rfl, rfl⟩ ?_
  show (Raw.alpha _ >>= _) = _
  rw [alpha_of (n := an) rfl]
  exact congrArg (fun v => Except.ok (Instr.pack c v an d a first)) (m0_of rfl)

theorem Encoding.symx (c : Ctl) (sym : Bool) (an : BitVec 4) (d : Reg) (a : Reg) (b : Reg) : Encoding.Statement (.symx c sym an d a b) := by
  refine short_of c rfl rfl rfl ⟨rfl, rfl, rfl, rfl, rfl⟩ ?_
  show (Raw.alpha _ >>= _) = _
  rw [alpha_of (n := an) rfl]
  exact congrArg (fun v => Except.ok (Instr.symx c v an d a b)) (m0_of rfl)

theorem Encoding.symi (c : Ctl) (sym : Bool) (an : BitVec 4) (d : Reg) (a : Reg) (b : Reg) (cc : Reg) : Encoding.Statement (.symi c sym an d a b cc) := by
  refine short_of c rfl rfl rfl ⟨rfl, rfl, rfl, rfl, rfl⟩ ?_
  show (Raw.alpha _ >>= _) = _
  rw [alpha_of (n := an) rfl]
  exact congrArg (fun v => Except.ok (Instr.symi c v an d a b cc)) (m0_of rfl)

theorem Encoding.symld (c : Ctl) (sym : Bool) (an : BitVec 4) (d : Reg) (a : Reg) (b : Reg) : Encoding.Statement (.symld c sym an d a b) := by
  refine short_of c rfl rfl rfl ⟨rfl, rfl, rfl, rfl, rfl⟩ ?_
  show (Raw.alpha _ >>= _) = _
  rw [alpha_of (n := an) rfl]
  exact congrArg (fun v => Except.ok (Instr.symld c v an d a b)) (m0_of rfl)

theorem Encoding.symst (c : Ctl) (sym : Bool) (an : BitVec 4) (a : Reg) (b : Reg) (cc : Reg) : Encoding.Statement (.symst c sym an a b cc) := by
  refine short_of c rfl rfl rfl ⟨rfl, rfl, rfl, rfl, rfl⟩ ?_
  show (Raw.alpha _ >>= _) = _
  rw [alpha_of (n := an) rfl]
  exact congrArg (fun v => Except.ok (Instr.symst c v an a b cc)) (m0_of rfl)

theorem Encoding.dota (c : Ctl) (acc : Bool) (an : BitVec 4) (am : BitVec 4) (d : Reg) (a : Reg) (b : Reg) (nmax : BitVec 8) : Encoding.Statement (.dota c acc an am d a b nmax) := by
  refine mid_of c rfl rfl ⟨rfl, rfl, rfl, rfl, rfl⟩ ?_
  show (Raw.st _ >>= _) = _
  rw [st_dota (am := am) (nmax := nmax) rfl]
  show (Raw.alpha _ >>= _) = _
  rw [alpha_of (n := an) rfl]
  exact congrArg₂ (fun v n => Except.ok (Instr.dota c v an am d a b n)) (m0_of rfl) (nmax_dota am nmax)

theorem Encoding.valc (c : Ctl) (an : BitVec 4) (d : Reg) (a : Reg) : Encoding.Statement (.valc c an d a) := by
  refine short_of c rfl rfl rfl ⟨rfl, rfl, rfl, rfl, rfl⟩ ?_
  show (Raw.alpha _ >>= _) = _
  rw [alpha_of (n := an) rfl]
  rfl

theorem Encoding.ld (c : Ctl) (t : Ty) (d : Reg) (a : Reg) (off : Off) : Encoding.Statement (.ld c t d a off) := by
  cases off with
  | none =>
    refine short_of c rfl rfl rfl ⟨rfl, rfl, rfl, rfl, rfl⟩ ?_
    show (Raw.ty _ >>= _) = _
    rw [ty_of (t := t) rfl]
    rfl
  | some _ =>
    refine mid_of c rfl rfl ⟨rfl, rfl, rfl, rfl, rfl⟩ ?_
    show (Raw.ty _ >>= _) = _
    rw [ty_of (t := t) rfl]
    rfl

theorem Encoding.st (c : Ctl) (t : Ty) (a : Reg) (b : Reg) (off : Off) : Encoding.Statement (.st c t a b off) := by
  cases off with
  | none =>
    refine short_of c rfl rfl rfl ⟨rfl, rfl, rfl, rfl, rfl⟩ ?_
    show (Raw.ty _ >>= _) = _
    rw [ty_of (t := t) rfl]
    rfl
  | some _ =>
    refine mid_of c rfl rfl ⟨rfl, rfl, rfl, rfl, rfl⟩ ?_
    show (Raw.ty _ >>= _) = _
    rw [ty_of (t := t) rfl]
    rfl

theorem Encoding.ldt (c : Ctl) (t : Ty) (d : Reg) (a : Reg) (b : Reg) : Encoding.Statement (.ldt c t d a b) := by
  refine short_of c rfl rfl rfl ⟨rfl, rfl, rfl, rfl, rfl⟩ ?_
  show (Raw.ty _ >>= _) = _
  rw [ty_of (t := t) rfl]
  rfl

theorem Encoding.stt (c : Ctl) (t : Ty) (a : Reg) (b : Reg) (cc : Reg) : Encoding.Statement (.stt c t a b cc) := by
  refine short_of c rfl rfl rfl ⟨rfl, rfl, rfl, rfl, rfl⟩ ?_
  show (Raw.ty _ >>= _) = _
  rw [ty_of (t := t) rfl]
  rfl

theorem Encoding.ldb (c : Ctl) (t : Ty) (d : Reg) (a : Reg) (off : Off) : Encoding.Statement (.ldb c t d a off) := by
  cases off with
  | none =>
    refine short_of c rfl rfl rfl ⟨rfl, rfl, rfl, rfl, rfl⟩ ?_
    show (Raw.ty _ >>= _) = _
    rw [ty_of (t := t) rfl]
    rfl
  | some _ =>
    refine mid_of c rfl rfl ⟨rfl, rfl, rfl, rfl, rfl⟩ ?_
    show (Raw.ty _ >>= _) = _
    rw [ty_of (t := t) rfl]
    rfl

theorem Encoding.ats (c : Ctl) (ret : Bool) (t : LTy) (op : AtOp) (d : Reg) (a : Reg) (b : Reg) (off : Off) : Encoding.Statement (.ats c ret t op d a b off) := by
  cases off with
  | none =>
    refine short_of c rfl rfl rfl ⟨rfl, rfl, rfl, rfl, rfl⟩ ?_
    show (sub? (LTy.ofCode ((opSub op.code t.code 0).toNat / 16 % 4)) >>= _) = _
    rw [(ats_sub t op).1]
    show (sub? (AtOp.ofCode ((opSub op.code t.code 0).toNat % 16)) >>= _) = _
    rw [(ats_sub t op).2]
    exact congrArg (fun v => Except.ok (Instr.ats c v t op d a b _)) (m0_of rfl)
  | some _ =>
    refine mid_of c rfl rfl ⟨rfl, rfl, rfl, rfl, rfl⟩ ?_
    show (sub? (LTy.ofCode ((opSub op.code t.code 0).toNat / 16 % 4)) >>= _) = _
    rw [(ats_sub t op).1]
    show (sub? (AtOp.ofCode ((opSub op.code t.code 0).toNat % 16)) >>= _) = _
    rw [(ats_sub t op).2]
    exact congrArg (fun v => Except.ok (Instr.ats c v t op d a b _)) (m0_of rfl)

theorem Encoding.trtw (c : Ctl) (a : Reg) (b : Reg) : Encoding.Statement (.trtw c a b) := by
  exact short_of c rfl rfl rfl ⟨rfl, rfl, rfl, rfl, rfl⟩ rfl

theorem Encoding.trtr (c : Ctl) (d : Reg) (a : Reg) : Encoding.Statement (.trtr c d a) := by
  exact short_of c rfl rfl rfl ⟨rfl, rfl, rfl, rfl, rfl⟩ rfl

theorem Encoding.layset (c : Ctl) (fld : LayFld) (d : Reg) (a : Reg) (x1 : Word) : Encoding.Statement (.layset c fld d a x1) := by
  refine mid_of c rfl rfl ⟨rfl, rfl, rfl, rfl, rfl⟩ ?_
  cases fld <;> rfl

theorem Encoding.mxz (c : Ctl) (first : BitVec 12) (count : BitVec 12) : Encoding.Statement (.mxz c first count) := by
  refine mid_of c rfl rfl ⟨rfl, rfl, rfl, rfl, rfl⟩ ?_
  exact congrArg₂ (fun p q => Except.ok (Instr.mxz c p q)) (low_field first count (by decide))
    (high_field first count (by decide))

theorem Encoding.mma (c : Ctl) (ta : BitVec 4) (tb : BitVec 4) (keepb : Bool) (ck : Bool) (d : Reg) (a : Reg) (b : Reg) (cc : Reg) : Encoding.Statement (.mma c ta tb keepb ck d a b cc) := by
  refine short_of c rfl rfl rfl ⟨rfl, rfl, rfl, rfl, rfl⟩ ?_
  have e : ∀ p q r s, p = ta → q = tb → r = keepb → s = ck →
      Except.ok (ε := DecodeError) (Instr.mma c p q r s d a b cc) = .ok (.mma c ta tb keepb ck d a b cc) := by
    rintro _ _ _ _ rfl rfl rfl rfl
    rfl
  exact e _ _ _ _ (mma_ta ta tb) (mma_tb ta tb) (mma_flags keepb ck).1 (mma_flags keepb ck).2

theorem Encoding.mxrd (c : Ctl) (toReg : Bool) (t : Ty) (d : Reg) (first : BitVec 12) (count : BitVec 12) : Encoding.Statement (.mxrd c toReg t d first count) := by
  refine mid_of c rfl rfl ⟨rfl, rfl, rfl, rfl, rfl⟩ ?_
  show (Raw.ty _ >>= _) = _
  rw [ty_of (t := t) rfl]
  show Except.ok (Instr.mxrd c _ t d _ _) = _
  rw [m0_of (b := toReg) rfl]
  exact congrArg₂ (fun p q => Except.ok (Instr.mxrd c toReg t d p q)) (low_field (w := 32) first count (by decide))
    (high_field (w := 32) first count (by decide))

theorem Encoding.mxwr (c : Ctl) (t : Ty) (a : Reg) (first : BitVec 12) (count : BitVec 12) : Encoding.Statement (.mxwr c t a first count) := by
  refine mid_of c rfl rfl ⟨rfl, rfl, rfl, rfl, rfl⟩ ?_
  show (Raw.ty _ >>= _) = _
  rw [ty_of (t := t) rfl]
  exact congrArg₂ (fun p q => Except.ok (Instr.mxwr c t a p q)) (low_field first count (by decide))
    (high_field first count (by decide))

theorem Encoding.mxsc (c : Ctl) (opB : Bool) (kind : MxScale) (a : Reg) (b : Reg) : Encoding.Statement (.mxsc c opB kind a b) := by
  refine short_of c rfl rfl rfl ⟨rfl, rfl, rfl, rfl, rfl⟩ ?_
  show (sub? (MxScale.ofCode ((BitVec.ofNat 8 (opB.toNat + kind.code * 2)).toNat / 2)) >>= _) = _
  rw [(mxsc_sub opB kind).2]
  exact congrArg (fun v => Except.ok (Instr.mxsc c v kind a b)) (mxsc_sub opB kind).1

theorem Encoding.mxck (c : Ctl) (clr : Bool) (d : Reg) : Encoding.Statement (.mxck c clr d) := by
  refine short_of c rfl rfl rfl ⟨rfl, rfl, rfl, rfl, rfl⟩ ?_
  exact congrArg (fun v => Except.ok (Instr.mxck c v d)) (m0_of rfl)

theorem Encoding.mxil (c : Ctl) (t : Ty) (a : Reg) (krows : BitVec 10) : Encoding.Statement (.mxil c t a krows) := by
  refine mid_of c rfl rfl ⟨rfl, rfl, rfl, rfl, rfl⟩ ?_
  show (Raw.ty _ >>= _) = _
  rw [ty_of (t := t) rfl]
  exact congrArg (fun n => Except.ok (Instr.mxil c t a n)) (only_field krows (by decide))

theorem Encoding.cpyq (c : Ctl) (a : Reg) : Encoding.Statement (.cpyq c a) := by
  exact short_of c rfl rfl rfl ⟨rfl, rfl, rfl, rfl, rfl⟩ rfl

theorem Encoding.cpypub (c : Ctl) : Encoding.Statement (.cpypub c) := by
  exact short_of c rfl rfl rfl ⟨rfl, rfl, rfl, rfl, rfl⟩ rfl

theorem Encoding.cseal (c : Ctl) (cls : Cls) : Encoding.Statement (.cseal c cls) := by
  refine short_of c rfl rfl rfl ⟨rfl, rfl, rfl, rfl, rfl⟩ ?_
  cases cls <;> rfl

theorem Encoding.cwait (c : Ctl) (cls : Cls) (n : BitVec 6) : Encoding.Statement (.cwait c cls n) := by
  refine mid_of c rfl rfl ⟨rfl, rfl, rfl, rfl, rfl⟩ ?_
  cases cls <;> exact congrArg (fun n => Except.ok (Instr.cwait c _ n)) (only_field n (by decide))

theorem Encoding.cstat (c : Ctl) (form : StatForm) (cls : Cls) (d : Reg) : Encoding.Statement (.cstat c form cls d) := by
  refine short_of c rfl rfl rfl ⟨rfl, rfl, rfl, rfl, rfl⟩ ?_
  show (sub? (StatForm.ofCode ((BitVec.ofNat 8 (cls.code + form.code * 8)).toNat / 8 % 4)) >>= _) = _
  rw [(cstat_sub form cls).1]
  show (sub? (Cls.ofCode ((BitVec.ofNat 8 (cls.code + form.code * 8)).toNat % 8)) >>= _) = _
  rw [(cstat_sub form cls).2]
  rfl

theorem Encoding.gath (c : Ctl) (t : Ty) (d : Reg) (a : Reg) (x : GathX) : Encoding.Statement (.gath c t d a x) := by
  refine mid_of c rfl rfl ⟨rfl, rfl, rfl, rfl, rfl⟩ ?_
  show (Raw.ty _ >>= _) = _
  rw [ty_of (t := t) rfl]
  exact congrArg (fun x => Except.ok (Instr.gath c t d a x)) (gath_back x)

theorem Encoding.scat (c : Ctl) (t : Ty) (a : Reg) (b : Reg) (x : GathX) : Encoding.Statement (.scat c t a b x) := by
  refine mid_of c rfl rfl ⟨rfl, rfl, rfl, rfl, rfl⟩ ?_
  show (Raw.ty _ >>= _) = _
  rw [ty_of (t := t) rfl]
  exact congrArg (fun x => Except.ok (Instr.scat c t a b x)) (gath_back x)

theorem Encoding.hgcfg (c : Ctl) (a : Reg) (slot : BitVec 4) : Encoding.Statement (.hgcfg c a slot) := by
  refine mid_of c rfl rfl ⟨rfl, rfl, rfl, rfl, rfl⟩ ?_
  exact congrArg (fun n => Except.ok (Instr.hgcfg c a n)) (only_field slot (by decide))

theorem Encoding.hgld (c : Ctl) (d : Reg) (a : Reg) (x : SmkX) : Encoding.Statement (.hgld c d a x) := by
  refine mid_of c rfl rfl ⟨rfl, rfl, rfl, rfl, rfl⟩ ?_
  exact congrArg (fun x => Except.ok (Instr.hgld c d a x)) (smk_back x)

theorem Encoding.hgsc (c : Ctl) (a : Reg) (b : Reg) (x : SmkX) : Encoding.Statement (.hgsc c a b x) := by
  refine mid_of c rfl rfl ⟨rfl, rfl, rfl, rfl, rfl⟩ ?_
  exact congrArg (fun x => Except.ok (Instr.hgsc c a b x)) (smk_back x)

theorem Encoding.hgfold (c : Ctl) (zero : Bool) (a : Reg) (x : SmkX) : Encoding.Statement (.hgfold c zero a x) := by
  refine mid_of c rfl rfl ⟨rfl, rfl, rfl, rfl, rfl⟩ ?_
  exact congrArg₂ (fun v x => Except.ok (Instr.hgfold c v a x)) (m0_of rfl) (smk_back x)

theorem Encoding.hgidx (c : Ctl) (d : Reg) (a : Reg) (slot : BitVec 4) (level : BitVec 5) (corner : BitVec 8) : Encoding.Statement (.hgidx c d a slot level corner) := by
  refine mid_of c rfl rfl ⟨rfl, rfl, rfl, rfl, rfl⟩ ?_
  have e : ∀ p q r, p = slot → q = level → r = corner →
      Except.ok (ε := DecodeError) (Instr.hgidx c d a p q r) = .ok (.hgidx c d a slot level corner) := by
    rintro _ _ _ rfl rfl rfl
    rfl
  obtain ⟨h1, h2, h3⟩ := hgidx_back slot level corner
  exact e _ _ _ h1 h2 h3

theorem Encoding.atom (c : Ctl) (form : AtForm) (t : LTy) (op : AtOp) (scope : BitVec 3) (ret : Bool) (d : Reg) (a : Reg) (b : Reg) (cc : Reg) : Encoding.Statement (.atom c form t op scope ret d a b cc) := by
  refine short_of c rfl rfl rfl ⟨rfl, rfl, rfl, rfl, rfl⟩ ?_
  obtain ⟨h1, h2⟩ := mod_back scope ret
  obtain ⟨k1, k2, k3⟩ := atom_sub form t op
  show (sub? (AtForm.ofCode ((opSub op.code t.code form.code).toNat / 64)) >>= _) = _
  rw [k1]
  show (sub? (LTy.ofCode ((opSub op.code t.code form.code).toNat / 16 % 4)) >>= _) = _
  rw [k2]
  show (sub? (AtOp.ofCode ((opSub op.code t.code form.code).toNat % 16)) >>= _) = _
  rw [k3]
  exact congrArg₂ (fun p q => Except.ok (Instr.atom c form t op p q d a b cc)) h1 h2

theorem Encoding.atoms (c : Ctl) (form : AtForm) (t : STy) (op : AtOp) (scope : BitVec 3) (ret : Bool) (a : Reg) (b : Reg) (off : Off) : Encoding.Statement (.atoms c form t op scope ret a b off) := by
  cases off with
  | none =>
    refine short_of c rfl rfl rfl ⟨rfl, rfl, rfl, rfl, rfl⟩ ?_
    obtain ⟨h1, h2⟩ := mod_back scope ret
    obtain ⟨k1, k2, k3⟩ := atoms_sub form t op
    show (sub? (AtForm.ofCode ((opSub op.code t.code form.code).toNat / 64)) >>= _) = _
    rw [k1]
    show (sub? (STy.ofCode ((opSub op.code t.code form.code).toNat / 16 % 4)) >>= _) = _
    rw [k2]
    show (sub? (AtOp.ofCode ((opSub op.code t.code form.code).toNat % 16)) >>= _) = _
    rw [k3]
    exact congrArg₂ (fun p q => Except.ok (Instr.atoms c form t op p q a b _)) h1 h2
  | some _ =>
    refine mid_of c rfl rfl ⟨rfl, rfl, rfl, rfl, rfl⟩ ?_
    obtain ⟨h1, h2⟩ := mod_back scope ret
    obtain ⟨k1, k2, k3⟩ := atoms_sub form t op
    show (sub? (AtForm.ofCode ((opSub op.code t.code form.code).toNat / 64)) >>= _) = _
    rw [k1]
    show (sub? (STy.ofCode ((opSub op.code t.code form.code).toNat / 16 % 4)) >>= _) = _
    rw [k2]
    show (sub? (AtOp.ofCode ((opSub op.code t.code form.code).toNat % 16)) >>= _) = _
    rw [k3]
    exact congrArg₂ (fun p q => Except.ok (Instr.atoms c form t op p q a b _)) h1 h2

theorem Encoding.join (c : Ctl) (slot : BitVec 4) : Encoding.Statement (.join c slot) := by
  refine mid_of c rfl rfl ⟨rfl, rfl, rfl, rfl, rfl⟩ ?_
  exact congrArg (fun n => Except.ok (Instr.join c n)) (only_field slot (by decide))

theorem Encoding.leave (c : Ctl) (slot : BitVec 4) : Encoding.Statement (.leave c slot) := by
  refine mid_of c rfl rfl ⟨rfl, rfl, rfl, rfl, rfl⟩ ?_
  exact congrArg (fun n => Except.ok (Instr.leave c n)) (only_field slot (by decide))

theorem Encoding.seambar (c : Ctl) (slot : BitVec 4) : Encoding.Statement (.seambar c slot) := by
  refine mid_of c rfl rfl ⟨rfl, rfl, rfl, rfl, rfl⟩ ?_
  exact congrArg (fun n => Except.ok (Instr.seambar c n)) (only_field slot (by decide))

theorem Encoding.barw (c : Ctl) (b : BitVec 4) (n : BitVec 6) : Encoding.Statement (.barw c b n) := by
  refine mid_of c rfl rfl ⟨rfl, rfl, rfl, rfl, rfl⟩ ?_
  exact congrArg₂ (fun p q => Except.ok (Instr.barw c p q)) (low_field b n (by decide)) (high_field b n (by decide))

theorem Encoding.slvinit (c : Ctl) (n : BitVec 4) (a : Reg) : Encoding.Statement (.slvinit c n a) := by
  refine mid_of c rfl rfl ⟨rfl, rfl, rfl, rfl, rfl⟩ ?_
  exact congrArg (fun n => Except.ok (Instr.slvinit c n a)) (only_field n (by decide))

theorem Encoding.slvpush (c : Ctl) (n : BitVec 4) (a : Reg) : Encoding.Statement (.slvpush c n a) := by
  refine mid_of c rfl rfl ⟨rfl, rfl, rfl, rfl, rfl⟩ ?_
  exact congrArg (fun n => Except.ok (Instr.slvpush c n a)) (only_field n (by decide))

theorem Encoding.slvpop (c : Ctl) (n : BitVec 4) (d : Reg) : Encoding.Statement (.slvpop c n d) := by
  refine mid_of c rfl rfl ⟨rfl, rfl, rfl, rfl, rfl⟩ ?_
  exact congrArg (fun n => Except.ok (Instr.slvpop c n d)) (only_field n (by decide))

theorem Encoding.slvtry (c : Ctl) (n : BitVec 4) (d : Reg) : Encoding.Statement (.slvtry c n d) := by
  refine mid_of c rfl rfl ⟨rfl, rfl, rfl, rfl, rfl⟩ ?_
  exact congrArg (fun n => Except.ok (Instr.slvtry c n d)) (only_field n (by decide))

theorem Encoding.slvgrant (c : Ctl) (n : BitVec 4) : Encoding.Statement (.slvgrant c n) := by
  refine mid_of c rfl rfl ⟨rfl, rfl, rfl, rfl, rfl⟩ ?_
  exact congrArg (fun n => Except.ok (Instr.slvgrant c n)) (only_field n (by decide))

theorem Encoding.phaseAcq (c : Ctl) (scope : BitVec 3) : Encoding.Statement (.phaseAcq c scope) := by
  refine short_of c rfl rfl rfl ⟨rfl, rfl, rfl, rfl, rfl⟩ ?_
  have h := phase_sub scope
  show (match (BitVec.ofNat 8 (scope.toNat + 8)).toNat / 8 with
    | 1 => Except.ok (Instr.phaseAcq c _)
    | 2 => Except.ok (Instr.phaseRel c _)
    | 3 => Except.ok (Instr.phaseAr c _)
    | _ => Except.error DecodeError.subValue) = _
  rw [h.1]
  exact congrArg (fun n => Except.ok (Instr.phaseAcq c n)) h.2.2.2.1

theorem Encoding.phaseRel (c : Ctl) (scope : BitVec 3) : Encoding.Statement (.phaseRel c scope) := by
  refine short_of c rfl rfl rfl ⟨rfl, rfl, rfl, rfl, rfl⟩ ?_
  have h := phase_sub scope
  show (match (BitVec.ofNat 8 (scope.toNat + 16)).toNat / 8 with
    | 1 => Except.ok (Instr.phaseAcq c _)
    | 2 => Except.ok (Instr.phaseRel c _)
    | 3 => Except.ok (Instr.phaseAr c _)
    | _ => Except.error DecodeError.subValue) = _
  rw [h.2.1]
  exact congrArg (fun n => Except.ok (Instr.phaseRel c n)) h.2.2.2.2.1

theorem Encoding.phaseAr (c : Ctl) (scope : BitVec 3) : Encoding.Statement (.phaseAr c scope) := by
  refine short_of c rfl rfl rfl ⟨rfl, rfl, rfl, rfl, rfl⟩ ?_
  have h := phase_sub scope
  show (match (BitVec.ofNat 8 (scope.toNat + 24)).toNat / 8 with
    | 1 => Except.ok (Instr.phaseAcq c _)
    | 2 => Except.ok (Instr.phaseRel c _)
    | 3 => Except.ok (Instr.phaseAr c _)
    | _ => Except.error DecodeError.subValue) = _
  rw [h.2.2.1]
  exact congrArg (fun n => Except.ok (Instr.phaseAr c n)) h.2.2.2.2.2

theorem Encoding.fence (c : Ctl) (mask : BitVec 5) : Encoding.Statement (.fence c mask) := by
  refine short_of c rfl rfl rfl ⟨rfl, rfl, rfl, rfl, rfl⟩ ?_
  exact congrArg (fun n => Except.ok (Instr.fence c n)) (only_field mask (by decide))

theorem Encoding.fewait (c : Ctl) (a : Reg) : Encoding.Statement (.fewait c a) := by
  exact short_of c rfl rfl rfl ⟨rfl, rfl, rfl, rfl, rfl⟩ rfl

theorem Encoding.femark (c : Ctl) (st : FeState) (d : Reg) : Encoding.Statement (.femark c st d) := by
  refine short_of c rfl rfl rfl ⟨rfl, rfl, rfl, rfl, rfl⟩ ?_
  cases st <;> rfl

theorem Encoding.rgnLo (c : Ctl) (mask : Word) : Encoding.Statement (.rgnLo c mask) := by
  exact mid_of c rfl rfl ⟨rfl, rfl, rfl, rfl, rfl⟩ rfl

theorem Encoding.rgnHi (c : Ctl) (mask : Word) : Encoding.Statement (.rgnHi c mask) := by
  exact mid_of c rfl rfl ⟨rfl, rfl, rfl, rfl, rfl⟩ rfl

theorem Encoding.spill (c : Ctl) (a : Reg) (slot : BitVec 9) : Encoding.Statement (.spill c a slot) := by
  refine mid_of c rfl rfl ⟨rfl, rfl, rfl, rfl, rfl⟩ ?_
  exact congrArg (fun n => Except.ok (Instr.spill c a n)) (only_field slot (by decide))

theorem Encoding.fill (c : Ctl) (d : Reg) (slot : BitVec 9) : Encoding.Statement (.fill c d slot) := by
  refine mid_of c rfl rfl ⟨rfl, rfl, rfl, rfl, rfl⟩ ?_
  exact congrArg (fun n => Except.ok (Instr.fill c d n)) (only_field slot (by decide))

theorem Encoding.ftag (c : Ctl) (d : Reg) (a : Reg) : Encoding.Statement (.ftag c d a) := by
  exact short_of c rfl rfl rfl ⟨rfl, rfl, rfl, rfl, rfl⟩ rfl

theorem Encoding.ctnopen (c : Ctl) (x1 : Word) : Encoding.Statement (.ctnopen c x1) := by
  exact mid_of c rfl rfl ⟨rfl, rfl, rfl, rfl, rfl⟩ rfl

theorem Encoding.ctnclose (c : Ctl) : Encoding.Statement (.ctnclose c) := by
  exact short_of c rfl rfl rfl ⟨rfl, rfl, rfl, rfl, rfl⟩ rfl

theorem Encoding.ctnraise (c : Ctl) (code : BitVec 8) : Encoding.Statement (.ctnraise c code) := by
  refine mid_of c rfl rfl ⟨rfl, rfl, rfl, rfl, rfl⟩ ?_
  exact congrArg (fun n => Except.ok (Instr.ctnraise c n)) (only_field code (by decide))

theorem Encoding.tidset (c : Ctl) (id : BitVec 12) : Encoding.Statement (.tidset c id) := by
  refine mid_of c rfl rfl ⟨rfl, rfl, rfl, rfl, rfl⟩ ?_
  exact congrArg (fun n => Except.ok (Instr.tidset c n)) (only_field id (by decide))

theorem Encoding.stagingComplete (pid : Nat) : Encoding.Statement (.stagingComplete pid) :=
  event_of rfl

theorem Encoding.hostPortLinkUp (p : Port) : Encoding.Statement (.hostPortLinkUp p) :=
  event_of rfl

theorem Encoding.deviceResetDone : Encoding.Statement .deviceResetDone :=
  event_of rfl

theorem Encoding.coldReset : Encoding.Statement .coldReset :=
  event_of rfl

theorem Encoding.powerSample : Encoding.Statement .powerSample :=
  event_of rfl

theorem Encoding.aclkRaiseTick : Encoding.Statement .aclkRaiseTick :=
  event_of rfl

theorem Encoding.aclkFloorTimeout : Encoding.Statement .aclkFloorTimeout :=
  event_of rfl

theorem Encoding.thermalSample : Encoding.Statement .thermalSample :=
  event_of rfl

theorem Encoding.stackLoss : Encoding.Statement .stackLoss :=
  event_of rfl

theorem Encoding.invalidateDone : Encoding.Statement .invalidateDone :=
  event_of rfl

theorem Encoding.mgFrLostClear : Encoding.Statement .mgFrLostClear :=
  event_of rfl

theorem Encoding.healthRefresh : Encoding.Statement .healthRefresh :=
  event_of rfl

theorem Encoding.attestationDone : Encoding.Statement .attestationDone :=
  event_of rfl

theorem Encoding.unassignedEncoding : Encoding.Statement .unassignedEncoding :=
  event_of rfl

end Sys2Proof.Laws
end

