-- ==== Sys2Proof/Laws/Seals.lean ====
section
/-! SUPPORT. What a fence and a release do with the batches of their classes: they seal each class once, in ascending order, wait
for a batch that is outstanding, and go on when the batches that they sealed are complete (09 R158, R166, 22 R355). -/

namespace Sys2Proof.Machine

open Sys2Proof

/-! ## One seal -/

/-- A seal moves the open batch of its class to the sealed ones, and settles them. -/
theorem seal_gang {s : State} {pid gi : Nat} {c : Cls} {g : Gang} (h : getGang s pid gi = some g) :
    ∃ g', getGang (sealClass s pid gi c) pid gi = some g' ∧
      g'.seals = settleSeals [] (g.seals ++ [{ openOf g c with sealedAt := s.now, order := s.nextId }]) ∧
      g'.opens = (g.opens.map fun a => if a.cls == c then batch0 (s.nextId + 1) c else a) ∧
      g'.split = g.split := by
  have := getGang_updGang s pid gi fun g =>
    let b := openOf g c
    settleGang { g with
      seals := g.seals ++ [{ b with sealedAt := s.now, order := s.nextId }]
      opens := g.opens.map fun a => if a.cls == c then batch0 (s.nextId + 1) c else a
      sealedBids := if ((getPanel s pid).map (·.hdr.redundant)).getD false then g.sealedBids ++ [(b.bid, c, s.nextId)] else g.sealedBids }
  rw [h] at this
  exact ⟨_, this, rfl, rfl, rfl⟩

/-- A seal takes two numbers. -/
theorem seal_next (s : State) (pid gi : Nat) (c : Cls) : (sealClass s pid gi c).nextId = s.nextId + 2 := rfl

/-- The batches of a class that are not complete. -/
def cntC (c : Cls) (bs : List Batch) : Nat := (bs.filter fun b => b.cls == c && !b.complete).length

/-- Settling completes batches and opens none. -/
theorem settle_count (c : Cls) : ∀ (bs before : List Batch), cntC c (settleSeals before bs) ≤ cntC c bs
  | [], _ => by simp [settleSeals]
  | b :: bs, before => by
    simp only [settleSeals]
    split
    · have := settle_count c bs before
      simp only [cntC, List.filter_cons] at *
      split <;> simp_all
    · split
      · split
        · have := settle_count c bs before
          simp only [cntC, List.filter_cons] at *
          simp
          split <;> simp_all <;> omega
        · have := settle_count c bs before
          simp only [cntC, List.filter_cons] at *
          split <;> simp_all <;> omega
      · have := settle_count c bs (b :: before)
        simp only [cntC, List.filter_cons] at *
        split <;> simp_all

/-- A seal of one class raises the counter of no other. -/
theorem counter_seal_ne {s : State} {pid gi : Nat} {c d : Cls} {g : Gang} (h : getGang s pid gi = some g) (hd : c ≠ d) :
    ∀ g', getGang (sealClass s pid gi c) pid gi = some g' → counterOf g' d ≤ counterOf g d := by
  intro g' hg
  obtain ⟨g2, h1, h2, -, -⟩ := seal_gang (c := c) h
  rw [hg] at h1; cases h1
  simp only [counterOf, h2]
  refine Nat.le_trans (settle_count d _ _) ?_
  have : (openOf g c).cls = c := by
    unfold openOf
    cases hf : g.opens.find? fun b => b.cls == c with
    | none => rfl
    | some b => simpa using List.find?_some hf
  simp [cntC, List.filter_append, this, hd]

/-- With room in the counters every class is sealed, and its bound is the number after its seal. -/
theorem sealEach_ok (x : Ctx) : ∀ (cs : List Cls) (bounds : List (Nat × Nat)) (s : State) (g : Gang),
    cs.Nodup → (∀ c ∈ cs, ∀ b ∈ bounds, b.1 ≠ clsNo c) → getGang s x.pid x.gi = some g →
    (∀ c ∈ cs, counterOf g c < 63) →
    x.sealEach cs bounds s = .ok (cs.foldl (fun t c => sealClass t x.pid x.gi c) s,
      (cs.mapIdx fun k c => (clsNo c, s.nextId + 2 * (k + 1))).reverse ++ bounds)
  | [], bounds, s, g, _, _, _, _ => by simp [Ctx.sealEach]
  | c :: cs, bounds, s, g, hn, hb, hg, hc => by
    have h1 : (bounds.any fun b => b.1 == clsNo c) = false := by
      simp only [List.any_eq_false, beq_iff_eq]
      exact fun b hbb => hb c (by simp) b hbb
    obtain ⟨g', hg', -, -, -⟩ := seal_gang (c := c) hg
    have h2 := hc c (by simp)
    simp only [Ctx.sealEach, h1, Bool.false_eq_true, if_false, hg, Option.map_some, Option.getD_some, decide_eq_true_eq]
    rw [if_neg (by omega), sealEach_ok x cs _ _ g' (List.nodup_cons.mp hn).2 ?_ hg' ?_]
    · simp only [List.foldl_cons, seal_next, List.mapIdx_cons, List.reverse_cons]
      congr 2
      simp
      congr 2
      funext k d; congr 1; omega
    · intro d hd b hbb
      rcases List.mem_cons.mp hbb with rfl | hbb
      · intro he
        have : c = d := by cases c <;> cases d <;> simp_all [clsNo]
        exact (List.nodup_cons.mp hn).1 (this ▸ hd)
      · exact hb d (by simp [hd]) b hbb
    · intro d hd
      have : c ≠ d := fun he => (List.nodup_cons.mp hn).1 (he ▸ hd)
      exact Nat.lt_of_le_of_lt (counter_seal_ne hg this g' hg') (hc d (by simp [hd]))

/-- A batch with a command to come stays as it is. -/
theorem settle_keeps {b : Batch} (hc : b.complete = false) (hl : 0 < b.left) : ∀ (bs before : List Batch), b ∈ bs →
    b ∈ settleSeals before bs
  | a :: bs, before, h => by
    unfold settleSeals
    rcases List.mem_cons.mp h with rfl | h
    · rw [if_neg (by simp [hc]), if_neg (by simp; omega)]; simp
    · split
      · simp [settle_keeps hc hl bs before h]
      · split
        · split
          · simp [settle_keeps hc hl bs before h]
          · exact settle_keeps hc hl bs before h
        · simp [settle_keeps hc hl bs _ h]

/-- A batch with a command to come stays, through every seal. -/
theorem seals_keep {b : Batch} (hc : b.complete = false) (hl : 0 < b.left) (pid gi : Nat) : ∀ (cs : List Cls) (s : State)
    (g : Gang), getGang s pid gi = some g → b ∈ g.seals →
    ∃ g', getGang (cs.foldl (fun t c => sealClass t pid gi c) s) pid gi = some g' ∧ b ∈ g'.seals
  | [], s, g, hg, hb => ⟨g, hg, hb⟩
  | c :: cs, s, g, hg, hb => by
    obtain ⟨g', h1, h2, -, -⟩ := seal_gang (c := c) hg
    exact seals_keep hc hl pid gi cs _ g' h1 (h2 ▸ settle_keeps hc hl _ _ (by simp [hb]))

/-- The open batch of a class is of that class. -/
theorem openOf_cls (g : Gang) (c : Cls) : (openOf g c).cls = c := by
    unfold openOf
    cases hf : g.opens.find? fun b => b.cls == c with
    | none => rfl
    | some b => simpa using List.find?_some hf

/-- A new open batch of one class leaves that of another. -/
theorem openOf_map_ne {g : Gang} {c d : Cls} (h : c ≠ d) (n : Nat) :
    (((g.opens.map fun a => if a.cls == c then batch0 n c else a).find? fun b => b.cls == d).getD (batch0 0 d)) = openOf g d := by
  unfold openOf
  congr 1
  induction g.opens with
  | nil => rfl
  | cons a as ih =>
    rw [List.map_cons, List.find?_cons, List.find?_cons, ih]
    by_cases ha : a.cls = c
    · have h1 : (a.cls == d) = false := by simpa using fun e => h (ha ▸ e)
      have h2 : ((if a.cls == c then batch0 n c else a).cls == d) = false := by simp [ha, batch0, h]
      rw [h1, h2]
    · rw [if_neg (by simpa using ha)]

/-- The open batch of a class with a command to come is sealed by the fold, with an order below the next number. -/
theorem seals_open {d : Cls} (pid gi : Nat) : ∀ (cs : List Cls) (s : State) (g : Gang),
    getGang s pid gi = some g → cs.Nodup → d ∈ cs → (openOf g d).complete = false → 0 < (openOf g d).left →
    ∃ g' b, getGang (cs.foldl (fun t c => sealClass t pid gi c) s) pid gi = some g' ∧ b ∈ g'.seals ∧ b.cls = d ∧
      b.complete = false ∧ 0 < b.left ∧ ∃ k, cs[k]? = some d ∧ b.order = s.nextId + 2 * k
  | [], _, _, _, _, hd, _, _ => absurd hd (by simp)
  | c :: cs, s, g, hg, hn, hd, hc, hl => by
    obtain ⟨g', h1, h2, h3, -⟩ := seal_gang (c := c) hg
    by_cases e : c = d
    · subst e
      obtain ⟨g2, h4, h5⟩ := seals_keep (b := { openOf g c with sealedAt := s.now, order := s.nextId }) hc hl pid gi cs _ g' h1
        (h2 ▸ settle_keeps (b := { openOf g c with sealedAt := s.now, order := s.nextId }) hc hl _ _
          (List.mem_append_right _ (List.mem_singleton.mpr rfl)))
      exact ⟨g2, _, h4, h5, openOf_cls g c, hc, hl, 0, rfl, rfl⟩
    · have ho : openOf g' d = openOf g d := by
        have := openOf_map_ne (g := g) e (s.nextId + 1)
        unfold openOf at this ⊢
        rw [h3]; exact this
      obtain ⟨g2, b, h4, h5, h6, h7, h8, k, h9, h10⟩ := seals_open pid gi cs _ g' h1 (List.nodup_cons.mp hn).2
        (by rcases List.mem_cons.mp hd with rfl | h
            · exact absurd rfl e
            · exact h) (ho ▸ hc) (ho ▸ hl)
      refine ⟨g2, b, h4, h5, h6, h7, h8, k + 1, by simpa using h9, ?_⟩
      rw [h10, seal_next]; omega

/-- Beginning an instruction takes no number. -/
theorem begin_next (x : Ctx) (s : State) : (x.begin s).nextId = s.nextId := rfl

/-- A mask names each class once. -/
theorem masked_nodup (m : BitVec 5) : (allClasses.filter (inMask m)).Nodup :=
  List.Nodup.filter _ (by decide)

/-! ## A fence or a release that has sealed nothing yet -/

/-- It seals every class of its mask. -/
theorem sealOnce_ok {i : Instr} {s : State} {x : Ctx} (h : ctxOf i s = some x) {m : BitVec 5} (hm : x.sealable m) :
    x.sealOnce m (x.begin s) = .ok (x.sealAll m (x.begin s), sealBounds m (x.begin s).nextId) := by
  obtain ⟨q, hq⟩ := begin_gang h
  unfold Ctx.sealOnce Ctx.sealAll sealBounds
  rw [hm.1, sealEach_ok x _ [] _ _ (masked_nodup m) (by simp) hq]
  · simp
  · intro c hc
    exact (hm.2.2 c (by simpa using (List.mem_filter.mp hc).2)).1

/-- The bound of a class that was sealed. -/
theorem bound_in {m : BitVec 5} {c : Cls} {n k : Nat} (h : (allClasses.filter (inMask m))[k]? = some c) :
    boundOf (sealBounds m n) c = n + 2 * (k + 1) := by
  have key : ∀ b ∈ sealBounds m n, b.1 = clsNo c → b.2 = n + 2 * (k + 1) := by
    intro b hb he
    simp only [sealBounds, List.mem_reverse, List.mem_mapIdx] at hb
    obtain ⟨j, hj, rfl⟩ := hb
    have hjc : (allClasses.filter (inMask m))[j] = c := by
      have : ∀ a b : Cls, clsNo a = clsNo b → a = b := by intro a b; cases a <;> cases b <;> simp [clsNo]
      exact this _ _ he
    have hk : k < (allClasses.filter (inMask m)).length := (List.getElem?_eq_some_iff.mp h).1
    have : j = k := (List.Nodup.getElem_inj_iff (masked_nodup m) (hi := hj) (hj := hk)).mp (by
      rw [hjc]; exact ((List.getElem?_eq_some_iff.mp h).2).symm)
    simp [this]
  unfold boundOf
  cases hf : (sealBounds m n).find? fun b => b.1 == clsNo c with
  | none =>
    exfalso
    rw [List.find?_eq_none] at hf
    have hk := List.getElem?_eq_some_iff.mp h
    apply hf (clsNo c, n + 2 * (k + 1))
    · simp only [sealBounds, List.mem_reverse, List.mem_mapIdx]
      exact ⟨k, hk.1, by rw [hk.2]⟩
    · simp
  | some b =>
    have h2 := List.find?_some hf
    simp at h2
    simp [key b (List.mem_of_find?_eq_some hf) h2]

/-- A batch that was outstanding stands, sealed, below the bound of its class. -/
theorem outstanding_sealed {i : Instr} {s : State} {x : Ctx} (h : ctxOf i s = some x) {m : BitVec 5} (hm : x.sealable m)
    (ho : x.outstanding m s) : ∃ g b, getGang (x.sealAll m (x.begin s)) x.pid x.gi = some g ∧ b ∈ g.seals ∧
      b.complete = false ∧ inMask m b.cls = true ∧ b.order < boundOf (sealBounds m (x.begin s).nextId) b.cls := by
  obtain ⟨q, hq⟩ := begin_gang h
  obtain ⟨c, hc, ho⟩ := ho
  have hin : c ∈ allClasses.filter (inMask m) := List.mem_filter.mpr ⟨by cases c <;> simp [allClasses], hc⟩
  rcases ho with hl | ⟨b, hb, h1, h2, h3, h4⟩
  · obtain ⟨g', b, a1, a2, a3, a4, a5, k, a6, a7⟩ := seals_open (d := c) x.pid x.gi _ _ _ hq (masked_nodup m) hin
      (hm.2.2 c hc).2 hl
    exact ⟨g', b, a1, a2, a4, a3 ▸ hc, by rw [a3, bound_in a6, a7]; omega⟩
  · obtain ⟨g', a1, a2⟩ := seals_keep h2 h3 x.pid x.gi (allClasses.filter (inMask m)) _ _ hq hb
    obtain ⟨k, hk⟩ := List.mem_iff_getElem?.mp hin
    exact ⟨g', b, a1, a2, h2, h1 ▸ hc, by rw [h1, bound_in hk, begin_next]; omega⟩


/-- A release with a batch outstanding seals, keeps its seals and waits. -/
theorem release_parks {i : Instr} {s : State} {x : Ctx} (hx : ctxOf i s = some x) (hm : x.sealable allMask)
    (ho : x.outstanding allMask s) (sys : Bool) (cont : State → Body) :
    x.releaseThen sys cont (x.begin s) = .error (.park (x.keepSeals (sealBounds allMask (x.begin s).nextId) none
      (x.sealAll allMask (x.begin s))) (.release allMask sys)) := by
  obtain ⟨g, b, h1, h2, h3, h4, h5⟩ := outstanding_sealed hx hm ho
  unfold Ctx.releaseThen
  simp only [sealOnce_ok hx hm, Bind.bind, Except.bind, h1, Option.map_some, Option.getD_some, hm.2.1]
  rw [if_pos]
  simp only [releaseBusy, List.any_eq_true]
  exact ⟨b, h2, by rw [h3, h4]; simpa using h5⟩


/-! ## One that has sealed before -/

/-- A class that the instruction has sealed is not sealed again. -/
theorem sealEach_done (x : Ctx) (s : State) : ∀ (cs : List Cls) (bounds : List (Nat × Nat)),
    (∀ c ∈ cs, ∃ b ∈ bounds, b.1 = clsNo c) → x.sealEach cs bounds s = .ok (s, bounds)
  | [], _, _ => rfl
  | c :: cs, bounds, h => by
    obtain ⟨b, h1, h2⟩ := h c (by simp)
    rw [Ctx.sealEach, if_pos (by simp only [List.any_eq_true]; exact ⟨b, h1, by simp [h2]⟩)]
    exact sealEach_done x s cs bounds fun c hc => h c (by simp [hc])


/-- A release whose sealed batches are complete, none of them failed, goes on. -/
theorem release_settled {i : Instr} {s : State} {x : Ctx} (hx : ctxOf i s = some x) {sys : Bool} (hs : x.settled allMask)
    (hd : x.delivered sys s) (cont : State → Body) : x.releaseThen sys cont (x.begin s) = cont (x.begin s) := by
  obtain ⟨q, hq⟩ := begin_gang hx
  unfold Ctx.releaseThen
  simp only [Ctx.sealOnce]
  rw [sealEach_done x _ _ _ fun c hc => hs.1 c (by simpa using (List.mem_filter.mp hc).2)]
  simp only [Bind.bind, Except.bind, hq, Option.map_some, Option.getD_some]
  rw [if_neg]
  · have : x.raiseWaited x.e.sealed (x.begin s) = .ok () := by
      unfold Ctx.raiseWaited
      rw [hq, if_neg]
      simp only [Option.any_some, List.any_eq_true, not_exists, not_and]
      intro c _
      have : failedAmong (releaseWaits x.e.sealed) { x.g with split := modifyAt q x.g.split x.ei } c = none := by
        simp only [failedAmong, List.find?_eq_none, releaseWaits]
        intro b hb h
        simp at h
        have := (hs.2 b hb h.1.1.1).2
        simp [this] at h
      simp [this]
    simp only [this]
    have hp : (x.begin s).links = s.links := rfl
    have hd2 : ¬ ((sys && (x.begin s).links.posted.any fun w => w.pid == some x.pid) = true) := by
      rw [hp]; cases sys
      · simp
      · simp [hd.2 rfl]
    rw [if_neg hd2, hd.1]
    simp
  · simp only [releaseBusy, List.any_eq_true, not_exists]
    rintro b ⟨hb, h⟩
    simp at h
    have := (hs.2 b hb h.2).1
    simp [this] at h
end Sys2Proof.Machine
end

