-- ==== Sys2Proof/Tests/Slice0.lean ====
section
/-! SUPPORT. The model's own tests: words that the specification assembles, instructions that it refuses, worked examples of
its chapters, and for every statement to the provers a state and operands that meet its hypotheses. -/

namespace Sys2Proof.Tests

open Sys2Proof Sys2Proof.Machine

set_option maxRecDepth 100000

/-! ## Decoding: words written out in the chapters -/

/-- The usual control fields: STALL 1, no guard. -/
def c1 : Ctl := ⟨1, false, 0, none⟩
def c2 : Ctl := ⟨2, false, 0, none⟩
def c5 : Ctl := ⟨5, false, 0, none⟩
/-- The same with the guard G (16 R247). -/
def cg (g : BitVec 3) : Ctl := ⟨1, false, 0, some ⟨g, false⟩⟩

theorem test_decode_fadd : decodeTableWord 64 0x008000C1424C11C1 =
    some (.fadd ⟨4, false, 0, some ⟨2, true⟩⟩ .f32 4 5 (.reg 6)) := by decide
theorem test_decode_smovi_short : decodeTableWord 96 0x0000620B00000000050004C6 = some (.smovi c1 10 (.short 0x620B)) := by
  decide
theorem test_decode_smovi_long : decodeTableWord 128 0x0000FF0000000030000000000B0004C7 =
    some (.smovi c1 22 (.long 0xFF0000000030)) := by decide
theorem test_decode_brs : decodeTableWord 128 0x00000000FFFFFFC000080001C000040F = some (.brs c1 .nz 7 0xFFFFFFC0 0) := by
  decide
theorem test_decode_slda : decodeTableWord 96 0x0000000800200001028004E2 = some (.slda c1 false 1 5 4 (some 8)) := by
  decide
theorem test_decode_sdiv : decodeTableWord 64 0x080000A101800491 = some (.sdiv c1 true 3 4 (.reg 5)) := by decide
theorem test_decode_srd : decodeTableWord 96 0x00000010000000000F000456 = some (.srd c1 30 0x010) := by decide
theorem test_decode_cvt : decodeTableWord 96 0x00000110009800008400120A =
    some (.cvt ⟨4, false, 0, none⟩ .f8e4 8 2 .f32 1) := by decide
theorem test_decode_shfx : decodeTableWord 96 0x00000004002000008600068E = some (.shfx c1 .w32 12 2 (.imm 4)) := by decide
theorem test_decode_gshf_dn : decodeTableWord 96 0x000000730000000102801692 = some (.gshf c5 .dn 3 3 5 4) := by decide
theorem test_decode_gshf_x : decodeTableWord 96 0x000000A50000000103000692 = some (.gshf c1 .x 2 5 6 4) := by decide
theorem test_decode_vote : decodeTableWord 64 0x0018000103000695 = some (.vote c1 .count 6 4) := by decide
theorem test_decode_unpk : decodeTableWord 96 0x0000000001000000840006CA = some (.unpk c1 false 0 8 2 0) := by decide
theorem test_decode_ld : decodeTableWord 64 0x0080000242800701 = some (.ld c1 .f32 5 9 none) := by decide
theorem test_decode_st : decodeTableWord 96 0x00000040002000A000000B06 = some (.st c2 .n32 0 5 (some 0x40)) := by decide
theorem test_decode_symst : decodeTableWord 64 0x01004062800006DD = some (.symst c1 false 0 10 3 4) := by decide
theorem test_decode_dota : decodeTableWord 96 0x00000A2101000060820006E2 = some (.dota c1 false 0 1 4 2 3 10) := by decide
theorem test_decode_mma : decodeTableWord 64 0x0001018505000745 = some (.mma c1 0 0 false false 10 20 12 16) := by decide
theorem test_decode_mma_keepb : decodeTableWord 64 0x0CD1018505000745 = some (.mma c1 10 9 true false 10 20 12 16) := by
  decide
theorem test_decode_mxrd : decodeTableWord 96 0x00060000009000000C00074A = some (.mxrd c1 false .b16 24 0 96) := by decide
theorem test_decode_mxsc : decodeTableWord 64 0x005801C000000751 = some (.mxsc c1 true .qa64 0 14) := by decide
theorem test_decode_mxz : decodeTableWord 96 0x001000000000000000000742 = some (.mxz c1 0 256) := by decide
theorem test_decode_cpyq : decodeTableWord 64 0x0000000500000781 = some (.cpyq c1 20) := by decide
theorem test_decode_cpypub : decodeTableWord 64 0x0000000000000785 = some (.cpypub c1) := by decide
theorem test_decode_cseal : decodeTableWord 64 0x0000000000000789 = some (.cseal c1 .copy) := by decide
theorem test_decode_cwait : decodeTableWord 96 0x00000001000000000000078E = some (.cwait c1 .copy 1) := by decide
theorem test_decode_hgcfg : decodeTableWord 96 0x00000000000000014000079E = some (.hgcfg c1 5 0) := by decide
theorem test_decode_hgld : decodeTableWord 96 0x0000020100000001080007A2 = some (.hgld c1 16 4 ⟨1, 0, 1⟩) := by decide
theorem test_decode_hgsc : decodeTableWord 96 0x0000020000000181000807A6 = some (.hgsc (cg 1) 4 12 ⟨0, 0, 1⟩) := by decide
theorem test_decode_hgfold : decodeTableWord 96 0x0000020008000001800007AA = some (.hgfold c1 true 6 ⟨0, 0, 1⟩) := by
  decide
theorem test_decode_atom_ar : decodeTableWord 64 0x3E8162A1CA0C07B1 =
    some (.atom (cg 2) .ar .n32 .add 3 true 20 7 21 22) := by decide
theorem test_decode_atom_plain : decodeTableWord 64 0x088182E1CA0C07B1 =
    some (.atom (cg 2) .plain .n32 .add 0 true 20 7 23 24) := by decide
theorem test_decode_seambar : decodeTableWord 96 0x0000000300100000000007C2 = some (.seambar c1 3) := by decide
theorem test_decode_slvpush : decodeTableWord 96 0x0000000000080001400007CA = some (.slvpush c1 0 5) := by decide
theorem test_decode_phase : decodeTableWord 64 0x00980000000007CD = some (.phaseRel c1 3) := by decide
theorem test_decode_spill : decodeTableWord 96 0x0000000200000002400007E2 = some (.spill c1 9 2) := by decide
theorem test_decode_tidset : decodeTableWord 96 0x0000001100000000000007F2 = some (.tidset c1 17) := by decide
theorem test_decode_ctnclose : decodeTableWord 64 0x00080000000007ED = some (.ctnclose c1) := by decide

/-! ## Words that R245, R248, R251, R254 and R255 refuse -/

theorem test_refused_length_zero : decodeTableWord 64 0x7C4 = none := by decide
theorem test_refused_unassigned_op : decodeTableWord 64 0x65 = none := by decide
theorem test_refused_unassigned_bit : decodeTableWord 64 0x0008000000000001 = none := by decide
theorem test_refused_length : decodeTableWord 64 0x00000000050004C5 = none := by decide
/-- G 9 to 15 name no guard register. -/
theorem test_refused_guard : decodeTableWord 64 0x240001 = none := by decide

/-! ## Ill-formed instructions, one for each check -/

theorem test_illformed_guard : ¬ (Instr.sadd (cg 0) 1 2 (.reg 3)).WellFormed := by decide
theorem test_illformed_fe : ¬ (Instr.vlid ⟨1, false, 1, none⟩ 3).WellFormed := by decide
theorem test_illformed_fe_imm : ¬ (Instr.vadd ⟨1, false, 2, none⟩ .i32 1 2 (.imm 3)).WellFormed := by decide
theorem test_illformed_type : ¬ (Instr.vadd c1 .f32 1 2 (.reg 3)).WellFormed := by decide
theorem test_illformed_offset : ¬ (Instr.bra c1 6).WellFormed := by decide
theorem test_illformed_field : ¬ (Instr.sbfx c1 false 1 2 63 2).WellFormed := by decide
theorem test_illformed_width : ¬ (Instr.vbfx c1 false 1 2 0 0).WellFormed := by decide
theorem test_illformed_part : ¬ (Instr.cvt c1 .f8e4 1 2 .f32 4).WellFormed := by decide
theorem test_illformed_sat : ¬ (Instr.cvti c1 .i8 1 2 .f32 0 true).WellFormed := by decide
theorem test_illformed_op : ¬ (Instr.vreda c1 .f32 .and 1 2).WellFormed := by decide
theorem test_illformed_un : ¬ (Instr.vcmp c1 .i32 .un 1 2 (.reg 3)).WellFormed := by decide
theorem test_illformed_cas : ¬ (Instr.ats c1 false .n32 .cas 0 1 2 none).WellFormed := by decide
theorem test_illformed_dest : ¬ (Instr.ats c1 false .n32 .add 3 1 2 none).WellFormed := by decide
theorem test_illformed_scope : ¬ (Instr.phaseRel c1 6).WellFormed := by decide
theorem test_illformed_plain_scope : ¬ (Instr.atom c1 .plain .n32 .add 1 true 1 2 3 4).WellFormed := by decide
theorem test_illformed_pair : ¬ (Instr.mma c1 5 0 false false 1 2 3 4).WellFormed := by decide
theorem test_illformed_count : ¬ (Instr.mxz c1 0 0).WellFormed := by decide
theorem test_illformed_mxsc : ¬ (Instr.mxsc c1 true .qa64 1 14).WellFormed := by decide
theorem test_illformed_krows : ¬ (Instr.mxil c1 .f8e4 4 129).WellFormed := by decide
theorem test_illformed_row : ¬ (Instr.gath c1 .f32 1 2 ⟨0, true, 1⟩).WellFormed := by decide
theorem test_illformed_rl : ¬ (Instr.gath c1 .n32 1 2 ⟨0, false, 1⟩).WellFormed := by decide
theorem test_illformed_ring : ¬ (Instr.cstat c1 .ring .gather 1).WellFormed := by decide
theorem test_illformed_fence : ¬ (Instr.fence c1 0).WellFormed := by decide
theorem test_illformed_rgn : ¬ (Instr.rgnLo c1 0x1FFFF).WellFormed := by decide
theorem test_illformed_break : ¬ (Instr.breakMask c1 1 62).WellFormed := by decide
theorem test_illformed_perf : ¬ (Instr.perf c1 1 6).WellFormed := by decide

/-! ## States for the witnesses -/

/-- One running gang of a panel on core 0, about to issue; every register holds 0 and is FULL. -/
def world : State := { State.reset.withFetchWord 64 1 with issuer := some ⟨1, 0, 0⟩, agenda := [] }
def worldP (f : Panel → Panel) : State := updPanel world 1 f
def worldG (f : Gang → Gang) : State := updGang world 1 0 f

/-- The gang with a value in every copy of a scalar register. -/
def setAll (n : Nat) (v : DWord) (g : Gang) : Gang := { g with s := vset g.s n (Vector.replicate 8 v) }
/-- The gang with a vector register. -/
def setVec (n : Nat) (f : Nat → Word) (g : Gang) : Gang :=
  { g with v := vset g.v n { vget g.v n vreg0 with lanes := Vector.ofFn fun l : Fin 32 => f l.val } }

/-- The checks of issue, as a Bool. -/
def readyNow (x : Ctx) (i : Instr) : Bool :=
  !crosses x.pc x.len && legal i && !barred x.p.hdr i && !illegalNow x.p x.g x.e i &&
    (rangeTrap x.p.hdr (operandsAt x.p i)).isNone && roleAllows x.g.role (opOf i) &&
    ((vecSources (operandsAt x.p i)).all fun r => (vget x.g.v r.2 vreg0).st == .full ||
      keepsPoison i && (vget x.g.v r.2 vreg0).st == .poison) &&
    (interlockUntil x.p.hdr x.p.clk x.g x.e.slices i (sourceKeys x.ctl (operandsAt x.p i))).isNone &&
    (pocketMisses x.g (vecSources (operandsAt x.p i)) == 0 || x.e.held != 0)

theorem ready_of_now {x : Ctx} {i : Instr} (h : readyNow x i = true) : x.ready i := by
  simp only [readyNow, Bool.and_eq_true, Bool.not_eq_true', Option.isNone_iff_eq_none, List.all_eq_true,
    Bool.or_eq_true, beq_iff_eq, bne_iff_ne, ne_eq] at h
  obtain ⟨⟨⟨⟨⟨⟨⟨⟨h1, h2⟩, h3⟩, h4⟩, h5⟩, h6⟩, h7⟩, h8⟩, h9⟩ := h
  exact ⟨h1, h2, h3, h4, h5, h6, fun r hr => h7 r hr, h8, h9⟩

/-- Instruction `i` is ready in `s`, and the issuing fragment sees what `h` asks for. -/
def meets (i : Instr) (s : State) (h : Ctx → Prop) [DecidablePred h] : Bool :=
  match ctxOf i s with
  | some x => readyNow x i && decide (h x)
  | none => false

/-- The instruction is ready in `s`. -/
def isReady (s : State) (i : Instr) : Bool := meets i s fun _ => True

theorem meets_spec {i : Instr} {s : State} {h : Ctx → Prop} [DecidablePred h] (hm : meets i s h = true) :
    ∃ x, ctxOf i s = some x ∧ x.ready i ∧ h x := by
  unfold meets at hm
  split at hm
  · next x hx =>
    simp only [Bool.and_eq_true, decide_eq_true_eq] at hm
    exact ⟨x, hx, ready_of_now hm.1, hm.2⟩
  · simp at hm

/-! ## Witnesses: scalar and control instructions -/

theorem witness_ScalarArithmetic : ([.sadd c1 1 2 (.reg 3), .ssub c1 1 2 (.imm 3), .smul c1 0 63 (.reg 63),
    .smulh c1 false 1 2 (.reg 3), .smulh c1 true 1 2 (.reg 3), .sdiv c1 false 1 2 (.reg 3), .srem c1 true 1 2 (.reg 3),
    .smin c1 false 1 2 (.reg 3), .smax c1 true 1 2 (.reg 3), .sand c1 1 2 (.reg 3), .sor c1 1 2 (.reg 3),
    .sxor c1 1 2 (.reg 3), .sshl c1 1 2 (.imm 64), .sshr c1 1 2 (.reg 3), .ssra c1 1 2 (.imm 63)] : List Instr).all
    (isReady world) = true := by decide

theorem witness_ScalarMoves : ([.scmp c1 .geu 1 2 (.reg 3), .ssel c1 1 2 3 4, .smov c1 1 2,
    .smovi c1 63 (.short 0x80000000), .smovi c1 1 (.long 0), .sclz c1 1 2, .spopc c1 1 2, .sbfx c1 true 1 2 0 64,
    .sbfx c1 false 1 2 63 1, .sbfi c1 1 2 0 64] : List Instr).all (isReady world) = true := by decide

theorem witness_SpecialRegisters : ([.srd c1 1 0x000, .srd c1 1 0x012, .clk c1 1, .perf c1 1 5, .swr c1 1 0x000,
    .swr c1 1 0x008, .swr c1 1 0x009, .swr c1 1 0x010, .swr c1 1 0x011, .swr c1 1 0x012] : List Instr).all
    (isReady world) = true := by decide

/-- The ring registers take values at the ends of their ranges. -/
theorem witness_ring_base : meets (.swr c1 1 0x020) (worldG (setAll 1 0xFFFE0)) (fun x =>
    x.p.ring.w = x.p.ring.cons ∧ (x.sLow 1).toNat < 2 ^ 20 ∧ (x.sLow 1).toNat % 32 = 0) = true := by decide
theorem witness_ring_base_bad : meets (.swr c1 1 0x020) (worldG (setAll 1 0xFFFFF)) (fun x =>
    x.p.ring.w = x.p.ring.cons ∧ (x.sLow 1).toNat < 2 ^ 20 ∧ (x.sLow 1).toNat % 32 ≠ 0) = true := by decide
theorem witness_ring_size : ([16, 256] : List DWord).all (fun v => meets (.swr c1 1 0x021) (worldG (setAll 1 v)) fun x =>
    x.p.ring.w = x.p.ring.cons ∧ 16 ≤ (x.sLow 1).toNat ∧ (x.sLow 1).toNat ≤ 256) = true := by decide
theorem witness_ring_notify : meets (.swr c1 1 0x022) (worldG (setAll 1 0xFFFF8)) (fun x =>
    x.p.ring.w = x.p.ring.cons ∧ (x.sLow 1).toNat < 2 ^ 20 ∧ (x.sLow 1).toNat % 8 = 0) = true := by decide
theorem witness_ring_busy : meets (.swr c1 1 0x021) (worldP fun p => { p with ring := { p.ring with wix := 1 } })
    (fun x => x.p.ring.w ≠ x.p.ring.cons) = true := by decide

theorem witness_ControlFlow : ([.nop c1 .l64, .nop c1 .l128, .yield c1, .bra c1 0xFFFFFFFC, .brs c1 .z 1 8 0, .brv c1 .nz 1 8 16,
    .call c1 8, .regang c1, .sleep c1 0] : List Instr).all (isReady world) = true := by decide
theorem witness_brx : meets (.brx c1 1 0) (worldG (setAll 1 4)) (fun x => ∀ i ∈ x.slices, (x.s 1 i).toNat % 4 = 0) = true := by
  decide
theorem witness_brx_bad : meets (.brx c1 1 0) (worldG (setAll 1 2)) (fun x => ∃ i ∈ x.slices, (x.s 1 i).toNat % 4 ≠ 0) =
    true := by decide
theorem witness_ret : meets (.ret c1 1) (worldG (setAll 1 8)) (fun x =>
    (∀ i ∈ x.slices, ((x.s 1 i).setWidth 32 : Word) = (x.sLow 1).setWidth 32) ∧
      ((x.sLow 1).setWidth 32 : Word).toNat % 4 = 0) = true := by decide
theorem witness_ret_bad : meets (.ret c1 1) (worldG fun g => { g with s := vset g.s 1 (Vector.ofFn fun i : Fin 8 =>
    BitVec.ofNat 64 (4 * i.val)) })
    (fun x => ∃ i ∈ x.slices, ((x.s 1 i).setWidth 32 : Word) ≠ (x.sLow 1).setWidth 32) = true := by decide
theorem witness_sleep : meets (.sleep c1 0xFFFFF) world (fun _ => (0xFFFFF : BitVec 20) ≠ 0) = true := by decide

/-- A fragment of slices 0 to 3. -/
def half : SplitEntry := { entry0 with valid := true, slices := 0x0F, pc := 64 }
/-- A split table that holds it alone. -/
def halfTable : List SplitEntry := half :: List.replicate 7 entry0
theorem witness_BranchDivides : halfTable[0]? = some half ∧ half.slices ≠ 0 ∧
    half.valid = true ∧ halfTable.length = 8 ∧ half.slices.getLsbD 0 = true ∧ half.slices.getLsbD 3 = true ∧
    (distinct (((List.range 8).filter fun i => half.slices.getLsbD i).map fun i => if i = 0 then 128 else 64)).length ≤
      1 + (halfTable.filter fun e => !e.valid).length ∧
    ((branchTo (fun i => if i = 0 then 128 else 64) 192 0 halfTable).filter (·.valid)).length = 2 := by decide
/-- 07 R123 and its example after R125: slices 0 to 2 keep the entry, the others take the next one, one level down. -/
theorem test_branch_divides : (branchTo (fun i => if i < 3 then 128 else 80) 192 0
    ({ half with slices := 0xFF } :: List.replicate 7 entry0)).map (fun e => (e.valid, e.slices, e.pc, e.levels)) =
    [(true, 0x07, 128, [⟨192, 0xFF⟩]), (true, 0xF8, 80, [⟨192, 0xFF⟩])] ++ List.replicate 6 (false, 0, 0, []) := by decide

/-- A panel of a mode with structured nesting. -/
def nesting (n : BitVec 6) : State :=
  updGang (worldP fun p => { p with hdr := { p.hdr with pm := true } }) 1 0 fun g => { g with nest := Vector.replicate 32 n }
theorem witness_Nesting : ([.ifMask c1 1, .elseMask c1, .endif c1, .breakMask c1 1 61, .contMask c1 1 61, .loop c1] :
    List Instr).all (fun i => meets i (nesting 0) fun x => ∀ l ∈ x.fragLanes, ((nestOp i).map fun f =>
      decide (f x l (x.nestOf l) ≤ 63)) = some true) = true := by decide
theorem witness_nest_ovf : ([.ifMask c1 1, .loop c1] : List Instr).all (fun i => meets i (nesting 63) fun x =>
    ∃ l ∈ x.fragLanes, ((nestOp i).map fun f => decide (63 < f x l (x.nestOf l))) = some true) = true := by decide
theorem witness_endloop : meets (.endloop c1 0xFFFFFFF0) (nesting 1) (fun x => ∃ l ∈ x.fragLanes, x.nestOf l ≤ 1) = true := by
  decide
theorem witness_endloop_done : meets (.endloop c1 0) (nesting 2) (fun x => ∀ l ∈ x.fragLanes, 2 ≤ x.nestOf l) = true := by
  decide

theorem witness_Exit : meets (.exit c1) world (fun x => (x.p.hdr.redundant && x.whole) = false) = true := by decide
theorem witness_exit_drops : ((getPanel world 1).bind fun p => (p.gangs[0]?).bind fun g => (g.split[0]?).map fun e =>
    e.valid) = some true ∧ ((getPanel world 1).map fun p => p.latches.isEmpty) = some true := by decide
/-- Two lanes of slice 0 leave seam 4: M falls. -/
theorem test_exit_seam : ((getPanel (updPanel (worldP fun p => { p with seams := vset p.seams 4 ⟨[(0, 0xFFFFFFFF)], []⟩ }) 1
    (dropSlices 0 0 0x0F)) 1).map fun p => (vget p.seams 4 seam0).m) = some 16 := by decide +kernel
theorem witness_TrapInstructions : ([.trap c1 0, .brk c1 255] : List Instr).all (isReady world) = true := by decide
theorem witness_unassigned : (ctxOf .unassignedEncoding world).isSome = true := by decide

/-- A panel with a trap handler. -/
def handled : State := worldP fun p => { p with hdr := { p.hdr with handler := 128 } }
theorem witness_TrapEntry : ((getPanel handled 1).bind fun p => (getGang handled 1 0).map fun g => (g.split[0]?).isSome &&
    !g.handler && p.hdr.handler != 0) = some true := by decide
theorem witness_trap_kills : ((getPanel world 1).bind fun p => (getGang world 1 0).map fun g => (g.split[0]?).isSome &&
    p.hdr.handler == 0 && g.regions.isEmpty) = some true := by decide

/-- A gang in its handler, which slices 0 to 7 entered. -/
def inHandler : Gang → Gang := fun g => { g with handler := true, hslices := 0xFF, tpc := 64 }
theorem witness_TrapReturn : isReady (worldG inHandler) (.rett c1) = true := by decide
theorem witness_rett_flag : ((ctxOf (.rett c1) world).map fun x => !crosses x.pc x.len && !x.g.handler) = some true := by
  decide
theorem witness_rett_slices : ((ctxOf (.rett c1) (worldG fun g => { inHandler g with split := halfTable })).map fun x =>
    !crosses x.pc x.len && x.g.hslices.getLsbD 7 && !x.g.exited.getLsbD 7 && !x.e.slices.getLsbD 7) = some true := by decide

/-- IssueChecks: each check in turn is the first that fails. -/
theorem witness_crosses : ((ctxOf (.nop c1 .l128) (worldG fun g => { g with split := g.split.map fun e =>
    { e with pc := 84 } })).map fun x => crosses x.pc x.len) = some true := by decide
theorem witness_illegal : ((ctxOf (.elseMask c1) world).map fun x => !crosses x.pc x.len &&
    !(legal (.elseMask c1) && !barred x.p.hdr (.elseMask c1) && !illegalNow x.p x.g x.e (.elseMask c1))) = some true := by
  decide
/-- The panel's registers end at v63. -/
def halfFile : State := worldP fun p => { p with hdr := { p.hdr with vregs := 64 } }
theorem witness_range : ((ctxOf (.vmov c1 64 0) halfFile).map fun x => !crosses x.pc x.len && legal (.vmov c1 64 0) &&
    (rangeTrap x.p.hdr (operandsAt x.p (.vmov c1 64 0))).isSome) = some true := by decide
theorem witness_role : ((ctxOf (.mxz c1 0 1) (worldG fun g => { g with role := .vec })).map fun x =>
    (rangeTrap x.p.hdr (operandsAt x.p (.mxz c1 0 1))).isNone && !roleAllows x.g.role (opOf (.mxz c1 0 1))) = some true := by
  decide
def poisoned : State := worldG fun g => { g with v := vset g.v 3 { vget g.v 3 vreg0 with st := .poison } }
theorem witness_poison : ((ctxOf (.vmov c1 1 3) poisoned).map fun x => roleAllows x.g.role (opOf (.vmov c1 1 3)) &&
    (vecSources (operandsAt x.p (.vmov c1 1 3))).any (fun r => (vget x.g.v r.2 vreg0).st == .poison) &&
    !keepsPoison (.vmov c1 1 3)) = some true := by decide

/-- An EMPTY source whose FE bit is set, and one whose FE bit is clear. -/
def emptied : State := worldG fun g => { g with v := vset g.v 3 { vget g.v 3 vreg0 with st := .empty } }
theorem witness_reg_empty : ([(⟨1, false, 1, none⟩, true), (c1, false)] : List (Ctl × Bool)).all (fun q =>
    ((ctxOf (.vmov q.1 1 3) emptied).map fun x => !crosses x.pc x.len && legal (.vmov q.1 1 3) &&
      (rangeTrap x.p.hdr (operandsAt x.p (.vmov q.1 1 3))).isNone && roleAllows x.g.role (opOf (.vmov q.1 1 3)) &&
      (vecSources (operandsAt x.p (.vmov q.1 1 3))).any fun r => (vget x.g.v r.2 vreg0).st == .empty &&
        feTraps x.ctl r.1 == q.2) == some true) = true := by decide
/-! ## Witnesses: vector instructions -/

theorem witness_VectorArithmetic : ([.vadd c1 .i8 1 2 (.reg 3), .vsub c1 .n16 1 2 (.imm 3), .vmul c1 .i32 127 2 (.reg 31),
    .vmulh c1 .n8 1 2 (.reg 3), .vmad c1 .i16 1 2 3 4, .vmin c1 .i8 1 2 (.reg 3), .vmax c1 .n32 1 2 (.reg 3),
    .vabs c1 .i8 1 2, .vneg c1 .n8 1 2, .vaddc c1 .n32 1 2 3 4, .vadds c1 .i8 1 2 (.reg 3), .vsubs c1 .n16 1 2 (.reg 3)] :
    List Instr).all (isReady world) = true := by decide
theorem witness_VectorBits : ([.vand c1 1 2 (.reg 3), .vor c1 1 2 (.imm 3), .vxor c1 1 2 (.reg 3), .vnot c1 1 2,
    .vshl c1 .i8 1 2 (.imm 8), .vshr c1 .n16 1 2 (.reg 3), .vsra c1 .i32 1 2 (.imm 31), .vclz c1 .n8 1 2,
    .vpopc c1 .i32 1 2] : List Instr).all (isReady world) = true := by decide
theorem witness_VectorMoves : ([.vbfx c1 true 1 2 0 32, .vbfx c1 false 1 2 31 1, .vbfi c1 1 2 0 32, .vmov c1 1 2,
    .vbcast c1 1 (.reg 2), .vbcast c1 1 (.imm 2), .vlid c1 1, .vsel c1 1 2 3 4, .vmask c1 1 2,
    .vcmp c1 .f32 .un 1 2 (.reg 3)] : List Instr).all (isReady world) = true := by decide
theorem witness_FloatArithmetic : ([.fadd c1 .f32 1 2 (.reg 3), .fsub c1 .f16 1 2 (.imm 3), .fmul c1 .b16 1 2 (.reg 3),
    .ffma c1 .f32 1 2 3 4, .fdiv c1 .f32 1 2 (.reg 3), .frcp c1 .f16 1 2, .frsq c1 .f32 1 2, .fsqrt c1 .b16 1 2,
    .fexp2 c1 .f32 1 2, .flog2 c1 .f32 1 2, .ffrac c1 .f32 1 2, .ffloor c1 .f16 1 2, .fscale c1 .f32 1 2 (.reg 3),
    .fmin c1 .f32 1 2 (.reg 3), .fmax c1 .f16 1 2 (.reg 3), .fabs c1 .f32 1 2, .fneg c1 .b16 1 2, .fclass c1 .f32 1 2] :
    List Instr).all (isReady world) = true := by decide
theorem witness_Conversions : ([.cvt c1 .f8e4 1 2 .f32 3, .cvti c1 .i8 1 2 .f32 3 false, .cvti c1 .i8 1 2 .i32 0 true,
    .cvtf c1 .f16 1 2 .n8 1, .cvtbx c1 .bx4 1 2 3 .f32 7 15] : List Instr).all (isReady world) = true := by decide
theorem witness_CrossLane : ([.shfi c1 .w2 1 2 (.reg 3), .shfu c1 .w4 1 2 (.imm 1), .shfd c1 .w8 1 2 (.imm 1),
    .shfx c1 .w32 1 2 (.imm 31), .gshf c1 .up 0 15 1 2, .gshf c1 .bc 2 0 1 2, .gshf c1 .x 3 15 1 2, .vote c1 .ballot 1 2,
    .vreda c1 .f32 .add 1 2, .vscan c1 true .n32 .xor 1 2] : List Instr).all (isReady world) = true := by decide
/-- A gang with no active lane. -/
theorem witness_ActiveLanesOnly : meets (.vote c1 .count 1 2) (worldG fun g => { g with em := 0 }) (fun x => x.act = 0) = true := by
  decide

/-! ## Witnesses: scratchpad -/

/-- The last word of the scratchpad of 966,656 bytes. -/
theorem witness_AddressChecks : ((ctxOf (.nop c1 .l64) world).map fun x => x.p.hdr.size) = some 966656 := by decide
/-- The first slice's address is misaligned, and every address is beyond the scratchpad. -/
theorem witness_address_traps : ([(.sld c1 .i64 1 2 none, 8), (.sst c1 .i64 2 3 none, 8), (.slda c1 true 1 4 2 none, 8),
    (.ldb c1 .f32 1 2 none, 4)] : List (Instr × Nat)).all (fun q =>
      meets q.1 (worldG (setAll 2 2)) (fun x =>
        (x.slices.map (x.sliceAddr 2 none)).find? (fun b => b % (q.2 : Int) != 0) = some 2) &&
      meets q.1 (worldG (setAll 2 0x100000)) fun x => (∀ b ∈ x.slices.map (x.sliceAddr 2 none), b % (q.2 : Int) = 0) ∧
        x.usedSlices = x.slices ∧ (x.slices.map (x.sliceAddr 2 none)).find? (fun b =>
          !decide (0 ≤ b ∧ b + q.2 ≤ (x.p.hdr.size : Int))) = some 0x100000) = true ∧
    ([.ld c1 .n32 1 2 none, .st c1 .n32 2 3 none, .ats c1 false .n32 .add 0 2 3 none] : List Instr).all (fun i =>
      meets i (worldG (setAll 2 2)) (fun x => (x.lanes.map (x.laneAddr 2 none)).find? (fun b => b % (4 : Int) != 0) = some 2) &&
      meets i (worldG (setAll 2 0x100000)) fun x => (∀ b ∈ x.lanes.map (x.laneAddr 2 none), b % (4 : Int) = 0) ∧
        (x.lanes.map (x.laneAddr 2 none)).find? (fun b => !decide (0 ≤ b ∧ b + 4 ≤ (x.p.hdr.size : Int))) =
          some 0x100000) = true := by decide
theorem witness_sld : ([0, 966648] : List DWord).all (fun v => meets (.sld c1 .i64 1 2 none) (worldG (setAll 2 v)) fun x =>
    ∀ k ∈ x.slices, x.sliceAddr 2 none k % (intWidth .i64 : Int) = 0 ∧ 0 ≤ x.sliceAddr 2 none k ∧
      x.sliceAddr 2 none k + intWidth .i64 ≤ x.p.hdr.size) = true := by decide
theorem witness_sst : meets (.sst c1 .n8 2 3 (some 0xFFFFFFFF)) (worldG (setAll 2 966656)) (fun x =>
    ∀ k ∈ x.slices, x.sliceAddr 2 (some 0xFFFFFFFF) k % (intWidth .n8 : Int) = 0 ∧ 0 ≤ x.sliceAddr 2 (some 0xFFFFFFFF) k ∧
      x.sliceAddr 2 (some 0xFFFFFFFF) k + intWidth .n8 ≤ x.p.hdr.size) = true := by decide
theorem witness_slda : meets (.slda c1 true 63 1 2 none) (worldG (setAll 2 966648)) (fun x =>
    ∀ k ∈ x.slices, x.sliceAddr 2 none k % ((8 : Nat) : Int) = 0 ∧ 0 ≤ x.sliceAddr 2 none k ∧
      x.sliceAddr 2 none k + (8 : Nat) ≤ x.p.hdr.size) = true := by decide
/-- No ring, so that no store publishes; and a ring whose notify word lies elsewhere. -/
theorem witness_ringApart : meets (.sst c1 .n8 2 3 none) world (fun x => x.p.ring.size = 0 ∧ x.p.hdr.redundant = false) =
    true := by decide

/-- All lanes at the last words, and from address 0. -/
theorem witness_lanes : ([.ld c1 .f32 1 2 none, .st c1 .n32 2 3 none, .ats c1 true .n32 .cas 1 2 3 none,
    .ats c1 false .f32 .add 0 2 3 none] : List Instr).all (fun i => ([0, 966528] : List DWord).all fun v =>
      meets i (worldG (setAll 2 v)) fun x => ∀ l ∈ x.lanes, x.laneAddr 2 none l % 4 = 0 ∧ 0 ≤ x.laneAddr 2 none l ∧
        x.laneAddr 2 none l + 4 ≤ x.p.hdr.size) = true := by decide
theorem witness_ldb : meets (.ldb c1 .f16 1 2 none) (worldG (setAll 2 966654)) (fun x => ∀ k ∈ x.usedSlices,
    x.sliceAddr 2 none k % (elemBytes x.p.alph .f16 : Int) = 0 ∧ 0 ≤ x.sliceAddr 2 none k ∧
      x.sliceAddr 2 none k + elemBytes x.p.alph .f16 ≤ x.p.hdr.size) = true := by decide
theorem witness_VectorMemory : ∃ x, ctxOf (.ld c1 .f32 1 2 none) world = some x ∧ x.ready (.ld c1 .f32 1 2 none) ∧
    (∀ n, alphaIdx .f32 = some n → (x.alpha n).defd = true) ∧ x.lanesFit 2 none := by
  obtain ⟨x, h1, h2, h3⟩ := meets_spec (i := .ld c1 .f32 1 2 none) (s := world) (h := fun x => ∀ l ∈ x.lanes,
    x.laneAddr 2 none l % 4 = 0 ∧ 0 ≤ x.laneAddr 2 none l ∧ x.laneAddr 2 none l + 4 ≤ x.p.hdr.size) (by decide)
  exact ⟨x, h1, h2, fun n h => by simp [alphaIdx] at h, h3⟩

/-- A layout of N32 elements at the last word of the scratchpad. -/
def layouts : Gang → Gang := fun g => setAll 8 0x040EBFFC (setVec 2 (fun _ => 0) g)
theorem witness_TensorAccess : ([.ldt c1 .n32 1 8 2, .stt c1 .n32 8 2 3] : List Instr).all (fun i =>
    meets i (worldG layouts) fun x => Ty.n32 ≠ .n64 ∧ Ty.n32 ≠ .i64 ∧ alphaIdx .n32 = none ∧
      ∀ l ∈ x.lanes, (x.layout 8 (sliceOf l)).bad = false ∧ Ty.ofCode (x.layout 8 (sliceOf l)).etype = some .n32 ∧
        layAlpha (x.layout 8 (sliceOf l)) = none ∧ x.tensorAddr 8 2 l % elemBytes x.p.alph .n32 = 0 ∧
        x.tensorAddr 8 2 l + elemBytes x.p.alph .n32 ≤ x.p.hdr.size) = true := by decide
theorem witness_TileAndLayout : ([.trtw c1 1 2, .trtr c1 1 2, .layset c1 .adv 1 2 0] : List Instr).all (isReady world) =
    true := by decide

/-! ## Witnesses: alphabets (the registers of chapter 24) -/

/-- a0 ternary, five digits in 8 bits; a1 quinary, five digits in 16 bits; a2 as a0 with
TRAP set; a3 a table of two F8E4 values. -/
def alphabetRegs : List Nat := [0x08440002 * 2 ^ 192, 0x08540004 * 2 ^ 192, 0x0C440002 * 2 ^ 192,
  0x0B400001 * 2 ^ 192 + 0x3830]
def alphabets : State := worldP fun p =>
  { p with alph := Vector.ofFn fun i : Fin 16 => BitVec.ofNat 256 (alphabetRegs.getD i.val 0) }
theorem witness_AlphabetRegisters : meets (.aldef c1 1 2 none) (updSp (worldG (setAll 2 966624)) 1 fun m =>
    m.writeNat 966624 32 (0x00440002 * 2 ^ 192)) (fun x => x.aldefAddr 2 none % 32 = 0 ∧ 0 ≤ x.aldefAddr 2 none ∧
      x.aldefAddr 2 none + 32 ≤ x.p.hdr.size ∧ badAlphabet (BitVec.ofNat 256 (x.p.sp.readNat
        (x.aldefAddr 2 none).toNat 32)) = false) = true := by decide
theorem witness_aldef_bad : meets (.aldef c1 1 2 none) world (fun x => x.aldefAddr 2 none % 32 = 0 ∧
    0 ≤ x.aldefAddr 2 none ∧ x.aldefAddr 2 none + 32 ≤ x.p.hdr.size ∧ badAlphabet (BitVec.ofNat 256 (x.p.sp.readNat
      (x.aldefAddr 2 none).toNat 32)) = true) = true := by decide
theorem witness_alrd : meets (.alrd c1 1 0 3) alphabets (fun x => (x.alpha 0).defd = true) = true := by decide
theorem witness_alrd_bad : meets (.alrd c1 1 15 3) alphabets (fun x => (x.alpha 15).defd = false) = true := by decide

theorem witness_symbols : ([.unpk c1 false 0 8 2 0, .pack c1 true 0 8 2 0, .valc c1 0 8 2, .symx c1 false 0 8 2 4,
    .symi c1 true 0 8 2 4 6] : List Instr).all (fun i => meets i alphabets fun x => (x.alpha 0).defd = true ∧
      (x.alpha 0).trap = false) = true := by decide
theorem witness_symbols_undefined : ([.unpk c1 false 9 8 2 0, .pack c1 true 9 8 2 0, .valc c1 9 8 2, .symx c1 false 9 8 2 4,
    .symi c1 true 9 8 2 4 6] : List Instr).all (fun i => meets i alphabets fun x => (x.alpha 9).defd = false) = true := by
  decide
/-- A container above 3^5 − 1 is invalid, and its register's TRAP bit is set. -/
theorem witness_symbols_trap : meets (.unpk c1 false 2 8 4 0) (updGang alphabets 1 0 (setVec 4 fun _ => 0xF5))
    (fun x => (x.alpha 2).defd = true ∧ (x.alpha 2).trap = true ∧
      (distinct ((x.lanes.filter fun l => decide (0 + l < (x.alpha 2).perReg) &&
        !(x.alpha 2).valid (x.regContainer (x.alpha 2) 4 l ((0 + l) / (x.alpha 2).k))).map fun l =>
          (0 + l) / (x.alpha 2).k)).length ≠ 0) = true := by decide

/-- A layout word of alphabet a0 at address 0 in s4, of a2 in s8. -/
def symbolWords : State := updGang alphabets 1 0 fun g => setAll 4 0x20000000 (setAll 8 0x22000000 g)
theorem witness_SymbolMemory : ([.symld c1 false 0 8 4 2, .symst c1 false 0 4 2 3] : List Instr).all (fun i =>
    meets i symbolWords fun x => (x.alpha 0).defd = true ∧ (x.alpha 0).trap = false ∧
      ∀ l ∈ x.lanes, (x.layout 4 (sliceOf l)).bad = false ∧ (x.layout 4 (sliceOf l)).etype = 0x20 + 0 ∧
        ((x.layout 4 (sliceOf l)).addr x.p.alph (x.v 2 l).toNat 0 0 0) % (x.alpha 0).bytes = 0 ∧
        ((x.layout 4 (sliceOf l)).addr x.p.alph (x.v 2 l).toNat 0 0 0) + (x.alpha 0).bytes ≤ x.p.hdr.size) = true := by
  decide
theorem witness_symst_trap : meets (.symst c1 false 2 8 2 3) (updGang symbolWords 1 0 (setVec 3 fun _ => 7)) (fun x =>
    (x.alpha 2).defd = true ∧ (x.alpha 2).trap = true ∧ x.lostSymbols false 2 2 3 ≠ 0 ∧
      ∀ l ∈ x.lanes, (x.layout 8 (sliceOf l)).bad = false ∧ (x.layout 8 (sliceOf l)).etype = 0x20 + 2 ∧
        ((x.layout 8 (sliceOf l)).addr x.p.alph (x.v 2 l).toNat 0 0 0) % (x.alpha 2).bytes = 0 ∧
        ((x.layout 8 (sliceOf l)).addr x.p.alph (x.v 2 l).toNat 0 0 0) + (x.alpha 2).bytes ≤ x.p.hdr.size) = true := by
  decide
theorem witness_SymbolDot : meets (.dota c1 true 0 1 8 2 3 0) alphabets (fun x => (x.alpha 0).defd = true ∧
    (x.alpha 1).defd = true ∧ ((x.alpha 0).isTable && (x.alpha 0).tfmt || (x.alpha 1).isTable && (x.alpha 1).tfmt) = false ∧
      x.badWords (x.alpha 0) 2 (min (x.alpha 0).perWord (x.alpha 1).perWord) = [] ∧
      x.badWords (x.alpha 1) 3 (min (x.alpha 0).perWord (x.alpha 1).perWord) = []) = true := by decide
theorem witness_dota_float : meets (.dota c1 false 3 1 8 2 3 1) alphabets (fun x => (x.alpha 3).defd = true ∧
    (x.alpha 1).defd = true ∧ (1 : BitVec 8).toNat ≤ min (x.alpha 3).perWord (x.alpha 1).perWord ∧
      ((x.alpha 3).isTable && (x.alpha 3).tfmt || (x.alpha 1).isTable && (x.alpha 1).tfmt) = true ∧
      x.badWords (x.alpha 3) 2 1 = [] ∧ x.badWords (x.alpha 1) 3 1 = []) = true := by decide
theorem witness_dota_long : meets (.dota c1 false 0 1 8 2 3 255) alphabets (fun x => (x.alpha 0).defd = true ∧
    (x.alpha 1).defd = true ∧ min (x.alpha 0).perWord (x.alpha 1).perWord < 255) = true := by decide

/-! ## Witnesses: the matrix engine -/

/-- The four accumulator banks have 128 rows. -/
theorem witness_rows : ([(0, 128), (127, 1)] : List (BitVec 12 × BitVec 12)).all (fun q =>
    meets (.mxz c1 q.1 q.2) world (fun x => q.1.toNat + q.2.toNat ≤ x.p.hdr.rows) &&
      meets (.mxrd c1 true .f32 8 q.1 1) world (fun x => q.1.toNat + 1 ≤ x.p.hdr.rows)) = true := by decide
theorem witness_rows_bad : ([.mxz c1 128 1, .mxrd c1 true .f32 8 128 1] : List Instr).all (fun i =>
    meets i world fun x => ¬ (128 + 1 ≤ x.p.hdr.rows)) = true := by decide
/-- F32 elements of one row at address 0, with stride S1 of 4 bytes for a column: the layout word of chapter 08. -/
def tiles : State := worldG (setAll 4 0x10000000)
theorem witness_Accumulators : ([.mxwr c1 .f32 4 127 1, .mxrd c1 false .f32 4 127 1] : List Instr).all (fun i =>
    meets i tiles fun x => layAlpha (layOf (x.layWords 4)) = none ∧ (layOf (x.layWords 4)).bad = false ∧
      Ty.ofCode (layOf (x.layWords 4)).etype = some .f32 ∧ 127 + 1 ≤ x.p.hdr.rows ∧
      ∀ q ∈ tileAddrs (layOf (x.layWords 4)) x.p.alph 1, q.1 % q.2 = 0 ∧ q.1 + q.2 ≤ x.p.hdr.size) = true := by decide
theorem witness_matrix_controls : ([.mxsc c1 false .bx 1 2, .mxsc c1 true .none 0 0, .mxck c1 true 1] : List Instr).all
    (isReady world) = true := by decide
theorem witness_mxsc_qa : meets (.mxsc c1 true .qa128 0 2) (worldG (setAll 2 4)) (fun x =>
    isQa .qa128 = true → (x.sLow 2).toNat % 4 = 0) = true := by decide
theorem witness_mxsc_bad : meets (.mxsc c1 true .qa32 0 2) (worldG (setAll 2 2)) (fun x =>
    isQa .qa32 = true ∧ (x.sLow 2).toNat % 4 ≠ 0) = true := by decide
/-- F8E4 elements at address 0. -/
def bytesLayout : Gang → Gang := fun g => setAll 12 0x13000000 (setAll 16 0x13000000 g)
theorem witness_mxil : meets (.mxil c1 .f8e4 12 1) (worldG bytesLayout) (fun x =>
    layAlpha (layOf (x.layWords 12)) = none ∧ (layOf (x.layWords 12)).bad = false ∧
      Ty.ofCode (layOf (x.layWords 12)).etype = some .f8e4 ∧
      (1 : BitVec 10).toNat ≤ passK (formatIndex .f8e4) (x.usedAlpha (formatIndex .f8e4) (layOf (x.layWords 12))) ∧
      ∀ q ∈ tileAddrs (layOf (x.layWords 12)) x.p.alph 1 ++
        scaleAddrs (usedScale (formatIndex .f8e4) x.g.mxB) 128 1 (List.range 128),
        q.1 % q.2 = 0 ∧ q.1 + q.2 ≤ x.p.hdr.size) = true := by decide +kernel

/-- B16 elements at address 0, and a gang list in s10. -/
def mmaState (list : DWord) : State :=
  updPanel (worldG fun g => setAll 12 0x12000000 (setAll 16 0x12000000 (setAll 10 list g))) 1 fun p =>
    { p with gangs := p.gangs ++ p.gangs }
def theMma : Instr := .mma c1 5 5 false false 10 20 12 16
/-- Everything that the addresses of an MMA's operands depend on. -/
structure MmaKey where
  a : List Nat
  b : List Nat
  alph : Vector (BitVec 256) 16
  rows : List Nat
  sa : Scale
  sb : Scale
  k : Nat
  size : Nat
deriving DecidableEq, Repr
def mmaKey (x : Ctx) : MmaKey :=
  let y := x.arrival 5 5 20 12 16
  ⟨x.layWords 12, x.layWords 16, x.p.alph, y.rows.map (fun r => r.2.1), y.scaleA, y.scaleB, x.mmaK 5 5 20 12 16,
    x.p.hdr.size⟩
def rangesOk : MmaKey → Bool
  | ⟨a, b, alph, rows, sa, sb, k, size⟩ =>
    (rowAddrs (layOf a) alph k rows ++ tileAddrs (layOf b) alph k ++ scaleAddrs sa k k rows ++
      scaleAddrs sb k k (List.range 128)).all fun q => decide (q.1 % q.2 = 0) && decide (q.1 + q.2 ≤ size)
def key0 : MmaKey := ⟨[0x12000000, 0, 0], [0x12000000, 0, 0], Vector.replicate 16 0, List.replicate 32 0, .none, .none, 64,
  966656⟩
theorem rangesOk_key0 : rangesOk key0 = true := by decide +kernel

/-- What every MMA asks of its operands. -/
def operandsFit (x : Ctx) : Bool :=
  (layAlpha (layOf (x.layWords 12))).isNone && (layAlpha (layOf (x.layWords 16))).isNone &&
    !(layOf (x.layWords 12)).bad && indexIsType 5 (layOf (x.layWords 12)) &&
    !(layOf (x.layWords 16)).bad && indexIsType 5 (layOf (x.layWords 16)) &&
    ((x.arrival 5 5 20 12 16).rows.all fun r => decide (r.2.2 + 1 ≤ x.p.hdr.rows)) && decide (mmaKey x = key0)

theorem mmaFits_of {x : Ctx} (h : operandsFit x = true) : x.mmaFits 5 5 20 12 16 := by
  simp only [operandsFit, Bool.and_eq_true, Option.isNone_iff_eq_none, Bool.not_eq_true', List.all_eq_true,
    decide_eq_true_eq] at h
  obtain ⟨⟨⟨⟨⟨⟨⟨h1, h2⟩, h3⟩, h4⟩, h5⟩, h6⟩, h7⟩, h8⟩ := h
  have h9 : rangesOk (mmaKey x) = true := by rw [h8]; exact rangesOk_key0
  simp only [rangesOk, mmaKey, List.all_eq_true, Bool.and_eq_true, decide_eq_true_eq] at h9
  refine ⟨⟨fun n hn => ?_, h3, h4⟩, ⟨fun n hn => ?_, h5, h6⟩, h7, fun q hq => ⟨(h9 q hq).1, of_decide_eq_true (h9 q hq).2⟩⟩
  · rw [h1] at hn; cases hn
  · rw [h2] at hn; cases hn

theorem witness_MatrixMultiply : meets theMma (mmaState 0) (fun x => operandsFit x = true ∧ x.gangList 10 % 8 = 0) =
    true := by decide
theorem witness_mma_mismatch : meets theMma (mmaState 1) (fun x => operandsFit x = true ∧ x.gangList 10 % 8 = 1) = true := by
  decide

/-- Gangs 0 and 1 are to join: 2 gangs, slots 0 and 1. -/
def joinList : DWord := 2 + 0 * 8 + 1 * 256
def joinsNow (x : Ctx) : Bool :=
  let l := x.latchOf 5 5 false false 10 16
  decide (2 ≤ x.gangList 10 % 8) && decide (x.gangList 10 % 8 ≤ 6) && x.whole &&
    !badList (x.gangList 10) x.gi x.p.gangs.length &&
    ((listGangs (x.gangList 10)).all fun n => (x.p.gangs[n]?).all fun g => !gangExited x.p.hdr g) &&
    decide (l.list = x.gangList 10 ∧ l.layB = x.layWords 16 ∧ l.sub = 85 ∧ l.mod = 0)
theorem joins_of {x : Ctx} (h : joinsNow x = true) : x.joins 5 5 false false 10 16 := by
  simp only [joinsNow, Bool.and_eq_true, Bool.not_eq_true', List.all_eq_true, decide_eq_true_eq] at h
  obtain ⟨⟨⟨⟨⟨h1, h2⟩, h3⟩, h4⟩, h5⟩, h6⟩ := h
  refine ⟨h1, h2, h3, h4, fun n hn g hg => ?_, h6⟩
  have := h5 n hn
  rw [hg] at this
  simpa using this
theorem witness_mma_waits : meets theMma (mmaState joinList) (fun x => operandsFit x = true ∧ joinsNow x = true ∧
    ¬ ((listGangs (x.latched 5 5 false false 10 20 12 16).list).all fun n =>
      (x.latched 5 5 false false 10 20 12 16).arrivals.any fun y => y.gang == n) = true) = true := by decide
/-- The latch once the other gang has arrived. -/
def otherLatch : List Latch :=
  ((ctxOf theMma { mmaState joinList with issuer := some ⟨1, 1, 0⟩ }).map fun x =>
    x.latched 5 5 false false 10 20 12 16).toList
theorem witness_mma_joins : meets theMma (updPanel (mmaState joinList) 1 fun p => { p with latches := otherLatch }) (fun x => operandsFit x = true ∧ joinsNow x = true ∧
    ((listGangs (x.latched 5 5 false false 10 20 12 16).list).all fun n =>
      (x.latched 5 5 false false 10 20 12 16).arrivals.any fun y => y.gang == n) = true) = true := by decide

/-! ## Witnesses: engine commands -/

/-- A ring of 16 entries at address 0, its notify word at 512, with W ahead of CONS by `n`. -/
def ringed (n : Nat) : State := worldP fun p => { p with ring := ⟨0, 16, 512, n, 0, 0⟩ }
def ringCovers (x : Ctx) : Bool := decide (x.p.ring.base.toNat + 32 * x.p.ring.size.toNat ≤ x.p.hdr.size) &&
  decide (x.p.ring.notify.toNat + 8 ≤ x.p.hdr.size)
theorem witness_CopyRing : (meets (.cpyq c1 4) (ringed 15) fun x => ringCovers x = true ∧ x.p.ring.full = false) = true ∧
    (meets (.cpypub c1) (ringed 16) fun x => ringCovers x = true ∧ (x.p.ring.w = x.p.ring.pub → x.p.ring.full = false)) =
      true := by decide
theorem witness_ring_full : (meets (.cpyq ⟨1, false, 1, none⟩ 4) (ringed 16) fun x => ringCovers x = true ∧
      x.p.ring.full = true ∧ feTraps x.ctl fA = true) = true ∧
    (meets (.cpyq c1 4) (ringed 16) fun x => ringCovers x = true ∧ x.p.ring.full = true ∧ feTraps x.ctl fA = false) = true := by
  decide
theorem witness_ring_outside : (meets (.cpyq c1 4) (worldP fun p => { p with ring := ⟨966656, 16, 512, 0, 0, 0⟩ }) fun x =>
    x.p.hdr.size < x.p.ring.base.toNat + 32 * x.p.ring.size.toNat) = true := by decide
/-- An index at CONS + ringsize is accepted, one beyond it is not. -/
theorem witness_Publishing : ((getPanel (ringed 0) 1).map fun p => !p.hdr.redundant && pubAccepts p.ring 16 &&
    !pubAccepts p.ring 17 && pubAccepts p.ring 0) = some true := by decide
/-- A redundant panel whose first entry fills `n` bytes of memory. -/
def publisher (n : Nat) : State := worldP fun p => { p with
  ring := ⟨0, 16, 512, 0, 0, 0⟩, hdr := { p.hdr with redundant := true, holdKib := 5 }
  sp := p.sp.write 0 (natBytes 8 0 ++ natBytes 8 0x1000 ++ natBytes 8 n ++ natBytes 8 3) }
/-- Its need of the hold area fits in 64 entries, or passes them by one. -/
theorem witness_publish_held : ([4096, 4097] : List Nat).map (fun n => (getPanel (publisher n) 1).map fun p =>
    let e := entryFrom (slotWords p.sp (p.ring.slot 0))
    (p.hdr.redundant && pubAccepts p.ring 1 && e.kind != 7 && e.holdNeed p.hdr.size p.alph none != 0,
      decide (e.holdNeed p.hdr.size p.alph none ≤ p.holdFree))) = [some (true, true), some (true, false)] := by decide

/-- An entry of kind 7 in a redundant panel whose descriptor lies on no page. -/
def publisher7 : State := updSp (publisher 64) 1 fun m =>
  m.write 0 (natBytes 8 0x1000 ++ natBytes 8 0 ++ natBytes 8 0 ++ natBytes 8 7)
/-- Its publication waits for a read of the descriptor (13 R227; log entry 19). -/
theorem test_publish_measures : (match (ctxOf (.cpypub c1) publisher7).map fun x => x.publish 1 publisher7 with
    | some (.error (.measure va len)) => some (va, len)
    | _ => none) = some (0x1000, 64) := by decide +kernel

/-- The whole of CPYPUB waits so. -/
theorem witness_publish_waits : ((ctxOf (.cpypub c1) publisher7).map fun x =>
    readyNow x (.cpypub c1) && ringCovers x && !x.p.ring.full && decide (x.p.ring.w = x.p.ring.pub) &&
      match x.stored [(x.p.ring.notify.toNat, 8)] (x.setWix 1 (updSp (x.begin publisher7) x.pid fun m =>
          m.writeNat x.p.ring.notify.toNat 8 1)) with
      | .error (.measure va len) => va == 0x1000 && len == 64
      | _ => false) = some true := by decide +kernel

/-- A batch of class COPY, sealed; 63 of them; and one that has failed. -/
def sealedBatch (n : Nat) : Batch := { batch0 (100 + n) .copy with count := 1, live := [n], order := n }
def manyBatches : State := worldG fun g => { g with seals := (List.range 63).map sealedBatch }
def theFail : Fail := ⟨false, 0x12, 0x1234, 0⟩
def failedBatch : State := worldG fun g => { g with seals :=
  [{ sealedBatch 0 with live := [], complete := true, fail := some theFail }] }
theorem witness_Batches : (meets (.cseal c1 .copy) world fun x => counterOf x.g .copy < 63) = true ∧
    (meets (.cseal c1 .copy) manyBatches fun x => 63 ≤ counterOf x.g .copy) = true ∧
    (meets (.cwait c1 .copy 0) world fun x => counterOf x.g .copy ≤ (0 : BitVec 6).toNat ∧ failedOf x.g .copy = none) =
      true ∧
    (meets (.cwait c1 .copy 62) manyBatches fun x => (62 : BitVec 6).toNat < counterOf x.g .copy) = true := by decide
theorem witness_batch_fails : (meets (.cwait c1 .copy 0) failedBatch fun x =>
      counterOf x.g .copy ≤ (0 : BitVec 6).toNat ∧ (failedOf x.g .copy).bind (·.fail) = some theFail) = true ∧
    (meets (.cstat c1 .raise .copy 1) failedBatch fun x => (failedOf x.g .copy).bind (·.fail) = some theFail) = true := by
  decide
theorem witness_cstat : ([.cstat c1 .cnt .gather 1, .cstat c1 .ring .copy 1] : List Instr).all (isReady world) = true ∧
    (meets (.cstat c1 .raise .copy 1) world fun x => failedOf x.g .copy = none) = true := by decide

theorem witness_GatherScatter : (meets (.gath c1 .n32 8 2 ⟨0, false, 0⟩) world fun x => ∀ l ∈ x.lanes,
      x.gathAddr 2 8 0 (gathWidth .n32) l % gathWidth .n32 = 0) = true ∧
    (meets (.scat c1 .n8 2 8 ⟨0xFFFFF, false, 0⟩) world fun x => (∀ l ∈ x.lanes,
      x.gathAddr 2 8 0xFFFFF (gathWidth .n8) l % gathWidth .n8 = 0) ∧ x.p.hdr.redundant = false) = true := by decide
theorem witness_gath_align : (meets (.gath c1 .n32 8 2 ⟨0, false, 0⟩) (worldG (setAll 2 2)) fun x => x.lanes.find? (fun l =>
    x.gathAddr 2 8 0 (gathWidth .n32) l % gathWidth .n32 != 0) = some 0) = true := by decide
/-- 32 rows of 128 bytes that end with the scratchpad. -/
theorem witness_rows_fit : ([.gath c1 .n8 8 2 ⟨64, true, 2⟩, .scat c1 .n8 2 8 ⟨64, true, 2⟩] : List Instr).all (fun i =>
    meets i (worldG (setAll 3 962560)) fun x => alphaIdx .n8 = none ∧ (x.sLow 3).toNat % 2 ^ 20 % 64 = 0 ∧
      (∀ l ∈ x.lanes, (x.sLow 3).toNat % 2 ^ 20 + 64 * 2 * l + 64 * 2 ≤ x.p.hdr.size) ∧ x.p.hdr.redundant = false) = true := by
  decide

/-- Nothing is outstanding. -/
def nothingOut (x : Ctx) (m : BitVec 5) : Prop :=
  x.e.sealed = [] ∧ x.e.paired = none ∧ ∀ c ∈ allClasses, inMask m c = true →
    (openOf x.g c).left = 0 ∧ (openOf x.g c).fail = none ∧ counterOf x.g c = 0 ∧ failedOf x.g c = none
theorem calm_of {x : Ctx} {m : BitVec 5} (h : nothingOut x m) : x.calm m :=
  ⟨h.1, h.2.1, fun c hc => h.2.2 c (by cases c <;> simp [allClasses]) hc⟩
def calmNow (x : Ctx) (m : BitVec 5) : Bool := x.e.sealed.isEmpty && x.e.paired.isNone && allClasses.all fun c =>
  !inMask m c || decide ((openOf x.g c).left = 0 ∧ (openOf x.g c).fail = none ∧ counterOf x.g c = 0 ∧ failedOf x.g c = none)

theorem witness_Atomics : ([.atom c1 .plain .f32 .add 0 false 0 2 3 4, .atom c1 .acq .n32 .cas 3 true 8 2 3 4] :
    List Instr).all (fun i => meets i world fun x => (∀ y ∈ x.lanes.map (x.laneAtom 8 2 3 4), y.va % 4 = 0) ∧ x.act ≠ 0 ∧
      x.p.hdr.redundant = false) = true := by decide
theorem witness_atom_releases : ([.atom c1 .ar .i32 .max 5 true 8 2 3 4, .atom c1 .rel .n32 .swap 2 true 8 2 3 4] :
    List Instr).all (fun i => meets i world fun x => (∀ y ∈ x.lanes.map (x.laneAtom 8 2 3 4), y.va % 4 = 0) ∧ x.act ≠ 0 ∧
      calmNow x allMask = true ∧ x.p.hdr.redundant = false ∧
      (world.links.posted.any fun w => w.pid == some x.pid) = false) = true := by decide
theorem witness_atom_none : meets (.atom c1 .ar .i32 .add 1 true 8 2 3 4) (worldG fun g => { g with em := 0 }) (fun x =>
    x.act = 0 ∧ calmNow x allMask = true ∧ x.p.hdr.redundant = false) = true := by decide
theorem witness_atoms : ([.atoms c1 .plain .i64 .add 0 false 2 4 none, .atoms c1 .ar .n64 .cas 5 true 2 4 (some 8)] :
    List Instr).all (fun i => meets i (worldG (setAll 6 966648)) fun x => ([none, some 8] : List Off).all (fun off =>
      (addrOf (x.sLow 2) off % (2 ^ 64 : Nat)).toNat % stBytes .i64 == 0) = true ∧
      (x.sLow (4 + 2)).toNat % 2 ^ 20 % stBytes .i64 = 0 ∧ (x.sLow (4 + 2)).toNat % 2 ^ 20 + stBytes .i64 ≤ x.p.hdr.size ∧
      calmNow x allMask = true ∧ x.p.hdr.redundant = false) = true := by decide

/-! ## Witnesses: smock regions -/

/-- One level, two coordinates, two features of F16. -/
def smockCfg : SmockCfg := ⟨2, 2, .f16, 0, 0, [2], [16], [4]⟩
theorem smockCfg_levels : smockCfg.levels = 1 := rfl
def smocks (q : List Nat) (k : Option SmockCfg) : State :=
  worldP fun p => { p with smk := vset p.smk 3 { smock0 with queue := q, cfg := k } }
theorem witness_hgcfg : (meets (.hgcfg c1 2 3) (worldG (setAll 2 0x40000000)) fun x => (x.sLow 2).toNat % 64 = 0) = true ∧
    (meets (.hgcfg c1 2 3) (worldG (setAll 2 0x40000020)) fun x => (x.sLow 2).toNat % 64 ≠ 0) = true := by decide
theorem witness_SmockInstructions : ([.hgld c1 16 4 ⟨3, 0, 0⟩, .hgsc c1 4 16 ⟨3, 0, 0⟩, .hgfold c1 true 2 ⟨3, 0, 0⟩,
    .hgidx c1 8 4 3 0 3] : List Instr).all (fun i => meets i (smocks [] (some smockCfg)) fun x =>
      (x.smock 3).queue = [] ∧ (x.smock 3).cfg = some smockCfg ∧ 0 + 1 ≤ smockCfg.levels ∧ (0 + 1) * smockCfg.f ≤ 32 ∧
        (3 : BitVec 8).toNat < 2 ^ smockCfg.d ∧ x.p.hdr.redundant = false) = true := by decide
theorem witness_smock_pending : ([.hgld c1 16 4 ⟨3, 0, 0⟩, .hgfold c1 false 2 ⟨3, 0, 31⟩] : List Instr).all (fun i =>
    meets i (smocks [7] none) fun x => (x.smock 3).queue ≠ []) = true := by decide
theorem witness_smock_blocks : ([.hgsc c1 4 16 ⟨3, 0, 0⟩, .hgidx c1 8 4 3 0 3] : List Instr).all (fun i =>
    meets i (smocks [7] none) fun x => (x.smock 3).queue ≠ []) = true := by decide
theorem witness_smock_unbound : ([.hgld c1 16 4 ⟨3, 0, 0⟩, .hgsc c1 4 16 ⟨3, 0, 0⟩, .hgfold c1 true 2 ⟨3, 0, 0⟩,
    .hgidx c1 8 4 3 0 3] : List Instr).all (fun i => meets i world fun x => (x.smock 3).queue = [] ∧
      (x.smock 3).cfg = none) = true := by decide
/-- A redundant panel with `n` KiB of hold area in which an HGCFG of slot 3 is still at work. -/
def foldWaits (n : Nat) (q : List Nat) (k : Option SmockCfg) : State := worldP fun p => { p with
  hdr := { p.hdr with redundant := true, holdKib := n }, smk := vset p.smk 3 { smock0 with queue := q, cfg := k } }
theorem witness_fold_pending : meets (.hgfold c1 false 2 ⟨3, 0, 0⟩) (foldWaits 0 [3] none) (fun x =>
    (x.smock 3).queue ≠ [] ∧ x.p.hdr.redundant = true) = true := by decide
theorem witness_fold_full : meets (.hgfold c1 false 2 ⟨3, 0, 0⟩) (foldWaits 0 [] (some smockCfg)) (fun x =>
    (x.smock 3).queue = [] ∧ (x.smock 3).cfg = some smockCfg ∧ 0 + 1 ≤ smockCfg.levels ∧ x.p.hdr.redundant = true ∧
      x.p.holdFree < foldNeed smockCfg (x.sLow 2).toNat 0 1) = true := by decide
/-- 12 R206, 21 R340: on a pending slot a fold issues at once, and takes no entry; at its release it is refused where none is free,
and takes its entry where one is. -/
theorem test_fold_pending :
    ([0, 5] : List Nat).map (fun n => match exec (.hgfold c1 false 2 ⟨3, 0, 0⟩) (foldWaits n [3] none) with
      | .next t =>
        let u := releaseFolds (updPanel t 1 fun p => { p with smk := vset p.smk 3 { smock0 with cfg := some smockCfg } })
        (t.cmds.getLast?).bind fun c => (getPanel t 1).bind fun p => (getPanel u 1).bind fun q => (getCmd u c.id).map fun d =>
          (p.heldCount.length, d.fail.map (·.status), q.heldCount.length)
      | _ => none) = [some (0, some 0x15, 0), some (0, none, 1)] := by decide +kernel

/-- The descriptor of chapter 26: two coordinates, two levels, two features. -/
def smockImage : List Byte := natBytes 8 (1 + 1 * 8 + 0x40000080 + 1 * 2 ^ 57) ++ natBytes 8 0x40000040 ++
  natBytes 8 (0x40010000 + 16 * 2 ^ 57) ++ natBytes 20 (2 + 3 * 32) ++ natBytes 20 0
theorem test_smock_descriptor : parseSmock smockImage (natBytes 4 1 ++ natBytes 4 4) =
    some ⟨2, 2, .f16, 0x40000080, 0x40010000, [2, 3], [16, 16], [1, 4]⟩ := by decide
/-- A resolution of 0 is refused. -/
theorem test_smock_refused : parseSmock smockImage (natBytes 4 1 ++ natBytes 4 0) = none := by decide

/-! ## Witnesses: seams, barriers, sleeves, phases, containment -/

/-- Seam 4 with every lane of gang 0 a member, and `other` lanes of gang 1. -/
def seamed (other : Word) : State :=
  worldP fun p => { p with seams := vset p.seams 4 ⟨[(0, 0xFFFFFFFF), (1, other)], []⟩ }
theorem witness_SeamsAndBarriers : ([.join c1 4, .leave c1 15] : List Instr).all (isReady world) = true ∧
    (meets (.seambar c1 4) (seamed 0) fun x => x.memberLanes 4 ≠ 0 ∧ (x.arrivedAt 4).a = (x.arrivedAt 4).m) = true ∧
    (meets (.seambar c1 4) (seamed 1) fun x => x.memberLanes 4 ≠ 0 ∧ (x.arrivedAt 4).a ≠ (x.arrivedAt 4).m) = true ∧
    (meets (.seambar c1 5) world fun x => x.memberLanes 5 = 0) = true := by decide
def joinedBar (x : Ctx) (b : Nat) (n : Nat) : Barw :=
  ⟨some n, (vget x.p.barw b barw0).waiting ++ [(x.gi, x.e.slices &&& ~~~x.g.exited)]⟩
def barFits (x : Ctx) (b : Nat) (n : Nat) : Prop :=
  1 ≤ n ∧ n ≤ 32 ∧ (vget x.p.barw b barw0).count = none ∧ waitsElsewhere x.p x.gi b = false
theorem witness_barw : (meets (.barw c1 2 1) world fun x => 1 ≤ 1 ∧ 1 ≤ 32 ∧ (vget x.p.barw 2 barw0).count = none ∧
      waitsElsewhere x.p x.gi 2 = false ∧ 1 ≤ arrivals x.p (joinedBar x 2 1) ∧
      gangArrived x.p (joinedBar x 2 1) x.gi = true) = true ∧
    (meets (.barw c1 2 32) world fun x => 1 ≤ 32 ∧ (vget x.p.barw 2 barw0).count = none ∧
      waitsElsewhere x.p x.gi 2 = false ∧ arrivals x.p (joinedBar x 2 32) < 32) = true ∧
    ([.barw c1 2 0, .barw c1 2 33] : List Instr).all (isReady world) = true := by decide
/-- Gang 0 stands divided in two fragments, and gang 1 has arrived at the idle slot 2. -/
def barHalf : State := worldP fun p => { p with
  barw := vset p.barw 2 ⟨none, [(1, 0xFF)]⟩
  gangs := p.gangs.flatMap fun g =>
    let half : BitVec 8 → Option Block → List SplitEntry := fun sl b =>
      (g.split.take 1).map fun e => { e with slices := sl, blk := b }
    [{ g with split := half 0x0F none ++ half 0xF0 none ++ g.split.drop 2 },
     { g with split := half 0xFF (some (.barw 2)) ++ g.split.drop 1 }] }
theorem witness_barw_half : meets (.barw c1 2 1) barHalf (fun x => (vget x.p.barw 2 barw0).count = none ∧
    waitsElsewhere x.p x.gi 2 = false ∧ 1 ≤ arrivals x.p (joinedBar x 2 1) ∧
    gangArrived x.p (joinedBar x 2 1) x.gi = false ∧ gangArrived x.p (joinedBar x 2 1) 1 = true) = true := by decide
theorem witness_trip : ((getPanel (updPanel barHalf 1 fun p => { p with barw := vset p.barw 2 ⟨some 1, [(1, 0xFF)]⟩ }) 1).map fun p =>
    (vget p.barw 2 barw0).count == some 1 && decide (1 ≤ arrivals p (vget p.barw 2 barw0)) &&
      !gangArrived p (vget p.barw 2 barw0) 0 && gangArrived p (vget p.barw 2 barw0) 1) = some true := by decide
/-- 07 R136: the trip releases gang 1, which has arrived; the half of gang 0 waits on at the slot, which is idle again. -/
theorem test_barw_gangs : (match exec (.barw c1 2 1) barHalf with
    | .next t => (getPanel t 1).map fun p => (p.gangs.map fun g => (g.split[0]?).bind (·.blk), (vget p.barw 2 barw0))
    | _ => none) = some ([some (.barw 2), none], ⟨none, [(0, 0x0F)]⟩) := by decide +kernel

/-- Sleeve 3 of two slots at address 64: one handle in it, one push allowed or none. -/
def sleeved (t h g : Nat) : State :=
  updGang (worldP fun p => { p with sleeves := vset p.sleeves 3 ⟨true, 64, 2, t, h, g⟩ }) 1 0 (setAll 2 5)
def sleeveIs (x : Ctx) : Bool := decide ((3 : BitVec 4).toNat < x.p.hdr.nSleeves) && (x.sleeve 3).init
theorem witness_slvinit : ([0x100000 * 31 + 966400, 0] : List DWord).all (fun v =>
    meets (.slvinit c1 15 2) (worldG (setAll 2 v)) fun x => (x.sLow 2).toNat % 2 ^ 20 % 8 = 0 ∧
      (x.sLow 2).toNat % 2 ^ 20 + 8 * ((x.sLow 2).toNat / 2 ^ 20 % 32 + 1) ≤ x.p.hdr.size ∧ 15 < x.p.hdr.nSleeves ∧
      (x.sLow 2).toNat < 2 ^ 25 ∧ (x.sleeve 15).t = (x.sleeve 15).g ∧ someWaits x.p (.sleevePush 15) = false ∧
      someWaits x.p (.sleevePop 15) = false) = true := by decide
theorem witness_Sleeves : (meets (.slvpush c1 3 2) (sleeved 0 0 0) fun x => sleeveIs x = true ∧ (x.sLow 2).msb = false ∧
      0 < (x.sleeve 3).allowance ∧ someWaits x.p (.sleevePush 3) = false) = true ∧
    (meets (.slvpush c1 3 2) (sleeved 2 2 0) fun x => sleeveIs x = true ∧ (x.sLow 2).msb = false ∧
      ¬ 0 < (x.sleeve 3).allowance) = true ∧
    (meets (.slvpop c1 3 8) (sleeved 1 0 0) fun x => sleeveIs x = true ∧ (x.sleeve 3).t ≠ (x.sleeve 3).h ∧
      someWaits x.p (.sleevePop 3) = false) = true ∧
    (meets (.slvpop c1 3 8) (sleeved 1 1 0) fun x => sleeveIs x = true ∧ (x.sleeve 3).t = (x.sleeve 3).h) = true := by decide
theorem witness_slvgrant : (meets (.slvgrant c1 3) (sleeved 1 1 0) fun x => sleeveIs x = true ∧
      (x.sleeve 3).g ≠ (x.sleeve 3).h) = true ∧
    (meets (.slvgrant c1 3) (sleeved 0 0 0) fun x => (x.sleeve 3).g = (x.sleeve 3).h) = true ∧
    (meets (.slvgrant c1 4) world fun x => (x.sleeve 4).init = false) = true ∧
    (meets (.slvtry c1 3 8) (sleeved 0 0 0) fun x => sleeveIs x = true) = true := by decide

theorem witness_Phases : ([.phaseAcq c1 0, .phaseAcq c1 5] : List Instr).all (isReady world) = true ∧
    ([.phaseRel c1 5, .phaseAr c1 1, .fence c1 0x1F] : List Instr).all (fun i => meets i world fun x =>
      calmNow x allMask = true ∧ x.p.hdr.redundant = false ∧
        (world.links.posted.any fun w => w.pid == some x.pid) = false) = true := by decide

/-- A copy of the open batch is outstanding. -/
def busy : State := worldG fun g => { g with opens := g.opens.map fun b => if b.cls == .copy then { b with count := 1, live := [0] }
  else b }
def sealableNow (x : Ctx) (m : BitVec 5) : Bool := x.e.sealed.isEmpty && x.e.paired.isNone && allClasses.all fun c =>
  !inMask m c || decide (counterOf x.g c < 63) && !(openOf x.g c).complete
theorem sealable_of {x : Ctx} {m : BitVec 5} (h : sealableNow x m = true) : x.sealable m := by
  simp only [sealableNow, Bool.and_eq_true, List.isEmpty_iff, Option.isNone_iff_eq_none, List.all_eq_true, Bool.or_eq_true,
    Bool.not_eq_true', decide_eq_true_eq] at h
  refine ⟨h.1.1, h.1.2, fun c hc => ?_⟩
  rcases h.2 c (by cases c <;> decide) with h | h
  · rw [hc] at h; exact absurd h (by decide)
  · exact h
theorem witness_fence_waits : ([.fence c1 1, .phaseRel c1 5, .phaseAr c1 0] : List Instr).all (fun i => meets i busy fun x =>
    sealableNow x allMask = true ∧ inMask 1 .copy = true ∧ inMask allMask .copy = true ∧ 0 < (openOf x.g .copy).left) =
    true := by decide
theorem witness_fence_full : meets (.fence c1 0x1F) manyBatches (fun x => (0x1F : BitVec 5).getLsbD 0 = true ∧
    x.e.sealed = [] ∧ x.e.paired = none ∧ 63 ≤ counterOf x.g .copy) = true := by decide
/-- The fragment has sealed every class, and its batches are complete. -/
def resumed : State := worldG fun g => { g with split := g.split.map fun e => { e with sealed := sealBounds allMask 9 } }
def settledNow (x : Ctx) (m : BitVec 5) : Bool :=
  (allClasses.all fun c => !inMask m c || x.e.sealed.any fun b => b.1 == clsNo c) &&
    x.g.seals.all fun b => !decide (b.order < boundOf x.e.sealed b.cls) || b.complete && b.fail.isNone
theorem settled_of {x : Ctx} {m : BitVec 5} (h : settledNow x m = true) : x.settled m := by
  simp only [settledNow, Bool.and_eq_true, List.all_eq_true, Bool.or_eq_true, Bool.not_eq_true', decide_eq_false_iff_not,
    List.any_eq_true, beq_iff_eq, Option.isNone_iff_eq_none] at h
  refine ⟨fun c hc => ?_, fun b hb ho => ?_⟩
  · rcases h.1 c (by cases c <;> decide) with h | h
    · rw [hc] at h; exact absurd h (by decide)
    · exact h
  · rcases h.2 b hb with h | h
    · exact absurd ho h
    · exact h
theorem witness_fence_resumes : ([.fence c1 0x1F, .phaseRel c1 5, .phaseAr c1 0] : List Instr).all (fun i =>
    meets i resumed fun x => settledNow x allMask = true ∧ (allClasses.all fun c => counterOf x.g c == 0 &&
      (failedOf x.g c).isNone) = true ∧ x.p.hdr.redundant = false ∧
      (resumed.links.posted.any fun w => w.pid == some x.pid) = false) = true := by decide
/-- A batch that the release waits for has failed, and so has one of class GATHER that was sealed later. -/
def resumedFailed : State := updGang resumed 1 0 fun g => { g with seals :=
  [{ sealedBatch 0 with live := [], complete := true, fail := some theFail },
   { sealedBatch 40 with cls := .gather, live := [], complete := true, fail := some theFail }] }
def failedReleaseNow (x : Ctx) : Bool :=
  (allClasses.all fun c => x.e.sealed.any fun b => b.1 == clsNo c) &&
    (x.g.seals.all fun b => !decide (b.order < boundOf x.e.sealed b.cls) || b.complete) &&
    x.g.seals.any fun b => decide (b.order < boundOf x.e.sealed b.cls) && b.fail.isSome
theorem failedRelease_of {x : Ctx} {f : Fail} (h : failedReleaseNow x = true)
    (hf : (failedOf x.g .copy).bind (·.fail) = some f) : x.failedRelease .copy f := by
  simp only [failedReleaseNow, Bool.and_eq_true, List.all_eq_true, Bool.or_eq_true, Bool.not_eq_true', decide_eq_false_iff_not,
    List.any_eq_true, beq_iff_eq, decide_eq_true_eq] at h
  refine ⟨fun c => h.1.1 c (by cases c <;> decide), fun b hb ho => (h.1.2 b hb).resolve_left fun hn => hn ho, ?_, hf,
    fun c hc => absurd hc (by simp [clsNo])⟩
  obtain ⟨b, hb, ho, hs⟩ := h.2
  exact ⟨b, hb, ho, hs⟩
theorem witness_release_fails : ([.phaseRel c1 5, .phaseAr c1 0] : List Instr).all (fun i => meets i resumedFailed fun x =>
    failedReleaseNow x = true ∧ (failedOf x.g .copy).bind (·.fail) = some theFail) = true := by decide
theorem witness_fence_fails : meets (.fence c1 2) resumedFailed (fun x =>
    (allClasses.all fun c => !inMask 2 c || counterOf x.g c == 0 && x.e.sealed.any fun b => b.1 == clsNo c) = true ∧
      inMask 2 .gather = true ∧ (failedOf x.g .gather).bind (·.fail) = some theFail ∧
      (allClasses.all fun c => !inMask 2 c || clsNo .gather ≤ clsNo c) = true) = true := by decide
/-- 09 R158, 21 R336: the release consumes the failure of the batch that was sealed later too. -/
theorem test_release_consumes : (match exec (.phaseRel c1 5) (updPanel resumedFailed 1 fun p =>
      { p with hdr := { p.hdr with handler := 64 } }) with
    | .next t => (getGang t 1 0).map fun g => g.seals.isEmpty
    | _ => none) = some true := by decide
/-- Panel 1 is the primary of a pair, whose partner's gang runs on. -/
def paired (f : SplitEntry → SplitEntry) : State :=
  let s := worldP fun p => { p with hdr := { p.hdr with redundant := true }, partner := some 2, primary := true }
  let t := { s with panels := s.panels ++ s.panels.map fun p => { p with pid := 2, core := 1, partner := some 1, primary := false } }
  updGang t 1 0 fun g => { g with split := g.split.map f }
theorem witness_exit_pairs : meets (.exit c1) (paired id) (fun x => x.p.hdr.redundant = true ∧ x.whole = true ∧
    calmNow x allMask = true ∧ (x.p.partner.bind fun m => (getPanel (paired id) m).bind fun q => (q.gangs[x.gi]?).map fun g =>
      m != x.pid && !gangExited q.hdr g && (pairWaiter g).isNone) = some true) = true := by decide
def matchedPair : State := paired fun e => { e with sealed := sealBounds allMask 9, paired := some none }
theorem witness_exit_matched : meets (.exit c1) matchedPair (fun x => x.p.hdr.redundant = true ∧ x.whole = true ∧
    x.e.paired = some none ∧ settledNow x allMask = true) = true := by decide
/-- The slot of a smock bound, or pending, in each member of a pair. -/
def boundPair (s : State) : State := { s with panels := s.panels.map fun p =>
  { p with hdr := { p.hdr with holdKib := 5 }, smk := vset (vset p.smk 3 { smock0 with cfg := some smockCfg }) 4 { smock0 with queue := [7] } } }
theorem witness_fold_pairs : ([3, 4] : List (BitVec 4)).all (fun n => meets (.hgfold c1 true 2 ⟨n, 0, 0⟩) (boundPair (paired id))
    fun x => ((x.smock n).queue ≠ [] ∨ (x.smock n).queue = [] ∧ (x.smock n).cfg = some smockCfg ∧ 0 + 1 ≤ smockCfg.levels) ∧
      x.p.hdr.redundant = true ∧ calmNow x allMask = true ∧
      (x.p.partner.bind fun m => (getPanel (boundPair (paired id)) m).bind fun q => (q.gangs[x.gi]?).map fun g =>
        m != x.pid && !gangExited q.hdr g && (pairWaiter g).isNone) = some true) = true := by decide
/-- The pair of which the second member comes to its HGFOLD.ZERO, and neither has room for what is held. -/
def fullPair : State :=
  let s := updGang (boundPair (paired id)) 2 0 fun g => { g with split := g.split.map fun e =>
    { e with blk := if e.valid then some .pair else none, sealed := sealBounds allMask 9 } }
  { s with panels := s.panels.map fun p => { p with hdr := { p.hdr with holdKib := 0, handler := 64 } } }
theorem witness_fold_full_pair : meets (.hgfold c1 true 2 ⟨3, 0, 0⟩)
    { matchedPair with panels := (boundPair matchedPair).panels.map fun p => { p with hdr := { p.hdr with holdKib := 0 } } } (fun x =>
    (x.smock 3).queue = [] ∧ (x.smock 3).cfg = some smockCfg ∧ 0 + 1 ≤ smockCfg.levels ∧ x.p.hdr.redundant = true ∧
      x.e.paired = some none ∧ settledNow x allMask = true ∧ x.p.holdFree < foldNeed smockCfg (x.sLow 2).toNat 0 1) =
    true := by decide
/-- 13 R227: HOLD_FULL is taken in both members alike: the match of the second frees the first from its wait, and it traps too. -/
theorem test_fold_full_pair : (match exec (.hgfold c1 true 2 ⟨3, 0, 0⟩) fullPair with
    | .next t => match exec (.hgfold c1 true 2 ⟨3, 0, 0⟩) { t with issuer := some ⟨2, 0, 0⟩ } with
      | .next u => some ([1, 2].map fun pid => ((getGang t pid 0).map (·.handler), (getGang u pid 0).map (·.handler)))
      | _ => none
    | _ => none) = some [(some true, some true), (some false, some true)] := by decide +kernel
theorem witness_fold_matched : meets (.hgfold c1 true 2 ⟨3, 0, 0⟩) (boundPair matchedPair) (fun x =>
    (x.smock 3).queue = [] ∧ (x.smock 3).cfg = some smockCfg ∧ 0 + 1 ≤ smockCfg.levels ∧ x.p.hdr.redundant = true ∧
      x.e.paired = some none ∧ settledNow x allMask = true ∧ foldNeed smockCfg (x.sLow 2).toNat 0 1 ≤ x.p.holdFree) =
    true := by decide

/-- A spill area of 511 slots; a poisoned register; a register whose tag is POIS. -/
def spillState (st : FeState) (tag : BitVec 3) : State :=
  worldG fun g => { g with v := vset g.v 9 { vget g.v 9 vreg0 with st := st, tag := tag } }
theorem witness_RegisterStates : ([.fewait c1 9, .femark c1 .empty 9, .ftag c1 1 9] : List Instr).all (isReady world) = true ∧
    ([.rgnLo c1 0xFFFF, .rgnHi c1 0xFFFF0000] : List Instr).all (fun i => meets i world fun x =>
      ([(0, 0xFFFF), (64, 0xFFFF0000)] : List (Nat × Word)).all (fun q =>
        (setRegs (pairSet q.1 q.2)).all fun r => decide (r < x.p.hdr.vregs)) = true) = true := by decide
theorem witness_spill : (meets (.spill c1 9 510) (spillState .full 0) fun x => (510 : BitVec 9).toNat < x.p.hdr.spillSlots ∧
      (x.vr 9).st ≠ .poison) = true ∧
    (meets (.spill c1 9 0) (spillState .poison 0) fun x => (0 : BitVec 9).toNat < x.p.hdr.spillSlots ∧
      (x.vr 9).st = .poison) = true ∧
    (meets (.fill c1 9 510) (spillState .empty 4) fun x => (510 : BitVec 9).toNat < x.p.hdr.spillSlots ∧
      (x.vr 9).tag ≠ 5) = true ∧
    (meets (.fill c1 9 0) (spillState .full 5) fun x => (0 : BitVec 9).toNat < x.p.hdr.spillSlots ∧ (x.vr 9).tag = 5) =
      true := by decide
theorem witness_SpillThenFill : Memory.wf [] = true := rfl

/-- A gang with `n` open regions. -/
def region0 : Region := ⟨128, 0xFFFFFFFF, Vector.replicate 32 0, copies0, 0, 0⟩
def regioned (n : Nat) : State := worldG fun g => { g with regions := List.replicate n region0 }
theorem witness_Containment : (meets (.ctnopen c1 8) (regioned 3) fun x => x.whole = true ∧ x.g.regions.length < 4) = true ∧
    (meets (.ctnopen c1 8) (regioned 4) fun x => x.whole = true ∧ 4 ≤ x.g.regions.length) = true ∧
    (meets (.ctnclose c1) (regioned 1) fun x => x.whole = true ∧ x.g.regions ≠ []) = true ∧
    (meets (.ctnclose c1) world fun x => x.whole = true ∧ x.g.regions = []) = true ∧
    (meets (.ctnraise c1 255) world fun x => x.whole = true) = true ∧ isReady world (.tidset c1 0xFFF) = true := by decide
theorem witness_ctnopen_part : meets (.ctnopen c1 8) (worldG fun g => { g with split := halfTable }) (fun x =>
    x.whole = false) = true := by decide
theorem witness_ctn_part : ([.ctnclose c1, .ctnraise c1 7] : List Instr).all (fun i =>
    meets i (worldG fun g => { g with split := halfTable }) fun x => x.whole = false) = true := by decide
theorem witness_ctnraise : meets (.ctnraise c1 255) (regioned 2) (fun x => x.whole = true ∧ x.g.handler = false ∧
    x.g.regions = region0 :: [region0] ∧ x.g.seals = []) = true := by decide
/-- An unwinding trap in a region: its open command is cancelled, and a sealed batch is awaited where there is one. -/
def awaited (b : Batch) : Bool := decide (region0.firstSeal ≤ b.order) && b.live.any fun n => decide (region0.firstCmd ≤ n)
def raising (seals : List Batch) : State :=
  let s := updGang (regioned 1) 1 0 fun g => { g with
    seals := seals, v := vset g.v 9 { vget g.v 9 vreg0 with st := .empty, by_ := some (regioned 1).nextId } }
  issueCmd s 1 0 .copy (.rows []) id
theorem witness_begin_unwind : ([[], [sealedBatch 1]] : List (List Batch)).all (fun bs =>
    (getGang (raising bs) 1 0).any fun g => (g.split[0]?).isSome && !g.handler && g.regions == [region0] &&
      g.seals.any awaited == !bs.isEmpty &&
      (raising bs).cmds.any (fun c => decide (region0.firstCmd ≤ c.id) && (vget g.v 9 vreg0).by_ == some c.id &&
        match c.owner with
        | .gangs 1 [(0, b)] => g.opens.any fun o => o.bid == b
        | _ => false)) = true := by decide
def unwinding (seals : List Batch) : Option Gang := (getGang world 1 0).map fun g =>
  { g with unwind := some ⟨cPoisoned, 0, 0, 64, 9, 1, some 9⟩, regions := [region0], seals := seals }
theorem witness_Unwinding : ((unwinding []).map fun g => g.unwind.isSome && g.regions.length == 1 &&
    g.seals.all fun b => !awaited b) = some true := by decide
theorem witness_unwind_waits : ((unwinding [sealedBatch 1]).map fun g => g.unwind.isSome &&
    g.seals.any awaited) = some true := by decide

/-! ## Witnesses: events -/

def reset : State := State.reset
/-- A device reset in progress. -/
def inReset : State := { reset with fs := 5000001, mgmt := { reset.mgmt with resetDone := false } }
theorem witness_HostWrites : portServes reset .a = true ∧ reset.mgmt.resetDone = true ∧ (queueAt reset 255).enable = false ∧
    (0x1000000 : DWord).getLsbD 24 = true ∧ (0x40000000 : DWord).getLsbD 30 = true ∧ (0x80000000 : DWord).getLsbD 31 = true ∧
    (0x100000000 : DWord).getLsbD 32 = true := by decide
theorem witness_declare : hostWriteAhead reset .a = false ∧ hostWriteAhead inReset .a = false ∧
    regAt (0x7FFFF8 / 8 * 8) ≠ some .gusDeclare := by decide
theorem witness_writes_ignored : portServes inReset .b = true ∧ inReset.mgmt.resetDone = false := by decide
/-- A queue that is enabled, running, with one packet to fetch. -/
def running : State := updQueue reset 3 fun q => { q with enable := true, state := .running, tail := 1 }
theorem witness_hqDisable : (queueAt running 3).enable = true ∧ (0 : DWord).getLsbD 24 = false := by decide

theorem witness_HostPorts : portUp reset .b = true ∧ semOwner reset 31 = 0 ∧
    semOwner { reset with sems := vset reset.sems 31 2 } 31 ≠ 0 ∧ regAt 0x7FFFF8 = none := by decide
theorem witness_linkUp : portServes { reset with links := { reset.links with hostUp := Vector.replicate 2 false } } .a =
    false := by decide
/-- The last byte of local memory, and one beyond it. -/
theorem witness_bar2 : localBytes - 1 + 1 ≤ localBytes ∧
    localBytes < ({ reset with links := { reset.links with bar2Base := localBytes } } : State).links.bar2Base + 0 + 1 ∧
    (hostGranules reset (granulesOf 0 4096)).isSome = true := by decide

/-- A read of 64 bytes and a write of `n` bytes at the device's own doing. -/
def reading (da : Nat) : State := newCmd reset (.bar2 .a) noCore .copy (.fetch [(da, 64)]) 0 id
def writing (n : Nat) : State := newCmd reset (.bar2 .a) noCore .copy (.store 0 (List.replicate n 1)) 0 id
theorem witness_MemoryEvents : ((getCmd (reading 64) 0).map fun c => c.fresh (reading 64) 0 == some (.rd 64 64) &&
    c.mayRead (reading 64) && decide (resolve (reading 64) c 64 0 = some (.loc 64 none, none))) = some true := by decide
theorem witness_read_beyond : ((getCmd (reading localBytes) 0).map fun c =>
    c.fresh (reading localBytes) 0 == some (.rd localBytes 64) && decide (localBytes < localBytes + 64)) = some true := by
  decide
theorem witness_write : ((getCmd (writing 64) 0).map fun c => (match c.fresh (writing 64) 0 with
    | some (.wr va len src) => decide (va = 0 ∧ len = 64) && (writeBytes (captureLines (writing 64) 0 (src.lines len)) c va
        len src).any coversGranule
    | _ => false) && !c.begun 0 && !writeFails (writing 64) 0 (placeOf 0).unit && !stripeOpen (writing 64) 0 && !waitsAhead (writing 64) 0 0 0 &&
    decide (logCount (writing 64) 0 < 256) && (stripeRun (writing 64) c 0 0 0).isNone &&
    !serviceFull (writing 64) c (.wr 0 64 (.lit [])) 0) = some true := by decide
theorem witness_merge : ((getCmd (writing 63) 0).map fun c => (match c.fresh (writing 63) 0 with
    | some (.wr va len src) => (writeBytes (captureLines (writing 63) 0 (src.lines len)) c va len src).any fun ws =>
        !coversGranule ws && !serviceFull (writing 63) c (.wr va len src) 0 && (mergeWrite (writing 63) c 0 va 0 none (fun old => mergeInto 0 old ws) (fun _ w => w)).isSome
    | _ => false)) = some true := by decide
/-- Its granule is in the log: STRIPE_WRITE retires it. -/
def opened : State :=
  match exec (.stripeWrite 0 0) (writing 64) with
  | .next t => t
  | _ => reset
theorem witness_retire : ((getCmd opened 0).map fun c => (c.opened.find? fun o => o.1 == 0).any fun o =>
    (entryOf opened c o.2).isSome) = some true := by decide
theorem witness_complete : ((getCmd opened 0).map fun c => !endsElsewhere c && !c.frozen opened && c.fault.isNone &&
    smockTurn opened c && c.fail.isNone && !waitsMirror opened c) = some true := by decide
/-- The retired write may complete. -/
def retired : State :=
  match exec (.stripeWrite 0 0) opened with
  | .next t => t
  | _ => reset
theorem witness_may_complete : ((getCmd retired 0).map fun c => mayComplete retired c && !waitsMirror retired c) =
    some true := by decide
def failedCmd : State := updCmd (writing 64) 0 fun c => { c with fail := some ⟨false, 0x15, 0, 0⟩ }
theorem witness_complete_failed : ((getCmd failedCmd 0).map fun c => !endsElsewhere c && !c.frozen failedCmd &&
    c.fault.isNone && smockTurn failedCmd c && c.fail.isSome && c.opened.isEmpty) = some true := by decide
/-- A granule that is lost is reconstructed. -/
def reconstructing : State := updCmd (reading 64) 0 fun c => { c with recon := [(0, 64, none)] }
theorem witness_reconstruct : ((getCmd reconstructing 0).map fun c => decide (c.recon.find? (fun r => r.1 == 0) =
    some (0, 64, none)) && (piecesOf reconstructing c)[0]? == some (.rd 64 64)) = some true := by decide
/-- An atomic add at the device's own doing. -/
def adding : State := newCmd reset (.bar2 .a) noCore .atomic (.signal 64 true 5) 0 id
theorem witness_service : ((getCmd adding 0).map fun c => (match c.fresh adding 0 with
    | some (.op va len) => opInTurn c 0 && !c.begun 0 && !needsSmock c 0 && !readsPlane c && (opLocal adding c 0 va len 64 none).isSome
    | _ => false)) = some true := by decide
theorem witness_ringConsume : ((getPanel (worldP fun p => { p with ring := ⟨0, 16, 512, 1, 1, 0⟩ }) 1).map fun p =>
    p.life == .running && p.ring.cons != p.ring.pub) = some true := by decide

/-- A command of a panel's address space: it needs translation. -/
def translating : State := newCmd reset (.code 1) 0 .copy (.fetch [(0x10000, 32)]) 5 id
theorem witness_tableWalk : ((getCmd translating 0).map fun c => c.fresh translating 0 == some (.rd 0x10000 32) &&
    !c.physical && (match walkVa translating 5 0x10000 with
      | (.fault f, _) => f == notValid
      | _ => false)) = some true := by decide

/-! ## Witnesses: translation and links -/

/-- Eight bytes at a place of local memory. -/
def put8 (s : State) (da v : Nat) : State := (writeLocal s da (natBytes 8 v)).2
/-- Tables in local memory for ASID 5, with a leaf of level 3 for the page at 0x10000. -/
def tables (leaf : Nat) : State :=
  put8 (put8 (put8 (put8 (put8 { translating with asidBase := 0x100000 } 0x100028 0x20001) 0x20000 0x40001) 0x40000 0x60001)
    0x60000 0x70001) 0x70008 leaf
def leafOf (s : State) : Option (Nat × Nat × DWord) :=
  match walkVa s 5 0x10000 with
  | (.leaf l p e, _) => some (l, p, e)
  | _ => none
theorem witness_leaf : leafOf (tables 0x80007) = some (3, 0x70008, 0x80007) ∧ pteW 0x80007 = true := by decide +kernel
theorem witness_walk_fails : (match walkVa { translating with asidBase := 0x1FFFFFFFFC0000 } 5 0x10000 with
    | (.fail c, _) => c == 0x15
    | _ => false) = true := by decide
theorem witness_page_empty : leafOf (tables 0x80085) = some (3, 0x70008, 0x80085) ∧ pteCmp 0x80085 = true ∧
    poolIsEmpty (tables 0x80085) = true ∧ 65536 + pteAddr 0x80085 ≤ localBytes := by decide +kernel
/-- 02 R47: what is due for an access whose cache holds the leaf of a compressed page is the expansion, not another walk. -/
theorem test_expand_due : ([none, some 3] : List (Option Nat)).map (fun l =>
    let s := l.elim (tables 0x80085) fun n => tlbFill (tables 0x80085) 0 ⟨5, 1, 0x80085, n⟩
    ((getCmd s 0).map fun c => (pieceEvents s c 0).head?)) =
      [some (some (.tableWalk 0 0)), some (some (.pageExpand 0 0))] := by decide +kernel
theorem witness_page_beyond : leafOf (tables 0x16000000085) = some (3, 0x70008, 0x16000000085) ∧
    pteCmp 0x16000000085 = true ∧ localBytes < 65536 + pteAddr 0x16000000085 := by decide +kernel
/-- A pool of two frames in local memory, one of them free. -/
def pooled : State :=
  let s := put8 (tables 0x80085) 0x200000 0x90000
  { s with gus := { s.gus with xpBase := 0x200000, xpSize := 2, xpProd := 1 } }
/-- No stack is lost, no granule bears a mark: every read of local memory is answered. -/
def whole (s : State) : Prop := s.gus.lost = 0 ∧ s.gus.failed = false ∧ s.marks = []
theorem whole_stack {s : State} (h : whole s) (k : Nat) : stackLost s k = false := by simp [stackLost, h.1]
theorem whole_mark {s : State} (h : whole s) (a : Nat) : markAt s a = none := by simp [markAt, h.2.2]
theorem whole_readUnit {s : State} (h : whole s) (n j g : Nat) :
    readUnit s n j g = (.good (s.hbm.read (physOf n j g) 64), s) := by
  simp [readUnit, whole_stack h, whole_mark h, readMarked]
theorem whole_granules {s : State} (h : whole s) (tol : Option Nat) (as : List Nat) :
    ∃ bs, readGranules s tol as = (.ok bs, s) := by
  induction as with
  | nil => exact ⟨[], rfl⟩
  | cons a as ih =>
    obtain ⟨bs, hb⟩ := ih
    simp only [readGranules, readGranule, rawGranule, rawDirect, whole_readUnit h, settleRead, hb]
    exact ⟨_, rfl⟩
theorem whole_through {s : State} (h : whole s) (tol : Option Nat) (da len : Nat) :
    ∃ bs, readThrough s tol da len = (.ok bs, s) := by
  obtain ⟨bs, hb⟩ := whole_granules h tol (granulesOf da len)
  simp only [readThrough, hb]
  exact ⟨_, rfl⟩
theorem whole_read {s : State} (h : whole s) (da len : Nat) : ∃ bs, readLocal s da len = (.ok bs, s) :=
  whole_through h none da len
/-- No stack is lost, no granule bears a mark, no stripe is open and no write waits. -/
def sound (s : State) : Prop :=
  s.gus.lost = 0 ∧ s.gus.failed = false ∧ s.marks = [] ∧ s.gus.log = [] ∧ s.gus.waits = []
theorem whole_storeUnit {s : State} (h : whole s) (n j g : Nat) (bs : List Byte) :
    whole (storeUnit s n j g bs) ∧ (storeUnit s n j g bs).gus = s.gus := by
  simp only [storeUnit, whole_stack h, Bool.false_eq_true, if_false]
  exact ⟨⟨h.1, h.2.1, by simp [setMark, h.2.2]⟩, rfl⟩
theorem whole_update {s : State} (h : whole s) (n j g : Nat) (bs new : List Byte) (o : OldGranule)
    (ho : o = .got bs ∨ o = .held none bs) :
    whole (parityUpdate s n j g o new) ∧ (parityUpdate s n j g o new).gus = s.gus := by
  simp only [parityUpdate, whole_stack h, Bool.false_eq_true, if_false, whole_readUnit h]
  rcases ho with rfl | rfl <;> exact whole_storeUnit h ..
theorem sound_write {s : State} (h : sound s) (da : Nat) (bs new : List Byte) (o : OldGranule)
    (ho : o = .got bs ∨ o = .held none bs) : (writeGranule s da o new).1 = none ∧ sound (writeGranule s da o new).2 := by
  have h3 : whole s := ⟨h.1, h.2.1, h.2.2.1⟩
  have hs := whole_storeUnit h3 (placeOf da).stripe (placeOf da).unit (placeOf da).gran new
  have ho2 : whole (openGranule s (placeOf da).stripe (placeOf da).unit (placeOf da).gran o new .device) := by
    simp only [openGranule]; exact ⟨by simpa [hs.2] using h.1, by simpa [hs.2] using h.2.1, hs.1.2.2⟩
  have hu := whole_update ho2 (placeOf da).stripe (placeOf da).unit (placeOf da).gran bs new o ho
  have hl : (openGranule s (placeOf da).stripe (placeOf da).unit (placeOf da).gran o new .device).gus.log =
      [⟨(placeOf da).stripe, [⟨(placeOf da).unit, (placeOf da).gran, new, o⟩], false, .device⟩] := by
    simp [openGranule, hs.2, h.2.2.2.1]
  simp only [writeGranule, writeFails, h.2.1, Bool.false_and, Bool.false_eq_true, if_false, retireEntry, parityOfEntry,
    List.foldl_cons, List.foldl_nil, parityOfPart, whole_stack ho2]
  refine ⟨trivial, hu.1.1, hu.1.2.1, hu.1.2.2, ?_, ?_⟩
  · simp only [hu.2, hl]
    simp
  · simp only [hu.2]
    simp [openGranule, hs.2, h.2.2.2.2]
theorem sound_settle {s : State} (h : sound s) (n : Nat) : settleBefore s n = s := by
  simp [settleBefore, makeRoom, logCount, h.2.2.2.1]
theorem sound_part {s : State} (h : sound s) (da : Nat) (bs : List Byte) :
    (writePart s .other none da bs).1 = none ∧ sound (writePart s .other none da bs).2 := by
  have h3 : whole s := ⟨h.1, h.2.1, h.2.2.1⟩
  have hw : stripeWaits s (placeOf da).stripe = false := by simp [stripeWaits, h.2.2.2.2]
  simp only [writePart, afterOwn, OwnWrite.isRing, hw, Bool.false_and, Bool.or_self, Bool.false_eq_true, if_false, sound_settle h, writeNow]
  split
  · exact sound_write h da _ bs _ (.inr (by simp only [heldAtAddr, heldGranule, whole_mark h3]; rfl))
  · have hr : ∃ old, readForMerge s (da / 64 * 64) none = (.ok (old, .got old), s) :=
      ⟨_, by simp only [readForMerge, rawGranule, rawDirect, whole_readUnit h3]; rfl⟩
    obtain ⟨old, hr⟩ := hr
    rw [hr]
    exact sound_write h _ old _ _ (.inl rfl)
theorem sound_writeLocal {s : State} (h : sound s) (da : Nat) (bs : List Byte) : (writeLocal s da bs).1 = none := by
  have : ∀ (ps : List (Nat × List Byte)) (t : State), sound t →
      (ps.foldl (fun r p => match writePart r.2 .other none p.1 p.2 with
        | (e, s1) => (r.1.or e, s1)) (none, t)).1 = none := by
    intro ps
    induction ps with
    | nil => intro t _; rfl
    | cons p ps ih =>
      intro t ht
      have hp := sound_part ht p.1 p.2
      rw [List.foldl_cons]
      rcases hw : writePart t .other none p.1 p.2 with ⟨e, u⟩
      rw [hw] at hp
      simp only at hp ⊢
      rw [hp.1]
      exact ih u hp.2
  exact this _ s h
theorem whole_pooled : whole pooled := ⟨by decide +kernel, by decide +kernel, by decide +kernel⟩
/-- No write waits, and no stripe is open. -/
theorem calm_pooled : pooled.gus.waits = [] ∧ pooled.gus.log = [] := ⟨by decide +kernel, by decide +kernel⟩
theorem witness_expands : ∃ t, expandPage pooled 5 0x10000 0x70008 0x80085 (natBytes 8 0x90000) = (none, t) := by
  obtain ⟨head, h1⟩ := whole_through whole_pooled (pteTol 0x80085) 0x80000 64
  obtain ⟨img, h2⟩ := whole_through whole_pooled (pteTol 0x80085) 0x80000 (imageLength pooled 0x80000 head)
  have he : pteAddr 0x80085 = 0x80000 := by decide
  have hw : ∀ a n, rangeWaits pooled a n = false := by simp [rangeWaits, calm_pooled.1]
  have hi : readImage pooled 0x80085 = (.ok img, pooled) := by simp only [readImage, he, h1, h2]
  simp only [expandPage, hw, hi, Bool.or_self, Bool.false_eq_true, if_false]
  rw [if_neg (by decide)]
  split
  · rename_i heq
    have h0 := congrArg Prod.fst heq
    rw [sound_writeLocal ⟨whole_pooled.1, whole_pooled.2.1, whole_pooled.2.2, calm_pooled.2, calm_pooled.1⟩] at h0
    cases h0
  · exact ⟨_, rfl⟩
/-- The frame at XP_CONS is the one that the expansion takes. -/
theorem pool_reads : (poolRead pooled 0).1 = .ok (natBytes 8 0x90000) := by decide +kernel
theorem witness_pageExpand (c : Cmd) (h : c.asid = 5) : ∃ t, expandFor pooled c 0x10000 0x70008 0x80085 0 = some t := by
  obtain ⟨t, ht⟩ := witness_expands
  obtain ⟨bs, hb⟩ := whole_read whole_pooled 0x200000 8
  have hp : poolRead pooled 0 = (.ok bs, pooled) := by
    have h1 : poolBase pooled + 8 * 0 = 0x200000 := by decide +kernel
    simp only [poolRead, h1]
    rw [if_neg (by decide), hb]
  have hr : bs = natBytes 8 0x90000 := by
    have := pool_reads
    rw [hp] at this
    simpa using this
  have hx : pooled.gus.xpCons = 0 := by decide +kernel
  have hh : baseIsHost pooled.gus.xpBase = false := by decide +kernel
  have hn : poolNext pooled c.id = .frame (natBytes 8 0x90000) pooled := by
    have hc : poolCmd pooled = none := by decide +kernel
    simp only [poolNext, hc, hh, hx, hp, hr, Bool.false_eq_true, if_false]
  have he : poolIsEmpty pooled = false := by decide +kernel
  have hl : ¬ localBytes < 65536 + pteAddr 0x80085 := by decide
  exact ⟨t, by simp only [expandFor, hl, he, hn, h, ht, Bool.false_eq_true, if_false]⟩

/-- Port 0 up to device 7, which every port reaches; requests of a command to it. -/
def linked : State := { translating with links := { translating.links with
  enable := true, ual := vset translating.links.ual 0 ⟨true, 7, 3, 0⟩, route := List.replicate 432 1,
  dead := [4], reqs := [⟨2, 0, 0, .read, 0, 7, 0x1000, 32, 0, 0, true, none⟩,
    ⟨3, 0, 1, .step, 0, 7, 0x1000, 64, 0, 0, true, some 9⟩] } }
theorem witness_LinkEvents : linked.links.dead.contains 4 = true ∧ linked.links.dead.contains 2 = false ∧
    ((reqOf linked 2).bind fun r => (getCmd linked r.cmd).bind fun c =>
      respond linked c r (.data (List.replicate 32 9))).isSome = true ∧
    ((reqOf linked 2).bind fun r => (getCmd linked r.cmd).bind fun c => respond linked c r (.failed 0x12)).isSome = true ∧
    ((reqOf { linked with fs := 50 * 10 ^ 9 } 3).map fun r => decide (r.sentAt + linked.links.timeout * 10 ^ 9 ≤ 50 * 10 ^ 9)) =
      some true ∧
    (linked.links.reqs.find? fun r => r.cmd == 0 && r.piece == 1 && r.kind == .step).isSome = true ∧
    (getCmd linked 0).isSome = true := by decide
/-- A step that failed once, to be sent again: its page is on device 7. -/
def stepping : State :=
  let s := { linked with fs := 10 ^ 10 }
  tlbFill (updCmd s 0 fun c => { c with tries := [⟨0, true, 1, 0, 9, some 0, 7⟩] }) 0 ⟨5, 1, 0x0380000000080107, 3⟩
theorem witness_stepRetry : ((getCmd stepping 0).map fun c => c.tryOf 0 == some ⟨0, true, 1, 0, 9, some 0, 7⟩ &&
    c.fresh stepping 0 == some (.rd 0x10000 32) &&
    (stepRun stepping c 0).any fun r => r.pieces.head? == some 0 && (portFor stepping r.dev r.addr (some 0)).isSome &&
    (sendStep (captureLines (updCmd { stepping with links := { stepping.links with cntRetry := bump stepping.links.cntRetry } }
      0 fun d => { d with lines := [] }) 0 (runLines stepping c r)) c 0 r 0x10000).isSome) = some true := by decide
/-- Window 0 offers the first 64 KiB of local memory to peers. -/
def offering : State := { linked with links := { linked.links with win := vset linked.links.win 0 0x8000001000000000 } }
theorem witness_peerRequest : offering.links.enable = true ∧ askForm false (.read 0xFF00 256) = true ∧
    (vget offering.links.ual 0 ⟨false, 0, 0, 0⟩).up = true ∧ importAllows offering 0xFF00 256 = true ∧
    importAllows offering 0xFF01 256 = false ∧ askForm false (.write 0xFF01 (List.replicate 256 (some 0))) = true ∧
    askForm false (.write 0xFF01 (List.replicate 63 (some 0))) = false ∧
    askForm true (.write 0xFF00 (List.replicate 320 (some 0))) = true := by decide
/-- Device 7 has a step with tag 5 being applied, and one with tag 6 that was. -/
def stepped : State := newCmd offering (.peer 0 (some (7, 5))) noCore
  .atomic (.peerOp (.write 0xFF00 (List.replicate 64 (some 0)))) 0 id
theorem witness_peer_step : applying stepped (7, 5) = true ∧ applying stepped (7, 6) = false ∧ remembers stepped 7 5 = false ∧
    remembers (remember stepped 7 6) 7 6 = true := by decide
/-- A peer's tile that has not yet entered its pleat table. -/
def combining : State := newCmd offering (.peer 0 none) noCore .atomic (.peerOp (.combine ⟨0x1000, .i32, 2, List.replicate 64 1, [], 0⟩))
  0 id
theorem witness_tileArrive : ((getCmd combining 1).bind fun c => (tileOf combining c 0 0x1000).map fun q =>
    decide (q.2.src.head? = some (1, 0)) && c.fresh combining 0 == some (.op 0x1000 64) &&
    decide (resolve combining c 0x1000 2 = some (.loc 0x1000 none, none))) = some true := by decide
def waitingEntry : State := { combining with fs := 2 * 10 ^ 9, links := { combining.links with
  pleats := vset combining.links.pleats 3 [⟨9, ⟨0x1000, .i32, 2, List.replicate 64 1, [], 1⟩, 0⟩] } }
theorem witness_pleatTimeout : ((pleatAt waitingEntry 3).find? fun e => e.id == 9).any (fun e =>
    decide (e.last + 2 * 10 ^ 9 ≤ waitingEntry.fs)) = true := by decide

/-! ## Witnesses: packets -/

def sixtyFour (xs : List Nat) : List Byte := (xs.map (BitVec.ofNat 8) ++ List.replicate 64 0).take 64
/-- Queue 3 with a fetched packet of these bytes at index 0. -/
def packet (xs : List Nat) : State := updQueue running 3 fun q => { q with pkts := [⟨0, some (sixtyFour xs), .fetched, 0, false⟩] }
theorem witness_packetFetch : (queueAt running 3).state = .running ∧ fetchOf running 3 = none ∧
    (queueAt running 3).head ≠ (queueAt running 3).tail := by decide
def fetched : State := newCmd running (.ring 3) noCore .copy (.fetch [(0, 64)]) 0 fun c =>
  { c with got := [(0, List.replicate 64 0)], done := [0] }
theorem witness_packetTaken : ((fetchOf fetched 3).map fun c => c.fail.isNone && (c.data 0).isSome) = some true := by decide
theorem witness_PacketEvents : (List.range 8).all (fun k => ((getPkt (packet [k]) 3 0).map fun p =>
    mayStart (packet [k]) 3 p && p.bytes.isSome && pktType p == k && (launchOf (packet [k]) 3 0).isNone) ==
      some true) = true := by decide
/-- A WAIT that has started, without and with its read of the counter done. -/
def waiting : State := markStarted (packet [3]) 3 0
def polled : State := newCmd waiting (.packet 3 0) noCore .copy (.fetch [(0, 8)]) 0 fun c =>
  { c with got := [(0, List.replicate 8 0)], done := [0] }
theorem witness_waitPoll : ((getPkt waiting 3 0).map fun p => p.stage == .started && (cmdOfPkt waiting 3 0).isNone) = some true ∧
    ((cmdOfPkt polled 3 0).map fun c => c.fail.isNone && (c.data 0).isSome) = some true := by decide
/-- A LAUNCH whose header could not be read. -/
def refusedLaunch : State :=
  let s := packet [1]
  newCmd { s with launches := [{ probeLaunch s with queue := 3 }] } (.packet 3 0) noCore .copy (.fetch [(0, 8)]) 0 fun c =>
    { c with fail := some ⟨false, 0x11, 0, 0⟩ }
theorem witness_acceptNext : ((launchOf refusedLaunch 3 0).bind fun l => (cmdOfPkt refusedLaunch 3 0).bind fun c =>
    acceptNext refusedLaunch c l).isSome = true := by decide

/-! ## Witnesses: management -/

/-- Ten milliseconds after reset, with these sensors. -/
def later (t : Int) : State := { reset with
  fs := 10 ^ 13, sensors := ⟨⟨t, 110, 0, 0, 0, 0, 0⟩, 900⟩, mgmt := { reset.mgmt with aclk := 10, samples := [3500], floorMs := 100 } }
theorem witness_ManagementEvents : (later 30).mgmt.lastPower + 10 ^ 12 ≤ (later 30).fs ∧
    (later 30).mgmt.lastRaise + 10 ^ 13 ≤ (later 30).fs ∧ (later 30).mgmt.held = false ∧ (later 30).mgmt.aclk = 10 ∧
    overCap (later 30).mgmt = true ∧ 100 ≤ (later 30).mgmt.floorMs ∧ overCap { reset.mgmt with samples := [3000] } = false ∧
    (later 30).mgmt.lastThermal + 10 ^ 12 ≤ (later 30).fs ∧ trips (later 30).mgmt.temps (later 30).sensors.temps = false ∧
    trips (later 55).mgmt.temps (later 55).sensors.temps = false ∧
    trips (later 56).mgmt.temps (later 56).sensors.temps = true ∧
    (later 30).mgmt.gen % 2 = 0 ∧ (later 30).mgmt.lastHealth + 10 ^ 13 ≤ (later 30).fs := by decide
def midRefresh : State := { reset with mgmt := { reset.mgmt with gen := 1 } }
def portInReset : State := { reset with mgmt := { reset.mgmt with inReset := vset reset.mgmt.inReset 1 true } }
theorem witness_resets : midRefresh.mgmt.gen % 2 = 1 ∧ portServes reset .a = true ∧ reset.mgmt.resetDone = true ∧
    anyInReset reset = false ∧ portServes portInReset .a = true ∧ anyInReset portInReset = true ∧
    inReset.mgmt.resetDone = false ∧ inReset.mgmt.resetWanted = false ∧
    inReset.mgmt.resetAt + sclkFs < inReset.fs ∧ hostWaits inReset = false := by decide
theorem witness_stackLoss : ({ reset with gus := { reset.gus with pending := [11] } } : State).gus.pending ≠ [] ∧ 11 < 12 ∧
    ({ reset with inval := some 0x800 } : State).inval = some 0x800 ∧
    ({ reset with mgmt := { reset.mgmt with attBusy := true } } : State).mgmt.attBusy = true ∧ 4 ≤ 4 := by decide

/-! ## Witnesses: the scheduler -/

/-- Panel 1 alone, saved in the lining of core 0 and without its slots, of a launch of queue 0. -/
def savedPanel : State := { updPanel (reset.withFetchWord 64 1) 1 (fun p => { p with life := .savedLining }) with
  launches := [{ probeLaunch reset with nextPanel := 1 }] }
theorem witness_mayDispatch : mayDispatch savedPanel 0 = true := by decide
theorem firstSaved_savedPanel : (firstSaved savedPanel 0 0 0).map (·.pid) = some 1 := by decide
theorem witness_firstPlaceable : (firstPlaceable savedPanel 0).isSome = true := by decide +kernel
theorem witness_preemptCheck : (partAt (later 30) 7).lastCheck + 10 ^ 9 ≤ (later 30).fs := by decide
/-- One gang ready for an active set whose every position holds a gang that may yield, or is empty. -/
def readyGang (full : Bool) : State :=
  let s := updCore (worldG fun g => { g with readyAt := some 0 }) 0 fun q => { q with
    active := List.replicate 8 (if full then some ⟨9, 0, 0, true, 0⟩ else none) }
  { s with now := 8 }
theorem witness_activeSetSwap : (firstReady (readyGang false) 0).isSome = true ∧
    (coreAt (readyGang false) 0).active[7]? = some none ∧ (firstReady (readyGang true) 0).isSome = true ∧
    (coreAt (readyGang true) 0).active[0]? = some (some ⟨9, 0, 0, true, 0⟩) ∧ yielding (readyGang true) 0 = some 0 := by decide
def staging : State := worldP fun p => { p with life := .staging }
/-- Staging that has failed. -/
def stagingFailed : State := newCmd staging (.stage 1 0) 0 .copy (.fetch [(0, 8)]) 0 fun c =>
  { c with fail := some ⟨false, 0x12, 0, 0⟩ }
theorem witness_staging : ((getPanel staging 1).map fun p => p.life == .staging && (failedMove staging 1).isNone &&
    noCommands staging [p]) = some true ∧
    ((getPanel stagingFailed 1).map fun p => p.life == .staging) = some true ∧ failedMove stagingFailed 1 = some 0x12 := by decide
theorem witness_codeFetch : ((getPanel world 1).map fun p => p.issues && (codeCmd world 1 2).isNone && needsWindow p 2) =
    some true := by decide
def codeRead : State := newCmd world (.code 1) 0 .copy (.fetch [(64, 32)]) 0 fun c =>
  { c with slotAddr := 2, got := [(0, List.replicate 32 1)], done := [0] }
theorem witness_codeRead : ((codeCmd codeRead 1 2).map fun c => c.fail.isNone && (c.data 0).isSome) = some true := by decide
def sleeper : State := worldG fun g => { g with split := g.split.map fun e => { e with blk := some .sleep } }
theorem witness_sleepWake : ((getPanel sleeper 1).bind fun p => (p.gangs[0]?).bind fun g => (g.split[0]?).map fun e =>
    p.issues && e.valid && e.blk == some .sleep && decide (e.wake ≤ p.clk) && e.wait == .run && e.levels.isEmpty) = some true := by decide
def finished : State := worldG fun g => { g with exited := 0xFF }
theorem witness_panelRetire : ((getPanel finished 1).map fun p => !p.hdr.redundant && (members finished p).all (fun m =>
    m.issues && allExited m) && noCommands finished (members finished p) && (writeParts p).isEmpty) = some true := by decide
/-- A panel with an OUT region has something to write back. -/
theorem witness_writeBack : ((getPanel (worldP fun p => { p with hdr := { p.hdr with
    regions := [⟨0x1000, 0, 2, false, 64, 0, 0, 0⟩] } }) 1).map fun p => (writeParts p).length) = some 1 := by decide
def moving (l : Life) (v : Leaving) (d : Option (Option Nat)) : State :=
  worldP fun p => { p with life := l, leaving := v, drain := d }
theorem witness_panelMoves : ((getPanel (moving .retiring .no none) 1).map fun p => !p.hdr.redundant &&
      p.life == .retiring && (failedMove (moving .retiring .no none) 1).isNone && noCommands (moving .retiring .no none) [p]) =
      some true ∧
    ((getPanel (moving .running .no (some (some 0))) 1).map fun p => p.drain == some (some 0) && p.life == .running) =
      some true ∧
    ((getPanel (moving .running .toLining none) 1).map fun p => p.leaving == .toLining && p.life == .running &&
      (members (moving .running .toLining none) p).length == 1 && saveReady (moving .running .toLining none) p) = some true ∧
    ((getPanel (moving .running .flush none) 1).map fun p => p.life == .running &&
      (members (moving .running .flush none) p).all (fun m => m.leaving == .flush) &&
      runQuiet (moving .running .flush none) (members (moving .running .flush none) p)) = some true := by decide

/-! ## Witnesses: the whole machine -/

theorem witness_issue : ((reset.withFetchWord 64 1).agenda = .issue 0 :: []) ∧
    ((nextIssue { reset.withFetchWord 64 1 with agenda := [] } 0).map fun r => r.2) =
      some (⟨1, 0, 0⟩, .nop ⟨0, false, 0, none⟩ .l64) := by decide
theorem witness_EncodeDecode : (Instr.nop c1 .l64).WellFormed ∧ (Instr.nop c1 .l64).isEvent = false := by decide
theorem witness_decode_error : (match decode (codeAt (natBytes 32 0x65) 64) with
    | .error _ => true
    | .ok _ => false) = true ∧ crosses 88 16 = true := by decide
theorem witness_ControlsKept : controlsOk reset = true ∧ (match step { reset with agenda := [.tick] } with
    | .next _ => true
    | _ => false) = true := by decide +kernel

/-! ## Witnesses: frames -/

/-- The instruction is ready and answers a next state. -/
def runs (i : Instr) (s : State) : Bool := isReady s i && match exec i s with
  | .next _ => true
  | _ => false
theorem witness_FrameScalar : ([.sadd c1 1 2 (.reg 3), .sadd c1 0 2 (.reg 3), .srd c1 63 0x010] : List Instr).all (fun i =>
    (scalarDest i).isSome && runs i world) = true := by decide
theorem witness_FrameVector : ([.vadd c1 .i32 1 2 (.reg 3), .vlid c1 127] : List Instr).all (fun i =>
    (vectorDest i).isSome && runs i world && runs i (worldG fun g => { g with em := 0 })) = true := by decide
theorem witness_FrameStores : ([.sst c1 .i64 2 3 none, .slda c1 true 1 4 2 none, .slda c1 false 1 0 2 (some 4), .st c1 .n32 2 3 none,
    .ats c1 true .n32 .add 8 2 3 none, .ats c1 false .n32 .add 0 2 3 none] : List Instr).all (fun i => runs i world) = true := by
  decide

/-! A panel may be saved into memory whatever its image is: on a module that has lost nothing every write succeeds. -/

theorem witness_saveMem : ∃ u, writeImage (moving .running (.toMem 3) none) { probePanel reset with leaving := .toMem 3 } 3 = (none, u) := by
  have hs : sound (moving .running (.toMem 3) none) := ⟨by decide, by decide, by decide, by decide, by decide⟩
  unfold writeImage
  dsimp only
  rw [if_neg (by decide)]
  exact ⟨_, Prod.ext (sound_writeLocal hs _ _) rfl⟩
theorem witness_panelSaveMem : ((getPanel (moving .running (.toMem 3) none) 1).map fun p => p.leaving == .toMem 3 &&
    p.life == .running && decide (p = { probePanel reset with leaving := .toMem 3 })) = some true := by decide

/-! ## Values that the chapters work -/

/-- The issuing gang after an instruction. -/
def gangAfter (i : Instr) (s : State) : Option Gang :=
  match exec i s with
  | .next t => getGang t 1 0
  | _ => none
/-- Copy 0 of a scalar register and lane 0 of a vector register after an instruction. -/
def sAfter (i : Instr) (s : State) (d : Nat) : Option DWord := (gangAfter i s).map fun g => vget (vget g.s d copies0) 0 0
def vAfter (i : Instr) (s : State) (d l : Nat) : Option Word := (gangAfter i s).map fun g => vget (vget g.v d vreg0).lanes l 0
/-- Two scalar operands in s1 and s2. -/
def withS (a b : DWord) : State := worldG fun g => setAll 1 a (setAll 2 b g)
/-- Two vector operands in v1 and v2, the same in every lane. -/
def withV (a b : Word) : State := worldG fun g => setVec 1 (fun _ => a) (setVec 2 (fun _ => b) g)

/-- 17 Table 17-6. -/
theorem test_sdiv : sAfter (.sdiv c1 false 3 1 (.reg 2)) (withS (-7) 2) 3 = some (-3) ∧
    sAfter (.sdiv c1 true 3 1 (.reg 2)) (withS 0xFFFFFFFFFFFFFFF9 2) 3 = some 0x7FFFFFFFFFFFFFFC ∧
    sAfter (.sdiv c1 false 3 1 (.reg 2)) (withS 42 0) 3 = some 0xFFFFFFFFFFFFFFFF ∧
    sAfter (.sdiv c1 false 3 1 (.reg 2)) (withS 0x8000000000000000 (-1)) 3 = some 0x8000000000000000 := by decide
theorem test_srem : sAfter (.srem c1 false 3 1 (.reg 2)) (withS (-7) 2) 3 = some (-1) ∧
    sAfter (.srem c1 true 3 1 (.reg 2)) (withS 42 0) 3 = some 42 ∧
    sAfter (.srem c1 false 3 1 (.reg 2)) (withS 0x8000000000000000 (-1)) 3 = some 0 := by decide
/-- 17 R274: a shift by b[5:0]; the high half of (2^64 − 1)^2, unsigned and signed. -/
theorem test_sshl : sAfter (.sshl c1 3 1 (.reg 2)) (withS 3 65) 3 = some 6 := by decide
theorem test_smulh : sAfter (.smulh c1 true 3 1 (.reg 2)) (withS (-1) (-1)) 3 = some 0xFFFFFFFFFFFFFFFE ∧
    sAfter (.smulh c1 false 3 1 (.reg 2)) (withS (-1) (-1)) 3 = some 0 := by decide
/-- 17 R276: SMOVI sign-extends its short form; s0 takes no write (17 R271). -/
theorem test_smovi : sAfter (.smovi c1 3 (.short 0xF0F0F0F0)) world 3 = some 0xFFFFFFFFF0F0F0F0 ∧
    sAfter (.smovi c1 0 (.short 7)) world 0 = some 0 := by decide
theorem test_sclz : sAfter (.sclz c1 3 1) (withS 0 0) 3 = some 64 := by decide
theorem test_sbfx : sAfter (.sbfx c1 true 3 1 4 4) (withS 0x80 0) 3 = some (-8) := by decide
theorem test_sbfi : sAfter (.sbfi c1 2 1 4 8) (withS 0xFFF 0x1001) 2 = some 0x1FF1 := by decide
/-- 18 R284. -/
theorem test_vadds : vAfter (.vadds c1 .i8 3 1 (.reg 2)) (withV 0x7F800105 0x01FF0203) 3 31 = some 0x7F800308 ∧
    (match exec (.vadds c1 .i8 3 1 (.reg 2)) (worldG fun g => setVec 1 (fun _ => 0x7F800105) (setVec 2 (fun _ => 0x01FF0203)
      { g with em := 1 })) with
      | .next t => (getPanel t 1).map fun p => (p.exc.map (·.sat)).foldl (· + ·) p.catchAll.sat
      | _ => none) = some 2 := by decide +kernel
/-- 18 R292: 470 becomes 0x7E in element 1. -/
theorem test_cvt : vAfter (.cvt c1 .f8e4 2 1 .f32 1) (withV 0x43EB0000 0x0000007E) 2 0 = some 0x00007E7E ∧
    vAfter (.cvt c1 .f8e4 2 1 .f32 2) (withV 0xFF800000 0x00007E7E) 2 0 = some 0x00FE7E7E := by decide +kernel
/-- 18 R289: −2^−30. -/
theorem test_ffrac : vAfter (.ffrac c1 .f32 3 1) (withV 0xB0800000 0) 3 0 = some 0x3F7FFFFF := by decide +kernel
theorem test_fadd : vAfter (.fadd c1 .f32 3 1 (.reg 2)) (withV 0x3F800000 0x40000000) 3 0 = some 0x40400000 := by decide +kernel
/-- 18 R295. -/
theorem test_gshf_dn : (List.range 16).all (fun l => vAfter (.gshf c1 .dn 3 3 5 4) (worldG fun g =>
    setVec 4 (fun l => BitVec.ofNat 32 (100 + l)) { g with em := 0xFFFF }) 5 l ==
      some (BitVec.ofNat 32 (if l < 13 then 103 + l else 100 + l))) = true := by decide
/-- 18 R296: three lanes are nonzero. -/
theorem test_vote : sAfter (.vote c1 .count 3 1) (worldG (setVec 1 fun l => if l < 3 then 1 else 0)) 3 = some 3 ∧
    sAfter (.vote c1 .ballot 3 1) (worldG (setVec 1 fun l => if l < 3 then 1 else 0)) 3 = some 7 := by decide
/-- 19 R307, R308: a0 ternary and a1 quinary, both CENTRED. -/
def dotAlphabets : Vector (BitVec 256) 16 :=
  Vector.ofFn fun i : Fin 16 => BitVec.ofNat 256 (([0x08C40002, 0x08D40004].getD i.val 0) * 2 ^ 192)
def dotWorld : State := updGang (worldP fun p => { p with alph := dotAlphabets }) 1 0 fun g =>
  setVec 2 (fun _ => 0x67A7) (setVec 3 (fun _ => 0x086401B2) (setVec 5 (fun _ => 0xF5) g))
theorem test_dota : vAfter (.dota c1 false 0 1 4 2 3 10) dotWorld 4 0 = some 0xFFFFFFFD := by decide +kernel
theorem test_valc : vAfter (.valc c1 0 9 2) dotWorld 9 0 = some 0 ∧ vAfter (.valc c1 0 9 5) dotWorld 9 0 = some 1 := by
  decide +kernel

/-- 16 R246, 07 R129: a step of the machine on a word placed at the PC issues it, and the PC passes its bytes. -/
theorem test_step_nop : (match step (reset.withFetchWord 64 1) with
    | .next t => ((getGang t 1 0).bind fun g => (g.split[0]?).map (·.pc))
    | _ => none) = some 72 := by decide
/-- The short SMOVI of chapter 16, as the first instruction after reset. -/
theorem test_step_smovi : (match step (reset.withFetchWord 96 0x0000620B00000000050004C6) with
    | .next t => (getGang t 1 0).map fun g => (vget (vget g.s 10 copies0) 7 0, (g.split[0]?).map (·.pc))
    | _ => none) = some (0x620B, some 76) := by decide
/-- 10 R190: a group with s = 0.25 and z = 8 whose bracket is 102 contributes 25.5 exactly. -/
theorem test_qa_group : (matrixPass false 0 [(FVal.sum ((List.zip [0x4000, 0xBC00, 0x4200, 0x3800] [10, 3, 7, 200]).map fun p =>
    (fF16.value p.1).mul (intVal ((p.2 : Int) - 8)))).mul (fF16.value 0x3400)]).1 = 0x41CC0000 := by decide +kernel
/-- 09 R157: of two writes to one granule of host memory, sent on Port A and then on Port B, the delivery of the second brings the
first before it; a nibble written over it keeps the other half. -/
theorem test_posted_order :
    let w : Port → Nat → Byte → Byte → Posted := fun p n m v => ⟨p, none, some n, none, none, [⟨0x1000, m, v⟩], none⟩
    let s := postHost (postHost reset (w .a 1 0xFF 0x5A)) (w .b 2 0x0F 0x03)
    (deliverOne s .b).map (fun t => (t.hostMem.get 0x1000, t.links.posted.length)) = some (0x53, 0) := by decide
/-- 16 R258, 23 R365: interlocked, a pending result holds a reader of its register in the slices that take it alone,
and SPILL in all of them. -/
theorem test_interlock_slices :
    let g : Gang := { newGang probeHdr 0 0 with pending := [.vec 5 0x0F 20 (Vector.replicate 32 0)] }
    let until_ := fun sl i => interlockUntil { probeHdr with il := true } 10 g sl i [5]
    until_ 0x03 (.st c1 .n32 0 5 none) = some 20 ∧ until_ 0x30 (.st c1 .n32 0 5 none) = none ∧
      until_ 0x30 (.spill c1 5 0) = some 20 := by decide
/-- 04 R74: the vector of a completion record in local memory is raised after the record is written, also when that waits. -/
theorem test_vector_after_record :
    let s := writeRing { reset with gus := { reset.gus with waits := [⟨0, .piece 9 0⟩] } } (some (3, true)) 0 (natBytes 8 5)
    s.irqs = [] ∧ recordWaits s 3 = true ∧
      (landWaiting { s with gus := { s.gus with waits := s.gus.waits.tail } }).irqs = [3] := by decide +kernel
/-- Two reads of a gang on core 0, the later one done first. -/
theorem witness_read_order :
    let c : Nat → Cmd := fun n => mkCmd n (.gangs 1 [(0, 0)]) 0 .copy (.fetch [(0x10000, 8)]) 5 0 (Vector.replicate 16 0)
    let s := { reset with cmds := [c 5, c 6] }
    (c 5).unbuffered = false ∧ (c 6).born = (c 5).born ∧ (c 6).born < 512 ∧ getCmd s 5 = some (c 5) ∧
      laterSeen s (c 5) (.loc 64 none) = none ∧ laterSeen s (c 6) (.loc 64 none) = none ∧
      (laterSeen (returned s (c 6) (.loc 64 none) [1]).2 (c 5) (.loc 64 none)).isSome = true := by decide
/-- Two reads of one gang, the first held by its acquiring atomic 4, which ends after the other has returned. -/
def heldReads : State :=
  let c : Nat → List Nat → Cmd := fun n a =>
    { mkCmd n (.gangs 1 [(0, 0)]) 0 .copy (.fetch [(0x10000, 8)]) 5 0 (Vector.replicate 16 0) with after := a }
  (returned { reset with cmds := [c 5 [4], c 6 []], nextId := 7 } (c 6 []) (.loc 64 none) [1]).2
/-- 09 R160, R170: until the atomic ends the held read would take what the later-issued one returned, and then no more. -/
theorem witness_held_reads :
    (∀ x ∈ (coreAt heldReads 0).seen, x.seq < heldReads.nextId) ∧ (coreAt heldReads 0).seen ≠ [] ∧
      ((heldReads.cmds.filter fun d => d.after.contains 4).map fun d => (laterSeen heldReads d (.loc 64 none)).isSome) = [true] ∧
      (((issueHeldReads 4 heldReads).cmds.filter fun d => d.after.contains 4).map fun d =>
        (laterSeen (issueHeldReads 4 heldReads) d (.loc 64 none)).isSome) = [false] := by decide
/-- 01 R13: the floor timeout at 625 MHz with the cap exceeded, and none a step above. -/
theorem test_floor_timeout : ([10, 11].map fun n =>
    match exec .aclkFloorTimeout { later 30 with mgmt := { (later 30).mgmt with aclk := n } } with
      | .next t => some t.mgmt.held
      | _ => none) = [some true, none] := by decide +kernel
/-- A ready instruction but for its one pocket miss, for which it has not been held. -/
theorem witness_pocket_hold :
    let i : Instr := .vadd c1 .i32 3 1 (.imm 1)
    (ctxOf i (worldG fun g => { g with wset := 0 })).any (fun x => x.e.held == 0 &&
      pocketMisses x.g (vecSources (operandsAt x.p i)) != 0 && readyNow { x with e := { x.e with held := 1 } } i) = true := by
  decide +kernel
/-- 16 Table 16-9, R259: an instruction with one source outside the pocket is held for three cycles and counts one miss when it issues.
-/
theorem test_pocket_count :
    let count := fun n => match exec (.vadd c1 .i32 3 1 (.imm 1)) (worldG fun g =>
        { g with wset := 0, split := modifyAt (fun e => { e with held := n }) g.split 0 }) with
      | .next t => ((getPanel t 1).map fun p => (vget p.perf 0 0, vget p.perf 1 0),
          (getGang t 1 0).bind fun g => (g.split[0]?).map (·.held))
      | _ => (none, none)
    (count 0, count 1) = ((some (0, 0), some 1), (some (1, 1), some 0)) := by decide +kernel
/-- 09 R160: of two reads of a granule the later-issued one is done first, and then the granule is written: the earlier-issued one
returns what the later-issued one has returned. -/
theorem test_read_order :
    let ask := fun s => newCmd s (.gangs 1 [(0, 0)]) 0 .copy (.fetch [(0x10000, 8)]) 5 id
    let s := ask (ask (tlbFill { reset with nextId := 5 } 0 ⟨5, 1, 0x80007, 3⟩))
    (match exec (.granuleRead 6 0 false) s with
    | .next t => match exec (.granuleRead 5 0 false) (writeLocal t 0x80000 (natBytes 8 9)).2 with
      | .next u => match (readLocal u 0x80000 8).1 with
        | .ok now => (getCmd u 5).map fun c => (c.data 0, now)
        | _ => none
      | _ => none
    | _ => none) = some (some (natBytes 8 0), natBytes 8 9) := by decide +kernel
/-- 02 R40: a device reset is not done while a host write still waits, and 01 R19: not within the SCLK period in which it began. -/
theorem test_reset_waits :
    let s := fun ws => { reset with
      fs := 5000001, mgmt := { reset.mgmt with resetDone := false }, gus := { reset.gus with waits := ws } }
    ([[⟨0, .device .host 0 [1]⟩], []] : List (List LogWait)).map (fun ws => match exec .deviceResetDone (s ws) with
      | .next t => some t.mgmt.resetDone
      | _ => none) = [none, some true] ∧
    (match exec .deviceResetDone (deviceReset reset) with
      | .fault f => some f
      | _ => none) = some .notEnabled := by decide +kernel
/-- 03 R53: a step to 200 bytes at 0x10070 leaves as one request for each of its four granules. -/
theorem test_step_granules : stepBlocks 0x10070 200 = [0x10040, 0x10080, 0x100C0, 0x10100] := by decide
/-- 08 R153, 11 R201: ten ternary elements, five to a container, dealt by BLOCK to two devices keep whole containers; dealt to
three, or by CYCLIC to two, they split the first. -/
theorem test_dealt_splits :
    let al : Vector (BitVec 256) 16 := Vector.ofFn fun i : Fin 16 => BitVec.ofNat 256 (alphabetRegs.getD i.val 0)
    let t := fun mode ndev => (⟨0, 1, .alpha 0, 0, [mode, 0, 0, 0, 0], ndev, 0, [10, 1, 1, 1, 1], [0, 0, 0, 0, 0],
      [5, 1, 1, 1]⟩ : TDesc)
    (t 1 2).refusal al [1, 0, 0, 0] 0 4096 = none ∧ (t 1 3).refusal al [0, 0, 0, 0] 0 4096 = some 0x16 ∧
      (t 2 2).refusal al [0, 0, 0, 0] 0 4096 = some 0x16 ∧ (t 0 1).refusal al [1, 0, 0, 0] 0 4096 = none := by decide +kernel
end Sys2Proof.Tests
end

section
/-! SUPPORT. The control registers, which O56 speaks of: ACLK, the host cap, and of each partition its clusters and its least
margin. One lemma for each function on states: what it leaves of them. -/

namespace Sys2Proof.Machine

open Sys2Proof

/-- The rate of ACLK, the host cap, and for each partition its clusters and its least margin. -/
abbrev Controls : Type := Nat × Nat × Vector (Word × Nat) 8

/-- The control registers among the fields that hold them. -/
def controlsOf (aclk cap : Nat) (parts : Vector Part 8) : Controls :=
  (aclk, cap, parts.map fun x => (x.clus, x.gap))

/-- What of a state the ranges of the control registers speak of. -/
def controls (s : State) : Controls := controlsOf s.mgmt.aclk s.mgmt.pwrCap s.parts

/-- The state of an outcome, if there is one, has the controls `c`. -/
def outcomeKeeps (c : Controls) : Host.Outcome State Fault Refusal → Prop
  | .next t => controls t = c
  | _ => True

/-- A state that is there has the controls `c`. -/
def optionKeeps (c : Controls) : Option State → Prop
  | some t => controls t = c
  | none => True

/-- What a stop carries has the controls `c`. -/
def stopKeeps (c : Controls) : Stop → Prop
  | .trapIn t _ | .ended t | .park t _ => controls t = c
  | .trap _ | .block _ | .measure .. | .hold .. => True

/-- What a part of a body answers meets `P`, and its stop carries the controls `c`. -/
def answerKeeps {α : Type} (c : Controls) (P : α → Prop) : Except Stop α → Prop
  | .ok a => P a
  | .error e => stopKeeps c e

/-- A check stops with the controls `c`. -/
abbrev checkKeeps {α : Type} (c : Controls) (r : Except Stop α) : Prop := answerKeeps c (fun _ => True) r

/-- A body ends with the controls `c`, however it ends. -/
abbrev bodyKeeps (c : Controls) (b : Body) : Prop := answerKeeps c (fun t => controls t = c) b

/-- The state with which an expansion goes on has the controls `c`. -/
def poolKeeps (c : Controls) : PoolNext → Prop
  | .wait => True
  | .begin t | .frame _ t | .fail _ t => controls t = c

/-! ## The state, field by field -/

@[simp] theorem controlsOf_fields (s : State) : controlsOf s.mgmt.aclk s.mgmt.pwrCap s.parts = controls s := rfl

/-- A state written out, as every update of fields is: three of its fields count. -/
@[simp] theorem controls_mk (now fs mgmt sensors flash hbm marks gus links sems queues asidBase fqBase fqWritten fqSize fqProd
    fqCons xfaults nextTag inval irqs parts launches panels cores clusters iodTlb cmds hostMem reply agenda issuer free
    nextId) :
    controls ⟨now, fs, mgmt, sensors, flash, hbm, marks, gus, links, sems, queues, asidBase, fqBase, fqWritten, fqSize, fqProd,
      fqCons, xfaults, nextTag, inval, irqs, parts, launches, panels, cores, clusters, iodTlb, cmds, hostMem, reply, agenda,
      issuer, free, nextId⟩ = controlsOf mgmt.aclk mgmt.pwrCap parts := rfl

@[simp] theorem controls_ite (c : Prop) [Decidable c] (s t : State) :
    controls (if c then s else t) = if c then controls s else controls t := apply_ite ..

/-- The second part of an answer that a match has taken apart. -/
theorem controls_snd {α : Type} {r : α × State} {a : α} {t : State} (h : r = (a, t)) : controls t = controls r.2 := by rw [h]

theorem controls_fst {α : Type} {r : State × α} {a : α} {t : State} (h : r = (t, a)) : controls t = controls r.1 := by rw [h]

@[simp] theorem controls_foldl {α : Type} {f : State → α → State} (h : ∀ s a, controls (f s a) = controls s) (xs : List α)
    (s : State) : controls (xs.foldl f s) = controls s := by
  induction xs generalizing s with
  | nil => rfl
  | cons a as ih => rw [List.foldl_cons, ih, h]

@[simp] theorem controls_foldl_snd {α β : Type} {f : β × State → α → β × State} (h : ∀ r a, controls (f r a).2 = controls r.2)
    (xs : List α) (r : β × State) : controls (xs.foldl f r).2 = controls r.2 := by
  induction xs generalizing r with
  | nil => rfl
  | cons a as ih => rw [List.foldl_cons, ih, h]

/-! ## Outcomes -/

@[simp] theorem outcomeKeeps_next (c : Controls) (t : State) : outcomeKeeps c (.next t) ↔ controls t = c := Iff.rfl

@[simp] theorem outcomeKeeps_fault (c : Controls) (e : Fault) : outcomeKeeps c (.fault e) := trivial

@[simp] theorem outcomeKeeps_ite {c : Controls} {p : Prop} [Decidable p] {a b : Host.Outcome State Fault Refusal}
    (ha : outcomeKeeps c a) (hb : outcomeKeeps c b) : outcomeKeeps c (if p then a else b) := by
  split <;> assumption

@[simp] theorem optionKeeps_some (c : Controls) (t : State) : optionKeeps c (some t) ↔ controls t = c := Iff.rfl

@[simp] theorem optionKeeps_none (c : Controls) : optionKeeps c none := trivial

theorem optionKeeps.controls_eq {c : Controls} {o : Option State} {t : State} (h : optionKeeps c o) (e : o = some t) :
    controls t = c := by
  rwa [e] at h

@[simp] theorem optionKeeps_map {α : Type} (c : Controls) (o : Option α) {f : α → State} (h : ∀ a, controls (f a) = c) :
    optionKeeps c (o.map f) := by
  cases o <;> simp [h]

@[simp] theorem optionKeeps_bind {α : Type} (c : Controls) (o : Option α) {f : α → Option State}
    (h : ∀ a, optionKeeps c (f a)) : optionKeeps c (o.bind f) := by
  cases o <;> simp [h]

@[simp] theorem optionKeeps_ite {c : Controls} {p : Prop} [Decidable p] {a b : Option State} (ha : optionKeeps c a)
    (hb : optionKeeps c b) : optionKeeps c (if p then a else b) := by
  split <;> assumption

/-! ## Answers of bodies -/

@[simp] theorem answerKeeps_ok {α : Type} (c : Controls) (P : α → Prop) (a : α) : answerKeeps c P (.ok a) ↔ P a := Iff.rfl
@[simp] theorem answerKeeps_error {α : Type} (c : Controls) (P : α → Prop) (e : Stop) :
    answerKeeps c P (.error e) ↔ stopKeeps c e := Iff.rfl
@[simp] theorem stopKeeps_trap (c : Controls) (t : Trap) : stopKeeps c (.trap t) := trivial
@[simp] theorem stopKeeps_block (c : Controls) (b : Block) : stopKeeps c (.block b) := trivial
@[simp] theorem stopKeeps_measure (c : Controls) (va len : Nat) : stopKeeps c (.measure va len) := trivial
@[simp] theorem stopKeeps_hold (c : Controls) (t n : Nat) : stopKeeps c (.hold t n) := trivial
@[simp] theorem stopKeeps_trapIn (c : Controls) (u : State) (t : Trap) : stopKeeps c (.trapIn u t) ↔ controls u = c := Iff.rfl
@[simp] theorem stopKeeps_ended (c : Controls) (u : State) : stopKeeps c (.ended u) ↔ controls u = c := Iff.rfl
@[simp] theorem stopKeeps_park (c : Controls) (u : State) (b : Block) : stopKeeps c (.park u b) ↔ controls u = c := Iff.rfl

/-- A check, then what follows it. -/
theorem answerKeeps_bind {α β : Type} {c : Controls} {P : β → Prop} {r : Except Stop α} {f : α → Except Stop β}
    (h : checkKeeps c r) (hf : ∀ a, answerKeeps c P (f a)) : answerKeeps c P (r >>= f) := by
  cases r with
  | ok a => exact hf a
  | error e => exact h

@[simp] theorem answerKeeps_bind_iff {α β : Type} (c : Controls) (P : β → Prop) (r : Except Stop α) (f : α → Except Stop β) :
    answerKeeps c P (r >>= f) ↔ checkKeeps c r ∧ ∀ a, r = .ok a → answerKeeps c P (f a) := by
  cases r with
  | ok a => exact ⟨fun h => ⟨trivial, fun _ e => by cases e; exact h⟩, fun h => h.2 a rfl⟩
  | error e => exact ⟨fun h => ⟨h, fun _ k => by cases k⟩, fun h => h.1⟩

/-- A change of the state, then what follows it. -/
theorem answerKeeps_bind_body {β : Type} {c : Controls} {P : β → Prop} {r : Body} {f : State → Except Stop β}
    (h : bodyKeeps c r) (hf : ∀ t, controls t = c → answerKeeps c P (f t)) : answerKeeps c P (r >>= f) := by
  cases r with
  | ok a => exact hf a h
  | error e => exact h

@[simp] theorem checkKeeps_raise {α : Type} (c : Controls) (P : α → Prop) (n : Nat) (v : DWord) :
    answerKeeps c P (raise n v : Except Stop α) := trivial

@[simp] theorem checkKeeps_check (c : Controls) (b : Bool) (n : Nat) (v : DWord) : checkKeeps c (check b n v) := by
  unfold check
  split <;> simp

@[simp] theorem checkKeeps_forM {α : Type} {c : Controls} {f : α → Except Stop Unit} (h : ∀ a, checkKeeps c (f a)) :
    ∀ xs : List α, checkKeeps c (forM xs f)
  | [] => trivial
  | a :: as => answerKeeps_bind (h a) fun _ => checkKeeps_forM h as

/-! ## Partitions -/

/-- A change of a partition that leaves its clusters and its margin. -/
theorem controls_updPart (s : State) (p : Nat) {f : Part → Part} (h : ∀ x, (f x).clus = x.clus ∧ (f x).gap = x.gap) :
    controls (updPart s p f) = controls s := by
  have e : (vset s.parts p (f (partAt s p))).map (fun x => (x.clus, x.gap)) = s.parts.map fun x => (x.clus, x.gap) :=
    vset_vget_same _ _ (part0 1) _ _ (by obtain ⟨h1, h2⟩ := h (partAt s p); exact Prod.ext h1 h2)
  simp only [controls, controlsOf, updPart, e]

/-! ## Functions of Machine/Gusset -/

@[simp] theorem controls_setMark (s : State) (phys : Nat) (m : Option Mark) : controls (setMark s phys m) = controls s := by
  simp [setMark]

@[simp] theorem controls_noteUncorr (s : State) (stack off : Nat) : controls (noteUncorr s stack off) = controls s := by
  simp [noteUncorr]

@[simp] theorem controls_readMarked (s : State) (stack off : Nat) (m : Option Mark) (bytes : List Byte) :
    controls (readMarked s stack off m bytes).2 = controls s := by
  unfold readMarked
  split <;> simp

@[simp] theorem controls_readUnit (s : State) (n j g : Nat) : controls (readUnit s n j g).2 = controls s := by
  unfold readUnit
  split <;> simp

@[simp] theorem controls_readUnits (s : State) (n g : Nat) (js : List Nat) : controls (readUnits s n g js).2 = controls s := by
  induction js generalizing s with
  | nil => rfl
  | cons j js ih => simp [readUnits, ih]

@[simp] theorem controls_failRead (s : State) (code : Nat) (tol : Option Nat) : controls (failRead s code tol).2 = controls s := by
  unfold failRead
  dsimp only
  split
  · simp
  · split <;> simp

@[simp] theorem controls_settleRead (tol : Option Nat) (r : ReadOut × State) : controls (settleRead tol r).2 = controls r.2 := by
  unfold settleRead
  split <;> simp

@[simp] theorem controls_rawReconstruct (s : State) (n j g : Nat) : controls (rawReconstruct s n j g).2 = controls s := by
  unfold rawReconstruct
  dsimp only
  repeat' split
  all_goals simp

@[simp] theorem controls_rawDirect (s : State) (n j g : Nat) : controls (rawDirect s n j g).2 = controls s := by
  unfold rawDirect
  split <;> simp [controls_snd ‹_ = _›]

@[simp] theorem controls_rawGranule (s : State) (da : Nat) : controls (rawGranule s da).2 = controls s := by
  unfold rawGranule
  dsimp only
  split
  · next h => simp [controls_snd h]
  · simp

@[simp] theorem controls_readGranule (s : State) (da : Nat) (tol : Option Nat) :
    controls (readGranule s da tol).2 = controls s := by
  simp [readGranule]

@[simp] theorem controls_storeUnit (s : State) (n j g : Nat) (bytes : List Byte) :
    controls (storeUnit s n j g bytes) = controls s := by
  simp [storeUnit]

@[simp] theorem controls_oldForParity (s : State) (n j g : Nat) (o : OldGranule) :
    controls (oldForParity s n j g o).2 = controls s := by
  unfold oldForParity
  split
  · rfl
  · split <;> simp [controls_snd ‹_ = _›]

@[simp] theorem controls_sumUnits (s : State) (n g : Nat) (js : List Nat) : controls (sumUnits s n g js).2 = controls s := by
  induction js generalizing s with
  | nil => rfl
  | cons j js ih =>
    unfold sumUnits
    split <;> simp [ih, controls_snd ‹_ = _›]

@[simp] theorem controls_storeParity (s : State) (n g : Nat) (bytes : List Byte) :
    controls (storeParity s n g bytes) = controls s := by
  simp [storeParity]

@[simp] theorem controls_parityAnew (s : State) (n j g : Nat) (new : List Byte) : controls (parityAnew s n j g new) = controls s := by
  simp [parityAnew]

@[simp] theorem controls_parityUpdate (s : State) (n j g : Nat) (old : OldGranule) (new : List Byte) :
    controls (parityUpdate s n j g old new) = controls s := by
  unfold parityUpdate
  split
  · rfl
  · split
    · simp [controls_snd ‹_ = _›]
    · next h =>
      split <;> simp [controls_snd ‹oldForParity _ _ _ _ _ = _›, controls_snd h]

@[simp] theorem controls_parityForLost (s : State) (n j g : Nat) (new : List Byte) :
    controls (parityForLost s n j g new) = controls s := by
  simp [parityForLost]

@[simp] theorem controls_openGranule (s : State) (n j g : Nat) (old : OldGranule) (bytes : List Byte) (o : Origin) :
    controls (openGranule s n j g old bytes o) = controls s := by
  simp [openGranule]

@[simp] theorem controls_openStripe (s : State) (n : Nat) (bytes : List Byte) (o : Origin) :
    controls (openStripe s n bytes o) = controls s := by
  simp [openStripe]

@[simp] theorem controls_parityOfPart (n : Nat) (s : State) (p : OpenPart) : controls (parityOfPart n s p) = controls s := by
  simp [parityOfPart]

@[simp] theorem controls_parityOfEntry (s : State) (e : OpenEntry) : controls (parityOfEntry s e) = controls s := by
  simp [parityOfEntry]

@[simp] theorem controls_retireEntry (s : State) (e : OpenEntry) : controls (retireEntry s e) = controls s := by
  simp [retireEntry]

@[simp] theorem controls_soil (s : State) (f : Req → Bool) : controls (soil s f) = controls s := by
  simp [soil]

@[simp] theorem controls_dropCopy (s : State) (core space g : Nat) : controls (dropCopy s core space g) = controls s := by
  simp [dropCopy]

@[simp] theorem controls_dropAllCopies (s : State) (space g : Nat) : controls (dropAllCopies s space g) = controls s := by
  simp [dropAllCopies]

@[simp] theorem controls_settleOpened (s : State) (stripe : Nat) : controls (settleOpened s stripe) = controls s := by
  simp [settleOpened]

@[simp] theorem controls_writeGranule (s : State) (da : Nat) (old : OldGranule) (bytes : List Byte) :
    controls (writeGranule s da old bytes).2 = controls s := by
  unfold writeGranule
  dsimp only
  split <;> simp

@[simp] theorem controls_poisonGranule (s : State) (da code : Nat) : controls (poisonGranule s da code) = controls s := by
  simp [poisonGranule]

@[simp] theorem controls_readForMerge (s : State) (da : Nat) (tol : Option Nat) :
    controls (readForMerge s da tol).2 = controls s := by
  unfold readForMerge
  split <;> simp [controls_snd ‹_ = _›]

@[simp] theorem controls_writeNow (s : State) (tol : Option Nat) (da : Nat) (bytes : List Byte) :
    controls (writeNow s tol da bytes).2 = controls s := by
  unfold writeNow
  dsimp only
  split
  · simp
  · split <;> simp [controls_snd ‹_ = _›]

@[simp] theorem controls_afterOwn (s : State) (y : OwnWrite) : controls (afterOwn s y) = controls s := by
  unfold afterOwn
  split <;> simp

@[simp] theorem controls_landDevice (n : Nat) (s : State) : controls (landDevice n s) = controls s := by
  induction n generalizing s with
  | zero => rfl
  | succ n ih =>
    unfold landDevice
    split <;> simp [ih]

@[simp] theorem controls_landWaiting (s : State) : controls (landWaiting s) = controls s := by
  simp [landWaiting]

@[simp] theorem controls_settleEntry (s : State) (e : OpenEntry) : controls (settleEntry s e) = controls s := by
  simp [settleEntry]

@[simp] theorem controls_closeEntry (s : State) (e : OpenEntry) : controls (closeEntry s e) = controls s := by
  simp [closeEntry]

@[simp] theorem controls_countFull (s : State) (n : Nat) : controls (countFull s n) = controls s := by
  simp [countFull]

@[simp] theorem controls_makeRoom (s : State) (n : Nat) : controls (makeRoom s n) = controls s := by
  unfold makeRoom
  split
  · rfl
  · split <;> simp

@[simp] theorem controls_settleBefore (s : State) (n : Nat) : controls (settleBefore s n) = controls s := by
  simp [settleBefore]

@[simp] theorem controls_writePart (s : State) (x : OwnWrite) (tol : Option Nat) (da : Nat) (bytes : List Byte) :
    controls (writePart s x tol da bytes).2 = controls s := by
  unfold writePart
  dsimp only
  split <;> simp

@[simp] theorem controls_writeThrough (s : State) (x : OwnWrite) (tol : Option Nat) (da : Nat) (bytes : List Byte) :
    controls (writeThrough s x tol da bytes).2 = controls s := by
  simp [writeThrough]

@[simp] theorem controls_writeLocal (s : State) (da : Nat) (bytes : List Byte) : controls (writeLocal s da bytes).2 = controls s := by
  simp [writeLocal]

@[simp] theorem controls_writeRing (s : State) (cpl : Option (Nat × Bool)) (da : Nat) (bytes : List Byte) :
    controls (writeRing s cpl da bytes) = controls s := by
  simp [writeRing]

@[simp] theorem controls_readGranules (s : State) (tol : Option Nat) (as : List Nat) :
    controls (readGranules s tol as).2 = controls s := by
  induction as generalizing s with
  | nil => rfl
  | cons a as ih =>
    have hr := controls_readGranule s a tol
    unfold readGranules
    split
    · next b u h =>
      rw [h] at hr
      split
      · next k => exact (controls_snd k).trans ((ih u).trans hr)
      · exact (ih u).trans hr
    · next h => exact (controls_snd h).trans hr
    · next h => exact (controls_snd h).trans hr

@[simp] theorem controls_readThrough (s : State) (tol : Option Nat) (da len : Nat) :
    controls (readThrough s tol da len).2 = controls s := by
  unfold readThrough
  split
  · next h => simp [controls_snd h]
  · simp

@[simp] theorem controls_readLocal (s : State) (da len : Nat) : controls (readLocal s da len).2 = controls s := by
  simp [readLocal]

/-! ## Functions of Machine/Records -/

@[simp] theorem controls_postHost (s : State) (w : Posted) : controls (postHost s w) = controls s := by
  simp [postHost]

@[simp] theorem controls_deliverAmong (s : State) (n : Nat) (f : Posted → Bool) : controls (deliverAmong s n f) = controls s := by
  simp [deliverAmong]

@[simp] theorem controls_deliverWhere (s : State) (f : Posted → Bool) : controls (deliverWhere s f) = controls s := by
  simp [deliverWhere]

@[simp] theorem controls_deliverPacket (s : State) (q i : Nat) : controls (deliverPacket s q i) = controls s := by
  simp [deliverPacket]

theorem deliverOne_keeps (s : State) (p : Port) : optionKeeps (controls s) (deliverOne s p) := by
  simp [deliverOne]

@[simp] theorem controls_deliverFor (s : State) (p : Port) (addr : Nat) : controls (deliverFor s p addr) = controls s := by
  simp [deliverFor]

@[simp] theorem controls_writeRecord (s : State) (cpl : Option (Nat × Bool)) (host : Bool) (home : Port) (a : Nat)
    (bytes : List Byte) : controls (writeRecord s cpl host home a bytes) = controls s := by
  unfold writeRecord
  split
  · split <;> simp
  · simp

@[simp] theorem controls_ringWrite (s : State) (cpl : Option (Nat × Bool)) (b : DWord) (home : Port) (off : Nat) (bytes : List Byte) :
    controls (ringWrite s cpl b home off bytes) = controls s := by
  simp [ringWrite]

@[simp] theorem controls_frPut (s : State) (bytes : List Byte) : controls (frPut s bytes) = controls s := by
  simp [frPut]

@[simp] theorem controls_frFlush (n : Nat) (s : State) : controls (frFlush n s) = controls s := by
  induction n generalizing s with
  | zero => rfl
  | succ n ih =>
    unfold frFlush
    split
    · rfl
    · simp [ih]

@[simp] theorem controls_fenceFor (s : State) (r : FaultRec) : controls (fenceFor s r) = controls s := by
  unfold fenceFor
  dsimp only
  split
  · split <;> simp
  · simp

@[simp] theorem controls_countRecord (s : State) (grade : Nat) : controls (countRecord s grade) = controls s := by
  simp [countRecord]

@[simp] theorem controls_latchG4 (s : State) (grade : Nat) (bytes : List Byte) : controls (latchG4 s grade bytes) = controls s := by
  simp [latchG4]

@[simp] theorem controls_addRecord (s : State) (r : FaultRec) : controls (addRecord s r) = controls s := by
  simp [addRecord]

/-! ## Functions of Machine/Lifecycle -/

@[simp] theorem controls_updPanel (s : State) (pid : Nat) (f : Panel → Panel) : controls (updPanel s pid f) = controls s := by
  simp [updPanel]

@[simp] theorem controls_updGang (s : State) (pid gi : Nat) (f : Gang → Gang) : controls (updGang s pid gi f) = controls s := by
  simp [updGang]

@[simp] theorem controls_updCore (s : State) (c : Nat) (f : CoreSt → CoreSt) : controls (updCore s c f) = controls s := by
  simp [updCore]

@[simp] theorem controls_updQueue (s : State) (q : Nat) (f : Queue → Queue) : controls (updQueue s q f) = controls s := by
  simp [updQueue]

@[simp] theorem controls_updCmd (s : State) (id : Nat) (f : Cmd → Cmd) : controls (updCmd s id f) = controls s := by
  simp [updCmd]

@[simp] theorem controls_closeEntries (s : State) (id : Nat) : controls (closeEntries s id) = controls s := by
  simp [closeEntries]

@[simp] theorem controls_leaveLinks (s : State) (id : Nat) : controls (leaveLinks s id) = controls s := by
  simp [leaveLinks]

@[simp] theorem controls_dropRequests (s : State) (id : Nat) : controls (dropRequests s id) = controls s := by
  simp [dropRequests]

@[simp] theorem controls_leaveFaults (s : State) (id : Nat) : controls (leaveFaults s id) = controls s := by
  simp [leaveFaults]

@[simp] theorem controls_forgetCmd (s : State) (id : Nat) : controls (forgetCmd s id) = controls s := by
  simp [forgetCmd]

@[simp] theorem controls_cancelCmd (s : State) (id : Nat) : controls (cancelCmd s id) = controls s := by
  simp [cancelCmd]

@[simp] theorem controls_cancelWhere (s : State) (f : Cmd → Bool) : controls (cancelWhere s f) = controls s := by
  simp [cancelWhere]

@[simp] theorem controls_clearPositions (s : State) (core pid : Nat) : controls (clearPositions s core pid) = controls s := by
  simp [clearPositions]

@[simp] theorem controls_freeLining (s : State) (core pid : Nat) : controls (freeLining s core pid) = controls s := by
  simp [freeLining]

@[simp] theorem controls_dropLatch (s : State) (core pid : Nat) : controls (dropLatch s core pid) = controls s := by
  simp [dropLatch]

@[simp] theorem controls_saveLatch (s : State) (core pid : Nat) : controls (saveLatch s core pid) = controls s := by
  simp [saveLatch]

@[simp] theorem controls_dropCode (s : State) (c asid kaddr : Nat) : controls (dropCode s c asid kaddr) = controls s := by
  simp [dropCode]

@[simp] theorem controls_removePanel (s : State) (pid : Nat) : controls (removePanel s pid) = controls s := by
  unfold removePanel
  split <;> simp

@[simp] theorem controls_settlePart (s : State) (p : Nat) : controls (settlePart s p) = controls s := by
  simp [settlePart, controls_updPart]

@[simp] theorem controls_writeCompletion (s : State) (q : Nat) (irq : Bool) (i code typ : Nat) :
    controls (writeCompletion s q irq i code typ) = controls s := by
  simp [writeCompletion]

@[simp] theorem controls_finishPkt (s : State) (q : Nat) (p : Pkt) (code : Nat) : controls (finishPkt s q p code) = controls s := by
  simp [finishPkt]

@[simp] theorem controls_cancelWork (s : State) (q i : Nat) : controls (cancelWork s q i) = controls s := by
  unfold cancelWork
  dsimp only
  split <;> simp

@[simp] theorem controls_flushPkt (q code : Nat) (s : State) (p : Pkt) : controls (flushPkt q code s p) = controls s := by
  simp [flushPkt]

@[simp] theorem controls_settleQueue (s : State) (q : Nat) : controls (settleQueue s q) = controls s := by
  simp [settleQueue]

@[simp] theorem controls_packetRecord (s : State) (q i code : Nat) : controls (packetRecord s q i code) = controls s := by
  simp [packetRecord]

@[simp] theorem controls_endPkt (s : State) (q : Nat) (p : Pkt) (code : Nat) : controls (endPkt s q p code) = controls s := by
  simp [endPkt]

@[simp] theorem controls_endPacket (s : State) (q i code : Nat) : controls (endPacket s q i code) = controls s := by
  unfold endPacket
  split <;> simp

@[simp] theorem controls_settleLaunch (s : State) (lid : Nat) : controls (settleLaunch s lid) = controls s := by
  unfold settleLaunch
  split <;> simp

@[simp] theorem controls_failLaunch (s : State) (lid idx : Nat) (code : Option Nat) :
    controls (failLaunch s lid idx code) = controls s := by
  simp [failLaunch]

@[simp] theorem controls_endPanel (s : State) (pid : Nat) : controls (endPanel s pid) = controls s := by
  unfold endPanel
  split <;> simp

@[simp] theorem controls_failPanel (s : State) (pid code : Nat) : controls (failPanel s pid code) = controls s := by
  unfold failPanel
  dsimp only
  split
  · simp
  · split <;> simp

@[simp] theorem controls_killPanel (s : State) (pid cause status tpc : Nat) :
    controls (killPanel s pid cause status tpc) = controls s := by
  unfold killPanel
  dsimp only
  split
  · simp
  · split <;> simp

/-! ## Functions of Machine/Flags -/

@[simp] theorem controls_charge (s : State) (pid : Nat) (tid : BitVec 12) (c : Counts) :
    controls (charge s pid tid c) = controls s := by
  simp [charge]

@[simp] theorem controls_perfAdd (s : State) (pid ev n : Nat) : controls (perfAdd s pid ev n) = controls s := by
  simp [perfAdd]

/-! ## Functions of Machine/Ops -/

@[simp] theorem controls_setV (x : Ctx) (r : Reg) (f : Nat → Word) (s : State) : controls (Ctx.setV x r f s) = controls s := by
  simp [Ctx.setV]

@[simp] theorem controls_setS (x : Ctx) (n : Reg) (f : Nat → DWord) (s : State) : controls (Ctx.setS x n f s) = controls s := by
  simp [Ctx.setS]

@[simp] theorem controls_updEntry (x : Ctx) (f : SplitEntry → SplitEntry) (s : State) :
    controls (Ctx.updEntry x f s) = controls s := by
  simp [Ctx.updEntry]

@[simp] theorem controls_jump (x : Ctx) (pc : Word) (s : State) : controls (Ctx.jump x pc s) = controls s := by
  simp [Ctx.jump]

@[simp] theorem controls_updG (x : Ctx) (f : Gang → Gang) (s : State) : controls (Ctx.updG x f s) = controls s := by
  simp [Ctx.updG]

@[simp] theorem controls_updP (x : Ctx) (f : Panel → Panel) (s : State) : controls (Ctx.updP x f s) = controls s := by
  simp [Ctx.updP]

@[simp] theorem controls_delay (x : Ctx) (n : Nat) (s : State) : controls (Ctx.delay x n s) = controls s := by
  simp [Ctx.delay]

@[simp] theorem controls_count (x : Ctx) (c : Counts) (s : State) : controls (Ctx.count x c s) = controls s := by
  simp [Ctx.count]

@[simp] theorem controls_updSp (s : State) (pid : Nat) (f : Memory → Memory) : controls (updSp s pid f) = controls s := by
  simp [updSp]

@[simp] theorem controls_bankCost (x : Ctx) (as : List Nat) (s : State) : controls (Ctx.bankCost x as s) = controls s := by
  simp [Ctx.bankCost]

@[simp] theorem controls_sealClass (s : State) (pid gi : Nat) (c : Cls) : controls (sealClass s pid gi c) = controls s := by
  simp [sealClass]

@[simp] theorem controls_newCmd (s : State) (o : Owner) (core : Nat) (cls : Cls) (k : CmdKind) (asid : Nat) (f : Cmd → Cmd) :
    controls (newCmd s o core cls k asid f) = controls s := by
  simp [newCmd]

@[simp] theorem controls_issueCmd (s : State) (pid gi : Nat) (c : Cls) (k : CmdKind) (f : Cmd → Cmd) :
    controls (issueCmd s pid gi c k f) = controls s := by
  unfold issueCmd
  split <;> simp

@[simp] theorem controls_issue (x : Ctx) (c : Cls) (k : CmdKind) (s : State) : controls (Ctx.issue x c k s) = controls s := by
  simp [Ctx.issue]

@[simp] theorem controls_await (x : Ctx) (r : Nat) (cmd : Nat) (s : State) : controls (Ctx.await x r cmd s) = controls s := by
  simp [Ctx.await]

@[simp] theorem controls_acquireAt (core : Nat) (scope : Nat) (s : State) : controls (acquireAt core scope s) = controls s := by
  simp [acquireAt]

@[simp] theorem controls_issueHeldReads (id : Nat) (s : State) : controls (issueHeldReads id s) = controls s := by
  simp [issueHeldReads]

@[simp] theorem controls_endAcquire (s : State) (c : Cmd) : controls (endAcquire s c) = controls s := by
  unfold endAcquire
  split <;> simp

@[simp] theorem controls_cancelForUnwind (pid gi : Nat) (s : State) (c : Cmd) :
    controls (cancelForUnwind pid gi s c) = controls s := by
  unfold cancelForUnwind
  split <;> simp

@[simp] theorem controls_beginUnwind (s : State) (pid gi : Nat) (tpc : Word) (t : Trap) :
    controls (beginUnwind s pid gi tpc t) = controls s := by
  unfold beginUnwind
  dsimp only
  split
  · split <;> simp
  · simp

@[simp] theorem controls_takeTrap (s : State) (pid gi ei : Nat) (t : Trap) (unwind : Bool) :
    controls (takeTrap s pid gi ei t unwind) = controls s := by
  obtain ⟨_, h⟩ | ⟨p, g, e, _, _, _, ⟨_, h⟩ | ⟨_, _, h⟩ | ⟨_, _, _, h⟩⟩ := takeTrap_cases s pid gi ei t unwind <;>
    simp [h]

@[simp] theorem controls_returnFromTrap (x : Ctx) (s : State) : controls (returnFromTrap x s) = controls s := by
  simp [returnFromTrap]

/-! ## Functions of Machine/Fragments -/

@[simp] theorem controls_failRendezvous (s : State) (pid lead : Nat) : controls (failRendezvous s pid lead) = controls s := by
  unfold failRendezvous
  split
  · rfl
  · rw [controls_foldl fun t a => by split <;> simp, controls_updPanel]

@[simp] theorem controls_exitSlices (x : Ctx) (s : State) : controls (exitSlices x s) = controls s := by
  unfold exitSlices
  dsimp only
  split <;> simp

@[simp] theorem controls_leaveActive (s : State) (core pid gi : Nat) : controls (leaveActive s core pid gi) = controls s := by
  simp [leaveActive]

@[simp] theorem controls_freeBlocked (s : State) (core : Nat) : controls (freeBlocked s core) = controls s := by
  refine controls_foldl (fun t q => ?_) _ _
  cases q with
  | none => rfl
  | some q =>
    dsimp only
    split <;> simp

@[simp] theorem controls_markReady (s : State) (core : Nat) : controls (markReady s core) = controls s := by
  simp [markReady]

@[simp] theorem controls_refreshCore (s : State) (core : Nat) : controls (refreshCore s core) = controls s := by
  simp [refreshCore]

@[simp] theorem controls_begin (x : Ctx) (s : State) : controls (Ctx.begin x s) = controls s := by
  simp [Ctx.begin]

@[simp] theorem controls_back (x : Ctx) (s : State) : controls (Ctx.back x s) = controls s := by
  simp [Ctx.back]

@[simp] theorem controls_takeSlot (x : Ctx) (at_ : Option Nat) (op : Nat) (s : State) :
    controls (Ctx.takeSlot x at_ op s) = controls s := by
  simp [Ctx.takeSlot]

@[simp] theorem controls_refresh (x : Ctx) (s : State) : controls (Ctx.refresh x s) = controls s := by
  simp [Ctx.refresh]

@[simp] theorem controls_close (x : Ctx) (s : State) : controls (Ctx.close x s) = controls s := by
  simp [Ctx.close]

@[simp] theorem controls_blockAs (x : Ctx) (b : Block) (s : State) : controls (Ctx.blockAs x b s) = controls s := by
  simp [Ctx.blockAs]

@[simp] theorem controls_yieldAfter (x : Ctx) (i : Instr) (s : State) : controls (Ctx.yieldAfter x i s) = controls s := by
  simp [Ctx.yieldAfter]

@[simp] theorem controls_countIssue (x : Ctx) (s : State) : controls (Ctx.countIssue x s) = controls s := by
  simp [Ctx.countIssue]

/-- Whatever an attempt comes to, with controls that its body left. -/
theorem controls_conclude (x : Ctx) (i : Instr) (s : State) (b : Body) (h : bodyKeeps (controls s) b) :
    controls (x.conclude i s b) = controls s := by
  unfold Ctx.conclude
  split <;> simp_all

/-! ## Functions of Machine/Layout -/

@[simp] theorem controls_countInvalid (x : Ctx) (reg n : Nat) (s : State) : controls (Ctx.countInvalid x reg n s) = controls s := by
  simp [Ctx.countInvalid]

/-! ## Functions of Machine/Translate -/

@[simp] theorem controls_readEntry (s : State) (da : Nat) : controls (readEntry s da).2 = controls s := by
  unfold readEntry
  split
  · rfl
  · split <;> simp [controls_snd ‹_ = _›]

@[simp] theorem controls_walkFrom (s : State) (va n table : Nat) : controls (walkFrom s va n table).2 = controls s := by
  induction n generalizing s table with
  | zero => rfl
  | succ n ih =>
    unfold walkFrom
    dsimp only
    split
    · next h => simp [controls_snd h]
    · next h =>
      have e := controls_snd h
      split
      · simp [e]
      · split
        · simp [e]
        · split <;> simp [e, ih]

@[simp] theorem controls_walkVa (s : State) (asid va : Nat) : controls (walkVa s asid va).2 = controls s := by
  unfold walkVa
  split
  · rfl
  · split
    · next h => simp [controls_snd h]
    · next h => split <;> simp [controls_snd h]

@[simp] theorem controls_updTlb (s : State) (core : Nat) (f : List TlbEntry → List TlbEntry) :
    controls (updTlb s core f) = controls s := by
  simp [updTlb]

@[simp] theorem controls_tlbFill (s : State) (core : Nat) (t : TlbEntry) : controls (tlbFill s core t) = controls s := by
  simp [tlbFill]

@[simp] theorem controls_tlbDrop (s : State) (f : TlbEntry → Bool) : controls (tlbDrop s f) = controls s := by
  simp [tlbDrop]

@[simp] theorem controls_tlbDropVa (s : State) (asid va : Nat) : controls (tlbDropVa s asid va) = controls s := by
  simp [tlbDropVa]

@[simp] theorem controls_fqPut (s : State) (x : XFault) : controls (fqPut s x).1 = controls s := by
  simp [fqPut]

@[simp] theorem controls_fqFlush (xs : List XFault) (s : State) : controls (fqFlush xs s) = controls s := by
  induction xs generalizing s with
  | nil => rfl
  | cons x xs ih => simp [fqFlush, ih]

@[simp] theorem controls_fqSettle (s : State) : controls (fqSettle s) = controls s := by
  simp [fqSettle]

@[simp] theorem controls_raiseFault (s : State) (c : Cmd) (kind va access : Nat) :
    controls (raiseFault s c kind va access) = controls s := by
  simp [raiseFault]

@[simp] theorem controls_noteFail (s : State) (id code addr : Nat) : controls (noteFail s id code addr) = controls s := by
  simp [noteFail]

@[simp] theorem controls_failWith (s : State) (id code addr : Nat) : controls (failWith s id code addr) = controls s := by
  simp [failWith]

@[simp] theorem controls_poolRead (s : State) (i : Nat) : controls (poolRead s i).2 = controls s := by
  unfold poolRead
  dsimp only
  split <;> simp

@[simp] theorem controls_resumePool (s : State) : controls (resumePool s) = controls s := by
  simp [resumePool]

@[simp] theorem controls_poolWrite (s : State) (bytes : List Byte) : controls (poolWrite s bytes) = controls s := by
  simp [poolWrite]

@[simp] theorem controls_applyLater (s : State) : controls (applyLater s) = controls s := by
  simp [applyLater]

@[simp] theorem controls_endPool (s : State) : controls (endPool s) = controls s := by
  unfold endPool
  split <;> simp

@[simp] theorem controls_readImage (s : State) (e : DWord) : controls (readImage s e).2 = controls s := by
  unfold readImage
  split <;> simp

@[simp] theorem controls_enterFrame (s : State) (asid va ptr : Nat) (e : DWord) (frame : Nat) :
    controls (enterFrame s asid va ptr e frame) = controls s := by
  simp [enterFrame]

@[simp] theorem controls_expandPage (s : State) (asid va ptr : Nat) (e : DWord) (b : List Byte) :
    controls (expandPage s asid va ptr e b).2 = controls s := by
  unfold expandPage
  dsimp only
  split
  · rfl
  · split
    · rfl
    · split
      · next h => simp [controls_snd h]
      · next h => split <;> simp [controls_snd ‹writeLocal _ _ _ = _›, controls_snd h]

/-! ## Functions of Machine/Release -/

@[simp] theorem controls_sendHeld (s : State) (pid gi : Nat) (bounds : List (Nat × Nat)) :
    controls (sendHeld s pid gi bounds).1 = controls s := by
  unfold sendHeld
  dsimp only
  split
  · split <;> simp
  · simp

@[simp] theorem controls_pairMatch (s : State) (prim sec gi : Nat) (bp bs : List (Nat × Nat)) :
    controls (pairMatch s prim sec gi bp bs).1 = controls s := by
  simp [pairMatch]

@[simp] theorem controls_pairDiffer (s : State) (prim sec other gi : Nat) (bp bs : List (Nat × Nat)) :
    controls (pairDiffer s prim sec other gi bp bs) = controls s := by
  unfold pairDiffer
  dsimp only
  split
  · split <;> simp
  · simp

@[simp] theorem controls_keepSeals (x : Ctx) (bounds : List (Nat × Nat)) (paired : Option (Option Nat)) (s : State) :
    controls (Ctx.keepSeals x bounds paired s) = controls s := by
  simp [Ctx.keepSeals]

@[simp] theorem controls_refreshOther (x : Ctx) (core : Nat) (s : State) : controls (Ctx.refreshOther x core s) = controls s := by
  simp [Ctx.refreshOther]

/-! ## Functions of Machine/Control -/

@[simp] theorem controls_branch (x : Ctx) (next : Nat → Word) (t : Word) (s : State) :
    controls (Ctx.branch x next t s) = controls s := by
  simp [Ctx.branch]

@[simp] theorem controls_writeEm (x : Ctx) (a : Reg) (s : State) : controls (Ctx.writeEm x a s) = controls s := by
  simp [Ctx.writeEm]

@[simp] theorem Ctx.controls_writeRing (x : Ctx) (f : Ring → Ring) (s : State) : controls (x.writeRing f s) = controls s := by
  simp [Ctx.writeRing]

/-! ## Functions of Machine/CrossLane -/

@[simp] theorem controls_secondPass (x : Ctx) (s : State) : controls (Ctx.secondPass x s) = controls s := by
  simp [Ctx.secondPass]

/-! ## Functions of Machine/Scratch -/

@[simp] theorem controls_ownTile (x : Ctx) (s : State) : controls (Ctx.ownTile x s) = controls s := by
  simp [Ctx.ownTile]

/-! ## Functions of Machine/Matrix -/

@[simp] theorem controls_sendMma (s : State) (pid : Nat) (lead ta tb : Nat) (keepb ck : Bool) (layB : List Nat) (as : List Arrival) :
    controls (sendMma s pid lead ta tb keepb ck layB as) = controls s := by
  unfold sendMma
  split <;> simp

@[simp] theorem controls_releaseJoint (x : Ctx) (lead : Nat) (s : State) : controls (Ctx.releaseJoint x lead s) = controls s := by
  simp [Ctx.releaseJoint]

/-! ## Functions of Machine/MatrixRun -/

@[simp] theorem controls_countBad (pid : Nat) (cs : List (Nat × Nat)) (s : State) : controls (countBad pid cs s) = controls s := by
  simp [countBad]

@[simp] theorem controls_noteKept (pid lead : Nat) (left : Bool) (s : State) : controls (noteKept pid lead left s) = controls s := by
  simp [noteKept]

@[simp] theorem controls_setBLatch (core id : Nat) (f : BLatch → BLatch) (s : State) :
    controls (setBLatch core id f s) = controls s := by
  simp [setBLatch]

@[simp] theorem controls_runMma (s : State) (c : Cmd) (lead ta tb : Nat) (keepb ck : Bool) (layB : List Nat) (scaleB : Scale) (alphaB : BitVec 256) (as : List Arrival) :
    controls (runMma s c lead ta tb keepb ck layB scaleB alphaB as).1 = controls s := by
  unfold runMma
  dsimp only
  repeat' split
  all_goals simp

@[simp] theorem controls_runMxil (s : State) (c : Cmd) (gi fmt : Nat) (lay : List Nat) (scale : Scale) (alpha : BitVec 256) (krows : Nat) :
    controls (runMxil s c gi fmt lay scale alpha krows) = controls s := by
  simp [runMxil]

@[simp] theorem controls_runMxz (s : State) (c : Cmd) (first count : Nat) : controls (runMxz s c first count) = controls s := by
  simp [runMxz]

@[simp] theorem controls_runMxwr (s : State) (c : Cmd) (t : Ty) (lay : List Nat) (first count : Nat) :
    controls (runMxwr s c t lay first count) = controls s := by
  simp [runMxwr]

/-! ## Functions of Machine/Engine -/

@[simp] theorem controls_setWix (x : Ctx) (w : Nat) (s : State) : controls (Ctx.setWix x w s) = controls s := by
  simp [Ctx.setWix]

@[simp] theorem controls_sendAtomic (x : Ctx) (form : AtForm) (k : CmdKind) (s : State) :
    controls (Ctx.sendAtomic x form k s) = controls s := by
  simp [Ctx.sendAtomic]

/-! ## Functions of Machine/Smock -/

@[simp] theorem controls_joinDone (x : Ctx) (c : Cls) (s : State) : controls (Ctx.joinDone x c s) = controls s := by
  simp [Ctx.joinDone]

/-! ## Functions of Machine/Pieces -/

@[simp] theorem controls_captureLine (s : State) (id line : Nat) : controls (captureLine s id line) = controls s := by
  unfold captureLine
  split <;> simp

@[simp] theorem controls_captureLines (s : State) (id : Nat) (ls : List Nat) : controls (captureLines s id ls) = controls s := by
  simp [captureLines]

theorem landLine_keeps (s : State) (c : Cmd) (line : Nat) : optionKeeps (controls s) (landLine s c line) := by
  simp [landLine]

@[simp] theorem controls_landAll (s : State) (c : Cmd) : controls (landAll s c) = controls s := by
  simp [landAll]

theorem spReadNow_keeps (s : State) (id line : Nat) : optionKeeps (controls s) (spReadNow s id line) := by
  unfold spReadNow
  dsimp only
  split
  · split <;> simp
  · simp

theorem spWriteNow_keeps (s : State) (id line : Nat) : optionKeeps (controls s) (spWriteNow s id line) := by
  unfold spWriteNow
  split
  · refine optionKeeps_ite (optionKeeps_bind _ _ fun d => ?_) (optionKeeps_none _)
    rw [← controls_captureLines s id (sourceLines _)]
    exact landLine_keeps _ _ _
  · simp

/-! ## Functions of Machine/Access -/

@[simp] theorem controls_markDone (s : State) (id k : Nat) : controls (markDone s id k) = controls s := by
  simp [markDone]

@[simp] theorem controls_gotData (s : State) (id k : Nat) (bs : List Byte) : controls (gotData s id k bs) = controls s := by
  simp [gotData]

@[simp] theorem controls_keepCopy (s : State) (c : Cmd) (p : Spot) (bytes : List Byte) :
    controls (keepCopy s c p bytes) = controls s := by
  simp [keepCopy]

@[simp] theorem controls_seenCopy (s : State) (c : Cmd) (x : Copy) : controls (seenCopy s c x) = controls s := by
  simp [seenCopy]

@[simp] theorem controls_noteSeen (s : State) (c : Cmd) (p : Spot) (granule : List Byte) :
    controls (noteSeen s c p granule) = controls s := by
  simp [noteSeen]

@[simp] theorem controls_returned (s : State) (c : Cmd) (p : Spot) (granule : List Byte) :
    controls (returned s c p granule).2 = controls s := by
  unfold returned
  split <;> simp

@[simp] theorem controls_putReq (s : State) (c : Cmd) (k : Nat) (kind : ReqKind) (port dev addr len : Nat) (tag : Option Nat) :
    controls (putReq s c k kind port dev addr len tag) = controls s := by
  simp [putReq]

@[simp] theorem controls_markSent (s : State) (id : Nat) (ks : List Nat) : controls (markSent s id ks) = controls s := by
  simp [markSent]

@[simp] theorem controls_sendReq (s : State) (c : Cmd) (k : Nat) (kind : ReqKind) (port dev addr len : Nat) :
    controls (sendReq s c k kind port dev addr len) = controls s := by
  simp [sendReq]

@[simp] theorem controls_noteTries (s : State) (id : Nat) (ks : List Nat) (t : StepTry) :
    controls (noteTries s id ks t) = controls s := by
  simp [noteTries]

@[simp] theorem controls_failStep (s : State) (c : Cmd) (ks : List Nat) (t : StepTry) (code va : Nat) :
    controls (failStep s c ks t code va) = controls s := by
  simp [failStep]

theorem sendToPeer_keeps (s : State) (c : Cmd) (k dev addr len : Nat) (kind : ReqKind) (va : Nat) :
    optionKeeps (controls s) (sendToPeer s c k dev addr len kind va) := by
  unfold sendToPeer
  refine optionKeeps_ite (optionKeeps_none _) (optionKeeps_ite (by simp) ?_)
  split <;> simp

@[simp] theorem controls_sendBlocks (s : State) (c : Cmd) (r : StepRun) (last : Option Nat) (tag : Nat) :
    controls (sendBlocks s c r last tag) = controls s :=
  controls_foldl (fun t a => by split <;> simp) _ _

theorem sendStep_keeps (s : State) (c : Cmd) (k : Nat) (r : StepRun) (va : Nat) : optionKeeps (controls s) (sendStep s c k r va) := by
  unfold sendStep
  dsimp only
  repeat' split
  all_goals simp

@[simp] theorem controls_readDone (s : State) (c : Cmd) (k : Nat) (p : Spot) (granule : List Byte) (len : Nat) :
    controls (readDone s c k p granule len) = controls s := by
  simp [readDone]

@[simp] theorem controls_readFound (s : State) (c : Cmd) (k : Nat) (p : Spot) (granule : List Byte) (len : Nat) :
    controls (readFound s c k p granule len) = controls s := by
  simp [readFound]

theorem settlePiece_keeps (s : State) (c : Cmd) (k va da len : Nat) (tol : Option Nat) (r : ReadOut × State)
    (h : controls r.2 = controls s) : optionKeeps (controls s) (settlePiece s c k va da len tol r) := by
  have e := controls_settleRead tol r
  rw [h] at e
  unfold settlePiece
  split
  · simpa using h
  · simp
  · next k => rw [k] at e; simpa using e
  · next k => rw [k] at e; simpa using e
  · simp

theorem beginRead_keeps (s : State) (c : Cmd) (k va len : Nat) (p : Spot) :
    optionKeeps (controls s) (beginRead s c k va len p) := by
  cases p with
  | loc da tol =>
    have e := settlePiece_keeps s c k va da len tol (rawDirect s (placeOf da).stripe (placeOf da).unit (placeOf da).gran)
      (by simp)
    refine optionKeeps_ite (by simp) ?_
    cases h : settlePiece s c k va da len tol (rawDirect s (placeOf da).stripe (placeOf da).unit (placeOf da).gran) with
    | none => simp
    | some t => simpa using e.controls_eq h
  | peer dev addr => exact sendToPeer_keeps ..
  | host addr =>
    unfold beginRead
    dsimp only
    split
    · exact optionKeeps_ite (by simp) (optionKeeps_none _)
    · simp

theorem noteWait_keeps (s : State) (stripe id k : Nat) : optionKeeps (controls s) (noteWait s stripe id k) := by
  unfold noteWait
  dsimp only
  split <;> simp

@[simp] theorem controls_unwait (s : State) (id k : Nat) : controls (unwait s id k) = controls s := by
  simp [unwait]

@[simp] theorem controls_markOpened (s : State) (id : Nat) (ks : List Nat) (stripe : Nat) :
    controls (markOpened s id ks stripe) = controls s := by
  simp [markOpened]

@[simp] theorem controls_failWrite (s : State) (c : Cmd) (k code va : Nat) : controls (failWrite s c k code va) = controls s := by
  unfold failWrite
  split <;> simp

@[simp] theorem controls_enterWhole (s : State) (c : Cmd) (k : Nat) (q : Place) (bytes : List Byte) :
    controls (enterWhole s c k q bytes) = controls s := by
  simp [enterWhole]

theorem beginWrite_keeps (s : State) (c : Cmd) (k va da : Nat) (ws : List WByte) :
    optionKeeps (controls s) (beginWrite s c k va da ws) := by
  unfold beginWrite
  dsimp only
  refine optionKeeps_ite (by simp) (optionKeeps_ite (by simp) (optionKeeps_ite (by simp) (optionKeeps_ite ?_ ?_)))
  · exact noteWait_keeps ..
  · split
    · exact optionKeeps_ite (by simp) (by simp)
    · simp

@[simp] theorem controls_postBytes (s : State) (c : Cmd) (p : Port) (addr va : Nat) (ws : List WByte) :
    controls (postBytes s c p addr va ws) = controls s := by
  simp [postBytes]

theorem writeAway_keeps (s : State) (c : Cmd) (k va : Nat) (ws : List WByte) (p : Spot) :
    optionKeeps (controls s) (writeAway s c k va ws p) := by
  cases p with
  | loc da tol => exact optionKeeps_none _
  | peer dev addr =>
    refine optionKeeps_ite (optionKeeps_bind _ _ fun r => ?_) (sendToPeer_keeps ..)
    rw [← controls_captureLines s c.id (runLines s c r)]
    exact sendStep_keeps ..
  | host addr =>
    unfold writeAway
    dsimp only
    split <;> simp

theorem mergeWrite_keeps (s : State) (c : Cmd) (k va da : Nat) (tol : Option Nat) (new : List Byte → List Byte)
    (keep : List Byte → State → State) (h : ∀ b t, controls (keep b t) = controls t) :
    optionKeeps (controls s) (mergeWrite s c k va da tol new keep) := by
  unfold mergeWrite
  dsimp only
  refine optionKeeps_ite (by simp) (optionKeeps_ite (by simp) (optionKeeps_ite (by simp) (optionKeeps_ite ?_ ?_)))
  · exact noteWait_keeps ..
  · split
    · next e => exact optionKeeps_ite (by simp) (by simp [controls_snd e])
    · next e => simp [h, controls_snd e]

@[simp] theorem controls_noteOverflow (s : State) (c : Cmd) (k : Nat) (old new : List Byte) :
    controls (noteOverflow s c k old new) = controls s := by
  unfold noteOverflow
  split <;> simp

theorem opLocal_keeps (s : State) (c : Cmd) (k va len da : Nat) (tol : Option Nat) :
    optionKeeps (controls s) (opLocal s c k va len da tol) := by
  unfold opLocal
  dsimp only
  refine optionKeeps_ite (by simp) (optionKeeps_ite ?_ (optionKeeps_ite (by simp) ?_))
  · exact mergeWrite_keeps _ _ _ _ _ _ _ _ fun b t => by simp
  · split
    · next e => simp [controls_snd e]
    · next e => simp [controls_snd e]
    · simp

theorem signalHost_keeps (s : State) (c : Cmd) (k addr : Nat) : optionKeeps (controls s) (signalHost s c k addr) := by
  unfold signalHost
  dsimp only
  repeat' split
  all_goals simp

@[simp] theorem controls_stallCmd (s : State) (c : Cmd) (kind va access : Nat) :
    controls (stallCmd s c kind va access) = controls s := by
  unfold stallCmd
  dsimp only
  split
  · next pid _ => cases getPanel (raiseFault s c kind va access) pid <;> simp
  · simp

/-- What the taking of a frame leaves. -/
theorem poolNext_keeps (s : State) (id : Nat) : poolKeeps (controls s) (poolNext s id) := by
  unfold poolNext
  split
  · split <;> simp [poolKeeps]
  · split
    · simp [poolKeeps]
    · split <;> simp [poolKeeps, controls_snd ‹_ = _›]

theorem expandFor_keeps (s : State) (c : Cmd) (va ptr : Nat) (e : DWord) (access : Nat) :
    optionKeeps (controls s) (expandFor s c va ptr e access) := by
  have h := poolNext_keeps s c.id
  unfold expandFor
  refine optionKeeps_ite (by simp) (optionKeeps_ite (by simp) ?_)
  split
  · simp
  · next k => simpa [k, poolKeeps] using h
  · next k => simpa [k, poolKeeps] using h
  · next k =>
    rw [k] at h
    split
    · next l => exact (optionKeeps_some _ _).mpr ((controls_snd l).trans (by simpa [poolKeeps] using h))
    · simp
    · next l => simpa [poolKeeps, controls_snd l] using h

@[simp] theorem controls_endReq (s : State) (r : Req) : controls (endReq s r) = controls s := by
  simp [endReq]

@[simp] theorem controls_killReq (s : State) (r : Req) : controls (killReq s r) = controls s := by
  simp [killReq]

@[simp] theorem controls_respondRead (s : State) (c : Cmd) (r : Req) (bs : List Byte) :
    controls (respondRead s c r bs) = controls s := by
  unfold respondRead
  split <;> simp

theorem respond_keeps (s : State) (c : Cmd) (r : Req) (y : PeerReply) : optionKeeps (controls s) (respond s c r y) := by
  unfold respond
  dsimp only
  repeat' split
  all_goals simp

@[simp] theorem controls_failReq (s : State) (r : Req) (code : Nat) : controls (failReq s r code) = controls s := by
  unfold failReq
  dsimp only
  split
  · split <;> simp
  · simp

/-! ## Functions of Machine/Pleat -/

@[simp] theorem controls_addIntoMemory (s : State) (t : Tile) : controls (addIntoMemory s t) = controls s := by
  simp [addIntoMemory]

@[simp] theorem controls_updPleat (s : State) (n : Nat) (f : List PleatEntry → List PleatEntry) :
    controls (updPleat s n f) = controls s := by
  simp [updPleat]

theorem controls_arriveAt (n : Nat) (next : State → Tile → State) (s : State) (t : Tile)
    (h : ∀ s t, controls (next s t) = controls s) : controls (arriveAt n next s t) = controls s := by
  unfold arriveAt
  dsimp only
  split <;> simp [h]

@[simp] theorem controls_arriveCluster (s : State) (t : Tile) : controls (arriveCluster s t) = controls s :=
  controls_arriveAt _ _ _ _ controls_addIntoMemory

@[simp] theorem controls_arriveTile (station : Option Nat) (s : State) (t : Tile) :
    controls (arriveTile station s t) = controls s := by
  cases station with
  | none => exact controls_arriveCluster s t
  | some n => exact controls_arriveAt _ _ _ _ controls_arriveCluster

@[simp] theorem controls_remember (s : State) (dev tag : Nat) : controls (remember s dev tag) = controls s := by
  simp [remember]

/-! ## Functions of Machine/Complete -/

@[simp] theorem controls_landRegs (s : State) (c : Cmd) (ok : Bool) : controls (landRegs s c ok) = controls s := by
  refine controls_foldl (fun t r => ?_) _ _
  dsimp only
  split <;> simp

@[simp] theorem controls_holdWrites (s : State) (c : Cmd) : controls (holdWrites s c).1 = controls s := by
  unfold holdWrites
  dsimp only
  split
  · simp
  · split <;> simp

@[simp] theorem controls_takeMirror (s : State) (c : Cmd) : controls (takeMirror s c).1 = controls s := by
  unfold takeMirror
  split <;> simp

@[simp] theorem controls_releaseFold (s : State) (c : Cmd) : controls (releaseFold s c) = controls s := by
  unfold releaseFold
  dsimp only
  split
  · split <;> simp
  · simp

@[simp] theorem controls_releaseFolds (s : State) : controls (releaseFolds s) = controls s := by
  simp [releaseFolds]

@[simp] theorem controls_takeBinding (s : State) (c : Cmd) (slot : Nat) (cfg : Option SmockCfg) :
    controls (takeBinding s c slot cfg) = controls s := by
  simp [takeBinding]

@[simp] theorem controls_rereadWaits (s : State) : controls (rereadWaits s) = controls s := by
  simp [rereadWaits]

@[simp] theorem controls_finalEffect (s : State) (c : Cmd) : controls (finalEffect s c).1 = controls s := by
  unfold finalEffect
  dsimp only
  repeat' split
  all_goals simp

@[simp] theorem controls_failedEffect (s : State) (c : Cmd) : controls (failedEffect s c) = controls s := by
  unfold failedEffect
  split <;> simp

@[simp] theorem controls_issueStage (s : State) (pid k : Nat) : controls (issueStage s pid k) = controls s := by
  unfold issueStage
  split
  · split <;> simp
  · rfl

@[simp] theorem controls_issueWriteBack (s : State) (pid k : Nat) : controls (issueWriteBack s pid k) = controls s := by
  unfold issueWriteBack
  split
  · split <;> simp
  · rfl

@[simp] theorem controls_addFailure (s : State) (pid gi : Nat) (b : Batch) : controls (addFailure s pid gi b) = controls s := by
  simp [addFailure]

@[simp] theorem controls_settleBatches (s : State) (pid id : Nat) (bs : List (Nat × Nat)) (f : Option Fail) :
    controls (settleBatches s pid id bs f) = controls s := by
  simp [settleBatches]

@[simp] theorem controls_endMove (s : State) (p : Panel) : controls (endMove s p) = controls s := by
  unfold endMove
  split <;> simp

@[simp] theorem controls_releaseMade (s : State) (p : Panel) : controls (releaseMade s p) = controls s := by
  simp [releaseMade]

@[simp] theorem controls_sealAll (s : State) (pid gi : Nat) : controls (sealAll s pid gi) = controls s := by
  simp [sealAll]

@[simp] theorem controls_moveMatch (s : State) (prim sec gi : Nat) : controls (moveMatch s prim sec gi) = controls s := by
  simp [moveMatch]

@[simp] theorem controls_moveGang (p : Panel) (s : State) (gi : Nat) : controls (moveGang p s gi) = controls s := by
  unfold moveGang
  split <;> simp

@[simp] theorem controls_settleMove (s : State) (pid : Nat) : controls (settleMove s pid) = controls s := by
  unfold settleMove
  split <;> simp

@[simp] theorem controls_afterCmd (s : State) (c : Cmd) (f : Option Fail) : controls (afterCmd s c f) = controls s := by
  unfold afterCmd
  split
  · cases f <;> simp
  · simp
  · simp
  · simp
  · simp
  · exact controls_foldl (fun t x => by cases f <;> simp) _ _
  · simp
  · rfl

@[simp] theorem controls_endCmd (s : State) (c : Cmd) (f : Option Fail) : controls (endCmd s c f) = controls s := by
  simp [endCmd]

@[simp] theorem controls_passMirror (s : State) (c : Cmd) (f : Option Fail) : controls (passMirror s c f) = controls s := by
  unfold passMirror
  split <;> simp

@[simp] theorem controls_completeFailed (s : State) (c : Cmd) (f : Fail) : controls (completeFailed s c f) = controls s := by
  simp [completeFailed]

@[simp] theorem controls_refuseTile (s : State) (c : Cmd) (f : Fail) : controls (refuseTile s c f) = controls s := by
  unfold refuseTile
  split <;> simp

@[simp] theorem controls_completeDone (s : State) (c : Cmd) : controls (completeDone s c) = controls s := by
  unfold completeDone
  dsimp only
  repeat' split
  all_goals simp

@[simp] theorem controls_endMeasure (s : State) (c : Cmd) (pid va len : Nat) (r : Option (List Byte)) :
    controls (endMeasure s c pid va len r) = controls s := by
  simp [endMeasure]

theorem measureEnd_keeps (s : State) (c : Cmd) (pid : Nat) : optionKeeps (controls s) (measureEnd s c pid) := by
  unfold measureEnd
  split
  · exact optionKeeps_ite (optionKeeps_none _) (optionKeeps_ite (by simp) (optionKeeps_map _ _ (by simp)))
  · exact optionKeeps_none _

/-! ## Functions of Machine/Stacks -/

@[simp] theorem controls_killPackets (s : State) (q : Nat) : controls (killPackets s q) = controls s := by
  simp [killPackets]

@[simp] theorem controls_killQueue (s : State) (q : Nat) : controls (killQueue s q) = controls s := by
  simp [killQueue]

@[simp] theorem controls_killRecord (source : BitVec 8) (q i : Nat) (s : State) :
    controls (killRecord source q i s) = controls s := by
  simp [killRecord]

@[simp] theorem controls_killAllQueues (source : BitVec 8) (s : State) : controls (killAllQueues source s) = controls s := by
  simp [killAllQueues]

@[simp] theorem controls_poisonParity (s : State) (n : Nat) : controls (poisonParity s n) = controls s := by
  simp [poisonParity]

@[simp] theorem controls_openWriteRecord (s : State) (n k : Nat) (p : Port) : controls (openWriteRecord s n k p) = controls s := by
  simp [openWriteRecord]

@[simp] theorem controls_failOpen (s : State) (id : Nat) (e : OpenEntry) : controls (failOpen s id e) = controls s := by
  simp [failOpen]

@[simp] theorem controls_closeAtLoss (k : Nat) (s : State) (e : OpenEntry) : controls (closeAtLoss k s e) = controls s := by
  unfold closeAtLoss
  split
  · simp
  · split <;> simp

@[simp] theorem controls_recordOpen (k : Nat) (s : State) (e : OpenEntry) : controls (recordOpen k s e) = controls s := by
  unfold recordOpen
  split <;> simp

@[simp] theorem controls_lossRecord (s : State) (k cause : Nat) : controls (lossRecord s k cause) = controls s := by
  simp [lossRecord]

@[simp] theorem controls_enterFailed (s : State) : controls (enterFailed s) = controls s := by
  simp [enterFailed]

@[simp] theorem controls_loseStack (s : State) (x : Nat × Nat) : controls (loseStack s x) = controls s := by
  simp [loseStack]

@[simp] theorem controls_declareLoss (s : State) (k cause : Nat) : controls (declareLoss s k cause) = controls s := by
  simp [declareLoss]

@[simp] theorem controls_poolWritten (s : State) (v : DWord) : controls (poolWritten s v) = controls s := by
  simp [poolWritten]

/-! ## Functions of Machine/HostPort -/

@[simp] theorem controls_loseWrite (s : State) (w : Posted) : controls (loseWrite s w) = controls s := by
  unfold loseWrite
  split
  · split
    · simp
    · split <;> simp
  · rfl

@[simp] theorem controls_linkLost (s : State) (p : Port) : controls (linkLost s p) = controls s := by
  simp [linkLost]

@[simp] theorem controls_freeSems (s : State) (p : Port) : controls (freeSems s p) = controls s := by
  simp [freeSems]

@[simp] theorem controls_resetPort (s : State) (p : Port) : controls (resetPort s p) = controls s := by
  simp [resetPort]

/-! ## Functions of Machine/Queues -/

@[simp] theorem controls_startQueue (s : State) (q : Nat) : controls (startQueue s q) = controls s := by
  simp [startQueue]

@[simp] theorem controls_dropFetch (s : State) (q : Nat) : controls (dropFetch s q) = controls s := by
  simp [dropFetch]

@[simp] theorem controls_flushFetched (s : State) (q : Nat) : controls (flushFetched s q) = controls s := by
  simp [flushFetched]

@[simp] theorem controls_stopQueue (s : State) (q : Nat) : controls (stopQueue s q) = controls s := by
  simp [stopQueue]

@[simp] theorem controls_flushUnread (q n : Nat) (s : State) : controls (flushUnread q n s) = controls s := by
  induction n generalizing s with
  | zero => rfl
  | succ n ih => simp [flushUnread, ih]

@[simp] theorem controls_flushAll (s : State) (q : Nat) : controls (flushAll s q) = controls s := by
  simp [flushAll]

@[simp] theorem controls_recoverQueue (s : State) (q : Nat) : controls (recoverQueue s q) = controls s := by
  simp [recoverQueue]

@[simp] theorem controls_disableQueue (s : State) (q : Nat) : controls (disableQueue s q) = controls s := by
  simp [disableQueue]

@[simp] theorem controls_writeCtl (s : State) (q : Nat) (v : DWord) : controls (writeCtl s q v) = controls s := by
  simp [writeCtl]

@[simp] theorem controls_writeTail (s : State) (q : Nat) (v : DWord) : controls (writeTail s q v) = controls s := by
  simp [writeTail]

@[simp] theorem controls_takePacket (s : State) (q : Nat) (bytes : Option (List Byte)) (code : Nat) :
    controls (takePacket s q bytes code) = controls s := by
  unfold takePacket
  split <;> simp

@[simp] theorem controls_answerFault (s : State) (v : DWord) : controls (answerFault s v) = controls s := by
  unfold answerFault
  split <;> simp

@[simp] theorem controls_endInval (s : State) : controls (endInval s) = controls s := by
  unfold endInval
  split <;> simp

/-! ## Functions of Machine/Packets -/

@[simp] theorem controls_markStarted (s : State) (q i : Nat) : controls (markStarted s q i) = controls s := by
  simp [markStarted]

@[simp] theorem controls_markPolled (s : State) (q i : Nat) : controls (markPolled s q i) = controls s := by
  simp [markPolled]

@[simp] theorem controls_pktCmd (s : State) (q : BitVec 8) (i : Word) (c : Cls) (k : CmdKind) :
    controls (pktCmd s q i c k) = controls s := by
  simp [pktCmd]

@[simp] theorem controls_putCode (s : State) (id : Nat) (b : Byte) : controls (putCode s id b) = controls s := by
  simp [putCode]

@[simp] theorem controls_leavePage (s : State) (id : Nat) : controls (leavePage s id) = controls s := by
  simp [leavePage]

@[simp] theorem controls_putImage (s : State) (c : Cmd) (va ptr : Nat) (e : DWord) (page image : List Byte) :
    controls (putImage s c va ptr e page image) = controls s := by
  unfold putImage
  split <;> simp [controls_snd ‹_ = _›]

theorem compressPage_keeps (s : State) (c : Cmd) (va level ptr : Nat) (e : DWord) :
    optionKeeps (controls s) (compressPage s c va level ptr e) := by
  unfold compressPage
  refine optionKeeps_ite (by simp) (optionKeeps_ite (expandFor_keeps ..) (optionKeeps_ite (by simp)
    (optionKeeps_ite (by simp) (optionKeeps_ite (by simp) ?_))))
  split
  · simp
  · next h => simp [controls_snd h]
  · next h => exact optionKeeps_ite (by simp [controls_snd h]) (by simp [controls_snd h])

theorem compressNext_keeps (s : State) (c : Cmd) : optionKeeps (controls s) (compressNext s c) := by
  unfold compressNext
  split
  · refine optionKeeps_ite (optionKeeps_none _) ?_
    have e := controls_walkVa s c.asid
    split
    · simp
    · next h => simp [controls_snd h]
    · next h => simp [controls_snd h]
    · next h =>
      rw [← e, ← controls_snd h]
      exact compressPage_keeps ..
  · simp

/-! ## Functions of Machine/Accept -/

@[simp] theorem controls_accept (q : BitVec 8) (i : Word) (bs : List Byte) (s : State) : controls (accept q i bs s) = controls s := by
  simp [accept]

@[simp] theorem controls_updLaunch (s : State) (lid : Nat) (f : Launch → Launch) : controls (updLaunch s lid f) = controls s := by
  simp [updLaunch]

@[simp] theorem controls_refuseLaunch (s : State) (c : Cmd) (l : Launch) (code : Nat) :
    controls (refuseLaunch s c l code) = controls s := by
  simp [refuseLaunch]

@[simp] theorem controls_readMore (s : State) (c : Cmd) (ranges : List (Nat × Nat)) :
    controls (readMore s c ranges) = controls s := by
  simp [readMore]

@[simp] theorem controls_makeReady (s : State) (c : Cmd) (l : Launch) (h : Hdr) (bs : List Byte) :
    controls (makeReady s c l h bs) = controls s := by
  simp [makeReady]

@[simp] theorem controls_launchNext (s : State) (c : Cmd) (l : Launch) (ranges : List (Nat × Nat)) (bs : List Byte) :
    controls (launchNext s c l ranges bs) = controls s := by
  unfold launchNext
  split <;> simp

theorem acceptNext_keeps (s : State) (c : Cmd) (l : Launch) : optionKeeps (controls s) (acceptNext s c l) := by
  unfold acceptNext
  split <;> simp

/-! ## Functions of Machine/Placement -/

@[simp] theorem controls_placeNew (s : State) (l : Launch) (idx pid core : Nat) (partner : Option Nat) (primary : Bool) :
    controls (placeNew s l idx pid core partner primary) = controls s := by
  simp [placeNew]

@[simp] theorem controls_placeFresh (s : State) (l : Launch) (idx : Nat) (c : Nat × Option Nat) :
    controls (placeFresh s l idx c) = controls s := by
  unfold placeFresh
  split <;> simp

@[simp] theorem controls_restoreTile (s : State) (p : Panel) (core : Nat) : controls (restoreTile s p core) = controls s := by
  unfold restoreTile
  split <;> simp

@[simp] theorem controls_resumeOn (s : State) (pid core : Nat) (moves : Bool) :
    controls (resumeOn s pid core moves) = controls s := by
  unfold resumeOn
  split <;> simp

@[simp] theorem controls_place (s : State) (c : Cand) (t : Nat × Option Nat) : controls (place s c t) = controls s := by
  unfold place
  dsimp only
  split
  · simp
  · split <;> simp

@[simp] theorem controls_noteRun (s : State) (part q prio : Nat) : controls (noteRun s part q prio) = controls s := by
  simp [noteRun, controls_updPart]

/-! ## Functions of Machine/Preempt -/

@[simp] theorem controls_requeue (s : State) (p : Panel) : controls (requeue s p) = controls s := by
  simp [requeue]

@[simp] theorem controls_leaveAs (s : State) (p : Panel) (x : Leaving) : controls (leaveAs s p x) = controls s := by
  simp [leaveAs]

@[simp] theorem controls_beginSave (s : State) (p : Panel) : controls (beginSave s p) = controls s := by
  unfold beginSave
  split
  · simp
  · split <;> simp

@[simp] theorem controls_carryOut (s : State) (p : Panel) (l : Nat) (c : Choose) (again : Bool) :
    controls (carryOut s p l c again) = controls s := by
  unfold carryOut
  split <;> simp

@[simp] theorem controls_preempt (l : Nat) (s : State) (pid : Nat) : controls (preempt l s pid) = controls s := by
  unfold preempt
  split <;> simp

@[simp] theorem controls_preemptCheck (s : State) (part : Nat) : controls (preemptCheck s part) = controls s := by
  have h : controls (updPart s part fun p => { p with lastCheck := s.fs }) = controls s :=
    controls_updPart s part fun _ => ⟨rfl, rfl⟩
  unfold preemptCheck
  dsimp only
  split
  · simp [h]
  · split
    · exact h
    · split <;> simp [h]

@[simp] theorem controls_keepTile (s : State) (p : Panel) : controls (keepTile s p) = controls s := by
  simp [keepTile]

@[simp] theorem controls_savedAs (s : State) (p : Panel) (x : Life) : controls (savedAs s p x) = controls s := by
  simp [savedAs]

@[simp] theorem controls_withdrawCmd (s : State) (c : Cmd) : controls (withdrawCmd s c) = controls s := by
  simp [withdrawCmd]

@[simp] theorem controls_writeImage (s : State) (p : Panel) (slot : Nat) : controls (writeImage s p slot).2 = controls s := by
  simp [writeImage, apply_ite]

/-- Unfolded as a function: applied, the kernel would compare by evaluating the test of `writeImage` in unary numbers. -/
@[simp] theorem controls_saveToMem (s : State) (p : Panel) (slot : Nat) : controls (saveToMem s p slot) = controls s := by
  have h := controls_writeImage ((s.cmds.filter fun c => c.ofPanel p.pid).foldl withdrawCmd s) p slot
  rw [controls_foldl controls_withdrawCmd] at h
  obtain ⟨f, hf⟩ : ∃ f, f = saveToMem := ⟨_, rfl⟩
  rw [← hf, ← h]
  delta saveToMem at hf
  subst hf
  beta_reduce
  generalize writeImage _ p slot = r
  obtain ⟨code, t⟩ := r
  cases code <;> simp

@[simp] theorem controls_saveMember (s : State) (p : Panel) : controls (saveMember s p) = controls s := by
  unfold saveMember
  split
  · rfl
  · split <;> simp

theorem saveVictim_keeps (s : State) (p : Panel) : optionKeeps (controls s) (saveVictim s p) := by
  simp [saveVictim]

/-! ## Functions of Machine/Residence -/

@[simp] theorem controls_swapIn (s : State) (core pos : Nat) (r : Nat × Nat × Nat × Nat) :
    controls (swapIn s core pos r) = controls s := by
  simp [swapIn]

@[simp] theorem controls_evict (s : State) (core pos : Nat) : controls (evict s core pos) = controls s := by
  unfold evict
  split <;> simp

@[simp] theorem controls_refreshCluster (s : State) (c : Nat) : controls (refreshCluster s c) = controls s := by
  simp [refreshCluster]

@[simp] theorem controls_fillWindow (s : State) (p : Panel) (win : Nat) (bytes : List Byte) :
    controls (fillWindow s p win bytes) = controls s := by
  simp [fillWindow]

@[simp] theorem controls_endMembers (s : State) (p : Panel) : controls (endMembers s p) = controls s := by
  unfold endMembers
  split <;> simp

/-! ## Functions of Machine/Manage -/

@[simp] theorem controls_updMgmt (s : State) (f : Mgmt → Mgmt) :
    controls (updMgmt s f) = controlsOf (f s.mgmt).aclk (f s.mgmt).pwrCap s.parts := by
  simp [updMgmt]

@[simp] theorem controls_firmwareBoot (s : State) : controls (firmwareBoot s) = controls s := by
  unfold firmwareBoot
  split <;> simp

theorem reset_mgmt : State.reset.mgmt = mgmt0 := rfl

theorem controls_reset : controls State.reset = controlsOf mgmt0.aclk mgmt0.pwrCap State.reset.parts := by
  rw [← reset_mgmt, controlsOf_fields]

/-- A cold reset gives the controls their reset values (01 R17). -/
theorem controls_coldReset (s : State) : controls (coldReset s) = controls State.reset := by
  rw [coldReset, controls_firmwareBoot, controls_mk, controls_reset]

theorem controls_thermalTrip (s : State) : controls (thermalTrip s) = controls State.reset := controls_coldReset _

@[simp] theorem controls_enterBand (s : State) (b : Band) : controls (enterBand s b) = controls s := by
  unfold enterBand
  dsimp only
  split
  · simp
  · split <;> simp

@[simp] theorem controls_recomputeParity (s : State) (n : Nat) : controls (recomputeParity s n) = controls s := by
  simp [recomputeParity]

@[simp] theorem controls_closeForReset (s : State) (e : OpenEntry) : controls (closeForReset s e) = controls s := by
  unfold closeForReset
  split <;> simp

@[simp] theorem controls_performHostWrite (waits : List LogWait) (s : State) (c : Cmd) :
    controls (performHostWrite waits s c) = controls s := by
  simp [performHostWrite]

@[simp] theorem controls_resetCommands (s : State) : controls (resetCommands s) = controls s := by
  simp [resetCommands]

@[simp] theorem controls_deviceReset (s : State) : controls (deviceReset s) = controls s := by
  have h := controls_resetCommands s
  have e : ((resetCommands s).parts.map resetPart).map (fun x => (x.clus, x.gap)) =
      (resetCommands s).parts.map fun x => (x.clus, x.gap) := by
    rw [Vector.map_map]
    rfl
  rw [← h]
  simp only [deviceReset, controls, controlsOf, e]

@[simp] theorem controls_requestReset (s : State) : controls (requestReset s) = controls s := by
  simp [requestReset]

@[simp] theorem controls_service (s : State) : controls (service s) = controls s := by
  simp [service]

@[simp] theorem controls_writeDrain (s : State) (p : Nat) (on : Bool) : controls (writeDrain s p on) = controls s := by
  simp [writeDrain, controls_updPart]

@[simp] theorem controls_clearLost (s : State) : controls (clearLost s) = controls s := by
  simp [clearLost]

@[simp] theorem controls_writeG4Clear (s : State) (v : DWord) : controls (writeG4Clear s v) = controls s := by
  simp [writeG4Clear]

@[simp] theorem controls_writeAttCtl (s : State) (v : DWord) : controls (writeAttCtl s v) = controls s := by
  simp [writeAttCtl]

/-! ## Functions of Machine/Bar0 -/

@[simp] theorem controls_settleRing (s : State) : controls (settleRing s) = controls s := by
  simp [settleRing]

/-! ## Functions of Machine/Sync -/

@[simp] theorem controls_updSeam (x : Ctx) (i : Nat) (f : Seam → Seam) (s : State) : controls (Ctx.updSeam x i f s) = controls s := by
  simp [Ctx.updSeam]

@[simp] theorem controls_updSleeve (x : Ctx) (n : Nat) (f : Sleeve → Sleeve) (s : State) :
    controls (Ctx.updSleeve x n f s) = controls s := by
  simp [Ctx.updSleeve]

@[simp] theorem controls_takeHandle (x : Ctx) (n : Nat) (d : Reg) (s : State) : controls (Ctx.takeHandle x n d s) = controls s := by
  simp [Ctx.takeHandle]

@[simp] theorem controls_updV (x : Ctx) (r : Reg) (f : VReg → VReg) (s : State) : controls (Ctx.updV x r f s) = controls s := by
  simp [Ctx.updV]

/-! ## Functions of Machine/Schedule -/

@[simp] theorem controls_tickAll (s : State) : controls (tickAll s) = controls s := by
  simp [tickAll]

@[simp] theorem controls_noteDelivered (s t : State) : controls (noteDelivered s t) = controls t := by
  simp [noteDelivered]

theorem upsetGranule_keeps (s : State) (stack off : Nat) (m : Option Mark) :
    optionKeeps (controls s) (upsetGranule s stack off m) := by
  simp [upsetGranule]

@[simp] theorem controls_hostWrite (s : State) (a : Nat) (bytes : List Byte) : controls (hostWrite s a bytes) = controls s := by
  simp [hostWrite]

end Sys2Proof.Machine
end

section
/-! SUPPORT. What the parts of instructions and events leave of the control registers. -/

namespace Sys2Proof.Machine

open Sys2Proof

/-! ## Checks of bodies -/

@[simp] theorem answerKeeps_apply_ite {α : Type} (c : Controls) (P : α → Prop) (p : Prop) [Decidable p] (a b : Except Stop α) :
    answerKeeps c P (if p then a else b) = if p then answerKeeps c P a else answerKeeps c P b := apply_ite ..

theorem answerKeeps_ite {α : Type} {c : Controls} {P : α → Prop} {p : Prop} [Decidable p] {a b : Except Stop α}
    (ha : answerKeeps c P a) (hb : answerKeeps c P b) : answerKeeps c P (if p then a else b) := by
  split <;> assumption

/-- A body, then a change of its state. -/
theorem answerKeeps_map {c : Controls} {b : Body} {f : State → State} (h : bodyKeeps c b)
    (hf : ∀ t, controls t = c → controls (f t) = c) : bodyKeeps c (b.map f) := by
  cases b with
  | ok t => exact hf t h
  | error e => exact h

@[simp] theorem checkKeeps_checkRegs (c : Controls) (g : Gang) (k : Ctl) (b : Bool) (rs : List (Nat × Nat)) :
    checkKeeps c (checkRegs g k b rs) := by
  unfold checkRegs
  split
  · simp
  · split <;> simp

@[simp] theorem checkKeeps_checkIssue (c : Controls) (x : Ctx) (i : Instr) : checkKeeps c (x.checkIssue i) := by
  unfold Ctx.checkIssue
  dsimp only
  refine answerKeeps_bind (checkKeeps_check ..) fun _ => answerKeeps_bind (checkKeeps_check ..) fun _ => ?_
  split
  · exact trivial
  · refine answerKeeps_bind trivial fun _ => answerKeeps_bind (checkKeeps_check ..) fun _ =>
      answerKeeps_bind (checkKeeps_checkRegs ..) fun _ => ?_
    split
    · split <;> simp
    · simp

@[simp] theorem checkKeeps_alignCheck (c : Controls) (a : Int) (w : Nat) : checkKeeps c (alignCheck a w) := by
  simp [alignCheck]

@[simp] theorem checkKeeps_rangeCheck (c : Controls) (x : Ctx) (a : Int) (n : Nat) : checkKeeps c (x.rangeCheck a n) := by
  simp [Ctx.rangeCheck]

@[simp] theorem checkKeeps_checkAddrs (c : Controls) (x : Ctx) (as : List Int) (w : Nat) :
    checkKeeps c (x.checkAddrs as w) := by
  simp [Ctx.checkAddrs]

@[simp] theorem checkKeeps_alphaCheck (c : Controls) (x : Ctx) (n : Nat) : checkKeeps c (x.alphaCheck n) := by
  simp [Ctx.alphaCheck]

@[simp] theorem checkKeeps_typeCheck (c : Controls) (x : Ctx) (t : Ty) : checkKeeps c (x.typeCheck t) := by
  unfold Ctx.typeCheck
  split <;> simp

@[simp] theorem checkKeeps_layoutAlpha (c : Controls) (x : Ctx) (lay : Layout) : checkKeeps c (x.layoutAlpha lay) := by
  unfold Ctx.layoutAlpha
  split <;> simp

@[simp] theorem checkKeeps_measure (c : Controls) (x : Ctx) (s : State) (va len : Nat) :
    checkKeeps c (x.measure s va len) := by
  unfold Ctx.measure
  split
  · simp
  · split <;> simp

@[simp] theorem checkKeeps_publishNeed (c : Controls) (x : Ctx) (s : State) (p : Panel) (e : RingEntry) :
    checkKeeps c (x.publishNeed s p e) := by
  simp [Ctx.publishNeed]

@[simp] theorem checkKeeps_sliceAddrs (c : Controls) (x : Ctx) (a : Reg) (off : Off) (w : Nat) :
    checkKeeps c (x.sliceAddrs a off w) := by
  simp [Ctx.sliceAddrs]

@[simp] theorem checkKeeps_laneAddrs (c : Controls) (x : Ctx) (a : Reg) (off : Off) : checkKeeps c (x.laneAddrs a off) := by
  simp [Ctx.laneAddrs]

@[simp] theorem checkKeeps_tensorAddrs (c : Controls) (x : Ctx) (t : Ty) (a b : Reg) :
    checkKeeps c (x.tensorAddrs t a b) := by
  simp [Ctx.tensorAddrs]

@[simp] theorem checkKeeps_symAddrs (c : Controls) (x : Ctx) (an : BitVec 4) (a b : Reg) :
    checkKeeps c (x.symAddrs an a b) := by
  simp [Ctx.symAddrs]

@[simp] theorem checkKeeps_ringCheck (c : Controls) (x : Ctx) (n : Nat) (v : DWord) : checkKeeps c (x.ringCheck n v) := by
  simp [Ctx.ringCheck]

@[simp] theorem checkKeeps_rowsCheck (c : Controls) (x : Ctx) (first count : Nat) :
    checkKeeps c (x.rowsCheck first count) := by
  simp [Ctx.rowsCheck]

@[simp] theorem checkKeeps_checkRanges (c : Controls) (x : Ctx) (as : List (Nat × Nat)) : checkKeeps c (x.checkRanges as) := by
  simp [Ctx.checkRanges]

@[simp] theorem checkKeeps_matrixAlpha (c : Controls) (x : Ctx) (index : Nat) (lay : Layout) :
    checkKeeps c (x.matrixAlpha index lay) := by
  unfold Ctx.matrixAlpha
  split <;> simp

@[simp] theorem checkKeeps_typeAlpha (c : Controls) (x : Ctx) (t : Ty) : checkKeeps c (x.typeAlpha t) := by
  simp [Ctx.typeAlpha]

@[simp] theorem checkKeeps_tileCheck (c : Controls) (x : Ctx) (t : Ty) (a : Reg) (first count : Nat) :
    checkKeeps c (x.tileCheck t a first count) := by
  simp [Ctx.tileCheck]

@[simp] theorem checkKeeps_mmaCheck (c : Controls) (x : Ctx) (ta tb : Nat) (a b cc : Reg) :
    checkKeeps c (x.mmaCheck ta tb a b cc) := by
  simp [Ctx.mmaCheck, layoutFits]

@[simp] theorem checkKeeps_ringInBounds (c : Controls) (x : Ctx) : checkKeeps c x.ringInBounds := by
  simp [Ctx.ringInBounds]

@[simp] theorem checkKeeps_ringRoom (c : Controls) (x : Ctx) : checkKeeps c x.ringRoom := by
  simp [Ctx.ringRoom]

@[simp] theorem checkKeeps_rowCheck (c : Controls) (x : Ctx) (t : Ty) (a : Reg) (rl : Nat) : checkKeeps c (x.rowCheck t a rl) := by
  simp [Ctx.rowCheck]

@[simp] theorem checkKeeps_binding (c : Controls) (x : Ctx) (slot : BitVec 4) (l0 n : Nat) :
    checkKeeps c (x.binding slot l0 n) := by
  unfold Ctx.binding
  refine answerKeeps_ite (by simp) ?_
  split <;> simp

@[simp] theorem checkKeeps_sleeveCheck (c : Controls) (b : Bool) (n : BitVec 4) : checkKeeps c (sleeveCheck b n) := by
  simp [sleeveCheck]

@[simp] theorem checkKeeps_sleeveReady (c : Controls) (x : Ctx) (n : BitVec 4) : checkKeeps c (x.sleeveReady n) := by
  simp [Ctx.sleeveReady]

@[simp] theorem checkKeeps_sleeveWait (c : Controls) (x : Ctx) (ok : Bool) (b : Block) : checkKeeps c (x.sleeveWait ok b) := by
  simp [Ctx.sleeveWait]

@[simp] theorem checkKeeps_spillAddr (c : Controls) (x : Ctx) (slot : BitVec 9) : checkKeeps c (x.spillAddr slot) := by
  simp [Ctx.spillAddr]

/-! ## Parts of bodies -/

section
variable {c : Controls}

@[simp] theorem bodyKeeps_invalid {s : State} (h : controls s = c) (x : Ctx) (reg n : Nat) :
    bodyKeeps c (x.invalid reg n s) := by
  unfold Ctx.invalid
  exact answerKeeps_ite (by simp [h]) (by simp [h])

@[simp] theorem bodyKeeps_hold {s : State} (h : controls s = c) (x : Ctx) (k : Cls) (n : Nat) :
    bodyKeeps c (x.hold k n s) := by
  unfold Ctx.hold
  exact answerKeeps_ite (answerKeeps_ite (by simp [h]) (by simp)) (by simp [h])

@[simp] theorem bodyKeeps_nesting {s : State} (h : controls s = c) (x : Ctx) (f : Nat → Nat → Nat) :
    bodyKeeps c (x.nesting f s) := by
  simp [Ctx.nesting, h]

@[simp] theorem bodyKeeps_regions {s : State} (h : controls s = c) (x : Ctx) (base : Nat) (mask : Word) :
    bodyKeeps c (x.regions base mask s) := by
  unfold Ctx.regions
  dsimp only
  split <;> simp [h]

theorem bodyKeeps_publishEntries (x : Ctx) (n i : Nat) {s : State} (h : controls s = c) :
    bodyKeeps c (x.publishEntries n i s) := by
  induction n generalizing i s with
  | zero => exact h
  | succ n ih =>
    unfold Ctx.publishEntries
    split
    · exact h
    · exact answerKeeps_bind (by simp) fun _ => answerKeeps_bind_body (bodyKeeps_hold h ..) fun t ht => ih _ (by simp [ht])

@[simp] theorem bodyKeeps_stored {s : State} (h : controls s = c) (x : Ctx) (rs : List (Nat × Nat)) :
    bodyKeeps c (x.stored rs s) := by
  unfold Ctx.stored Ctx.publish
  refine answerKeeps_ite ?_ h
  split
  · exact h
  · exact answerKeeps_ite (bodyKeeps_publishEntries _ _ _ (by simp [h])) h

theorem bodyKeeps_pairStep {s : State} (h : controls s = c) (x : Ctx) (bounds : List (Nat × Nat)) {cont : State → Body}
    (hc : ∀ t, controls t = c → bodyKeeps c (cont t)) : bodyKeeps c (x.pairStep bounds cont s) := by
  unfold Ctx.pairStep
  split
  · exact hc _ h
  · exact answerKeeps_ite (by simp [h]) (hc _ h)
  · split
    · exact hc _ h
    · next m q og _ =>
      refine answerKeeps_ite (answerKeeps_ite ?_ (by simp [h])) (by simp [h])
      split
      next t k e =>
      have ht : controls (x.refreshOther q.core t) = c := by rw [controls_refreshOther, controls_fst e]; simp [h]
      dsimp only
      split
      · exact answerKeeps_ite (by simp [ht]) (hc _ ht)
      · exact hc _ ht

theorem answerKeeps_sealEach (x : Ctx) (cs : List Cls) (bounds : List (Nat × Nat)) {s : State} (h : controls s = c) :
    answerKeeps c (fun r => controls r.1 = c) (x.sealEach cs bounds s) := by
  induction cs generalizing bounds s with
  | nil => exact h
  | cons k cs ih =>
    unfold Ctx.sealEach
    exact answerKeeps_ite (ih _ h) (answerKeeps_ite (by simp [h]) (ih _ (by simp [h])))

theorem checkKeeps_raiseFailures {s : State} (h : controls s = c) (x : Ctx) (m : BitVec 5) :
    checkKeeps c (x.raiseFailures m s) := by
  unfold Ctx.raiseFailures Ctx.raiseAmong
  split
  · simp
  · split <;> simp [h]

theorem checkKeeps_raiseWaited {s : State} (h : controls s = c) (x : Ctx) (bounds : List (Nat × Nat)) :
    checkKeeps c (x.raiseWaited bounds s) :=
  answerKeeps_ite (checkKeeps_raiseFailures h ..) (by simp)

/-- The seals of an instruction that seals and waits, then the rest of it. -/
theorem bodyKeeps_sealOnce {s : State} (h : controls s = c) (x : Ctx) (m : BitVec 5)
    {f : State × List (Nat × Nat) → Body} (hf : ∀ r, controls r.1 = c → bodyKeeps c (f r)) :
    bodyKeeps c (x.sealOnce m s >>= f) := by
  have e := answerKeeps_sealEach x (allClasses.filter (inMask m)) x.e.sealed h
  unfold Ctx.sealOnce
  cases k : x.sealEach (allClasses.filter (inMask m)) x.e.sealed s with
  | ok r => rw [k] at e; exact hf r e
  | error z => rw [k] at e; exact e

theorem bodyKeeps_releaseThen {s : State} (h : controls s = c) (x : Ctx) (system : Bool) {cont : State → Body}
    (hc : ∀ t, controls t = c → bodyKeeps c (cont t)) : bodyKeeps c (x.releaseThen system cont s) := by
  unfold Ctx.releaseThen
  refine bodyKeeps_sealOnce h x _ fun r hr => answerKeeps_ite (by simp [hr]) ?_
  refine answerKeeps_bind (checkKeeps_raiseWaited hr ..) fun _ => answerKeeps_ite (by simp [hr]) ?_
  exact answerKeeps_ite (bodyKeeps_pairStep hr _ _ hc) (hc _ hr)

theorem bodyKeeps_atomicForm {s : State} (h : controls s = c) (x : Ctx) (form : AtForm) (scope : Nat) {send : State → Body}
    (hc : ∀ t, controls t = c → bodyKeeps c (send t)) : bodyKeeps c (x.atomicForm form scope send s) :=
  answerKeeps_ite h (answerKeeps_ite (bodyKeeps_releaseThen h _ _ hc) (answerKeeps_ite (bodyKeeps_releaseThen h _ _ hc) (hc _ h)))

theorem bodyKeeps_keepRelease {s : State} (h : controls s = c) {send : State → Body}
    (hc : ∀ t, controls t = c → bodyKeeps c (send t)) : bodyKeeps c (keepRelease send s) := by
  unfold keepRelease
  split
  · exact h
  · exact hc _ h

theorem bodyKeeps_foldForm {s : State} (h : controls s = c) (x : Ctx) (zero : Bool) {send : State → Body}
    (hc : ∀ t, controls t = c → bodyKeeps c (send t)) : bodyKeeps c (x.foldForm zero send s) :=
  answerKeeps_ite (bodyKeeps_releaseThen h _ _ fun _ ht => bodyKeeps_keepRelease ht hc) (hc _ h)

@[simp] theorem bodyKeeps_mismatch {s : State} (h : controls s = c) (x : Ctx) (lead : Nat) : bodyKeeps c (x.mismatch lead s) := by
  simp [Ctx.mismatch, h]

@[simp] theorem bodyKeeps_arrive {s : State} (h : controls s = c) (x : Ctx) (ta tb : Nat) (keepb ck : Bool) (list : Nat)
    (layB : List Nat) (y : Arrival) : bodyKeeps c (x.arrive ta tb keepb ck list layB y s) := by
  unfold Ctx.arrive
  exact answerKeeps_ite (by simp [h]) (answerKeeps_ite (by simp [h]) (by simp [h]))

/-- An attempt leaves what its body leaves. -/
theorem bodyKeeps_attempt (s : State) (x : Ctx) (i : Instr) {body : Ctx → State → Body}
    (hb : ∀ y u, bodyKeeps (controls u) (body y u)) : bodyKeeps (controls s) (x.attempt i body s) := by
  unfold Ctx.attempt
  refine answerKeeps_bind (by simp) fun empty => answerKeeps_ite ?_ ?_
  · have h := hb x (x.begin s)
    rwa [controls_begin] at h
  · have h := hb { x with unknown := empty } (Ctx.begin { x with unknown := empty } s)
    rw [controls_begin] at h
    dsimp only
    split
    · simp
    · next e => rwa [e] at h
    · next e => rwa [e] at h
    · simp

/-- An instruction leaves what its body leaves. -/
theorem outcomeKeeps_runInstr (i : Instr) {body : Ctx → State → Body} (s : State)
    (hb : ∀ x u, bodyKeeps (controls u) (body x u)) : outcomeKeeps (controls s) (runInstr i body s) := by
  unfold runInstr
  split
  · simp
  · exact controls_conclude _ _ _ _ (bodyKeeps_attempt _ _ _ hb)

end

theorem outcomeKeeps_outcomeOf {c : Controls} {o : Option State} (h : optionKeeps c o) : outcomeKeeps c (outcomeOf o) := by
  cases o with
  | none => trivial
  | some t => exact h

theorem optionKeeps.of_controls_eq {c : Controls} {t : State} {o : Option State} (h : optionKeeps (controls t) o)
    (e : controls t = c) : optionKeeps c o := e ▸ h

/-! ## Functions of Machine/Scalar -/

theorem scalarOp_keeps (i : Instr) (d a : Reg) (b : Src) (f : DWord → DWord → DWord) (s : State) :
    outcomeKeeps (controls s) (scalarOp i d a b f s) :=
  outcomeKeeps_runInstr _ _ fun _ _ => by simp

theorem scalarOp1_keeps (i : Instr) (d a : Reg) (f : DWord → DWord) (s : State) :
    outcomeKeeps (controls s) (scalarOp1 i d a f s) :=
  outcomeKeeps_runInstr _ _ fun _ _ => by simp

theorem execSsel_keeps (c : Ctl) (d a b cc : Reg) (s : State) : outcomeKeeps (controls s) (execSsel c d a b cc s) :=
  outcomeKeeps_runInstr _ _ fun _ _ => by simp

theorem execSmovi_keeps (c : Ctl) (d : Reg) (v : SImm) (s : State) : outcomeKeeps (controls s) (execSmovi c d v s) :=
  outcomeKeeps_runInstr _ _ fun _ _ => by simp

theorem execSbfi_keeps (c : Ctl) (d a : Reg) (pos : BitVec 6) (wid : BitVec 7) (s : State) :
    outcomeKeeps (controls s) (execSbfi c d a pos wid s) :=
  outcomeKeeps_runInstr _ _ fun _ _ => by simp

theorem execSld_keeps (c : Ctl) (ty : Ty) (d a : Reg) (off : Off) (s : State) :
    outcomeKeeps (controls s) (execSld c ty d a off s) :=
  outcomeKeeps_runInstr _ _ fun _ _ => by simp

theorem execSst_keeps (c : Ctl) (ty : Ty) (a b : Reg) (off : Off) (s : State) :
    outcomeKeeps (controls s) (execSst c ty a b off s) :=
  outcomeKeeps_runInstr _ _ fun _ _ => by simp

theorem execSlda_keeps (c : Ctl) (wide : Bool) (add : BitVec 6) (d a : Reg) (off : Off) (s : State) :
    outcomeKeeps (controls s) (execSlda c wide add d a off s) :=
  outcomeKeeps_runInstr _ _ fun _ _ => by simp

/-! ## Functions of Machine/Vector -/

theorem vectorOp_keeps (i : Instr) (d a : Reg) (b : Src) (f : Word → Word → Word) (s : State) :
    outcomeKeeps (controls s) (vectorOp i d a b f s) :=
  outcomeKeeps_runInstr _ _ fun _ _ => by simp

theorem vectorOp1_keeps (i : Instr) (d a : Reg) (f : Word → Word) (s : State) :
    outcomeKeeps (controls s) (vectorOp1 i d a f s) :=
  outcomeKeeps_runInstr _ _ fun _ _ => by simp

theorem vectorOp3_keeps (i : Instr) (d a b c : Reg) (f : Word → Word → Word → Word) (s : State) :
    outcomeKeeps (controls s) (vectorOp3 i d a b c f s) :=
  outcomeKeeps_runInstr _ _ fun _ _ => by simp

theorem saturatingOp_keeps (i : Instr) (t : Ty) (d a : Reg) (b : Src) (f : Int → Int → Int) (s : State) :
    outcomeKeeps (controls s) (saturatingOp i t d a b f s) :=
  outcomeKeeps_runInstr _ _ fun _ _ => by simp

theorem execVbfi_keeps (c : Ctl) (d a : Reg) (pos : BitVec 5) (wid : BitVec 6) (s : State) :
    outcomeKeeps (controls s) (execVbfi c d a pos wid s) :=
  outcomeKeeps_runInstr _ _ fun _ _ => by simp

theorem execVbcast_keeps (c : Ctl) (d : Reg) (a : Src) (s : State) : outcomeKeeps (controls s) (execVbcast c d a s) :=
  outcomeKeeps_runInstr _ _ fun _ _ => by simp

theorem execVlid_keeps (c : Ctl) (d : Reg) (s : State) : outcomeKeeps (controls s) (execVlid c d s) :=
  outcomeKeeps_runInstr _ _ fun _ _ => by simp

theorem execVsel_keeps (c : Ctl) (d a b cc : Reg) (s : State) : outcomeKeeps (controls s) (execVsel c d a b cc s) :=
  outcomeKeeps_runInstr _ _ fun _ _ => by simp

theorem execVmask_keeps (c : Ctl) (d a : Reg) (s : State) : outcomeKeeps (controls s) (execVmask c d a s) :=
  outcomeKeeps_runInstr _ _ fun _ _ => by simp

/-! ## Functions of Machine/FloatOps -/

theorem floatLanes_keeps (i : Instr) (t : Ty) (d : Reg) (f : Ctx → Fmt → Nat → Nat → Elem) (s : State) :
    outcomeKeeps (controls s) (floatLanes i t d f s) :=
  outcomeKeeps_runInstr _ _ fun _ _ => by simp

theorem floatOp2_keeps (i : Instr) (t : Ty) (d a : Reg) (b : Src) (f : Fmt → RMode → Bool → FVal → FVal → Elem) (s : State) :
    outcomeKeeps (controls s) (floatOp2 i t d a b f s) :=
  floatLanes_keeps ..

theorem floatOp1_keeps (i : Instr) (t : Ty) (d a : Reg) (f : Fmt → RMode → Bool → FVal → Elem) (s : State) :
    outcomeKeeps (controls s) (floatOp1 i t d a f s) :=
  floatLanes_keeps ..

theorem execVcmp_keeps (c : Ctl) (t : LTy) (cond : VCond) (d a : Reg) (b : Src) (s : State) :
    outcomeKeeps (controls s) (execVcmp c t cond d a b s) :=
  outcomeKeeps_runInstr _ _ fun _ _ => by simp

/-! ## Functions of Machine/Convert -/

theorem convert_keeps (i : Instr) (sr : Bool) (dt : Ty) (d a : Reg) (st : Ty) (part : BitVec 3) (conv : Ctx → Nat → Rnd → Nat → Elem) (s : State) :
    outcomeKeeps (controls s) (convert i sr dt d a st part conv s) :=
  outcomeKeeps_runInstr _ _ fun _ _ => by simp

/-! ## Functions of Machine/Control -/

theorem execNop_keeps (c : Ctl) (len : Len) (s : State) : outcomeKeeps (controls s) (execNop c len s) :=
  outcomeKeeps_runInstr _ _ fun _ _ => by simp

theorem execBra_keeps (c : Ctl) (x1 : Word) (s : State) : outcomeKeeps (controls s) (execBra c x1 s) :=
  outcomeKeeps_runInstr _ _ fun _ _ => by simp

theorem execBrx_keeps (c : Ctl) (a : Reg) (x1 : Word) (s : State) : outcomeKeeps (controls s) (execBrx c a x1 s) :=
  outcomeKeeps_runInstr _ _ fun _ _ => by simp

theorem execBrs_keeps (c : Ctl) (cond : BrCond) (a : Reg) (x1 x2 : Word) (s : State) :
    outcomeKeeps (controls s) (execBrs c cond a x1 x2 s) :=
  outcomeKeeps_runInstr _ _ fun _ _ => by simp

theorem execBrv_keeps (c : Ctl) (cond : BrCond) (a : Reg) (x1 x2 : Word) (s : State) :
    outcomeKeeps (controls s) (execBrv c cond a x1 x2 s) :=
  outcomeKeeps_runInstr _ _ fun _ _ => by simp

theorem execCall_keeps (c : Ctl) (x1 : Word) (s : State) : outcomeKeeps (controls s) (execCall c x1 s) :=
  outcomeKeeps_runInstr _ _ fun _ _ => by simp

theorem execRet_keeps (c : Ctl) (a : Reg) (s : State) : outcomeKeeps (controls s) (execRet c a s) :=
  outcomeKeeps_runInstr _ _ fun _ _ => by simp

theorem execRegang_keeps (c : Ctl) (s : State) : outcomeKeeps (controls s) (execRegang c s) :=
  outcomeKeeps_runInstr _ _ fun _ _ => by simp

theorem execExit_keeps (c : Ctl) (s : State) : outcomeKeeps (controls s) (execExit c s) :=
  outcomeKeeps_runInstr _ _ fun _ _ =>
    answerKeeps_ite (bodyKeeps_releaseThen rfl _ _ fun _ hv => by simp [hv]) (by simp)

theorem execIfMask_keeps (c : Ctl) (a : Reg) (s : State) : outcomeKeeps (controls s) (execIfMask c a s) :=
  outcomeKeeps_runInstr _ _ fun _ _ => by simp

theorem execElseMask_keeps (c : Ctl) (s : State) : outcomeKeeps (controls s) (execElseMask c s) :=
  outcomeKeeps_runInstr _ _ fun _ _ => by simp

theorem execEndif_keeps (c : Ctl) (s : State) : outcomeKeeps (controls s) (execEndif c s) :=
  outcomeKeeps_runInstr _ _ fun _ _ => by simp

theorem execLoop_keeps (c : Ctl) (s : State) : outcomeKeeps (controls s) (execLoop c s) :=
  outcomeKeeps_runInstr _ _ fun _ _ => by simp

theorem execEndloop_keeps (c : Ctl) (x1 : Word) (s : State) : outcomeKeeps (controls s) (execEndloop c x1 s) :=
  outcomeKeeps_runInstr _ _ fun x u => by
    refine answerKeeps_ite ?_ (by simp)
    have h := bodyKeeps_nesting (c := controls u) rfl x fun _ n => if n = 1 then 0 else n
    exact answerKeeps_map h fun t ht => by simp [ht]

theorem execBreakMask_keeps (c : Ctl) (a : Reg) (k : BitVec 8) (s : State) :
    outcomeKeeps (controls s) (execBreakMask c a k s) :=
  outcomeKeeps_runInstr _ _ fun _ _ => by simp

theorem execContMask_keeps (c : Ctl) (a : Reg) (k : BitVec 8) (s : State) :
    outcomeKeeps (controls s) (execContMask c a k s) :=
  outcomeKeeps_runInstr _ _ fun _ _ => by simp

theorem execYield_keeps (c : Ctl) (s : State) : outcomeKeeps (controls s) (execYield c s) :=
  outcomeKeeps_runInstr _ _ fun _ _ => by simp

theorem execSleep_keeps (c : Ctl) (n : BitVec 20) (s : State) : outcomeKeeps (controls s) (execSleep c n s) :=
  outcomeKeeps_runInstr _ _ fun _ _ => by simp

theorem execTrap_keeps (c : Ctl) (code : BitVec 8) (s : State) : outcomeKeeps (controls s) (execTrap c code s) :=
  outcomeKeeps_runInstr _ _ fun _ _ => by simp

theorem execBrk_keeps (c : Ctl) (code : BitVec 8) (s : State) : outcomeKeeps (controls s) (execBrk c code s) :=
  outcomeKeeps_runInstr _ _ fun _ _ => by simp

theorem execRett_keeps (c : Ctl) (s : State) : outcomeKeeps (controls s) (execRett c s) :=
  outcomeKeeps_runInstr _ _ fun _ _ => by simp

theorem execSrd_keeps (c : Ctl) (d : Reg) (num : BitVec 12) (s : State) : outcomeKeeps (controls s) (execSrd c d num s) :=
  outcomeKeeps_runInstr _ _ fun _ _ => by split <;> simp

theorem execSwr_keeps (c : Ctl) (a : Reg) (num : BitVec 12) (s : State) : outcomeKeeps (controls s) (execSwr c a num s) :=
  outcomeKeeps_runInstr _ _ fun _ _ => by split <;> simp

theorem execClk_keeps (c : Ctl) (d : Reg) (s : State) : outcomeKeeps (controls s) (execClk c d s) :=
  outcomeKeeps_runInstr _ _ fun _ _ => by simp

theorem execPerf_keeps (c : Ctl) (d : Reg) (ev : BitVec 8) (s : State) : outcomeKeeps (controls s) (execPerf c d ev s) :=
  outcomeKeeps_runInstr _ _ fun _ _ => by simp

theorem execUnassignedEncoding_keeps (s : State) : outcomeKeeps (controls s) (execUnassignedEncoding s) := by
  unfold execUnassignedEncoding
  split <;> simp

/-! ## Functions of Machine/Alphabet -/

theorem execAldef_keeps (c : Ctl) (d a : Reg) (off : Off) (s : State) : outcomeKeeps (controls s) (execAldef c d a off s) :=
  outcomeKeeps_runInstr _ _ fun _ _ => by simp

theorem execAlrd_keeps (c : Ctl) (d a : Reg) (word : BitVec 2) (s : State) :
    outcomeKeeps (controls s) (execAlrd c d a word s) :=
  outcomeKeeps_runInstr _ _ fun _ _ => by simp

theorem execUnpk_keeps (c : Ctl) (sym : Bool) (an : BitVec 4) (d a : Reg) (first : Word) (s : State) :
    outcomeKeeps (controls s) (execUnpk c sym an d a first s) :=
  outcomeKeeps_runInstr _ _ fun _ _ => answerKeeps_bind (by simp) fun _ =>
    answerKeeps_bind_body (bodyKeeps_invalid rfl ..) fun _ ht => by simp [ht]

theorem execPack_keeps (c : Ctl) (sym : Bool) (an : BitVec 4) (d a : Reg) (first : Word) (s : State) :
    outcomeKeeps (controls s) (execPack c sym an d a first s) :=
  outcomeKeeps_runInstr _ _ fun _ _ => answerKeeps_bind (by simp) fun _ =>
    answerKeeps_bind_body (bodyKeeps_invalid rfl ..) fun _ ht => by simp [ht]

theorem execSymx_keeps (c : Ctl) (sym : Bool) (an : BitVec 4) (d a b : Reg) (s : State) :
    outcomeKeeps (controls s) (execSymx c sym an d a b s) :=
  outcomeKeeps_runInstr _ _ fun _ _ => answerKeeps_bind (by simp) fun _ =>
    answerKeeps_bind_body (bodyKeeps_invalid rfl ..) fun _ ht => by simp [ht]

theorem execSymi_keeps (c : Ctl) (sym : Bool) (an : BitVec 4) (d a b cc : Reg) (s : State) :
    outcomeKeeps (controls s) (execSymi c sym an d a b cc s) :=
  outcomeKeeps_runInstr _ _ fun _ _ => answerKeeps_bind (by simp) fun _ =>
    answerKeeps_bind_body (bodyKeeps_invalid rfl ..) fun _ ht => by simp [ht]

theorem execDota_keeps (c : Ctl) (acc : Bool) (an am : BitVec 4) (d a b : Reg) (nmax : BitVec 8) (s : State) :
    outcomeKeeps (controls s) (execDota c acc an am d a b nmax s) :=
  outcomeKeeps_runInstr _ _ fun _ _ => answerKeeps_bind (by simp) fun _ => answerKeeps_bind (by simp) fun _ =>
    answerKeeps_bind (by simp) fun _ =>
    answerKeeps_bind_body (bodyKeeps_invalid (by split <;> simp) ..) fun _ ht => by simp [ht]

theorem execValc_keeps (c : Ctl) (an : BitVec 4) (d a : Reg) (s : State) : outcomeKeeps (controls s) (execValc c an d a s) :=
  outcomeKeeps_runInstr _ _ fun _ _ => by simp

theorem execSymld_keeps (c : Ctl) (sym : Bool) (an : BitVec 4) (d a b : Reg) (s : State) :
    outcomeKeeps (controls s) (execSymld c sym an d a b s) :=
  outcomeKeeps_runInstr _ _ fun _ _ => answerKeeps_bind (by simp) fun _ =>
    answerKeeps_bind_body (bodyKeeps_invalid rfl ..) fun _ ht => by simp [ht]

theorem execSymst_keeps (c : Ctl) (sym : Bool) (an : BitVec 4) (a b cc : Reg) (s : State) :
    outcomeKeeps (controls s) (execSymst c sym an a b cc s) :=
  outcomeKeeps_runInstr _ _ fun _ _ => answerKeeps_bind (by simp) fun _ =>
    answerKeeps_bind_body (bodyKeeps_invalid rfl ..) fun _ ht => bodyKeeps_stored (by simp [ht]) ..

/-! ## Functions of Machine/CrossLane -/

theorem shuffle_keeps (i : Instr) (seg : Seg) (d a : Reg) (b : Src) (f : Nat → Nat → Nat → Int) (s : State) :
    outcomeKeeps (controls s) (shuffle i seg d a b f s) :=
  outcomeKeeps_runInstr _ _ fun _ _ => by simp

theorem execGshf_keeps (c : Ctl) (k : GKind) (width : BitVec 2) (delta : BitVec 4) (d a : Reg) (s : State) :
    outcomeKeeps (controls s) (execGshf c k width delta d a s) :=
  outcomeKeeps_runInstr _ _ fun _ _ => by simp

theorem execVote_keeps (c : Ctl) (k : VoteKind) (d a : Reg) (s : State) : outcomeKeeps (controls s) (execVote c k d a s) :=
  outcomeKeeps_runInstr _ _ fun _ _ => by simp

theorem execVreda_keeps (c : Ctl) (t : LTy) (op : RedOp) (d a : Reg) (s : State) :
    outcomeKeeps (controls s) (execVreda c t op d a s) :=
  outcomeKeeps_runInstr _ _ fun _ _ => by simp

theorem execVscan_keeps (c : Ctl) (ex : Bool) (t : LTy) (op : RedOp) (d a : Reg) (s : State) :
    outcomeKeeps (controls s) (execVscan c ex t op d a s) :=
  outcomeKeeps_runInstr _ _ fun _ _ => by simp

/-! ## Functions of Machine/Scratch -/

theorem execLd_keeps (c : Ctl) (ty : Ty) (d a : Reg) (off : Off) (s : State) :
    outcomeKeeps (controls s) (execLd c ty d a off s) :=
  outcomeKeeps_runInstr _ _ fun _ _ => by simp

theorem execSt_keeps (c : Ctl) (ty : Ty) (a b : Reg) (off : Off) (s : State) :
    outcomeKeeps (controls s) (execSt c ty a b off s) :=
  outcomeKeeps_runInstr _ _ fun _ _ => by simp

theorem execLdt_keeps (c : Ctl) (ty : Ty) (d a b : Reg) (s : State) : outcomeKeeps (controls s) (execLdt c ty d a b s) :=
  outcomeKeeps_runInstr _ _ fun _ _ => by simp

theorem execStt_keeps (c : Ctl) (ty : Ty) (a b cc : Reg) (s : State) : outcomeKeeps (controls s) (execStt c ty a b cc s) :=
  outcomeKeeps_runInstr _ _ fun _ _ => by simp

theorem execLdb_keeps (c : Ctl) (ty : Ty) (d a : Reg) (off : Off) (s : State) :
    outcomeKeeps (controls s) (execLdb c ty d a off s) :=
  outcomeKeeps_runInstr _ _ fun _ _ => by simp

theorem execAts_keeps (c : Ctl) (ret : Bool) (ty : LTy) (op : AtOp) (d a b : Reg) (off : Off) (s : State) :
    outcomeKeeps (controls s) (execAts c ret ty op d a b off s) :=
  outcomeKeeps_runInstr _ _ fun _ _ => by simp

theorem execTrtw_keeps (c : Ctl) (a b : Reg) (s : State) : outcomeKeeps (controls s) (execTrtw c a b s) :=
  outcomeKeeps_runInstr _ _ fun _ _ => by simp

theorem execTrtr_keeps (c : Ctl) (d a : Reg) (s : State) : outcomeKeeps (controls s) (execTrtr c d a s) :=
  outcomeKeeps_runInstr _ _ fun _ _ => by simp

theorem execLayset_keeps (c : Ctl) (f : LayFld) (d a : Reg) (x1 : Word) (s : State) :
    outcomeKeeps (controls s) (execLayset c f d a x1 s) :=
  outcomeKeeps_runInstr _ _ fun _ _ => by simp

/-! ## Functions of Machine/Matrix -/

theorem execMxz_keeps (c : Ctl) (first count : BitVec 12) (s : State) :
    outcomeKeeps (controls s) (execMxz c first count s) :=
  outcomeKeeps_runInstr _ _ fun _ _ => by simp

theorem execMxwr_keeps (c : Ctl) (ty : Ty) (a : Reg) (first count : BitVec 12) (s : State) :
    outcomeKeeps (controls s) (execMxwr c ty a first count s) :=
  outcomeKeeps_runInstr _ _ fun _ _ => by simp

theorem execMxrd_keeps (c : Ctl) (toReg : Bool) (ty : Ty) (d : Reg) (first count : BitVec 12) (s : State) :
    outcomeKeeps (controls s) (execMxrd c toReg ty d first count s) :=
  outcomeKeeps_runInstr _ _ fun _ _ => by simp

theorem execMxsc_keeps (c : Ctl) (opB : Bool) (kind : MxScale) (a b : Reg) (s : State) :
    outcomeKeeps (controls s) (execMxsc c opB kind a b s) :=
  outcomeKeeps_runInstr _ _ fun _ _ => by simp

theorem execMxck_keeps (c : Ctl) (clr : Bool) (d : Reg) (s : State) : outcomeKeeps (controls s) (execMxck c clr d s) :=
  outcomeKeeps_runInstr _ _ fun _ _ => by simp

theorem execMxil_keeps (c : Ctl) (ty : Ty) (a : Reg) (krows : BitVec 10) (s : State) :
    outcomeKeeps (controls s) (execMxil c ty a krows s) :=
  outcomeKeeps_runInstr _ _ fun _ _ => by simp

theorem execMma_keeps (c : Ctl) (ta tb : BitVec 4) (keepb ck : Bool) (d a b cc : Reg) (s : State) :
    outcomeKeeps (controls s) (execMma c ta tb keepb ck d a b cc s) :=
  outcomeKeeps_runInstr _ _ fun _ _ => by simp

/-! ## Functions of Machine/Engine -/

theorem execCpyq_keeps (c : Ctl) (a : Reg) (s : State) : outcomeKeeps (controls s) (execCpyq c a s) :=
  outcomeKeeps_runInstr _ _ fun _ _ => by simp

theorem execCpypub_keeps (c : Ctl) (s : State) : outcomeKeeps (controls s) (execCpypub c s) :=
  outcomeKeeps_runInstr _ _ fun _ _ => by simp

theorem execCseal_keeps (c : Ctl) (cls : Cls) (s : State) : outcomeKeeps (controls s) (execCseal c cls s) :=
  outcomeKeeps_runInstr _ _ fun _ _ => by simp

theorem execCwait_keeps (c : Ctl) (cls : Cls) (n : BitVec 6) (s : State) :
    outcomeKeeps (controls s) (execCwait c cls n s) :=
  outcomeKeeps_runInstr _ _ fun _ _ =>
    answerKeeps_ite (by simp) (answerKeeps_bind (checkKeeps_raiseFailures rfl ..) fun _ => by simp)

theorem execCstat_keeps (c : Ctl) (form : StatForm) (cls : Cls) (d : Reg) (s : State) :
    outcomeKeeps (controls s) (execCstat c form cls d s) :=
  outcomeKeeps_runInstr _ _ fun _ _ => by
    cases form with
    | cnt => simp
    | raise => exact answerKeeps_bind (checkKeeps_raiseFailures rfl ..) fun _ => by simp
    | ring => simp

theorem execGath_keeps (c : Ctl) (ty : Ty) (d a : Reg) (gx : GathX) (s : State) :
    outcomeKeeps (controls s) (execGath c ty d a gx s) :=
  outcomeKeeps_runInstr _ _ fun _ _ => by simp

theorem execScat_keeps (c : Ctl) (ty : Ty) (a b : Reg) (gx : GathX) (s : State) :
    outcomeKeeps (controls s) (execScat c ty a b gx s) :=
  outcomeKeeps_runInstr _ _ fun x u => by
    dsimp only
    split
    · exact answerKeeps_bind (by simp) fun _ => answerKeeps_bind_body (bodyKeeps_hold rfl ..) fun _ ht => by simp [ht]
    · refine answerKeeps_ite (answerKeeps_bind (checkKeeps_forM (by simp) _) fun _ => answerKeeps_bind trivial fun _ => ?_)
        (answerKeeps_bind trivial fun _ => ?_)
      · exact answerKeeps_bind_body (bodyKeeps_hold rfl ..) fun _ ht => by simp [ht]
      · exact answerKeeps_bind_body (bodyKeeps_hold rfl ..) fun _ ht => by simp [ht]

theorem execAtom_keeps (c : Ctl) (form : AtForm) (ty : LTy) (op : AtOp) (scope : BitVec 3) (ret : Bool) (d a b cc : Reg)
    (s : State) : outcomeKeeps (controls s) (execAtom c form ty op scope ret d a b cc s) :=
  outcomeKeeps_runInstr _ _ fun x u => by
    dsimp only
    split
    · refine answerKeeps_bind (by simp) fun _ => bodyKeeps_atomicForm rfl _ _ _ fun t ht => answerKeeps_ite ?_ ?_
      · simp [ht]
      · simp [ht]
    · refine bodyKeeps_atomicForm rfl _ _ _ fun t ht => answerKeeps_ite ?_ ?_
      · simp [ht]
      · simp [ht]

theorem execAtoms_keeps (c : Ctl) (form : AtForm) (ty : STy) (op : AtOp) (scope : BitVec 3) (ret : Bool) (a b : Reg)
    (off : Off) (s : State) : outcomeKeeps (controls s) (execAtoms c form ty op scope ret a b off s) :=
  outcomeKeeps_runInstr _ _ fun x u => by
    refine answerKeeps_bind (by simp) fun _ => answerKeeps_ite (answerKeeps_bind (by simp) fun _ => ?_) ?_
    · exact bodyKeeps_atomicForm rfl _ _ _ fun t ht => by simp [ht]
    · exact bodyKeeps_atomicForm rfl _ _ _ fun t ht => by simp [ht]

/-! ## Functions of Machine/Smock -/

theorem execHgcfg_keeps (c : Ctl) (a : Reg) (slot : BitVec 4) (s : State) :
    outcomeKeeps (controls s) (execHgcfg c a slot s) :=
  outcomeKeeps_runInstr _ _ fun _ _ => by simp

theorem execHgld_keeps (c : Ctl) (d a : Reg) (y : SmkX) (s : State) : outcomeKeeps (controls s) (execHgld c d a y s) :=
  outcomeKeeps_runInstr _ _ fun _ _ => by simp

theorem execHgsc_keeps (c : Ctl) (a b : Reg) (y : SmkX) (s : State) : outcomeKeeps (controls s) (execHgsc c a b y s) :=
  outcomeKeeps_runInstr _ _ fun _ _ => answerKeeps_bind (by simp) fun _ => answerKeeps_bind (by simp) fun _ =>
    answerKeeps_bind_body (bodyKeeps_hold rfl ..) fun _ ht => by simp [ht]

theorem execHgfold_keeps (c : Ctl) (zero : Bool) (a : Reg) (y : SmkX) (s : State) :
    outcomeKeeps (controls s) (execHgfold c zero a y s) :=
  outcomeKeeps_runInstr _ _ fun _ _ => by
    refine answerKeeps_ite (answerKeeps_bind (by simp) fun _ => bodyKeeps_foldForm rfl _ _ fun _ ht => ?_) ?_
    · exact answerKeeps_bind_body (bodyKeeps_hold ht ..) fun _ hv => by simp [hv]
    · exact bodyKeeps_foldForm rfl _ _ fun _ ht => by simp [ht]

theorem execHgidx_keeps (c : Ctl) (d a : Reg) (slot : BitVec 4) (level : BitVec 5) (corner : BitVec 8) (s : State) :
    outcomeKeeps (controls s) (execHgidx c d a slot level corner s) :=
  outcomeKeeps_runInstr _ _ fun _ _ => by simp

/-! ## Functions of Machine/Access -/

theorem execGranuleRead_keeps (id k : Nat) (buffered : Bool) (s : State) :
    outcomeKeeps (controls s) (execGranuleRead id k buffered s) := by
  refine outcomeKeeps_outcomeOf (optionKeeps_bind _ _ fun c => optionKeeps_bind _ _ fun p => ?_)
  split
  · refine optionKeeps_ite trivial (optionKeeps_bind _ _ fun r => optionKeeps_ite (optionKeeps_bind _ _ fun x => ?_) ?_)
    · simp
    · exact beginRead_keeps ..
  · trivial

theorem execGranuleReconstruct_keeps (id k : Nat) (s : State) :
    outcomeKeeps (controls s) (execGranuleReconstruct id k s) := by
  refine outcomeKeeps_outcomeOf (optionKeeps_bind _ _ fun c => optionKeeps_bind _ _ fun w => ?_)
  split
  · exact settlePiece_keeps _ _ _ _ _ _ _ _ (by simp)
  · trivial

theorem execStripeWrite_keeps (id k : Nat) (s : State) : outcomeKeeps (controls s) (execStripeWrite id k s) := by
  refine outcomeKeeps_outcomeOf (optionKeeps_bind _ _ fun c => ?_)
  split
  · simp
  · refine optionKeeps_ite trivial (optionKeeps_bind _ _ fun p => ?_)
    split
    · refine optionKeeps_bind _ _ fun r => optionKeeps_bind _ _ fun d => optionKeeps_bind _ _ fun ws => ?_
      split
      · exact optionKeeps_ite ((beginWrite_keeps ..).of_controls_eq (by simp)) trivial
      · exact (writeAway_keeps ..).of_controls_eq (by simp)
    · trivial

theorem execSubGranuleWrite_keeps (id k : Nat) (s : State) : outcomeKeeps (controls s) (execSubGranuleWrite id k s) := by
  refine outcomeKeeps_outcomeOf (optionKeeps_bind _ _ fun c => optionKeeps_bind _ _ fun p => ?_)
  split
  · refine optionKeeps_bind _ _ fun r => optionKeeps_bind _ _ fun d => optionKeeps_bind _ _ fun ws => ?_
    split
    · exact optionKeeps_ite trivial ((mergeWrite_keeps _ _ _ _ _ _ _ _ fun _ _ => rfl).of_controls_eq (by simp))
    · trivial
  · trivial

/-- An operation carried to another device, whole or as a step. -/
theorem stepOrSend_keeps (s : State) (c : Cmd) (k va : Nat) :
    optionKeeps (controls s) ((stepRun s c k).bind fun r => sendStep s c k r va) :=
  optionKeeps_bind _ _ fun _ => sendStep_keeps ..

theorem execServiceGangOp_keeps (id k : Nat) (s : State) : outcomeKeeps (controls s) (execServiceGangOp id k s) := by
  refine outcomeKeeps_outcomeOf (optionKeeps_bind _ _ fun c => optionKeeps_bind _ _ fun p => ?_)
  split
  · refine optionKeeps_bind _ _ fun r => optionKeeps_ite trivial (optionKeeps_ite (by simp) ?_)
    split
    · exact stepOrSend_keeps ..
    · trivial
    · trivial
    · simp
    · exact opLocal_keeps ..
    · exact optionKeeps_ite (sendToPeer_keeps ..) (sendToPeer_keeps ..)
    · exact optionKeeps_ite (stepOrSend_keeps ..) (sendToPeer_keeps ..)
    · exact optionKeeps_ite (sendToPeer_keeps ..) (by simp)
    · exact signalHost_keeps ..
    · simp
  · trivial

theorem execTableWalk_keeps (id k : Nat) (s : State) : outcomeKeeps (controls s) (execTableWalk id k s) := by
  refine outcomeKeeps_outcomeOf (optionKeeps_bind _ _ fun c => optionKeeps_bind _ _ fun p => optionKeeps_ite trivial ?_)
  split
  · trivial
  · next e => simp [controls_snd e]
  · next e => simp [controls_snd e]
  · next e => simp [controls_snd e]

theorem execPageExpand_keeps (id k : Nat) (s : State) : outcomeKeeps (controls s) (execPageExpand id k s) := by
  refine outcomeKeeps_outcomeOf (optionKeeps_bind _ _ fun c => optionKeeps_bind _ _ fun p => optionKeeps_ite trivial ?_)
  split
  · next e => exact optionKeeps_ite trivial ((expandFor_keeps ..).of_controls_eq (by simp [controls_snd e]))
  · trivial

theorem execPeerResponse_keeps (id : Nat) (y : PeerReply) (s : State) : outcomeKeeps (controls s) (execPeerResponse id y s) :=
  outcomeKeeps_ite (by simp)
    (outcomeKeeps_outcomeOf (optionKeeps_bind _ _ fun r => optionKeeps_bind _ _ fun c => respond_keeps ..))

theorem execRequestTimeout_keeps (id : Nat) (s : State) : outcomeKeeps (controls s) (execRequestTimeout id s) := by
  unfold execRequestTimeout
  split <;> simp

theorem execStepAck_keeps (id step : Nat) (s : State) : outcomeKeeps (controls s) (execStepAck id step s) := by
  unfold execStepAck
  split <;> simp

theorem execStepRetry_keeps (id step : Nat) (s : State) : outcomeKeeps (controls s) (execStepRetry id step s) :=
  outcomeKeeps_outcomeOf <| optionKeeps_bind _ _ fun c => optionKeeps_bind _ _ fun t => optionKeeps_bind _ _ fun p =>
    optionKeeps_bind _ _ fun r => optionKeeps_ite trivial ((sendStep_keeps ..).of_controls_eq (by simp))

theorem execUalLinkUp_keeps (n dev port domain : Nat) (s : State) :
    outcomeKeeps (controls s) (execUalLinkUp n dev port domain s) := by
  simp [execUalLinkUp]

theorem execUalLinkDown_keeps (n : Nat) (s : State) : outcomeKeeps (controls s) (execUalLinkDown n s) := by
  simp [execUalLinkDown]

/-! ## Functions of Machine/Pleat -/

theorem execTileArrive_keeps (station : Option Nat) (t : Tile) (s : State) :
    outcomeKeeps (controls s) (execTileArrive station t s) := by
  refine outcomeKeeps_outcomeOf (optionKeeps_bind _ _ fun h => optionKeeps_bind _ _ fun c => optionKeeps_bind _ _ fun p => ?_)
  split
  · refine optionKeeps_bind _ _ fun r => ?_
    split
    · exact optionKeeps_bind _ _ fun x => by simp
    · trivial
  · trivial

theorem execPleatEntryTimeout_keeps (table entry : Nat) (s : State) :
    outcomeKeeps (controls s) (execPleatEntryTimeout table entry s) := by
  unfold execPleatEntryTimeout
  split <;> simp

theorem execPeerRequest_keeps (r : PeerReqIn) (s : State) : outcomeKeeps (controls s) (execPeerRequest r s) := by
  unfold execPeerRequest
  dsimp only
  repeat' split
  all_goals simp

/-! ## Functions of Machine/Complete -/

theorem execCommandComplete_keeps (id : Nat) (s : State) : outcomeKeeps (controls s) (execCommandComplete id s) := by
  unfold execCommandComplete
  split
  · simp
  · refine outcomeKeeps_ite (by simp) ?_
    split
    · exact outcomeKeeps_outcomeOf (optionKeeps_ite trivial (measureEnd_keeps ..))
    · refine outcomeKeeps_ite (by simp) ?_
      split
      · simp
      · split
        · simp
        · refine outcomeKeeps_ite ?_ (by simp)
          dsimp only
          split <;> simp

theorem execRingConsume_keeps (pid : Nat) (s : State) : outcomeKeeps (controls s) (execRingConsume pid s) := by
  unfold execRingConsume
  split <;> simp

/-! ## Functions of Machine/Stacks -/

theorem regWrite_keeps (s : State) (p : Port) {f : State → State} (h : controls (f s) = controls s) :
    outcomeKeeps (controls s) (regWrite s p f) :=
  outcomeKeeps_ite (by split <;> simp [h]) trivial

theorem anyWrite_keeps (s : State) {f : State → State} (h : controls (f s) = controls s) :
    outcomeKeeps (controls s) (anyWrite s f) :=
  outcomeKeeps_ite (by split <;> simp [h]) trivial

theorem execStackLoss_keeps (s : State) : outcomeKeeps (controls s) (execStackLoss s) := by
  simp [execStackLoss]

theorem execStackRetrainFail_keeps (stack : Nat) (s : State) : outcomeKeeps (controls s) (execStackRetrainFail stack s) := by
  simp [execStackRetrainFail]

theorem execGusDeclareWrite_keeps (p : Port) (v : DWord) (s : State) :
    outcomeKeeps (controls s) (execGusDeclareWrite p v s) :=
  outcomeKeeps_ite trivial (regWrite_keeps _ _ (by split <;> simp))

theorem execGusCounterClear_keeps (c : GusCounter) (s : State) : outcomeKeeps (controls s) (execGusCounterClear c s) :=
  anyWrite_keeps _ (by simp)

theorem execGusXpoolWrite_keeps (p : Port) (v : DWord) (s : State) : outcomeKeeps (controls s) (execGusXpoolWrite p v s) :=
  regWrite_keeps _ _ (by simp)

/-! ## Functions of Machine/HostPort -/

theorem controls_hostGranules (as : List Nat) (s : State) {r : Bool × List Byte × State} (h : hostGranules s as = some r) :
    controls r.2.2 = controls s := by
  induction as generalizing s r with
  | nil => cases h; rfl
  | cons a as ih =>
    unfold hostGranules at h
    split at h
    · cases h
    · next e =>
      obtain ⟨q, hq, rfl⟩ := Option.map_eq_some_iff.mp h
      simp [ih _ hq, controls_snd e]
    · next e =>
      obtain ⟨q, hq, rfl⟩ := Option.map_eq_some_iff.mp h
      simp [ih _ hq, controls_snd e]

theorem execBar2Read_keeps (p : Port) (off len : Nat) (s : State) :
    outcomeKeeps (controls s) (execBar2Read p off len s) := by
  refine outcomeKeeps_ite trivial (outcomeKeeps_ite (by simp) ?_)
  split
  · next e => simpa using controls_hostGranules _ _ e
  · trivial

theorem execBar2Write_keeps (p : Port) (off : Nat) (bytes : List Byte) (s : State) :
    outcomeKeeps (controls s) (execBar2Write p off bytes s) := by
  simp [execBar2Write]

theorem execPortReset_keeps (p : Port) (s : State) : outcomeKeeps (controls s) (execPortReset p s) := by
  simp [execPortReset]

theorem execHostLinkDown_keeps (p : Port) (s : State) : outcomeKeeps (controls s) (execHostLinkDown p s) := by
  simp [execHostLinkDown]

theorem execSemAcquire_keeps (p : Port) (r : SemRead) (s : State) : outcomeKeeps (controls s) (execSemAcquire p r s) := by
  unfold execSemAcquire
  split <;> simp

theorem execSemRelease_keeps (p : Port) (n : BitVec 5) (v : DWord) (s : State) :
    outcomeKeeps (controls s) (execSemRelease p n v s) :=
  regWrite_keeps _ _ (by simp)

theorem execXlCfgWrite_keeps (p : Port) (v : DWord) (s : State) : outcomeKeeps (controls s) (execXlCfgWrite p v s) :=
  regWrite_keeps _ _ (by simp)

theorem execXlTimeoutWrite_keeps (p : Port) (v : DWord) (s : State) : outcomeKeeps (controls s) (execXlTimeoutWrite p v s) :=
  regWrite_keeps _ _ (by simp)

theorem execXlCounterClear_keeps (c : XlCounter) (s : State) : outcomeKeeps (controls s) (execXlCounterClear c s) :=
  anyWrite_keeps _ (by simp)

/-! ## Functions of Machine/Queues -/

theorem execHqEnable_keeps (q : BitVec 8) (v : DWord) (s : State) : outcomeKeeps (controls s) (execHqEnable q v s) :=
  outcomeKeeps_ite (anyWrite_keeps _ (by simp)) trivial

theorem execHqDisable_keeps (q : BitVec 8) (v : DWord) (s : State) : outcomeKeeps (controls s) (execHqDisable q v s) :=
  outcomeKeeps_ite (anyWrite_keeps _ (by simp)) trivial

theorem execHqStop_keeps (q : BitVec 8) (v : DWord) (s : State) : outcomeKeeps (controls s) (execHqStop q v s) :=
  outcomeKeeps_ite (anyWrite_keeps _ (by simp)) trivial

theorem execHqRecover_keeps (q : BitVec 8) (v : DWord) (s : State) : outcomeKeeps (controls s) (execHqRecover q v s) :=
  outcomeKeeps_ite (anyWrite_keeps _ (by simp)) trivial

theorem execHqTailWrite_keeps (q : BitVec 8) (v : DWord) (s : State) : outcomeKeeps (controls s) (execHqTailWrite q v s) :=
  anyWrite_keeps _ (by simp)

theorem execPacketFetch_keeps (q : BitVec 8) (s : State) : outcomeKeeps (controls s) (execPacketFetch q s) := by
  unfold execPacketFetch
  dsimp only
  repeat' split
  all_goals simp

theorem execHqFqRespWrite_keeps (p : Port) (v : DWord) (s : State) : outcomeKeeps (controls s) (execHqFqRespWrite p v s) :=
  regWrite_keeps _ _ (by simp)

theorem execHqInvalWrite_keeps (p : Port) (v : DWord) (s : State) : outcomeKeeps (controls s) (execHqInvalWrite p v s) :=
  regWrite_keeps _ _ (by simp)

theorem execInvalidateDone_keeps (s : State) : outcomeKeeps (controls s) (execInvalidateDone s) := by
  simp [execInvalidateDone]

/-! ## Functions of Machine/Packets -/

theorem startPkt_keeps (s : State) (q : BitVec 8) (i : Word) (t : Nat) {f : List Byte → State → State}
    (h : ∀ bs u, controls (f bs u) = controls u) : outcomeKeeps (controls s) (startPkt s q i t f) := by
  unfold startPkt
  split
  · exact outcomeKeeps_ite (by simp [h]) trivial
  · trivial

theorem execNopPacket_keeps (q : BitVec 8) (i : Word) (s : State) : outcomeKeeps (controls s) (execNopPacket q i s) :=
  startPkt_keeps _ _ _ _ fun _ _ => by simp

theorem execFencePacket_keeps (q : BitVec 8) (i : Word) (s : State) : outcomeKeeps (controls s) (execFencePacket q i s) :=
  startPkt_keeps _ _ _ _ fun _ _ => by simp

theorem execSetprioPacket_keeps (q : BitVec 8) (i : Word) (s : State) :
    outcomeKeeps (controls s) (execSetprioPacket q i s) :=
  startPkt_keeps _ _ _ _ fun _ _ => by simp

theorem execCopyPacket_keeps (q : BitVec 8) (i : Word) (s : State) : outcomeKeeps (controls s) (execCopyPacket q i s) :=
  startPkt_keeps _ _ _ _ fun _ _ => by simp

theorem execSignalPacket_keeps (q : BitVec 8) (i : Word) (s : State) : outcomeKeeps (controls s) (execSignalPacket q i s) :=
  startPkt_keeps _ _ _ _ fun _ _ => by simp

theorem execWaitPacket_keeps (q : BitVec 8) (i : Word) (s : State) : outcomeKeeps (controls s) (execWaitPacket q i s) :=
  startPkt_keeps _ _ _ _ fun _ _ => by simp

theorem execWaitPoll_keeps (q : BitVec 8) (i : Word) (s : State) : outcomeKeeps (controls s) (execWaitPoll q i s) := by
  unfold execWaitPoll
  split
  · refine outcomeKeeps_ite trivial ?_
    split
    · simp
    · split
      · simp
      · exact outcomeKeeps_ite (by simp) (by simp)
      · trivial
  · trivial

theorem execCompressPacket_keeps (q : BitVec 8) (i : Word) (s : State) :
    outcomeKeeps (controls s) (execCompressPacket q i s) := by
  unfold execCompressPacket
  split
  · exact outcomeKeeps_outcomeOf (compressNext_keeps ..)
  · exact startPkt_keeps _ _ _ _ fun _ _ => by simp

/-! ## Functions of Machine/Accept -/

theorem execLaunchPacket_keeps (q : BitVec 8) (i : Word) (s : State) :
    outcomeKeeps (controls s) (execLaunchPacket q i s) := by
  unfold execLaunchPacket
  split
  · exact outcomeKeeps_outcomeOf (acceptNext_keeps ..)
  · trivial
  · exact startPkt_keeps _ _ _ _ fun _ _ => by simp

/-! ## Functions of Machine/Placement -/

theorem execDispatch_keeps (part : BitVec 3) (s : State) : outcomeKeeps (controls s) (execDispatch part s) := by
  refine outcomeKeeps_ite ?_ trivial
  split <;> simp

/-! ## Functions of Machine/Preempt -/

theorem execPreemptCheck_keeps (part : BitVec 3) (s : State) : outcomeKeeps (controls s) (execPreemptCheck part s) := by
  simp [execPreemptCheck]

theorem execDrainVictimTimeout_keeps (pid : Nat) (s : State) : outcomeKeeps (controls s) (execDrainVictimTimeout pid s) := by
  unfold execDrainVictimTimeout
  dsimp only
  split
  · simp
  · split <;> simp

theorem execPanelSaveLining_keeps (pid : Nat) (s : State) : outcomeKeeps (controls s) (execPanelSaveLining pid s) :=
  outcomeKeeps_outcomeOf (optionKeeps_bind _ _ fun _ => optionKeeps_ite (saveVictim_keeps ..) trivial)

theorem execPanelSaveMem_keeps (pid : Nat) (s : State) : outcomeKeeps (controls s) (execPanelSaveMem pid s) :=
  outcomeKeeps_outcomeOf (optionKeeps_bind _ _ fun _ => optionKeeps_ite trivial (saveVictim_keeps ..))

theorem execPanelFlush_keeps (pid : Nat) (s : State) : outcomeKeeps (controls s) (execPanelFlush pid s) := by
  unfold execPanelFlush
  split <;> simp

/-! ## Functions of Machine/Residence -/

theorem execStagingComplete_keeps (pid : Nat) (s : State) : outcomeKeeps (controls s) (execStagingComplete pid s) := by
  unfold execStagingComplete
  split
  · trivial
  · refine outcomeKeeps_ite trivial ?_
    split
    · simp
    · exact outcomeKeeps_ite (by simp) trivial

theorem execActiveSetSwap_keeps (core pos : Nat) (s : State) : outcomeKeeps (controls s) (execActiveSetSwap core pos s) := by
  unfold execActiveSetSwap
  split
  · trivial
  · split
    · simp
    · exact outcomeKeeps_ite (by simp) trivial
    · trivial

theorem execCodeFetch_keeps (pid window : Nat) (s : State) : outcomeKeeps (controls s) (execCodeFetch pid window s) := by
  unfold execCodeFetch
  split
  · trivial
  · split
    · exact outcomeKeeps_ite (by simp) trivial
    · split <;> simp

theorem execSleepWake_keeps (pid gang entry : Nat) (s : State) :
    outcomeKeeps (controls s) (execSleepWake pid gang entry s) := by
  unfold execSleepWake
  split <;> simp

theorem execPanelRetire_keeps (pid : Nat) (s : State) : outcomeKeeps (controls s) (execPanelRetire pid s) := by
  unfold execPanelRetire
  dsimp only
  repeat' split
  all_goals simp

theorem execPanelWritebackDone_keeps (pid : Nat) (s : State) :
    outcomeKeeps (controls s) (execPanelWritebackDone pid s) := by
  unfold execPanelWritebackDone
  split
  · trivial
  · refine outcomeKeeps_ite trivial ?_
    split
    · simp
    · exact outcomeKeeps_ite (by simp) trivial

/-! ## Functions of Machine/Manage -/

theorem execAclkFloorTimeout_keeps (s : State) : outcomeKeeps (controls s) (execAclkFloorTimeout s) := by
  simp [execAclkFloorTimeout]

theorem execDeviceResetRequest_keeps (p : Port) (s : State) : outcomeKeeps (controls s) (execDeviceResetRequest p s) := by
  simp [execDeviceResetRequest]

theorem execDeviceResetDone_keeps (s : State) : outcomeKeeps (controls s) (execDeviceResetDone s) := by
  simp [execDeviceResetDone]

theorem execHostPortLinkUp_keeps (p : Port) (s : State) : outcomeKeeps (controls s) (execHostPortLinkUp p s) := by
  simp [execHostPortLinkUp]

theorem execHealthRefresh_keeps (s : State) : outcomeKeeps (controls s) (execHealthRefresh s) := by
  simp [execHealthRefresh]

theorem execDrainSet_keeps (part : BitVec 3) (s : State) : outcomeKeeps (controls s) (execDrainSet part s) :=
  anyWrite_keeps _ (by simp)

theorem execDrainClear_keeps (part : BitVec 3) (s : State) : outcomeKeeps (controls s) (execDrainClear part s) :=
  anyWrite_keeps _ (by simp)

theorem execFaultRecordWrite_keeps (r : FaultRec) (s : State) : outcomeKeeps (controls s) (execFaultRecordWrite r s) := by
  simp [execFaultRecordWrite]

theorem execMgFrLostClear_keeps (s : State) : outcomeKeeps (controls s) (execMgFrLostClear s) :=
  anyWrite_keeps _ (by simp)

theorem execMgG4ClearWrite_keeps (p : Port) (v : DWord) (s : State) : outcomeKeeps (controls s) (execMgG4ClearWrite p v s) :=
  regWrite_keeps _ _ (by simp)

theorem execAttestationStart_keeps (p : Port) (v : DWord) (s : State) :
    outcomeKeeps (controls s) (execAttestationStart p v s) :=
  regWrite_keeps _ _ (by simp)

theorem execAttestationDone_keeps (s : State) : outcomeKeeps (controls s) (execAttestationDone s) :=
  outcomeKeeps_ite (Eq.refl (controls s)) trivial

/-! ## Functions of Machine/Sync -/

theorem execJoin_keeps (c : Ctl) (i : BitVec 4) (s : State) : outcomeKeeps (controls s) (execJoin c i s) :=
  outcomeKeeps_runInstr _ _ fun _ _ => by simp

theorem execLeave_keeps (c : Ctl) (i : BitVec 4) (s : State) : outcomeKeeps (controls s) (execLeave c i s) :=
  outcomeKeeps_runInstr _ _ fun _ _ => by simp

theorem execSeambar_keeps (c : Ctl) (i : BitVec 4) (s : State) : outcomeKeeps (controls s) (execSeambar c i s) :=
  outcomeKeeps_runInstr _ _ fun _ _ => by simp

theorem execBarw_keeps (c : Ctl) (b : BitVec 4) (n : BitVec 6) (s : State) : outcomeKeeps (controls s) (execBarw c b n s) :=
  outcomeKeeps_runInstr _ _ fun _ _ => by simp

theorem execSlvinit_keeps (c : Ctl) (n : BitVec 4) (a : Reg) (s : State) : outcomeKeeps (controls s) (execSlvinit c n a s) :=
  outcomeKeeps_runInstr _ _ fun _ _ => by simp

theorem execSlvpush_keeps (c : Ctl) (n : BitVec 4) (a : Reg) (s : State) : outcomeKeeps (controls s) (execSlvpush c n a s) :=
  outcomeKeeps_runInstr _ _ fun _ _ => by simp

theorem execSlvpop_keeps (c : Ctl) (n : BitVec 4) (d : Reg) (s : State) : outcomeKeeps (controls s) (execSlvpop c n d s) :=
  outcomeKeeps_runInstr _ _ fun _ _ => by simp

theorem execSlvtry_keeps (c : Ctl) (n : BitVec 4) (d : Reg) (s : State) : outcomeKeeps (controls s) (execSlvtry c n d s) :=
  outcomeKeeps_runInstr _ _ fun _ _ => by simp

theorem execSlvgrant_keeps (c : Ctl) (n : BitVec 4) (s : State) : outcomeKeeps (controls s) (execSlvgrant c n s) :=
  outcomeKeeps_runInstr _ _ fun _ _ => by simp

theorem execPhaseAcq_keeps (c : Ctl) (scope : BitVec 3) (s : State) : outcomeKeeps (controls s) (execPhaseAcq c scope s) :=
  outcomeKeeps_runInstr _ _ fun _ _ => by simp

theorem execPhaseRel_keeps (c : Ctl) (scope : BitVec 3) (s : State) : outcomeKeeps (controls s) (execPhaseRel c scope s) :=
  outcomeKeeps_runInstr _ _ fun _ _ => bodyKeeps_releaseThen rfl _ _ fun _ ht => ht

theorem execPhaseAr_keeps (c : Ctl) (scope : BitVec 3) (s : State) : outcomeKeeps (controls s) (execPhaseAr c scope s) :=
  outcomeKeeps_runInstr _ _ fun _ _ => bodyKeeps_releaseThen rfl _ _ fun _ ht => by simp [ht]

theorem execFence_keeps (c : Ctl) (mask : BitVec 5) (s : State) : outcomeKeeps (controls s) (execFence c mask s) :=
  outcomeKeeps_runInstr _ _ fun x _ => bodyKeeps_sealOnce rfl x mask fun r hr =>
    answerKeeps_ite (by simp [hr]) (answerKeeps_bind (checkKeeps_raiseFailures hr ..) fun _ => hr)

theorem execFewait_keeps (c : Ctl) (a : Reg) (s : State) : outcomeKeeps (controls s) (execFewait c a s) :=
  outcomeKeeps_runInstr _ _ fun _ _ => by simp

theorem execFemark_keeps (c : Ctl) (st : FeState) (d : Reg) (s : State) : outcomeKeeps (controls s) (execFemark c st d s) :=
  outcomeKeeps_runInstr _ _ fun _ _ => by simp

theorem execRgnLo_keeps (c : Ctl) (mask : Word) (s : State) : outcomeKeeps (controls s) (execRgnLo c mask s) :=
  outcomeKeeps_runInstr _ _ fun _ _ => by simp

theorem execRgnHi_keeps (c : Ctl) (mask : Word) (s : State) : outcomeKeeps (controls s) (execRgnHi c mask s) :=
  outcomeKeeps_runInstr _ _ fun _ _ => by simp

theorem execSpill_keeps (c : Ctl) (a : Reg) (slot : BitVec 9) (s : State) :
    outcomeKeeps (controls s) (execSpill c a slot s) :=
  outcomeKeeps_runInstr _ _ fun _ _ => by simp

theorem execFill_keeps (c : Ctl) (d : Reg) (slot : BitVec 9) (s : State) : outcomeKeeps (controls s) (execFill c d slot s) :=
  outcomeKeeps_runInstr _ _ fun _ _ => by simp

theorem execFtag_keeps (c : Ctl) (d a : Reg) (s : State) : outcomeKeeps (controls s) (execFtag c d a s) :=
  outcomeKeeps_runInstr _ _ fun _ _ => by simp

theorem execCtnopen_keeps (c : Ctl) (x1 : Word) (s : State) : outcomeKeeps (controls s) (execCtnopen c x1 s) :=
  outcomeKeeps_runInstr _ _ fun _ _ => by simp

theorem execCtnclose_keeps (c : Ctl) (s : State) : outcomeKeeps (controls s) (execCtnclose c s) :=
  outcomeKeeps_runInstr _ _ fun _ _ => by simp

theorem execCtnraise_keeps (c : Ctl) (code : BitVec 8) (s : State) : outcomeKeeps (controls s) (execCtnraise c code s) :=
  outcomeKeeps_runInstr _ _ fun _ _ => by simp

theorem execTidset_keeps (c : Ctl) (id : BitVec 12) (s : State) : outcomeKeeps (controls s) (execTidset c id s) :=
  outcomeKeeps_runInstr _ _ fun _ _ => by simp

end Sys2Proof.Machine
end

section
/-! SUPPORT. What every row of the operations table but nine leaves of the control registers. -/

namespace Sys2Proof.Machine

open Sys2Proof

/-- The rows of the operations table that may change the control registers. -/
def setsControls : Instr → Bool
  | .mgPwrCapWrite .. | .registerWrite .. | .mgPartClusWrite .. | .preemptHalt .. | .preemptResume .. | .coldReset
  | .powerSample | .aclkRaiseTick | .thermalSample => true
  | _ => false

/-- An instruction that writes a register of its own: a scalar or a vector destination. -/
def hasDest (i : Instr) : Bool := (scalarDest i).isSome || (vectorDest i).isSome

theorem exec_keeps_of_hasDest {i : Instr} (h : hasDest i = true) (s : State) : outcomeKeeps (controls s) (exec i s) := by
  cases i with
  | srd => exact execSrd_keeps ..
  | clk => exact execClk_keeps ..
  | perf => exact execPerf_keeps ..
  | sadd => exact (scalarOp_keeps .. : outcomeKeeps _ (execSadd ..))
  | ssub => exact (scalarOp_keeps .. : outcomeKeeps _ (execSsub ..))
  | smul => exact (scalarOp_keeps .. : outcomeKeeps _ (execSmul ..))
  | smulh => exact (scalarOp_keeps .. : outcomeKeeps _ (execSmulh ..))
  | sdiv => exact (scalarOp_keeps .. : outcomeKeeps _ (execSdiv ..))
  | srem => exact (scalarOp_keeps .. : outcomeKeeps _ (execSrem ..))
  | sand => exact (scalarOp_keeps .. : outcomeKeeps _ (execSand ..))
  | sor => exact (scalarOp_keeps .. : outcomeKeeps _ (execSor ..))
  | sxor => exact (scalarOp_keeps .. : outcomeKeeps _ (execSxor ..))
  | sshl => exact (scalarOp_keeps .. : outcomeKeeps _ (execSshl ..))
  | sshr => exact (scalarOp_keeps .. : outcomeKeeps _ (execSshr ..))
  | ssra => exact (scalarOp_keeps .. : outcomeKeeps _ (execSsra ..))
  | smin => exact (scalarOp_keeps .. : outcomeKeeps _ (execSmin ..))
  | smax => exact (scalarOp_keeps .. : outcomeKeeps _ (execSmax ..))
  | scmp => exact (scalarOp_keeps .. : outcomeKeeps _ (execScmp ..))
  | ssel => exact execSsel_keeps ..
  | smov => exact (scalarOp1_keeps .. : outcomeKeeps _ (execSmov ..))
  | smovi => exact execSmovi_keeps ..
  | sclz => exact (scalarOp1_keeps .. : outcomeKeeps _ (execSclz ..))
  | spopc => exact (scalarOp1_keeps .. : outcomeKeeps _ (execSpopc ..))
  | sbfx => exact (scalarOp1_keeps .. : outcomeKeeps _ (execSbfx ..))
  | sbfi => exact execSbfi_keeps ..
  | vadd => exact (vectorOp_keeps .. : outcomeKeeps _ (execVadd ..))
  | vsub => exact (vectorOp_keeps .. : outcomeKeeps _ (execVsub ..))
  | vmul => exact (vectorOp_keeps .. : outcomeKeeps _ (execVmul ..))
  | vmulh => exact (vectorOp_keeps .. : outcomeKeeps _ (execVmulh ..))
  | vmad => exact (vectorOp3_keeps .. : outcomeKeeps _ (execVmad ..))
  | vadds => exact (saturatingOp_keeps .. : outcomeKeeps _ (execVadds ..))
  | vsubs => exact (saturatingOp_keeps .. : outcomeKeeps _ (execVsubs ..))
  | vand => exact (vectorOp_keeps .. : outcomeKeeps _ (execVand ..))
  | vor => exact (vectorOp_keeps .. : outcomeKeeps _ (execVor ..))
  | vxor => exact (vectorOp_keeps .. : outcomeKeeps _ (execVxor ..))
  | vnot => exact (vectorOp1_keeps .. : outcomeKeeps _ (execVnot ..))
  | vshl => exact (vectorOp_keeps .. : outcomeKeeps _ (execVshl ..))
  | vshr => exact (vectorOp_keeps .. : outcomeKeeps _ (execVshr ..))
  | vsra => exact (vectorOp_keeps .. : outcomeKeeps _ (execVsra ..))
  | vmin => exact (vectorOp_keeps .. : outcomeKeeps _ (execVmin ..))
  | vmax => exact (vectorOp_keeps .. : outcomeKeeps _ (execVmax ..))
  | vabs => exact (vectorOp1_keeps .. : outcomeKeeps _ (execVabs ..))
  | vneg => exact (vectorOp1_keeps .. : outcomeKeeps _ (execVneg ..))
  | vclz => exact (vectorOp1_keeps .. : outcomeKeeps _ (execVclz ..))
  | vpopc => exact (vectorOp1_keeps .. : outcomeKeeps _ (execVpopc ..))
  | vbfx => exact (vectorOp1_keeps .. : outcomeKeeps _ (execVbfx ..))
  | vbfi => exact execVbfi_keeps ..
  | vaddc => exact (vectorOp3_keeps .. : outcomeKeeps _ (execVaddc ..))
  | vmov => exact (vectorOp1_keeps .. : outcomeKeeps _ (execVmov ..))
  | vbcast => exact execVbcast_keeps ..
  | vlid => exact execVlid_keeps ..
  | vsel => exact execVsel_keeps ..
  | vcmp => exact execVcmp_keeps ..
  | vmask => exact execVmask_keeps ..
  | fadd => exact (floatOp2_keeps .. : outcomeKeeps _ (execFadd ..))
  | fsub => exact (floatOp2_keeps .. : outcomeKeeps _ (execFsub ..))
  | fmul => exact (floatOp2_keeps .. : outcomeKeeps _ (execFmul ..))
  | ffma => exact (floatLanes_keeps .. : outcomeKeeps _ (execFfma ..))
  | fmin => exact (floatLanes_keeps .. : outcomeKeeps _ (execFmin ..))
  | fmax => exact (floatLanes_keeps .. : outcomeKeeps _ (execFmax ..))
  | fabs => exact (floatLanes_keeps .. : outcomeKeeps _ (execFabs ..))
  | fneg => exact (floatLanes_keeps .. : outcomeKeeps _ (execFneg ..))
  | fdiv => exact (floatOp2_keeps .. : outcomeKeeps _ (execFdiv ..))
  | frcp => exact (floatOp1_keeps .. : outcomeKeeps _ (execFrcp ..))
  | frsq => exact (floatOp1_keeps .. : outcomeKeeps _ (execFrsq ..))
  | fsqrt => exact (floatOp1_keeps .. : outcomeKeeps _ (execFsqrt ..))
  | fexp2 => exact (floatOp1_keeps .. : outcomeKeeps _ (execFexp2 ..))
  | flog2 => exact (floatOp1_keeps .. : outcomeKeeps _ (execFlog2 ..))
  | ffloor => exact (floatOp1_keeps .. : outcomeKeeps _ (execFfloor ..))
  | ffrac => exact (floatOp1_keeps .. : outcomeKeeps _ (execFfrac ..))
  | fscale => exact (floatLanes_keeps .. : outcomeKeeps _ (execFscale ..))
  | fclass => exact (floatLanes_keeps .. : outcomeKeeps _ (execFclass ..))
  | cvt => exact (convert_keeps .. : outcomeKeeps _ (execCvt ..))
  | cvti => exact (convert_keeps .. : outcomeKeeps _ (execCvti ..))
  | cvtf => exact (convert_keeps .. : outcomeKeeps _ (execCvtf ..))
  | cvtbx => exact (convert_keeps .. : outcomeKeeps _ (execCvtbx ..))
  | shfi => exact (shuffle_keeps .. : outcomeKeeps _ (execShfi ..))
  | shfu => exact (shuffle_keeps .. : outcomeKeeps _ (execShfu ..))
  | shfd => exact (shuffle_keeps .. : outcomeKeeps _ (execShfd ..))
  | shfx => exact (shuffle_keeps .. : outcomeKeeps _ (execShfx ..))
  | gshf => exact execGshf_keeps ..
  | vote => exact execVote_keeps ..
  | vreda => exact execVreda_keeps ..
  | vscan => exact execVscan_keeps ..
  | ftag => exact execFtag_keeps ..
  | _ => cases h

theorem exec_keeps_of_event {i : Instr} (h : (i.isEvent && !setsControls i) = true) (s : State) :
    outcomeKeeps (controls s) (exec i s) := by
  cases i with
  | portReset => exact execPortReset_keeps ..
  | deviceResetRequest => exact execDeviceResetRequest_keeps ..
  | granuleRead => exact execGranuleRead_keeps ..
  | granuleReconstruct => exact execGranuleReconstruct_keeps ..
  | stripeWrite => exact execStripeWrite_keeps ..
  | subGranuleWrite => exact execSubGranuleWrite_keeps ..
  | stackRetrainFail => exact execStackRetrainFail_keeps ..
  | gusDeclareWrite => exact execGusDeclareWrite_keeps ..
  | gusCounterClear => exact execGusCounterClear_keeps ..
  | gusXpoolWrite => exact execGusXpoolWrite_keeps ..
  | compressPacket => exact execCompressPacket_keeps ..
  | pageExpand => exact execPageExpand_keeps ..
  | bar2Read => exact execBar2Read_keeps ..
  | bar2Write => exact execBar2Write_keeps ..
  | hostLinkDown => exact execHostLinkDown_keeps ..
  | xlCfgWrite => exact execXlCfgWrite_keeps ..
  | xlTimeoutWrite => exact execXlTimeoutWrite_keeps ..
  | xlCounterClear => exact execXlCounterClear_keeps ..
  | ualLinkUp => exact execUalLinkUp_keeps ..
  | ualLinkDown => exact execUalLinkDown_keeps ..
  | peerRequest => exact execPeerRequest_keeps ..
  | peerResponse => exact execPeerResponse_keeps ..
  | requestTimeout => exact execRequestTimeout_keeps ..
  | tileArrive => exact execTileArrive_keeps ..
  | pleatEntryTimeout => exact execPleatEntryTimeout_keeps ..
  | serviceGangOp => exact execServiceGangOp_keeps ..
  | stepAck => exact execStepAck_keeps ..
  | stepRetry => exact execStepRetry_keeps ..
  | semAcquire => exact execSemAcquire_keeps ..
  | semRelease => exact execSemRelease_keeps ..
  | hqTailWrite => exact execHqTailWrite_keeps ..
  | hqEnable => exact execHqEnable_keeps ..
  | hqDisable => exact execHqDisable_keeps ..
  | hqStop => exact execHqStop_keeps ..
  | hqRecover => exact execHqRecover_keeps ..
  | packetFetch => exact execPacketFetch_keeps ..
  | nopPacket => exact execNopPacket_keeps ..
  | launchPacket => exact execLaunchPacket_keeps ..
  | copyPacket => exact execCopyPacket_keeps ..
  | waitPacket => exact execWaitPacket_keeps ..
  | waitPoll => exact execWaitPoll_keeps ..
  | signalPacket => exact execSignalPacket_keeps ..
  | fencePacket => exact execFencePacket_keeps ..
  | setprioPacket => exact execSetprioPacket_keeps ..
  | tableWalk => exact execTableWalk_keeps ..
  | hqFqRespWrite => exact execHqFqRespWrite_keeps ..
  | hqInvalWrite => exact execHqInvalWrite_keeps ..
  | faultRecordWrite => exact execFaultRecordWrite_keeps ..
  | mgG4ClearWrite => exact execMgG4ClearWrite_keeps ..
  | drainSet => exact execDrainSet_keeps ..
  | drainClear => exact execDrainClear_keeps ..
  | attestationStart => exact execAttestationStart_keeps ..
  | dispatch => exact execDispatch_keeps ..
  | preemptCheck => exact execPreemptCheck_keeps ..
  | drainVictimTimeout => exact execDrainVictimTimeout_keeps ..
  | panelSaveLining => exact execPanelSaveLining_keeps ..
  | panelSaveMem => exact execPanelSaveMem_keeps ..
  | panelFlush => exact execPanelFlush_keeps ..
  | panelRetire => exact execPanelRetire_keeps ..
  | panelWritebackDone => exact execPanelWritebackDone_keeps ..
  | activeSetSwap => exact execActiveSetSwap_keeps ..
  | codeFetch => exact execCodeFetch_keeps ..
  | ringConsume => exact execRingConsume_keeps ..
  | commandComplete => exact execCommandComplete_keeps ..
  | sleepWake => exact execSleepWake_keeps ..
  | stagingComplete => exact execStagingComplete_keeps ..
  | hostPortLinkUp => exact execHostPortLinkUp_keeps ..
  | deviceResetDone => exact execDeviceResetDone_keeps ..
  | aclkFloorTimeout => exact execAclkFloorTimeout_keeps ..
  | stackLoss => exact execStackLoss_keeps ..
  | invalidateDone => exact execInvalidateDone_keeps ..
  | mgFrLostClear => exact execMgFrLostClear_keeps ..
  | healthRefresh => exact execHealthRefresh_keeps ..
  | attestationDone => exact execAttestationDone_keeps ..
  | unassignedEncoding => exact execUnassignedEncoding_keeps ..
  | _ => cases h

theorem exec_keeps_of_encoded {i : Instr} (h : (i.isEvent || hasDest i) = false) (s : State) :
    outcomeKeeps (controls s) (exec i s) := by
  cases i with
  | nop => exact execNop_keeps ..
  | bra => exact execBra_keeps ..
  | brx => exact execBrx_keeps ..
  | brs => exact execBrs_keeps ..
  | brv => exact execBrv_keeps ..
  | call => exact execCall_keeps ..
  | ret => exact execRet_keeps ..
  | regang => exact execRegang_keeps ..
  | exit => exact execExit_keeps ..
  | ifMask => exact execIfMask_keeps ..
  | elseMask => exact execElseMask_keeps ..
  | endif => exact execEndif_keeps ..
  | loop => exact execLoop_keeps ..
  | endloop => exact execEndloop_keeps ..
  | breakMask => exact execBreakMask_keeps ..
  | contMask => exact execContMask_keeps ..
  | yield => exact execYield_keeps ..
  | sleep => exact execSleep_keeps ..
  | trap => exact execTrap_keeps ..
  | rett => exact execRett_keeps ..
  | brk => exact execBrk_keeps ..
  | swr => exact execSwr_keeps ..
  | sld => exact execSld_keeps ..
  | sst => exact execSst_keeps ..
  | slda => exact execSlda_keeps ..
  | aldef => exact execAldef_keeps ..
  | alrd => exact execAlrd_keeps ..
  | unpk => exact execUnpk_keeps ..
  | pack => exact execPack_keeps ..
  | symx => exact execSymx_keeps ..
  | symi => exact execSymi_keeps ..
  | symld => exact execSymld_keeps ..
  | symst => exact execSymst_keeps ..
  | dota => exact execDota_keeps ..
  | valc => exact execValc_keeps ..
  | ld => exact execLd_keeps ..
  | st => exact execSt_keeps ..
  | ldt => exact execLdt_keeps ..
  | stt => exact execStt_keeps ..
  | ldb => exact execLdb_keeps ..
  | ats => exact execAts_keeps ..
  | trtw => exact execTrtw_keeps ..
  | trtr => exact execTrtr_keeps ..
  | layset => exact execLayset_keeps ..
  | mxz => exact execMxz_keeps ..
  | mma => exact execMma_keeps ..
  | mxrd => exact execMxrd_keeps ..
  | mxwr => exact execMxwr_keeps ..
  | mxsc => exact execMxsc_keeps ..
  | mxck => exact execMxck_keeps ..
  | mxil => exact execMxil_keeps ..
  | cpyq => exact execCpyq_keeps ..
  | cpypub => exact execCpypub_keeps ..
  | cseal => exact execCseal_keeps ..
  | cwait => exact execCwait_keeps ..
  | cstat => exact execCstat_keeps ..
  | gath => exact execGath_keeps ..
  | scat => exact execScat_keeps ..
  | hgcfg => exact execHgcfg_keeps ..
  | hgld => exact execHgld_keeps ..
  | hgsc => exact execHgsc_keeps ..
  | hgfold => exact execHgfold_keeps ..
  | hgidx => exact execHgidx_keeps ..
  | atom => exact execAtom_keeps ..
  | atoms => exact execAtoms_keeps ..
  | join => exact execJoin_keeps ..
  | leave => exact execLeave_keeps ..
  | seambar => exact execSeambar_keeps ..
  | barw => exact execBarw_keeps ..
  | slvinit => exact execSlvinit_keeps ..
  | slvpush => exact execSlvpush_keeps ..
  | slvpop => exact execSlvpop_keeps ..
  | slvtry => exact execSlvtry_keeps ..
  | slvgrant => exact execSlvgrant_keeps ..
  | phaseAcq => exact execPhaseAcq_keeps ..
  | phaseRel => exact execPhaseRel_keeps ..
  | phaseAr => exact execPhaseAr_keeps ..
  | fence => exact execFence_keeps ..
  | fewait => exact execFewait_keeps ..
  | femark => exact execFemark_keeps ..
  | rgnLo => exact execRgnLo_keeps ..
  | rgnHi => exact execRgnHi_keeps ..
  | spill => exact execSpill_keeps ..
  | fill => exact execFill_keeps ..
  | ctnopen => exact execCtnopen_keeps ..
  | ctnclose => exact execCtnclose_keeps ..
  | ctnraise => exact execCtnraise_keeps ..
  | tidset => exact execTidset_keeps ..
  | _ => cases h

theorem exec_keeps {i : Instr} (h : setsControls i = false) (s : State) : outcomeKeeps (controls s) (exec i s) := by
  cases hd : hasDest i with
  | true => exact exec_keeps_of_hasDest hd s
  | false =>
    cases he : i.isEvent with
    | true => exact exec_keeps_of_event (by simp [he, h]) s
    | false => exact exec_keeps_of_encoded (by simp [he, hd]) s

end Sys2Proof.Machine
end

section
/-! CLAIM. Every step keeps the ranges of the control registers and the partitions apart (O56). -/

namespace Sys2Proof.Machine

open Sys2Proof

/-! ## The ranges, on the controls alone -/

theorem controls_part (s : State) (p : Nat) :
    vget (controls s).2.2 p (0, 1) = ((partAt s p).clus, (partAt s p).gap) := by
  unfold controls controlsOf partAt vget
  split <;> simp [part0]

/-- The ranges speak of the controls alone. -/
theorem controlsOk_of_controls_eq {s t : State} (h : controls t = controls s) (hs : controlsOk s = true) :
    controlsOk t = true := by
  have hpart (p : Nat) : ((partAt t p).clus, (partAt t p).gap) = ((partAt s p).clus, (partAt s p).gap) := by
    rw [← controls_part, ← controls_part, h]
  have hclus (p : Nat) : (partAt t p).clus = (partAt s p).clus := congrArg Prod.fst (hpart p)
  have hgap (p : Nat) : (partAt t p).gap = (partAt s p).gap := congrArg Prod.snd (hpart p)
  have haclk : t.mgmt.aclk = s.mgmt.aclk := congrArg Prod.fst h
  have hcap : t.mgmt.pwrCap = s.mgmt.pwrCap := congrArg (fun c : Controls => c.2.1) h
  simp only [controlsOk, clustersDisjoint, gapsOk, powerOk, hclus, hgap, haclk, hcap] at hs ⊢
  exact hs

theorem clustersDisjoint_iff (s : State) : clustersDisjoint s = true ↔
    ∀ p < 8, ∀ q < 8, p ≠ q → (partAt s p).clus &&& (partAt s q).clus = 0 := by
  simp [clustersDisjoint, or_iff_not_imp_left]

theorem gapsOk_iff (s : State) : gapsOk s = true ↔ ∀ p < 8, 1 ≤ (partAt s p).gap ∧ (partAt s p).gap ≤ 63 := by
  simp [gapsOk]

theorem controlsOk_iff (s : State) : controlsOk s = true ↔
    clustersDisjoint s = true ∧ gapsOk s = true ∧ powerOk s = true := by
  simp [controlsOk, and_assoc]

theorem controlsOk_reset : controlsOk State.reset = true := by decide +kernel

/-! ## The writes of the control registers -/

/-- Power control that stays in its ranges. -/
theorem controlsOk_updMgmt {s : State} {f : Mgmt → Mgmt} (hs : controlsOk s = true)
    (ha : 10 ≤ (f s.mgmt).aclk ∧ (f s.mgmt).aclk ≤ 20) (hc : 1500 ≤ (f s.mgmt).pwrCap ∧ (f s.mgmt).pwrCap ≤ 3000) :
    controlsOk (updMgmt s f) = true := by
  obtain ⟨hd, hg, -⟩ := (controlsOk_iff s).mp hs
  exact (controlsOk_iff _).mpr ⟨hd, hg, decide_eq_true ⟨ha.1, ha.2, hc.1, hc.2⟩⟩

theorem powerOk_ranges {s : State} (hs : controlsOk s = true) :
    10 ≤ s.mgmt.aclk ∧ s.mgmt.aclk ≤ 20 ∧ 1500 ≤ s.mgmt.pwrCap ∧ s.mgmt.pwrCap ≤ 3000 := by
  obtain ⟨-, -, hp⟩ := (controlsOk_iff s).mp hs
  exact of_decide_eq_true hp

/-- A write of the host cap is held to 1,500 W to 3,000 W. -/
theorem controlsOk_pwrCap {s : State} (hs : controlsOk s = true) (n : Nat) :
    controlsOk (updMgmt s fun m => { m with pwrCap := clampCap n }) = true := by
  obtain ⟨h1, h2, -, -⟩ := powerOk_ranges hs
  exact controlsOk_updMgmt hs ⟨h1, h2⟩ (by simp only [clampCap]; omega)

/-- A partition after a change of one of them. -/
theorem partAt_updPart_of_lt (s : State) (p : Nat) (f : Part → Part) {q : Nat} (hq : q < 8) :
    partAt (updPart s p f) q = if q = p then f (partAt s q) else partAt s q := by
  split
  · next e => subst e; exact partAt_updPart s q f hq
  · next e => exact partAt_updPart_ne s f (Ne.symm e)

/-- A margin that stays in its range. -/
theorem controlsOk_updPart_gap {s : State} (hs : controlsOk s = true) (p : Nat) {f : Part → Part}
    (hc : ∀ x, (f x).clus = x.clus) (hg : ∀ x, 1 ≤ (f x).gap ∧ (f x).gap ≤ 63) : controlsOk (updPart s p f) = true := by
  obtain ⟨hd, hr, hp⟩ := (controlsOk_iff s).mp hs
  refine (controlsOk_iff _).mpr ⟨?_, (gapsOk_iff _).mpr fun q hq => ?_, hp⟩
  · have clus (q : Nat) (hq : q < 8) : (partAt (updPart s p f) q).clus = (partAt s q).clus := by
      rw [partAt_updPart_of_lt s p f hq]
      split <;> simp [hc]
    refine (clustersDisjoint_iff _).mpr fun q hq r hr hne => ?_
    rw [clus q hq, clus r hr]
    exact (clustersDisjoint_iff s).mp hd q hq r hr hne
  · rw [partAt_updPart_of_lt s p f hq]
    split
    · exact hg _
    · exact (gapsOk_iff s).mp hr q hq

/-- The margin that MG_PREEMPT_CTLp takes lies in its range. -/
theorem controlsOk_storePreempt {s : State} (hs : controlsOk s = true) (p : Nat) (v : DWord) :
    controlsOk (storePreempt s p v) = true := by
  have hf : fieldOf v 21 16 < 2 ^ (21 + 1 - 16) := Nat.mod_lt _ (by decide)
  exact controlsOk_updPart_gap hs p (fun _ => rfl) fun _ => ⟨by simp, by simp only; omega⟩

theorem controlsOk_writePreempt {s : State} (hs : controlsOk s = true) (p : Nat) (v : DWord) :
    controlsOk (writePreempt s p v) = true :=
  controlsOk_of_controls_eq (by simp [writePreempt]) (controlsOk_storePreempt hs p v)

/-- A write of the clusters that is not refused names none of another partition. -/
theorem disjoint_of_not_clusRefused {s : State} {p : Nat} {w : Word} (h : ¬ clusRefused s p w = true) {q : Nat} (hq : q < 8)
    (hne : q ≠ p) : (partAt s q).clus &&& w = 0 := by
  have h1 : (List.range 8).any (fun q => q != p && (partAt s q).clus &&& w != 0) = false := by
    simp only [clusRefused, Bool.or_eq_true, not_or, Bool.not_eq_true] at h
    exact h.1
  simpa [hne] using List.any_eq_false.mp h1 q (List.mem_range.mpr hq)

theorem controlsOk_writeClus {s : State} (hs : controlsOk s = true) (p : Nat) (v : DWord) :
    controlsOk (writeClus s p v) = true := by
  unfold writeClus
  split
  · exact hs
  next hr =>
  obtain ⟨hd, hg, hp⟩ := (controlsOk_iff s).mp hs
  refine (controlsOk_iff _).mpr ⟨(clustersDisjoint_iff _).mpr fun q hq r hr' hne => ?_, (gapsOk_iff _).mpr fun q hq => ?_, hp⟩
  · rw [partAt_updPart_of_lt s p _ hq, partAt_updPart_of_lt s p _ hr']
    split
    · next e =>
      subst e
      rw [if_neg (Ne.symm hne), BitVec.and_comm]
      exact disjoint_of_not_clusRefused hr hr' (Ne.symm hne)
    · next e =>
      split
      · exact disjoint_of_not_clusRefused hr hq e
      · exact (clustersDisjoint_iff s).mp hd q hq r hr' hne
  · rw [partAt_updPart_of_lt s p _ hq]
    split <;> exact (gapsOk_iff s).mp hg q hq

theorem controlsOk_writeReg {s : State} (hs : controlsOk s = true) (p : Port) (v : DWord) (r : RegId) :
    controlsOk (writeReg s p v r) = true := by
  cases r with
  | pwrCap => exact controlsOk_pwrCap hs _
  | partClus n => exact controlsOk_writeClus hs n v
  | preemptCtl n => exact controlsOk_writePreempt hs n v
  | saveBase n => exact controlsOk_of_controls_eq (controls_updPart s n fun _ => ⟨rfl, rfl⟩) hs
  | _ => exact controlsOk_of_controls_eq (by simp [writeReg]) hs

theorem controlsOk_writeHalf {s : State} (hs : controlsOk s = true) (p : Port) (r : RegId) (high : Bool) (v : DWord) :
    controlsOk (writeHalf s p r high v) = true := by
  unfold writeHalf
  split
  · exact controlsOk_storePreempt hs _ _
  · exact controlsOk_writeReg hs ..

theorem controlsOk_writeBar0 {s : State} (hs : controlsOk s = true) (p : Port) (off : Nat) (size : AccSize) (v : DWord) :
    controlsOk (writeBar0 s p off size v) = true := by
  unfold writeBar0
  split
  · exact hs
  · split
    · exact hs
    · split
      · split
        · exact controlsOk_writeReg hs ..
        · exact hs
      · split
        · exact controlsOk_writeHalf hs ..
        · exact hs
      · exact hs

/-! ## Power control -/

/-- A step down ends at 625 MHz. -/
theorem powerTick_controls (w : Nat) (m : Mgmt) (h : 10 ≤ m.aclk ∧ m.aclk ≤ 20) :
    (10 ≤ (powerTick w m).aclk ∧ (powerTick w m).aclk ≤ 20) ∧ (powerTick w m).pwrCap = m.pwrCap := by
  refine ⟨?_, rfl⟩
  simp only [powerTick]
  split <;> omega

/-- A step up ends at 1.25 GHz. -/
theorem raiseTick_controls (m : Mgmt) (h : 10 ≤ m.aclk ∧ m.aclk ≤ 20) :
    (10 ≤ (raiseTick m).aclk ∧ (raiseTick m).aclk ≤ 20) ∧ (raiseTick m).pwrCap = m.pwrCap := by
  unfold raiseTick
  split
  · next e =>
    simp only [Bool.and_eq_true, decide_eq_true_eq] at e
    exact ⟨⟨by simp only; omega, by simp only; omega⟩, rfl⟩
  · exact ⟨h, rfl⟩

/-! ## Steps -/

/-- The next state of an outcome, if there is one, meets the ranges. -/
def outcomeOk : Host.Outcome State Fault Refusal → Prop
  | .next t => controlsOk t = true
  | _ => True

theorem outcomeOk_next (t : State) : outcomeOk (.next t) ↔ controlsOk t = true := Iff.rfl

theorem outcomeOk_of_keeps {s : State} (hs : controlsOk s = true) {o : Host.Outcome State Fault Refusal}
    (h : outcomeKeeps (controls s) o) : outcomeOk o := by
  cases o with
  | next t => exact controlsOk_of_controls_eq h hs
  | _ => trivial

theorem outcomeOk_ite {p : Prop} [Decidable p] {a b : Host.Outcome State Fault Refusal} (ha : outcomeOk a)
    (hb : outcomeOk b) : outcomeOk (if p then a else b) := by
  split <;> assumption

theorem regWrite_ok {s : State} (hs : controlsOk s = true) (p : Port) {f : State → State} (h : controlsOk (f s) = true) :
    outcomeOk (regWrite s p f) :=
  outcomeOk_ite ((outcomeOk_next _).mpr (by split <;> assumption)) trivial

theorem anyWrite_ok {s : State} (hs : controlsOk s = true) {f : State → State} (h : controlsOk (f s) = true) :
    outcomeOk (anyWrite s f) :=
  outcomeOk_ite ((outcomeOk_next _).mpr (by split <;> assumption)) trivial

theorem execPowerSample_ok {s : State} (hs : controlsOk s = true) : outcomeOk (execPowerSample s) := by
  obtain ⟨h1, h2, h3⟩ := powerOk_ranges hs
  obtain ⟨ha, hc⟩ := powerTick_controls s.sensors.watts s.mgmt ⟨h1, h2⟩
  exact outcomeOk_ite (controlsOk_updMgmt hs ha (by rw [hc]; exact h3)) trivial

theorem execAclkRaiseTick_ok {s : State} (hs : controlsOk s = true) : outcomeOk (execAclkRaiseTick s) := by
  obtain ⟨h1, h2, h3⟩ := powerOk_ranges hs
  obtain ⟨ha, hc⟩ := raiseTick_controls s.mgmt ⟨h1, h2⟩
  exact outcomeOk_ite (controlsOk_updMgmt hs ha (by simpa only [hc] using h3)) trivial

/-- A trip ends in a cold reset; without one only the band changes. -/
theorem execThermalSample_ok {s : State} (hs : controlsOk s = true) : outcomeOk (execThermalSample s) := by
  refine outcomeOk_ite ((outcomeOk_next _).mpr ?_) trivial
  split
  · exact controlsOk_of_controls_eq (controls_thermalTrip _) controlsOk_reset
  · exact controlsOk_of_controls_eq (by simp) hs

theorem execMgPwrCapWrite_ok {s : State} (hs : controlsOk s = true) (p : Port) (v : DWord) :
    outcomeOk (execMgPwrCapWrite p v s) :=
  regWrite_ok hs p (controlsOk_pwrCap hs _)

theorem execRegisterWrite_ok {s : State} (hs : controlsOk s = true) (p : Port) (off : Nat) (size : AccSize) (v : DWord) :
    outcomeOk (execRegisterWrite p off size v s) :=
  outcomeOk_ite trivial (outcomeOk_ite (controlsOk_writeBar0 hs ..) trivial)

theorem execMgPartClusWrite_ok {s : State} (hs : controlsOk s = true) (part : BitVec 3) (v : DWord) :
    outcomeOk (execMgPartClusWrite part v s) :=
  anyWrite_ok hs (controlsOk_writeClus hs ..)

theorem execPreemptHalt_ok {s : State} (hs : controlsOk s = true) (part : BitVec 3) (v : DWord) :
    outcomeOk (execPreemptHalt part v s) :=
  outcomeOk_ite (anyWrite_ok hs (controlsOk_writePreempt hs ..)) trivial

theorem execPreemptResume_ok {s : State} (hs : controlsOk s = true) (part : BitVec 3) (v : DWord) :
    outcomeOk (execPreemptResume part v s) :=
  outcomeOk_ite trivial (anyWrite_ok hs (controlsOk_writePreempt hs ..))

theorem execColdReset_ok (s : State) : outcomeOk (execColdReset s) :=
  (outcomeOk_next _).mpr (controlsOk_of_controls_eq (controls_coldReset s) controlsOk_reset)

theorem exec_ok {s : State} (hs : controlsOk s = true) (i : Instr) : outcomeOk (exec i s) := by
  cases h : setsControls i with
  | false => exact outcomeOk_of_keeps hs (exec_keeps h s)
  | true =>
    cases i with
    | mgPwrCapWrite p v => exact execMgPwrCapWrite_ok hs p v
    | registerWrite p off size v => exact execRegisterWrite_ok hs p off size v
    | mgPartClusWrite part v => exact execMgPartClusWrite_ok hs part v
    | preemptHalt part v => exact execPreemptHalt_ok hs part v
    | preemptResume part v => exact execPreemptResume_ok hs part v
    | coldReset => exact execColdReset_ok s
    | powerSample => exact execPowerSample_ok hs
    | aclkRaiseTick => exact execAclkRaiseTick_ok hs
    | thermalSample => exact execThermalSample_ok hs
    | _ => cases h

theorem act_ok {s : State} (hs : controlsOk s = true) (c : Choice) : outcomeOk (act c s) := by
  have keeps {o : Host.Outcome State Fault Refusal} (h : outcomeKeeps (controls s) o) : outcomeOk o :=
    outcomeOk_of_keeps hs h
  cases c with
  | ev i => exact exec_ok hs i
  | issue core =>
    show outcomeOk (issueNext core s)
    unfold issueNext
    split
    · refine exec_ok (controlsOk_of_controls_eq ?_ hs) _
      rfl
    · trivial
  | tick => exact keeps (outcomeKeeps_ite (by simp) trivial)
  | sense x => exact keeps rfl
  | flash f => exact keeps rfl
  | hostStore a bytes => exact keeps (by simp [act])
  | deliver p => exact keeps (outcomeKeeps_outcomeOf (deliverOne_keeps s p))
  | upset stack off m => exact keeps (outcomeKeeps_outcomeOf (upsetGranule_keeps s stack off m))
  | spRead cmd line => exact keeps (outcomeKeeps_outcomeOf (spReadNow_keeps s cmd line))
  | spWrite cmd line => exact keeps (outcomeKeeps_outcomeOf (spWriteNow_keeps s cmd line))
  | service => exact keeps (by simp [act])

theorem perform_ok {s : State} (hs : controlsOk s = true) (c : Choice) : outcomeOk (perform c s) := by
  have h := act_ok hs c
  unfold perform noting
  split
  · next t e => exact controlsOk_of_controls_eq (by simp) (show controlsOk t = true by simpa [e, outcomeOk] using h)
  · next e => simpa [e] using h

theorem controlsOk_enabledNext {s t : State} (hs : controlsOk s = true) {c : Choice} (h : enabledNext s c = some t) :
    controlsOk t = true := by
  have hp := perform_ok hs c
  unfold enabledNext at h
  split at h
  · next e =>
    cases h
    rwa [e] at hp
  · cases h

theorem controlsOk_auto {s : State} (hs : controlsOk s = true) : controlsOk (auto s) = true := by
  unfold auto
  cases h : (defaultChoices s).findSome? (enabledNext s) with
  | none => exact controlsOk_of_controls_eq (controls_tickAll s) hs
  | some t =>
    obtain ⟨c, -, hc⟩ := List.exists_of_findSome?_eq_some h
    exact controlsOk_enabledNext hs hc

theorem step_ok {s : State} (hs : controlsOk s = true) : outcomeOk (step s) := by
  unfold step
  split
  · refine perform_ok (controlsOk_of_controls_eq ?_ hs) _
    rfl
  · exact controlsOk_auto hs

/-- Settles O56: what the ranges speak of is kept by every row but nine, and those write values inside the ranges. -/
theorem controlsKept : Obligations.ControlsKept := by
  intro s t hs h
  have := step_ok hs
  rwa [h] at this

end Sys2Proof.Machine
end

section
/-! CLAIM. Writes of the registers that have an event of their own (O44). -/

namespace Sys2Proof.Machine

open Sys2Proof

/-! ## Fields of a written value -/

theorem fieldOf_low (v : DWord) (hi : Nat) : fieldOf v hi 0 = v.toNat % 2 ^ (hi + 1) := by
  simp [fieldOf]

theorem fieldOf_high (v : DWord) {lo : Nat} (h : lo ≤ 64) : fieldOf v 63 lo = v.toNat / 2 ^ lo := by
  refine Nat.mod_eq_of_lt (Nat.div_lt_of_lt_mul ?_)
  rw [← pow_add, Nat.add_sub_cancel' h]
  exact v.isLt

/-! ## Writes of registers, outside a device reset and during one (05 R96) -/

section
variable {s : State} {p : Port} (hp : portServes s p = true)
include hp

theorem portServes_any : (portServes s .a || portServes s .b) = true := by
  cases p <;> simp [hp]

theorem regWrite_eq (hr : s.mgmt.resetDone = true) (f : State → State) : regWrite s p f = .next (f s) := by
  simp [regWrite, hp, hr]

theorem anyWrite_eq (hr : s.mgmt.resetDone = true) (f : State → State) : anyWrite s f = .next (f s) := by
  rw [anyWrite, if_pos (portServes_any hp), if_pos hr]

theorem regWrite_ignored (hr : s.mgmt.resetDone = false) (f : State → State) : regWrite s p f = .next s := by
  simp [regWrite, hp, hr]

theorem anyWrite_ignored (hr : s.mgmt.resetDone = false) (f : State → State) : anyWrite s f = .next s := by
  rw [anyWrite, if_pos (portServes_any hp), if_neg (by simp [hr])]

theorem execGusDeclareWrite_eq (hr : s.mgmt.resetDone = true) (ha : hostWriteAhead s p = false) (v : DWord) :
    execGusDeclareWrite p v s = .next
      (if v.toNat / 2 ^ 16 = 0 ∧ v.toNat / 2 ^ 8 % 2 ^ 8 = 0xA5 ∧ v.toNat / 2 ^ 4 % 2 ^ 4 = 0
        then declareLoss s (v.toNat % 2 ^ 4) 3 else s) := by
  rw [execGusDeclareWrite, if_neg (by simp [ha]), regWrite_eq hp hr, fieldOf_high v (by decide), fieldOf_low]
  rfl

theorem execXlTimeoutWrite_eq (hr : s.mgmt.resetDone = true) (v : DWord) : execXlTimeoutWrite p v s =
    .next { s with links := { s.links with timeout := max 1 (v.toNat % 2 ^ 16) } } := by
  rw [execXlTimeoutWrite, regWrite_eq hp hr, writeXlTimeout, fieldOf_low]

theorem execMgPwrCapWrite_eq (hr : s.mgmt.resetDone = true) (v : DWord) : execMgPwrCapWrite p v s =
    .next { s with mgmt := { s.mgmt with pwrCap := min 3000 (max 1500 (v.toNat % 2 ^ 12)) } } := by
  rw [execMgPwrCapWrite, regWrite_eq hp hr, updMgmt, clampCap, fieldOf_low]

theorem execMgG4ClearWrite_eq (hr : s.mgmt.resetDone = true) (v : DWord) : execMgG4ClearWrite p v s = .next
    (if v = 0xA5 ∧ s.mgmt.g4Served = true then { s with mgmt := { s.mgmt with g4 := none, g4Served := false } } else s) := by
  rw [execMgG4ClearWrite, regWrite_eq hp hr]
  simp [writeG4Clear, updMgmt]

theorem execAttestationStart_eq (hr : s.mgmt.resetDone = true) (v : DWord) : execAttestationStart p v s = .next
    (if v.getLsbD 0 = true ∧ s.mgmt.attBusy = false then
      { s with mgmt := { s.mgmt with attBusy := true, attUsed := nonceBytes s.mgmt } } else s) := by
  rw [execAttestationStart, regWrite_eq hp hr]
  simp [writeAttCtl, updMgmt]

theorem execSemRelease_eq (hr : s.mgmt.resetDone = true) (n : BitVec 5) (v : DWord) : execSemRelease p n v s = .next
    (if v.getLsbD 0 = true ∧ semOwner s n.toNat = ownerCode p then { s with sems := vset s.sems n.toNat 0 } else s) := by
  rw [execSemRelease, regWrite_eq hp hr]
  simp

theorem execHqEnable_eq (hr : s.mgmt.resetDone = true) (q : BitVec 8) {v : DWord} (hv : v.getLsbD 24 = true)
    (hq : (queueAt s q.toNat).enable = false) : execHqEnable q v s = .next (writeCtl s q.toNat v) := by
  rw [execHqEnable, if_pos (by simp [ctlEnable, hv, hq]), anyWrite_eq hp hr]

theorem execHqDisable_eq (hr : s.mgmt.resetDone = true) (q : BitVec 8) {v : DWord} (hv : v.getLsbD 24 = false)
    (hq : (queueAt s q.toNat).enable = true) : execHqDisable q v s = .next (writeCtl s q.toNat v) := by
  rw [execHqDisable, if_pos (by rw [ctlEnable, hv, hq]; rfl), anyWrite_eq hp hr]

theorem execHqStop_eq (hr : s.mgmt.resetDone = true) (q : BitVec 8) {v : DWord} (hv : v.getLsbD 30 = true) :
    execHqStop q v s = .next (writeCtl s q.toNat v) := by
  rw [execHqStop, if_pos (by simp [ctlStop, hv]), anyWrite_eq hp hr]

theorem execHqRecover_eq (hr : s.mgmt.resetDone = true) (q : BitVec 8) {v : DWord} (hv : v.getLsbD 31 = true) :
    execHqRecover q v s = .next (writeCtl s q.toNat v) := by
  rw [execHqRecover, if_pos (by simp [ctlRecover, hv]), anyWrite_eq hp hr]

theorem execPreemptHalt_eq (hr : s.mgmt.resetDone = true) (part : BitVec 3) {v : DWord} (hv : v.getLsbD 32 = true) :
    execPreemptHalt part v s = .next (writePreempt s part.toNat v) := by
  rw [execPreemptHalt, if_pos hv, anyWrite_eq hp hr]

theorem execPreemptResume_eq (hr : s.mgmt.resetDone = true) (part : BitVec 3) {v : DWord} (hv : v.getLsbD 32 = false) :
    execPreemptResume part v s = .next (writePreempt s part.toNat v) := by
  rw [execPreemptResume, if_neg (by rw [hv]; decide), anyWrite_eq hp hr]

theorem execGusDeclareWrite_ignored (hr : s.mgmt.resetDone = false) (ha : hostWriteAhead s p = false) (v : DWord) :
    execGusDeclareWrite p v s = .next s := by
  rw [execGusDeclareWrite, if_neg (by simp [ha]), regWrite_ignored hp hr]

end

/-- Settles O44: each write is a register write through a port that serves, with its conditions met; a device reset ignores
it. -/
theorem hostWrites : Obligations.HostWrites := by
  intro p v q n part gc xc s hp
  refine ⟨fun hr => ?_, fun hr => ⟨fun ha => execGusDeclareWrite_ignored hp hr ha v, ?_⟩⟩
  · have reg := regWrite_eq hp hr
    have any := anyWrite_eq hp hr
    exact ⟨fun ha => execGusDeclareWrite_eq hp hr ha v, (reg _ : execGusXpoolWrite p v s = _),
      (any _ : execGusCounterClear gc s = _), (any _ : execXlCounterClear xc s = _), (reg _ : execXlCfgWrite p v s = _),
      execXlTimeoutWrite_eq hp hr v, (reg _ : execHqFqRespWrite p v s = _), (reg _ : execHqInvalWrite p v s = _),
      (any _ : execHqTailWrite q v s = _), fun hv hq => execHqEnable_eq hp hr q hv hq,
      fun hv hq => execHqDisable_eq hp hr q hv hq, fun hv => execHqStop_eq hp hr q hv,
      fun hv => execHqRecover_eq hp hr q hv, execMgPwrCapWrite_eq hp hr v, (any _ : execDrainSet part s = _),
      (any _ : execDrainClear part s = _), (any _ : execMgPartClusWrite part v s = _),
      fun hv => execPreemptHalt_eq hp hr part hv, fun hv => execPreemptResume_eq hp hr part hv,
      (any clearLost : execMgFrLostClear s = _), execMgG4ClearWrite_eq hp hr v, execAttestationStart_eq hp hr v,
      execSemRelease_eq hp hr n v⟩
  · have reg := regWrite_ignored hp hr
    have any := anyWrite_ignored hp hr
    simp only [List.forall_mem_cons]
    exact ⟨(reg _ : execGusXpoolWrite p v s = _), (any _ : execGusCounterClear gc s = _),
      (any _ : execXlCounterClear xc s = _), (reg _ : execXlCfgWrite p v s = _), (reg _ : execXlTimeoutWrite p v s = _),
      (reg _ : execHqFqRespWrite p v s = _), (reg _ : execHqInvalWrite p v s = _), (any _ : execHqTailWrite q v s = _),
      (reg _ : execMgPwrCapWrite p v s = _), (any _ : execDrainSet part s = _), (any _ : execDrainClear part s = _),
      (any _ : execMgPartClusWrite part v s = _), (any clearLost : execMgFrLostClear s = _),
      (reg _ : execMgG4ClearWrite p v s = _), (reg _ : execAttestationStart p v s = _),
      (reg _ : execSemRelease p n v s = _), fun _ h => nomatch h⟩

end Sys2Proof.Machine
end

section
/-! CLAIM. Host accesses, semaphores and the resets of a port (O45). -/

namespace Sys2Proof.Machine

open Sys2Proof

/-! ## The link of a port (01 R17, R19) -/

theorem execHostLinkDown_eq {s : State} {p : Port} (h : portUp s p = true) : execHostLinkDown p s = .next (resetPort s p) := by
  rw [execHostLinkDown, if_pos h]

theorem execHostPortLinkUp_eq {s : State} {p : Port} (h : portServes s p = false) : execHostPortLinkUp p s = .next
    (let u := { s with links := { s.links with hostUp := vset s.links.hostUp (portNo p) true },
                       mgmt := { s.mgmt with inReset := vset s.mgmt.inReset (portNo p) false } }
     if u.mgmt.resetWanted = true ∧ anyInReset u = false then deviceReset u else u) := by
  rw [execHostPortLinkUp, if_neg (by rw [h]; decide)]
  simp only [Bool.and_eq_true, Bool.not_eq_true']

/-! ## Accesses through a port that serves -/

section
variable {s : State} {p : Port} (hp : portServes s p = true)
include hp

theorem execRegisterWrite_eq {off : Nat} (h : regAt (off / 8 * 8) = some .gusDeclare → hostWriteAhead s p = false)
    (size : AccSize) (v : DWord) : execRegisterWrite p off size v s = .next (writeBar0 s p off size v) := by
  have hn : ¬ (regAt (off / 8 * 8) == some .gusDeclare && hostWriteAhead s p) = true := by
    simp only [Bool.and_eq_true, beq_iff_eq, not_and, Bool.not_eq_true]
    exact h
  rw [execRegisterWrite, if_neg hn, if_pos hp]

theorem execSemAcquire_free (hr : s.mgmt.resetDone = true) {n : BitVec 5} (hf : semOwner s n.toNat = 0)
    (half : Option Bool) : execSemAcquire p ⟨n, half⟩ s = .next
      { s with sems := vset s.sems n.toNat (ownerCode p),
               reply := some ⟨p, false, false, readBytes half (4 + (ownerCode p).toNat)⟩ } := by
  simp [execSemAcquire, hp, hr, hf]

theorem execSemAcquire_owned (hr : s.mgmt.resetDone = true) {n : BitVec 5} (hf : semOwner s n.toNat ≠ 0)
    (half : Option Bool) : execSemAcquire p ⟨n, half⟩ s = .next
      { s with reply := some ⟨p, false, false, readBytes half (semOwner s n.toNat).toNat⟩ } := by
  simp only [execSemAcquire, hp, hr, if_neg hf]
  rfl

/-- An access inside the window and of a length that BAR2 takes. -/
theorem bar2_guard {off len max : Nat} (hw : off + len ≤ bar2Bytes) (h1 : 1 ≤ len) (h2 : len ≤ max) :
    ¬ (!portServes s p || decide (bar2Bytes < off + len ∨ len < 1 ∨ max < len)) = true := by
  rw [hp]
  simp only [Bool.not_true, Bool.false_or, decide_eq_true_eq]
  omega

section
variable {off len : Nat} (hw : off + len ≤ bar2Bytes) (h1 : 1 ≤ len)
include hw h1

theorem execBar2Read_abort (h2 : len ≤ 4096) (h : localBytes < s.links.bar2Base + off + len) :
    execBar2Read p off len s = .next { s with reply := some ⟨p, true, false, []⟩ } := by
  rw [execBar2Read, if_neg (bar2_guard hp hw h1 h2), if_pos h]

theorem execBar2Read_eq (h2 : len ≤ 4096) (h : s.links.bar2Base + off + len ≤ localBytes) {bad : Bool} {bs : List Byte}
    {s1 : State} (hg : hostGranules s (granulesOf (s.links.bar2Base + off) len) = some (bad, bs, s1)) :
    execBar2Read p off len s = .next
      { s1 with reply := some ⟨p, false, bad, (bs.drop ((s.links.bar2Base + off) % 64)).take len⟩ } := by
  rw [execBar2Read, if_neg (bar2_guard hp hw h1 h2), if_neg (Nat.not_lt.mpr h), hg]

end

theorem execBar2Write_eq {off : Nat} {bytes : List Byte} (hw : off + bytes.length ≤ bar2Bytes) (h1 : 1 ≤ bytes.length)
    (h2 : bytes.length ≤ 512) : execBar2Write p off bytes s = .next
      (if localBytes < s.links.bar2Base + off + bytes.length then s
        else newCmd s (.bar2 p) noCore .copy (.store (s.links.bar2Base + off) bytes) 0 id) := by
  rw [execBar2Write, if_neg (bar2_guard hp hw h1 h2)]
  split <;> rfl

end

/-! ## Offsets without a register, and halves of one (03 R49) -/

theorem bar0_of_regAt_none {off : Nat} (h : regAt off = none) (h8 : off % 8 = 0) (s : State) (p : Port) (v : DWord) :
    writeBar0 s p off .eight v = s ∧ readBar0 s off .eight = 0 := by
  have e : off / 8 * 8 = off := Nat.div_mul_cancel (Nat.dvd_of_mod_eq_zero h8)
  constructor
  · rw [writeBar0, e, h]
  · simp [readBar0, e, h]

/-- The low half written to a register that only stores a value. -/
theorem halfValue_low_bar2Base {s : State} (hr : s.mgmt.resetDone = true) (v : DWord) :
    halfValue s .bar2Base false v = BitVec.ofNat 64 (s.links.bar2Base / 2 ^ 32 * 2 ^ 32 + v.toNat % 2 ^ 32) := by
  simp [halfValue, actsWhole, readReg, regValue, hr]

theorem fieldOf_ofNat (n : Nat) : fieldOf (BitVec.ofNat 64 n) 40 16 = n / 2 ^ 16 % 2 ^ 25 := by
  simp only [fieldOf, BitVec.toNat_ofNat]
  omega

theorem writeBar0_bar2Base_low {s : State} (hr : s.mgmt.resetDone = true) (p : Port) (v : DWord) :
    writeBar0 s p 0x400018 .four v = { s with links := { s.links with
      bar2Base := (s.links.bar2Base / 2 ^ 32 * 2 ^ 32 + v.toNat % 2 ^ 32) / 2 ^ 16 % 2 ^ 25 * 2 ^ 16 } } := by
  have e : regAt (0x400018 / 8 * 8) = some .bar2Base := by decide
  rw [writeBar0, e]
  show (if _ then s else if _ then writeReg s p (halfValue s .bar2Base false v) .bar2Base else s) = _
  rw [if_neg (by rw [hr]; decide), if_pos (by decide), halfValue_low_bar2Base hr, writeReg, fieldOf_ofNat]

/-- Settles O45: the equations of the host's accesses, of a port's resets and of BAR0's halves. -/
theorem hostPorts : Obligations.HostPorts := by
  intro p n half off len size bytes v s
  refine ⟨rfl, execHostLinkDown_eq, execHostPortLinkUp_eq, fun hp => ⟨fun h => execRegisterWrite_eq hp h size v,
    fun hr hf => execSemAcquire_free hp hr hf half, fun hr hf => execSemAcquire_owned hp hr hf half,
    fun hw h1 h2 => ⟨execBar2Read_abort hp hw h1 h2, fun _ _ _ h hg => execBar2Read_eq hp hw h1 h2 h hg⟩,
    execBar2Write_eq hp⟩, fun h h8 => bar0_of_regAt_none h h8 s p v, fun hr => writeBar0_bar2Base_low hr p v⟩

end Sys2Proof.Machine
end

section
/-! CLAIM. Samples, resets, records, attestation and the loss of stacks, each when it is due (O50). -/

namespace Sys2Proof.Machine

open Sys2Proof

/-! ## Samples (01 R13, R15, 05 R90) -/

theorem tenMs_eq : 10 * msFs = 10 ^ 13 := by decide

theorem execPowerSample_eq {s : State} (h : s.mgmt.lastPower + 10 ^ 12 ≤ s.fs) : execPowerSample s =
    .next { s with mgmt := { powerTick s.sensors.watts s.mgmt with lastPower := s.fs } } :=
  if_pos h

theorem execAclkRaiseTick_eq {s : State} (h : s.mgmt.lastRaise + 10 ^ 13 ≤ s.fs) : execAclkRaiseTick s =
    .next { s with mgmt := { s.mgmt with
      aclk := if underCap s.mgmt = true ∧ s.mgmt.held = false ∧ s.mgmt.aclk < 20 then s.mgmt.aclk + 1 else s.mgmt.aclk,
      floorMs := if underCap s.mgmt = true ∧ s.mgmt.held = false ∧ s.mgmt.aclk < 20 then 0 else s.mgmt.floorMs,
      lastRaise := s.fs } } := by
  have hc : (underCap s.mgmt && !s.mgmt.held && decide (s.mgmt.aclk < 20)) = true ↔
      underCap s.mgmt = true ∧ s.mgmt.held = false ∧ s.mgmt.aclk < 20 := by
    simp [and_assoc]
  rw [execAclkRaiseTick, tenMs_eq, if_pos h, updMgmt, raiseTick]
  by_cases hr : underCap s.mgmt = true ∧ s.mgmt.held = false ∧ s.mgmt.aclk < 20
  · simp only [if_pos (hc.mpr hr), if_pos hr]
  · simp only [if_neg (mt hc.mp hr), if_neg hr]

theorem atFloor_iff (m : Mgmt) :
    atFloor m = true ↔ m.held = false ∧ m.aclk = 10 ∧ overCap m = true ∧ 100 ≤ m.floorMs := by
  simp [atFloor, and_assoc]

theorem execAclkFloorTimeout_eq {s : State} (hh : s.mgmt.held = false) (ha : s.mgmt.aclk = 10)
    (ho : overCap s.mgmt = true) (hf : 100 ≤ s.mgmt.floorMs) : execAclkFloorTimeout s =
      .next (addRecord { s with mgmt := { s.mgmt with held := true } } (blankRecord 1 4 0)) :=
  if_pos ((atFloor_iff _).mpr ⟨hh, ha, ho, hf⟩)

theorem execAclkFloorTimeout_notEnabled {s : State}
    (h : s.mgmt.held = true ∨ s.mgmt.aclk ≠ 10 ∨ overCap s.mgmt = false ∨ s.mgmt.floorMs < 100) :
    execAclkFloorTimeout s = .fault .notEnabled := by
  refine if_neg fun hf => ?_
  obtain ⟨hh, ha, ho, hm⟩ := (atFloor_iff _).mp hf
  rcases h with h | h | h | h
  · simp [hh] at h
  · exact h ha
  · simp [ho] at h
  · omega

theorem execThermalSample_cool {s : State} (h : s.mgmt.lastThermal + 10 ^ 12 ≤ s.fs)
    (ht : trips s.mgmt.temps s.sensors.temps = false) : execThermalSample s =
      .next (enterBand { s with mgmt := { s.mgmt with lastThermal := s.fs, temps := s.sensors.temps } }
        (bandOf s.sensors.temps)) :=
  (if_pos h).trans (congrArg _ (if_neg (by simp [ht])))

theorem execThermalSample_trips {s : State} (h : s.mgmt.lastThermal + 10 ^ 12 ≤ s.fs)
    (ht : trips s.mgmt.temps s.sensors.temps = true) : execThermalSample s =
      .next (thermalTrip { s with mgmt := { s.mgmt with lastThermal := s.fs, temps := s.sensors.temps } }) :=
  (if_pos h).trans (congrArg _ (if_pos ht))

theorem execHealthRefresh_even {s : State} (hg : s.mgmt.gen % 2 = 0) (h : s.mgmt.lastHealth + 10 ^ 13 ≤ s.fs) :
    execHealthRefresh s = .next { s with mgmt := { s.mgmt with gen := s.mgmt.gen + 1, lastHealth := s.fs } } := by
  rw [execHealthRefresh, if_neg (by omega), tenMs_eq, if_pos h, updMgmt]

theorem execHealthRefresh_odd {s : State} (hg : s.mgmt.gen % 2 = 1) : execHealthRefresh s =
    .next { s with mgmt := { s.mgmt with gen := (s.mgmt.gen + 1) % 2 ^ 64, health := healthPage s } } :=
  if_pos hg

/-! ## The device reset (01 R19, 05 R96) -/

section
variable {s : State} {p : Port} (hp : portServes s p = true)
include hp

theorem execDeviceResetRequest_eq : execDeviceResetRequest p s = .next (requestReset s) := if_pos hp

theorem execDeviceResetRequest_performed (hr : s.mgmt.resetDone = true) (ha : anyInReset s = false) :
    execDeviceResetRequest p s = .next (deviceReset s) := by
  simp [execDeviceResetRequest_eq hp, requestReset, hr, ha]

theorem execDeviceResetRequest_waits (hr : s.mgmt.resetDone = true) (ha : anyInReset s = true) :
    execDeviceResetRequest p s = .next { s with mgmt := { s.mgmt with resetDone := false, resetWanted := true } } := by
  simp [execDeviceResetRequest_eq hp, requestReset, hr, ha, updMgmt]

theorem execDeviceResetRequest_merged (hr : s.mgmt.resetDone = false) : execDeviceResetRequest p s = .next s := by
  simp [execDeviceResetRequest_eq hp, requestReset, hr]

end

theorem execDeviceResetDone_eq {s : State} (hd : s.mgmt.resetDone = false) (hw : s.mgmt.resetWanted = false)
    (ht : s.mgmt.resetAt + sclkFs < s.fs) (hh : hostWaits s = false) :
    execDeviceResetDone s = .next { s with mgmt := { s.mgmt with resetDone := true } } :=
  if_pos (by simp [resetOver, hd, hw, ht, hh])

/-- A request within the period of SCLK that follows the reset is merged with it (01 R19). -/
theorem execDeviceResetDone_notEnabled {s : State} (h : s.fs ≤ s.mgmt.resetAt + sclkFs) :
    execDeviceResetDone s = .fault .notEnabled :=
  if_neg (by simp [resetOver, Nat.not_lt.mpr h])

/-! ## The cold reset (01 R17, R385, 05 R97) -/

/-- A record that finds no ring changes the management controller alone. -/
theorem addRecord_noRing {s : State} {r : FaultRec} (hc : namesCluster r = false) (hw : s.mgmt.frWritten = false) :
    ∃ m, addRecord s r = { s with mgmt := m } ∧ m.fwMinimum = s.mgmt.fwMinimum := by
  have hf : fenceFor s r = s := by simp [fenceFor, hc]
  have hl : ∃ m, latchG4 s r.grade (recordBytes s r) = { s with mgmt := m } ∧ m.frWritten = false ∧
      m.fwMinimum = s.mgmt.fwMinimum := by
    unfold latchG4
    split
    · exact ⟨_, rfl, hw, rfl⟩
    · exact ⟨_, rfl, hw, rfl⟩
  obtain ⟨m, hm, hmw, hmf⟩ := hl
  rw [addRecord, hf, hm, if_neg (by simp [frRoom, hmw])]
  split
  · exact ⟨_, rfl, hmf⟩
  · split
    · exact ⟨_, rfl, hmf⟩
    · exact ⟨_, rfl, hmf⟩

/-- Firmware is loaded into the management controller, and the fused minimum does not fall. -/
theorem firmwareBoot_mgmt {s : State} (hw : s.mgmt.frWritten = false) :
    ∃ m, firmwareBoot s = { s with mgmt := m } ∧ s.mgmt.fwMinimum ≤ m.fwMinimum := by
  unfold firmwareBoot
  split
  · exact ⟨_, rfl, le_max_left _ _⟩
  · obtain ⟨m, hm, hf⟩ := addRecord_noRing (r := blankRecord 4 6 0) (by decide)
      (s := updMgmt s fun m => { m with fwSlot := none, fwVersion := 0, fwBytes := [] }) hw
    exact ⟨m, hm, hf.ge⟩

theorem firmwareBoot_eq {s : State} (hw : s.mgmt.frWritten = false) :
    firmwareBoot s = { s with mgmt := (firmwareBoot s).mgmt } := by
  obtain ⟨m, hm, -⟩ := firmwareBoot_mgmt hw
  rw [hm]

theorem fwMinimum_le_firmwareBoot {s : State} (hw : s.mgmt.frWritten = false) :
    s.mgmt.fwMinimum ≤ (firmwareBoot s).mgmt.fwMinimum := by
  obtain ⟨m, hm, hf⟩ := firmwareBoot_mgmt hw
  rw [hm]
  exact hf

/-- After a cold reset no ring of fault records has been written, so loading firmware changes the controller alone. -/
theorem coldReset_keeps (s : State) :
    (coldReset s).gus.lost = s.gus.lost ∧ (coldReset s).gus.failed = s.gus.failed ∧ (coldReset s).hbm = [] ∧
      (coldReset s).panels = [] ∧ (coldReset s).cmds = [] ∧ s.mgmt.fwMinimum ≤ (coldReset s).mgmt.fwMinimum := by
  unfold coldReset
  rw [firmwareBoot_eq]
  · refine ⟨rfl, rfl, rfl, rfl, rfl, le_trans ?_ (fwMinimum_le_firmwareBoot ?_)⟩
    · exact le_rfl
    · rfl
  · rfl

/-! ## Stacks, invalidations, records and attestation -/

theorem execStackLoss_eq {s : State} (h : s.gus.pending ≠ []) : execStackLoss s =
    .next (s.gus.pending.foldl loseStack { s with gus := { s.gus with pending := [] } }) :=
  if_neg (by simpa using h)

theorem execStackRetrainFail_eq {stack : Nat} (h : stack < 12) (s : State) :
    execStackRetrainFail stack s = .next (declareLoss s stack 1) :=
  if_pos h

/-- An invalidation that is done leaves no entry of the dispatcher's cache that it covers (04 R83). -/
theorem execInvalidateDone_drops {s : State} {v : DWord} (h : s.inval = some v) :
    ∃ t, execInvalidateDone s = .next t ∧ t.inval = none ∧ ∀ e ∈ t.iodTlb, invalCovers v e = false := by
  refine ⟨{ tlbDrop s (invalCovers v) with inval := none }, ?_, rfl, fun e he => ?_⟩
  · simp [execInvalidateDone, endInval, h]
  · simpa using (List.mem_filter.mp he).2

theorem execFaultRecordWrite_eq {r : FaultRec} (hf : recordFields r = true) (hu : unitNamed r = true) (s : State) :
    execFaultRecordWrite r s = .next (addRecord s r) :=
  if_pos (by simp [hf, hu])

/-- A report begins with the nonce it was asked over. -/
theorem take_reportBody (s : State) (rest : List Byte) (h : 32 ≤ s.mgmt.attUsed.length) :
    (reportBody s ++ rest).take 32 = s.mgmt.attUsed.take 32 := by
  simp only [reportBody, List.append_assoc]
  exact List.take_append_of_le_length h

theorem execAttestationDone_reports {s : State} (h : s.mgmt.attBusy = true) :
    ∃ t, execAttestationDone s = .next t ∧ t.mgmt.attBusy = false ∧
      (t.mgmt.attReport.take 32 = s.mgmt.attUsed.take 32 ∨ s.mgmt.attUsed.length < 32) := by
  refine ⟨_, if_pos h, rfl, ?_⟩
  rcases Nat.lt_or_ge s.mgmt.attUsed.length 32 with hl | hl
  · exact .inr hl
  · exact .inl (take_reportBody s _ hl)

/-- Settles O50: each event, when it is due, by the equation of its row; a cold reset by what loading firmware leaves. -/
theorem managementEvents : Obligations.ManagementEvents := by
  intro p stack r s
  exact ⟨execPowerSample_eq, execAclkRaiseTick_eq, execAclkFloorTimeout_eq, execAclkFloorTimeout_notEnabled,
    execThermalSample_cool, execThermalSample_trips, execHealthRefresh_even, execHealthRefresh_odd,
    execDeviceResetRequest_performed, execDeviceResetRequest_waits, execDeviceResetDone_eq, execDeviceResetRequest_merged,
    execDeviceResetDone_notEnabled, ⟨rfl, rfl, rfl⟩, rfl, coldReset_keeps s, execStackLoss_eq,
    fun h => execStackRetrainFail_eq h s, fun _ => execInvalidateDone_drops, fun hf hu => execFaultRecordWrite_eq hf hu s,
    execAttestationDone_reports⟩

end Sys2Proof.Machine
end

section
/-! CLAIM. StripeMap: where the bytes of local memory lie, no two in one place (O46). -/

namespace Sys2Proof.Machine

open Sys2Proof

/-! ## The place of a byte (02 R21) -/

/-- Where the byte at a data address stands in the stacks. -/
def physByte (da : Nat) : Nat := physOf (placeOf da).stripe (placeOf da).unit (placeOf da).gran + da % 64

/-- The stack of the byte at a data address (02 R21). -/
def dataStack (da : Nat) : Nat := (parityStack (da / 5632) + 1 + da % 5632 / 512) % 12

/-- The offset of the byte at a data address on its stack (02 R21). -/
def dataOffset (da : Nat) : Nat := da / 5632 * 512 + da % 5632 % 512

theorem parityStack_lt (n : Nat) : parityStack n < 12 := by
  unfold parityStack
  omega

/-- A stripe has eleven data units. -/
theorem unit_lt (da : Nat) : da % 5632 / 512 < 11 := by omega

theorem dataStack_lt (da : Nat) : dataStack da < 12 := Nat.mod_lt _ (by decide)

theorem dataStack_ne_parityStack (da : Nat) : dataStack da ≠ parityStack (da / 5632) := by
  have hp := parityStack_lt (da / 5632)
  have hj := unit_lt da
  unfold dataStack
  omega

theorem stripe_lt {da : Nat} (h : da < localBytes) : da / 5632 < 2 ^ 28 := by
  unfold localBytes at h
  omega

/-- A unit at a stripe below 2^28 ends within its stack. -/
theorem stackOffset_lt {n b : Nat} (hn : n < 2 ^ 28) (hb : b < 512) : n * 512 + b < 2 ^ 37 := by omega

theorem dataOffset_lt {da : Nat} (h : da < localBytes) : dataOffset da < 2 ^ 37 :=
  stackOffset_lt (stripe_lt h) (Nat.mod_lt _ (by decide))

theorem physOf_parity (n : Nat) : physOf n 11 0 = parityStack n * 2 ^ 37 + n * 512 := by
  rw [physOf, Nat.zero_mul, Nat.add_zero, unitStack, if_pos rfl]

theorem physByte_eq (da : Nat) : physByte da = dataStack da * 2 ^ 37 + dataOffset da := by
  have hu : unitStack (placeOf da).stripe (placeOf da).unit = dataStack da := if_neg (unit_lt da).ne
  rw [physByte, physOf, hu]
  simp only [placeOf, dataOffset]
  omega

/-! ## No two bytes in one place -/

/-- A place names one stack and one offset on it. -/
theorem stack_offset_inj {s t x y : Nat} (hx : x < 2 ^ 37) (hy : y < 2 ^ 37) (h : s * 2 ^ 37 + x = t * 2 ^ 37 + y) :
    s = t ∧ x = y := by omega

/-- Stack and offset together name one data address. -/
theorem dataAddr_unique {da db : Nat} (hs : dataStack da = dataStack db) (ho : dataOffset da = dataOffset db) : da = db := by
  have hn : da / 5632 = db / 5632 := by
    unfold dataOffset at ho
    omega
  have hp := parityStack_lt (db / 5632)
  have hj := unit_lt da
  have hk := unit_lt db
  have hu : da % 5632 / 512 = db % 5632 / 512 := by
    unfold dataStack at hs
    rw [hn] at hs
    omega
  unfold dataOffset at ho
  omega

theorem physByte_injective {da db : Nat} (ha : da < localBytes) (hb : db < localBytes) (h : physByte da = physByte db) :
    da = db := by
  rw [physByte_eq, physByte_eq] at h
  obtain ⟨hs, ho⟩ := stack_offset_inj (dataOffset_lt ha) (dataOffset_lt hb) h
  exact dataAddr_unique hs ho

/-- Of the stripe at an offset, the parity stands on another stack than any of its data. -/
theorem parity_ne_physByte {da m k : Nat} (ha : da < localBytes) (hm : m < 2 ^ 28) (hk : k < 512) :
    physOf m 11 0 + k ≠ physByte da := by
  intro h
  rw [physByte_eq, physOf_parity, Nat.add_assoc] at h
  obtain ⟨hs, ho⟩ := stack_offset_inj (stackOffset_lt hm hk) (dataOffset_lt ha) h
  have hn : m = da / 5632 := by
    unfold dataOffset at ho
    omega
  exact dataStack_ne_parityStack da (hn ▸ hs.symm)

/-- Settles O46: a place is a stack with an offset; the offset gives the stripe, and in a stripe the stack gives the unit. -/
theorem stripeMap : Obligations.StripeMap := by
  intro da ha
  exact ⟨⟨physByte_eq da, physOf_parity _, stripe_lt ha, dataOffset_lt ha, dataStack_lt da, dataStack_ne_parityStack da⟩,
    fun _ hb => physByte_injective ha hb, fun _ _ => parity_ne_physByte ha⟩

end Sys2Proof.Machine
end

section
/-! CLAIM. The pieces of engine commands: reads, writes, operations and completion (O47). -/

namespace Sys2Proof.Machine

open Sys2Proof

/-! ## Commands -/

theorem getCmd_id {s : State} {id : Nat} {c : Cmd} (h : getCmd s id = some c) : c.id = id := by
  simpa using List.find?_some h

theorem getCmd_mem {s : State} {id : Nat} {c : Cmd} (h : getCmd s id = some c) : c ∈ s.cmds := List.mem_of_find?_eq_some h

/-- A piece that can be begun stands in no log. -/
theorem opened_of_fresh {s : State} {c : Cmd} {k : Nat} {x : Piece} (h : c.fresh s k = some x) :
    c.opened.find? (fun o => o.1 == k) = none := by
  have hn : c.opened.any (fun o => o.1 == k) = false := by
    unfold Cmd.fresh at h
    split at h
    · cases h
    · next hb =>
      simp only [Bool.or_eq_true, not_or, Bool.not_eq_true] at hb
      exact hb.2
  simpa using hn

/-! ## Reads of local memory (02 R25, 09 R160) -/

section
variable {s u : State} {c : Cmd} {k va da len : Nat} {tol : Option Nat}

theorem settlePiece_ok (b : List Byte) : settlePiece s c k va da len tol (.ok b, u) =
    some (readFound (keepCopy u c (.loc da tol) b) c k (.loc da tol) b len) := rfl

theorem settlePiece_substituted {e : Nat} {b : List Byte} {w : State} (h : failRead u e tol = (.ok b, w)) :
    settlePiece s c k va da len tol (.fail e, u) = some (readDone w c k (.loc da tol) b len) := by
  simp [settlePiece, settleRead, h]

theorem settlePiece_failed {e f : Nat} {w : State} (h : failRead u e tol = (.fail f, w)) :
    settlePiece s c k va da len tol (.fail e, u) = some (failWith w c.id f va) := by
  simp [settlePiece, settleRead, h]

theorem settlePiece_waits : settlePiece s c k va da len tol (.wait, u) = none := rfl

theorem beginRead_beyond (h : localBytes < da + len) :
    beginRead s c k va len (.loc da tol) = some (failWith s c.id 0x15 va) := if_pos h

section
variable {r : ReadOut × State} (h : da + len ≤ localBytes)
  (hr : rawDirect s (placeOf da).stripe (placeOf da).unit (placeOf da).gran = r)
include h hr

theorem beginRead_settled {t : State} (ht : settlePiece s c k va da len tol r = some t) :
    beginRead s c k va len (.loc da tol) = some t := by
  simp [beginRead, Nat.not_lt.mpr h, hr, ht]

/-- A read that finds its granule lost or uncorrectable waits for its reconstruction. -/
theorem beginRead_waits (ht : settlePiece s c k va da len tol r = none) : beginRead s c k va len (.loc da tol) =
    some (updCmd r.2 c.id fun d => { d with recon := d.recon ++ [(k, da, tol)] }) := by
  simp [beginRead, Nat.not_lt.mpr h, hr, ht]

end
end

section
variable {s t : State} {id k va len : Nat} {c : Cmd} (hc : getCmd s id = some c)
include hc

section
variable {p : Spot} {leaf : Option DWord} (hx : c.fresh s k = some (.rd va len)) (hm : c.mayRead s = true)
  (hp : resolve s c va 0 = some (p, leaf))
include hx hm hp

theorem execGranuleRead_memory (ht : beginRead s c k va len p = some t) : execGranuleRead id k false s = .next t := by
  simp [execGranuleRead, hc, hx, hm, hp, ht]

theorem execGranuleRead_copy {y : Copy} (hy : (copiesFor s c).find? (fun y => y.is p.space p.granule) = some y) :
    execGranuleRead id k true s = .next (readFound (seenCopy s c y) c k p y.bytes len) := by
  simp [execGranuleRead, hc, hx, hm, hp, hy]

end

theorem execGranuleReconstruct_eq {da : Nat} {tol : Option Nat}
    (hw : c.recon.find? (fun r => r.1 == k) = some (k, da, tol)) (hx : (piecesOf s c)[k]? = some (.rd va len))
    (ht : settlePiece s c k va da len tol
      (rawReconstruct s (placeOf da).stripe (placeOf da).unit (placeOf da).gran) = some t) :
    execGranuleReconstruct id k s = .next t := by
  simp [execGranuleReconstruct, hc, hw, hx, ht]

end

/-! ## What later-issued reads have returned (09 R160, R170) -/

theorem earlierSeen_isSome (a : Option Seen) (b : Seen) : (earlierSeen a b).isSome = true := by
  unfold earlierSeen
  split
  · next h => cases a <;> simp_all
  · rfl

theorem foldl_earlierSeen_eq_none {a : Option Seen} {xs : List Seen} (h : xs.foldl earlierSeen a = none) :
    a = none ∧ xs = [] := by
  induction xs generalizing a with
  | nil => exact ⟨h, rfl⟩
  | cons x xs ih =>
    have hs := earlierSeen_isSome a x
    rw [(ih h).1] at hs
    cases hs

/-- Of a granule no later-issued read has returned anything, when there is none among those that the core remembers. -/
theorem laterSeen_eq_none_iff {s : State} {c : Cmd} (hu : c.unbuffered = false) (p : Spot) :
    laterSeen s c p = none ↔
      ∀ x ∈ (coreAt s c.born).seen, c.seq < x.seq → x.copy.is p.space p.granule = false := by
  rw [laterSeen, if_neg (by rw [hu]; decide), Option.map_eq_none_iff]
  constructor
  · intro h x hx hl
    have hf := List.filter_eq_nil_iff.mp (foldl_earlierSeen_eq_none h).2 x hx
    simpa [hl] using hf
  · intro h
    rw [List.filter_eq_nil_iff.mpr fun x hx => by simpa using h x hx]
    rfl

theorem returned_later {s : State} {c : Cmd} {p : Spot} {old : List Byte} (h : laterSeen s c p = some old)
    (b : List Byte) : returned s c p b = (old, s) := by
  rw [returned, h]

theorem returned_first {s : State} {c : Cmd} {p : Spot} (h : laterSeen s c p = none) (b : List Byte) :
    returned s c p b = (b, noteSeen s c p b) := by
  rw [returned, h]

/-- What a core remembers once a read has noted its granule, which none noted before, ahead of an unfinished command. -/
theorem seen_noteSeen {s : State} {d : Cmd} {p : Spot} (hd : d.born < 512) (hu : d.unbuffered = false)
    (hb : unfinishedBefore s d.born d.seq = true)
    (hn : ∀ x ∈ (coreAt s d.born).seen, x.seq = d.seq → x.copy.is p.space p.granule = false) (b : List Byte) :
    (coreAt (noteSeen s d p b) d.born).seen =
      ((coreAt s d.born).seen.filter fun x => unfinishedBefore s d.born x.seq) ++ [⟨d.seq, ⟨p.space, p.granule, b⟩⟩] := by
  rw [noteSeen, if_neg (by simp [hu, hb]), coreAt_updCore _ _ _ hd]
  refine if_neg ?_
  simp only [List.any_eq_true, Bool.and_eq_true, beq_iff_eq, not_exists, not_and, Bool.not_eq_true]
  exact fun x hx => hn x (List.mem_filter.mp hx).1

/-- What a read has returned is what an earlier-issued read of the granule on its core returns (09 R160). -/
theorem laterSeen_returned {s : State} {id : Nat} {c d : Cmd} (hc : getCmd s id = some c) (hb : d.born = c.born)
    (hd : d.born < 512) (hs : c.seq < d.seq) (hcu : c.unbuffered = false) (hdu : d.unbuffered = false) {p : Spot}
    (hcn : laterSeen s c p = none) (hdn : laterSeen s d p = none) (b : List Byte) :
    laterSeen (returned s d p b).2 c p = some b := by
  have hf := (laterSeen_eq_none_iff hcu p).mp hcn
  have hu : unfinishedBefore s d.born d.seq = true :=
    List.any_eq_true.mpr ⟨c, getCmd_mem hc, by simp [hb, hs]⟩
  have hn : ∀ x ∈ (coreAt s d.born).seen, x.seq = d.seq → x.copy.is p.space p.granule = false :=
    fun x hx he => hf x (hb ▸ hx) (he ▸ hs)
  have hl : ((coreAt s d.born).seen.filter fun x => unfinishedBefore s d.born x.seq).filter
      (fun x => decide (c.seq < x.seq) && x.copy.is p.space p.granule) = [] :=
    List.filter_eq_nil_iff.mpr fun x hx => by simpa using hf x (hb ▸ (List.mem_filter.mp hx).1)
  rw [returned_first hdn, laterSeen, if_neg (by rw [hcu]; decide), ← hb, seen_noteSeen hd hdu hu hn, List.filter_append, hl]
  simp [hs, Copy.is, earlierSeen]

theorem endAcquire_atom {c : Cmd} {a1 a2 a3 a4 a5 a6 a7 scope a9} (h : c.kind = .atom a1 a2 a3 a4 a5 a6 a7 (some scope) a9)
    (s : State) : endAcquire s c = issueHeldReads c.id (acquireAt c.core scope
      (updGang s c.pid c.gang fun g => { g with acquires := g.acquires.filter (· != c.id) })) := by
  rw [endAcquire, h]

/-- A read that waited for an acquire is issued with it: after every read that the core remembers. -/
theorem seq_of_mem_issueHeldReads {s : State} {id : Nat} {d : Cmd} (hd : d ∈ (issueHeldReads id s).cmds)
    (ha : d.after.contains id = true) : s.nextId ≤ d.seq := by
  obtain ⟨e, -, rfl⟩ := List.mem_map.mp hd
  split at ha
  · next h => rw [if_pos h]; exact Nat.le_add_right _ _
  · next h => exact absurd ha h

theorem laterSeen_issueHeldReads {s : State} {id : Nat} {d : Cmd} (p : Spot) (hd : d ∈ (issueHeldReads id s).cmds)
    (ha : d.after.contains id = true) (hs : ∀ x ∈ (coreAt s d.born).seen, x.seq < s.nextId) :
    laterSeen (issueHeldReads id s) d p = none := by
  cases hu : d.unbuffered
  · refine (laterSeen_eq_none_iff hu p).mpr fun x hx hl => ?_
    have h1 := hs x hx
    have h2 := seq_of_mem_issueHeldReads hd ha
    omega
  · exact if_pos hu

/-! ## Writes and operations on local memory (02 R27 to R30, 09 R168) -/

section
variable {s t : State} {id k va len da : Nat} {tol : Option Nat} {leaf : Option DWord} {c d : Cmd}
  (hc : getCmd s id = some c)
include hc

theorem execStripeWrite_closes {n : Nat} {e : OpenEntry} (ho : c.opened.find? (fun o => o.1 == k) = some (k, n))
    (he : entryOf s c n = some e) : execStripeWrite id k s = .next (closeEntry s e) := by
  simp [execStripeWrite, hc, ho, he]

section
variable {src : Source} {ws : List WByte} (hx : c.fresh s k = some (.wr va len src))
  (hp : resolve s c va 1 = some (.loc da tol, leaf)) (hd : getCmd (captureLines s id (src.lines len)) id = some d)
  (hw : writeBytes (captureLines s id (src.lines len)) d va len src = some ws)
  (hf : serviceFull (captureLines s id (src.lines len)) d (.wr va len src) da = false)
include hx hp hd hw hf

theorem execStripeWrite_begins (hb : c.begun k = false) (hg : coversGranule ws = true)
    (ht : beginWrite (captureLines s id (src.lines len)) d k va (da / 64 * 64) ws = some t) :
    execStripeWrite id k s = .next t := by
  simp [execStripeWrite, hc, opened_of_fresh hx, hb, hx, hp, hd, hw, hg, hf, ht]

theorem execSubGranuleWrite_eq (hg : coversGranule ws = false)
    (ht : mergeWrite (captureLines s id (src.lines len)) d k va da tol (fun old => mergeInto (va / 64 * 64) old ws)
      (fun _ w => w) = some t) : execSubGranuleWrite id k s = .next t := by
  simp [execSubGranuleWrite, hc, hx, hp, hd, hw, hg, hf, ht]

end

theorem execServiceGangOp_local (hx : c.fresh s k = some (.op va len)) (ho : opInTurn c k = true) (hb : c.begun k = false)
    (hp : resolve s c va (accessOf c (.op va len)) = some (.loc da tol, leaf))
    (hs : needsSmock c k = true → leaf.any pteSmock = true) (hr : readsPlane c = true → c.mayRead s = true)
    (hput : ∀ a b m f n r, c.kind ≠ .put a b m f n r) (hcomb : ∀ t, c.kind ≠ .peerOp (.combine t))
    (ht : opLocal s c k va len da tol = some t) : execServiceGangOp id k s = .next t := by
  have h1 : ¬ (!opInTurn c k || c.begun k || (readsPlane c && !c.mayRead s)) = true := by
    simpa [ho, hb] using hr
  have h2 : ¬ (needsSmock c k && !(leaf.any pteSmock)) = true := by
    simpa using hs
  simp only [execServiceGangOp, Option.bind_eq_bind, Option.bind_some, hc, hx, hp, if_neg h1, if_neg h2]
  rw [ht]

end

/-- A whole granule of local memory enters the log with its data when its stripe is closed and the log has room (02 R28). -/
theorem beginWrite_enters {s : State} {c : Cmd} {k va da : Nat} {ws : List WByte} (hl : da + 64 ≤ localBytes)
    (hf : writeFails s (placeOf da).stripe (placeOf da).unit = false) (ho : stripeOpen s (placeOf da).stripe = false)
    (hw : waitsAhead s (placeOf da).stripe c.id k = false) (hn : logCount s (placeOf da).stripe < 256)
    (hr : stripeRun s c k va da = none) :
    beginWrite s c k va da ws = some (enterWhole s c k (placeOf da) (ws.map (·.v))) := by
  simp [beginWrite, Nat.not_lt.mpr hl, hf, ho, hw, Nat.not_le.mpr hn, hr]

/-! ## Completion (09 R166) -/

section
variable {s : State} {id : Nat} {c : Cmd} (hc : getCmd s id = some c)
include hc

theorem execCommandComplete_measure {pid : Nat} {t : State} (ho : c.owner = .measure pid) (hf : c.frozen s = false)
    (ht : measureEnd s c pid = some t) : execCommandComplete id s = .next t := by
  have hp : poolIdle s c = false := by simp [poolIdle, ho]
  have hm : c.measures = some pid := by rw [Cmd.measures, ho]
  simp [execCommandComplete, hc, hp, hm, hf, ht]

section
variable (hm : c.measures = none) (hp : poolIdle s c = false) (he : endsElsewhere c = false) (hz : c.frozen s = false)
  (hx : c.fault = none) (hs : smockTurn s c = true)
include hm hp he hz hx hs

theorem execCommandComplete_failed {f : Fail} (hf : c.fail = some f) (ho : c.opened = []) :
    execCommandComplete id s = .next (completeFailed s c f) := by
  simp [execCommandComplete, hc, hm, hp, he, hz, hx, hs, hf, ho]

theorem execCommandComplete_done (hf : c.fail = none) (hd : mayComplete s c = true) (hw : waitsMirror s c = false)
    (hfold : ∀ a z g l n w, c.kind ≠ .hgfold a none z g l n w) :
    execCommandComplete id s = .next (completeDone s c) := by
  have hk : takeMirror s c = (s, c) := by simp [takeMirror, hw]
  simp only [execCommandComplete, hc, hm, hp, he, hz, hx, hs, hf]
  simp [hk, hd, hf]

end
end

/-! ## Consuming the copy ring (21 R331) -/

theorem getPanel_quiet (s : State) (pid : Nat) : getPanel s.quiet pid = (getPanel s pid).map Panel.quiet := by
  simp [getPanel, State.quiet, List.find?_map, Function.comp_def]

/-- Bringing an active set up to date leaves the rings of panels as they are. -/
theorem ring_refreshCore (s : State) (core pid : Nat) :
    (getPanel (refreshCore s core) pid).map (·.ring) = (getPanel s pid).map (·.ring) := by
  have h := congrArg (fun q => (getPanel q pid).map (·.ring)) (quiet_refreshCore s core)
  simp only [getPanel_quiet, Option.map_map] at h
  exact h

theorem cmds_refreshCore (s : State) (core : Nat) : (refreshCore s core).cmds = s.cmds := by
  have h := congrArg State.cmds (quiet_refreshCore s core)
  exact h

theorem execRingConsume_consumes {s : State} {pid : Nat} {p : Panel} (hp : getPanel s pid = some p)
    (hl : p.life = .running ∨ p.life = .savedLining) (hr : p.ring.cons ≠ p.ring.pub) :
    ∃ t, execRingConsume pid s = .next t ∧
      (getPanel t pid).map (·.ring) = some { p.ring with cons := (p.ring.cons + 1) % 2 ^ 32 } ∧
      ∀ d ∈ s.cmds, d.ofPanel pid = true → d.kind = .ringEntry p.ring.cons → consumeEntry p s.free d ∈ t.cmds := by
  have hg : (p.life == .running || p.life == .savedLining) && p.ring.cons != p.ring.pub := by
    simpa [hr] using hl
  rw [execRingConsume, hp]
  refine ⟨_, if_pos hg, ?_, fun d hd ho hk => ?_⟩
  · rw [ring_refreshCore, getPanel_updPanel_same]
    · exact congrArg (Option.map _ ∘ Option.map _) hp
    · exact fun _ => rfl
  · rw [cmds_refreshCore, updPanel_cmds]
    exact List.mem_map.mpr ⟨d, hd, if_pos (by simp [ho, hk])⟩

/-- Settles O47: a read of memory by how its granule is found, a write and an operation by the checks that they pass, what later-issued
reads returned by what their core remembers. -/
theorem memoryEvents : Obligations.MemoryEvents := by
  intro id k va len da tol leaf c s hc
  obtain rfl := getCmd_id hc
  refine ⟨fun hx hm hp => ⟨fun hl => execGranuleRead_memory hc hx hm hp (beginRead_beyond hl), fun hl => ⟨?_, ?_, ?_, ?_⟩,
      fun _ => execGranuleRead_copy hc hx hm hp⟩,
    fun _ _ b hb hd hs hcu hdu hcn hdn => laterSeen_returned hc hb hd hs hcu hdu hcn hdn b,
    fun _ b _ h => returned_later h b, fun _ _ _ _ _ _ _ _ _ h => endAcquire_atom h s, fun _ p => laterSeen_issueHeldReads p,
    fun hw hx => ⟨?_, ?_, ?_⟩, fun _ _ => execStripeWrite_closes hc, fun src d ws hx hb hp hd hw => ⟨?_, ?_⟩,
    fun hx ho hb hp hs hr hput hcomb _ => execServiceGangOp_local hc hx ho hb hp hs hr hput hcomb,
    fun _ _ => execCommandComplete_measure hc,
    fun hm hp he hz hx hs => ⟨fun _ => execCommandComplete_failed hc hm hp he hz hx hs,
      fun hf hd hw _ => execCommandComplete_done hc hm hp he hz hx hs hf hd hw⟩,
    fun _ _ => execRingConsume_consumes⟩
  · exact fun b _ h => execGranuleRead_memory hc hx hm hp (beginRead_settled hl h (settlePiece_ok b))
  · exact fun _ _ _ _ h hf => execGranuleRead_memory hc hx hm hp (beginRead_settled hl h (settlePiece_substituted hf))
  · exact fun _ _ _ _ h hf => execGranuleRead_memory hc hx hm hp (beginRead_settled hl h (settlePiece_failed hf))
  · exact fun _ h => execGranuleRead_memory hc hx hm hp (beginRead_waits hl h settlePiece_waits)
  · exact fun b _ h => execGranuleReconstruct_eq hc hw hx (h ▸ settlePiece_ok b)
  · exact fun _ _ _ _ h hf => execGranuleReconstruct_eq hc hw hx (h ▸ settlePiece_substituted hf)
  · exact fun _ _ _ _ h hf => execGranuleReconstruct_eq hc hw hx (h ▸ settlePiece_failed hf)
  · exact fun hg hl hf ho ha hn hr hv => execStripeWrite_begins hc hx hp hd hw hv hb hg (beginWrite_enters hl hf ho ha hn hr)
  · exact fun _ hg hv => execSubGranuleWrite_eq hc hx hp hd hw hv hg

end Sys2Proof.Machine
end

section
/-! CLAIM. Translation of a piece's address, peers, steps, and pleat tables (O48). -/

namespace Sys2Proof.Machine

open Sys2Proof

/-! ## Translation (04 R81 to R84, 02 R47) -/

section
variable {s : State} {id k : Nat} {c : Cmd} {x : Piece} (hc : getCmd s id = some c) (hx : c.fresh s k = some x)
  (hp : c.physical = false)
include hc hx hp

section
variable {level ptr : Nat} {e : DWord} {u : State} (hw : walkVa s c.asid x.va = (.leaf level ptr e, u))
include hw

theorem execTableWalk_leaf (ha : accessOf c x = 0 ∨ pteW e = true) : execTableWalk id k s =
    .next (tlbFill u c.core ⟨c.asid, x.va / 2 ^ pageBits level, e, level⟩) := by
  have hn : ¬ (accessOf c x != 0 && !pteW e) = true := by
    rcases ha with h | h <;> simp [h]
  simp only [execTableWalk, Option.bind_eq_bind, Option.bind_some, hc, hx, hp, hw, if_neg hn]
  rfl

theorem execPageExpand_eq (hl : level = 3) (he : pteCmp e = true) {t : State}
    (ht : expandFor u c x.va ptr e (accessOf c x) = some t) : execPageExpand id k s = .next t := by
  simp [execPageExpand, hc, hx, hp, hw, hl, he, ht]

end

theorem execTableWalk_fault {f : Nat} {u : State} (hw : walkVa s c.asid x.va = (.fault f, u)) :
    execTableWalk id k s = .next (stallCmd u c f x.va (accessOf c x)) := by
  simp [execTableWalk, hc, hx, hp, hw]

theorem execTableWalk_fail {e : Nat} {u : State} (hw : walkVa s c.asid x.va = (.fail e, u)) :
    execTableWalk id k s = .next (failWith u id e x.va) := by
  simp [execTableWalk, hc, hx, hp, hw]

end

/-- A compressed page beyond local memory fails its access (04 R82). -/
theorem expandFor_beyond {s : State} {e : DWord} (h : localBytes < 65536 + pteAddr e) (c : Cmd) (va ptr access : Nat) :
    expandFor s c va ptr e access = some (failWith s c.id 0x15 va) := if_pos h

/-- A pool without a frame stalls the access (02 R47). -/
theorem expandFor_empty {s : State} {e : DWord} (h : 65536 + pteAddr e ≤ localBytes) (hp : poolIsEmpty s = true)
    (c : Cmd) (va ptr access : Nat) : expandFor s c va ptr e access = some (stallCmd s c poolEmpty va access) := by
  rw [expandFor, if_neg (Nat.not_lt.mpr h), if_pos hp]

/-! ## Responses and links (03 R61 to R63) -/

theorem execPeerResponse_late {s : State} {id : Nat} (h : s.links.dead.contains id = true) (y : PeerReply) :
    execPeerResponse id y s = .next { s with links := { s.links with
      dead := s.links.dead.filter (fun d => d != id), cntLate := bump s.links.cntLate } } := if_pos h

theorem execPeerResponse_eq {s t : State} {id : Nat} {r : Req} {c : Cmd} {y : PeerReply}
    (h : s.links.dead.contains id = false) (hr : reqOf s id = some r) (hc : getCmd s r.cmd = some c)
    (ht : respond s c r y = some t) : execPeerResponse id y s = .next t := by
  rw [execPeerResponse, if_neg (by rw [h]; decide)]
  simp [hr, hc, ht]

theorem execRequestTimeout_eq {s : State} {id : Nat} {r : Req} (hr : reqOf s id = some r)
    (ht : r.sentAt + s.links.timeout * 10 ^ 9 ≤ s.fs) : execRequestTimeout id s = .next (failReq s r 0x14) := by
  rw [execRequestTimeout, hr]
  exact if_pos ht

theorem execStepAck_eq {s : State} {id k : Nat} {r : Req} {c : Cmd}
    (hr : s.links.reqs.find? (fun r => r.cmd == id && r.piece == k && r.kind == .step) = some r)
    (hc : getCmd s id = some c) : execStepAck id k s =
      .next ((c.stepOf k).foldl (fun t j => markDone t id j) ((stepReqs s r).foldl
        (fun t y => (granulesOf y.addr y.len).foldl (fun t g => dropCopy t c.core (1 + y.dev) g) (endReq t y)) s)) := by
  rw [execStepAck, hr, hc]

/-- A step that failed goes out again when a port is up, or once 10 µs have passed (03 R62). -/
theorem execStepRetry_eq {s t : State} {id k : Nat} {c : Cmd} {x : Piece} {y : StepTry} {r : StepRun}
    (hc : getCmd s id = some c) (hy : c.tryOf k = some y) (hx : c.fresh s k = some x) (hr : stepRun s c k = some r)
    (hk : r.pieces.head? = some k) (hd : (portFor s r.dev r.addr y.port).isSome ∨ y.at_ + 10 ^ 10 ≤ s.fs)
    (ht : sendStep (captureLines (updCmd { s with links := { s.links with cntRetry := bump s.links.cntRetry } } id
      fun d => { d with lines := [] }) id (runLines s c r)) c k r x.va = some t) :
    execStepRetry id k s = .next t := by
  have hn : ¬ (r.pieces.head? != some k ||
      ((portFor s r.dev r.addr y.port).isNone && decide (s.fs < y.at_ + 10 ^ 10))) = true := by
    rcases hd with h | h
    · simp [hk, Option.isSome_iff_ne_none.mp h]
    · simpa [hk] using fun _ => h
  simp only [execStepRetry, Option.bind_eq_bind, Option.bind_some, hc, hy, hx, hr, if_neg hn, ht]

theorem execUalLinkUp_eq {n dev port domain : Nat} (s : State) (hn : n < 18) (hd : dev < 512) (hp : port < 18)
    (hm : domain < 256) : execUalLinkUp n dev port domain s =
      .next { s with links := { s.links with ual := vset s.links.ual n ⟨true, dev, port, domain⟩ } } :=
  if_pos ⟨hn, hd, hp, hm⟩

theorem execUalLinkDown_eq {n : Nat} (s : State) (hn : n < 18) : execUalLinkDown n s =
    .next ((s.links.reqs.filter fun r => r.port == n).foldl
      (fun t r => if (reqOf t r.id).isSome then failReq t r 0x13 else t)
      { s with links := { s.links with
        ual := vset s.links.ual n { vget s.links.ual n ⟨false, 0, 0, 0⟩ with up := false } } }) := if_pos hn

/-! ## Requests of peers (03 R54, R62) -/

section
variable {s : State} {r : PeerReqIn} (he : s.links.enable = true) (hd : r.dev ≤ 431)
  (hf : askForm r.tag.isSome r.ask = true) (hu : (vget s.links.ual r.port ⟨false, 0, 0, 0⟩).up = true)
include he hd hf hu

/-- The link carries the request. -/
theorem peerRequest_guard : ¬ (!s.links.enable || decide (431 < r.dev) || !askForm r.tag.isSome r.ask
    || !(vget s.links.ual r.port ⟨false, 0, 0, 0⟩).up) = true := by
  simp [he, hf, hu, hd]

theorem execPeerRequest_refused (ha : importAllows s (askRange r.ask).1 (askRange r.ask).2 = false) :
    execPeerRequest r s = .next s := by
  rw [execPeerRequest, if_neg (peerRequest_guard he hd hf hu)]
  exact if_pos (by rw [ha]; rfl)

section
variable (ha : importAllows s (askRange r.ask).1 (askRange r.ask).2 = true)
include ha

theorem execPeerRequest_untagged (ht : r.tag = none) : execPeerRequest r s =
    .next (newCmd s (.peer r.port none) noCore .atomic (.peerOp r.ask) 0 (fun q => q)) := by
  rw [execPeerRequest, if_neg (peerRequest_guard he hd hf hu)]
  simp only [ha, ht]
  rfl

theorem execPeerRequest_remembered {tag : BitVec 16} (ht : r.tag = some tag) (hm : remembers s r.dev tag.toNat = true) :
    execPeerRequest r s = .next { s with links := { s.links with cntDup := bump s.links.cntDup } } := by
  rw [execPeerRequest, if_neg (peerRequest_guard he hd hf hu)]
  simp [ha, ht, hm]

theorem execPeerRequest_step {tag : BitVec 16} (ht : r.tag = some tag) (hm : remembers s r.dev tag.toNat = false)
    (hn : applying s (r.dev, tag.toNat) = false) : execPeerRequest r s =
      .next (newCmd s (.peer r.port (some (r.dev, tag.toNat))) noCore .atomic (.peerOp r.ask) 0 (fun q => q)) := by
  rw [execPeerRequest, if_neg (peerRequest_guard he hd hf hu)]
  simp only [ha, ht, hm, hn]
  rfl

end
end

/-! ## Pleat tables (03 R59) -/

theorem execTileArrive_eq {s : State} {id k va len da : Nat} {c : Cmd} {tol : Option Nat} {leaf : Option DWord}
    {st : Option Nat} {t : Tile} (hc : getCmd s id = some c) (hs : t.src.head? = some (id, k))
    (hx : c.fresh s k = some (.op va len)) (hr : resolve s c va 2 = some (.loc da tol, leaf))
    (hl : da + len ≤ localBytes) (ht : tileOf s c k da = some (st, t)) : execTileArrive st t s =
      .next (arriveTile st (updCmd s id fun d => { d with sent := d.sent ++ [k] }) t) := by
  simp [execTileArrive, hs, hc, hx, hr, ht, Nat.not_lt.mpr hl]

theorem execPleatEntryTimeout_eq {s : State} {table id : Nat} {e : PleatEntry}
    (he : (pleatAt s table).find? (fun e => e.id == id) = some e) (ht : e.last + 2 * 10 ^ 9 ≤ s.fs) :
    execPleatEntryTimeout table id s = .next
      (let u := updPleat s table fun es => es.filter fun x => x.id != id
       if table < 18 then arriveCluster u e.tile else addIntoMemory u e.tile) := by
  rw [execPleatEntryTimeout, he]
  exact if_pos ht

/-- Settles O48: a piece's walk by how it ends, a request by the checks of the target, and every other event by the equation of its row. -/
theorem linkEvents : Obligations.LinkEvents := by
  intro id k s
  refine ⟨fun c x hc hx hp => ⟨fun level ptr e u hw => ⟨execTableWalk_leaf hc hx hp hw, fun hl he => ⟨fun h => ?_,
    fun h hn => ?_, fun _ => execPageExpand_eq hc hx hp hw hl he⟩⟩, fun _ _ => execTableWalk_fault hc hx hp,
    fun _ _ => execTableWalk_fail hc hx hp⟩, execPeerResponse_late, fun _ _ _ _ => execPeerResponse_eq,
    fun _ => execRequestTimeout_eq, fun _ _ => execStepAck_eq, fun _ _ _ _ _ => execStepRetry_eq,
    fun _ _ _ _ => execUalLinkUp_eq s, fun _ => execUalLinkDown_eq s, fun r he hd hf hu => ⟨?_, ?_, fun tag ha ht => ⟨?_, ?_⟩⟩,
    fun _ _ _ _ _ _ _ _ => execTileArrive_eq, fun _ _ => execPleatEntryTimeout_eq⟩
  · exact execPageExpand_eq hc hx hp hw hl he (expandFor_beyond h c x.va ptr _)
  · exact execPageExpand_eq hc hx hp hw hl he (expandFor_empty h hn c x.va ptr _)
  · exact execPeerRequest_refused he hd hf hu
  · exact execPeerRequest_untagged he hd hf hu
  · exact execPeerRequest_remembered he hd hf hu ha ht
  · exact execPeerRequest_step he hd hf hu ha ht

end Sys2Proof.Machine
end

section
/-! CLAIM. Fetching packets and starting them (O49). -/

namespace Sys2Proof.Machine

open Sys2Proof

/-! ## Fetching (04 R72) -/

section
variable {s : State} {q : BitVec 8} (hr : (queueAt s q.toNat).state = .running)
include hr

theorem execPacketFetch_begins (hf : fetchOf s q.toNat = none) (hn : (queueAt s q.toNat).head ≠ (queueAt s q.toNat).tail) :
    execPacketFetch q s = .next (newCmd s (.ring q.toNat) noCore .copy
      (.fetch [(slotOf (queueAt s q.toNat), 64)]) (queueAt s q.toNat).asid id) := by
  rw [execPacketFetch, hf]
  exact if_pos (by simp [hr, hn])

theorem execPacketFetch_takes {c : Cmd} {bs : List Byte} (hf : fetchOf s q.toNat = some c) (hc : c.fail = none)
    (hd : c.data 0 = some bs) :
    execPacketFetch q s = .next (takePacket (forgetCmd s c.id) q.toNat (some bs) 0) := by
  simp [execPacketFetch, hf, hr, hc, hd]

end

/-! ## Starting (04 R73, R78) -/

section
variable {s : State} {q : BitVec 8} {i : Word} {p : Pkt} {bs : List Byte} (hp : getPkt s q.toNat i.toNat = some p)
  (hb : p.bytes = some bs)
include hp hb

theorem pktOf_eq {t : Nat} (ht : pktType p = t) : pktOf s q.toNat i.toNat t = some (p, bs) := by
  simp [pktOf, hp, hb, ht]

/-- A packet that may start has started, and does what its type says (04 R73). -/
theorem startPkt_eq (hm : mayStart s q.toNat p = true) {t : Nat} (ht : pktType p = t) (f : List Byte → State → State) :
    startPkt s q i t f = .next (f bs (markStarted s q.toNat i.toNat)) := by
  rw [startPkt, pktOf_eq hp hb ht]
  exact if_pos hm

theorem execLaunchPacket_starts (hm : mayStart s q.toNat p = true) (ht : pktType p = 1)
    (hl : launchOf s q.toNat i.toNat = none) :
    execLaunchPacket q i s = .next (accept q i bs (markStarted s q.toNat i.toNat)) := by
  rw [execLaunchPacket, hl]
  exact startPkt_eq hp hb hm ht _

theorem execCompressPacket_starts (hm : mayStart s q.toNat p = true) (ht : pktType p = 7) (hs : p.stage = .fetched) :
    execCompressPacket q i s = .next (pktCmd (markStarted s q.toNat i.toNat) q i .copy
      (.compress (pktNat bs 8 8) (pktNat bs 16 4) (pktNat bs 24 8) [])) := by
  rw [execCompressPacket, pktOf_eq hp hb ht, Option.bind_some, if_pos hs]
  exact startPkt_eq hp hb hm ht _

/-! ## WAIT (04 R79) -/

theorem execWaitPoll_begins (ht : pktType p = 3) (hs : p.stage = .started) (hc : cmdOfPkt s q i = none) :
    execWaitPoll q i s = .next (pktCmd (markPolled s q.toNat i.toNat) q i .copy (.fetch [(pktNat bs 8 8, 8)])) := by
  simp [execWaitPoll, pktOf_eq hp hb ht, hs, hc]

theorem execWaitPoll_reads (ht : pktType p = 3) (hs : p.stage = .started) {c : Cmd} {v : List Byte}
    (hc : cmdOfPkt s q i = some c) (hf : c.fail = none) (hd : c.data 0 = some v) :
    execWaitPoll q i s = .next (if pktNat bs 16 8 ≤ bytesNat v then endPacket (forgetCmd s c.id) q.toNat i.toNat 0
      else forgetCmd s c.id) := by
  have hn : ¬ (p.stage != .started) = true := by simp [hs]
  simp only [execWaitPoll, pktOf_eq hp hb ht, if_neg hn, hc, hf, hd]
  exact (apply_ite _ _ _ _).symm

end

/-- An accepted launch goes on with the reading of its kernel object (04 R80, R88). -/
theorem execLaunchPacket_continues {s t : State} {q : BitVec 8} {i : Word} {l : Launch} {c : Cmd}
    (hl : launchOf s q.toNat i.toNat = some l) (hc : cmdOfPkt s q i = some c) (ht : acceptNext s c l = some t) :
    execLaunchPacket q i s = .next t := by
  simp [execLaunchPacket, hl, hc, ht]

end Sys2Proof.Machine

namespace Sys2Proof.Claims

open Sys2Proof Sys2Proof.Machine

/-- Settles O49: a fetch by its two halves, each type by the one rule for starting, a WAIT and a LAUNCH by what they do next. -/
theorem packetEvents : Obligations.PacketEvents := by
  intro q i s
  refine ⟨execPacketFetch_begins, fun _ _ hr => execPacketFetch_takes hr, fun p bs hp hb hm => ?_,
    fun p bs hp hb ht hs => ⟨execWaitPoll_begins hp hb ht hs, fun _ _ => execWaitPoll_reads hp hb ht hs⟩,
    fun _ _ _ => execLaunchPacket_continues⟩
  have starts {t : Nat} (ht : pktType p = t) (f : List Byte → State → State) := startPkt_eq hp hb hm ht f
  exact ⟨fun ht => (starts ht _ : execNopPacket q i s = _), execLaunchPacket_starts hp hb hm,
    fun ht => (starts ht _ : execCopyPacket q i s = _), fun ht => (starts ht _ : execWaitPacket q i s = _),
    fun ht => (starts ht _ : execSignalPacket q i s = _), fun ht => (starts ht _ : execFencePacket q i s = _),
    fun ht => (starts ht _ : execSetprioPacket q i s = _), execCompressPacket_starts hp hb hm⟩

end Sys2Proof.Claims
end

section
/-! CLAIM. The values of the registers at reset (O55). -/

namespace Sys2Proof.Machine

open Sys2Proof

/-! ## The arrays of the reset state -/

theorem vget_replicate {α : Type} (n : Nat) (a : α) (i : Nat) : vget (Vector.replicate n a) i a = a := by
  unfold vget
  split
  · exact Vector.getElem_replicate _
  · rfl

theorem vget_ofFn {α : Type} {n : Nat} (f : Fin n → α) {i : Nat} (h : i < n) (d : α) :
    vget (Vector.ofFn f) i d = f ⟨i, h⟩ := by
  rw [vget, dif_pos h, Vector.getElem_ofFn]

theorem semOwner_reset (n : Nat) : semOwner State.reset n = 0 := vget_replicate 32 0 n

theorem queueAt_reset (q : Nat) : queueAt State.reset q = queue0 := vget_replicate 256 queue0 q

theorem partAt_reset {p : Nat} (h : p < 8) : partAt State.reset p = part0 p :=
  vget_ofFn (fun i => part0 i.val) h _

/-- At reset partition 0 has every cluster (05 Table 5-2). -/
theorem clus_part0_zero : (part0 0).clus = 0xFFFFFFFF := rfl

theorem clus_part0_of_pos {p : Nat} (h : 1 ≤ p) : (part0 p).clus = 0 := if_neg (Nat.one_le_iff_ne_zero.mp h)

/-! ## Registers put together from fields -/

theorem readReg_of_resetDone {s : State} (h : s.mgmt.resetDone = true) (r : RegId) : readReg s r = regValue s r := by
  simp [readReg, h]

/-- The cap is the low field of MG_PWR_CAP, below the cause and the frequency (01 Table 1-3). -/
theorem pwrCapReg_cap {s : State} (h : s.mgmt.pwrCap < 2 ^ 12) : pwrCapReg s % 2 ^ 12 = s.mgmt.pwrCap := by
  simp only [pwrCapReg, bitsAt]
  omega

/-- GUS_STATUS reads 0 on a module that has lost no stack (02 Table 2-6). -/
theorem gusStatus_of_no_loss {s : State} (hm : s.gus.failed = false) (hl : s.gus.lost = 0) (hf : s.gus.first = 0)
    (hc : s.gus.cause = 0) : gusStatus s = 0 := by
  simp [gusStatus, modeOf, bitsAt, hm, hl, hf, hc]

theorem pwrCap_reset : readReg State.reset .pwrCap % 2 ^ 12 = 3000 := by
  rw [readReg_of_resetDone rfl]
  exact pwrCapReg_cap (s := State.reset) (by decide : mgmt0.pwrCap < 2 ^ 12)

theorem gusStatus_reset : readReg State.reset .gusStatus = 0 := by
  rw [readReg_of_resetDone rfl]
  exact gusStatus_of_no_loss rfl rfl rfl rfl

end Sys2Proof.Machine

namespace Sys2Proof.Claims

open Sys2Proof Sys2Proof.Machine

/-- Settles O55: arrays read the one record that fills them, MG_PWR_CAP and GUS_STATUS come from their fields, and the rest
are fields of the reset state. -/
theorem resetState : Obligations.ResetState := by
  have clus {p : Nat} (h1 : 1 ≤ p) (h8 : p < 8) : (partAt State.reset p).clus = 0 := by
    rw [partAt_reset h8, clus_part0_of_pos h1]
  refine ⟨pwrCap_reset, rfl, rfl, semOwner_reset, fun q => ?queues, ?part0, fun _ => clus, fun p h8 => ?parts,
    gusStatus_reset, rfl, rfl, rfl, rfl, rfl, rfl, rfl⟩
  case queues =>
    rw [queueAt_reset]
    exact ⟨rfl, rfl, rfl, rfl, rfl⟩
  case part0 => rw [partAt_reset (by decide), clus_part0_zero]
  case parts =>
    rw [partAt_reset h8]
    exact ⟨rfl, rfl, rfl, rfl⟩

end Sys2Proof.Claims
end

section
/-! CLAIM. The life of a panel on its core: dispatch, staging, the active set, code, sleep, retirement, saves and flushes
(O51). -/

namespace Sys2Proof.Machine

open Sys2Proof

/-! ## Dispatch and the active set (06 R105, R111, 07 R130, R131) -/

theorem execDispatch_places {s : State} {part : BitVec 3} {q prio : Nat} {c : Cand} {t : Nat × Option Nat}
    (hd : mayDispatch s part.toNat = true) (hf : firstPlaceable s part.toNat = some (q, prio, c, t)) :
    execDispatch part s = .next (noteRun (place s c t) part.toNat q prio) := by
  rw [execDispatch, if_pos hd, hf]

section
variable {s : State} {core pos : Nat} {r : Nat × Nat × Nat × Nat} (hr : firstReady s core = some r)
include hr

theorem execActiveSetSwap_free (hp : (coreAt s core).active[pos]? = some none) :
    execActiveSetSwap core pos s = .next (swapIn s core pos r) := by
  simp only [execActiveSetSwap, hr, hp]

theorem execActiveSetSwap_yields {x : Pos} (hp : (coreAt s core).active[pos]? = some (some x))
    (hy : yielding s core = some pos) :
    execActiveSetSwap core pos s = .next (refreshCore (swapIn (evict s core pos) core pos r) core) := by
  simp only [execActiveSetSwap, hr, hp, if_pos hy]

end

/-- Bringing an active set up to date changes of a panel only the bookkeeping of issue. -/
theorem getPanel_refreshCore_map {α : Type} {f : Panel → α} (hf : ∀ p, f p.quiet = f p) (s : State) (core pid : Nat) :
    (getPanel (refreshCore s core) pid).map f = (getPanel s pid).map f := by
  have h := congrArg (fun q => (getPanel q pid).map f) (quiet_refreshCore s core)
  simpa only [getPanel_quiet, Option.map_map, Function.comp_def, hf] using h

theorem getGang_quiet (s : State) (pid gi : Nat) : getGang s.quiet pid gi = (getGang s pid gi).map Gang.quiet := by
  rw [getGang, getGang, getPanel_quiet]
  cases getPanel s pid with
  | none => rfl
  | some p => exact List.getElem?_map

/-- Bringing an active set up to date leaves the split tables of gangs as they are. -/
theorem split_refreshCore (s : State) (core pid gi : Nat) :
    (getGang (refreshCore s core) pid gi).map (·.split) = (getGang s pid gi).map (·.split) := by
  have h := congrArg (fun q => (getGang q pid gi).map (·.split)) (quiet_refreshCore s core)
  simpa only [getGang_quiet, Option.map_map, Function.comp_def, Gang.quiet] using h

/-! ## Staging and code (06 Table 6-3, 16 R246) -/

section
variable {s : State} {pid : Nat} {p : Panel} (hp : getPanel s pid = some p)
include hp

theorem execStagingComplete_runs (hl : p.life = .staging) (hf : failedMove s pid = none) (hc : noCommands s [p] = true) :
    ∃ t, execStagingComplete pid s = .next t ∧ (getPanel t pid).map (·.life) = some .running := by
  refine ⟨refreshCore (updPanel s pid fun q => { q with life := .running }) p.core, ?_, ?_⟩
  · simp [execStagingComplete, hp, hl, hf, hc]
  · rw [getPanel_refreshCore_map (fun _ => rfl), getPanel_updPanel_same, hp]
    · rfl
    · exact fun _ => rfl

theorem execStagingComplete_fails {code : Nat} (hl : p.life = .staging) (hf : failedMove s pid = some code) :
    execStagingComplete pid s = .next (refreshCore (failPanel s pid code) p.core) := by
  simp [execStagingComplete, hp, hl, hf]

theorem execCodeFetch_begins {window : Nat} (hi : p.issues = true) (hc : codeCmd s pid window = none)
    (hw : needsWindow p window = true) :
    execCodeFetch pid window s = .next (newCmd s (.code pid) p.core .copy
      (.fetch [(p.hdr.kaddr + 32 * window, 32)]) p.hdr.asid fun c => { c with slotAddr := window }) := by
  simp [execCodeFetch, hp, hc, hi, hw]

theorem execCodeFetch_fills {window : Nat} {c : Cmd} {bs : List Byte} (hc : codeCmd s pid window = some c)
    (hf : c.fail = none) (hd : c.data 0 = some bs) :
    execCodeFetch pid window s =
      .next (refreshCluster (fillWindow (forgetCmd s c.id) p window bs) (p.core / 16)) := by
  simp [execCodeFetch, hp, hc, hf, hd]

end

/-! ## A running fragment of a split table that settles (07 R124, R125) -/

theorem getElem?_fuseInto {f : SplitEntry → Bool} {a e : SplitEntry} {k j : Nat} {es : List SplitEntry}
    (he : es[j]? = some e) (hk : j ≠ k) (hf : f e = false) : (fuseInto f a k es)[j]? = some e := by
  simp [fuseInto, he, hk, hf]

/-- A fragment that has not reached its reconvergence address does not arrive. -/
theorem arriveEntry_away {e : SplitEntry} (hl : ∀ l ∈ e.levels.head?, l.rcv ≠ e.pc) : arriveEntry e = e := by
  unfold arriveEntry
  split
  · next l ls h =>
    have hne : e.pc ≠ l.rcv := (hl l (by rw [h]; rfl)).symm
    exact if_neg (by simp [hne])
  · rfl

section
variable {e : SplitEntry} (hw : e.wait = .run)
include hw

theorem sameWait_eq_false (a : SplitEntry) : sameWait a e = false := by
  simp [sameWait, hw]

theorem inRegang_eq_false : inRegang e = false := by
  simp [inRegang, hw]

section
variable {j : Nat} {es : List SplitEntry} (he : es[j]? = some e)
include he

/-- A fragment that runs is not in a group that fuses, nor is its entry the one that the group takes. -/
theorem getElem?_fuseOnce (exited : BitVec 8) : (fuseOnce exited es)[j]? = some e := by
  unfold fuseOnce
  split
  · exact he
  · next k hk =>
    have hwaits := List.find?_some hk
    split
    · next a ha =>
      have hjk : j ≠ k := by
        rintro rfl
        obtain rfl : e = a := Option.some.inj (he.symm.trans ha)
        rw [he] at hwaits
        simp only [hw] at hwaits
        split at hwaits <;> simp at hwaits
      split
      · exact getElem?_fuseInto he hjk (sameWait_eq_false hw a)
      · exact he
    · exact he

theorem getElem?_fuseRegang (live : BitVec 8) : (fuseRegang live es)[j]? = some e := by
  unfold fuseRegang
  split
  · split
    · next k a hk _ =>
      have hjk : j ≠ k := by
        rintro rfl
        obtain ⟨hlt, hin, -⟩ := List.findIdx?_eq_some_iff_getElem.mp hk
        rw [(List.getElem?_eq_some_iff.mp he).2, inRegang_eq_false hw] at hin
        cases hin
      exact getElem?_fuseInto he hjk (inRegang_eq_false hw)
    · exact he
  · exact he

end

theorem getElem?_settleSplit (hl : ∀ l ∈ e.levels.head?, l.rcv ≠ e.pc) (exited : BitVec 8) (n : Nat) {j : Nat}
    {es : List SplitEntry} (he : es[j]? = some e) : (settleSplit exited n es)[j]? = some e := by
  induction n generalizing es with
  | zero => exact he
  | succ n ih =>
    refine ih (getElem?_fuseOnce hw ?_ exited)
    rw [List.getElem?_map, he, Option.map_some, arriveEntry_away hl]

/-- A fragment that runs away from its reconvergence address stays as it is when its gang's split table settles. -/
theorem getElem?_split_settleEntries (hl : ∀ l ∈ e.levels.head?, l.rcv ≠ e.pc) (h : Hdr) {g : Gang} {j : Nat}
    (he : g.split[j]? = some e) : (settleEntries h g).split[j]? = some e := by
  simp only [settleEntries]
  exact getElem?_settleSplit hw hl g.exited 16 (getElem?_fuseRegang hw he (liveSlices h g))

end

/-! ## Sleep (17 R268) -/

theorem getGang_of_getPanel {s : State} {pid gi : Nat} {p : Panel} {g : Gang} (hp : getPanel s pid = some p)
    (hg : p.gangs[gi]? = some g) : getGang s pid gi = some g := by
  rw [getGang, hp, Option.bind_some, hg]

/-- A gang whose fragment in entry `ei` goes on after its SLEEP, which takes 12 bytes. -/
def wakeEntry (ei : Nat) (g : Gang) : Gang := { g with split := modifyAt (releaseEntry 12) g.split ei }

/-- The state in which a fragment goes on after its SLEEP, before the active set is brought up to date. -/
def wakeFragment (s : State) (pid gi ei : Nat) : State :=
  updPanel (updGang s pid gi (wakeEntry ei)) pid fun q => { q with gangs := modifyAt (settleEntries q.hdr) q.gangs gi }

theorem getGang_wakeFragment {s : State} {pid gi ei : Nat} {p : Panel} {g : Gang} (hp : getPanel s pid = some p)
    (hg : p.gangs[gi]? = some g) :
    getGang (wakeFragment s pid gi ei) pid gi = some (settleEntries p.hdr (wakeEntry ei g)) := by
  rw [getGang, wakeFragment, getPanel_updPanel_same, getPanel_updGang, hp]
  · simp only [Option.map_some, Option.bind_some, getElem?_modifyAt, if_true, hg]
  · exact fun _ => rfl

section
variable {s : State} {pid gi ei : Nat} {p : Panel} {g : Gang} {e : SplitEntry} (hp : getPanel s pid = some p)
  (hg : p.gangs[gi]? = some g) (he : g.split[ei]? = some e)
include hp hg he

theorem execSleepWake_eq (hi : p.issues = true) (hv : e.valid = true) (hb : e.blk = some .sleep) (hk : e.wake ≤ p.clk) :
    execSleepWake pid gi ei s = .next (refreshCore (wakeFragment s pid gi ei) p.core) := by
  simp only [execSleepWake, hp, getGang_of_getPanel hp hg, Option.bind_some, he]
  exact if_pos (by simp [hi, hv, hb, hk])

theorem execSleepWake_wakes (hi : p.issues = true) (hv : e.valid = true) (hb : e.blk = some .sleep) (hk : e.wake ≤ p.clk)
    (hw : e.wait = .run) (hl : ∀ l ∈ e.levels.head?, l.rcv ≠ e.pc + 12) :
    ∃ t h, execSleepWake pid gi ei s = .next t ∧ getGang t pid gi = some h ∧
      h.split[ei]? = some { e with blk := none, pc := e.pc + 12 } := by
  have hentry : (wakeEntry ei g).split[ei]? = some (releaseEntry 12 e) := by
    rw [wakeEntry, getElem?_modifyAt, if_pos rfl, he, Option.map_some]
  have hsplit := split_refreshCore (wakeFragment s pid gi ei) p.core pid gi
  rw [getGang_wakeFragment hp hg, Option.map_some] at hsplit
  obtain ⟨h, hget, hh⟩ := Option.map_eq_some_iff.mp hsplit
  refine ⟨_, h, execSleepWake_eq hp hg he hi hv hb hk, hget, ?_⟩
  rw [hh]
  exact getElem?_split_settleEntries (e := releaseEntry 12 e) hw hl p.hdr hentry

end

/-! ## Retirement (06 R108, 13 R222) -/

@[simp] theorem getPanel_clearPositions (s : State) (core pid q : Nat) :
    getPanel (clearPositions s core pid) q = getPanel s q := rfl

/-- A panel whose run is over: it retires, and is drained no longer. -/
def Panel.retired (p : Panel) : Panel := { p with life := .retiring, drain := none }

theorem writeParts_retired (p : Panel) : writeParts p.retired = writeParts p := rfl

/-- One member of a victim retires and leaves the active set. -/
def retireMember (s : State) (m : Panel) : State :=
  clearPositions (updPanel s m.pid Panel.retired) m.core m.pid

theorem getPanel_retireMember (s : State) (m : Panel) (q : Nat) :
    getPanel (retireMember s m) q = (getPanel s q).map fun p => if p.pid = m.pid then p.retired else p :=
  getPanel_updPanel s m.pid q _ fun _ => rfl

theorem getPanel_foldl_retireMember (ms : List Panel) (s : State) (q : Nat) :
    getPanel (ms.foldl retireMember s) q =
      (getPanel s q).map fun p => if ∃ m ∈ ms, m.pid = p.pid then p.retired else p := by
  induction ms generalizing s with
  | nil => simp
  | cons m ms ih =>
    rw [List.foldl_cons, ih, getPanel_retireMember, Option.map_map]
    congr 1
    funext p
    by_cases h : p.pid = m.pid
    · have hm : ∃ x ∈ m :: ms, x.pid = p.pid := ⟨m, List.mem_cons_self, h.symm⟩
      rw [Function.comp_apply, if_pos h, if_pos hm]
      exact ite_self p.retired
    · simp [h, Ne.symm h]

/-- Members that retire keep every command and the next number. -/
theorem foldl_retireMember_cmds (ms : List Panel) (s : State) :
    (ms.foldl retireMember s).cmds = s.cmds ∧ (ms.foldl retireMember s).nextId = s.nextId := by
  induction ms generalizing s with
  | nil => exact ⟨rfl, rfl⟩
  | cons m ms ih => exact ih _

section
variable {s : State} {pid k : Nat} {p : Panel} (hp : getPanel s pid = some p)
include hp

theorem issueWriteBack_none (hk : (writeParts p)[k]? = none) : issueWriteBack s pid k = s := by
  simp only [issueWriteBack, hp, hk]

theorem issueWriteBack_some {kind : CmdKind} (hk : (writeParts p)[k]? = some kind) :
    issueWriteBack s pid k = newCmd s (.writeBack pid k) p.core .copy kind p.hdr.asid fun c =>
      { c with alph := p.alph, fail := partRefusal c.id kind } := by
  simp only [issueWriteBack, hp, hk]

end

@[simp] theorem getPanel_newCmd (s : State) (o : Owner) (core : Nat) (cls : Cls) (k : CmdKind) (asid : Nat) (f : Cmd → Cmd)
    (q : Nat) : getPanel (newCmd s o core cls k asid f) q = getPanel s q := rfl

/-- Issuing a part of a write-back changes no panel. -/
@[simp] theorem getPanel_issueWriteBack (s : State) (pid k q : Nat) :
    getPanel (issueWriteBack s pid k) q = getPanel s q := by
  cases hp : getPanel s pid with
  | none => simp only [issueWriteBack, hp]
  | some p =>
    cases hk : (writeParts p)[k]? with
    | none => rw [issueWriteBack_none hp hk]
    | some kind => rw [issueWriteBack_some hp hk, getPanel_newCmd]

/-- A launch hears of the first failure that no instruction has consumed (13 R222). -/
def noteFailure (s : State) (p : Panel) : State :=
  match retireFailure (members s p) with
  | some f => failLaunch s p.launch p.idx (if f.checksum then none else some f.status)
  | none => s

theorem noteFailure_keeps (s : State) (p : Panel) : (noteFailure s p).panels = s.panels ∧
    (noteFailure s p).cmds = s.cmds ∧ (noteFailure s p).nextId = s.nextId := by
  unfold noteFailure
  split <;> exact ⟨rfl, rfl, rfl⟩

theorem getPanel_of_mem_members {s : State} {pid : Nat} {p m : Panel} (hp : getPanel s pid = some p)
    (hm : m ∈ members s p) : getPanel s m.pid = some m := by
  rw [members, List.mem_cons, Option.mem_toList] at hm
  obtain rfl | hm := hm
  · rw [getPanel_pid hp, hp]
  · obtain ⟨q, -, hq⟩ := Option.bind_eq_some_iff.mp hm
    rw [getPanel_pid hq, hq]

/-- The state in which the write-back of a panel begins: its failure is noted, and its members retire. -/
def retireMembers (s : State) (p : Panel) : State := (members s p).foldl retireMember (noteFailure s p)

theorem getPanel_retireMembers {s : State} {pid : Nat} {p m : Panel} (hp : getPanel s pid = some p)
    (hm : m ∈ members s p) : getPanel (retireMembers s p) m.pid = some m.retired := by
  have hn : getPanel (noteFailure s p) m.pid = some m := by
    rw [getPanel, (noteFailure_keeps s p).1]
    exact getPanel_of_mem_members hp hm
  rw [retireMembers, getPanel_foldl_retireMember, hn, Option.map_some, if_pos ⟨m, hm, rfl⟩]

theorem cmds_retireMembers (s : State) (p : Panel) :
    (retireMembers s p).cmds = s.cmds ∧ (retireMembers s p).nextId = s.nextId := by
  obtain ⟨hc, hn⟩ := foldl_retireMember_cmds (members s p) (noteFailure s p)
  obtain ⟨-, hc', hn'⟩ := noteFailure_keeps s p
  exact ⟨hc.trans hc', hn.trans hn'⟩

section
variable {s : State} {pid : Nat} {p : Panel} (hp : getPanel s pid = some p)
  (hl : p.primary = true ∨ p.hdr.redundant = false)
include hp hl

theorem execPanelRetire_eq (hx : ∀ m ∈ members s p, m.issues = true ∧ allExited m = true)
    (hc : noCommands s (members s p) = true) :
    execPanelRetire pid s = .next (issueWriteBack (retireMembers s p) pid 0) := by
  have hg : ((p.primary || !p.hdr.redundant) && (members s p).all (fun m => m.issues && allExited m)
      && noCommands s (members s p)) = true := by
    simpa [hc, hl] using hx
  simp only [execPanelRetire, hp]
  exact if_pos hg

theorem execPanelRetire_retires (hx : ∀ m ∈ members s p, m.issues = true ∧ allExited m = true)
    (hc : noCommands s (members s p) = true) : ∃ t, execPanelRetire pid s = .next t ∧
      (∀ m ∈ members s p, (getPanel t m.pid).map (fun q => (q.life, q.drain)) = some (.retiring, none)) ∧
      (writeParts p = [] → t.cmds = s.cmds) ∧
      (∀ kind ks, writeParts p = kind :: ks → ∃ c, t.cmds = s.cmds ++ [c] ∧ c.owner = .writeBack pid 0 ∧
        c.kind = kind ∧ c.id = s.nextId) := by
  have hself : getPanel (retireMembers s p) pid = some p.retired := by
    have h := getPanel_retireMembers hp (List.mem_cons_self : p ∈ members s p)
    rwa [getPanel_pid hp] at h
  obtain ⟨hcmds, hnext⟩ := cmds_retireMembers s p
  refine ⟨_, execPanelRetire_eq hp hl hx hc, fun m hm => ?_, fun hw => ?_, fun kind ks hw => ?_⟩
  · rw [getPanel_issueWriteBack, getPanel_retireMembers hp hm]
    rfl
  · rw [issueWriteBack_none hself (by rw [writeParts_retired, hw]; rfl), hcmds]
  · rw [issueWriteBack_some hself (by rw [writeParts_retired, hw]; rfl)]
    exact ⟨_, congrArg (· ++ _) hcmds, rfl, rfl, hnext⟩

theorem execPanelWritebackDone_ends (hr : p.life = .retiring) (hf : failedMove s pid = none)
    (hc : noCommands s [p] = true) : execPanelWritebackDone pid s = .next (endMembers s p) := by
  have hg : ¬ (p.life != .retiring || !(p.primary || !p.hdr.redundant)) = true := by
    simpa [hr, or_iff_not_imp_left] using hl
  simp only [execPanelWritebackDone, hp, if_neg hg, hf, if_pos hc]

end

/-! ## Victims: the end of a drain, saves and flushes (06 R112 to R115) -/

section
variable {s : State} {pid : Nat} {p : Panel} (hp : getPanel s pid = some p)
include hp

theorem execDrainVictimTimeout_chooses {due : Nat} (hd : p.drain = some (some due)) (hl : p.life = .running)
    (hs : due ≤ s.fs) : execDrainVictimTimeout pid s =
      .next (carryOut s p (latBound s p.hdr.part) (choose s p (latBound s p.hdr.part) true).1 true) := by
  simp [execDrainVictimTimeout, hp, hd, hl, hs]

theorem execPanelSaveLining_eq (hl : p.leaving = .toLining) {t : State} (ht : saveVictim s p = some t) :
    execPanelSaveLining pid s = .next t := by
  simp only [execPanelSaveLining, hp, Option.bind_some, if_pos hl, ht]

theorem execPanelSaveMem_eq (hl : p.leaving ≠ .toLining) {t : State} (ht : saveVictim s p = some t) :
    execPanelSaveMem pid s = .next t := by
  simp only [execPanelSaveMem, hp, Option.bind_some, if_neg hl, ht]

theorem execPanelFlush_requeues (hl : p.life = .running) (hf : ∀ m ∈ members s p, m.leaving = .flush)
    (hq : runQuiet s (members s p) = true) : execPanelFlush pid s =
      .next ((members s p).foldl (fun t m => refreshCore t m.core) (requeue s p)) := by
  have hg : (p.life == .running && (members s p).all (fun m => m.leaving = .flush) && runQuiet s (members s p)) = true := by
    simpa [hl, hq] using hf
  simp only [execPanelFlush, hp]
  exact if_pos hg

theorem saveMember_toLining (hv : p.leaving = .toLining) : saveMember s p = savedAs s p .savedLining := by
  simp [saveMember, getPanel_pid hp, hp, hv]

theorem saveMember_toMem {slot : Nat} (hv : p.leaving = .toMem slot) : saveMember s p = saveToMem s p slot := by
  simp [saveMember, getPanel_pid hp, hp, hv]

end

theorem saveVictim_ready {s : State} {p : Panel} (h : ∀ m ∈ members s p, saveReady s m = true) :
    saveVictim s p = some ((members s p).foldl (fun t m => refreshCore t m.core) ((members s p).foldl saveMember s)) :=
  if_pos (List.all_eq_true.mpr h)

/-- A panel without a partner is saved alone. -/
theorem saveVictim_alone {s : State} {p : Panel} (hm : members s p = [p]) (hr : saveReady s p = true) :
    saveVictim s p = some (refreshCore (saveMember s p) p.core) := by
  rw [saveVictim_ready (by simpa [hm] using hr), hm]
  rfl

theorem saveReady_toLining {s : State} {p : Panel} (hl : p.life = .running) (hv : p.leaving = .toLining) :
    saveReady s p = true := by
  simp only [saveReady, hl, hv]
  rfl

theorem saveReady_toMem {s : State} {p : Panel} {slot : Nat} (hl : p.life = .running) (hv : p.leaving = .toMem slot)
    (hc : (s.cmds.filter fun c => c.ofPanel p.pid).all (fun c => c.stuck s) = true) : saveReady s p = true := by
  simp only [saveReady, hl, hv, hc]
  rfl

/-- A save whose image was written leaves its panel in the slot (06 R114). Unfolded as a function, as for
`controls_saveToMem`: applied, the kernel would evaluate the test of `writeImage`. -/
theorem saveToMem_written {s u : State} {p : Panel} {slot : Nat}
    (hw : writeImage ((s.cmds.filter fun c => c.ofPanel p.pid).foldl withdrawCmd s) p slot = (none, u)) :
    saveToMem s p slot = dropCode (savedAs u p (.savedMem slot)) (p.core / 16) p.hdr.asid p.hdr.kaddr := by
  generalize hf : saveToMem = f
  delta saveToMem at hf
  subst hf
  beta_reduce
  rw [hw]

section
variable {s : State} {pid : Nat} {p : Panel} (hp : getPanel s pid = some p) (hm : members s p = [p])
include hp hm

theorem execPanelSaveLining_alone (hv : p.leaving = .toLining) (hl : p.life = .running) :
    execPanelSaveLining pid s = .next (refreshCore (savedAs s p .savedLining) p.core) := by
  rw [execPanelSaveLining_eq hp hv (saveVictim_alone hm (saveReady_toLining hl hv)), saveMember_toLining hp hv]

theorem execPanelSaveMem_alone {slot : Nat} {u : State} (hv : p.leaving = .toMem slot) (hl : p.life = .running)
    (hc : (s.cmds.filter fun c => c.ofPanel pid).all (fun c => c.stuck s) = true)
    (hw : writeImage ((s.cmds.filter fun c => c.ofPanel pid).foldl withdrawCmd s) p slot = (none, u)) :
    execPanelSaveMem pid s = .next (refreshCore
      (dropCode (savedAs u p (.savedMem slot)) (p.core / 16) p.hdr.asid p.hdr.kaddr) p.core) := by
  obtain rfl := getPanel_pid hp
  rw [execPanelSaveMem_eq hp (by simp [hv]) (saveVictim_alone hm (saveReady_toMem hl hv hc)), saveMember_toMem hp hv,
    saveToMem_written hw]

end

end Sys2Proof.Machine

namespace Sys2Proof.Claims

open Sys2Proof Sys2Proof.Machine

/-- Settles O51: each event of a panel's life by the rule of its own for the case that the clause names. -/
theorem schedulerEvents : Obligations.SchedulerEvents := by
  intro part pid core pos gang entry window s
  refine ⟨fun _ _ _ _ => execDispatch_places, fun h => if_pos h, fun _ => execActiveSetSwap_free,
    fun _ _ hr => execActiveSetSwap_yields hr, fun p hp => ?_⟩
  exact ⟨execStagingComplete_runs hp, fun _ => execStagingComplete_fails hp, execCodeFetch_begins hp,
    fun _ _ => execCodeFetch_fills hp, fun _ _ => execSleepWake_wakes hp, execPanelRetire_retires hp,
    execPanelWritebackDone_ends hp, fun _ => execDrainVictimTimeout_chooses hp, execPanelSaveLining_alone hp,
    fun _ _ hm => execPanelSaveMem_alone hp hm,
    fun h => ⟨fun hl => execPanelSaveLining_eq hp hl (saveVictim_ready h),
      fun hl => execPanelSaveMem_eq hp hl (saveVictim_ready h)⟩,
    execPanelFlush_requeues hp⟩

end Sys2Proof.Claims
end

section
/-! CLAIM. The control registers at reset (O57). -/

namespace Sys2Proof.Claims

open Sys2Proof Sys2Proof.Machine

/-- Settles O57: the reset state is in range, which the invariant of O56 needs as well. -/
theorem controlsAtReset : Obligations.ControlsAtReset := controlsOk_reset

end Sys2Proof.Claims
end

section
/-! CLAIM. A step runs the instruction that the bytes at the PC decode to (O52). -/

namespace Sys2Proof.Machine

open Sys2Proof

/-- A core's position that offers an instruction: its gang and fragment stand in the state, and the instruction is the one
that the fragment's window holds at its PC. -/
theorem candidateAt_spec {s : State} {core k cls : Nat} {u : Issuer} {i : Instr} (h : candidateAt s core k = some (u, i, cls)) :
    ∃ p g e w, getPanel s u.pid = some p ∧ getGang s u.pid u.gang = some g ∧ g.split[u.entry]? = some e ∧
      windowOf s p e.pc = some w ∧ i = instrAt w e.pc := by
  unfold candidateAt at h
  dsimp only at h
  split at h
  · next q _ =>
    split at h
    · cases h
    · split at h
      · next p g hp hg =>
        split at h
        · cases h
        · split at h
          · cases h
          · next n _ =>
            split at h
            · cases h
            · next e he =>
              split at h
              · cases h
              · next w hw =>
                split at h
                · cases h
                  exact ⟨p, g, e, w, hp, hg, he, hw, rfl⟩
                · cases h
      · cases h
  · cases h

/-- What the scan of a core issues is what one of its positions offers. -/
theorem nextIssue_spec {s : State} {core k : Nat} {u : Issuer} {i : Instr} (h : nextIssue s core = some (k, u, i)) :
    ∃ p g e w, getPanel s u.pid = some p ∧ getGang s u.pid u.gang = some g ∧ g.split[u.entry]? = some e ∧
      windowOf s p e.pc = some w ∧ i = instrAt w e.pc := by
  unfold nextIssue at h
  split at h
  · cases h
  · obtain ⟨n, -, hn⟩ := List.exists_of_findSome?_eq_some h
    obtain ⟨⟨v, j, cls⟩, hc, he⟩ := Option.map_eq_some_iff.mp hn
    cases he
    exact candidateAt_spec hc

/-- A step issues what the scan reaches, when the agenda names the core. -/
theorem step_issue {s : State} {core k : Nat} {cs : List Choice} {u : Issuer} {i : Instr} (ha : s.agenda = .issue core :: cs)
    (hn : nextIssue { s with agenda := cs } core = some (k, u, i)) :
    step s = noting s (exec i { s with agenda := cs, issuer := some u }) := by
  simp only [step, ha, perform, act, issueNext, hn]
  rfl

theorem step_event {s : State} {i : Instr} {cs : List Choice} (ha : s.agenda = .ev i :: cs) :
    step s = noting s (exec i { s with agenda := cs }) := by
  simp only [step, ha, perform, act]
  rfl

theorem noteDelivered_of_no_posted {s : State} (h : s.links.posted = []) (t : State) : noteDelivered s t = t := by
  simp [noteDelivered, deliveredCores, h, distinct]

theorem instrAt_of_crosses {w : List Byte} {pc : Word} (h : crosses pc (lengthAt (codeAt w pc)) = true) :
    instrAt w pc = .unassignedEncoding := if_pos h

theorem instrAt_of_decode {w rest : List Byte} {pc : Word} {j : Instr} (hd : decode (codeAt w pc) = .ok (j, rest))
    (hc : crosses pc (lengthAt (codeAt w pc)) = false) : instrAt w pc = j := by
  simp [instrAt, hc, hd]

theorem instrAt_of_refused {w : List Byte} {pc : Word} {e : DecodeError} (hd : decode (codeAt w pc) = .error e) :
    instrAt w pc = .unassignedEncoding := by
  simp [instrAt, hd]

end Sys2Proof.Machine

namespace Sys2Proof.Claims

open Sys2Proof Sys2Proof.Machine

/-- Settles O52: what a scan issues is what the window at a fragment's PC decodes to. -/
theorem stepRunsDecoded : Obligations.StepRunsDecoded := by
  refine ⟨fun s core cs k u i ha hn => ⟨step_issue ha hn, ?_⟩, fun s i cs => step_event,
    fun s t => ⟨rfl, fun h => noteDelivered_of_no_posted h t⟩, fun s e => rfl, fun w pc e => instrAt_of_refused,
    fun w pc => instrAt_of_crosses⟩
  obtain ⟨p, g, e, w, hp, hg, he, hw, rfl⟩ := nextIssue_spec hn
  exact ⟨p, g, e, w, hp, hg, he, hw, rfl, fun j rest => instrAt_of_decode⟩

end Sys2Proof.Claims
end

section
/-! CLAIM. Votes and reductions count and combine active lanes only (O18). -/

namespace Sys2Proof.Machine

open Sys2Proof

theorem mem_lanes {x : Ctx} {l : Nat} : l ∈ x.lanes ↔ l < 32 ∧ x.on l = true := by
  simp [Ctx.lanes]

section
variable {x y : Ctx} {a : Reg} (ha : x.act = y.act)
include ha

theorem on_congr (l : Nat) : x.on l = y.on l := by rw [Ctx.on, Ctx.on, ha]

theorem lanes_congr : x.lanes = y.lanes :=
  List.filter_congr fun l _ => on_congr ha l

variable (hv : ∀ l, x.on l = true → x.v a l = y.v a l)
include hv

/-- VOTE reads no lane but the active ones. -/
theorem vote_congr (k : VoteKind) : x.vote k a = y.vote k a := by
  have hset : (x.lanes.filter fun l => x.v a l != 0) = y.lanes.filter fun l => y.v a l != 0 := by
    rw [← lanes_congr ha]
    exact List.filter_congr fun l hl => by rw [hv l (mem_lanes.mp hl).2]
  have hmask : (x.maskOf fun l => x.v a l != 0) = y.maskOf fun l => y.v a l != 0 := by
    simp only [Ctx.maskOf]
    congr 2
    funext l
    rw [← on_congr ha]
    cases hon : x.on l.val with
    | false => rfl
    | true => rw [hv l hon]
  simp only [Ctx.vote]
  rw [hset, hmask, lanes_congr ha]

/-- A reduction reads no lane but the active ones. -/
theorem foldLanes_congr (hf : x.g.fpcsr = y.g.fpcsr) (t : LTy) (op : RedOp) : x.foldLanes t op a = y.foldLanes t op a := by
  unfold Ctx.foldLanes
  rw [← lanes_congr ha, ← hf]
  exact List.foldl_ext _ _ _ fun f l hl => by rw [hv l (mem_lanes.mp hl).2]

end

section
variable {x : Ctx} (h : x.act = 0)
include h

theorem on_of_no_lane (l : Nat) : x.on l = false := by simp [Ctx.on, h]

theorem lanes_of_no_lane : x.lanes = [] := by
  simp [Ctx.lanes, on_of_no_lane h]

theorem vote_of_no_lane (k : VoteKind) (a : Reg) : x.vote k a = 0 := by
  cases k with
  | ballot =>
    apply BitVec.eq_of_getLsbD_eq
    intro i hi
    simp [Ctx.vote, Ctx.maskOf, on_of_no_lane h, BitVec.getLsbD_ofFnLE]
  | any | all | count => simp [Ctx.vote, lanes_of_no_lane h]

theorem foldLanes_of_no_lane (t : LTy) (op : RedOp) (a : Reg) :
    x.foldLanes t op a = ⟨[], redIdentity t op, Counts.zero, true⟩ := by
  simp [Ctx.foldLanes, lanes_of_no_lane h]

end

end Sys2Proof.Machine

namespace Sys2Proof.Claims

open Sys2Proof Sys2Proof.Machine

/-- Settles O18: a vote and a reduction range over the list of active lanes, which is empty when none is active. -/
theorem activeLanesOnly : Obligations.ActiveLanesOnly := by
  intro c k t op d a s
  refine ⟨completesWith_of (body := fun x u => .ok (x.setS d (fun _ => x.vote k a) u)) rfl fun _ _ => rfl,
    completesWith_of (body := fun x u => .ok (x.count (x.foldLanes t op a).c
      (x.setV d (fun _ => (x.foldLanes t op a).value t op) u))) rfl fun _ _ => rfl,
    fun x y ha hf hv => ⟨vote_congr ha hv k, foldLanes_congr ha hv hf t op⟩, fun x h => ?_, rfl, rfl, rfl, rfl, rfl⟩
  rw [foldLanes_of_no_lane h]
  exact ⟨vote_of_no_lane h k a, rfl, by simp [Fold.value]⟩

end Sys2Proof.Claims
end

section
/-! CLAIM. The structured-nesting instructions (O6). -/

namespace Sys2Proof.Machine

open Sys2Proof

theorem nestOf_lt (x : Ctx) (l : Nat) : x.nestOf l < 64 := (vget x.g.nest l 0).isLt

/-- Counters that stay within 63 change by the rule. -/
theorem nesting_ok {x : Ctx} {f : Nat → Nat → Nat} (h : ∀ l ∈ x.fragLanes, f l (x.nestOf l) ≤ 63) (s : State) :
    x.nesting f s = .ok (x.updG (x.nested fun l => f l (x.nestOf l)) s) := by
  have hall : (x.fragLanes.all fun l => decide (f l (x.nestOf l) ≤ 63)) = true := by simpa using h
  rw [Ctx.nesting, hall]
  rfl

/-- A counter that would pass 63 traps. -/
theorem nesting_ovf {x : Ctx} {f : Nat → Nat → Nat} (h : ∃ l ∈ x.fragLanes, 63 < f l (x.nestOf l)) (s : State) :
    x.nesting f s = .error (.trap (mkTrap cNestOvf 0)) := by
  have hall : (x.fragLanes.all fun l => decide (f l (x.nestOf l) ≤ 63)) = false := by
    simpa [Nat.not_le] using h
  rw [Ctx.nesting, hall]
  rfl

/-- An instruction of Table 7-2 runs the rule that the table gives it. -/
theorem exec_of_nestOp {i : Instr} {f : Ctx → Nat → Nat → Nat} (h : nestOp i = some f) (s : State) :
    exec i s = runInstr i (fun x => x.nesting (f x)) s := by
  unfold nestOp at h
  split at h <;> cases h <;> rfl

/-- What the body of ENDLOOP does (07 Table 7-2). -/
def endloopBody (x1 : Word) (x : Ctx) (t : State) : Body :=
  if x.fragLanes.any fun l => decide (x.nestOf l ≤ 1) then
    (x.nesting (fun _ n => if n = 1 then 0 else n) t).map (x.jump (x.pc + x1))
  else x.nesting (fun _ n => n - 2) t

theorem exec_endloop (c : Ctl) (x1 : Word) (s : State) : exec (.endloop c x1) s = runInstr (.endloop c x1) (endloopBody x1) s :=
  rfl

theorem endloopBody_again {x : Ctx} (h : ∃ l ∈ x.fragLanes, x.nestOf l ≤ 1) (x1 : Word) (t : State) :
    endloopBody x1 x t =
      .ok (x.jump (x.pc + x1) (x.updG (x.nested fun l => if x.nestOf l = 1 then 0 else x.nestOf l) t)) := by
  have hbound : ∀ l ∈ x.fragLanes, (if x.nestOf l = 1 then 0 else x.nestOf l) ≤ 63 := fun l _ => by
    have := nestOf_lt x l
    split <;> omega
  rw [endloopBody, if_pos (by simpa using h), nesting_ok (f := fun _ n => if n = 1 then 0 else n) hbound]
  rfl

theorem endloopBody_leaves {x : Ctx} (h : ∀ l ∈ x.fragLanes, 2 ≤ x.nestOf l) (x1 : Word) (t : State) :
    endloopBody x1 x t = .ok (x.updG (x.nested fun l => x.nestOf l - 2) t) := by
  have hbound : ∀ l ∈ x.fragLanes, x.nestOf l - 2 ≤ 63 := fun l _ => by
    have := nestOf_lt x l
    omega
  have hno : ¬ (x.fragLanes.any fun l => decide (x.nestOf l ≤ 1)) = true := by
    simpa [Nat.not_le, Nat.lt_iff_add_one_le] using h
  rw [endloopBody, if_neg hno, nesting_ok (f := fun _ n => n - 2) hbound]

end Sys2Proof.Machine

namespace Sys2Proof.Claims

open Sys2Proof Sys2Proof.Machine

/-- Settles O6: each instruction of Table 7-2 runs its rule on the counters of its lanes, which the check of NEST_OVF guards. -/
theorem nesting : Obligations.Nesting := by
  intro c a k x1 s
  refine ⟨fun i f hf => ⟨completesWhen_of (exec_of_nestOp hf s) fun x _ _ h => nesting_ok h _,
    trapsWhen_of (exec_of_nestOp hf s) fun x _ _ h => nesting_ovf h _⟩, rfl, rfl, rfl, rfl, rfl, rfl,
    completesWhen_of (exec_endloop c x1 s) fun x _ _ h => endloopBody_again h x1 _,
    completesWhen_of (exec_endloop c x1 s) fun x _ _ h => endloopBody_leaves h x1 _⟩

end Sys2Proof.Claims
end

section
/-! SUPPORT. Lanes that a seam holds for a gang, and what releases and settled split tables keep of a panel (07 R124, R125,
R134 to R137). -/

namespace Sys2Proof.Machine

open Sys2Proof

/-! ## The lanes that a seam holds for a gang -/

theorem find?_filter_ne (xs : List (Nat × Word)) (gi : Nat) :
    (xs.filter fun x => x.1 != gi).find? (fun x => x.1 == gi) = none := by
  simp [List.find?_eq_none]

@[simp] theorem lanesIn_setLanes (xs : List (Nat × Word)) (gi : Nat) (w : Word) : lanesIn (setLanes xs gi w) gi = w := by
  simp only [lanesIn, setLanes]
  split
  · next h => rw [find?_filter_ne, h]; rfl
  · rw [List.find?_append, find?_filter_ne]; simp

theorem lanesIn_setLanes_ne (xs : List (Nat × Word)) {gi gj : Nat} (w : Word) (h : gj ≠ gi) :
    lanesIn (setLanes xs gi w) gj = lanesIn xs gj := by
  have hrest : (xs.filter fun x => x.1 != gi).find? (fun x => x.1 == gj) = xs.find? fun x => x.1 == gj := by
    rw [List.find?_filter]
    congr 1
    funext x
    by_cases hx : x.1 = gj <;> simp [hx, h]
  simp only [lanesIn, setLanes]
  split
  · rw [hrest]
  · simp [List.find?_append, hrest, Ne.symm h]

/-! ## Fragments that come together -/

/-- A property of split-table entries that stays when fragments arrive and when they come together. -/
structure KeptBySettling (P : SplitEntry → Prop) : Prop where
  arrives : ∀ e, P e → P (arriveEntry e)
  empty : P entry0
  fuses : ∀ (es : List SplitEntry) (f : SplitEntry → Bool) (d : SplitEntry), (∀ e ∈ es, P e) →
    (∀ e, f e = true → e.valid = true) → d.blk = none → d.slices = unionOf f es → P d

theorem mem_fuseInto {f : SplitEntry → Bool} {a e : SplitEntry} {k : Nat} {es : List SplitEntry}
    (h : e ∈ fuseInto f a k es) : e = a ∨ e = entry0 ∨ e ∈ es := by
  obtain ⟨j, hj, rfl⟩ := List.mem_mapIdx.mp h
  split
  · exact .inl rfl
  · split
    · exact .inr (.inl rfl)
    · exact .inr (.inr (List.getElem_mem hj))

theorem valid_of_sameWait {a e : SplitEntry} (h : sameWait a e = true) : e.valid = true := by
  simp only [sameWait, Bool.and_eq_true] at h
  exact h.1.1.1

theorem valid_of_inRegang {e : SplitEntry} (h : inRegang e = true) : e.valid = true := by
  simp only [inRegang, Bool.and_eq_true] at h
  exact h.1

namespace KeptBySettling

variable {P : SplitEntry → Prop} (hP : KeptBySettling P)
include hP

theorem fuseInto {f : SplitEntry → Bool} {a : SplitEntry} {k : Nat} {es : List SplitEntry} (h : ∀ e ∈ es, P e) (ha : P a) :
    ∀ e ∈ Machine.fuseInto f a k es, P e := by
  intro e he
  rcases mem_fuseInto he with rfl | rfl | he
  · exact ha
  · exact hP.empty
  · exact h e he

theorem fuseOnce (exited : BitVec 8) {es : List SplitEntry} (h : ∀ e ∈ es, P e) : ∀ e ∈ Machine.fuseOnce exited es, P e := by
  unfold Machine.fuseOnce
  split
  · exact h
  · split
    · split
      · exact hP.fuseInto h (hP.fuses es _ _ h (fun _ => valid_of_sameWait) rfl rfl)
      · exact h
    · exact h

theorem fuseRegang (live : BitVec 8) {es : List SplitEntry} (h : ∀ e ∈ es, P e) : ∀ e ∈ Machine.fuseRegang live es, P e := by
  unfold Machine.fuseRegang
  split
  · next hlive =>
    simp only [Bool.and_eq_true, beq_iff_eq] at hlive
    split
    · exact hP.fuseInto h (hP.fuses es _ _ h (fun _ => valid_of_inRegang) rfl hlive.2.symm)
    · exact h
  · exact h

theorem settleSplit (exited : BitVec 8) (n : Nat) {es : List SplitEntry} (h : ∀ e ∈ es, P e) :
    ∀ e ∈ Machine.settleSplit exited n es, P e := by
  induction n generalizing es with
  | zero => exact h
  | succ n ih =>
    refine ih (hP.fuseOnce exited ?_)
    simpa using fun e he => hP.arrives e (h e he)

theorem settleEntries (hdr : Hdr) {g : Gang} (h : ∀ e ∈ g.split, P e) : ∀ e ∈ (Machine.settleEntries hdr g).split, P e := by
  simp only [Machine.settleEntries]
  exact hP.settleSplit g.exited 16 (hP.fuseRegang _ h)

end KeptBySettling

theorem arriveEntry_eq (e : SplitEntry) : ∃ w, arriveEntry e = { e with wait := w } := by
  unfold arriveEntry
  split
  · split
    · exact ⟨_, rfl⟩
    · exact ⟨e.wait, rfl⟩
  · exact ⟨e.wait, rfl⟩

/-- No fragment waits as `b`. -/
theorem keptBySettling_blk (b : Block) : KeptBySettling fun e => e.valid = true → e.blk ≠ some b where
  arrives e h := by
    obtain ⟨w, hw⟩ := arriveEntry_eq e
    rw [hw]
    exact h
  empty h := by cases h
  fuses es f d _ _ hd _ _ := by simp [hd]

theorem foldl_or_apart {sl : BitVec 8} {es : List SplitEntry} (h : ∀ e ∈ es, e.slices &&& sl = 0) {u : BitVec 8}
    (hu : u &&& sl = 0) : es.foldl (fun u e => u ||| e.slices) u &&& sl = 0 := by
  induction es generalizing u with
  | nil => exact hu
  | cons a as ih =>
    refine ih (fun e he => h e (List.mem_cons_of_mem a he)) ?_
    have ha := h a List.mem_cons_self
    rw [BitVec.and_comm, BitVec.and_or_distrib_left, BitVec.and_comm, hu, BitVec.and_comm, ha]
    rfl

/-- No fragment holds a slice of `sl`. -/
theorem keptBySettling_apart (sl : BitVec 8) : KeptBySettling fun e => e.valid = true → e.slices &&& sl = 0 where
  arrives e h := by
    obtain ⟨w, hw⟩ := arriveEntry_eq e
    rw [hw]
    exact h
  empty h := by cases h
  fuses es f d h hf _ hd _ := by
    rw [hd]
    refine foldl_or_apart (fun e he => ?_) (BitVec.zero_and)
    obtain ⟨hmem, hsel⟩ := List.mem_filter.mp he
    exact h e hmem (hf e hsel)

/-! ## Releases -/

/-- A gang in which nothing is selected stays as it is. -/
theorem releaseIn_of_none {f : SplitEntry → Bool} {g : Gang} (h : ∀ e ∈ g.split, e.valid = true → f e = false) (hdr : Hdr)
    (n : Nat) : releaseIn hdr f n g = g := by
  refine if_neg ?_
  simpa using h

theorem getElem?_releaseWhere (f : Nat → SplitEntry → Bool) (n : Nat) (p : Panel) (gi : Nat) :
    (releaseWhere f n p).gangs[gi]? = (p.gangs[gi]?).map (releaseIn p.hdr (f gi) n) := by
  simp [releaseWhere, List.getElem?_mapIdx]

/-- A release of the fragments that wait as `b` leaves none that does. -/
theorem releaseIn_blk {b : Block} {f : SplitEntry → Bool} (hf : ∀ e, e.blk = some b → f e = true) (hdr : Hdr) (n : Nat)
    (g : Gang) : ∀ e ∈ (releaseIn hdr f n g).split, e.valid = true → e.blk ≠ some b := by
  unfold releaseIn
  split
  · refine (keptBySettling_blk b).settleEntries hdr fun e he hv hb => ?_
    obtain ⟨a, -, rfl⟩ := List.mem_map.mp he
    split at hb
    · cases hb
    · next hsel =>
      rw [if_neg hsel] at hv
      exact hsel (by simp [hv, hf a hb])
  · next hno =>
    intro e he hv hb
    exact hno (List.any_eq_true.mpr ⟨e, he, by simp [hv, hf e hb]⟩)

/-- A BARW slot whose arrivals reach its count trips. -/
theorem tripBarw_of_arrived {i m : Nat} {p : Panel} (hc : (vget p.barw i barw0).count = some m)
    (ha : m ≤ arrivals p (vget p.barw i barw0)) :
    tripBarw i p = releaseWhere (fun gi e => gangArrived p (vget p.barw i barw0) gi && e.blk == some (.barw i)) 12
      { p with barw := vset p.barw i ⟨none, (vget p.barw i barw0).waiting.filter fun a =>
          !gangArrived p (vget p.barw i barw0) a.1⟩ } := by
  simp only [tripBarw, hc]
  rw [if_pos ha]

end Sys2Proof.Machine
end

section
/-! CLAIM. Seams and panel-slot barriers (O37). -/

namespace Sys2Proof.Machine

open Sys2Proof

/-! ## Seams -/

/-- What the body of SEAMBAR does (07 R135, 22 R347). -/
def seambarBody (n : BitVec 4) (x : Ctx) (t : State) : Body := do
  let k := seamOf t x.pid n.toNat
  let mine := lanesIn k.members x.gi &&& x.liveLanes
  check (mine != 0) cSeam (n.setWidth 64)
  let k1 : Seam := { k with arrived := setLanes k.arrived x.gi (lanesIn k.arrived x.gi ||| mine) }
  let t1 := x.updSeam n.toNat (fun _ => k1) t
  if k1.a = k1.m then .ok (x.updP (tripSeam n.toNat) t1) else .error (.park t1 (.seam n.toNat))

theorem exec_seambar (c : Ctl) (n : BitVec 4) (s : State) : exec (.seambar c n) s = runInstr (.seambar c n) (seambarBody n) s :=
  rfl

section
variable {i : Instr} {s : State} {x : Ctx} (hx : ctxOf i s = some x)
include hx

theorem seamOf_begin (n : Nat) : seamOf (x.begin s) x.pid n = vget x.p.seams n seam0 := by
  obtain ⟨f, hf⟩ := begin_panel hx
  simp [seamOf, hf]

variable {n : BitVec 4}

/-- The member lanes of a fragment arrive; the seam trips with the last ones. -/
theorem seambarBody_arrives (h : x.memberLanes n ≠ 0) : seambarBody n x (x.begin s) =
    if (x.arrivedAt n).a = (x.arrivedAt n).m
    then .ok (x.updP (tripSeam n.toNat) (x.updSeam n.toNat (fun _ => x.arrivedAt n) (x.begin s)))
    else .error (.park (x.updSeam n.toNat (fun _ => x.arrivedAt n) (x.begin s)) (.seam n.toNat)) := by
  have hm : (x.memberLanes n != 0) = true := by simpa using h
  have hchk : check (lanesIn (vget x.p.seams n.toNat seam0).members x.gi &&& x.liveLanes != 0) cSeam (n.setWidth 64) = .ok () :=
    if_pos hm
  simp only [seambarBody, seamOf_begin hx, hchk]
  rfl

theorem seambarBody_no_member (h : x.memberLanes n = 0) :
    seambarBody n x (x.begin s) = .error (.trap (mkTrap cSeam (n.setWidth 64))) := by
  have hm : ¬ (x.memberLanes n != 0) = true := by simpa using h
  have hchk : check (lanesIn (vget x.p.seams n.toNat seam0).members x.gi &&& x.liveLanes != 0) cSeam (n.setWidth 64) =
      raise cSeam (n.setWidth 64) := if_neg hm
  simp only [seambarBody, seamOf_begin hx, hchk]
  rfl

end

/-! ## Panel-slot barriers -/

/-- The barrier's count is the instruction's, and the gang waits at no other one (07 R136, 22 R348). -/
def Ctx.barwFits (x : Ctx) (b : BitVec 4) (n : BitVec 6) : Prop :=
  1 ≤ n.toNat ∧ n.toNat ≤ 32 ∧ (∀ m, (vget x.p.barw b.toNat barw0).count = some m → m = n.toNat) ∧
    waitsElsewhere x.p x.gi b.toNat = false

/-- The barrier once the fragment has come to it. -/
def Ctx.barwJoined (x : Ctx) (b : BitVec 4) (n : BitVec 6) : Barw :=
  ⟨some n.toNat, (vget x.p.barw b.toNat barw0).waiting ++ [(x.gi, x.e.slices &&& ~~~x.g.exited)]⟩

/-- The state in which the fragment has come to the barrier. -/
def Ctx.joinBarw (x : Ctx) (b : BitVec 4) (n : BitVec 6) (t : State) : State :=
  x.updP (fun p => { p with barw := vset p.barw b.toNat (x.barwJoined b n) }) t

/-- What the body of BARW does (07 R136, 22 R348). -/
def barwBody (b : BitVec 4) (n : BitVec 6) (x : Ctx) (t : State) : Body := do
  check (decide (1 ≤ n.toNat ∧ n.toNat ≤ 32)) cBarrier (b.setWidth 64)
  check ((vget x.p.barw b.toNat barw0).count.all fun m => m == n.toNat) cBarrier (b.setWidth 64)
  check (!waitsElsewhere x.p x.gi b.toNat) cBarrier (b.setWidth 64)
  if n.toNat ≤ arrivals x.p (x.barwJoined b n) then
    let t2 := x.updP (tripBarw b.toNat) (x.joinBarw b n t)
    if gangArrived x.p (x.barwJoined b n) x.gi then .ok t2 else .error (.park t2 (.barw b.toNat))
  else .error (.park (x.joinBarw b n t) (.barw b.toNat))

theorem exec_barw (c : Ctl) (b : BitVec 4) (n : BitVec 6) (s : State) :
    exec (.barw c b n) s = runInstr (.barw c b n) (barwBody b n) s := rfl

section
variable {x : Ctx} {b : BitVec 4} {n : BitVec 6}

theorem count_all_iff : ((vget x.p.barw b.toNat barw0).count.all fun m => m == n.toNat) = true ↔
    ∀ m, (vget x.p.barw b.toNat barw0).count = some m → m = n.toNat := by
  cases (vget x.p.barw b.toNat barw0).count <;> simp

theorem barwBody_fits (h : x.barwFits b n) (t : State) : barwBody b n x t =
    if n.toNat ≤ arrivals x.p (x.barwJoined b n) then
      if gangArrived x.p (x.barwJoined b n) x.gi then .ok (x.updP (tripBarw b.toNat) (x.joinBarw b n t))
      else .error (.park (x.updP (tripBarw b.toNat) (x.joinBarw b n t)) (.barw b.toNat))
    else .error (.park (x.joinBarw b n t) (.barw b.toNat)) := by
  obtain ⟨hlo, hhi, hcount, helse⟩ := h
  simp only [barwBody, check, hlo, hhi, count_all_iff.mpr hcount, helse]
  rfl

theorem barwBody_unfit (h : ¬ x.barwFits b n) (t : State) :
    barwBody b n x t = .error (.trap (mkTrap cBarrier (b.setWidth 64))) := by
  unfold barwBody check
  by_cases hrange : 1 ≤ n.toNat ∧ n.toNat ≤ 32
  · by_cases hcount : ∀ m, (vget x.p.barw b.toNat barw0).count = some m → m = n.toNat
    · have helse : waitsElsewhere x.p x.gi b.toNat = true := by
        by_contra hne
        exact h ⟨hrange.1, hrange.2, hcount, by simpa using hne⟩
      simp only [hrange, count_all_iff.mpr hcount, helse]
      rfl
    · have hall := mt count_all_iff.mp hcount
      simp only [hrange, hall]
      rfl
  · simp only [hrange]
    rfl

end

/-! ## A barrier that trips -/

section
variable {i m : Nat} {p : Panel} (hc : (vget p.barw i barw0).count = some m) (ha : m ≤ arrivals p (vget p.barw i barw0))
include hc ha

theorem tripBarw_slot (hi : i < 16) : vget (tripBarw i p).barw i barw0 =
    ⟨none, (vget p.barw i barw0).waiting.filter fun a => !gangArrived p (vget p.barw i barw0) a.1⟩ := by
  rw [tripBarw_of_arrived hc ha]
  exact vget_vset_same _ _ _ _ hi

/-- The trip releases no fragment of a gang that has not arrived. -/
theorem tripBarw_away {gi : Nat} (hg : gangArrived p (vget p.barw i barw0) gi = false) :
    (tripBarw i p).gangs[gi]? = p.gangs[gi]? := by
  rw [tripBarw_of_arrived hc ha, getElem?_releaseWhere]
  cases p.gangs[gi]? with
  | none => rfl
  | some g => exact congrArg some (releaseIn_of_none (fun e _ _ => by simp [hg]) _ _)

theorem waitingAt_tripBarw (hi : i < 16) {gi : Nat} (hg : gangArrived p (vget p.barw i barw0) gi = false) :
    waitingAt (vget (tripBarw i p).barw i barw0) gi = waitingAt (vget p.barw i barw0) gi := by
  simp only [tripBarw_slot hc ha hi, waitingAt, List.filter_filter]
  congr 1
  refine List.filter_congr fun a _ => ?_
  by_cases hgi : a.1 = gi <;> simp [hgi, hg]

/-- The trip releases every fragment of a gang that has arrived. -/
theorem tripBarw_releases {gi : Nat} (hg : gangArrived p (vget p.barw i barw0) gi = true) {g : Gang}
    (hq : (tripBarw i p).gangs[gi]? = some g) : ∀ e ∈ g.split, e.valid = true → e.blk ≠ some (.barw i) := by
  rw [tripBarw_of_arrived hc ha, getElem?_releaseWhere] at hq
  obtain ⟨g0, -, rfl⟩ := Option.map_eq_some_iff.mp hq
  exact releaseIn_blk (fun e he => by simp [hg, he]) _ _ _

end

end Sys2Proof.Machine

namespace Sys2Proof.Claims

open Sys2Proof Sys2Proof.Machine

/-- Settles O37: SEAMBAR and BARW by the cases of their bodies, and a trip by what it releases. -/
theorem seamsAndBarriers : Obligations.SeamsAndBarriers := by
  refine ⟨fun c n s => ⟨?_, ?_, ?_, ?_, ?_, fun k gi w => ⟨lanesIn_setLanes _ _ _, fun gj => lanesIn_setLanes_ne _ _⟩⟩,
    fun c b n s => ?_, fun i m gi p hi hc ha => ⟨?_, fun hg => ⟨tripBarw_away hc ha hg, waitingAt_tripBarw hc ha hi hg⟩,
      fun g e hg hq he => tripBarw_releases hc ha hg hq e he⟩⟩
  · exact completesWith_of (body := fun x u => if x.act = 0 then .ok u else .ok (x.updSeam n.toNat _ u)) rfl fun x u =>
      (apply_ite Except.ok _ _ _).symm
  · exact completesWith_of (body := fun x u => if x.act = 0 then .ok u else .ok (x.updP (tripSeam n.toNat)
      (x.updSeam n.toNat _ u))) rfl fun x u => (apply_ite Except.ok _ _ _).symm
  · exact completesWhen_of (exec_seambar c n s) fun x hx _ h => (seambarBody_arrives hx h.1).trans (if_pos h.2)
  · exact waitsWhen_of (exec_seambar c n s) (fun _ => rfl) fun x hx _ h => (seambarBody_arrives hx h.1).trans (if_neg h.2)
  · exact trapsWhen_of (exec_seambar c n s) fun x hx _ h => seambarBody_no_member hx h
  · refine ⟨completesWhen_of (exec_barw c b n s) fun x _ _ ⟨hfits, hall, hgang⟩ => ?_,
      waitsWhen_of (exec_barw c b n s) (fun _ => rfl) fun x _ _ ⟨hfits, hall, hgang⟩ => ?_,
      waitsWhen_of (exec_barw c b n s) (fun _ => rfl) fun x _ _ ⟨hfits, hfew⟩ => ?_,
      trapsWhen_of (exec_barw c b n s) fun x _ _ h => barwBody_unfit h _⟩
    · exact (barwBody_fits hfits _).trans ((if_pos hall).trans (if_pos hgang))
    · exact (barwBody_fits hfits _).trans ((if_pos hall).trans (if_neg (Bool.eq_false_iff.mp hgang)))
    · exact (barwBody_fits hfits _).trans (if_neg (Nat.not_le.mpr hfew))
  · rw [tripBarw_slot hc ha hi]

end Sys2Proof.Claims
end

section
/-! CLAIM. EXIT ends the slices of its fragment (O7). -/

namespace Sys2Proof.Machine

open Sys2Proof

/-! ## A release of a gang that has nothing outstanding (09 R158, 13 R228) -/

/-- No command of the gang is outstanding, and no batch of it has failed. -/
def Gang.calm (g : Gang) : Prop :=
  (∀ c, (openOf g c).left = 0 ∧ (openOf g c).fail = none) ∧ ∀ b ∈ g.seals, b.complete = true ∧ b.fail = none

theorem mem_allClasses (c : Cls) : c ∈ allClasses := by cases c <;> decide

theorem inMask_allMask (c : Cls) : inMask allMask c = true := by cases c <;> decide

theorem Ctx.calm.gang {x : Ctx} (h : x.calm allMask) : x.g.calm := by
  obtain ⟨-, -, hc⟩ := h
  refine ⟨fun c => ?_, fun b hb => ?_⟩
  · obtain ⟨hleft, hfail, -, -⟩ := hc c (inMask_allMask c)
    exact ⟨hleft, hfail⟩
  · obtain ⟨-, -, hcount, hnone⟩ := hc b.cls (inMask_allMask b.cls)
    have hcomplete : b.complete = true := by
      have hno := List.filter_eq_nil_iff.mp (List.length_eq_zero_iff.mp hcount) b hb
      simpa using hno
    have hno := List.find?_eq_none.mp hnone b hb
    exact ⟨hcomplete, by simpa [hcomplete] using hno⟩

theorem Gang.calm.counter {g : Gang} (h : g.calm) (c : Cls) : counterOf g c = 0 := by
  refine List.length_eq_zero_iff.mpr (List.filter_eq_nil_iff.mpr fun b hb => ?_)
  simp [(h.2 b hb).1]

/-- Sealed batches that wait for no command and have not failed leave the list; those that are complete stay. -/
theorem settleSeals_of_calm : ∀ {bs : List Batch}, (∀ b ∈ bs, b.complete = true ∨ b.left = 0 ∧ b.fail = none) →
    settleSeals [] bs = bs.filter (·.complete)
  | [], _ => rfl
  | b :: bs, h => by
    have ih := settleSeals_of_calm fun a ha => h a (List.mem_cons_of_mem b ha)
    rcases h b List.mem_cons_self with hc | ⟨hleft, hfail⟩
    · simp [settleSeals, hc, ih]
    · cases hc : b.complete <;> simp [settleSeals, hc, hleft, hfail, ih]

/-- The open batch of a class that has just been sealed is a new one, or there is none. -/
theorem openOf_map_same (g : Gang) (c : Cls) (n : Nat) :
    ∃ m, (((g.opens.map fun a => if a.cls == c then batch0 n c else a).find? fun b => b.cls == c).getD (batch0 0 c)) =
      batch0 m c := by
  cases hf : (g.opens.map fun a => if a.cls == c then batch0 n c else a).find? fun b => b.cls == c with
  | none => exact ⟨0, rfl⟩
  | some b =>
    have hcls : b.cls = c := by simpa using List.find?_some hf
    obtain ⟨a, -, rfl⟩ := List.mem_map.mp (List.mem_of_find?_eq_some hf)
    by_cases ha : a.cls = c
    · exact ⟨n, by simp [ha]⟩
    · simp [ha] at hcls

theorem Gang.calm.seal {g : Gang} (h : g.calm) {s : State} {pid gi : Nat} (hg : getGang s pid gi = some g) (c : Cls) :
    ∃ g', getGang (sealClass s pid gi c) pid gi = some g' ∧ g'.calm := by
  obtain ⟨g', hg', hseals, hopens, -⟩ := seal_gang (c := c) hg
  obtain ⟨hopen, hsealed⟩ := h
  refine ⟨g', hg', fun d => ?_, ?_⟩
  · by_cases hd : c = d
    · subst hd
      obtain ⟨m, hm⟩ := openOf_map_same g c (s.nextId + 1)
      rw [← hopens] at hm
      rw [openOf, hm]
      exact ⟨rfl, rfl⟩
    · have hm := openOf_map_ne (g := g) hd (s.nextId + 1)
      rw [← hopens] at hm
      rw [openOf, hm]
      exact hopen d
  · have hnew : ∀ b ∈ g.seals ++ [{ openOf g c with sealedAt := s.now, order := s.nextId }],
        (b.complete = true ∨ b.left = 0) ∧ b.fail = none := by
      intro b hb
      rcases List.mem_append.mp hb with hb | hb
      · exact ⟨.inl (hsealed b hb).1, (hsealed b hb).2⟩
      · rw [List.mem_singleton.mp hb]
        exact ⟨.inr (hopen c).1, (hopen c).2⟩
    rw [hseals, settleSeals_of_calm fun b hb => (hnew b hb).1.imp_right fun hleft => ⟨hleft, (hnew b hb).2⟩]
    intro b hb
    obtain ⟨hmem, hcomplete⟩ := List.mem_filter.mp hb
    exact ⟨hcomplete, (hnew b hmem).2⟩

theorem Gang.calm.sealFold {pid gi : Nat} : ∀ (cs : List Cls) {s : State} {g : Gang}, g.calm → getGang s pid gi = some g →
    ∃ g', getGang (cs.foldl (fun t c => sealClass t pid gi c) s) pid gi = some g' ∧ g'.calm
  | [], _, g, h, hg => ⟨g, hg, h⟩
  | c :: cs, _, _, h, hg => by
    obtain ⟨g', hg', h'⟩ := h.seal hg c
    exact Gang.calm.sealFold cs h' hg'

/-- A calm gang seals every class. -/
theorem sealOnce_of_calm {x : Ctx} (h : x.calm allMask) {s : State} {g : Gang} (hg : getGang s x.pid x.gi = some g)
    (hc : g.calm) : x.sealOnce allMask s = .ok (x.sealAll allMask s, sealBounds allMask s.nextId) := by
  unfold Ctx.sealOnce Ctx.sealAll sealBounds
  rw [h.1, sealEach_ok x _ [] _ _ (masked_nodup allMask) (by simp) hg fun c _ => by rw [hc.counter]; decide]
  simp

theorem releaseBusy_of_done {g : Gang} {bounds : List (Nat × Nat)}
    (h : ∀ b ∈ g.seals, b.order < boundOf bounds b.cls → b.complete = true) (m : BitVec 5) : releaseBusy g bounds m = false := by
  simp only [releaseBusy, List.any_eq_false]
  intro b hb hbusy
  simp only [Bool.and_eq_true, Bool.not_eq_true', decide_eq_true_eq] at hbusy
  rw [h b hb hbusy.2] at hbusy
  exact absurd hbusy.1.1 (by decide)

theorem raiseWaited_of_done {x : Ctx} {s : State} {g : Gang} {bounds : List (Nat × Nat)}
    (hg : getGang s x.pid x.gi = some g) (h : ∀ b ∈ g.seals, b.order < boundOf bounds b.cls → b.fail = none) :
    x.raiseWaited bounds s = .ok () := by
  have hnone : ∀ c, failedAmong (releaseWaits bounds) g c = none := fun c => by
    simp only [failedAmong, List.find?_eq_none, releaseWaits]
    intro b hb hfailed
    simp only [Bool.and_eq_true, decide_eq_true_eq] at hfailed
    rw [h b hb hfailed.1.1.1] at hfailed
    exact absurd hfailed.2 (by decide)
  rw [Ctx.raiseWaited, hg, if_neg]
  simp [hnone]

/-- A release at DEVICE scope of a redundant panel that waits for nothing comes to the comparison of the pair. -/
theorem releaseThen_of_done {x : Ctx} (hr : x.p.hdr.redundant = true) {s s1 : State} {bounds : List (Nat × Nat)} {g : Gang}
    (hs : x.sealOnce allMask s = .ok (s1, bounds)) (hg : getGang s1 x.pid x.gi = some g)
    (h : ∀ b ∈ g.seals, b.order < boundOf bounds b.cls → b.complete = true ∧ b.fail = none) (cont : State → Body) :
    x.releaseThen false cont s = x.pairStep bounds cont s1 := by
  have hbusy : releaseBusy g bounds allMask = false := releaseBusy_of_done (fun b hb ho => (h b hb ho).1) _
  have hraise : x.raiseWaited bounds s1 = .ok () := raiseWaited_of_done hg fun b hb ho => (h b hb ho).2
  unfold Ctx.releaseThen
  simp only [hs, hg, hbusy, hraise, hr, Bind.bind, Except.bind, Option.map_some, Option.getD_some, Bool.false_and,
    Bool.false_eq_true, if_false, if_true]

theorem getPanel_sealClass_ne (s : State) {pid q : Nat} (gi : Nat) (c : Cls) (h : q ≠ pid) :
    getPanel (sealClass s pid gi c) q = getPanel s q :=
  getPanel_updPanel_ne s _ (fun _ => rfl) h

theorem getPanel_sealFold_ne {pid q : Nat} (gi : Nat) (h : q ≠ pid) : ∀ (cs : List Cls) (s : State),
    getPanel (cs.foldl (fun t c => sealClass t pid gi c) s) q = getPanel s q
  | [], _ => rfl
  | c :: cs, s => (getPanel_sealFold_ne gi h cs _).trans (getPanel_sealClass_ne s gi c h)

theorem getPanel_begin_ne (x : Ctx) (s : State) {q : Nat} (h : q ≠ x.pid) : getPanel (x.begin s) q = getPanel s q :=
  getPanel_updPanel_ne s _ (fun _ => rfl) h

/-- A release whose partner's gang has neither exited nor come to its own waits for it. -/
theorem pairStep_waits {x : Ctx} (hp : x.e.paired = none) {s : State} {m : Nat} {q : Panel} {og : Gang}
    (hm : x.p.partner = some m) (hq : getPanel s m = some q) (hg : q.gangs[x.gi]? = some og)
    (hl : gangExited q.hdr og = false) (hw : pairWaiter og = none) (bounds : List (Nat × Nat)) (cont : State → Body) :
    x.pairStep bounds cont s = .error (.park (x.keepSeals bounds none s) .pair) := by
  simp [Ctx.pairStep, hp, hm, hq, hg, hl, hw]

/-! ## The body of EXIT -/

/-- What the body of EXIT does (07 R137, 13 R228). -/
def exitBody (x : Ctx) (t : State) : Body :=
  if x.p.hdr.redundant && x.whole then x.releaseThen false (fun u => .ok (exitSlices x u)) t else .ok (exitSlices x t)

theorem exec_exit (c : Ctl) (s : State) : exec (.exit c) s = runInstr (.exit c) exitBody s := rfl

section
variable {i : Instr} {s : State} {x : Ctx} (hx : ctxOf i s = some x) (hr : x.p.hdr.redundant = true) (hw : x.whole = true)
include hx hr hw

/-- The two gangs of the pair have been compared. -/
theorem exitBody_compared (hp : x.e.paired = some none) (hs : x.settled allMask) :
    exitBody x (x.begin s) = .ok (exitSlices x (x.begin s)) := by
  obtain ⟨f, hf⟩ := begin_gang hx
  obtain ⟨hsealed, hdone⟩ := hs
  have hseal : x.sealOnce allMask (x.begin s) = .ok (x.begin s, x.e.sealed) :=
    sealEach_done x _ _ _ fun c _ => hsealed c (inMask_allMask c)
  simp only [exitBody, hr, hw]
  rw [Bool.and_self, if_pos rfl, releaseThen_of_done hr hseal hf hdone]
  simp only [Ctx.pairStep, hp]

/-- The gang seals and waits for its partner. -/
theorem exitBody_waits (hc : x.calm allMask) {m : Nat} {q : Panel} {og : Gang} (hm : x.p.partner = some m) (hne : m ≠ x.pid)
    (hq : getPanel s m = some q) (hg : q.gangs[x.gi]? = some og) (hl : gangExited q.hdr og = false)
    (hn : pairWaiter og = none) : exitBody x (x.begin s) = .error (.park
      (x.keepSeals (sealBounds allMask (x.begin s).nextId) none (x.sealAll allMask (x.begin s))) .pair) := by
  obtain ⟨f, hf⟩ := begin_gang hx
  have hcalm : Gang.calm { x.g with split := modifyAt f x.g.split x.ei } := hc.gang
  obtain ⟨g', hg', -, hdone⟩ := hcalm.sealFold (allClasses.filter (inMask allMask)) hf
  have hq' : getPanel (x.sealAll allMask (x.begin s)) m = some q :=
    (getPanel_sealFold_ne x.gi hne _ _).trans ((getPanel_begin_ne x s hne).trans hq)
  simp only [exitBody, hr, hw]
  rw [Bool.and_self, if_pos rfl, releaseThen_of_done hr (sealOnce_of_calm hc hf hcalm) hg' fun b hb _ => hdone b hb]
  exact pairStep_waits hc.2.1 hm hq' hg hl hn _ _

end

/-! ## Seams that slices leave -/

/-- A seam once it has been looked at: its arrivals start again where they are all the members (07 R135). -/
def Seam.tripped (k : Seam) : Seam := if k.a = k.m ∧ 0 < k.a then { k with arrived := [] } else k

theorem vget_map_of_lt {α β : Type} {n : Nat} (v : Vector α n) (f : α → β) {i : Nat} (d : α) (e : β) (h : i < n) :
    vget (v.map f) i e = f (vget v i d) := by
  simp [vget, h]

theorem vget_seams_tripSeam {i : Nat} (hi : i < 16) (p : Panel) (n : Nat) : vget (tripSeam i p).seams n seam0 =
    if n = i then (vget p.seams n seam0).tripped else vget p.seams n seam0 := by
  unfold tripSeam Seam.tripped
  dsimp only
  by_cases hn : n = i
  · subst hn
    rw [if_pos rfl]
    split
    · exact vget_vset_same _ _ _ _ hi
    · rfl
  · rw [if_neg hn]
    split
    · exact vget_vset_ne _ _ _ _ _ (Ne.symm hn)
    · rfl

theorem seams_tripBarw (i : Nat) (p : Panel) : (tripBarw i p).seams = p.seams := by
  unfold tripBarw
  dsimp only
  split
  · split <;> rfl
  · rfl

/-- The seams and the BARW slots below `n` are looked at again, in ascending order (07 R135 to R137). -/
def tripAll (n : Nat) (p : Panel) : Panel := (List.range n).foldl (fun q i => tripBarw i (tripSeam i q)) p

theorem tripAll_succ (n : Nat) (p : Panel) : tripAll (n + 1) p = tripBarw n (tripSeam n (tripAll n p)) := by
  simp [tripAll, List.range_succ]

theorem vget_seams_tripAll {m : Nat} (hm : m ≤ 16) (p : Panel) (n : Nat) : vget (tripAll m p).seams n seam0 =
    if n < m then (vget p.seams n seam0).tripped else vget p.seams n seam0 := by
  induction m with
  | zero => rfl
  | succ m ih =>
    rw [tripAll_succ, seams_tripBarw, vget_seams_tripSeam (by omega), ih (by omega)]
    by_cases hn : n = m
    · simp [hn]
    · have : n < m + 1 ↔ n < m := by omega
      simp [hn, this]

/-! ## What a trip leaves of a gang -/

/-- `h` is `g` but for its split table, in which no fragment has gained a slice of `sl`. -/
def Gang.resplit (sl : BitVec 8) (g h : Gang) : Prop :=
  h = { g with split := h.split } ∧ ((∀ e ∈ g.split, e.valid = true → e.slices &&& sl = 0) →
    ∀ e ∈ h.split, e.valid = true → e.slices &&& sl = 0)

theorem Gang.resplit.refl (sl : BitVec 8) (g : Gang) : g.resplit sl g := ⟨rfl, id⟩

theorem Gang.resplit.trans {sl : BitVec 8} {g h k : Gang} (h1 : g.resplit sl h) (h2 : h.resplit sl k) : g.resplit sl k := by
  obtain ⟨e1, k1⟩ := h1
  obtain ⟨e2, k2⟩ := h2
  refine ⟨?_, k2 ∘ k1⟩
  rw [e2, e1]

theorem settleEntries_resplit (sl : BitVec 8) (hdr : Hdr) (g : Gang) : g.resplit sl (settleEntries hdr g) :=
  ⟨by simp only [settleEntries], (keptBySettling_apart sl).settleEntries hdr⟩

theorem releaseIn_resplit (sl : BitVec 8) (hdr : Hdr) (f : SplitEntry → Bool) (n : Nat) (g : Gang) :
    g.resplit sl (releaseIn hdr f n g) := by
  unfold releaseIn
  split
  · refine Gang.resplit.trans ⟨rfl, fun h e he => ?_⟩ (settleEntries_resplit sl hdr _)
    obtain ⟨a, ha, rfl⟩ := List.mem_map.mp he
    split <;> exact h a ha
  · exact .refl sl g

/-- `q` is a panel with the number and the latches of `p`, whose gangs are those of `p` but for their split tables. -/
def Panel.resplit (sl : BitVec 8) (p q : Panel) : Prop :=
  q.pid = p.pid ∧ q.latches = p.latches ∧
    ∀ (gi : Nat) (g : Gang), p.gangs[gi]? = some g → ∃ h, q.gangs[gi]? = some h ∧ g.resplit sl h

theorem Panel.resplit.refl (sl : BitVec 8) (p : Panel) : p.resplit sl p := ⟨rfl, rfl, fun _ g hg => ⟨g, hg, .refl sl g⟩⟩

theorem Panel.resplit.trans {sl : BitVec 8} {p q r : Panel} (h1 : p.resplit sl q) (h2 : q.resplit sl r) : p.resplit sl r := by
  obtain ⟨hpid, hlatches, hgangs⟩ := h1
  obtain ⟨hpid', hlatches', hgangs'⟩ := h2
  refine ⟨hpid'.trans hpid, hlatches'.trans hlatches, fun gi g hg => ?_⟩
  obtain ⟨h, hh, hr⟩ := hgangs gi g hg
  obtain ⟨k, hk, hr'⟩ := hgangs' gi h hh
  exact ⟨k, hk, hr.trans hr'⟩

theorem releaseWhere_resplit {p q : Panel} (hpid : q.pid = p.pid) (hlatches : q.latches = p.latches)
    (hgangs : q.gangs = p.gangs) (sl : BitVec 8) (f : Nat → SplitEntry → Bool) (n : Nat) :
    p.resplit sl (releaseWhere f n q) := by
  refine ⟨hpid, hlatches, fun gi g hg => ⟨_, ?_, releaseIn_resplit sl q.hdr (f gi) n g⟩⟩
  rw [getElem?_releaseWhere, hgangs, hg, Option.map_some]

theorem tripSeam_resplit (sl : BitVec 8) (i : Nat) (p : Panel) : p.resplit sl (tripSeam i p) := by
  unfold tripSeam
  dsimp only
  split
  · exact releaseWhere_resplit rfl rfl rfl sl _ 12
  · exact .refl sl p

theorem tripBarw_resplit (sl : BitVec 8) (i : Nat) (p : Panel) : p.resplit sl (tripBarw i p) := by
  unfold tripBarw
  dsimp only
  split
  · split
    · exact releaseWhere_resplit rfl rfl rfl sl _ 12
    · exact .refl sl p
  · exact .refl sl p

theorem tripAll_resplit (sl : BitVec 8) (n : Nat) (p : Panel) : p.resplit sl (tripAll n p) := by
  induction n with
  | zero => exact .refl sl p
  | succ n ih =>
    rw [tripAll_succ]
    exact (ih.trans (tripSeam_resplit sl n _)).trans (tripBarw_resplit sl n _)

/-! ## Slices that leave their gang -/

/-- A gang that slices `sl`, which stand in entry `ei`, have left (07 R137). -/
def Gang.leave (ei : Nat) (sl : BitVec 8) (g : Gang) : Gang :=
  { g with exited := g.exited ||| sl, split := modifyAt (fun _ => entry0) g.split ei, handler := false, hslices := 0 }

/-- A panel whose gang and seams the slices have left, before its seams and barriers are looked at again. -/
def leavePanel (gi ei : Nat) (sl : BitVec 8) (p : Panel) : Panel :=
  { p with
    gangs := modifyAt (settleEntries p.hdr) (modifyAt (Gang.leave ei sl) p.gangs gi) gi
    seams := p.seams.map fun k => k.drop gi (lanesOf sl) }

theorem dropSlices_eq (gi ei : Nat) (sl : BitVec 8) (p : Panel) :
    dropSlices gi ei sl p = tripAll 16 (leavePanel gi ei sl p) := rfl

/-- No fragment of the gang holds a slice that has left, when the other fragments held none. -/
theorem leave_apart {ei : Nat} {sl : BitVec 8} {g : Gang}
    (h : ∀ (j : Nat) (d : SplitEntry), j ≠ ei → g.split[j]? = some d → d.valid = true → d.slices &&& sl = 0) :
    ∀ e ∈ (g.leave ei sl).split, e.valid = true → e.slices &&& sl = 0 := by
  intro e he hv
  obtain ⟨j, hj⟩ := List.mem_iff_getElem?.mp he
  simp only [Gang.leave, getElem?_modifyAt] at hj
  split at hj
  · obtain ⟨d, -, rfl⟩ := Option.map_eq_some_iff.mp hj
    cases hv
  · next hne => exact h j e (Ne.symm hne) hj hv

theorem dropSlices_gang {p : Panel} {gi : Nat} {g : Gang} (hg : p.gangs[gi]? = some g) (ei : Nat) (sl : BitVec 8) :
    ∃ h, (dropSlices gi ei sl p).gangs[gi]? = some h ∧ (g.leave ei sl).resplit sl h := by
  obtain ⟨-, -, hall⟩ := tripAll_resplit sl 16 (leavePanel gi ei sl p)
  obtain ⟨h, hh, hr⟩ := hall gi (settleEntries p.hdr (g.leave ei sl)) (by simp [leavePanel, getElem?_modifyAt, hg])
  exact ⟨h, hh, (settleEntries_resplit sl p.hdr _).trans hr⟩

theorem dropSlices_pid (gi ei : Nat) (sl : BitVec 8) (p : Panel) : (dropSlices gi ei sl p).pid = p.pid :=
  (tripAll_resplit sl 16 (leavePanel gi ei sl p)).1

theorem vget_seams_dropSlices (gi ei : Nat) (sl : BitVec 8) (p : Panel) {n : Nat} (hn : n < 16) :
    vget (dropSlices gi ei sl p).seams n seam0 = ((vget p.seams n seam0).drop gi (lanesOf sl)).tripped := by
  rw [dropSlices_eq, vget_seams_tripAll (Nat.le_refl 16), if_pos hn]
  exact congrArg Seam.tripped (vget_map_of_lt p.seams _ seam0 seam0 hn)

section
variable {x : Ctx} {s : State} {q : Panel} {h : Gang}
  (hq : getPanel (updPanel s x.pid (dropSlices x.gi x.ei x.e.slices)) x.pid = some q) (hh : q.gangs[x.gi]? = some h)
include hq hh

/-- A gang that lives on has lost the slices, and nothing else happens. -/
theorem exitSlices_of_live (hl : gangExited q.hdr h = false) :
    exitSlices x s = updPanel s x.pid (dropSlices x.gi x.ei x.e.slices) := by
  simp [exitSlices, getGang_of_getPanel hq hh, hq, hl]

/-- A gang that has exited, and that no latch names, seals its open batches that hold commands. -/
theorem exitSlices_of_exited (hl : gangExited q.hdr h = true)
    (hn : ∀ l ∈ q.latches, (listGangs l.list).contains x.gi = false) :
    exitSlices x s = (h.opens.filter fun b => b.count != 0).foldl (fun u b => sealClass u x.pid x.gi b.cls)
      (updPanel s x.pid (dropSlices x.gi x.ei x.e.slices)) := by
  have hlatch : (q.latches.filter fun l =>
      (listGangs l.list).contains x.gi && !l.arrivals.any fun a => a.gang == x.gi) = [] :=
    List.filter_eq_nil_iff.mpr fun l hmem => by rw [hn l hmem, Bool.false_and]; decide
  unfold exitSlices
  simp only [getGang_of_getPanel hq hh, hq, hl, hlatch]
  rfl

end

end Sys2Proof.Machine

namespace Sys2Proof.Claims

open Sys2Proof Sys2Proof.Machine

/-- Settles O7: the cases of the body of EXIT, and what the slices' departure leaves of the gang and its seams. -/
theorem exit : Obligations.Exit := by
  refine ⟨fun c s => ⟨completesWhen_of (exec_exit c s) fun x _ _ h => if_neg (Bool.eq_false_iff.mp h),
    completesWhen_of (exec_exit c s) fun x hx _ ⟨hr, hw, hp, hs⟩ => exitBody_compared hx hr hw hp hs,
    parksWhen_of (exec_exit c s) (fun _ => rfl) fun x hx _ ⟨hr, hw, hc, m, q, og, hm, hne, hq, hg, hl, hn⟩ =>
      exitBody_waits hx hr hw hc hm hne hq hg hl hn⟩,
    fun x p g e s hp hg _ => ?_,
    fun k gi gj w => ⟨lanesIn_setLanes _ _ _, lanesIn_setLanes _ _ _,
      fun hne => ⟨lanesIn_setLanes_ne _ _ hne, lanesIn_setLanes_ne _ _ hne⟩⟩⟩
  have hq : getPanel (updPanel s x.pid (dropSlices x.gi x.ei x.e.slices)) x.pid =
      some (dropSlices x.gi x.ei x.e.slices p) := by
    rw [getPanel_updPanel_same _ _ _ (dropSlices_pid _ _ _), hp, Option.map_some]
  obtain ⟨h, hh, hsame, hapart⟩ := dropSlices_gang hg x.ei x.e.slices
  refine ⟨_, h, hq, hh, by rw [hsame]; rfl, by rw [hsame]; rfl, by rw [hsame]; rfl, by rw [hsame]; rfl, by rw [hsame]; rfl,
    by rw [hsame]; rfl, fun hd => hapart (leave_apart hd), fun n hn => vget_seams_dropSlices _ _ _ _ hn,
    exitSlices_of_live hq hh, exitSlices_of_exited hq hh⟩

end Sys2Proof.Claims
end

section
/-! CLAIM. A branch with one target moves its fragment, one with several divides it (O5). -/

namespace Sys2Proof.Machine

open Sys2Proof

/-! ## Distinct values, in the order of their first occurrence -/

section
variable {α : Type} [BEq α]

theorem distinct_concat (xs : List α) (a : α) :
    distinct (xs ++ [a]) = if (distinct xs).contains a then distinct xs else distinct xs ++ [a] := by
  rw [distinct, List.foldl_concat]
  rfl

theorem length_distinct_le (xs : List α) : (distinct xs).length ≤ xs.length := by
  induction xs using List.reverseRecOn with
  | nil => exact Nat.le_refl 0
  | append_singleton xs a ih =>
    rw [distinct_concat, List.length_append]
    split
    · exact Nat.le_add_right_of_le ih
    · simpa using ih

theorem mem_distinct [LawfulBEq α] {xs : List α} {a : α} : a ∈ distinct xs ↔ a ∈ xs := by
  induction xs using List.reverseRecOn with
  | nil => rfl
  | append_singleton xs b ih =>
    rw [distinct_concat, List.mem_append, List.mem_singleton]
    split
    · next h =>
      have hb : b ∈ distinct xs := by simpa using h
      exact ⟨fun ha => .inl (ih.mp ha), fun ha => ha.elim ih.mpr fun e => e ▸ hb⟩
    · rw [List.mem_append, List.mem_singleton, ih]

end

/-- Of two targets the one that stands first has a slice below every slice of the other. -/
theorem pairwise_distinct_map (next : Nat → Word) {xs : List Nat} (h : xs.Pairwise (· < ·)) :
    (distinct (xs.map next)).Pairwise fun a b => ∃ n ∈ xs, next n = a ∧ ∀ m ∈ xs, next m = b → n < m := by
  induction xs using List.reverseRecOn with
  | nil => exact List.Pairwise.nil
  | append_singleton xs i ih =>
    obtain ⟨hxs, -, hlast⟩ := List.pairwise_append.mp h
    have hi : ∀ n ∈ xs, n < i := fun n hn => hlast n hn i (List.mem_singleton.mpr rfl)
    have hold : (distinct (xs.map next)).Pairwise
        fun a b => ∃ n ∈ xs ++ [i], next n = a ∧ ∀ m ∈ xs ++ [i], next m = b → n < m :=
      (ih hxs).imp fun ⟨n, hn, ha, hlow⟩ => ⟨n, List.mem_append_left _ hn, ha, fun m hm hb =>
        (List.mem_append.mp hm).elim (hlow m · hb) fun e => List.mem_singleton.mp e ▸ hi n hn⟩
    rw [List.map_append, List.map_singleton, distinct_concat]
    split
    · exact hold
    · next hnew =>
      refine List.pairwise_append.mpr ⟨hold, List.pairwise_singleton _ _, fun a ha b hb => ?_⟩
      obtain ⟨n, hn, rfl⟩ := List.mem_map.mp (mem_distinct.mp ha)
      refine ⟨n, List.mem_append_left _ hn, rfl, fun m hm hmb => ?_⟩
      rcases List.mem_append.mp hm with hm | hm
      · refine absurd ?_ hnew
        rw [List.contains_iff_mem, mem_distinct, ← List.mem_singleton.mp hb, ← hmb]
        exact List.mem_map_of_mem hm
      · exact List.mem_singleton.mp hm ▸ hi n hn

/-! ## The groups of slices by their targets (07 R123) -/

theorem groupTargets_concat (next : Nat → Word) (xs : List Nat) (i : Nat) : groupTargets next (xs ++ [i]) =
    if (groupTargets next xs).any fun a => a.1 == next i then
      (groupTargets next xs).map fun a => if a.1 == next i then (a.1, a.2 ||| BitVec.ofNat 8 (2 ^ i)) else a
    else groupTargets next xs ++ [(next i, BitVec.ofNat 8 (2 ^ i))] := by
  simp [groupTargets]

/-- There is one group for each target. -/
theorem map_fst_groupTargets (next : Nat → Word) (xs : List Nat) :
    (groupTargets next xs).map (·.1) = distinct (xs.map next) := by
  induction xs using List.reverseRecOn with
  | nil => rfl
  | append_singleton xs i ih =>
    have hany : ((groupTargets next xs).any fun a => a.1 == next i) = (distinct (xs.map next)).contains (next i) := by
      rw [← ih, Bool.eq_iff_iff]
      simp
    rw [List.map_append, List.map_singleton, distinct_concat, groupTargets_concat, hany]
    split
    · rw [List.map_map, ← ih]
      refine List.map_congr_left fun a _ => ?_
      simp only [Function.comp_apply]
      split <;> rfl
    · rw [List.map_append, ih]
      rfl

theorem getLsbD_bit {i : Nat} (h : i < 8) (n : Nat) : (BitVec.ofNat 8 (2 ^ i)).getLsbD n = true ↔ n = i := by
  rw [BitVec.getLsbD_ofNat, Nat.testBit_two_pow]
  simp only [Bool.and_eq_true, decide_eq_true_eq]
  omega

/-- A group holds the slices that go to its target. -/
theorem slices_groupTargets (next : Nat → Word) {xs : List Nat} (h : ∀ i ∈ xs, i < 8) :
    ∀ g ∈ groupTargets next xs, ∀ n, g.2.getLsbD n = true ↔ n ∈ xs ∧ next n = g.1 := by
  induction xs using List.reverseRecOn with
  | nil => intro g hg; cases hg
  | append_singleton xs i ih =>
    have ih := ih fun j hj => h j (List.mem_append_left _ hj)
    have hbit := getLsbD_bit (h i (List.mem_append_right _ (List.mem_singleton.mpr rfl)))
    have hmem : ∀ n, n ∈ xs ++ [i] ↔ n ∈ xs ∨ n = i := fun n => by simp
    intro g hg n
    rw [groupTargets_concat] at hg
    rw [hmem]
    split at hg
    · obtain ⟨a, ha, rfl⟩ := List.mem_map.mp hg
      by_cases heq : a.1 = next i
      · simp only [heq, beq_self_eq_true, if_true, BitVec.getLsbD_or, Bool.or_eq_true, hbit, ih a ha n]
        exact ⟨fun hn => hn.elim (fun ⟨hx, he⟩ => ⟨.inl hx, he⟩) fun he => ⟨.inr he, he ▸ rfl⟩,
          fun ⟨hx, he⟩ => hx.imp_left fun hx => ⟨hx, he⟩⟩
      · simp only [heq, beq_iff_eq, if_false, ih a ha n]
        exact ⟨fun ⟨hx, he⟩ => ⟨.inl hx, he⟩, fun ⟨hx, he⟩ => ⟨hx.resolve_right fun hi => heq (by rw [← he, hi]), he⟩⟩
    · next hnew =>
      rcases List.mem_append.mp hg with hg | hg
      · have hne : g.1 ≠ next i := fun he => hnew (List.any_eq_true.mpr ⟨g, hg, by simp [he]⟩)
        rw [ih g hg n]
        exact ⟨fun ⟨hx, he⟩ => ⟨.inl hx, he⟩, fun ⟨hx, he⟩ => ⟨hx.resolve_right fun hi => hne (by rw [← he, hi]), he⟩⟩
      · rw [List.mem_singleton.mp hg, hbit]
        refine ⟨fun he => ⟨.inr he, he ▸ rfl⟩, fun ⟨hx, he⟩ => hx.resolve_left fun hx => hnew ?_⟩
        have htarget : next i ∈ (groupTargets next xs).map (·.1) := by
          rw [map_fst_groupTargets, mem_distinct]
          exact List.mem_map.mpr ⟨n, hx, he⟩
        obtain ⟨a, ha, hai⟩ := List.mem_map.mp htarget
        exact List.any_eq_true.mpr ⟨a, ha, by simp [hai]⟩

/-! ## Filling the invalid entries of a split table -/

/-- The entries of `gs` take the invalid entries of a table, the lowest-numbered first. -/
def fillInvalid : List SplitEntry → List SplitEntry → List SplitEntry
  | _, [] => []
  | [], e :: es => e :: es
  | g :: gs, e :: es => if e.valid then e :: fillInvalid (g :: gs) es else g :: fillInvalid gs es

@[simp] theorem fillInvalid_nil (es : List SplitEntry) : fillInvalid [] es = es := by
  cases es <;> rfl

theorem fillInvalid_cons_valid {e : SplitEntry} (h : e.valid = true) (gs es : List SplitEntry) :
    fillInvalid gs (e :: es) = e :: fillInvalid gs es := by
  cases gs with
  | nil => simp
  | cons g gs => exact if_pos h

theorem fillInvalid_cons_invalid {e : SplitEntry} (h : e.valid = false) (g : SplitEntry) (gs es : List SplitEntry) :
    fillInvalid (g :: gs) (e :: es) = g :: fillInvalid gs es :=
  if_neg (Bool.eq_false_iff.mp h)

/-- One valid entry put into the lowest-numbered invalid one. -/
def fillOne (es : List SplitEntry) (g : SplitEntry) : List SplitEntry :=
  match es.findIdx? fun e => !e.valid with
  | some j => es.set j g
  | none => es

theorem fillOne_cons_valid {e : SplitEntry} (h : e.valid = true) (es : List SplitEntry) (g : SplitEntry) :
    fillOne (e :: es) g = e :: fillOne es g := by
  simp only [fillOne, List.findIdx?_cons, h, Bool.not_true, Bool.false_eq_true, if_false]
  cases es.findIdx? fun e => !e.valid <;> rfl

theorem fillOne_cons_invalid {e : SplitEntry} (h : e.valid = false) (es : List SplitEntry) (g : SplitEntry) :
    fillOne (e :: es) g = g :: es := by
  simp [fillOne, List.findIdx?_cons, h]

theorem fillInvalid_fillOne {g : SplitEntry} (hg : g.valid = true) (gs es : List SplitEntry) :
    fillInvalid gs (fillOne es g) = fillInvalid (g :: gs) es := by
  induction es with
  | nil => cases gs <;> rfl
  | cons e es ih =>
    cases he : e.valid with
    | true => rw [fillOne_cons_valid he, fillInvalid_cons_valid he, fillInvalid_cons_valid he, ih]
    | false => rw [fillOne_cons_invalid he, fillInvalid_cons_valid hg, fillInvalid_cons_invalid he]

theorem foldl_fillOne {gs : List SplitEntry} (h : ∀ g ∈ gs, g.valid = true) (es : List SplitEntry) :
    gs.foldl fillOne es = fillInvalid gs es := by
  induction gs generalizing es with
  | nil => simp
  | cons g gs ih =>
    rw [List.foldl_cons, ih (fun a ha => h a (List.mem_cons_of_mem g ha)), fillInvalid_fillOne (h g List.mem_cons_self)]

/-- How many invalid entries stand below entry `j`. -/
def invalidBelow (es : List SplitEntry) (j : Nat) : Nat := (es.take j).countP fun e => !e.valid

theorem getElem?_fillInvalid {gs es : List SplitEntry} {j : Nat} {e : SplitEntry} (h : es[j]? = some e) :
    (fillInvalid gs es)[j]? = some (if e.valid then e else (gs[invalidBelow es j]?).getD e) := by
  induction es generalizing gs j with
  | nil => cases h
  | cons a es ih =>
    cases gs with
    | nil => simp [h]
    | cons g gs =>
      cases ha : a.valid with
      | true =>
        rw [fillInvalid_cons_valid ha]
        cases j with
        | zero => cases h; simp [ha]
        | succ j => simp only [List.getElem?_cons_succ] at h ⊢; rw [ih h]; simp [invalidBelow, ha]
      | false =>
        rw [fillInvalid_cons_invalid ha]
        cases j with
        | zero => cases h; simp [ha, invalidBelow]
        | succ j => simp only [List.getElem?_cons_succ] at h ⊢; rw [ih h]; simp [invalidBelow, ha]

/-- The invalid entries are numbered from 0 on. -/
theorem exists_invalidBelow {es : List SplitEntry} {m : Nat} (h : m < es.countP fun e => !e.valid) :
    ∃ j e, es[j]? = some e ∧ e.valid = false ∧ invalidBelow es j = m := by
  induction es generalizing m with
  | nil => cases h
  | cons a es ih =>
    cases ha : a.valid with
    | true =>
      obtain ⟨j, e, he, hv, hj⟩ := ih (m := m) (by simpa [ha] using h)
      exact ⟨j + 1, e, he, hv, by simpa [invalidBelow, ha] using hj⟩
    | false =>
      cases m with
      | zero => exact ⟨0, a, rfl, ha, rfl⟩
      | succ m =>
        obtain ⟨j, e, he, hv, hj⟩ := ih (m := m) (by simpa [ha] using h)
        exact ⟨j + 1, e, he, hv, by simpa [invalidBelow, ha] using hj⟩

theorem invalidBelow_lt {es : List SplitEntry} {i j : Nat} {d : SplitEntry} (hij : i < j) (hi : es[i]? = some d)
    (hd : d.valid = false) : invalidBelow es i < invalidBelow es j := by
  have hnext : invalidBelow es (i + 1) = invalidBelow es i + 1 := by
    simp [invalidBelow, List.take_add_one, hi, List.countP_append, hd]
  have hmono : invalidBelow es (i + 1) ≤ invalidBelow es j :=
    (List.take_sublist_take_left hij).countP_le
  omega

theorem countP_fillInvalid {gs : List SplitEntry} (h : ∀ g ∈ gs, g.valid = true) (es : List SplitEntry) :
    (fillInvalid gs es).countP (·.valid) = es.countP (·.valid) + min gs.length (es.countP fun e => !e.valid) := by
  induction es generalizing gs with
  | nil => cases gs <;> simp [fillInvalid]
  | cons e es ih =>
    cases gs with
    | nil => simp
    | cons g gs =>
      cases he : e.valid with
      | true =>
        simp only [fillInvalid_cons_valid he, List.countP_cons, ih h, he, if_true, Bool.not_true, Bool.false_eq_true, if_false]
        omega
      | false =>
        simp only [fillInvalid_cons_invalid he, List.countP_cons, ih fun a ha => h a (List.mem_cons_of_mem g ha), he,
          h g List.mem_cons_self, List.length_cons, if_true, Bool.not_false, Bool.false_eq_true, if_false]
        omega

/-! ## A branch -/

/-- The slices of a set, in ascending order. -/
def slicesOf (sl : BitVec 8) : List Nat := (List.range 8).filter fun i => sl.getLsbD i

theorem mem_slicesOf {sl : BitVec 8} {n : Nat} : n ∈ slicesOf sl ↔ sl.getLsbD n = true := by
  simp only [slicesOf, List.mem_filter, List.mem_range, and_iff_right_iff_imp]
  exact BitVec.lt_of_getLsbD

theorem slicesOf_lt {sl : BitVec 8} : ∀ n ∈ slicesOf sl, n < 8 := fun _ hn => List.mem_range.mp (List.mem_filter.mp hn).1

theorem pairwise_slicesOf (sl : BitVec 8) : (slicesOf sl).Pairwise (· < ·) := List.pairwise_lt_range.filter _

theorem slicesOf_ne_nil {sl : BitVec 8} (h : sl ≠ 0) : slicesOf sl ≠ [] := by
  intro hnil
  refine h (BitVec.eq_of_getLsbD_eq fun i _ => ?_)
  cases hi : sl.getLsbD i with
  | false => simp
  | true => exact absurd (mem_slicesOf.mpr hi) (by simp [hnil])

section
variable {next : Nat → Word} {sl : BitVec 8}

theorem mem_groupTargets_slicesOf {g : Word × BitVec 8} (hg : g ∈ groupTargets next (slicesOf sl)) (n : Nat) :
    g.2.getLsbD n = true ↔ sl.getLsbD n = true ∧ next n = g.1 := by
  rw [slices_groupTargets next slicesOf_lt g hg n, mem_slicesOf]

theorem exists_groupTargets {i : Nat} (hi : sl.getLsbD i = true) : ∃ g ∈ groupTargets next (slicesOf sl), g.1 = next i := by
  refine List.mem_map.mp ?_
  rw [map_fst_groupTargets, mem_distinct]
  exact List.mem_map_of_mem (mem_slicesOf.mpr hi)

/-- Of two groups the one that stands first has a slice below every slice of the other. -/
theorem pairwise_groupTargets (next : Nat → Word) (sl : BitVec 8) : (groupTargets next (slicesOf sl)).Pairwise
    fun g h => ∃ n, sl.getLsbD n = true ∧ next n = g.1 ∧ ∀ m, sl.getLsbD m = true → next m = h.1 → n < m := by
  have hlow := pairwise_distinct_map next (pairwise_slicesOf sl)
  rw [← map_fst_groupTargets, List.pairwise_map] at hlow
  simpa only [mem_slicesOf] using hlow

theorem groupTargets_one {pc : Word} (hne : sl ≠ 0) (h : ∀ i, sl.getLsbD i = true → next i = pc) :
    ∃ g, groupTargets next (slicesOf sl) = [g] ∧ g.1 = pc := by
  obtain ⟨i, hi⟩ := List.exists_mem_of_ne_nil _ (slicesOf_ne_nil hne)
  obtain ⟨a, ha, hpc⟩ := exists_groupTargets (next := next) (mem_slicesOf.mp hi)
  have hall : ∀ g ∈ groupTargets next (slicesOf sl), g.1 = pc := fun g hg => by
    have htarget : g.1 ∈ (groupTargets next (slicesOf sl)).map (·.1) := List.mem_map_of_mem hg
    rw [map_fst_groupTargets, mem_distinct] at htarget
    obtain ⟨n, hn, hg⟩ := List.mem_map.mp htarget
    exact hg ▸ h n (mem_slicesOf.mp hn)
  have hlow := pairwise_groupTargets next sl
  match hgs : groupTargets next (slicesOf sl) with
  | [] => rw [hgs] at ha; cases ha
  | [g] => exact ⟨g, rfl, hall g (by rw [hgs]; exact List.mem_cons_self)⟩
  | g :: h' :: gs =>
    rw [hgs] at hlow hall
    obtain ⟨n, hn, -, hlt⟩ := (List.pairwise_cons.mp hlow).1 h' List.mem_cons_self
    have hh : h'.1 = pc := hall h' (List.mem_cons_of_mem g List.mem_cons_self)
    exact absurd (hlt n hn ((h n hn).trans hh.symm)) (Nat.lt_irrefl n)

theorem groupTargets_more {i j : Nat} (hi : sl.getLsbD i = true) (hj : sl.getLsbD j = true) (hij : next i ≠ next j) :
    ∃ a b gs, groupTargets next (slicesOf sl) = a :: b :: gs := by
  obtain ⟨a, ha, hai⟩ := exists_groupTargets (next := next) hi
  obtain ⟨b, hb, hbj⟩ := exists_groupTargets (next := next) hj
  match hgs : groupTargets next (slicesOf sl) with
  | [] => rw [hgs] at ha; cases ha
  | [g] =>
    rw [hgs] at ha hb
    rw [List.mem_singleton] at ha hb
    exact absurd (hai.symm.trans (by rw [ha, ← hb, hbj])) hij
  | g :: h :: gs => exact ⟨g, h, gs, rfl⟩

end

/-- The part of a divided fragment that goes to one target (07 R123). -/
def SplitEntry.part (f : SplitEntry) (t : Word) (g : Word × BitVec 8) : SplitEntry :=
  { f with
    slices := g.2, pc := g.1, wait := .run
    levels := if f.levels.head?.any (fun l => l.rcv == t) then f.levels else ⟨t, f.slices⟩ :: f.levels }

@[simp] theorem SplitEntry.part_valid (f : SplitEntry) (t : Word) (g : Word × BitVec 8) : (f.part t g).valid = f.valid := rfl

section
variable {next : Nat → Word} {t : Word} {k : Nat} {f : SplitEntry} {es : List SplitEntry} (hf : es[k]? = some f)
include hf

theorem getElem?_set_part (t : Word) (g : Word × BitVec 8) : (es.set k (f.part t g))[k]? = some (f.part t g) :=
  List.getElem?_set_self (List.getElem?_eq_some_iff.mp hf).1

theorem ne_of_invalid (hv : f.valid = true) {j : Nat} {e : SplitEntry} (he : es[j]? = some e) (hi : e.valid = false) :
    j ≠ k := by
  rintro rfl
  rw [hf] at he
  cases he
  rw [hv] at hi
  cases hi

theorem branchTo_of_one {g : Word × BitVec 8} (hg : groupTargets next (slicesOf f.slices) = [g]) :
    branchTo next t k es = es.set k { f with pc := g.1 } := by
  simp only [slicesOf] at hg
  simp only [branchTo, hf, hg]

theorem branchTo_of_more (hv : f.valid = true) {a b : Word × BitVec 8} {gs : List (Word × BitVec 8)}
    (hg : groupTargets next (slicesOf f.slices) = a :: b :: gs) :
    branchTo next t k es = fillInvalid ((b :: gs).map (f.part t)) (es.set k (f.part t a)) := by
  have hvalid : ∀ e ∈ (b :: gs).map (f.part t), e.valid = true := fun e he => by
    obtain ⟨g, -, rfl⟩ := List.mem_map.mp he
    exact hv
  rw [← foldl_fillOne hvalid, List.foldl_map]
  simp only [slicesOf] at hg
  simp only [branchTo, hf, hg]
  rfl

end

theorem countP_set_of_valid {es : List SplitEntry} {k : Nat} {f a : SplitEntry} (hf : es[k]? = some f)
    (h : a.valid = f.valid) (p : Bool → Bool) : (es.set k a).countP (fun e => p e.valid) = es.countP fun e => p e.valid := by
  have hmap : (es.set k a).map (·.valid) = es.map (·.valid) := by
    obtain ⟨hk, rfl⟩ := List.getElem?_eq_some_iff.mp hf
    rw [List.map_set, h, ← List.getElem_map (fun e : SplitEntry => e.valid) (h := by simpa using hk), List.set_getElem_self]
  have hcount : ∀ l : List SplitEntry, l.countP (fun e => p e.valid) = (l.map (·.valid)).countP p := fun l => by
    rw [List.countP_map]
    rfl
  rw [hcount, hcount, hmap]

/-! ## The table of a divided fragment -/

section
variable {next : Nat → Word} {t : Word} {k : Nat} {f : SplitEntry} {es : List SplitEntry} (hf : es[k]? = some f)
  (hv : f.valid = true) {a b : Word × BitVec 8} {gs : List (Word × BitVec 8)}
  (hg : groupTargets next (slicesOf f.slices) = a :: b :: gs)
include hf hv hg

/-- The first group keeps the fragment's entry. -/
theorem branchTo_own : (branchTo next t k es)[k]? = some (f.part t a) := by
  rw [branchTo_of_more hf hv hg, getElem?_fillInvalid (getElem?_set_part hf t a), if_pos (by rw [SplitEntry.part_valid, hv])]

theorem branchTo_elsewhere {j : Nat} {e : SplitEntry} (hj : j ≠ k) (he : es[j]? = some e) :
    (branchTo next t k es)[j]? = some (if e.valid then e else
      (((b :: gs).map (f.part t))[invalidBelow (es.set k (f.part t a)) j]?).getD e) := by
  rw [branchTo_of_more hf hv hg]
  exact getElem?_fillInvalid ((List.getElem?_set_ne (Ne.symm hj)).trans he)

theorem branchTo_free {j : Nat} {e : SplitEntry} (he : es[j]? = some e) (hi : e.valid = false) :
    (branchTo next t k es)[j]? =
      some ((((b :: gs).map (f.part t))[invalidBelow (es.set k (f.part t a)) j]?).getD e) := by
  rw [branchTo_elsewhere hf hv hg (ne_of_invalid hf hv he hi) he, hi]
  rfl

/-- Every group has an entry, where the invalid ones are enough. -/
theorem branchTo_places (hroom : (b :: gs).length ≤ es.countP fun e => !e.valid) {g : Word × BitVec 8}
    (hmem : g ∈ a :: b :: gs) : ∃ j, (j = k ∨ (es[j]?).map (·.valid) = some false) ∧
      (branchTo next t k es)[j]? = some (f.part t g) := by
  rcases List.mem_cons.mp hmem with rfl | hmem
  · exact ⟨k, .inl rfl, branchTo_own hf hv hg⟩
  · obtain ⟨m, hm⟩ := List.mem_iff_getElem?.mp hmem
    have hlt : m < (es.set k (f.part t a)).countP fun e => !e.valid := by
      rw [countP_set_of_valid hf (f.part_valid t a) (!·)]
      exact Nat.lt_of_lt_of_le (List.getElem?_eq_some_iff.mp hm).1 hroom
    obtain ⟨j, e, he, hi, hrank⟩ := exists_invalidBelow hlt
    have hj : j ≠ k := ne_of_invalid (getElem?_set_part hf t a) hv he hi
    rw [List.getElem?_set_ne (Ne.symm hj)] at he
    refine ⟨j, .inr (by rw [he, Option.map_some, hi]), ?_⟩
    rw [branchTo_free hf hv hg he hi, hrank, List.getElem?_map, hm]
    rfl

/-- Each group but the first takes an invalid entry. -/
theorem countP_branchTo (hroom : (b :: gs).length ≤ es.countP fun e => !e.valid) :
    (branchTo next t k es).countP (·.valid) = es.countP (·.valid) + (b :: gs).length := by
  have hvalid : ∀ e ∈ (b :: gs).map (f.part t), e.valid = true := fun e he => by
    obtain ⟨g, -, rfl⟩ := List.mem_map.mp he
    exact hv
  have hsame : (es.set k (f.part t a)).countP (·.valid) = es.countP (·.valid) :=
    countP_set_of_valid hf (f.part_valid t a) id
  rw [branchTo_of_more hf hv hg, countP_fillInvalid hvalid, countP_set_of_valid hf (f.part_valid t a) (!·), hsame,
    List.length_map, Nat.min_eq_left hroom]

/-- The groups stand in the invalid entries in their order. -/
theorem branchTo_in_order {i j : Nat} {d e c : SplitEntry} (hij : i < j) (hi : es[i]? = some d) (hd : d.valid = false)
    (hj : es[j]? = some e) (he : e.valid = false) (hc : (branchTo next t k es)[j]? = some c) (hcv : c.valid = true) :
    ∃ m n, m < n ∧ ∃ (hn : n < (b :: gs).length) (hm : m < (b :: gs).length), c = f.part t (b :: gs)[n] ∧
      (branchTo next t k es)[i]? = some (f.part t (b :: gs)[m]) := by
  rw [branchTo_free hf hv hg hj he, Option.some.injEq] at hc
  have hrank : invalidBelow (es.set k (f.part t a)) i < invalidBelow (es.set k (f.part t a)) j :=
    invalidBelow_lt hij ((List.getElem?_set_ne (ne_of_invalid hf hv hi hd).symm).trans hi) hd
  have hn : invalidBelow (es.set k (f.part t a)) j < (b :: gs).length := by
    by_contra hlen
    rw [List.getElem?_eq_none (by simpa using hlen), Option.getD_none] at hc
    rw [← hc, he] at hcv
    cases hcv
  refine ⟨_, _, hrank, hn, Nat.lt_trans hrank hn, ?_, ?_⟩
  · rw [← hc, List.getElem?_map, List.getElem?_eq_getElem hn]
    rfl
  · rw [branchTo_free hf hv hg hi hd, List.getElem?_map, List.getElem?_eq_getElem (Nat.lt_trans hrank hn)]
    rfl

/-- The address of the lowest slice keeps the fragment's entry. -/
theorem branchTo_lowest {i : Nat} (hi : f.slices.getLsbD i = true) (hmin : ∀ n, f.slices.getLsbD n = true → i ≤ n) :
    ((branchTo next t k es)[k]?).map (·.pc) = some (next i) := by
  have hlow := pairwise_groupTargets next f.slices
  obtain ⟨g, hmem, hgi⟩ := exists_groupTargets (next := next) hi
  rw [hg] at hlow hmem
  rw [branchTo_own hf hv hg, ← hgi]
  rcases List.mem_cons.mp hmem with rfl | hmem
  · rfl
  · obtain ⟨n, hn, -, hlt⟩ := (List.pairwise_cons.mp hlow).1 g hmem
    exact absurd (hlt i hi hgi.symm) (Nat.not_lt.mpr (hmin n hn))

/-- The invalid entries are taken in ascending order of the lowest slices. -/
theorem branchTo_ascending {i j : Nat} {d e : SplitEntry} (hij : i < j) (hi : (es[i]?).map (·.valid) = some false)
    (hj : (es[j]?).map (·.valid) = some false) (hd : (branchTo next t k es)[i]? = some d)
    (he : (branchTo next t k es)[j]? = some e) (hev : e.valid = true) :
    d.valid = true ∧ ∃ n, d.slices.getLsbD n = true ∧ ∀ m, e.slices.getLsbD m = true → n < m := by
  have hlow := pairwise_groupTargets next f.slices
  rw [hg] at hlow
  have hslices : ∀ c ∈ b :: gs, ∀ n, c.2.getLsbD n = true ↔ f.slices.getLsbD n = true ∧ next n = c.1 := fun c hc =>
    mem_groupTargets_slicesOf (hg ▸ List.mem_cons_of_mem a hc)
  obtain ⟨d0, hd0, hd0v⟩ := Option.map_eq_some_iff.mp hi
  obtain ⟨e0, he0, he0v⟩ := Option.map_eq_some_iff.mp hj
  obtain ⟨m, n, hmn, hn, hm, rfl, hdm⟩ := branchTo_in_order hf hv hg hij hd0 hd0v he0 he0v he hev
  obtain rfl : d = f.part t (b :: gs)[m] := Option.some.inj (hd.symm.trans hdm)
  obtain ⟨p, hp, hnext, hlt⟩ := List.pairwise_iff_getElem.mp (List.pairwise_cons.mp hlow).2 m n hm hn hmn
  refine ⟨hv, p, (hslices _ (List.getElem_mem hm) p).mpr ⟨hp, hnext⟩, fun q hq => ?_⟩
  obtain ⟨hq, hnext'⟩ := (hslices _ (List.getElem_mem hn) q).mp hq
  exact hlt q hq hnext'

end

/-! ## Room in the table -/

theorem slicesOf_disjoint {u v : BitVec 8} (h : u &&& v = 0) : List.Disjoint (slicesOf u) (slicesOf v) := by
  intro n hu hv
  have hand : (u &&& v).getLsbD n = true := by
    rw [BitVec.getLsbD_and, mem_slicesOf.mp hu, mem_slicesOf.mp hv]
    rfl
  rw [h] at hand
  simp at hand

/-- Fragments that hold disjoint slices hold at most eight together. -/
theorem sum_slicesOf_le {vs : List SplitEntry} (h : vs.Pairwise fun d e => d.slices &&& e.slices = 0) :
    (vs.map fun e => (slicesOf e.slices).length).sum ≤ 8 := by
  have hnodup : (vs.flatMap fun e => slicesOf e.slices).Nodup :=
    List.nodup_flatMap.mpr ⟨fun e _ => (pairwise_slicesOf e.slices).imp Nat.ne_of_lt, h.imp slicesOf_disjoint⟩
  have hsub : (vs.flatMap fun e => slicesOf e.slices) ⊆ List.range 8 := fun n hn => by
    obtain ⟨e, -, he⟩ := List.mem_flatMap.mp hn
    exact List.mem_range.mpr (slicesOf_lt n he)
  have hlen := (hnodup.subperm hsub).length_le
  rwa [List.length_flatMap, List.length_range] at hlen

/-- A table of eight entries whose fragments hold disjoint slices, none of them empty, has an invalid entry for each slice
of a fragment but one. -/
theorem slices_fit {es : List SplitEntry} {k : Nat} {f : SplitEntry} (hf : es[k]? = some f) (hv : f.valid = true)
    (hlen : es.length = 8) (hne : ∀ e ∈ es, e.valid = true → e.slices ≠ 0)
    (hdis : es.Pairwise fun d e => d.valid = true → e.valid = true → d.slices &&& e.slices = 0) :
    (slicesOf f.slices).length ≤ 1 + (es.filter fun e => !e.valid).length := by
  have hsum := sum_slicesOf_le (List.pairwise_filter.mpr hdis)
  have hcount := List.length_eq_length_filter_add (l := es) (·.valid)
  have hmem : f ∈ es.filter (·.valid) := List.mem_filter.mpr ⟨List.mem_of_getElem? hf, hv⟩
  have hone : ∀ e ∈ es.filter (·.valid), 1 ≤ (slicesOf e.slices).length := fun e he => by
    obtain ⟨hes, hev⟩ := List.mem_filter.mp he
    exact List.length_pos_iff.mpr (slicesOf_ne_nil (hne e hes hev))
  obtain ⟨as, bs, hsplit⟩ := List.append_of_mem hmem
  rw [hsplit] at hsum hcount hone
  have has : as.length ≤ (as.map fun e => (slicesOf e.slices).length).sum := by
    simpa using List.length_le_sum_of_one_le (as.map fun e => (slicesOf e.slices).length) (by
      simpa using fun e he => hone e (List.mem_append_left _ he))
  have hbs : bs.length ≤ (bs.map fun e => (slicesOf e.slices).length).sum := by
    simpa using List.length_le_sum_of_one_le (bs.map fun e => (slicesOf e.slices).length) (by
      simpa using fun e he => hone e (List.mem_append_right _ (List.mem_cons_of_mem f he)))
  simp only [List.map_append, List.map_cons, List.sum_append, List.sum_cons] at hsum
  simp only [List.length_append, List.length_cons] at hcount
  omega

end Sys2Proof.Machine

namespace Sys2Proof.Claims

open Sys2Proof Sys2Proof.Machine

/-- Settles O5: the groups of slices are the distinct targets in the order of their lowest slices, the first one keeps the
fragment's entry, and the others fill the invalid entries. -/
theorem branchDivides : Obligations.BranchDivides := by
  intro next t k f es targets u free hf hv hne
  refine ⟨fun pc hpc => ?_, fun ⟨i, j, hi, hj, hij⟩ hroom => ?_, fun hlen hdis => ?_⟩
  · obtain ⟨g, hg, rfl⟩ := groupTargets_one hne hpc
    exact branchTo_of_one hf hg
  · obtain ⟨a, b, gs, hg⟩ := groupTargets_more hi hj hij
    have hfst : targets = (a :: b :: gs).map (·.1) := by rw [← hg, map_fst_groupTargets]; rfl
    have hlen : targets.length = (b :: gs).length + 1 := by rw [hfst, List.length_map]; rfl
    rw [hlen, ← List.countP_eq_length_filter, Nat.add_comm] at hroom
    have hfit : (b :: gs).length ≤ es.countP fun e => !e.valid := Nat.le_of_add_le_add_left hroom
    refine ⟨fun i hi => ?_, ?_, fun i hi hmin => branchTo_lowest hf hv hg hi hmin,
      fun i j d e hij hfi hfj hd he hev => branchTo_ascending hf hv hg hij hfi hfj hd he hev,
      fun j e hjk he hev => (branchTo_elsewhere hf hv hg hjk he).trans (by rw [if_pos hev])⟩
    · obtain ⟨g, hmem, hgi⟩ := exists_groupTargets (next := next) hi
      obtain ⟨j, hj, huj⟩ := branchTo_places hf hv hg hfit (hg ▸ hmem)
      rw [← hgi]
      exact ⟨j, g.2, hj, mem_groupTargets_slicesOf hmem, huj⟩
    · rw [← List.countP_eq_length_filter, ← List.countP_eq_length_filter, countP_branchTo hf hv hg hfit, hlen, Nat.add_assoc]
  · have hle : targets.length ≤ (slicesOf f.slices).length :=
      (length_distinct_le _).trans (Nat.le_of_eq (List.length_map next))
    refine hle.trans (slices_fit hf hv hlen (fun e he hev => ?_) (List.pairwise_iff_getElem.mpr fun i j hi hj hij hd he => ?_))
    · obtain ⟨n, hn⟩ := List.mem_iff_getElem?.mp he
      exact (hdis n n e e hn hn hev hev).1
    · exact (hdis i j _ _ (List.getElem?_eq_getElem hi) (List.getElem?_eq_getElem hj) hd he).2 (Nat.ne_of_lt hij)

end Sys2Proof.Claims
end

section
/-! SUPPORT. Which address of a list fails the checks of an access, and what the instruction then does (08 R142). -/

namespace Sys2Proof.Machine

open Sys2Proof

/-! ## Sequences of checks -/

theorem answer_bind_ok {α β : Type} {r : Except Stop α} {v : α} (h : r = .ok v) (f : α → Except Stop β) :
    (r >>= f) = f v := by rw [h]; rfl

theorem answer_bind_error {α β : Type} {r : Except Stop α} {e : Stop} (h : r = .error e) (f : α → Except Stop β) :
    (r >>= f) = .error e := by rw [h]; rfl

/-- The first element that a test finds decides a list of checks, when the test finds exactly what the check refuses. -/
theorem forM_error_of_find? {α : Type} {f : α → Except Stop Unit} {p : α → Bool} {e : Stop} {xs : List α} {a : α}
    (hfind : xs.find? p = some a) (hpass : ∀ b, p b = false → f b = .ok ()) (hfail : f a = .error e) :
    xs.forM f = .error e := by
  obtain ⟨-, pre, post, rfl, hpre⟩ := List.find?_eq_some_iff_append.mp hfind
  exact forM_error pre a post (fun b hb => hpass b (by simpa using hpre b hb)) hfail

/-! ## One address -/

section
variable {x : Ctx} {a : Int} {w : Nat}

theorem alignCheck_of_aligned (h : a % (w : Int) = 0) : alignCheck a w = .ok () :=
  if_pos (beq_iff_eq.mpr h)

theorem alignCheck_of_misaligned (h : a % (w : Int) ≠ 0) :
    alignCheck a w = .error (.trap (mkTrap cAlign (BitVec.ofInt 64 a))) :=
  if_neg (mt beq_iff_eq.mp h)

theorem rangeCheck_of_inside (h : 0 ≤ a ∧ a + w ≤ x.p.hdr.size) : x.rangeCheck a w = .ok () :=
  if_pos (decide_eq_true h)

theorem rangeCheck_of_outside (h : ¬ (0 ≤ a ∧ a + w ≤ x.p.hdr.size)) :
    x.rangeCheck a w = .error (.trap (mkTrap cSpRange (BitVec.ofInt 64 a))) :=
  if_neg (mt of_decide_eq_true h)

end

/-! ## The addresses of an access -/

section
variable {x : Ctx} {as : List Int} {a : Int} {w : Nat}

theorem checkAddrs_of_misaligned (h : as.find? (fun b => b % (w : Int) != 0) = some a) :
    x.checkAddrs as w = .error (.trap (mkTrap cAlign (BitVec.ofInt 64 a))) := by
  have ha : a % (w : Int) ≠ 0 := by simpa using List.find?_some h
  have hpass (b : Int) (hb : (b % (w : Int) != 0) = false) : alignCheck b w = .ok () :=
    alignCheck_of_aligned (by simpa using hb)
  exact answer_bind_error (forM_error_of_find? h hpass (alignCheck_of_misaligned ha)) _

theorem checkAddrs_of_outside (halign : ∀ b ∈ as, b % (w : Int) = 0)
    (h : as.find? (fun b => !decide (0 ≤ b ∧ b + w ≤ (x.p.hdr.size : Int))) = some a) :
    x.checkAddrs as w = .error (.trap (mkTrap cSpRange (BitVec.ofInt 64 a))) := by
  have ha : ¬ (0 ≤ a ∧ a + w ≤ (x.p.hdr.size : Int)) := by
    simpa only [Bool.not_eq_true', decide_eq_false_iff_not] using List.find?_some h
  have hpass (b : Int) (hb : (!decide (0 ≤ b ∧ b + w ≤ (x.p.hdr.size : Int))) = false) : x.rangeCheck b w = .ok () :=
    rangeCheck_of_inside (by simpa using hb)
  exact (answer_bind_ok (forM_ok fun b hb => alignCheck_of_aligned (halign b hb)) _).trans
    (forM_error_of_find? h hpass (rangeCheck_of_outside ha))

end

/-! ## The instructions that check them -/

section
variable {x : Ctx} {a : Reg} {off : Off} {w : Nat} {e : Stop}

theorem sliceAddrs_error (h : x.checkAddrs (x.slices.map (x.sliceAddr a off)) w = .error e) :
    x.sliceAddrs a off w = .error e := answer_bind_error h _

theorem laneAddrs_error (h : x.checkAddrs (x.lanes.map (x.laneAddr a off)) 4 = .error e) :
    x.laneAddrs a off = .error e := answer_bind_error h _

end

/-- A type whose alphabet register, if it names one, is defined passes (11 R193). -/
theorem typeCheck_ok {x : Ctx} {t : Ty} (h : ∀ n, alphaIdx t = some n → (x.alpha n).defd = true) :
    x.typeCheck t = .ok () := by
  unfold Ctx.typeCheck
  split
  · next n hn => exact if_pos (h n hn)
  · rfl

/-- An instruction whose body answers what the check of its addresses refuses takes the trap of the first bad address. -/
theorem addressTraps_of {i : Instr} {s : State} {h : Ctx → Prop} {as : Ctx → List Int} {w : Ctx → Nat}
    {body : Ctx → State → Body} (he : exec i s = runInstr i body s)
    (hb : ∀ x u e, h x → x.checkAddrs (as x) (w x) = .error e → body x u = .error e) : addressTraps i s h as w := fun _ =>
  ⟨trapsWhen_of he fun x _ _ ⟨hx, hfind⟩ => hb x _ _ hx (checkAddrs_of_misaligned hfind),
    trapsWhen_of he fun x _ _ ⟨hx, halign, hfind⟩ => hb x _ _ hx (checkAddrs_of_outside halign hfind)⟩

end Sys2Proof.Machine

namespace Sys2Proof.Claims

open Sys2Proof Sys2Proof.Machine

/-- Settles O19: the check of a list answers its first bad address, and each body passes on what the check answers, those of
typed vector accesses after the type's own check. -/
theorem addressChecks : Obligations.AddressChecks := by
  refine ⟨fun c t lt op wide ret add d a b off s => ⟨?sld, ?sst, ?slda, ?ld, ?ldb, ?st, ?ats⟩, fun x as w =>
    ⟨fun h => checkAddrs_ok (fun a ha => alignCheck_of_aligned (h a ha).1) fun a ha => rangeCheck_of_inside (h a ha).2,
      fun a => checkAddrs_of_misaligned, fun a => checkAddrs_of_outside⟩⟩
  case sld => exact addressTraps_of rfl fun x u e _ he => answer_bind_error (sliceAddrs_error he) _
  case sst => exact addressTraps_of rfl fun x u e _ he => answer_bind_error (sliceAddrs_error he) _
  case slda => exact addressTraps_of rfl fun x u e _ he => answer_bind_error (sliceAddrs_error he) _
  case ld => exact addressTraps_of rfl fun x u e hknown he =>
    (answer_bind_ok (typeCheck_ok hknown) _).trans (answer_bind_error (laneAddrs_error he) _)
  case ldb => exact addressTraps_of rfl fun x u e hknown he =>
    (answer_bind_ok (typeCheck_ok hknown) _).trans (answer_bind_error he _)
  case st => exact addressTraps_of rfl fun x u e hknown he =>
    (answer_bind_ok (typeCheck_ok hknown) _).trans (answer_bind_error (laneAddrs_error he) _)
  case ats => exact addressTraps_of rfl fun x u e _ he => answer_bind_error (laneAddrs_error he) _

end Sys2Proof.Claims
end

section
/-! CLAIM. The transpose tile and LAYSET (O23). -/

namespace Sys2Proof.Claims

open Sys2Proof Sys2Proof.Machine

/-- Settles O23: none of the three waits or traps, and each body answers the state that the clause names. -/
theorem tileAndLayout : Obligations.TileAndLayout := by
  intro c f d a b x1 s
  refine ⟨?trtw, ?trtr, ?layset⟩
  case trtw => exact completesWith_of rfl fun x u => rfl
  case trtr => exact completesWith_of rfl fun x u => rfl
  case layset => exact completesWith_of rfl fun x u => rfl

end Sys2Proof.Claims
end

section
/-! SUPPORT. What the batches of a gang let a wait, a fence and a release do: seal and go on where nothing is outstanding, and trap
for the lowest class that has a failure (09 R158, R166, 21 R336, 22 R355). -/

namespace Sys2Proof.Machine

open Sys2Proof

/-! ## The failures of the classes of a mask -/

theorem failedAmong_inMask (m : BitVec 5) (g : Gang) (c : Cls) :
    failedAmong (fun b => inMask m b.cls) g c = if inMask m c then failedOf g c else none := by
  unfold failedOf failedAmong
  split
  · next hc =>
    congr 1
    funext b
    by_cases hb : b.cls = c
    · simp [hb, hc]
    · simp [beq_false_of_ne hb]
  · next hc =>
    refine List.find?_eq_none.mpr fun b _ => ?_
    by_cases hb : b.cls = c <;> simp [hb, hc]

/-- The classes below a class stand before it. -/
theorem allClasses_eq_take_append (k : Cls) :
    allClasses = allClasses.take (clsNo k) ++ k :: allClasses.drop (clsNo k + 1) := by
  cases k <;> rfl

theorem clsNo_lt_of_mem_take {c k : Cls} (h : c ∈ allClasses.take (clsNo k)) : clsNo c < clsNo k := by
  revert h
  cases k <;> cases c <;> decide

section
variable {x : Ctx} {s : State} {g : Gang} (hg : getGang s x.pid x.gi = some g) {m : BitVec 5}
include hg

theorem raiseFailures_of_none (h : ∀ c, inMask m c = true → failedOf g c = none) : x.raiseFailures m s = .ok () := by
  have hnone : ∀ c, failedAmong (fun b => inMask m b.cls) g c = none := fun c => by
    rw [failedAmong_inMask]
    split
    · next hc => exact h c hc
    · rfl
  have hfind : (allClasses.findSome? fun c =>
      (failedAmong (fun b => inMask m b.cls) g c).bind fun b => b.fail.map fun e => (c, e)) = none :=
    List.findSome?_eq_none_iff.mpr fun c _ => by rw [hnone, Option.bind_none]
  simp only [Ctx.raiseFailures, Ctx.raiseAmong, hg, hfind]

/-- The lowest class of the mask that has a failure traps, and the failures of every class of the mask are consumed. -/
theorem raiseFailures_of_lowest {k : Cls} {f : Fail} (hk : inMask m k = true) (hf : (failedOf g k).bind (·.fail) = some f)
    (hlow : ∀ c, inMask m c = true → clsNo c < clsNo k → failedOf g c = none) : x.raiseFailures m s =
      .error (.trapIn (x.updG (consumeAmong fun b => inMask m b.cls) s) (failTrap k f)) := by
  have hfind : (allClasses.findSome? fun c =>
      (failedAmong (fun b => inMask m b.cls) g c).bind fun b => b.fail.map fun e => (c, e)) = some (k, f) := by
    refine List.findSome?_eq_some_iff.mpr ⟨_, k, _, allClasses_eq_take_append k, ?_, fun c hc => ?_⟩
    · obtain ⟨b, hb, hbf⟩ := Option.bind_eq_some_iff.mp hf
      simp [failedAmong_inMask, hk, hb, hbf]
    · rw [failedAmong_inMask]
      split
      · next hm => rw [hlow c hm (clsNo_lt_of_mem_take hc), Option.bind_none]
      · rfl
  simp only [Ctx.raiseFailures, Ctx.raiseAmong, hg, hfind]

/-! ## Seals -/

/-- With room in its counters an instruction that has sealed nothing yet seals every class of its mask. -/
theorem sealOnce_of_room (hn : x.e.sealed = []) (hroom : ∀ c, inMask m c = true → counterOf g c < 63) :
    x.sealOnce m s = .ok (x.sealAll m s, sealBounds m s.nextId) := by
  unfold Ctx.sealOnce Ctx.sealAll sealBounds
  rw [hn, sealEach_ok x _ [] _ _ (masked_nodup m) (by simp) hg fun c hc => hroom c (List.mem_filter.mp hc).2,
    List.append_nil]

/-- COPY is sealed first, and the seal waits while 63 batches of the class are sealed and not complete. -/
theorem sealOnce_of_copy_full (hm : inMask m .copy = true) (hn : x.e.sealed = []) (hfull : 63 ≤ counterOf g .copy) :
    x.sealOnce m s = .error (.park (x.keepSeals [] x.e.paired s) (.sealFull .copy)) := by
  have hfirst : allClasses.filter (inMask m) = .copy :: ([.gather, .atomic, .matrix, .collective] : List Cls).filter (inMask m) :=
    List.filter_cons_of_pos hm
  simp [Ctx.sealOnce, hfirst, hn, Ctx.sealEach, hg, hfull]

end

/-- An instruction that has sealed every class of its mask seals nothing more. -/
theorem sealOnce_of_sealed {x : Ctx} {m : BitVec 5} (h : ∀ c, inMask m c = true → ∃ b ∈ x.e.sealed, b.1 = clsNo c)
    (s : State) : x.sealOnce m s = .ok (s, x.e.sealed) :=
  sealEach_done x s _ _ fun c hc => h c (List.mem_filter.mp hc).2

theorem sealFold_links (pid gi : Nat) : ∀ (cs : List Cls) (s : State),
    (cs.foldl (fun t c => sealClass t pid gi c) s).links = s.links
  | [], _ => rfl
  | _ :: cs, _ => sealFold_links pid gi cs _

@[simp] theorem sealAll_links (x : Ctx) (m : BitVec 5) (s : State) : (x.sealAll m s).links = s.links :=
  sealFold_links _ _ _ s

/-! ## Releases of a panel that is not redundant -/

/-- A release whose batches are complete, none of them failed, goes on in the state with its seals once the home port holds no
write that it waits for. -/
theorem releaseThen_of_delivered {x : Ctx} {s s1 : State} {bounds : List (Nat × Nat)} {g : Gang} {sys : Bool}
    (hs : x.sealOnce allMask s = .ok (s1, bounds)) (hg : getGang s1 x.pid x.gi = some g)
    (h : ∀ b ∈ g.seals, b.order < boundOf bounds b.cls → b.complete = true ∧ b.fail = none) (hd : x.delivered sys s1)
    (cont : State → Body) : x.releaseThen sys cont s = cont s1 := by
  obtain ⟨hr, hposted⟩ := hd
  have hbusy : releaseBusy g bounds allMask = false := releaseBusy_of_done (fun b hb ho => (h b hb ho).1) _
  have hraise : x.raiseWaited bounds s1 = .ok () := raiseWaited_of_done hg fun b hb ho => (h b hb ho).2
  have hport : (sys && s1.links.posted.any fun w => w.pid == some x.pid) = false := by
    cases sys
    · rfl
    · exact hposted rfl
  unfold Ctx.releaseThen
  simp only [hs, hg, hbusy, hraise, hport, hr, Bind.bind, Except.bind, Option.map_some, Option.getD_some,
    Bool.false_eq_true, if_false]

section
variable {i : Instr} {s : State} {x : Ctx} (hx : ctxOf i s = some x)
include hx

/-- A release that has nothing to wait for seals every class and goes on. -/
theorem releaseThen_of_calm {sys : Bool} (h : x.calmRelease sys s) (cont : State → Body) :
    x.releaseThen sys cont (x.begin s) = cont (x.sealAll allMask (x.begin s)) := by
  obtain ⟨hc, hd⟩ := h
  obtain ⟨f, hf⟩ := begin_gang hx
  have hcalm : Gang.calm { x.g with split := modifyAt f x.g.split x.ei } := hc.gang
  obtain ⟨g', hg', -, hdone⟩ := hcalm.sealFold (allClasses.filter (inMask allMask)) hf
  exact releaseThen_of_delivered (sealOnce_of_calm hc hf hcalm) hg' (fun b hb _ => hdone b hb)
    (by rwa [Ctx.delivered, sealAll_links]) cont

/-- A release one of whose batches has failed consumes every failure and traps for the lowest class that has one. -/
theorem releaseThen_of_failed {k : Cls} {f : Fail} (h : x.failedRelease k f) (sys : Bool) (cont : State → Body) :
    x.releaseThen sys cont (x.begin s) = .error (.trapIn
      (x.updG (consumeAmong fun b => inMask allMask b.cls) (x.begin s)) (failTrap k f)) := by
  obtain ⟨hsealed, hcomplete, ⟨b, hb, hbound, hfail⟩, hk, hlow⟩ := h
  obtain ⟨q, hg⟩ := begin_gang hx
  have hbusy := releaseBusy_of_done (g := { x.g with split := modifyAt q x.g.split x.ei }) hcomplete allMask
  have hwaited : (failedAmong (releaseWaits x.e.sealed) { x.g with split := modifyAt q x.g.split x.ei } b.cls).isSome = true :=
    List.find?_isSome.mpr ⟨b, hb, by simp [releaseWaits, hbound, hcomplete b hb hbound, hfail]⟩
  have hraise : x.raiseWaited x.e.sealed (x.begin s) = .error (.trapIn
      (x.updG (consumeAmong fun b => inMask allMask b.cls) (x.begin s)) (failTrap k f)) := by
    rw [Ctx.raiseWaited, hg, if_pos]
    · exact raiseFailures_of_lowest hg (inMask_allMask k) hk fun c _ hc => hlow c hc
    · exact List.any_eq_true.mpr ⟨b.cls, mem_allClasses _, hwaited⟩
  unfold Ctx.releaseThen
  simp only [sealOnce_of_sealed fun c _ => hsealed c, hg, hbusy, hraise, Bind.bind, Except.bind, Option.map_some,
    Option.getD_some, Bool.false_eq_true, if_false]

end

end Sys2Proof.Machine
end

section
/-! CLAIM. CSEAL, CWAIT and CSTAT on the batches of a gang (O33). -/

namespace Sys2Proof.Machine

open Sys2Proof

/-! ## The bodies of CSEAL, CWAIT and CSTAT.RAISE (21 R335 to R337) -/

section
variable {i : Instr} {s : State} {x : Ctx} (hx : ctxOf i s = some x) {cls : Cls}
include hx

/-- CWAIT and CSTAT.RAISE go on where the class has no failure. -/
theorem raiseFailures_then_of_none (h : failedOf x.g cls = none) (r : Body) :
    (x.raiseFailures (maskOfCls cls) (x.begin s) >>= fun _ => r) = r :=
  answer_bind_ok (raiseFailures_none hx (inMask_one cls) h) _

/-- They trap for the failure that the class has. -/
theorem raiseFailures_then_of_failed {f : Fail} (h : (failedOf x.g cls).bind (·.fail) = some f) (r : Body) :
    (x.raiseFailures (maskOfCls cls) (x.begin s) >>= fun _ => r) =
      .error (.trapIn (x.updG (fun g => consume g cls) (x.begin s)) (failTrap cls f)) :=
  answer_bind_error (raiseFailures_one hx (inMask_one cls) h) _

end

end Sys2Proof.Machine

namespace Sys2Proof.Claims

open Sys2Proof Sys2Proof.Machine

/-- Settles O33: CSEAL and CWAIT by the counter of the class, CWAIT and CSTAT.RAISE by the failure that the class has. -/
theorem batches : Obligations.Batches := by
  intro c cls n d f s
  refine ⟨?cseal, ?csealFull, ?cwait, ?cwaitBlocks, ?cwaitTraps, ?cstatCnt, ?cstatRaise, ?cstatRaiseTraps, ?cstatRing⟩
  case cseal => exact completesWhen_of rfl fun x _ _ hroom => if_neg (Nat.not_le.mpr hroom)
  case csealFull => exact blocksWhen_of rfl fun x _ _ hfull => if_pos hfull
  case cwait => exact completesWhen_of rfl fun x hx _ ⟨hcount, hnone⟩ =>
    (if_neg (Nat.not_lt.mpr hcount)).trans (raiseFailures_then_of_none hx hnone _)
  case cwaitBlocks => exact blocksWhen_of rfl fun x _ _ hcount => if_pos hcount
  case cwaitTraps => exact trapsAfter_of rfl fun x hx _ ⟨hcount, hfail⟩ =>
    (if_neg (Nat.not_lt.mpr hcount)).trans (raiseFailures_then_of_failed hx hfail _)
  case cstatCnt => exact completesWith_of rfl fun x u => rfl
  case cstatRaise => exact completesWhen_of rfl fun x hx _ hnone => raiseFailures_then_of_none hx hnone _
  case cstatRaiseTraps => exact trapsAfter_of rfl fun x hx _ hfail => raiseFailures_then_of_failed hx hfail _
  case cstatRing => exact completesWith_of rfl fun x u => rfl

end Sys2Proof.Claims
end

section
/-! CLAIM. ATOM and ATOMS send their commands, after the release of their form (O35). -/

namespace Sys2Proof.Machine

open Sys2Proof

/-! ## The form of an atomic (09 R170) -/

/-- What lets an atomic of a panel send its command without a wait: its form's release has nothing to wait for, or its form has none
and its panel puts none before it. -/
def Ctx.formCalm (x : Ctx) (form : AtForm) (scope : BitVec 3) (s : State) : Prop :=
  if atReleases form then x.calmRelease (scope == 5) s else x.p.hdr.redundant = false

/-- The state in which such an atomic sends its command: a releasing form has sealed every class. -/
def Ctx.formSealed (x : Ctx) (form : AtForm) (s : State) : State := if atReleases form then x.sealAll allMask s else s

theorem toNat_beq_five (scope : BitVec 3) : (scope.toNat == 5) = (scope == 5) := by
  revert scope
  decide

theorem atomicForm_of_calm {i : Instr} {s : State} {x : Ctx} (hx : ctxOf i s = some x) {form : AtForm} {scope : BitVec 3}
    (h : x.formCalm form scope s) (send : State → Body) :
    x.atomicForm form scope.toNat send (x.begin s) = send (x.formSealed form (x.begin s)) := by
  obtain ⟨-, -, -, -, hunknown, -⟩ := ctxOf_spec hx
  unfold Ctx.formCalm at h
  unfold Ctx.atomicForm Ctx.formSealed
  rw [hunknown, toNat_beq_five, if_neg (by decide)]
  cases hform : atReleases form with
  | true =>
    rw [if_pos hform] at h
    exact releaseThen_of_calm hx h send
  | false =>
    rw [hform, if_neg Bool.false_ne_true] at h
    simp [h]

/-! ## The checks of ATOM and ATOMS (21 R342, R343) -/

/-- ATOM goes on when the address of every active lane is aligned. -/
theorem atomChecks_ok {i : Instr} {s : State} {x : Ctx} (hx : ctxOf i s = some x) {as : List LaneAtom}
    (halign : ∀ y ∈ as, y.va % 4 = 0) (b : Reg) (r : Body) :
    (do if x.knows b then as.forM fun y => alignCheck y.va 4
        r : Body) = r := by
  rw [if_pos (ctxOf_knows hx b)]
  exact answer_bind_ok (forM_ok fun y hy => alignCheck_ok (halign y hy)) _

/-- ATOMS goes on when its address is aligned, and the slot of a returning form is aligned and in scratchpad. -/
theorem atomsChecks_ok {x : Ctx} {va slot w : Nat} {ret : Bool} (halign : va % w = 0)
    (hslot : ret = true → slot % w = 0 ∧ slot + w ≤ x.p.hdr.size) (r : Body) :
    (do alignCheck va w
        if ret then x.checkAddrs [(slot : Int)] w
        r : Body) = r := by
  rw [alignCheck_ok halign]
  cases ret with
  | false => rfl
  | true =>
    obtain ⟨hmod, hin⟩ := hslot rfl
    have hcheck : x.checkAddrs [(slot : Int)] w = .ok () :=
      checkAddrs_ok (by simpa using alignCheck_ok hmod) (by simpa using rangeCheck_ok hin)
    exact answer_bind_ok hcheck _

end Sys2Proof.Machine

namespace Sys2Proof.Claims

open Sys2Proof Sys2Proof.Machine

/-- Settles O35: the checks of the addresses pass, the form's release goes on at once, and what is left sends the command. -/
theorem atomics : Obligations.Atomics := by
  intro c form lt st op scope ret d a b cc off s
  refine ⟨?atom, ?atomNoLane, ?atoms⟩
  case atom =>
    exact completesWhen_of rfl fun x hx _ ⟨halign, hact, hcalm⟩ =>
      (atomChecks_ok hx halign b _).trans ((atomicForm_of_calm hx hcalm _).trans (if_neg hact))
  case atomNoLane =>
    exact completesWhen_of rfl fun x hx _ ⟨hact, hcalm⟩ =>
      (atomChecks_ok hx (by simp [lanes_of_no_lane hact]) b _).trans ((atomicForm_of_calm hx hcalm _).trans (if_pos hact))
  case atoms =>
    exact completesWhen_of rfl fun x hx _ ⟨halign, hslot, hcalm⟩ =>
      (atomsChecks_ok halign hslot _).trans (atomicForm_of_calm hx hcalm _)

end Sys2Proof.Claims
end

section
/-! CLAIM. Releases, acquires and fences, with nothing to wait for and waiting (O39). -/

namespace Sys2Proof.Machine

open Sys2Proof

/-! ## Acquires (09 R159) -/

theorem acquireAt_of_lt {scope : Nat} (h : scope < 2) (core : Nat) (u : State) : acquireAt core scope u = u := if_pos h

theorem rbuf_acquireAt {core scope : Nat} (hcore : core < 512) (h : 2 ≤ scope) (u : State) :
    (coreAt (acquireAt core scope u) core).rbuf = [] := by
  have hcopies : coreAt (acquireAt core scope u) core = coreAt (updCore u core fun c => { c with rbuf := [] }) core := by
    rw [acquireAt, if_neg (Nat.not_lt.mpr h)]
    rfl
  rw [hcopies, coreAt_updCore _ _ _ hcore]

theorem smkCache_acquireAt {core scope : Nat} (hcore : core < 512) (h : 2 ≤ scope) (u : State) :
    (vget (acquireAt core scope u).clusters (core / 16) cluster0).smkCache = [] := by
  have hclusters : (acquireAt core scope u).clusters = vset u.clusters (core / 16)
      { vget u.clusters (core / 16) cluster0 with smkCache := [], rbuf := [] } := by
    rw [acquireAt, if_neg (Nat.not_lt.mpr h)]
    rfl
  rw [hclusters, vget_vset_same _ _ _ _ (by omega)]

/-! ## A class that has nothing outstanding (09 R166) -/

/-- No command of a class is outstanding, and no batch of it has failed. -/
def Gang.calmOf (g : Gang) (c : Cls) : Prop :=
  ((openOf g c).left = 0 ∧ (openOf g c).fail = none) ∧ ∀ b ∈ g.seals, b.cls = c → b.complete = true ∧ b.fail = none

theorem Gang.calmOf.counter {g : Gang} {c : Cls} (h : g.calmOf c) : counterOf g c = 0 := by
  refine List.length_eq_zero_iff.mpr (List.filter_eq_nil_iff.mpr fun b hb => ?_)
  by_cases hcls : b.cls = c
  · simp [(h.2 b hb hcls).1]
  · simp [hcls]

theorem Gang.calmOf.failed {g : Gang} {c : Cls} (h : g.calmOf c) : failedOf g c = none := by
  refine List.find?_eq_none.mpr fun b hb => ?_
  by_cases hcls : b.cls = c
  · simp [(h.2 b hb hcls).2]
  · simp [hcls]

theorem calmOf_of_counter_failed {g : Gang} {c : Cls} (hleft : (openOf g c).left = 0) (hfail : (openOf g c).fail = none)
    (hcount : counterOf g c = 0) (hnone : failedOf g c = none) : g.calmOf c := by
  refine ⟨⟨hleft, hfail⟩, fun b hb hcls => ?_⟩
  have hcomplete : b.complete = true := by
    simpa [hcls] using List.filter_eq_nil_iff.mp (List.length_eq_zero_iff.mp hcount) b hb
  exact ⟨hcomplete, by simpa [hcls, hcomplete] using List.find?_eq_none.mp hnone b hb⟩

/-- When every batch of a class is complete or waits for no command, settling leaves of the class those that are complete. -/
theorem complete_of_mem_settleSeals {c : Cls} : ∀ {bs before : List Batch},
    (∀ b ∈ bs, b.cls = c → b.complete = true ∨ b.left = 0 ∧ b.fail = none) → (∀ b ∈ before, b.cls ≠ c) →
    ∀ b ∈ settleSeals before bs, b.cls = c → b ∈ bs ∧ b.complete = true
  | [], _, _, _, _, hb, _ => nomatch hb
  | a :: bs, before, h, hbefore, b, hb, hcls => by
    have ih {before : List Batch} (hbefore : ∀ b ∈ before, b.cls ≠ c) (hb : b ∈ settleSeals before bs) :
        b ∈ a :: bs ∧ b.complete = true := by
      obtain ⟨hmem, hcomplete⟩ :=
        complete_of_mem_settleSeals (fun b hb => h b (List.mem_cons_of_mem a hb)) hbefore b hb hcls
      exact ⟨List.mem_cons_of_mem a hmem, hcomplete⟩
    unfold settleSeals at hb
    split at hb
    · next hcomplete =>
      rcases List.mem_cons.mp hb with rfl | hb
      · exact ⟨List.mem_cons_self, hcomplete⟩
      · exact ih hbefore hb
    · next hopen =>
      by_cases ha : a.cls = c
      · obtain ⟨hleft, hfail⟩ := (h a List.mem_cons_self ha).resolve_left hopen
        have hfirst : (before.any fun d => d.cls == a.cls) = false :=
          List.any_eq_false.mpr fun d hd => by simpa [ha] using hbefore d hd
        simp only [hleft, hfirst, hfail] at hb
        exact ih hbefore (by simpa using hb)
      · have hbefore' : ∀ b ∈ a :: before, b.cls ≠ c := List.forall_mem_cons.mpr ⟨ha, hbefore⟩
        have hne : b ≠ a := fun e => ha (e ▸ hcls)
        have hne' : b ≠ { a with complete := true } := fun e => ha (by rw [e] at hcls; exact hcls)
        split at hb
        · split at hb
          · exact ih hbefore ((List.mem_cons.mp hb).resolve_left hne')
          · exact ih hbefore hb
        · exact ih hbefore' ((List.mem_cons.mp hb).resolve_left hne)

/-- A seal, of whichever class, keeps a class that has nothing outstanding. -/
theorem sealClass_calmOf {s : State} {pid gi : Nat} {g : Gang} (hg : getGang s pid gi = some g) (d : Cls) :
    ∃ g', getGang (sealClass s pid gi d) pid gi = some g' ∧ ∀ c, g.calmOf c → g'.calmOf c := by
  obtain ⟨g', hg', hseals, hopens, -⟩ := seal_gang (c := d) hg
  refine ⟨g', hg', fun c ⟨hopen, hsealed⟩ => ⟨?_, ?_⟩⟩
  · by_cases hd : d = c
    · subst hd
      obtain ⟨m, hm⟩ := openOf_map_same g d (s.nextId + 1)
      rw [← hopens] at hm
      rw [openOf, hm]
      exact ⟨rfl, rfl⟩
    · have hm := openOf_map_ne (g := g) hd (s.nextId + 1)
      rw [← hopens] at hm
      rw [openOf, hm]
      exact hopen
  · have hnew : ∀ b ∈ g.seals ++ [{ openOf g d with sealedAt := s.now, order := s.nextId }], b.cls = c →
        (b.complete = true ∨ b.left = 0) ∧ b.fail = none := by
      intro b hb hcls
      rcases List.mem_append.mp hb with hb | hb
      · exact ⟨.inl (hsealed b hb hcls).1, (hsealed b hb hcls).2⟩
      · obtain rfl := List.mem_singleton.mp hb
        have hd : d = c := (openOf_cls g d).symm.trans hcls
        subst hd
        exact ⟨.inr hopen.1, hopen.2⟩
    rw [hseals]
    intro b hb hcls
    obtain ⟨hmem, hcomplete⟩ := complete_of_mem_settleSeals
      (fun b hb hcls => (hnew b hb hcls).1.imp_right fun hleft => ⟨hleft, (hnew b hb hcls).2⟩) (by simp) b hb hcls
    exact ⟨hcomplete, (hnew b hmem hcls).2⟩

theorem sealFold_calmOf {pid gi : Nat} : ∀ (cs : List Cls) {s : State} {g : Gang}, getGang s pid gi = some g →
    ∃ g', getGang (cs.foldl (fun t c => sealClass t pid gi c) s) pid gi = some g' ∧ ∀ c, g.calmOf c → g'.calmOf c
  | [], _, g, hg => ⟨g, hg, fun _ => id⟩
  | d :: cs, _, _, hg => by
    obtain ⟨g1, hg1, h1⟩ := sealClass_calmOf hg d
    obtain ⟨g2, hg2, h2⟩ := sealFold_calmOf cs hg1
    exact ⟨g2, hg2, fun c h => h2 c (h1 c h)⟩

/-! ## The body of FENCE (22 R355) -/

/-- What the body of FENCE does. -/
def fenceBody (m : BitVec 5) (x : Ctx) (t : State) : Body := do
  let (t1, bounds) ← x.sealOnce m t
  if ((getGang t1 x.pid x.gi).map fun g => fenceBusy g m).getD false then
    .error (.park (x.keepSeals bounds none t1) (.fence m))
  else
    x.raiseFailures m t1
    .ok t1

theorem exec_fence (c : Ctl) (m : BitVec 5) (s : State) : exec (.fence c m) s = runInstr (.fence c m) (fenceBody m) s := rfl

theorem fenceBusy_eq_false {g : Gang} {m : BitVec 5} (h : ∀ c, inMask m c = true → counterOf g c = 0) :
    fenceBusy g m = false := by
  refine List.any_eq_false.mpr fun c _ => ?_
  cases hc : inMask m c with
  | false => simp
  | true => simp [h c hc]

/-- A sealed batch of the mask that is not complete keeps a fence waiting. -/
theorem fenceBusy_of_mem {g : Gang} {m : BitVec 5} {b : Batch} (hb : b ∈ g.seals) (hopen : b.complete = false)
    (hm : inMask m b.cls = true) : fenceBusy g m = true := by
  refine List.any_eq_true.mpr ⟨b.cls, mem_allClasses _, ?_⟩
  have hcount : counterOf g b.cls ≠ 0 := fun h => by
    simpa [hopen] using List.filter_eq_nil_iff.mp (List.length_eq_zero_iff.mp h) b hb
  simp [hm, hcount]

section
variable {m : BitVec 5} {x : Ctx} {t t1 : State} {bounds : List (Nat × Nat)} {g : Gang}
  (hs : x.sealOnce m t = .ok (t1, bounds)) (hg : getGang t1 x.pid x.gi = some g)
include hs hg

theorem fenceBody_busy (h : fenceBusy g m = true) :
    fenceBody m x t = .error (.park (x.keepSeals bounds none t1) (.fence m)) := by
  simp only [fenceBody, hs, hg, h, Bind.bind, Except.bind, Option.map_some, Option.getD_some, if_true]

theorem fenceBody_done (h : ∀ c, inMask m c = true → counterOf g c = 0) :
    fenceBody m x t = x.raiseFailures m t1 >>= fun _ => .ok t1 := by
  simp only [fenceBody, hs, hg, fenceBusy_eq_false h, Bind.bind, Except.bind, Option.map_some, Option.getD_some,
    Bool.false_eq_true, if_false]

end

section
variable {i : Instr} {s : State} {x : Ctx} (hx : ctxOf i s = some x) {m : BitVec 5}
include hx

theorem fenceBody_of_calm (h : x.calm m) : fenceBody m x (x.begin s) = .ok (x.sealAll m (x.begin s)) := by
  obtain ⟨hn, -, hclasses⟩ := h
  obtain ⟨f, hf⟩ := begin_gang hx
  have hcalm : ∀ c, inMask m c = true → Gang.calmOf { x.g with split := modifyAt f x.g.split x.ei } c := fun c hc => by
    obtain ⟨hleft, hfail, hcount, hnone⟩ := hclasses c hc
    exact calmOf_of_counter_failed hleft hfail hcount hnone
  have hroom : ∀ c, inMask m c = true → counterOf { x.g with split := modifyAt f x.g.split x.ei } c < 63 := fun c hc => by
    rw [(hcalm c hc).counter]
    decide
  obtain ⟨g', hg', hkeeps⟩ := sealFold_calmOf (allClasses.filter (inMask m)) hf
  rw [fenceBody_done (sealOnce_of_room hf hn hroom) hg' fun c hc => (hkeeps c (hcalm c hc)).counter]
  exact answer_bind_ok (raiseFailures_of_none hg' fun c hc => (hkeeps c (hcalm c hc)).failed) _

theorem fenceBody_of_outstanding (hm : x.sealable m) (ho : x.outstanding m s) : fenceBody m x (x.begin s) =
    .error (.park (x.keepSeals (sealBounds m (x.begin s).nextId) none (x.sealAll m (x.begin s))) (.fence m)) := by
  obtain ⟨g, b, hg, hb, hopen, hin, -⟩ := outstanding_sealed hx hm ho
  exact fenceBody_busy (sealOnce_ok hx hm) hg (fenceBusy_of_mem hb hopen hin)

theorem fenceBody_of_copy_full (hm : inMask m .copy = true) (hn : x.e.sealed = []) (hp : x.e.paired = none)
    (hfull : 63 ≤ counterOf x.g .copy) :
    fenceBody m x (x.begin s) = .error (.park (x.keepSeals [] none (x.begin s)) (.sealFull .copy)) := by
  obtain ⟨f, hf⟩ := begin_gang hx
  rw [fenceBody, ← hp]
  exact answer_bind_error (sealOnce_of_copy_full hf hm hn hfull) _

theorem fenceBody_of_settled (hs : ∀ c, inMask m c = true → ∃ b ∈ x.e.sealed, b.1 = clsNo c)
    (h : ∀ c, inMask m c = true → counterOf x.g c = 0 ∧ failedOf x.g c = none) :
    fenceBody m x (x.begin s) = .ok (x.begin s) := by
  obtain ⟨f, hf⟩ := begin_gang hx
  rw [fenceBody_done (sealOnce_of_sealed hs _) hf fun c hc => (h c hc).1]
  exact answer_bind_ok (raiseFailures_of_none hf fun c hc => (h c hc).2) _

theorem fenceBody_of_failed {k : Cls} {f : Fail} (h : x.failedFence m k f) : fenceBody m x (x.begin s) =
    .error (.trapIn (x.updG (consumeAmong fun b => inMask m b.cls) (x.begin s)) (failTrap k f)) := by
  obtain ⟨hdone, hk, hf, hlow⟩ := h
  obtain ⟨q, hg⟩ := begin_gang hx
  rw [fenceBody_done (sealOnce_of_sealed (fun c hc => (hdone c hc).2) _) hg fun c hc => (hdone c hc).1]
  exact answer_bind_error (raiseFailures_of_lowest hg hk hf hlow) _

end

end Sys2Proof.Machine

namespace Sys2Proof.Claims

open Sys2Proof Sys2Proof.Machine

/-- Settles O39: what a release and a fence do by what they find of the batches of their classes, and an acquire by its scope. -/
theorem phases : Obligations.Phases := by
  intro c scope mask k f s
  refine ⟨?acq, ?rel, ?ar, ?fence, ?fenceWaits, ?relWaits, ?arWaits, ?fenceFull, ?fenceSettled, ?relSettled, ?relFailed, ?arFailed,
    ?fenceFailed, ?arSettled, ?acquire⟩
  case acq => exact completesWith_of rfl fun x u => rfl
  case rel => exact completesWhen_of rfl fun x hx _ hcalm => releaseThen_of_calm hx hcalm _
  case ar => exact completesWhen_of rfl fun x hx _ hcalm => releaseThen_of_calm hx hcalm _
  case fence => exact completesWhen_of (exec_fence ..) fun x hx _ hcalm => fenceBody_of_calm hx hcalm
  case fenceWaits =>
    exact parksWhen_of (exec_fence ..) (fun _ => rfl) fun x hx _ ⟨hm, ho⟩ => fenceBody_of_outstanding hx hm ho
  case relWaits => exact parksWhen_of rfl (fun _ => rfl) fun x hx _ ⟨hm, ho⟩ => release_parks hx hm ho _ _
  case arWaits => exact parksWhen_of rfl (fun _ => rfl) fun x hx _ ⟨hm, ho⟩ => release_parks hx hm ho _ _
  case fenceFull =>
    exact parksWhen_of (exec_fence ..) (fun _ => rfl) fun x hx _ ⟨hm, hn, hp, hfull⟩ => fenceBody_of_copy_full hx hm hn hp hfull
  case fenceSettled =>
    exact completesWhen_of (exec_fence ..) fun x hx _ ⟨⟨hsealed, _⟩, h⟩ => fenceBody_of_settled hx hsealed h
  case relSettled => exact completesWhen_of rfl fun x hx _ ⟨hs, hd⟩ => release_settled hx hs hd _
  case relFailed => exact trapsAfter_of rfl fun x hx _ h => releaseThen_of_failed hx h _ _
  case arFailed => exact trapsAfter_of rfl fun x hx _ h => releaseThen_of_failed hx h _ _
  case fenceFailed => exact trapsAfter_of (exec_fence ..) fun x hx _ h => fenceBody_of_failed hx h
  case arSettled => exact completesWhen_of rfl fun x hx _ ⟨hs, hd⟩ => release_settled hx hs hd _
  case acquire => exact fun core u => ⟨acquireAt_of_lt (by decide) core u, acquireAt_of_lt (by decide) core u,
    fun hcore h => ⟨rbuf_acquireAt hcore h u, smkCache_acquireAt hcore h u⟩⟩

end Sys2Proof.Claims
end

section
/-! SUPPORT. What the alphabet instructions share: the check of their alphabet register, the count of invalid codes with its trap, and
the containers that SYMLD and SYMST name (11 R193, R199, 19 R305). -/

namespace Sys2Proof.Machine

open Sys2Proof

/-! ## The alphabet register (11 R193) -/

section
variable {x : Ctx} {n : Nat}

theorem alphaCheck_of_defined (h : (x.alpha n).defd = true) : x.alphaCheck n = .ok () := if_pos h

theorem alphaCheck_of_undefined (h : (x.alpha n).defd = false) :
    x.alphaCheck n = .error (.trap (mkTrap cAlphabet (BitVec.ofNat 64 n))) := if_neg (Bool.eq_false_iff.mp h)

end

/-- An instruction that begins with the check of its alphabet register traps where that is undefined. -/
theorem trapsWhen_undefined {i : Instr} {s : State} {r : Nat} {k : Ctx → State → Unit → Body}
    (he : exec i s = runInstr i (fun x u => x.alphaCheck r >>= k x u) s) :
    trapsWhen i s (fun x => (x.alpha r).defd = false) (fun _ => mkTrap cAlphabet (BitVec.ofNat 64 r)) :=
  trapsWhen_of he fun _ _ _ h => answer_bind_error (alphaCheck_of_undefined h) _

/-! ## The image of ALDEF (19 R300) -/

theorem spOf_of_ctx {i : Instr} {s : State} {x : Ctx} (hx : ctxOf i s = some x) : spOf s x.pid = x.p.sp := by
  obtain ⟨-, hp, -⟩ := ctxOf_spec hx
  simp [spOf, hp]

theorem aldefImage_begin {i : Instr} {s : State} {x : Ctx} (hx : ctxOf i s = some x) (a : Reg) (off : Off) :
    x.aldefImage (x.begin s) a off = x.aldefImage s a off := by
  unfold Ctx.aldefImage
  rw [begin_sp hx, spOf_of_ctx hx]

/-! ## The count of invalid codes (11 R199) -/

/-- While nothing is unknown, registers show every event. -/
theorem shown_of_ctx {i : Instr} {s : State} {x : Ctx} (hx : ctxOf i s = some x) (rs : List Reg) (n : Nat) :
    x.shown rs n = n :=
  if_pos (List.all_eq_true.mpr fun r _ => ctxOf_knows hx r)

section
variable {x : Ctx} {r n : Nat}

theorem invalid_of_silent (h : (x.alpha r).trap = false ∨ n = 0) (u : State) :
    x.invalid r n u = .ok (x.countInvalid r n u) := by
  refine if_neg fun ⟨hn, ht⟩ => ?_
  rcases h with h | h
  · exact Bool.eq_false_iff.mp h ht
  · exact hn h

theorem invalid_of_trapping (ht : (x.alpha r).trap = true) (hn : n ≠ 0) (u : State) :
    x.invalid r n u = .error (.trapIn (x.countInvalid r n u) (mkTrap cInvalidCode (BitVec.ofNat 64 r))) :=
  if_pos ⟨hn, ht⟩

end

/-- An instruction that counts its invalid codes and then has an effect. -/
theorem decodes_of {i : Instr} {s : State} {h : Ctx → Prop} {r : Nat} {n : Ctx → Nat} {f : Ctx → State → State}
    {body : Ctx → State → Body} (he : exec i s = runInstr i body s) (hb : ∀ x, ctxOf i s = some x → h x →
      body x (x.begin s) = (x.invalid r (n x) (x.begin s) >>= fun u => .ok (f x u))) : decodes i s h r n f :=
  ⟨completesWhen_of he fun x hx _ ⟨hh, hsilent⟩ => (hb x hx hh).trans (answer_bind_ok (invalid_of_silent hsilent _) _),
    trapsAfter_of he fun x hx _ ⟨hh, ht, hn⟩ => (hb x hx hh).trans (answer_bind_error (invalid_of_trapping ht hn _) _)⟩

/-! ## Lanes -/

theorem filter_filter_and {α : Type} (p q : α → Bool) (xs : List α) :
    (xs.filter p).filter q = xs.filter fun a => p a && q a := by
  rw [List.filter_filter]
  exact List.filter_congr fun a _ => Bool.and_comm ..

/-- A write of a vector register takes values of active lanes only. -/
theorem setV_congr {x : Ctx} {f g : Nat → Word} (h : ∀ l ∈ x.lanes, f l = g l) (r : Reg) (s : State) :
    x.setV r f s = x.setV r g s := by
  have hlane (old : VReg) (l : Fin 32) :
      (if x.on l.val then f l.val else vget old.lanes l.val 0) = if x.on l.val then g l.val else vget old.lanes l.val 0 :=
    ite_congr rfl (fun hon => h _ (mem_lanes.mpr ⟨l.isLt, hon⟩)) fun _ => rfl
  simp only [Ctx.setV, hlane]

/-! ## The containers of SYMLD and SYMST (19 R305, R306) -/

/-- The ETYPE of an alphabet register names it (08 Table 8-4). -/
theorem layAlpha_of_etype {lay : Layout} {an : BitVec 4} (h : lay.etype = 0x20 + an.toNat) : layAlpha lay = some an.toNat := by
  have hin : 0x20 ≤ lay.etype ∧ lay.etype < 0x30 := by omega
  have hcode : Ty.ofCode lay.etype = some (.alpha (BitVec.ofNat 4 (lay.etype - 0x20))) := if_pos hin
  have hreg : BitVec.ofNat 4 (lay.etype - 0x20) = an := by simp [h]
  rw [layAlpha, hcode, hreg]
  rfl

/-- The lanes with the containers that they name. -/
def Ctx.symbolLanes (x : Ctx) (a b : Reg) : List (Nat × Nat) := x.lanes.map fun l => (l, x.symbolAddr a b l)

theorem symAddrs_of_fit {x : Ctx} {an : BitVec 4} {a b : Reg} (h : x.symbolsFit an a b) :
    x.symAddrs an a b = .ok (x.symbolLanes a b) := by
  obtain ⟨hdef, hlanes⟩ := h
  have hlay : (x.lanes.forM fun l => x.layoutAlpha (x.layout a (sliceOf l))) = .ok () := forM_ok fun l hl => by
    obtain ⟨-, hety, -, -⟩ := hlanes l hl
    simp only [Ctx.layoutAlpha, layAlpha_of_etype hety, alphaCheck_of_defined hdef]
  have hnamed : (x.lanes.all fun l => !(x.layout a (sliceOf l)).bad && (x.layout a (sliceOf l)).etype == 0x20 + an.toNat) =
      true := List.all_eq_true.mpr fun l hl => by
    obtain ⟨hgood, hety, -, -⟩ := hlanes l hl
    simp [hgood, hety]
  have haddr : x.checkAddrs (x.lanes.map fun l => (x.symbolAddr a b l : Int)) (x.alpha an.toNat).bytes = .ok () :=
    checkAddrs_ok
      (List.forall_mem_map.mpr fun l hl => have ⟨_, _, halign, _⟩ := hlanes l hl; alignCheck_ok halign)
      (List.forall_mem_map.mpr fun l hl => have ⟨_, _, _, hrange⟩ := hlanes l hl; rangeCheck_ok hrange)
  refine (answer_bind_ok (alphaCheck_of_defined hdef) _).trans <| (answer_bind_ok hlay _).trans <|
    (answer_bind_ok (if_pos hnamed) _).trans ?_
  split
  · exact answer_bind_ok haddr _
  · rfl

section
variable {x : Ctx} {a b : Reg}

theorem map_snd_symbolLanes : (x.symbolLanes a b).map (·.2) = x.lanes.map (x.symbolAddr a b) := by
  simp [Ctx.symbolLanes, Function.comp_def]

/-- The containers with a property are those that lanes name whose container has it. -/
theorem map_snd_filter_symbolLanes (q : Nat → Bool) :
    ((x.symbolLanes a b).filter fun p => q p.2).map (·.2) =
      (x.lanes.filter fun l => q (x.symbolAddr a b l)).map (x.symbolAddr a b) := by
  simp [Ctx.symbolLanes, List.filter_map, Function.comp_def]

/-- What the lanes that name one container have of it. -/
theorem map_fst_filter_symbolLanes {α : Type} (p : Nat) (f : Nat → α) :
    (((x.symbolLanes a b).filter fun q => q.2 == p).map fun q => f q.1) =
      (x.lanes.filter fun l => x.symbolAddr a b l == p).map f := by
  simp [Ctx.symbolLanes, List.filter_map, Function.comp_def]

/-- An active lane finds its container. -/
theorem find_symbolLanes {l : Nat} (hl : l ∈ x.lanes) :
    (((x.symbolLanes a b).find? fun p => p.1 == l).map (·.2)).getD 0 = x.symbolAddr a b l := by
  have hfind : (x.lanes.find? fun k => k == l) = some l := by
    cases hf : x.lanes.find? fun k => k == l with
    | none => exact absurd (List.find?_eq_none.mp hf l hl) (by simp)
    | some k => exact congrArg some (by simpa using List.find?_some hf)
  simp [Ctx.symbolLanes, List.find?_map, hfind]

end

end Sys2Proof.Machine
end

section
/-! CLAIM. The alphabet registers and the symbols of vector registers and packed words (O24, O25, O26). -/

namespace Sys2Proof.Claims

open Sys2Proof Sys2Proof.Machine

/-- Settles O24: the image is the one that stood before the instruction, and its address passes the checks that come after that of
the image. -/
theorem alphabetRegisters : Obligations.AlphabetRegisters := by
  intro c d a off word s
  refine ⟨?aldef, ?aldefBad, ?alrd, ?alrdUndefined⟩
  case aldef =>
    refine completesWhen_of rfl fun x hx _ ⟨halign, hlow, hhigh, hgood⟩ => ?_
    rw [← aldefImage_begin hx] at hgood ⊢
    have haddr : x.checkAddrs [x.aldefAddr a off] 32 = .ok () := checkAddrs_ok
      (List.forall_mem_singleton.mpr (alignCheck_of_aligned halign))
      (List.forall_mem_singleton.mpr (rangeCheck_of_inside ⟨hlow, hhigh⟩))
    exact (if_neg fun ⟨_, _, _, hbad⟩ => Bool.eq_false_iff.mp hgood hbad).trans (answer_bind_ok haddr _)
  case aldefBad =>
    refine trapsWhen_of rfl fun x hx _ ⟨halign, hlow, hhigh, hbad⟩ => ?_
    rw [← aldefImage_begin hx] at hbad
    exact if_pos ⟨halign, hlow, hhigh, hbad⟩
  case alrd => exact completesWhen_of rfl fun x _ _ h => answer_bind_ok (alphaCheck_of_defined h) _
  case alrdUndefined => exact trapsWhen_undefined rfl

/-- Settles O25: past the check of the register, UNPK and PACK count their invalid codes and write the lanes, and VALC only writes
them. -/
theorem symbolRegisters : Obligations.SymbolRegisters := by
  intro c sym an d a first s
  refine ⟨?unpk, ?pack, ?valc, trapsWhen_undefined rfl, trapsWhen_undefined rfl, trapsWhen_undefined rfl⟩
  case unpk =>
    refine decodes_of rfl fun x hx h => (answer_bind_ok (alphaCheck_of_defined h) _).trans ?_
    dsimp only
    rw [shown_of_ctx hx, filter_filter_and]
  case pack => exact decodes_of rfl fun x _ h => answer_bind_ok (alphaCheck_of_defined h) _
  case valc => exact completesWhen_of rfl fun x _ _ h => answer_bind_ok (alphaCheck_of_defined h) _

/-- Settles O26: past the check of the register, both count the invalid codes of the words, SYMI those of its symbols besides, and
write the lanes. -/
theorem symbolWords : Obligations.SymbolWords := by
  intro c sym an d a b cc s
  refine ⟨?symx, ?symi, trapsWhen_undefined rfl, trapsWhen_undefined rfl⟩
  case symx =>
    refine decodes_of rfl fun x hx h => (answer_bind_ok (alphaCheck_of_defined h) _).trans ?_
    dsimp only
    rw [shown_of_ctx hx, filter_filter_and]
  case symi =>
    refine decodes_of rfl fun x hx h => (answer_bind_ok (alphaCheck_of_defined h) _).trans ?_
    dsimp only
    rw [shown_of_ctx hx, shown_of_ctx hx]

end Sys2Proof.Claims
end

section
/-! CLAIM. The symbols that SYMLD and SYMST reach through layout words (O27). -/

namespace Sys2Proof.Claims

open Sys2Proof Sys2Proof.Machine

/-- Settles O27: past the checks of the containers, each lane finds the one that it names, and the lanes of one container rewrite it
together, after the count of the symbols that no code carries and before that of the codes that stood there. -/
theorem symbolMemory : Obligations.SymbolMemory := by
  intro c sym an d a b cc s
  refine ⟨?symld, ?symst, ?symstTraps⟩
  case symld =>
    refine decodes_of rfl fun x hx h => (answer_bind_ok (symAddrs_of_fit h) _).trans ?_
    dsimp only
    rw [shown_of_ctx hx, begin_sp hx, map_snd_symbolLanes, map_snd_filter_symbolLanes fun p =>
      !(x.alpha an.toNat).valid (x.p.sp.readNat p (x.alpha an.toNat).bytes)]
    refine bind_congr fun u => congrArg (fun t => Except.ok (x.bankCost (x.lanes.map (x.symbolAddr a b)) t))
      (setV_congr (fun l hl => ?_) d u)
    rw [find_symbolLanes hl]
  case symst =>
    refine storesTo_of rfl fun x hx _ ⟨hfit, hsilent⟩ => (answer_bind_ok (symAddrs_of_fit hfit) _).trans ?_
    dsimp only
    rw [shown_of_ctx hx, begin_sp hx, map_snd_symbolLanes]
    simp only [map_fst_filter_symbolLanes _ fun l => ((x.v b l).toNat % (x.alpha an.toNat).k,
      ((x.alpha an.toNat).carried sym (ftzOf x.g.fpcsr) (x.v cc l) ((x.v b l).toNat % (x.alpha an.toNat).k)).getD
        (x.alpha an.toNat).subst)]
    exact answer_bind_ok (invalid_of_silent hsilent _) _
  case symstTraps =>
    refine trapsAfter_of rfl fun x hx _ ⟨hfit, ht, hlost⟩ => (answer_bind_ok (symAddrs_of_fit hfit) _).trans ?_
    dsimp only
    rw [shown_of_ctx hx]
    exact answer_bind_error (invalid_of_trapping ht hlost _) _

end Sys2Proof.Claims
end

section
/-! CLAIM. Smock regions, and the descriptors that HGCFG accepts (O36). -/

namespace Sys2Proof.Machine

open Sys2Proof

/-! ## Entry tables that end at 2^57 (12 R204, R205) -/

/-- A descriptor of one level of one entry, whose tables are the last granule below 2^57. -/
def lastGranuleImage : List Byte := natBytes 8 (2 ^ 57 - 64) ++ natBytes 8 0 ++ natBytes 8 0 ++ natBytes 20 0 ++ natBytes 20 0

/-- Its binding, with one cell in the level. -/
def lastGranuleCfg : SmockCfg := ⟨1, 1, .f16, 2 ^ 57 - 64, 0, [0], [0], [1]⟩

theorem parseSmock_lastGranule : parseSmock lastGranuleImage (natBytes 4 1) = some lastGranuleCfg := by decide

theorem lastGranule_ends : lastGranuleCfg.tbase + lastGranuleCfg.toff lastGranuleCfg.levels = 2 ^ 57 := by decide

end Sys2Proof.Machine

namespace Sys2Proof.Claims

open Sys2Proof Sys2Proof.Machine

/-- Refutes O36: a descriptor is refused where its tables end above 2^57, so that one whose tables end at 2^57 itself is accepted. -/
theorem not_smockInstructions : ¬ Obligations.SmockInstructions := by
  rintro ⟨-, haccepted⟩
  obtain ⟨-, -, -, -, -, -, -, -, -, -, -, -, htables, -⟩ := haccepted _ _ _ parseSmock_lastGranule
  exact Nat.ne_of_lt htables lastGranule_ends

end Sys2Proof.Claims
end

section
/-! CLAIM. TRAP, BRK, encodings that the hardware refuses, and the entry of the handler (O8, O9). -/

namespace Sys2Proof.Machine

open Sys2Proof

/-! ## Taking a trap, by the state of its gang (13 R219, R220, R225) -/

section
variable {s : State} {pid gi ei : Nat} {p : Panel} {g : Gang} {e : SplitEntry} (hp : getPanel s pid = some p)
  (hg : getGang s pid gi = some g) (he : g.split[ei]? = some e)
include hp hg he

theorem takeTrap_enters {unw : Bool} (hh : g.handler = false) (hu : (unw && !g.regions.isEmpty) = false)
    (h0 : p.hdr.handler ≠ 0) (t : Trap) :
    takeTrap s pid gi ei t unw = updGang s pid gi (enterHandler p.hdr p.clk ei e t) := by
  simp only [takeTrap, hp, hg, he, hh, hu, if_neg h0, Bool.false_eq_true, if_false]

theorem takeTrap_kills (h : g.handler = true ∨ (p.hdr.handler = 0 ∧ g.regions = [])) (t : Trap) (unw : Bool) :
    takeTrap s pid gi ei t unw = killPanel s pid t.cause t.status e.pc.toNat := by
  rcases h with hh | ⟨h0, hr⟩
  · simp [takeTrap, hp, hg, he, hh]
  · simp [takeTrap, hp, hg, he, h0, hr]

theorem takeTrap_unwinds (hh : g.handler = false) (hr : g.regions ≠ []) (t : Trap) :
    takeTrap s pid gi ei t true = beginUnwind s pid gi e.pc t := by
  simp [takeTrap, hp, hg, he, hh, hr]

end

/-- The fragment that enters the handler goes on there. -/
theorem pc_enterHandler {g : Gang} {ei : Nat} {e : SplitEntry} (he : g.split[ei]? = some e) (h : Hdr) (clk : Nat) (t : Trap) :
    ((enterHandler h clk ei e t g).split[ei]?).map (·.pc) = some h.handler := by
  simp [enterHandler, getElem?_modifyAt, he]

/-! ## Encodings that the hardware refuses (16 R245, R248, R255) -/

theorem exec_unassigned {s : State} {x : Ctx} (hx : ctxOf .unassignedEncoding s = some x) :
    ∃ t, exec .unassignedEncoding s = .next t ∧ t.quiet = (x.settle (takeTrap s x.pid x.gi x.ei (mkTrap
      (if crosses x.pc (lengthAt (codeAt ((windowOf s x.p x.pc).getD []) x.pc)) then cFetchCross else cIllegal) 0)
      false)).quiet := by
  refine ⟨_, by simp only [exec, execUnassignedEncoding, hx]; rfl, ?_⟩
  rw [quiet_close]
  exact settle_congr x (quiet_takeSlot _ _ _ _)

end Sys2Proof.Machine

namespace Sys2Proof.Claims

open Sys2Proof Sys2Proof.Machine

/-- Settles O8: the bodies of TRAP and BRK raise their cause, and an encoding without an instruction takes its trap at once. -/
theorem trapInstructions : Obligations.TrapInstructions :=
  ⟨fun _ _ _ => ⟨trapsWhen_of rfl fun _ _ _ _ => rfl, trapsWhen_of rfl fun _ _ _ _ => rfl, rfl, rfl⟩,
    fun _ _ hx => exec_unassigned hx⟩

/-- Settles O9, by the handler flag of the gang, its regions and the handler of its panel. -/
theorem trapEntry : Obligations.TrapEntry := by
  intro s pid gi ei t unw p g e hp hg he
  refine ⟨fun hh hu h0 => ?_, fun h => takeTrap_kills hp hg he h t unw⟩
  have henters := takeTrap_enters hp hg he hh hu h0 t
  refine ⟨henters, enterHandler p.hdr p.clk ei e t g, ?_, rfl, rfl, rfl, rfl, rfl, pc_enterHandler he _ _ _, rfl, rfl, rfl,
    rfl, rfl⟩
  rw [henters, getGang_updGang, hg, Option.map_some]

end Sys2Proof.Claims
end

section
/-! CLAIM. The checks of issue, in their order (O11). -/

namespace Sys2Proof.Machine

open Sys2Proof

/-! ## The states of the sources (16 R256, 08 R146) -/

section
variable {g : Gang} {c : Ctl} {keeps : Bool} {rs : List (Nat × Nat)}

theorem checkRegs_of_poison {r : Nat × Nat} (hr : r ∈ rs) (hk : keeps = false) (hst : (vget g.v r.2 vreg0).st = .poison) :
    ∃ q ∈ rs, (vget g.v q.2 vreg0).st = .poison ∧
      checkRegs g c keeps rs = .error (.trap { mkTrap cPoisoned (regInfo q.2 q.1) with reg := some q.2 }) := by
  subst hk
  cases hf : rs.find? fun r => !false && (vget g.v r.2 vreg0).st == .poison with
  | none => exact absurd (List.find?_eq_none.mp hf r hr) (by simp [hst])
  | some q =>
    refine ⟨q, List.mem_of_find?_eq_some hf, by simpa using List.find?_some hf, ?_⟩
    rw [checkRegs, hf]

theorem find_poison_of_none (h : ∀ r ∈ rs, keeps = true ∨ (vget g.v r.2 vreg0).st ≠ .poison) :
    (rs.find? fun r => !keeps && (vget g.v r.2 vreg0).st == .poison) = none := by
  refine List.find?_eq_none.mpr fun r hr => ?_
  rcases h r hr with hk | hst
  · simp [hk]
  · simp [hst]

theorem checkRegs_of_empty (h : ∀ r ∈ rs, keeps = true ∨ (vget g.v r.2 vreg0).st ≠ .poison) {r : Nat × Nat} (hr : r ∈ rs)
    (hst : (vget g.v r.2 vreg0).st = .empty) (hfe : feTraps c r.1 = true) :
    ∃ q ∈ rs, (vget g.v q.2 vreg0).st = .empty ∧ feTraps c q.1 = true ∧
      checkRegs g c keeps rs = .error (.trap (mkTrap cRegEmpty (regInfo q.2 q.1))) := by
  cases hf : rs.find? fun r => (vget g.v r.2 vreg0).st == .empty && feTraps c r.1 with
  | none => exact absurd (List.find?_eq_none.mp hf r hr) (by simp [hst, hfe])
  | some q =>
    have hq := List.find?_some hf
    simp only [Bool.and_eq_true, beq_iff_eq] at hq
    exact ⟨q, List.mem_of_find?_eq_some hf, hq.1, hq.2, by simp only [checkRegs, find_poison_of_none h, hf, raise]⟩

/-- EMPTY sources whose FE bits are clear are no trap: they block. -/
theorem checkRegs_of_no_trap (h : ∀ r ∈ rs, keeps = true ∨ (vget g.v r.2 vreg0).st ≠ .poison)
    (hfe : ∀ r ∈ rs, (vget g.v r.2 vreg0).st = .empty → feTraps c r.1 = false) :
    checkRegs g c keeps rs = .ok ((rs.filter fun r => (vget g.v r.2 vreg0).st == .empty).map (·.2)) := by
  have hno : (rs.find? fun r => (vget g.v r.2 vreg0).st == .empty && feTraps c r.1) = none :=
    List.find?_eq_none.mpr fun r hr hq => by
      simp only [Bool.and_eq_true, beq_iff_eq] at hq
      rw [hfe r hr hq.1] at hq
      exact absurd hq.2 Bool.false_ne_true
  simp only [checkRegs, find_poison_of_none h, hno]

end

/-! ## The order of the checks (13 R218) -/

/-- What an instruction that no check of issue traps still waits for at issue: results not yet visible, and pocket misses (16
R258, R259). -/
def Ctx.sourceWaits (x : Ctx) (i : Instr) (empty : List Nat) : Except Stop (List Nat) := do
  if empty.isEmpty then
    match interlockUntil x.p.hdr x.p.clk x.g x.e.slices i (sourceKeys x.ctl (operandsAt x.p i)) with
    | some t => .error (.hold t 0)
    | none => .ok ()
    if pocketMisses x.g (vecSources (operandsAt x.p i)) ≠ 0 ∧ x.e.held = 0 then
      .error (.hold (x.p.clk + 3 * pocketMisses x.g (vecSources (operandsAt x.p i)))
        (pocketMisses x.g (vecSources (operandsAt x.p i))))
  .ok empty

theorem sourceWaits_ne_trap (x : Ctx) (i : Instr) (empty : List Nat) (t : Trap) : x.sourceWaits i empty ≠ .error (.trap t) := by
  intro h
  simp only [Ctx.sourceWaits, Bind.bind, Except.bind] at h
  repeat' split at h
  all_goals simp_all

section
variable {x : Ctx} {i : Instr}

theorem checkIssue_of_crosses (h : crosses x.pc x.len = true) : x.checkIssue i = .error (.trap (mkTrap cFetchCross 0)) := by
  simp [Ctx.checkIssue, check, raise, h, Bind.bind, Except.bind]

variable (hc : crosses x.pc x.len = false)
include hc

theorem checkIssue_of_illegal (h : (legal i && !barred x.p.hdr i && !illegalNow x.p x.g x.e i) = false) :
    x.checkIssue i = .error (.trap (mkTrap cIllegal 0)) := by
  simp only [Ctx.checkIssue, check, raise, hc, h, Bind.bind, Except.bind]
  simp

variable (hl : (legal i && !barred x.p.hdr i && !illegalNow x.p x.g x.e i) = true)
include hl

theorem checkIssue_of_range {t : Trap} (h : rangeTrap x.p.hdr (operandsAt x.p i) = some t) :
    x.checkIssue i = .error (.trap t) := by
  simp only [Ctx.checkIssue, check, raise, hc, hl, h, Bind.bind, Except.bind]
  simp

variable (hr : rangeTrap x.p.hdr (operandsAt x.p i) = none)
include hr

theorem checkIssue_of_role (h : roleAllows x.g.role (opOf i) = false) : x.checkIssue i = .error (.trap (mkTrap cRole 0)) := by
  simp only [Ctx.checkIssue, check, raise, hc, hl, hr, h, Bind.bind, Except.bind]
  simp

/-- An instruction that its window, its legality, its registers and its gang's role allow is checked for the states of its
sources, and then waits for them. -/
theorem checkIssue_of_role_allows (h : roleAllows x.g.role (opOf i) = true) :
    x.checkIssue i =
      (checkRegs x.g x.ctl (keepsPoison i) (vecSources (operandsAt x.p i)) >>= x.sourceWaits i) := by
  simp only [Ctx.checkIssue, check, raise, hc, hl, hr, h]
  rfl

end

/-- An instruction that only its pocket misses keep from issuing is held for three cycles for each (16 R259). -/
theorem runInstr_held {i : Instr} {s : State} {x : Ctx} (hx : ctxOf i s = some x)
    (h : Ctx.ready { x with e := { x.e with held := 1 } } i) (hm : pocketMisses x.g (vecSources (operandsAt x.p i)) ≠ 0)
    (hh : x.e.held = 0) (body : Ctx → State → Body) :
    runInstr i body s = .next { x.updEntry (fun e => { e with
      nextIssue := x.p.clk + 3 * pocketMisses x.g (vecSources (operandsAt x.p i))
      held := pocketMisses x.g (vecSources (operandsAt x.p i)) }) s with issuer := none } := by
  have ha : x.attempt i body s = .error (.hold (x.p.clk + 3 * pocketMisses x.g (vecSources (operandsAt x.p i)))
      (pocketMisses x.g (vecSources (operandsAt x.p i)))) := answer_bind_error (checkIssue_held h hm hh) _
  simp only [runInstr, hx, ha, Ctx.conclude, if_neg hm]

end Sys2Proof.Machine

namespace Sys2Proof.Claims

open Sys2Proof Sys2Proof.Machine

/-- Settles O11: each check traps where the ones before it pass, and behind the last one an instruction only waits. -/
theorem issueChecks : Obligations.IssueChecks := by
  intro i x
  refine ⟨checkIssue_of_crosses, checkIssue_of_illegal, fun hc hl => ⟨fun t => checkIssue_of_range hc hl, fun hr =>
      ⟨checkIssue_of_role hc hl hr, fun hrole r hmem hk hst => ?poison,
        fun hrole hno => ⟨fun r hmem hst hfe => ?empty, fun hfe t => ?waits⟩⟩⟩,
    fun s body hx hready hm hh => runInstr_held hx hready hm hh body⟩
  case poison =>
    obtain ⟨q, hq, hqst, hcheck⟩ := checkRegs_of_poison (c := x.ctl) hmem hk hst
    exact ⟨q, hq, hqst, (checkIssue_of_role_allows hc hl hr hrole).trans (answer_bind_error hcheck _)⟩
  case empty =>
    obtain ⟨q, hq, hqst, hqfe, hcheck⟩ := checkRegs_of_empty hno hmem hst hfe
    exact ⟨q, hq, hqst, hqfe, (checkIssue_of_role_allows hc hl hr hrole).trans (answer_bind_error hcheck _)⟩
  case waits =>
    rw [checkIssue_of_role_allows hc hl hr hrole, answer_bind_ok (checkRegs_of_no_trap hno hfe)]
    exact sourceWaits_ne_trap x i _ t

end Sys2Proof.Claims
end

section
/-! SUPPORT. What stacked memory, links and buffers leave alone as commands end: the panels and the numbers of commands. -/

namespace Sys2Proof.Machine

open Sys2Proof

/-- The panels, and the numbers of the commands in progress. -/
abbrev Resident : Type := List Panel × List Nat

/-- The same among the fields that hold them. -/
def residentOf (panels : List Panel) (cmds : List Cmd) : Resident := (panels, cmds.map (·.id))

/-- The panels of a state, and the numbers of its commands in progress. -/
def resident (s : State) : Resident := residentOf s.panels s.cmds

/-! ## The state, field by field -/

@[simp] theorem residentOf_fields (s : State) : residentOf s.panels s.cmds = resident s := rfl

/-- A state written out, as every update of fields is: two of its fields count. -/
@[simp] theorem resident_mk (now fs mgmt sensors flash hbm marks gus links sems queues asidBase fqBase fqWritten fqSize fqProd
    fqCons xfaults nextTag inval irqs parts launches panels cores clusters iodTlb cmds hostMem reply agenda issuer free
    nextId) :
    resident ⟨now, fs, mgmt, sensors, flash, hbm, marks, gus, links, sems, queues, asidBase, fqBase, fqWritten, fqSize, fqProd,
      fqCons, xfaults, nextTag, inval, irqs, parts, launches, panels, cores, clusters, iodTlb, cmds, hostMem, reply, agenda,
      issuer, free, nextId⟩ = residentOf panels cmds := rfl

@[simp] theorem resident_ite (c : Prop) [Decidable c] (s t : State) :
    resident (if c then s else t) = if c then resident s else resident t := apply_ite ..

/-- The second part of an answer that a match has taken apart. -/
theorem resident_snd {α : Type} {r : α × State} {a : α} {t : State} (h : r = (a, t)) : resident t = resident r.2 := by rw [h]

@[simp] theorem resident_foldl {α : Type} {f : State → α → State} (h : ∀ s a, resident (f s a) = resident s) (xs : List α)
    (s : State) : resident (xs.foldl f s) = resident s := by
  induction xs generalizing s with
  | nil => rfl
  | cons a as ih => rw [List.foldl_cons, ih, h]

/-! ## Stacked memory (02 R25 to R30) -/

@[simp] theorem resident_setMark (s : State) (phys : Nat) (m : Option Mark) : resident (setMark s phys m) = resident s := by
  simp [setMark]

@[simp] theorem resident_readMarked (s : State) (stack off : Nat) (m : Option Mark) (bytes : List Byte) :
    resident (readMarked s stack off m bytes).2 = resident s := by
  unfold readMarked
  split <;> simp [noteUncorr]

@[simp] theorem resident_readUnit (s : State) (n j g : Nat) : resident (readUnit s n j g).2 = resident s := by
  unfold readUnit
  split <;> simp

@[simp] theorem resident_readUnits (s : State) (n g : Nat) (js : List Nat) : resident (readUnits s n g js).2 = resident s := by
  induction js generalizing s with
  | nil => rfl
  | cons j js ih => simp [readUnits, ih]

@[simp] theorem resident_rawReconstruct (s : State) (n j g : Nat) : resident (rawReconstruct s n j g).2 = resident s := by
  unfold rawReconstruct
  dsimp only
  repeat' split
  all_goals simp

@[simp] theorem resident_rawDirect (s : State) (n j g : Nat) : resident (rawDirect s n j g).2 = resident s := by
  unfold rawDirect
  split <;> simp [resident_snd ‹_ = _›]

@[simp] theorem resident_rawGranule (s : State) (da : Nat) : resident (rawGranule s da).2 = resident s := by
  unfold rawGranule
  dsimp only
  split
  · next h => simp [resident_snd h]
  · simp

@[simp] theorem resident_failRead (s : State) (code : Nat) (tol : Option Nat) : resident (failRead s code tol).2 = resident s := by
  unfold failRead
  split
  · simp
  · split <;> simp

@[simp] theorem resident_storeUnit (s : State) (n j g : Nat) (bytes : List Byte) :
    resident (storeUnit s n j g bytes) = resident s := by
  simp [storeUnit]

@[simp] theorem resident_oldForParity (s : State) (n j g : Nat) (o : OldGranule) :
    resident (oldForParity s n j g o).2 = resident s := by
  unfold oldForParity
  split
  · rfl
  · split <;> simp [resident_snd ‹_ = _›]

@[simp] theorem resident_sumUnits (s : State) (n g : Nat) (js : List Nat) : resident (sumUnits s n g js).2 = resident s := by
  induction js generalizing s with
  | nil => rfl
  | cons j js ih =>
    unfold sumUnits
    split <;> simp [ih, resident_snd ‹_ = _›]

@[simp] theorem resident_storeParity (s : State) (n g : Nat) (bytes : List Byte) :
    resident (storeParity s n g bytes) = resident s := by
  simp [storeParity]

@[simp] theorem resident_parityAnew (s : State) (n j g : Nat) (new : List Byte) :
    resident (parityAnew s n j g new) = resident s := by
  simp [parityAnew]

@[simp] theorem resident_parityUpdate (s : State) (n j g : Nat) (old : OldGranule) (new : List Byte) :
    resident (parityUpdate s n j g old new) = resident s := by
  unfold parityUpdate
  split
  · rfl
  · split
    · simp [resident_snd ‹_ = _›]
    · next h =>
      split <;> simp [resident_snd ‹oldForParity _ _ _ _ _ = _›, resident_snd h]

@[simp] theorem resident_parityForLost (s : State) (n j g : Nat) (new : List Byte) :
    resident (parityForLost s n j g new) = resident s := by
  simp [parityForLost]

@[simp] theorem resident_parityOfPart (n : Nat) (s : State) (p : OpenPart) : resident (parityOfPart n s p) = resident s := by
  simp [parityOfPart]

@[simp] theorem resident_retireEntry (s : State) (e : OpenEntry) : resident (retireEntry s e) = resident s := by
  simp [retireEntry, parityOfEntry]

@[simp] theorem resident_writeGranule (s : State) (da : Nat) (old : OldGranule) (bytes : List Byte) :
    resident (writeGranule s da old bytes).2 = resident s := by
  unfold writeGranule
  dsimp only
  split <;> simp [openGranule]

@[simp] theorem resident_readForMerge (s : State) (da : Nat) (tol : Option Nat) :
    resident (readForMerge s da tol).2 = resident s := by
  unfold readForMerge
  split <;> simp [poisonGranule, resident_snd ‹_ = _›]

@[simp] theorem resident_writeNow (s : State) (tol : Option Nat) (da : Nat) (bytes : List Byte) :
    resident (writeNow s tol da bytes).2 = resident s := by
  unfold writeNow
  dsimp only
  split
  · simp
  · split <;> simp [resident_snd ‹_ = _›]

/-! ## Writes that waited, and copies that buffers hold (02 R27 to R29, 09 R157 to R160) -/

@[simp] theorem resident_afterOwn (s : State) (y : OwnWrite) : resident (afterOwn s y) = resident s := by
  unfold afterOwn
  split <;> simp

@[simp] theorem resident_landDevice (n : Nat) (s : State) : resident (landDevice n s) = resident s := by
  induction n generalizing s with
  | zero => rfl
  | succ n ih =>
    unfold landDevice
    split <;> simp [ih]

@[simp] theorem resident_landWaiting (s : State) : resident (landWaiting s) = resident s := by
  simp [landWaiting]

@[simp] theorem resident_dropCopy (s : State) (core space g : Nat) : resident (dropCopy s core space g) = resident s := by
  simp [dropCopy, soil]

/-- Changes of commands that keep their numbers. -/
theorem residentOf_map (panels : List Panel) (cmds : List Cmd) {f : Cmd → Cmd} (hf : ∀ c, (f c).id = c.id) :
    residentOf panels (cmds.map f) = residentOf panels cmds := by
  simp [residentOf, Function.comp_def, hf]

@[simp] theorem resident_settleOpened (s : State) (stripe : Nat) : resident (settleOpened s stripe) = resident s := by
  exact residentOf_map _ _ fun _ => rfl

@[simp] theorem resident_closeEntry (s : State) (e : OpenEntry) : resident (closeEntry s e) = resident s := by
  simp [closeEntry, settleEntry]

@[simp] theorem resident_acquireAt (core scope : Nat) (s : State) : resident (acquireAt core scope s) = resident s := by
  simp [acquireAt, soil, updCore]

@[simp] theorem resident_issueHeldReads (id : Nat) (s : State) : resident (issueHeldReads id s) = resident s := by
  simp only [issueHeldReads, residentOf, resident, List.map_map]
  congr 1
  apply List.ext_getElem
  · simp
  · intro n _ _
    simp only [List.getElem_map, List.getElem_zipIdx, Function.comp_apply]
    split <;> rfl

/-! ## The end of a command (02 R26, 13 R225) -/

theorem resident_cancelCmd (s : State) (id : Nat) :
    resident (cancelCmd s id) = (s.panels, (s.cmds.map (·.id)).filter (· != id)) := by
  have hdrop : resident (leaveFaults (dropRequests (closeEntries s id) id) id) = resident s := by
    simp [leaveFaults, dropRequests, leaveLinks, closeEntries]
  obtain ⟨hpanels, hids⟩ := Prod.ext_iff.mp hdrop
  have hpanels : (leaveFaults (dropRequests (closeEntries s id) id) id).panels = s.panels := hpanels
  have hids : (leaveFaults (dropRequests (closeEntries s id) id) id).cmds.map (·.id) = s.cmds.map (·.id) := hids
  rw [cancelCmd, forgetCmd, resident_mk, residentOf, hpanels, ← hids, List.filter_map]
  rfl

end Sys2Proof.Machine
end

section
/-! CLAIM. A trap that unwinds a region: the commands that it cancels, the batches that it waits for, and its end (O43). -/

namespace Sys2Proof.Machine

open Sys2Proof

/-! ## Batches that an unwind waits for (13 R225) -/

/-- No batch sealed since the region opened holds a command issued since then. -/
def Region.clear (r : Region) (bs : List Batch) : Prop :=
  ∀ b ∈ bs, r.firstSeal ≤ b.order → ∀ n ∈ b.live, n < r.firstCmd

theorem Region.clear_iff {r : Region} {bs : List Batch} :
    r.clear bs ↔ ¬ ∃ b ∈ bs, r.firstSeal ≤ b.order ∧ ∃ n ∈ b.live, r.firstCmd ≤ n := by
  simp only [Region.clear, not_exists, not_and, Nat.not_le]

theorem drained_iff {g : Gang} {r : Region} : drained g r = true ↔ r.clear g.seals := by
  simp [drained, Region.awaits, Region.clear]

/-- Each batch of `bs` stands in `as` at the same place, with no fewer commands to come. -/
def sealsShrink (as bs : List Batch) : Prop := ∀ b ∈ bs, ∃ a ∈ as, a.order = b.order ∧ ∀ n ∈ b.live, n ∈ a.live

theorem sealsShrink.refl (as : List Batch) : sealsShrink as as := fun b hb => ⟨b, hb, rfl, fun _ hn => hn⟩

theorem sealsShrink.trans {as bs cs : List Batch} (h : sealsShrink as bs) (k : sealsShrink bs cs) : sealsShrink as cs := by
  intro c hc
  obtain ⟨b, hb, hbo, hbl⟩ := k c hc
  obtain ⟨a, ha, hao, hal⟩ := h b hb
  exact ⟨a, ha, hao.trans hbo, fun n hn => hal n (hbl n hn)⟩

theorem sealsShrink.clear {as bs : List Batch} (h : sealsShrink as bs) {r : Region} (hr : r.clear as) : r.clear bs := by
  intro b hb hord n hn
  obtain ⟨a, ha, hao, hal⟩ := h b hb
  exact hr a ha (hao ▸ hord) n (hal n hn)

theorem sealsShrink_settleSeals (bs before : List Batch) : sealsShrink bs (settleSeals before bs) := by
  induction bs generalizing before with
  | nil => simp [settleSeals, sealsShrink]
  | cons a as ih =>
    have tail : ∀ before, ∀ b ∈ settleSeals before as, ∃ c ∈ a :: as, c.order = b.order ∧ ∀ n ∈ b.live, n ∈ c.live := by
      intro before b hb
      obtain ⟨c, hc, hcb⟩ := ih before b hb
      exact ⟨c, List.mem_cons_of_mem a hc, hcb⟩
    have head : ∀ (d : Batch) before, d.order = a.order → d.live = a.live →
        ∀ b ∈ d :: settleSeals before as, ∃ c ∈ a :: as, c.order = b.order ∧ ∀ n ∈ b.live, n ∈ c.live := by
      intro d before hord hlive b hb
      rcases List.mem_cons.mp hb with rfl | hb
      · exact ⟨a, List.mem_cons_self, hord.symm, fun n hn => hlive ▸ hn⟩
      · exact tail before b hb
    unfold settleSeals
    split
    · exact head a before rfl rfl
    · split
      · split
        · exact head _ before rfl rfl
        · exact tail before
      · exact head a (a :: before) rfl rfl

/-! ## Commands that an unwind cancels (13 R225) -/

/-- A register that awaits nothing and is FULL. -/
def VReg.settled (v : VReg) : Prop := v.st = .full ∧ v.by_ = none

/-- What the cancelling of its commands leaves of a gang: everything but the registers that awaited them, and the batches that
held them. -/
structure CancelKeeps (g h : Gang) : Prop where
  em : h.em = g.em
  nest : h.nest = g.nest
  s : h.s = g.s
  regions : h.regions = g.regions
  exited : h.exited = g.exited
  seals : sealsShrink g.seals h.seals
  regs : ∀ n, vget h.v n vreg0 = vget g.v n vreg0 ∨ (vget h.v n vreg0).settled

theorem CancelKeeps.refl (g : Gang) : CancelKeeps g g :=
  ⟨rfl, rfl, rfl, rfl, rfl, sealsShrink.refl _, fun _ => .inl rfl⟩

theorem CancelKeeps.trans {g h k : Gang} (a : CancelKeeps g h) (b : CancelKeeps h k) : CancelKeeps g k where
  em := b.em.trans a.em
  nest := b.nest.trans a.nest
  s := b.s.trans a.s
  regions := b.regions.trans a.regions
  exited := b.exited.trans a.exited
  seals := a.seals.trans b.seals
  regs n := by
    rcases b.regs n with hb | hb
    · rw [hb]; exact a.regs n
    · exact .inr hb

/-- A register that is FULL and awaits nothing stays so. -/
theorem CancelKeeps.settled {g h : Gang} (a : CancelKeeps g h) {n : Nat} (hn : (vget g.v n vreg0).settled) :
    (vget h.v n vreg0).settled := by
  rcases a.regs n with ha | ha
  · rwa [ha]
  · exact ha

theorem batchDone_keeps (g : Gang) (bid id : Nat) :
    CancelKeeps g (batchDone g bid id none) ∧ (batchDone g bid id none).v = g.v := by
  refine ⟨⟨rfl, rfl, rfl, rfl, rfl, ?_, fun _ => .inl rfl⟩, rfl⟩
  refine sealsShrink.trans (fun b hb => ?_) (sealsShrink_settleSeals _ [])
  obtain ⟨a, ha, rfl⟩ := List.mem_map.mp hb
  refine ⟨a, ha, ?_⟩
  split
  · exact ⟨rfl, fun n hn => List.mem_of_mem_filter hn⟩
  · exact ⟨rfl, fun n hn => hn⟩

/-- The registers of a gang once a command is cancelled. -/
def Gang.forgets (id : Nat) (g : Gang) : Gang := { g with v := g.v.map (cancelledReg id) }

theorem vget_forgets (id : Nat) (g : Gang) (n : Nat) :
    vget (g.forgets id).v n vreg0 = cancelledReg id (vget g.v n vreg0) := by
  unfold vget
  split
  · simp [Gang.forgets]
  · rfl

theorem forgets_keeps (id : Nat) (g : Gang) : CancelKeeps g (g.forgets id) := by
  refine ⟨rfl, rfl, rfl, rfl, rfl, sealsShrink.refl _, fun n => ?_⟩
  rw [vget_forgets, cancelledReg]
  split
  · exact .inr ⟨rfl, rfl⟩
  · exact .inl rfl

/-- The register that awaited the command is FULL. -/
theorem settled_forgets {id : Nat} {g : Gang} {n : Nat} (hby : (vget g.v n vreg0).by_ = some id)
    (hst : (vget g.v n vreg0).st = .empty) : (vget (g.forgets id).v n vreg0).settled := by
  rw [vget_forgets, cancelledReg, if_pos ⟨hby, hst⟩]
  exact ⟨rfl, rfl⟩

/-- The gangs of a panel once one batch of a command that gang `gi` cancels is done. -/
def batchCancelled (h : Hdr) (clk gi id : Nat) (gs : List Gang) (b : Nat × Nat) : List Gang :=
  modifyAt (fun g => if b.1 = gi then batchDone g b.2 id none else finishUnwind h clk (batchDone g b.2 id none)) gs b.1

theorem batchesCancelled_keeps (h : Hdr) (clk gi id : Nat) (bs : List (Nat × Nat)) {gs : List Gang} {g : Gang}
    (hg : gs[gi]? = some g) :
    ∃ k, (bs.foldl (batchCancelled h clk gi id) gs)[gi]? = some k ∧ CancelKeeps g k ∧ k.v = g.v := by
  induction bs generalizing gs g with
  | nil => exact ⟨g, hg, CancelKeeps.refl g, rfl⟩
  | cons b bs ih =>
    by_cases hb : b.1 = gi
    · obtain ⟨hkeeps, hv⟩ := batchDone_keeps g b.2 id
      have hnext : (batchCancelled h clk gi id gs b)[gi]? = some (batchDone g b.2 id none) := by
        simp [batchCancelled, getElem?_modifyAt, hb, hg]
      obtain ⟨k, hk, hrest, hkv⟩ := ih hnext
      exact ⟨k, hk, hkeeps.trans hrest, hkv.trans hv⟩
    · exact ih (by simp [batchCancelled, getElem?_modifyAt, hb, hg])

/-- A panel once the command `id` of batches `bs` is cancelled for gang `gi`. -/
def Panel.cancels (gi id : Nat) (bs : List (Nat × Nat)) (p : Panel) : Panel :=
  { p with
    gangs := bs.foldl (batchCancelled p.hdr p.clk gi id) (p.gangs.map (Gang.forgets id))
    smk := p.smk.map fun k => { k with queue := k.queue.filter (· != id) } }

theorem cancelForUnwind_of_gangs {c : Cmd} {q : Nat} {bs : List (Nat × Nat)} (ho : c.owner = .gangs q bs) (pid gi : Nat)
    (s : State) :
    cancelForUnwind pid gi s c = updPanel (endAcquire (cancelCmd s c.id) c) pid (Panel.cancels gi c.id bs) := by
  simp only [cancelForUnwind, ho]
  rfl

theorem getGang_congr {s t : State} (h : resident t = resident s) (pid gi : Nat) : getGang t pid gi = getGang s pid gi := by
  have hpanels : t.panels = s.panels := congrArg Prod.fst h
  simp only [getGang, getPanel, hpanels]

/-- The end of an acquiring atomic changes of its gangs only which acquires they have out. -/
theorem getGang_endAcquire {s : State} {c : Cmd} {pid gi : Nat} {g : Gang} (hpid : c.pid = pid) (hg : getGang s pid gi = some g) :
    ∃ as, getGang (endAcquire s c) pid gi = some { g with acquires := as } := by
  unfold endAcquire
  split
  · rw [getGang_congr ((resident_issueHeldReads _ _).trans (resident_acquireAt _ _ _)), hpid]
    by_cases hgi : c.gang = gi
    · rw [hgi, getGang_updGang, hg]
      exact ⟨_, rfl⟩
    · rw [getGang_updGang_ne _ _ _ _ _ hgi, hg]
      exact ⟨_, rfl⟩
  · exact ⟨g.acquires, hg⟩

theorem ids_endAcquire (s : State) (c : Cmd) : (endAcquire s c).cmds.map (·.id) = s.cmds.map (·.id) := by
  unfold endAcquire
  split
  · exact congrArg Prod.snd ((resident_issueHeldReads _ _).trans (resident_acquireAt _ _ _))
  · rfl

/-- One command that an unwind cancels is gone, and a register that awaited it is FULL. -/
theorem cancelForUnwind_spec {s : State} {pid gi : Nat} {g : Gang} {c : Cmd} {bs : List (Nat × Nat)}
    (hg : getGang s pid gi = some g) (ho : c.owner = .gangs pid bs) :
    ((cancelForUnwind pid gi s c).cmds.map (·.id) = (s.cmds.map (·.id)).filter (· != c.id)) ∧
    ∃ h, getGang (cancelForUnwind pid gi s c) pid gi = some h ∧ CancelKeeps g h ∧
      ∀ n, (vget g.v n vreg0).by_ = some c.id → (vget g.v n vreg0).st = .empty → (vget h.v n vreg0).settled := by
  have hcancel := resident_cancelCmd s c.id
  rw [cancelForUnwind_of_gangs ho]
  constructor
  · rw [updPanel_cmds, ids_endAcquire]
    exact congrArg Prod.snd hcancel
  · have hpanels : (cancelCmd s c.id).panels = s.panels := congrArg Prod.fst hcancel
    have hstart : getGang (cancelCmd s c.id) pid gi = some g := by
      rw [← hg]; simp only [getGang, getPanel, hpanels]
    have hpid : c.pid = pid := by simp [Cmd.pid, ho, Owner.panel]
    obtain ⟨as, hacq⟩ := getGang_endAcquire hpid hstart
    obtain ⟨p, hp, hpg⟩ := Option.bind_eq_some_iff.mp hacq
    have hforget : (p.gangs.map (Gang.forgets c.id))[gi]? = some (Gang.forgets c.id { g with acquires := as }) := by
      rw [List.getElem?_map, hpg, Option.map_some]
    obtain ⟨k, hk, hkeeps, hv⟩ := batchesCancelled_keeps p.hdr p.clk gi c.id bs hforget
    have hacquires : CancelKeeps g { g with acquires := as } :=
      ⟨rfl, rfl, rfl, rfl, rfl, sealsShrink.refl _, fun _ => .inl rfl⟩
    refine ⟨k, ?_, (hacquires.trans (forgets_keeps c.id _)).trans hkeeps, fun n hby hst => ?_⟩
    · rw [getGang, getPanel_updPanel_same]
      · rw [hp]; exact hk
      · exact fun _ => rfl
    · rw [hv]
      exact settled_forgets (g := { g with acquires := as }) hby hst

/-- All the commands that an unwind cancels. -/
theorem cancelAll_spec {pid gi : Nat} {cs : List Cmd} (ho : ∀ c ∈ cs, ∃ bs, c.owner = .gangs pid bs) {s : State} {g : Gang}
    (hg : getGang s pid gi = some g) :
    (∀ n ∈ (cs.foldl (cancelForUnwind pid gi) s).cmds.map (·.id), n ∈ s.cmds.map (·.id) ∧ ∀ c ∈ cs, n ≠ c.id) ∧
    ∃ h, getGang (cs.foldl (cancelForUnwind pid gi) s) pid gi = some h ∧ CancelKeeps g h ∧
      ∀ c ∈ cs, ∀ n, (vget g.v n vreg0).by_ = some c.id → (vget g.v n vreg0).st = .empty → (vget h.v n vreg0).settled := by
  induction cs generalizing s g with
  | nil => exact ⟨by simp, g, hg, CancelKeeps.refl g, by simp⟩
  | cons a cs ih =>
    obtain ⟨bs, hbs⟩ := ho a List.mem_cons_self
    obtain ⟨hids, g1, hg1, hkeeps1, hregs1⟩ := cancelForUnwind_spec hg hbs
    obtain ⟨hrest, h, hh, hkeeps, hregs⟩ := ih (fun c hc => ho c (List.mem_cons_of_mem a hc)) hg1
    refine ⟨fun n hn => ?_, h, hh, hkeeps1.trans hkeeps, fun c hc n hby hst => ?_⟩
    · obtain ⟨hmem, hne⟩ := hrest n hn
      rw [hids, List.mem_filter] at hmem
      exact ⟨hmem.1, List.forall_mem_cons.mpr ⟨by simpa using hmem.2, hne⟩⟩
    · rcases List.mem_cons.mp hc with rfl | hc
      · exact hkeeps.settled (hregs1 n hby hst)
      · rcases hkeeps1.regs n with hsame | hfull
        · exact hregs c hc n (hsame ▸ hby) (hsame ▸ hst)
        · exact hkeeps.settled hfull

/-! ## The end of an unwind (13 R225) -/

/-- What the end of unwind `u` of region `r`, the innermost of gang `g`, leaves as gang `t`. -/
structure Unwound (h : Hdr) (clk : Nat) (u : Unwind) (r : Region) (rest : List Region) (g t : Gang) : Prop where
  em : t.em = r.em
  nest : t.nest = r.nest
  s62 : vget t.s 62 copies0 = r.s62
  regions : t.regions = rest
  unwind : t.unwind = none
  tinfo : t.tinfo = u.info
  tpc : t.tpc = u.tpc.setWidth 64
  tcause : t.tcause = tcauseOf ⟨u.cause, u.info, u.status, u.cls, none⟩ true u.depth
  split : t.split = oneFragment (liveSlices h g) r.handler (some clk)
  seals : sealsShrink g.seals t.seals
  incomplete : ∀ b ∈ t.seals, r.firstSeal ≤ b.order → b.complete = false
  regs : ∀ n, (vget g.v n vreg0).settled → (vget t.v n vreg0).settled

/-- A batch that an unwind spares is the batch with fewer failures. -/
theorem spare_eq (r : Region) (b : Batch) : ∃ f, r.spare b = { b with fail := f } := by
  unfold Region.spare
  split
  · exact ⟨b.fail, rfl⟩
  · exact ⟨_, rfl⟩

theorem unwoundReg_settled {first : Nat} {cause : Option Nat} {r : Nat} {v : VReg} (h : v.settled) :
    (unwoundReg first cause r v).settled := by
  have hst := h.1
  rw [unwoundReg, if_neg (by simp [hst])]
  exact h

section
variable {g : Gang} {u : Unwind} {r : Region} {rest : List Region} (hr : g.regions = r :: rest)
include hr

theorem finishUnwind_of_waiting (hd : ¬ r.clear g.seals) (h : Hdr) (clk : Nat) : finishUnwind h clk g = g := by
  have hd : ¬ drained g r = true := fun k => hd (drained_iff.mp k)
  unfold finishUnwind
  split
  · next hu hreg =>
    rw [hr] at hreg
    cases hreg
    exact if_neg hd
  · rfl

theorem finishUnwind_of_clear (hu : g.unwind = some u) (hd : r.clear g.seals) (h : Hdr) (clk : Nat) :
    Unwound h clk u r rest g (finishUnwind h clk g) := by
  simp only [finishUnwind, hu, hr, if_pos (drained_iff.mpr hd)]
  refine ⟨rfl, rfl, vget_vset_same _ _ _ _ (by decide), rfl, rfl, rfl, rfl, rfl, rfl, fun b hb => ?seals,
    fun b hb hord => ?incomplete, fun n hn => ?regs⟩
  case seals =>
    obtain ⟨a, ha, rfl⟩ := List.mem_map.mp hb
    obtain ⟨f, hf⟩ := spare_eq r a
    rw [hf]
    exact ⟨a, List.mem_of_mem_filter ha, rfl, fun _ hn => hn⟩
  case incomplete =>
    obtain ⟨a, ha, rfl⟩ := List.mem_map.mp hb
    obtain ⟨f, hf⟩ := spare_eq r a
    rw [hf] at hord ⊢
    have hkept := (List.mem_filter.mp ha).2
    simpa [Nat.not_lt.mpr hord] using hkept
  case regs =>
    by_cases hlt : n < 128
    · rw [vget_ofFn _ hlt]
      refine unwoundReg_settled ?_
      rwa [vget, dif_pos hlt] at hn
    · rw [vget, dif_neg hlt]
      exact ⟨rfl, rfl⟩

end

/-! ## The beginning of an unwind (13 R225) -/

/-- The command stands in an open batch of the gang. -/
def Cmd.openIn (pid gi : Nat) (g : Gang) (c : Cmd) : Bool :=
  match c.owner with
  | .gangs q bs => q == pid && bs.any fun b => b.1 == gi && (g.opens.map (·.bid)).contains b.2
  | _ => false

/-- The commands that the unwind of region `r` cancels. -/
def unwoundCmds (s : State) (pid gi : Nat) (g : Gang) (r : Region) : List Cmd :=
  s.cmds.filter fun c => decide (r.firstCmd ≤ c.id) && c.openIn pid gi g

/-- The gang as its unwind begins. -/
def Gang.startUnwind (u : Unwind) (g : Gang) : Gang :=
  { g with
    unwind := some u
    split := g.split.map fun e => { e with blk := none, sealed := [], paired := none, measured := [] } }

theorem owner_of_openIn {pid gi : Nat} {g : Gang} {c : Cmd} (h : c.openIn pid gi g = true) : ∃ bs, c.owner = .gangs pid bs := by
  unfold Cmd.openIn at h
  split at h
  · next q bs ho =>
    simp only [Bool.and_eq_true, beq_iff_eq] at h
    exact ⟨bs, h.1 ▸ ho⟩
  · cases h

theorem openIn_of_owner {pid gi : Nat} {g : Gang} {c : Cmd}
    (h : ∃ bs b, c.owner = .gangs pid bs ∧ b ∈ bs ∧ b.1 = gi ∧ b.2 ∈ g.opens.map (·.bid)) : c.openIn pid gi g = true := by
  obtain ⟨bs, b, ho, hb, hgi, hopen⟩ := h
  simp only [Cmd.openIn, ho, beq_self_eq_true, Bool.true_and]
  exact List.any_eq_true.mpr ⟨b, hb, by simp only [hgi, beq_self_eq_true, Bool.true_and]; exact List.contains_iff_mem.mpr hopen⟩

theorem mem_unwoundCmds {s : State} {pid gi : Nat} {g : Gang} {r : Region} {c : Cmd} (hc : c ∈ s.cmds)
    (hfirst : r.firstCmd ≤ c.id)
    (ho : ∃ bs b, c.owner = .gangs pid bs ∧ b ∈ bs ∧ b.1 = gi ∧ b.2 ∈ g.opens.map (·.bid)) : c ∈ unwoundCmds s pid gi g r :=
  List.mem_filter.mpr ⟨hc, by simp [hfirst, openIn_of_owner ho]⟩

section
variable {s : State} {pid gi : Nat} {p : Panel} {g : Gang} {r : Region} {rest : List Region}
  (hp : getPanel s pid = some p) (hg : getGang s pid gi = some g) (hr : g.regions = r :: rest)
include hp hg hr

theorem beginUnwind_eq (tpc : Word) (t : Trap) :
    beginUnwind s pid gi tpc t =
      updGang (updPanel ((unwoundCmds s pid gi g r).foldl (cancelForUnwind pid gi) s) pid fun q => withdraw q gi) pid gi fun h =>
        finishUnwind p.hdr p.clk (h.startUnwind ⟨t.cause, t.status, t.cls, tpc, t.info, g.regions.length, t.reg⟩) := by
  simp only [beginUnwind, hp, hg, hr]
  rfl

/-- An unwind cancels its commands, and then ends or waits. -/
theorem beginUnwind_spec (tpc : Word) (t : Trap) :
    ∃ k, CancelKeeps g k ∧
      getGang (beginUnwind s pid gi tpc t) pid gi = some (finishUnwind p.hdr p.clk
        (k.startUnwind ⟨t.cause, t.status, t.cls, tpc, t.info, g.regions.length, t.reg⟩)) ∧
      ∀ c ∈ unwoundCmds s pid gi g r, getCmd (beginUnwind s pid gi tpc t) c.id = none ∧
        ∀ n, (vget g.v n vreg0).by_ = some c.id → (vget g.v n vreg0).st = .empty → (vget k.v n vreg0).settled := by
  have howner : ∀ c ∈ unwoundCmds s pid gi g r, ∃ bs, c.owner = .gangs pid bs := fun c hc => by
    have hsel := (List.mem_filter.mp hc).2
    exact owner_of_openIn (Bool.and_eq_true_iff.mp hsel).2
  obtain ⟨hids, k, hk, hkeeps, hregs⟩ := cancelAll_spec howner hg
  rw [beginUnwind_eq hp hg hr]
  refine ⟨k, hkeeps, ?_, fun c hc => ⟨List.find?_eq_none.mpr fun d hd hid => ?_, hregs c hc⟩⟩
  · rw [getGang_updGang, getGang_updPanel _ _ _ (fun q => withdraw q gi) (fun _ => rfl) (fun _ => rfl), hk, Option.map_some]
  · have hgone := (hids d.id (List.mem_map_of_mem hd)).2 c hc
    exact hgone (by simpa using hid)

end

end Sys2Proof.Machine

namespace Sys2Proof.Claims

open Sys2Proof Sys2Proof.Machine

/-- Settles O43: an unwind cancels its commands and then waits for its batches or ends, and its end restores what the region
kept. -/
theorem unwinding : Obligations.Unwinding := by
  refine ⟨fun s pid gi ei t p g e r rest hp hg he hh hr => ?begins, fun h clk g u r rest hu hr => ⟨fun hclear => ?ends,
    fun hwaits => finishUnwind_of_waiting hr (fun k => Region.clear_iff.mp k hwaits) h clk⟩⟩
  case ends =>
    have hend := finishUnwind_of_clear hr hu hclear h clk
    exact ⟨hend.em, hend.nest, hend.s62, hend.regions, hend.unwind, hend.tinfo, hend.tpc, hend.tcause, hend.split,
      hend.incomplete⟩
  case begins =>
    obtain ⟨k, hkeeps, hgang, hcmds⟩ := beginUnwind_spec hp hg hr e.pc t
    rw [takeTrap_unwinds hp hg he hh (by simp [hr])]
    have hreg : k.regions = r :: rest := hkeeps.regions.trans hr
    refine ⟨_, hgang, ?_⟩
    simp only [← Region.clear_iff]
    by_cases hclear : r.clear k.seals
    · have hend := finishUnwind_of_clear
        (g := k.startUnwind ⟨t.cause, t.status, t.cls, e.pc, t.info, g.regions.length, t.reg⟩) hreg rfl hclear p.hdr p.clk
      have hdone := hend.seals.clear hclear
      have hlive : liveSlices p.hdr g = liveSlices p.hdr k := by rw [liveSlices, liveSlices, hkeeps.exited]
      refine ⟨fun hwaits => absurd hwaits (Region.clear_iff.mp hdone), fun _ => hdone,
        fun _ => ⟨hend.unwind, hend.regions, hend.em, hend.nest, hend.s62, hend.tcause, hend.tpc, hend.tinfo,
          hlive ▸ hend.split⟩, fun c hc hfirst ho => ?_⟩
      obtain ⟨hgone, hregs⟩ := hcmds c (mem_unwoundCmds hc hfirst ho)
      exact ⟨hgone, fun n hby hst => (hend.regs n (hregs n hby hst)).1⟩
    · rw [finishUnwind_of_waiting (g := k.startUnwind _) hreg hclear]
      refine ⟨fun _ => ⟨rfl, hkeeps.regions, hkeeps.em, hkeeps.s, fun d hd => ?_⟩,
        fun hnone => absurd (hkeeps.seals.clear hnone) hclear, fun hno => absurd hno hclear, fun c hc hfirst ho => ?_⟩
      · obtain ⟨a, -, rfl⟩ := List.mem_map.mp hd
        rfl
      · obtain ⟨hgone, hregs⟩ := hcmds c (mem_unwoundCmds hc hfirst ho)
        exact ⟨hgone, fun n hby hst => (hregs n hby hst).1⟩

end Sys2Proof.Claims
end

section
/-! CLAIM. Containment regions and tensor ids (O42). -/

namespace Sys2Proof.Machine

open Sys2Proof

/-! ## A gang that stands whole settles nothing (07 R124, R125) -/

theorem fuseRegang_of_none {es : List SplitEntry} (h : ∀ e ∈ es, inRegang e = false) (live : BitVec 8) :
    fuseRegang live es = es := by
  have hunion : unionOf inRegang es = 0 := by
    rw [unionOf, List.filter_eq_nil_iff.mpr fun e he => by simp [h e he]]
    rfl
  rw [fuseRegang, hunion, if_neg]
  simp only [Bool.and_eq_true, bne_iff_ne, beq_iff_eq, not_and]
  exact fun hlive hzero => hlive hzero.symm

theorem arriveEntry_of_no_levels {e : SplitEntry} (h : e.levels = []) : arriveEntry e = e := by
  rw [arriveEntry, h]

theorem fuseOnce_of_no_levels {es : List SplitEntry} (h : ∀ e ∈ es, e.levels = []) (exited : BitVec 8) :
    fuseOnce exited es = es := by
  unfold fuseOnce
  split
  · rfl
  · split
    · next a ha =>
      split
      · next hl =>
        rw [h a (List.mem_of_getElem? ha)] at hl
        cases hl
      · rfl
    · rfl

theorem settleSplit_of_no_levels {es : List SplitEntry} (h : ∀ e ∈ es, e.levels = []) (exited : BitVec 8) (n : Nat) :
    settleSplit exited n es = es := by
  have harrive : es.map arriveEntry = es := by
    refine (List.map_congr_left fun e he => arriveEntry_of_no_levels (h e he)).trans (List.map_id _)
  induction n with
  | zero => rfl
  | succ n ih => rw [settleSplit, harrive, fuseOnce_of_no_levels h, ih]

/-- The entries of a table with one fragment are that fragment, which runs, and entries that hold nothing. -/
theorem mem_oneFragment {slices : BitVec 8} {pc : Word} {prev : Option Nat} {e : SplitEntry}
    (h : e ∈ oneFragment slices pc prev) :
    e = { entry0 with valid := true, slices := slices, pc := pc, prev := prev } ∨ e = entry0 := by
  rcases List.mem_cons.mp h with rfl | h
  · exact .inl rfl
  · exact .inr (List.mem_replicate.mp h).2

theorem settleEntries_of_oneFragment {g : Gang} {slices : BitVec 8} {pc : Word} {prev : Option Nat}
    (h : g.split = oneFragment slices pc prev) (hdr : Hdr) : settleEntries hdr g = g := by
  have hlevels : ∀ e ∈ g.split, e.levels = [] := fun e he => by
    rcases mem_oneFragment (h ▸ he) with rfl | rfl <;> rfl
  have hrun : ∀ e ∈ g.split, inRegang e = false := fun e he => by
    rcases mem_oneFragment (h ▸ he) with rfl | rfl <;> rfl
  rw [settleEntries, fuseRegang_of_none hrun, settleSplit_of_no_levels hlevels]

theorem getGang_settle {t : State} {x : Ctx} {g : Gang} (h : getGang t x.pid x.gi = some g) :
    ∃ hdr, getGang (x.settle t) x.pid x.gi = some (settleEntries hdr g) := by
  obtain ⟨p, hp, hpg⟩ := Option.bind_eq_some_iff.mp h
  refine ⟨p.hdr, ?_⟩
  rw [Ctx.settle, Ctx.updP, getGang, getPanel_updPanel_same]
  · simp [hp, getElem?_modifyAt, hpg]
  · exact fun _ => rfl

/-! ## An instruction whose body has ended the issue itself -/

theorem runInstr_ended {x : Ctx} {i : Instr} {body : Ctx → State → Body} {s u : State} (hx : ctxOf i s = some x)
    (hr : x.ready i) (hb : body x (x.begin s) = .error (.ended u)) :
    ∃ t, runInstr i body s = .next t ∧ t.quiet = (x.settle u).quiet := by
  refine ⟨x.conclude i s (.error (.ended u)), by simp [runInstr, hx, attempt_of hr hb], ?_⟩
  rw [Ctx.conclude, quiet_close]
  exact settle_congr x (quiet_takeSlot _ _ _ _)

/-- The fragment of an instruction that does not complete stands at it again; of its gang nothing but its entry has changed. -/
theorem back_begin_gang {i : Instr} {s : State} {x : Ctx} (hx : ctxOf i s = some x) :
    ∃ es, getGang (x.back (x.begin s)) x.pid x.gi = some { x.g with split := es } ∧
      (es[x.ei]?).map (·.pc) = some x.e.pc := by
  obtain ⟨-, -, -, he, -⟩ := ctxOf_spec hx
  obtain ⟨f, hf⟩ := begin_gang hx
  refine ⟨_, (getGang_updGang ..).trans (congrArg (Option.map _) hf), ?_⟩
  simp [getElem?_modifyAt, he]

theorem back_begin_hdr {i : Instr} {s : State} {x : Ctx} (hx : ctxOf i s = some x) :
    ∃ p, getPanel (x.back (x.begin s)) x.pid = some p ∧ p.hdr = x.p.hdr := by
  obtain ⟨f, hf⟩ := begin_panel hx
  exact ⟨_, (getPanel_updGang ..).trans (congrArg (Option.map _) hf), rfl⟩

/-! ## The bodies of CTNOPEN, CTNCLOSE and CTNRAISE (13 R224, R225, 22 R362) -/

theorem check_bind_of_true {β : Type} {b : Bool} (h : b = true) (cause : Nat) (info : DWord) (f : Unit → Except Stop β) :
    (check b cause info >>= f) = f () := answer_bind_ok (if_pos h) f

theorem check_bind_of_false {β : Type} {b : Bool} (h : b = false) (cause : Nat) (info : DWord) (f : Unit → Except Stop β) :
    (check b cause info >>= f) = .error (.trap (mkTrap cause info)) := answer_bind_error (if_neg (by simp [h])) f

/-- The trap of CTNRAISE. -/
def raisedTrap (code : BitVec 8) : Trap := ⟨cTrapInstr, 0, code.toNat, 0, none⟩

theorem exec_ctnraise {c : Ctl} {code : BitVec 8} {s : State} {x : Ctx} (hx : ctxOf (.ctnraise c code) s = some x)
    (hr : x.ready (.ctnraise c code)) (hw : x.whole = true) :
    ∃ u, exec (.ctnraise c code) s = .next u ∧
      u.quiet = (x.settle (takeTrap (x.back (x.begin s)) x.pid x.gi x.ei (raisedTrap code) true)).quiet :=
  runInstr_ended hx hr (check_bind_of_true hw _ _ _)

/-- A trap that unwinds a region with no command to wait for ends the unwind at once, and the gang stands whole. -/
theorem unwound_of_clear {i : Instr} {s : State} {x : Ctx} {r : Region} {rest : List Region} (hx : ctxOf i s = some x)
    (hh : x.g.handler = false) (hreg : x.g.regions = r :: rest) (hclear : r.clear x.g.seals) (t : Trap) :
    ∃ h clk k, liveSlices h k = liveSlices x.p.hdr x.g ∧ ∃ g,
      getGang (x.settle (takeTrap (x.back (x.begin s)) x.pid x.gi x.ei t true)) x.pid x.gi = some g ∧
      Unwound h clk ⟨t.cause, t.status, t.cls, x.e.pc, t.info, x.g.regions.length, t.reg⟩ r rest k g := by
  obtain ⟨p, hp, hhdr⟩ := back_begin_hdr hx
  obtain ⟨es, hg, hentry⟩ := back_begin_gang hx
  obtain ⟨e, he, hpc⟩ := Option.map_eq_some_iff.mp hentry
  obtain ⟨k, hkeeps, hgang, -⟩ := beginUnwind_spec hp hg hreg x.e.pc t
  rw [takeTrap_unwinds hp hg he hh (by simp [hreg]), hpc]
  have hend := finishUnwind_of_clear (g := k.startUnwind ⟨t.cause, t.status, t.cls, x.e.pc, t.info, x.g.regions.length, t.reg⟩)
    (hkeeps.regions.trans hreg) rfl (hkeeps.seals.clear hclear) p.hdr p.clk
  obtain ⟨hdr, hsettle⟩ := getGang_settle hgang
  rw [settleEntries_of_oneFragment hend.split] at hsettle
  have hexited : k.exited = x.g.exited := hkeeps.exited
  refine ⟨_, _, _, ?_, _, hsettle, hend⟩
  rw [hhdr]
  exact congrArg (fun w => enabledSlices x.p.hdr &&& ~~~w) hexited

end Sys2Proof.Machine

namespace Sys2Proof.Claims

open Sys2Proof Sys2Proof.Machine

/-- Settles O42, by the checks of each body; the unwind of CTNRAISE is that of O43, with nothing to wait for. -/
theorem containment : Obligations.Containment := by
  intro c x1 code id s
  refine ⟨?opens, ?deep, trapsWhen_of rfl fun x _ _ hw => check_bind_of_false hw _ _ _,
    trapsWhen_of rfl fun x _ _ hw => check_bind_of_false hw _ _ _, trapsWhen_of rfl fun x _ _ hw => check_bind_of_false hw _ _ _,
    ?closes, ?none, fun x hx hr hw => exec_ctnraise hx hr hw, fun x r rest hx hr hw hh hreg hclear => ?unwinds,
    completesWith_of rfl fun x u => rfl⟩
  case opens => exact completesWhen_of rfl fun x _ _ ⟨hw, hroom⟩ =>
    (check_bind_of_true hw _ _ _).trans (check_bind_of_true (decide_eq_true hroom) _ _ _)
  case deep => exact trapsWhen_of rfl fun x _ _ ⟨hw, hfull⟩ =>
    (check_bind_of_true hw _ _ _).trans (check_bind_of_false (decide_eq_false (Nat.not_lt.mpr hfull)) _ _ _)
  case closes => exact completesWhen_of rfl fun x _ _ ⟨hw, hopen⟩ =>
    (check_bind_of_true hw _ _ _).trans (check_bind_of_true (by simp [hopen]) _ _ _)
  case none => exact trapsWhen_of rfl fun x _ _ ⟨hw, hnone⟩ =>
    (check_bind_of_true hw _ _ _).trans (check_bind_of_false (by simp [hnone]) _ _ _)
  case unwinds =>
    obtain ⟨u, hexec, hquiet⟩ := exec_ctnraise hx hr hw
    obtain ⟨h, clk, k, hlive, g, hg, hend⟩ := unwound_of_clear hx hh hreg hclear (raisedTrap code)
    have hgang : (getGang u x.pid x.gi).map Gang.quiet = some g.quiet := by
      rw [← getGang_quiet, hquiet, getGang_quiet, hg, Option.map_some]
    obtain ⟨g', hg', hsame⟩ := Option.map_eq_some_iff.mp hgang
    have hsplit : g'.split = oneFragment (liveSlices h k) r.handler (some clk) :=
      (congrArg Gang.split hsame).trans hend.split
    refine ⟨u, g', hexec, hg', (congrArg Gang.regions hsame).trans hend.regions, (congrArg Gang.em hsame).trans hend.em,
      (congrArg Gang.nest hsame).trans hend.nest, (congrArg (fun q => vget (Gang.s q) 62 copies0) hsame).trans hend.s62,
      (congrArg Gang.unwind hsame).trans hend.unwind, (congrArg Gang.tcause hsame).trans hend.tcause,
      (congrArg Gang.tpc hsame).trans hend.tpc, (congrArg Gang.tinfo hsame).trans hend.tinfo, fun e he hv => ?_⟩
    rcases mem_oneFragment (hsplit ▸ he) with rfl | rfl
    · exact ⟨rfl, hlive, rfl⟩
    · cases hv

end Sys2Proof.Claims
end

section
/-! SUPPORT. The bytes of an instruction and back: the little-endian layout loses nothing of a first word and its extension
words, so that a fetch of the bytes gives the fields again (10 R177, 16 R245, R249). -/

namespace Sys2Proof.Laws

open Sys2Proof

/-! ## Little-endian bytes (10 R177) -/

@[simp] theorem length_leBytes (k n : Nat) : (leBytes k n).length = k := by
  induction k generalizing n with
  | zero => rfl
  | succ k ih => rw [leBytes, List.length_cons, ih]

@[simp] theorem leNat_leBytes (k n : Nat) : leNat (leBytes k n) = n % 256 ^ k := by
  induction k generalizing n with
  | zero => rw [leBytes, leNat, Nat.pow_zero, Nat.mod_one]
  | succ k ih => rw [leBytes, leNat, ih, BitVec.toNat_ofNat, Nat.pow_succ' (m := 256), Nat.mod_mul]

/-- The bytes of a number, cut in two. -/
theorem leBytes_add (m k n : Nat) : leBytes (m + k) n = leBytes m n ++ leBytes k (n / 256 ^ m) := by
  induction m generalizing n with
  | zero => rw [Nat.zero_add, Nat.pow_zero, Nat.div_one, leBytes, List.nil_append]
  | succ m ih =>
    rw [Nat.add_right_comm, leBytes, leBytes, ih, Nat.div_div_eq_div_mul, ← Nat.pow_succ' (m := 256), List.cons_append]

/-! ## The fields of a number (16 Table 16-1) -/

/-- How wide each field is. -/
theorem fields_lt (r : Raw) :
    r.l.toNat < 2 ^ 2 ∧ r.op.toNat < 2 ^ 8 ∧ r.stall.toNat < 2 ^ 4 ∧ r.fe.toNat < 2 ^ 3 ∧ r.y.toNat < 2 ^ 1 ∧
    r.g.toNat < 2 ^ 4 ∧ r.gn.toNat < 2 ^ 1 ∧ r.d.toNat < 2 ^ 7 ∧ r.a.toNat < 2 ^ 7 ∧ r.b.toNat < 2 ^ 7 ∧
    r.c.toNat < 2 ^ 7 ∧ r.sub.toNat < 2 ^ 8 ∧ r.mod.toNat < 2 ^ 5 ∧ r.x1.toNat < 2 ^ 32 ∧ r.x2.toNat < 2 ^ 32 :=
  ⟨r.l.isLt, r.op.isLt, r.stall.isLt, r.fe.isLt, r.y.isLt, r.g.isLt, r.gn.isLt, r.d.isLt,
    r.a.isLt, r.b.isLt, r.c.isLt, r.sub.isLt, r.mod.isLt, r.x1.isLt, r.x2.isLt⟩

/-- The fields of Table 16-1 and the extension words overlap nowhere. -/
theorem rawOfNat_toNat (r : Raw) : Raw.ofNat r.toNat = r := by
  have hwidths := fields_lt r
  unfold Raw.ofNat Raw.toNat
  congr <;> (apply BitVec.eq_of_toNat_eq; rw [BitVec.toNat_ofNat]; omega)

/-- The extension words stand above the 64 bits of the first word. -/
theorem exists_firstWord (r : Raw) : ∃ w < 2 ^ 64, r.toNat = w + r.x1.toNat * 2 ^ 64 + r.x2.toNat * 2 ^ 96 := by
  have hwidths := fields_lt r
  exact ⟨_, by omega, rfl⟩

/-- Fields that fit their length are a number of that many bytes (16 R245). -/
theorem toNat_lt_of_fieldsFit {r : Raw} (hfit : fieldsFit r) (hl : r.l ≠ 0) : r.toNat < 256 ^ lengthBytes r.l := by
  obtain ⟨w, hw, hwords⟩ := exists_firstWord r
  have hx1 := r.x1.isLt
  have hx2 := r.x2.isLt
  have hzero : (0 : Word).toNat = 0 := rfl
  rw [hwords]
  obtain h | h | h := (by decide : ∀ l : BitVec 2, l ≠ 0 → l = 1 ∨ l = 2 ∨ l = 3) r.l hl
  · obtain ⟨h1, h2⟩ := hfit.1 h
    rw [h, h1, h2, (by decide : lengthBytes 1 = 8), hzero]
    omega
  · rw [h, hfit.2 h, (by decide : lengthBytes 2 = 12), hzero]
    omega
  · rw [h, (by decide : lengthBytes 3 = 16)]
    omega

/-- Fields that decode have a length (16 R245). -/
theorem l_ne_zero_of_decode {r : Raw} {i : Instr} (h : r.decode = .ok i) : r.l ≠ 0 := by
  intro hl
  rw [Raw.decode, if_pos (beq_iff_eq.mpr hl)] at h
  cases h

/-- The first byte of fields holds their L in its bits [1:0]. -/
theorem l_of_firstByte (r : Raw) : BitVec.ofNat 2 (BitVec.ofNat 8 r.toNat).toNat = r.l := by
  rw [BitVec.toNat_ofNat]
  calc BitVec.ofNat 2 (r.toNat % 2 ^ 8) = BitVec.ofNat 2 r.toNat :=
        BitVec.eq_of_toNat_eq (by simp only [BitVec.toNat_ofNat]; omega)
    _ = r.l := congrArg Raw.l (rawOfNat_toNat r)

/-! ## The bytes of fields decode as the fields do -/

/-- Bytes as many as their first one asks for decode as their fields do, whatever stands after them. -/
theorem decode_append {b : Byte} {bs : List Byte} {i : Instr}
    (hlen : lengthBytes (BitVec.ofNat 2 b.toNat) = (b :: bs).length)
    (h : (Raw.ofNat (leNat (b :: bs))).decode = .ok i) (rest : List Byte) :
    decode (b :: bs ++ rest) = .ok (i, rest) := by
  have henough : ¬ (b :: bs ++ rest).length < (b :: bs).length := by simp
  rw [List.cons_append] at henough ⊢
  simp only [decode, hlen, henough, if_false]
  rw [if_neg (List.length_cons ▸ Nat.succ_ne_zero _), ← List.cons_append, List.take_left, List.drop_left, h]

/-- Fields that fit their length and decode do so from their bytes. -/
theorem decode_leBytes {r : Raw} {i : Instr} (hfit : fieldsFit r) (h : r.decode = .ok i) (rest : List Byte) :
    decode (leBytes (lengthBytes r.l) r.toNat ++ rest) = .ok (i, rest) := by
  have hl := l_ne_zero_of_decode h
  have hlt := toNat_lt_of_fieldsFit hfit hl
  obtain ⟨k, hk : lengthBytes r.l = k + 1⟩ :=
    Nat.exists_eq_succ_of_ne_zero ((by decide : ∀ l, l ≠ 0 → lengthBytes l ≠ 0) _ hl)
  have hback : Raw.ofNat (leNat (leBytes (k + 1) r.toNat)) = r := by
    rw [leNat_leBytes, Nat.mod_eq_of_lt (hk ▸ hlt), rawOfNat_toNat]
  rw [hk]
  refine decode_append ?length (hback.symm ▸ h) rest
  case length => rw [l_of_firstByte, hk, List.length_cons, length_leBytes]

/-! ## Every instruction -/

/-- What the encoder gives an instruction decodes to it, for every row of the table: the lemmas of its rows, and for the rows
that are events the lack of an encoding. -/
theorem encoding_statement (i : Instr) : Encoding.Statement i := by
  cases i with
  | nop c len => exact Encoding.nop c len
  | bra c x1 => exact Encoding.bra c x1
  | brx c a x1 => exact Encoding.brx c a x1
  | brs c cond a x1 x2 => exact Encoding.brs c cond a x1 x2
  | brv c cond a x1 x2 => exact Encoding.brv c cond a x1 x2
  | call c x1 => exact Encoding.call c x1
  | ret c a => exact Encoding.ret c a
  | regang c => exact Encoding.regang c
  | exit c => exact Encoding.exit c
  | ifMask c a => exact Encoding.ifMask c a
  | elseMask c => exact Encoding.elseMask c
  | endif c => exact Encoding.endif c
  | loop c => exact Encoding.loop c
  | endloop c x1 => exact Encoding.endloop c x1
  | breakMask c a k => exact Encoding.breakMask c a k
  | contMask c a k => exact Encoding.contMask c a k
  | yield c => exact Encoding.yield c
  | sleep c n => exact Encoding.sleep c n
  | trap c code => exact Encoding.trap c code
  | rett c => exact Encoding.rett c
  | brk c code => exact Encoding.brk c code
  | srd c d num => exact Encoding.srd c d num
  | swr c a num => exact Encoding.swr c a num
  | clk c d => exact Encoding.clk c d
  | perf c d ev => exact Encoding.perf c d ev
  | sadd c d a b => exact Encoding.sadd c d a b
  | ssub c d a b => exact Encoding.ssub c d a b
  | smul c d a b => exact Encoding.smul c d a b
  | smulh c u d a b => exact Encoding.smulh c u d a b
  | sdiv c u d a b => exact Encoding.sdiv c u d a b
  | srem c u d a b => exact Encoding.srem c u d a b
  | sand c d a b => exact Encoding.sand c d a b
  | sor c d a b => exact Encoding.sor c d a b
  | sxor c d a b => exact Encoding.sxor c d a b
  | sshl c d a b => exact Encoding.sshl c d a b
  | sshr c d a b => exact Encoding.sshr c d a b
  | ssra c d a b => exact Encoding.ssra c d a b
  | smin c u d a b => exact Encoding.smin c u d a b
  | smax c u d a b => exact Encoding.smax c u d a b
  | scmp c cond d a b => exact Encoding.scmp c cond d a b
  | ssel c d a b cc => exact Encoding.ssel c d a b cc
  | smov c d a => exact Encoding.smov c d a
  | smovi c d x => exact Encoding.smovi c d x
  | sclz c d a => exact Encoding.sclz c d a
  | spopc c d a => exact Encoding.spopc c d a
  | sbfx c sgn d a pos wid => exact Encoding.sbfx c sgn d a pos wid
  | sbfi c d a pos wid => exact Encoding.sbfi c d a pos wid
  | sld c t d a off => exact Encoding.sld c t d a off
  | sst c t a b off => exact Encoding.sst c t a b off
  | slda c wide add d a off => exact Encoding.slda c wide add d a off
  | vadd c t d a b => exact Encoding.vadd c t d a b
  | vsub c t d a b => exact Encoding.vsub c t d a b
  | vmul c t d a b => exact Encoding.vmul c t d a b
  | vmulh c t d a b => exact Encoding.vmulh c t d a b
  | vmad c t d a b cc => exact Encoding.vmad c t d a b cc
  | vadds c t d a b => exact Encoding.vadds c t d a b
  | vsubs c t d a b => exact Encoding.vsubs c t d a b
  | vand c d a b => exact Encoding.vand c d a b
  | vor c d a b => exact Encoding.vor c d a b
  | vxor c d a b => exact Encoding.vxor c d a b
  | vnot c d a => exact Encoding.vnot c d a
  | vshl c t d a b => exact Encoding.vshl c t d a b
  | vshr c t d a b => exact Encoding.vshr c t d a b
  | vsra c t d a b => exact Encoding.vsra c t d a b
  | vmin c t d a b => exact Encoding.vmin c t d a b
  | vmax c t d a b => exact Encoding.vmax c t d a b
  | vabs c t d a => exact Encoding.vabs c t d a
  | vneg c t d a => exact Encoding.vneg c t d a
  | vclz c t d a => exact Encoding.vclz c t d a
  | vpopc c t d a => exact Encoding.vpopc c t d a
  | vbfx c sgn d a pos wid => exact Encoding.vbfx c sgn d a pos wid
  | vbfi c d a pos wid => exact Encoding.vbfi c d a pos wid
  | vaddc c t d a b cc => exact Encoding.vaddc c t d a b cc
  | vmov c d a => exact Encoding.vmov c d a
  | vbcast c d a => exact Encoding.vbcast c d a
  | vlid c d => exact Encoding.vlid c d
  | vsel c d a b cc => exact Encoding.vsel c d a b cc
  | vcmp c t cond d a b => exact Encoding.vcmp c t cond d a b
  | vmask c d a => exact Encoding.vmask c d a
  | fadd c t d a b => exact Encoding.fadd c t d a b
  | fsub c t d a b => exact Encoding.fsub c t d a b
  | fmul c t d a b => exact Encoding.fmul c t d a b
  | ffma c t d a b cc => exact Encoding.ffma c t d a b cc
  | fmin c t d a b => exact Encoding.fmin c t d a b
  | fmax c t d a b => exact Encoding.fmax c t d a b
  | fabs c t d a => exact Encoding.fabs c t d a
  | fneg c t d a => exact Encoding.fneg c t d a
  | fdiv c t d a b => exact Encoding.fdiv c t d a b
  | frcp c t d a => exact Encoding.frcp c t d a
  | frsq c t d a => exact Encoding.frsq c t d a
  | fsqrt c t d a => exact Encoding.fsqrt c t d a
  | fexp2 c t d a => exact Encoding.fexp2 c t d a
  | flog2 c t d a => exact Encoding.flog2 c t d a
  | ffloor c t d a => exact Encoding.ffloor c t d a
  | ffrac c t d a => exact Encoding.ffrac c t d a
  | fscale c t d a b => exact Encoding.fscale c t d a b
  | fclass c t d a => exact Encoding.fclass c t d a
  | cvt c dt d a st part => exact Encoding.cvt c dt d a st part
  | cvti c dt d a st part sat => exact Encoding.cvti c dt d a st part sat
  | cvtf c dt d a st part => exact Encoding.cvtf c dt d a st part
  | cvtbx c dt d a b st part delta => exact Encoding.cvtbx c dt d a b st part delta
  | shfi c seg d a b => exact Encoding.shfi c seg d a b
  | shfu c seg d a b => exact Encoding.shfu c seg d a b
  | shfd c seg d a b => exact Encoding.shfd c seg d a b
  | shfx c seg d a b => exact Encoding.shfx c seg d a b
  | gshf c kind width delta d a => exact Encoding.gshf c kind width delta d a
  | vote c kind d a => exact Encoding.vote c kind d a
  | vreda c t op d a => exact Encoding.vreda c t op d a
  | vscan c ex t op d a => exact Encoding.vscan c ex t op d a
  | aldef c d a off => exact Encoding.aldef c d a off
  | alrd c d a word => exact Encoding.alrd c d a word
  | unpk c sym an d a first => exact Encoding.unpk c sym an d a first
  | pack c sym an d a first => exact Encoding.pack c sym an d a first
  | symx c sym an d a b => exact Encoding.symx c sym an d a b
  | symi c sym an d a b cc => exact Encoding.symi c sym an d a b cc
  | symld c sym an d a b => exact Encoding.symld c sym an d a b
  | symst c sym an a b cc => exact Encoding.symst c sym an a b cc
  | dota c acc an am d a b nmax => exact Encoding.dota c acc an am d a b nmax
  | valc c an d a => exact Encoding.valc c an d a
  | ld c t d a off => exact Encoding.ld c t d a off
  | st c t a b off => exact Encoding.st c t a b off
  | ldt c t d a b => exact Encoding.ldt c t d a b
  | stt c t a b cc => exact Encoding.stt c t a b cc
  | ldb c t d a off => exact Encoding.ldb c t d a off
  | ats c ret t op d a b off => exact Encoding.ats c ret t op d a b off
  | trtw c a b => exact Encoding.trtw c a b
  | trtr c d a => exact Encoding.trtr c d a
  | layset c fld d a x1 => exact Encoding.layset c fld d a x1
  | mxz c first count => exact Encoding.mxz c first count
  | mma c ta tb keepb ck d a b cc => exact Encoding.mma c ta tb keepb ck d a b cc
  | mxrd c toReg t d first count => exact Encoding.mxrd c toReg t d first count
  | mxwr c t a first count => exact Encoding.mxwr c t a first count
  | mxsc c opB kind a b => exact Encoding.mxsc c opB kind a b
  | mxck c clr d => exact Encoding.mxck c clr d
  | mxil c t a krows => exact Encoding.mxil c t a krows
  | cpyq c a => exact Encoding.cpyq c a
  | cpypub c => exact Encoding.cpypub c
  | cseal c cls => exact Encoding.cseal c cls
  | cwait c cls n => exact Encoding.cwait c cls n
  | cstat c form cls d => exact Encoding.cstat c form cls d
  | gath c t d a x => exact Encoding.gath c t d a x
  | scat c t a b x => exact Encoding.scat c t a b x
  | hgcfg c a slot => exact Encoding.hgcfg c a slot
  | hgld c d a x => exact Encoding.hgld c d a x
  | hgsc c a b x => exact Encoding.hgsc c a b x
  | hgfold c zero a x => exact Encoding.hgfold c zero a x
  | hgidx c d a slot level corner => exact Encoding.hgidx c d a slot level corner
  | atom c form t op scope ret d a b cc => exact Encoding.atom c form t op scope ret d a b cc
  | atoms c form t op scope ret a b off => exact Encoding.atoms c form t op scope ret a b off
  | join c slot => exact Encoding.join c slot
  | leave c slot => exact Encoding.leave c slot
  | seambar c slot => exact Encoding.seambar c slot
  | barw c b n => exact Encoding.barw c b n
  | slvinit c n a => exact Encoding.slvinit c n a
  | slvpush c n a => exact Encoding.slvpush c n a
  | slvpop c n d => exact Encoding.slvpop c n d
  | slvtry c n d => exact Encoding.slvtry c n d
  | slvgrant c n => exact Encoding.slvgrant c n
  | phaseAcq c scope => exact Encoding.phaseAcq c scope
  | phaseRel c scope => exact Encoding.phaseRel c scope
  | phaseAr c scope => exact Encoding.phaseAr c scope
  | fence c mask => exact Encoding.fence c mask
  | fewait c a => exact Encoding.fewait c a
  | femark c st d => exact Encoding.femark c st d
  | rgnLo c mask => exact Encoding.rgnLo c mask
  | rgnHi c mask => exact Encoding.rgnHi c mask
  | spill c a slot => exact Encoding.spill c a slot
  | fill c d slot => exact Encoding.fill c d slot
  | ftag c d a => exact Encoding.ftag c d a
  | ctnopen c x1 => exact Encoding.ctnopen c x1
  | ctnclose c => exact Encoding.ctnclose c
  | ctnraise c code => exact Encoding.ctnraise c code
  | tidset c id => exact Encoding.tidset c id
  | _ => exact event_of rfl

/-- Decoding undoes encoding, with anything after the bytes. -/
theorem decode_encode {i : Instr} (hw : i.WellFormed) (he : i.isEvent = false) (rest : List Byte) :
    decode (encode i ++ rest) = .ok (i, rest) :=
  have ⟨hfit, hdecode⟩ := encoding_statement i he
  decode_leBytes hfit (hdecode hw) rest

/-- A word of the manual decodes to the instruction whose fields it holds. -/
theorem decodeTableWord_of_fields {i : Instr} {nbits w : Nat} (hw : i.WellFormed) (he : i.isEvent = false)
    (hlen : i.length * 8 = nbits) (hfields : (rawOf i).toNat = w) : decodeTableWord nbits w = some i := by
  have ⟨hfit, hdecode⟩ := encoding_statement i he
  have hlt : w < 2 ^ nbits := by
    rw [← hlen, ← hfields, Nat.mul_comm, Nat.pow_mul]
    exact toNat_lt_of_fieldsFit hfit (l_ne_zero_of_decode (hdecode hw))
  have hroom : i.length + (16 - i.length) = 16 := Nat.add_sub_cancel' ((by decide : ∀ l, lengthBytes l ≤ 16) _)
  have hbytes : leBytes 16 w = encode i ++ leBytes (16 - i.length) (w / 256 ^ i.length) := by
    rw [encode, hfields, ← leBytes_add, hroom]
  rw [decodeTableWord, Nat.mod_eq_of_lt hlt, hbytes, decode_encode hw he]

end Sys2Proof.Laws
end

section
/-! CLAIM. Decoding what the encoder gives, and the words that the specification assembles (O53, O54). -/

namespace Sys2Proof.Claims

open Sys2Proof Sys2Proof.Laws

/-- Settles O53: the fields of each row of the table decode to it and fit its length, and the bytes of fields that fit give them
back. -/
theorem encodeDecode : Obligations.EncodeDecode :=
  fun _ rest hw he => ⟨decode_encode hw he rest, length_leBytes ..⟩

/-- Settles O54: each word that the specification assembles holds the fields of its instruction; of the three refused words the
decoder says so by computation. -/
theorem decodeWords : Obligations.DecodeWords :=
  ⟨decodeTableWord_of_fields rfl rfl rfl rfl, decodeTableWord_of_fields rfl rfl rfl rfl,
    decodeTableWord_of_fields rfl rfl rfl rfl, decodeTableWord_of_fields rfl rfl rfl rfl,
    decodeTableWord_of_fields rfl rfl rfl rfl, decodeTableWord_of_fields rfl rfl rfl rfl,
    decodeTableWord_of_fields rfl rfl rfl rfl, decodeTableWord_of_fields rfl rfl rfl rfl,
    decodeTableWord_of_fields rfl rfl rfl rfl, decodeTableWord_of_fields rfl rfl rfl rfl,
    decodeTableWord_of_fields rfl rfl rfl rfl, by decide, by decide, by decide⟩

end Sys2Proof.Claims
end

section
/-! SUPPORT. What being ready says of an instruction, the check of a test that fails or passes, and charges of no event (13 R218, 10
R191). -/

namespace Sys2Proof.Machine

open Sys2Proof

/-- A ready instruction is one that the state of its gang and panel lets run. -/
theorem illegalNow_of_ready {x : Ctx} {i : Instr} (h : x.ready i) : illegalNow x.p x.g x.e i = false := by
  obtain ⟨-, -, -, hlegal, -⟩ := h
  exact hlegal

/-! ## Charges of no event (10 R191) -/

theorem chargePanel_zero (p : Panel) (tid : BitVec 12) : chargePanel p tid Counts.zero = p := if_pos rfl

@[simp] theorem count_zero (x : Ctx) (s : State) : x.count Counts.zero s = s := by
  simp only [Ctx.count, charge, chargePanel_zero]
  exact updPanel_id s x.pid

theorem foldl_add_zero {α : Type} {f : α → Counts} {xs : List α} (h : ∀ a ∈ xs, f a = Counts.zero) :
    xs.foldl (fun c a => c.add (f a)) Counts.zero = Counts.zero := by
  induction xs with
  | nil => rfl
  | cons a as ih =>
    rw [List.foldl_cons, h a List.mem_cons_self]
    exact ih fun b hb => h b (List.mem_cons_of_mem a hb)

theorem countsOf_plain (n : Nat) (f : Nat → Nat) : countsOf n (fun j => plainElem (f j)) = Counts.zero :=
  foldl_add_zero fun _ _ => rfl

theorem tally_zero {x : Ctx} {f : Nat → Counts} (h : ∀ l ∈ x.lanes, f l = Counts.zero) : x.tally f = Counts.zero :=
  foldl_add_zero h

end Sys2Proof.Machine
end

section
/-! CLAIM. Scalar arithmetic, moves and bit fields (O1, O2). -/

namespace Sys2Proof.Machine

open Sys2Proof

/-- An instruction that writes a scalar register completes with any form of its value. -/
theorem completesWith_setS {i : Instr} {s : State} {d : Reg} {v w : Ctx → Nat → DWord}
    (he : exec i s = runInstr i (fun x t => .ok (x.setS d (v x) t)) s) (h : ∀ x k, v x k = w x k) :
    completesWith i s fun x => x.setS d (w x) :=
  completesWith_of he fun x u => by rw [funext (h x)]

/-! ## The values of 17 Tables 17-5 and 17-6 -/

theorem divide64_eq (u : Bool) (a b : DWord) :
    divide64 u a b = if b = 0 then 0xFFFFFFFFFFFFFFFF else if u then a.udiv b else a.sdiv b := by
  have hu : BitVec.ofNat 64 (a.toNat / b.toNat) = a.udiv b := BitVec.eq_of_toNat_eq (by
    simp [BitVec.udiv_eq, Nat.mod_eq_of_lt (Nat.lt_of_le_of_lt (Nat.div_le_self ..) a.isLt)])
  have hs : BitVec.ofInt 64 (a.toInt.tdiv b.toInt) = a.sdiv b := BitVec.eq_of_toInt_eq (by
    rw [BitVec.toInt_ofInt, BitVec.toInt_sdiv])
  rw [divide64, hu, hs]

theorem remainder64_eq (u : Bool) (a b : DWord) :
    remainder64 u a b = if b = 0 then a else if u then a.umod b else a.srem b := by
  have hu : BitVec.ofNat 64 (a.toNat % b.toNat) = a.umod b := BitVec.eq_of_toNat_eq (by
    simp [BitVec.umod_eq, Nat.mod_eq_of_lt (Nat.lt_of_le_of_lt (Nat.mod_le ..) a.isLt)])
  have hs : BitVec.ofInt 64 (a.toInt.tmod b.toInt) = a.srem b := by rw [← BitVec.toInt_srem, BitVec.ofInt_toInt]
  rw [remainder64, hu, hs]

theorem ite_less {α : Type} (u : Bool) (a b : DWord) (p q : α) : (if less u a b then p else q) =
    if u then (if a.toNat < b.toNat then p else q) else (if a.toInt < b.toInt then p else q) := by
  cases u <;> simp [less, BitVec.ult_eq_decide, BitVec.slt_eq_decide]

theorem leadingZeros_dword (v : DWord) :
    BitVec.ofNat 64 (leadingZeros 64 v.toNat) = if v = 0 then 64 else BitVec.ofNat 64 (63 - v.toNat.log2) := by
  have hzero : v.toNat = 0 ↔ v = 0 := BitVec.toNat_eq (y := 0) |>.symm
  simp only [leadingZeros, hzero]
  split <;> rfl

end Sys2Proof.Machine

namespace Sys2Proof.Claims

open Sys2Proof Sys2Proof.Machine

/-- Settles O1: quotients, remainders and comparisons are those of the words, and every other value is the clause's own. -/
theorem scalarArithmetic : Obligations.ScalarArithmetic := by
  refine ⟨fun c d a b u s => ⟨?sadd, ?ssub, ?smul, ?smulh, ?sdiv, ?srem, ?smin, ?smax⟩,
    fun c d a b s => ⟨?sand, ?sor, ?sxor, ?sshl, ?sshr, ?ssra⟩⟩
  case sdiv => exact completesWith_setS rfl fun x k => divide64_eq u (x.s a k) (x.sb b k)
  case srem => exact completesWith_setS rfl fun x k => remainder64_eq u (x.s a k) (x.sb b k)
  case smin => exact completesWith_setS rfl fun x k => ite_less u (x.sb b k) (x.s a k) _ _
  case smax => exact completesWith_setS rfl fun x k => ite_less u (x.s a k) (x.sb b k) _ _
  all_goals exact completesWith_setS rfl fun _ _ => rfl

/-- Settles O2: the test of SSEL and the count of SCLZ are those of the words, and every other value is the clause's own. -/
theorem scalarMoves : Obligations.ScalarMoves := by
  refine ⟨fun c cond d a b cc o w v s => ⟨?scmp, ?ssel, ?smov, ?smoviShort, ?smoviLong, ?sclz, ?spopc⟩,
    fun c sgn d a pos wid s => ⟨?sbfx, ?sbfi⟩⟩
  case ssel => exact completesWith_setS rfl fun x k => by by_cases h : x.s cc k = 0 <;> simp [h]
  case sclz => exact completesWith_setS rfl fun x k => leadingZeros_dword (x.s a k)
  all_goals exact completesWith_setS rfl fun _ _ => rfl

end Sys2Proof.Claims
end

section
/-! CLAIM. The special registers, the control instructions and the return from a trap (O3, O4, O10). -/

namespace Sys2Proof.Machine

open Sys2Proof

/-! ## The special registers that SRD reads (14 Table 14-5) -/

theorem isSome_ite_of_else {α : Type} {c : Prop} [Decidable c] {v : α} {r : Option α} (h : ¬ c → r.isSome) :
    (if c then some v else r).isSome := by
  split
  · rfl
  · next hc => exact h hc

/-- Every number that SRD takes has a value. -/
theorem special_isSome_of_reads {x : Ctx} {n : Nat} (h : specialReads n = true) : (x.special n).isSome := by
  simp only [specialReads, Bool.or_eq_true, decide_eq_true_eq, beq_iff_eq] at h
  unfold Ctx.special
  repeat refine isSome_ite_of_else fun _ => ?_
  omega

theorem special_isSome_of_ready {x : Ctx} {c : Ctl} {d : Reg} {num : BitVec 12} (h : x.ready (.srd c d num)) :
    (x.special num.toNat).isSome :=
  special_isSome_of_reads (by simpa [illegalNow] using illegalNow_of_ready h)

/-! ## The checks of a ring register (21 R328) -/

section
variable {x : Ctx} {v : DWord}

theorem ringIdle (hw : x.p.ring.w = x.p.ring.cons) (hv : v.toNat < 2 ^ 20) :
    (x.p.ring.w == x.p.ring.cons && decide (v.toNat < 2 ^ 20)) = true := by
  rw [hw, decide_eq_true hv, beq_self_eq_true]
  rfl

theorem ringCheck_ok {n : Nat} (hw : x.p.ring.w = x.p.ring.cons) (hv : v.toNat < 2 ^ 20)
    (hsize : n ≠ 0x021 ∨ 16 ≤ v.toNat ∧ v.toNat ≤ 256) (hbase : n ≠ 0x020 ∨ v.toNat % 32 = 0)
    (hnotify : n ≠ 0x022 ∨ v.toNat % 8 = 0) : x.ringCheck n v = .ok () := by
  unfold Ctx.ringCheck
  rw [check_bind_of_true (ringIdle hw hv), check_bind_of_true (by simpa using hsize),
    check_bind_of_true (by simpa using hbase)]
  exact if_pos (by simpa using hnotify)

theorem ringCheck_of_busy (hw : x.p.ring.w ≠ x.p.ring.cons) (n : Nat) :
    x.ringCheck n v = .error (.trap (mkTrap cIllegal 0)) :=
  check_bind_of_false (by simp [hw]) _ _ _

theorem ringCheck_of_misaligned (hw : x.p.ring.w = x.p.ring.cons) (hv : v.toNat < 2 ^ 20) (hbase : v.toNat % 32 ≠ 0) :
    x.ringCheck 0x020 v = .error (.trap (mkTrap cAlign v)) := by
  unfold Ctx.ringCheck
  rw [check_bind_of_true (ringIdle hw hv), check_bind_of_true (by simp), check_bind_of_false (by simp [hbase])]

end

/-! ## RETT in a handler (17 R270) -/

theorem illegalNow_rett_eq_false {p : Panel} {g : Gang} {e : SplitEntry} {c : Ctl} :
    illegalNow p g e (.rett c) = false ↔ g.handler = true ∧ g.hslices &&& ~~~g.exited &&& ~~~e.slices = 0 := by
  simp [illegalNow]

theorem getLsbD_of_andNot_eq_zero {u v w : BitVec 8} (h : u &&& ~~~v &&& ~~~w = 0) {k : Nat} (hu : u.getLsbD k = true)
    (hv : v.getLsbD k = false) : w.getLsbD k = true := by
  have hk : k < 8 := BitVec.lt_of_getLsbD hu
  have hbit := congrArg (fun b => b.getLsbD k) h
  rw [BitVec.getLsbD_eq_getElem hk] at hu hv ⊢
  simpa [hu, hv, hk] using hbit

end Sys2Proof.Machine

namespace Sys2Proof.Claims

open Sys2Proof Sys2Proof.Machine

/-- Settles O3: SRD is ready for numbers of the table only, and SWR of a ring register passes or fails its checks; the other clauses
name what the instruction does. -/
theorem specialRegisters : Obligations.SpecialRegisters := by
  refine ⟨fun c d num ev s => ⟨?srd, fun x => special_isSome_of_ready, ?clk, ?perf⟩,
    fun c a s => ⟨?em, ?tid, ?fpcsr, ?tcause, ?tpc, ?tinfo, ?base, ?size, ?notify, ?misaligned, ?busy⟩⟩
  case srd =>
    refine completesWhen_of rfl fun x _ hr _ => ?_
    obtain ⟨v, hv⟩ := Option.isSome_iff_exists.mp (special_isSome_of_ready hr)
    simp only [hv, Option.getD_some]
  case base =>
    exact completesWhen_of rfl fun x _ _ ⟨hw, hv, hmod⟩ =>
      answer_bind_ok (ringCheck_ok hw hv (.inl (by decide)) (.inr hmod) (.inl (by decide))) _
  case size =>
    exact completesWhen_of rfl fun x _ _ ⟨hw, hlow, hhigh⟩ =>
      answer_bind_ok (ringCheck_ok hw (by omega) (.inr ⟨hlow, hhigh⟩) (.inl (by decide)) (.inl (by decide))) _
  case notify =>
    exact completesWhen_of rfl fun x _ _ ⟨hw, hv, hmod⟩ =>
      answer_bind_ok (ringCheck_ok hw hv (.inl (by decide)) (.inl (by decide)) (.inr hmod)) _
  case misaligned =>
    exact trapsWhen_of rfl fun x _ _ ⟨hw, hv, hmod⟩ => answer_bind_error (ringCheck_of_misaligned hw hv hmod) _
  case busy => exact trapsWhen_of rfl fun x _ _ hw => answer_bind_error (ringCheck_of_busy hw _) _
  all_goals exact completesWith_of rfl fun x u => rfl

/-- Settles O4: BRX and RET pass or fail their checks, SLEEP n leaves its wake time and waits, and the other clauses name what the
instruction does. -/
theorem controlFlow : Obligations.ControlFlow := by
  refine ⟨fun c len cond a x1 x2 s => ⟨?nop, ?yield, ?bra, ?brs, ?brv, ?brx, ?call, ?ret, ?regang⟩,
    fun c a x1 s => ⟨?brxBad, ?retBad⟩, fun c n s => ⟨?sleepZero, fun x hx hr hn => ?sleep⟩⟩
  case brx => exact completesWhen_of rfl fun x _ _ h => check_bind_of_true (by simpa using h) _ _ _
  case ret =>
    exact completesWhen_of rfl fun x _ _ ⟨hsame, hmod⟩ =>
      (check_bind_of_true (by simpa using hsame) _ _ _).trans (check_bind_of_true (by simpa using hmod) _ _ _)
  case brxBad => exact trapsWhen_of rfl fun x _ _ h => check_bind_of_false (by simpa using h) _ _ _
  case retBad => exact trapsWhen_of rfl fun x _ _ h => check_bind_of_false (by simpa using h) _ _ _
  case sleep =>
    exact waitsWhen_of (h := fun _ => n ≠ 0) (b := fun _ => .sleep)
      (f := fun x => x.updEntry fun e => { e with wake := x.p.clk + n.toNat }) rfl (fun _ => rfl)
      (fun _ _ _ h => if_neg h) x hx hr hn
  all_goals exact completesWith_of rfl fun x u => rfl

/-- Settles O10: RETT is ready exactly where its gang runs a handler of which the fragment holds every live slice, and is ILLEGAL
elsewhere. -/
theorem trapReturn : Obligations.TrapReturn := by
  intro c s
  refine ⟨completesWith_of rfl fun x u => rfl, fun x h => ?ready, fun x hx hc h => ?refused,
    Laws.decodeTableWord_of_fields rfl rfl rfl rfl⟩
  case ready =>
    obtain ⟨hflag, hslices⟩ := illegalNow_rett_eq_false.mp (illegalNow_of_ready h)
    exact ⟨hflag, fun k => getLsbD_of_andNot_eq_zero hslices⟩
  case refused =>
    have hillegal : illegalNow x.p x.g x.e (.rett c) ≠ false := fun hlegal => by
      obtain ⟨hflag, hslices⟩ := illegalNow_rett_eq_false.mp hlegal
      rcases h with h | ⟨k, hin, hlive, hout⟩
      · exact Bool.eq_false_iff.mp h hflag
      · exact Bool.eq_false_iff.mp hout (getLsbD_of_andNot_eq_zero hslices hin hlive)
    exact runInstr_refused hx (checkIssue_of_illegal hc (by simp [hillegal]))

end Sys2Proof.Claims
end

section
/-! CLAIM. The vector instructions: integers, bits, moves, floats, conversions and lanes that read lanes (O12 to O17). -/

namespace Sys2Proof.Machine

open Sys2Proof

/-- A float instruction whose elements charge no event only writes its register (18 R288, R290). -/
theorem floatEffect_plain (t : Ty) (d : Reg) (x : Ctx) (f : Ctx → Fmt → Nat → Nat → Nat) (u : State) :
    floatEffect t d (fun x m l j => plainElem (f x m l j)) x u =
      x.setV d (fun l => packLane t.perLane fun j => f x (fmtOf t) l j) u := by
  rw [floatEffect, tally_zero fun l _ => countsOf_plain .., count_zero]
  rfl

end Sys2Proof.Machine

namespace Sys2Proof.Claims

open Sys2Proof Sys2Proof.Machine

/-- Settles O12: none of them waits or traps, and each body answers the state that the clause names. -/
theorem vectorArithmetic : Obligations.VectorArithmetic := by
  refine ⟨fun c t d a b cc o s => ⟨?vadd, ?vsub, ?vmul, ?vmulh, ?vmad, ?vmin, ?vmax, ?vabs, ?vneg, ?vaddc⟩,
    fun c t d a o s => ⟨?vadds, ?vsubs⟩⟩
  all_goals exact completesWith_of rfl fun x u => rfl

/-- Settles O13: none of them waits or traps, and each body answers the state that the clause names. -/
theorem vectorBits : Obligations.VectorBits := by
  intro c t d a o s
  refine ⟨?vand, ?vor, ?vxor, ?vnot, ?vshl, ?vshr, ?vsra, ?vclz, ?vpopc⟩
  all_goals exact completesWith_of rfl fun x u => rfl

/-- Settles O14: none of them waits or traps, and each body answers the state that the clause names. -/
theorem vectorMoves : Obligations.VectorMoves := by
  intro c sgn pos wid lt cond d a b cc o w s
  refine ⟨?vbfx, ?vbfi, ?vmov, ?vbcast, ?vbcastImm, ?vlid, ?vsel, ?vmask, ?vcmp⟩
  all_goals exact completesWith_of rfl fun x u => rfl

/-- Settles O15: each body answers the state that the clause names, and an instruction whose elements are plain charges nothing. -/
theorem floatArithmetic : Obligations.FloatArithmetic := by
  refine ⟨fun c t d a b cc o s => ⟨?fadd, ?fsub, ?fmul, ?ffma, ?fdiv, ?frcp, ?frsq, ?fsqrt, ?fexp2, ?flog2, ?ffrac, ?ffloor,
    ?fscale⟩, fun c t d a o s => ⟨?fmin, ?fmax, ?fabs, ?fneg, ?fclass, floatEffect_plain t d⟩⟩
  all_goals exact completesWith_of rfl fun x u => rfl

/-- Settles O16: none of them waits or traps, and each body answers the state that the clause names. -/
theorem conversions : Obligations.Conversions := by
  intro c dt st d a b part sat delta s
  refine ⟨?cvt, ?cvti, ?cvtf, ?cvtbx⟩
  all_goals exact completesWith_of rfl fun x u => rfl

/-- Settles O17: only GSHF asks for its width, of which the greatest takes a second pass; every other body answers the state that the
clause names. -/
theorem crossLane : Obligations.CrossLane := by
  refine ⟨fun c seg k width delta d a o s => ⟨?shfi, ?shfu, ?shfd, ?shfx, ?gshf, ?gshfWide⟩,
    fun c k ex t op d a s => ⟨?vote, ?vreda, ?vscan⟩⟩
  case gshf => exact completesWhen_of rfl fun x _ _ h => congrArg Except.ok (if_neg h)
  case gshfWide => exact completesWhen_of rfl fun x _ _ _ => rfl
  all_goals exact completesWith_of rfl fun x u => rfl

end Sys2Proof.Claims
end

section
/-! SUPPORT. Addresses of slices, of lanes and through layout words that pass their checks (08 R142, 19 R309, R310). -/

namespace Sys2Proof.Machine

open Sys2Proof

section
variable {x : Ctx} {a b : Reg} {off : Off} {w : Nat}

theorem checkAddrs_map_ok {ks : List Nat} {f : Nat → Int}
    (h : ∀ k ∈ ks, f k % (w : Int) = 0 ∧ 0 ≤ f k ∧ f k + w ≤ x.p.hdr.size) : x.checkAddrs (ks.map f) w = .ok () :=
  checkAddrs_ok (List.forall_mem_map.mpr fun k hk => alignCheck_of_aligned (h k hk).1)
    (List.forall_mem_map.mpr fun k hk => rangeCheck_of_inside (h k hk).2)

theorem sliceAddrs_ok (h : ∀ k ∈ x.slices, x.sliceAddr a off k % (w : Int) = 0 ∧ 0 ≤ x.sliceAddr a off k ∧
    x.sliceAddr a off k + w ≤ x.p.hdr.size) :
    x.sliceAddrs a off w = .ok (x.slices.map fun k => (x.sliceAddr a off k).toNat) := by
  refine (answer_bind_ok (checkAddrs_map_ok h) _).trans ?_
  rw [List.map_map]
  rfl

theorem laneAddrs_ok (h : x.lanesFit a off) : x.laneAddrs a off = .ok (x.lanes.map fun l => (x.laneAddr a off l).toNat) := by
  refine (answer_bind_ok (checkAddrs_map_ok h) _).trans ?_
  rw [List.map_map]
  rfl

/-- A list of natural numbers read as integers. -/
theorem coe_list (xs : List Nat) : (do let a ← xs; pure (a : Int) : List Int) = xs.map Int.ofNat := by
  rw [List.map_eq_flatMap]
  rfl

theorem tensorAddrs_of_fit {t : Ty} (h : x.tensorFits t a b) : x.tensorAddrs t a b = .ok (x.lanes.map (x.tensorAddr a b)) := by
  obtain ⟨hn64, hi64, hplain, hlanes⟩ := h
  have htype : x.typeCheck t = .ok () := typeCheck_ok fun n hn => by rw [hplain] at hn; cases hn
  have hlay : (x.lanes.forM fun l => x.layoutAlpha (x.layout a (sliceOf l))) = .ok () := forM_ok fun l hl => by
    obtain ⟨-, -, hlay, -⟩ := hlanes l hl
    simp only [Ctx.layoutAlpha, hlay]
  have hnamed : (x.lanes.all fun l => !(x.layout a (sliceOf l)).bad &&
      Ty.ofCode (x.layout a (sliceOf l)).etype == some t && !(t == .n64 || t == .i64 || (alphaIdx t).isSome)) = true :=
    List.all_eq_true.mpr fun l hl => by
      obtain ⟨hgood, hety, -⟩ := hlanes l hl
      simp [hgood, hety, hn64, hi64, hplain]
  have haddr : x.checkAddrs (x.lanes.map fun l => (x.tensorAddr a b l : Int)) (elemBytes x.p.alph t) = .ok () :=
    checkAddrs_map_ok fun l hl => by
      obtain ⟨-, -, -, halign, hrange⟩ := hlanes l hl
      exact ⟨by exact_mod_cast halign, by omega, by exact_mod_cast hrange⟩
  refine (answer_bind_ok htype _).trans <| (answer_bind_ok hlay _).trans <| (answer_bind_ok (if_pos hnamed) _).trans ?_
  split
  · refine answer_bind_ok (Eq.trans ?_ haddr) _
    rw [List.map_id', coe_list, List.map_map]
    rfl
  · rfl

end

end Sys2Proof.Machine
end

section
/-! CLAIM. Loads, stores and atomics on scratchpad, of slices, of lanes and through layout words (O20, O21, O22). -/

namespace Sys2Proof.Claims

open Sys2Proof Sys2Proof.Machine

/-- Settles O20: the addresses of the slices pass their checks; a store apart from the notify word publishes nothing. -/
theorem scalarMemory : Obligations.ScalarMemory := by
  refine ⟨fun c t d a off s => ?sld, fun c t wide add d a b off s => ⟨?sst, ?slda, fun x rs u => stored_apart⟩⟩
  case sld => exact completesWhen_of rfl fun x _ _ h => answer_bind_ok (sliceAddrs_ok h) _
  case sst =>
    refine storesTo_of rfl fun x _ _ h => (answer_bind_ok (sliceAddrs_ok h) _).trans ?_
    rw [List.map_map]
    rfl
  case slda =>
    refine storesTo_of rfl fun x _ _ h => (answer_bind_ok (sliceAddrs_ok h) _).trans ?_
    rw [List.map_map]
    rfl

/-- Settles O21: the type and the addresses of the lanes, or of the slices that have one, pass their checks. -/
theorem vectorMemory : Obligations.VectorMemory := by
  refine ⟨fun c t d a off s => ⟨?ld, ?ldb⟩, fun c t ret lt op d a b off s => ⟨?st, ?ats⟩⟩
  case ld =>
    exact completesWhen_of rfl fun x _ _ ⟨hknown, h⟩ =>
      (answer_bind_ok (typeCheck_ok hknown) _).trans (answer_bind_ok (laneAddrs_ok h) _)
  case ldb =>
    exact completesWhen_of rfl fun x _ _ ⟨hknown, h⟩ =>
      (answer_bind_ok (typeCheck_ok hknown) _).trans (answer_bind_ok (checkAddrs_map_ok h) _)
  case st =>
    refine storesTo_of rfl fun x _ _ ⟨hknown, h⟩ =>
      (answer_bind_ok (typeCheck_ok hknown) _).trans <| (answer_bind_ok (laneAddrs_ok h) _).trans ?_
    rw [List.map_map]
    rfl
  case ats =>
    refine storesTo_of rfl fun x _ _ h => (answer_bind_ok (laneAddrs_ok h) _).trans ?_
    rw [List.map_map]
    rfl

/-- Settles O22: the layout words and the addresses pass their checks, and an index picks a half of a byte exactly where two elements
share one. -/
theorem tensorAccess : Obligations.TensorAccess := by
  intro c t d a b cc s
  refine ⟨?ldt, ?stt⟩
  case ldt =>
    refine completesWhen_of rfl fun x _ _ h => (answer_bind_ok (tensorAddrs_of_fit h) _).trans ?_
    cases hhalf : halfByte t <;> simp [Ctx.nibble, hhalf]
  case stt =>
    refine storesTo_of rfl fun x _ _ h => (answer_bind_ok (tensorAddrs_of_fit h) _).trans ?_
    cases hhalf : halfByte t <;> simp [Ctx.nibble, hhalf, Function.comp_def]

end Sys2Proof.Claims
end

section
/-! CLAIM SUPPORT. A DOTA whose words hold valid containers only (19 R307). -/

namespace Sys2Proof.Machine

open Sys2Proof

theorem ofNat_wrapTo_32 (n : Int) : BitVec.ofNat 32 (wrapTo 32 n) = BitVec.ofInt 32 n := by
  have h : 0 ≤ n % ((2 ^ 32 : Nat) : Int) := Int.emod_nonneg _ (by decide)
  apply BitVec.eq_of_toNat_eq
  rw [wrapTo, BitVec.toNat_ofNat, BitVec.toNat_ofInt]
  omega

theorem mapIdx_map {α β γ : Type} (xs : List α) (f : Nat → α → β) (g : β → γ) :
    (xs.mapIdx f).map g = xs.mapIdx fun k a => g (f k a) := by
  simp [List.mapIdx_eq_zipIdx_map, Function.comp_def]

/-- With no invalid container in either word a DOTA passes its checks and counts nothing in its alphabet registers. -/
theorem dotaBody_of_valid {x : Ctx} {an am : BitVec 4} {a b : Reg} {nmax : BitVec 8} {k : Nat}
    (hp : (x.alpha an.toNat).defd = true) (hq : (x.alpha am.toNat).defd = true)
    (hn : nmax.toNat ≤ min (x.alpha an.toNat).perWord (x.alpha am.toNat).perWord)
    (ha : x.badWords (x.alpha an.toNat) a k = []) (hb : x.badWords (x.alpha am.toNat) b k = []) (u : State) (f : State → State) :
    (do x.alphaCheck an.toNat
        x.alphaCheck am.toNat
        check (decide (nmax.toNat ≤ min (x.alpha an.toNat).perWord (x.alpha am.toNat).perWord)) cIllegal 0
        let bad := x.badWords (x.alpha am.toNat) b k
        let t1 := if an = am then u else x.countInvalid am.toNat bad.length u
        let mine := x.badWords (x.alpha an.toNat) a k
        let w ← x.invalid an.toNat (if an = am then distinct (mine ++ bad) else mine).length t1
        if bad ≠ [] ∧ (x.alpha am.toNat).trap then
          .error (.trapIn w (mkTrap cInvalidCode (BitVec.ofNat 64 am.toNat)))
        .ok (f w) : Body) = .ok (f u) := by
  rw [ha, hb]
  refine (answer_bind_ok (alphaCheck_of_defined hp) _).trans <| (answer_bind_ok (alphaCheck_of_defined hq) _).trans <|
    (check_bind_of_true (decide_eq_true hn) _ _ _).trans ?_
  have hu : (if an = am then u else x.countInvalid am.toNat ([] : List (Nat × Nat)).length u) = u := by split <;> rfl
  have hn : (if an = am then distinct (([] : List (Nat × Nat)) ++ []) else []).length = 0 := by split <;> rfl
  dsimp only
  rw [hu, hn]
  rfl

end Sys2Proof.Machine

namespace Sys2Proof.Claims

open Sys2Proof Sys2Proof.Machine

/-- Settles O28: with valid containers only nothing is counted, and the sum of integers wraps as the sum modulo 2^32; a symbol
count beyond either word's traps. -/
theorem symbolDot : Obligations.SymbolDot := by
  intro c acc an am d a b nmax s
  refine ⟨?ints, ?floats, ?long⟩
  case ints =>
    refine completesWhen_of rfl fun x _ _ ⟨hp, hq, hn, hint, ha, hb⟩ => (dotaBody_of_valid hp hq hn ha hb _ _).trans ?_
    dsimp only
    rw [hint]
    simp only [Bool.false_eq_true, if_false, plainElem]
    rw [tally_zero ?_, count_zero]
    swap
    · exact fun _ _ => rfl
    refine congrArg (fun f => Except.ok (x.setV d f (x.begin s))) (funext fun l => ?_)
    rw [mapIdx_map]
    refine (ofNat_wrapTo_32 _).trans ?_
    cases acc <;> rfl
  case floats =>
    refine completesWhen_of rfl fun x _ _ ⟨hp, hq, hn, hfloat, ha, hb⟩ => (dotaBody_of_valid hp hq hn ha hb _ _).trans ?_
    dsimp only
    rw [hfloat]
    simp only [if_true, mapIdx_map]
  case long =>
    exact trapsWhen_of rfl fun x _ _ ⟨hp, hq, hlong⟩ => (answer_bind_ok (alphaCheck_of_defined hp) _).trans <|
      (answer_bind_ok (alphaCheck_of_defined hq) _).trans (check_bind_of_false (decide_eq_false (Nat.not_le_of_lt hlong)) _ _ _)

end Sys2Proof.Claims
end

section
/-! CLAIM SUPPORT. An instruction completes in one way, and the command that it issues last. -/

namespace Sys2Proof.Machine

open Sys2Proof

/-- An instruction completes in one way: what its body answers is what it answers. -/
theorem quiet_issued_of_completes {x : Ctx} {i : Instr} {body : Ctx → State → Body} {s u v : State} (hx : ctxOf i s = some x)
    (hr : x.ready i) (he : exec i s = runInstr i body s) (hb : body x (x.begin s) = .ok v) (hc : x.completes i s u) :
    (x.issued u).quiet = (x.issued v).quiet := by
  obtain ⟨t, ht, hq⟩ := hc
  obtain ⟨t', ht', hq'⟩ := runInstr_completes hx hr hb
  obtain rfl : t = t' := Host.Outcome.next.inj (ht.symm.trans (he.trans ht'))
  exact hq.symm.trans hq'

theorem quiet_issued_cmds (x : Ctx) (u : State) : (x.issued u).quiet.cmds = u.cmds := rfl

/-- The kind of the command that was issued last. -/
def lastKind (cs : List Cmd) : Option CmdKind := cs.getLast?.map (·.kind)

theorem lastKind_issue {i : Instr} {s : State} {x : Ctx} (hx : ctxOf i s = some x) (cls : Cls) (k : CmdKind) :
    lastKind (x.issue cls k (x.begin s)).cmds = some k := by
  obtain ⟨f, hp⟩ := begin_panel hx
  obtain ⟨f', hg⟩ := begin_gang hx
  simp [Ctx.issue, issueCmd, hp, hg, lastKind, mkCmd]

/-- What MXIL sends once its checks have passed: the scale state of B as it stands, whatever its format. -/
theorem mxilBody_of_fit {x : Ctx} {t : Ty} {a : Reg} {krows : BitVec 10} (ht : alphaIdx t = none)
    (hlay : layAlpha (layOf (x.layWords a)) = none) (hbad : (layOf (x.layWords a)).bad = false)
    (hty : Ty.ofCode (layOf (x.layWords a)).etype = some t)
    (hk : krows.toNat ≤ passK (formatIndex t) 0)
    (hfit : x.rangesFit (tileAddrs (layOf (x.layWords a)) x.p.alph (if krows = 0 then passK (formatIndex t) 0 else krows.toNat) ++
      scaleAddrs (usedScale (formatIndex t) x.g.mxB) (passK (formatIndex t) 0)
        (if krows = 0 then passK (formatIndex t) 0 else krows.toNat) (List.range 128))) (u : State) :
    (do x.typeAlpha t
        x.layoutAlpha (layOf (x.layWords a))
        check (decide (krows.toNat ≤ passK (formatIndex t) (x.typeAlphabet t))) cIllegal 0
        check (!(layOf (x.layWords a)).bad && Ty.ofCode (layOf (x.layWords a)).etype == some t) cLayout 0
        let n := if krows = 0 then passK (formatIndex t) (x.typeAlphabet t) else krows.toNat
        x.checkRanges (tileAddrs (layOf (x.layWords a)) x.p.alph n ++
          scaleAddrs (usedScale (formatIndex t) x.g.mxB) (passK (formatIndex t) (x.typeAlphabet t)) n (List.range 128))
        .ok (x.issue .matrix (.mxil (formatIndex t) (x.layWords a) x.g.mxB (x.typeAlphabet t) n) u) : Body) =
      .ok (x.issue .matrix (.mxil (formatIndex t) (x.layWords a) x.g.mxB 0
        (if krows = 0 then passK (formatIndex t) 0 else krows.toNat)) u) := by
  have halpha : x.typeAlphabet t = 0 := by simp [Ctx.typeAlphabet, ht]
  have htype : x.typeAlpha t = .ok () :=
    (answer_bind_ok (typeCheck_ok fun n hn => by simp [ht] at hn) _).trans (if_pos (by simp [ht]))
  have hlayout : x.layoutAlpha (layOf (x.layWords a)) = .ok () := by rw [Ctx.layoutAlpha, hlay]
  have hranges := checkRanges_ok hfit
  rw [halpha]
  refine (answer_bind_ok htype _).trans <| (answer_bind_ok hlayout _).trans <|
    (check_bind_of_true (decide_eq_true hk) _ _ _).trans <| (check_bind_of_true (by simp [hbad, hty]) _ _ _).trans <|
    answer_bind_ok ((answer_bind_ok hranges.1 _).trans hranges.2) _

end Sys2Proof.Machine

namespace Sys2Proof.Claims

open Sys2Proof Sys2Proof.Machine Sys2Proof.Tests

/-- F8E4 elements at address 0, and a scale state of B that this format does not use. -/
def unusedScale : State := worldG fun g => { bytesLayout g with mxB := .qa 32 0 }

theorem unusedScale_meets : meets (.mxil c1 .f8e4 12 1) unusedScale (fun x =>
    layAlpha (layOf (x.layWords 12)) = none ∧ (layOf (x.layWords 12)).bad = false ∧
      Ty.ofCode (layOf (x.layWords 12)).etype = some .f8e4 ∧ x.g.mxB = .qa 32 0 ∧
      ∀ q ∈ tileAddrs (layOf (x.layWords 12)) x.p.alph 1 ++ scaleAddrs (usedScale 0 x.g.mxB) 128 1 (List.range 128),
        q.1 % q.2 = 0 ∧ q.1 + q.2 ≤ x.p.hdr.size) = true := by decide +kernel

/-- Refutes O29: MXIL sends the scale state of B as it stands, also for a format that does not use it. -/
theorem not_accumulators : ¬ Obligations.Accumulators := by
  intro h
  obtain ⟨x, hx, hr, hlay, hbad, hty, hscale, hfit⟩ := meets_spec unusedScale_meets
  have hrows : (1 : BitVec 10).toNat ≤ passK (formatIndex .f8e4) 0 := by decide
  have hclaim := (h.2 c1 false false .none .f8e4 0 12 0 1 unusedScale).2.2.2 x hx hr
    ⟨fun n hn => absurd (hlay.symm.trans hn) nofun, hbad, hty, hrows, hfit⟩
  have hbody := mxilBody_of_fit (krows := 1) rfl hlay hbad hty hrows hfit (x.begin unusedScale)
  have hquiet := quiet_issued_of_completes hx hr rfl hbody hclaim
  have hlast := congrArg (fun u => lastKind u.cmds) hquiet
  simp only [quiet_issued_cmds, lastKind_issue hx, hscale] at hlast
  obtain ⟨-, -, hsame, -⟩ := CmdKind.mxil.inj (Option.some.inj hlast)
  exact absurd hsame (by decide)

end Sys2Proof.Claims
end

section
/-! CLAIM SUPPORT. An MMA whose operands fit, and its arrival at a rendezvous (20 R319 to R321, 07 R138). -/

namespace Sys2Proof.Machine

open Sys2Proof

section
variable {x : Ctx} {index ta tb : Nat} {lay : Layout} {a b cc : Reg}

theorem matrixAlpha_ok (h : x.formatFits index lay) : x.matrixAlpha index lay = .ok () := by
  unfold Ctx.matrixAlpha
  split
  · next n hn =>
    obtain ⟨hdefd, helig⟩ := h.1 n hn
    refine (answer_bind_ok (alphaCheck_of_defined hdefd) _).trans (if_pos ?_)
    by_cases h10 : index = 10
    · simp [helig h10]
    · simp [h10]
  · rfl

theorem layoutFits_ok (h : x.formatFits index lay) : layoutFits index lay = .ok () := if_pos (by simp [h.2.1, h.2.2])

theorem mem_scaleAddrs_of_used {sc : Scale} {k n : Nat} {is : List Nat} {q : Nat × Nat}
    (h : q ∈ scaleAddrs (usedScale index sc) k n is) : q ∈ scaleAddrs sc k n is := by
  unfold usedScale at h
  split at h
  · exact h
  · simp [scaleAddrs] at h

theorem rowsCheck_ok {first count : Nat} (h : x.rowsFit first count) : x.rowsCheck first count = .ok () :=
  if_pos (decide_eq_true (p := first + count ≤ x.p.hdr.rows) h)

/-- The checks of an MMA whose operands fit pass. -/
theorem mmaCheck_ok {i : Instr} {s : State} (hx : ctxOf i s = some x) (h : x.mmaFits ta tb a b cc) :
    x.mmaCheck ta tb a b cc = .ok () := by
  obtain ⟨hA, hB, hrows, hranges⟩ := h
  have hfit : x.rangesFit (rowAddrs (layOf (x.layWords b)) x.p.alph (x.mmaK ta tb a b cc)
      ((x.arrival ta tb a b cc).rows.map fun r => r.2.1) ++ tileAddrs (layOf (x.layWords cc)) x.p.alph (x.mmaK ta tb a b cc) ++
      scaleAddrs (x.arrival ta tb a b cc).scaleA (x.mmaK ta tb a b cc) (x.mmaK ta tb a b cc)
        ((x.arrival ta tb a b cc).rows.map fun r => r.2.1) ++
      scaleAddrs (usedScale tb (x.arrival ta tb a b cc).scaleB) (x.mmaK ta tb a b cc) (x.mmaK ta tb a b cc)
        (List.range 128)) := fun q hq => hranges q <| by
    rcases List.mem_append.mp hq with hq | hq
    · exact List.mem_append_left _ hq
    · exact List.mem_append_right _ (mem_scaleAddrs_of_used hq)
  unfold Ctx.mmaCheck
  refine (answer_bind_ok (matrixAlpha_ok hA) _).trans <| (answer_bind_ok (matrixAlpha_ok hB) _).trans <|
    (answer_bind_ok (layoutFits_ok hA) _).trans <| (answer_bind_ok (layoutFits_ok hB) _).trans ?_
  dsimp only
  rw [if_pos (ctxOf_knows hx a)]
  exact (answer_bind_ok (checkRanges_ok hfit).1 _).trans <|
    (answer_bind_ok (forM_ok fun r hr => rowsCheck_ok (hrows r hr)) _).trans (checkRanges_ok hfit).2

end

/-- What an arrival comes to: when it is the last the engine accepts and the gangs go on, else it waits. -/
def Ctx.meeting (x : Ctx) (ta tb : BitVec 4) (keepb ck : Bool) (d a b cc : Reg) (u : State) : Body :=
  let lead := listSlot (x.gangList d) 0
  let l := x.latched ta tb keepb ck d a b cc
  if (listGangs (x.gangList d)).all fun g => l.arrivals.any fun y => y.gang == g then
    .ok (x.releaseJoint lead (sendMma u x.pid lead ta.toNat tb.toNat keepb ck (x.layWords cc)
      ((listGangs (x.gangList d)).filterMap fun n => l.arrivals.find? fun y => y.gang == n)))
  else .error (.park (x.updP (fun p => { p with latches := setLatch l p.latches }) u) (.rendezvous lead))

section
variable {x : Ctx} {ta tb : BitVec 4} {keepb ck : Bool} {d a b cc : Reg}

/-- A joint MMA that may arrive passes the checks of its list. -/
theorem listCheck_of_joins (h : x.joins ta tb keepb ck d cc) :
    (x.gangList d % 8 != 1 && x.gangList d % 8 != 7 && x.whole) = true := by
  obtain ⟨hlow, hhigh, hwhole, -⟩ := h
  rw [hwhole, Bool.and_true, Bool.and_eq_true, bne_iff_ne, bne_iff_ne]
  omega

/-- No gang of a valid list is missing from the panel or has exited. -/
theorem noneGone_of_joins (h : x.joins ta tb keepb ck d cc) :
    ((listGangs (x.gangList d)).any fun g => (x.p.gangs[g]?).elim true (gangExited x.p.hdr)) = false := by
  obtain ⟨-, -, -, hlist, hlive, -⟩ := h
  simp only [badList, Bool.or_eq_false_iff, List.any_eq_false, decide_eq_true_eq] at hlist
  obtain ⟨⟨⟨-, hin⟩, -⟩, -⟩ := hlist
  refine List.any_eq_false.mpr fun n hn => ?_
  have hg := List.getElem?_eq_getElem (Nat.lt_of_not_le (hin n hn))
  simp [hg, hlive n hn _ hg]

theorem allArrived_latched (h : x.joins ta tb keepb ck d cc) :
    ((listGangs (x.gangList d)).all fun g => (x.latched ta tb keepb ck d a b cc).arrivals.any fun y => y.gang == g) = true ↔
      allArrived (x.latched ta tb keepb ck d a b cc) := by
  obtain ⟨-, -, -, -, -, hlist, -⟩ := h
  have hsame : (x.latched ta tb keepb ck d a b cc).list = x.gangList d := hlist
  simp [allArrived, hsame]

theorem arrive_of_joins (h : x.joins ta tb keepb ck d cc) (u : State) :
    x.arrive ta.toNat tb.toNat keepb ck (x.gangList d) (x.layWords cc) (x.arrival ta.toNat tb.toNat a b cc) u =
      x.meeting ta tb keepb ck d a b cc u := by
  have hgone := noneGone_of_joins h
  obtain ⟨-, -, -, -, -, hlist, hlay, hsub, hmod⟩ := h
  refine (if_neg ?_).trans rfl
  simp only [Ctx.latchOf] at hlist hlay hsub hmod
  simp [hgone, hlist, hlay, hsub, hmod]

/-- Past the checks of its operands a joint MMA that may arrive does. -/
theorem arrivesBody_of_joins (h : x.joins ta tb keepb ck d cc) (u : State) :
    (if x.gangList d % 8 = 0 then
        .ok (sendMma u x.pid x.gi ta.toNat tb.toNat keepb ck (x.layWords cc) [x.arrival ta.toNat tb.toNat a b cc])
      else do
        check (x.gangList d % 8 != 1 && x.gangList d % 8 != 7 && x.whole) cMmaMismatch
          (BitVec.ofNat 64 (listSlot (x.gangList d) 0))
        if badList (x.gangList d) x.gi x.p.gangs.length then x.mismatch (listSlot (x.gangList d) 0) u
        else x.arrive ta.toNat tb.toNat keepb ck (x.gangList d) (x.layWords cc) (x.arrival ta.toNat tb.toNat a b cc) u : Body) =
      x.meeting ta tb keepb ck d a b cc u := by
  have harrive := arrive_of_joins (a := a) (b := b) h u
  have hcheck := listCheck_of_joins h
  obtain ⟨hlow, -, -, hlist, -⟩ := h
  exact (if_neg (by omega)).trans <| (check_bind_of_true hcheck _ _ _).trans <| (if_neg (by simp [hlist])).trans harrive

end

end Sys2Proof.Machine

namespace Sys2Proof.Claims

open Sys2Proof Sys2Proof.Machine

/-- Settles O30: with operands that fit the checks of the issue pass, and a valid list finds no gang missing. -/
theorem matrixMultiply : Obligations.MatrixMultiply := by
  intro c ta tb keepb ck d a b cc s
  refine ⟨?single, ?last, ?waits, ?mismatch⟩
  case single =>
    exact completesWhen_of rfl fun x hx _ ⟨hfit, hone⟩ => (answer_bind_ok (mmaCheck_ok hx hfit) _).trans (if_pos hone)
  case last =>
    exact completesWhen_of rfl fun x hx _ ⟨hfit, hjoin, hall⟩ => (answer_bind_ok (mmaCheck_ok hx hfit) _).trans <|
      (arrivesBody_of_joins hjoin _).trans (if_pos ((allArrived_latched hjoin).mpr hall))
  case waits =>
    exact waitsWhen_of rfl (fun _ => rfl) fun x hx _ ⟨hfit, hjoin, hall⟩ => (answer_bind_ok (mmaCheck_ok hx hfit) _).trans <|
      (arrivesBody_of_joins hjoin _).trans (if_neg fun h => hall ((allArrived_latched hjoin).mp h))
  case mismatch =>
    refine trapsWhen_of rfl fun x hx _ ⟨hfit, hlist, hbad⟩ => (answer_bind_ok (mmaCheck_ok hx hfit) _).trans <|
      (if_neg hlist).trans (check_bind_of_false ?_ _ _ _)
    rcases hbad with h | h | h
    · simp [Ctx.gangList] at h
      simp [h]
    · simp [Ctx.gangList] at h
      simp [h]
    · simp [h]

end Sys2Proof.Claims
end

section
/-! CLAIM SUPPORT. The checks of CPYQ and CPYPUB on the ring (21 R329). -/

namespace Sys2Proof.Machine

open Sys2Proof

variable {x : Ctx}

theorem ringInBounds_ok (h : x.ringFits) : x.ringInBounds = .ok () :=
  (check_bind_of_true (decide_eq_true h.1) _ _ _).trans (if_pos (decide_eq_true h.2))

theorem ringInBounds_bad (h : x.p.hdr.size < x.p.ring.base.toNat + 32 * x.p.ring.size.toNat) :
    x.ringInBounds = .error (.trap (mkTrap cSpRange x.p.ring.base)) :=
  check_bind_of_false (decide_eq_false (Nat.not_le_of_lt h)) _ _ _

theorem ringRoom_ok (h : x.p.ring.full = false) : x.ringRoom = .ok () := if_neg (by simp [h])

theorem ringRoom_traps (h : x.p.ring.full = true) (hfe : feTraps x.ctl fA = true) :
    x.ringRoom = .error (.trap (mkTrap cRingFull 0)) := (if_pos h).trans (if_pos hfe)

theorem ringRoom_blocks (h : x.p.ring.full = true) (hfe : feTraps x.ctl fA = false) : x.ringRoom = .error (.block .ring) :=
  (if_pos h).trans (if_neg (by simp [hfe]))

/-- CPYPUB on a ring that fits, with a slot to publish, stores W to the notify word. -/
theorem cpypubBody_of_fit (h : x.ringFits) (hroom : x.p.ring.w = x.p.ring.pub → x.p.ring.full = false) (u : State) :
    (do x.ringInBounds
        if x.p.ring.w = x.p.ring.pub then x.ringRoom
        let w := if x.p.ring.w = x.p.ring.pub then (x.p.ring.w + 1) % 2 ^ 32 else x.p.ring.w
        x.stored [(x.p.ring.notify.toNat, 8)]
          (x.setWix w (updSp u x.pid fun m => m.writeNat x.p.ring.notify.toNat 8 w)) : Body) =
      x.stored [(x.p.ring.notify.toNat, 8)]
        (x.setWix (if x.p.ring.w = x.p.ring.pub then (x.p.ring.w + 1) % 2 ^ 32 else x.p.ring.w) (updSp u x.pid fun m =>
          m.writeNat x.p.ring.notify.toNat 8
            (if x.p.ring.w = x.p.ring.pub then (x.p.ring.w + 1) % 2 ^ 32 else x.p.ring.w))) := by
  refine (answer_bind_ok (ringInBounds_ok h) _).trans ?_
  by_cases hw : x.p.ring.w = x.p.ring.pub
  · exact (if_pos hw).trans (answer_bind_ok (ringRoom_ok (hroom hw)) _)
  · exact if_neg hw

end Sys2Proof.Machine

namespace Sys2Proof.Claims

open Sys2Proof Sys2Proof.Machine

/-- Settles O31: on a ring that fits, CPYQ and CPYPUB end in a store once the ring has room. -/
theorem copyRing : Obligations.CopyRing := by
  intro c a va len s
  refine ⟨?queue, ?publish, ?measure, ?full, ?blocks, ?range⟩
  case queue =>
    exact storesTo_of rfl fun x _ _ ⟨hfit, hfull⟩ => (answer_bind_ok (ringInBounds_ok hfit) _).trans
      (answer_bind_ok (ringRoom_ok hfull) _)
  case publish => exact storesTo_of rfl fun x _ _ ⟨hfit, hroom⟩ => cpypubBody_of_fit hfit hroom _
  case measure => exact measuresWhen_of rfl fun x _ _ ⟨hfit, hroom, h⟩ => (cpypubBody_of_fit hfit hroom _).trans h
  case full =>
    exact trapsWhen_of rfl fun x _ _ ⟨hfit, hfull, hfe⟩ => (answer_bind_ok (ringInBounds_ok hfit) _).trans
      (answer_bind_error (ringRoom_traps hfull hfe) _)
  case blocks =>
    exact blocksWhen_of rfl fun x _ _ ⟨hfit, hfull, hfe⟩ => (answer_bind_ok (ringInBounds_ok hfit) _).trans
      (answer_bind_error (ringRoom_blocks hfull hfe) _)
  case range => exact trapsWhen_of rfl fun x _ _ h => answer_bind_error (ringInBounds_bad h) _

end Sys2Proof.Claims
end

section
/-! CLAIM SUPPORT. The addresses of the register forms of GATH and SCAT (21 R338, R339). -/

namespace Sys2Proof.Machine

open Sys2Proof

section
variable {x : Ctx} {f : Nat → Nat} {w : Nat}

theorem lanesAligned_ok (h : ∀ l ∈ x.lanes, f l % w = 0) : (x.lanes.forM fun l => alignCheck (f l) w) = .ok () :=
  forM_ok fun l hl => alignCheck_ok (h l hl)

theorem lanesAligned_error {bad : Nat} (h : x.lanes.find? (fun l => f l % w != 0) = some bad) :
    (x.lanes.forM fun l => alignCheck (f l) w) = .error (.trap (mkTrap cAlign (BitVec.ofNat 64 (f bad)))) :=
  forM_error_of_find? h (fun l hl => alignCheck_ok (by simpa using hl)) (alignCheck_bad (by simpa using List.find?_some h))

end

end Sys2Proof.Machine

namespace Sys2Proof.Claims

open Sys2Proof Sys2Proof.Machine

/-- Settles O34: the addresses of the register forms and the rows of the row forms pass their checks, and the hold area has
room. -/
theorem gatherScatter : Obligations.GatherScatter := by
  intro c t d a b ⟨scale, row, rl⟩ bad s
  refine ⟨?gath, ?misaligned, ?gathRows, ?scat, ?scatRows⟩
  case gath =>
    refine completesWhen_of rfl fun x hx _ ⟨hrow, halign⟩ => ?_
    obtain rfl : row = false := hrow
    refine (if_pos (ctxOf_knows hx d)).trans <| (answer_bind_ok (lanesAligned_ok halign) _).trans ?_
    dsimp only
    split <;> rfl
  case misaligned =>
    refine trapsWhen_of rfl fun x hx _ ⟨hrow, hbad⟩ => ?_
    obtain rfl : row = false := hrow
    exact (if_pos (ctxOf_knows hx d)).trans (answer_bind_error (lanesAligned_error hbad) _)
  case gathRows =>
    refine completesWhen_of rfl fun x hx _ ⟨hrow, hrows⟩ => ?_
    obtain rfl : row = true := hrow
    exact answer_bind_ok (rowCheck_ok hrows) _
  case scat =>
    refine completesWhen_of rfl fun x hx _ ⟨hrow, halign, hhold⟩ => ?_
    obtain rfl : row = false := hrow
    refine (if_pos (ctxOf_knows hx b)).trans <| (answer_bind_ok (lanesAligned_ok halign) _).trans ?_
    simp only [ctxOf_knows hx, if_true]
    exact answer_bind_ok (hold_ok hx hhold) _
  case scatRows =>
    refine completesWhen_of rfl fun x hx _ ⟨hrow, hrows, hhold⟩ => ?_
    obtain rfl : row = true := hrow
    refine (answer_bind_ok (rowCheck_ok hrows) _).trans ?_
    dsimp only
    rw [if_pos (ctxOf_knows hx b), begin_sp hx]
    exact answer_bind_ok (hold_ok hx hhold) _

end Sys2Proof.Claims
end

section
/-! CLAIM SUPPORT. The checks and waits of the sleeve instructions (22 R349 to R353). -/

namespace Sys2Proof.Machine

open Sys2Proof

section
variable {x : Ctx} {n : BitVec 4} {b : Block} {c : Bool}

theorem sleeveReady_error (h : ¬ x.sleeveOn n) : x.sleeveReady n = .error (.trap (mkTrap cSleeve (n.setWidth 64))) :=
  if_neg fun hc => h (by simpa [Ctx.sleeveOn] using hc)

theorem sleeveWait_ok (hc : c = true) (hturn : x.turn b) : x.sleeveWait c b = .ok () :=
  if_pos (by simpa [hc, Ctx.turn] using hturn)

theorem sleeveWait_blocks (h : ¬ (c = true ∧ x.turn b)) : x.sleeveWait c b = .error (.block b) :=
  if_neg (by simpa [Ctx.turn] using h)

end

theorem sleeve_full_iff (v : Sleeve) : v.full = true ↔ v.t ≠ v.h := bne_iff_ne

end Sys2Proof.Machine

namespace Sys2Proof.Claims

open Sys2Proof Sys2Proof.Machine

/-- Settles O38: SLVINIT finds its slots in scratchpad and its sleeve idle; the others find a sleeve that is set up, and act
in their turn or wait. -/
theorem sleeves : Obligations.Sleeves := by
  intro c n d a s
  refine ⟨?init, ?push, ?pushWaits, ?pop, ?popWaits, ?try_, ?grant, ?grantTraps, fun _ _ => rfl⟩
  case init =>
    refine completesWhen_of rfl fun x _ _ ⟨halign, hrange, hsleeve, hlow, hidle, hpush, hpop⟩ =>
      (answer_bind_ok (alignCheck_ok halign) _).trans <| (answer_bind_ok (rangeCheck_ok hrange) _).trans <|
      (check_bind_of_true ?_ _ _ _).trans (check_bind_of_true ?_ _ _ _)
    · rw [decide_eq_true hsleeve, Nat.div_eq_of_lt hlow]
      rfl
    · simp [hidle, hpush, hpop]
  case push =>
    exact storesTo_of rfl fun x _ _ ⟨hon, hmsb, hroom, hturn⟩ => (answer_bind_ok (sleeveReady_ok hon) _).trans <|
      (check_bind_of_true (by simp [hmsb]) _ _ _).trans (answer_bind_ok (sleeveWait_ok (decide_eq_true hroom) hturn) _)
  case pushWaits =>
    exact blocksWhen_of rfl fun x _ _ ⟨hon, hmsb, hwait⟩ => (answer_bind_ok (sleeveReady_ok hon) _).trans <|
      (check_bind_of_true (by simp [hmsb]) _ _ _).trans
        (answer_bind_error (sleeveWait_blocks fun h => hwait ⟨of_decide_eq_true h.1, h.2⟩) _)
  case pop =>
    exact completesWhen_of rfl fun x _ _ ⟨hon, hfull, hturn⟩ => (answer_bind_ok (sleeveReady_ok hon) _).trans
      (answer_bind_ok (sleeveWait_ok ((sleeve_full_iff _).mpr hfull) hturn) _)
  case popWaits =>
    exact blocksWhen_of rfl fun x _ _ ⟨hon, hwait⟩ => (answer_bind_ok (sleeveReady_ok hon) _).trans
      (answer_bind_error (sleeveWait_blocks fun h => hwait ⟨(sleeve_full_iff _).mp h.1, h.2⟩) _)
  case try_ =>
    refine completesWhen_of rfl fun x _ _ hon => (answer_bind_ok (sleeveReady_ok hon) _).trans ?_
    by_cases hempty : (x.sleeve n.toNat).t = (x.sleeve n.toNat).h
    · rw [if_pos hempty, if_neg fun h => (sleeve_full_iff _).mp h hempty]
    · rw [if_neg hempty, if_pos ((sleeve_full_iff _).mpr hempty)]
  case grant =>
    exact completesWhen_of rfl fun x _ _ ⟨hon, hmore⟩ => (answer_bind_ok (sleeveReady_ok hon) _).trans
      (check_bind_of_true (bne_iff_ne.mpr hmore) _ _ _)
  case grantTraps =>
    refine trapsWhen_of rfl fun x _ _ h => ?_
    by_cases hon : x.sleeveOn n
    · have hnone := h.resolve_left (not_not_intro hon)
      exact (answer_bind_ok (sleeveReady_ok hon) _).trans (check_bind_of_false (by simp [hnone]) _ _ _)
    · exact answer_bind_error (sleeveReady_error hon) _

end Sys2Proof.Claims
end

section
/-! CLAIM SUPPORT. The forms in which a spill slot holds a register, and what is read back from them (08 Table 8-3). -/

namespace Sys2Proof.Machine

open Sys2Proof

/-! ## Slices of written bytes -/

theorem bytesNat_natBytes (n x : Nat) : bytesNat (natBytes n x) = x % 256 ^ n := by
  induction n generalizing x with
  | zero => simp [natBytes, bytesNat, Nat.mod_one]
  | succ n ih =>
    rw [natBytes, bytesNat, ih, BitVec.toNat_ofNat, Nat.pow_succ' (m := 256), Nat.mod_mul]

/-- A read inside a write gives the bytes that stand there. -/
theorem readNat_write_slice {m : Memory} (hm : Memory.wf m = true) {p j n : Nat} {bs : List Byte} (h : j + n ≤ bs.length) :
    (m.write p bs).readNat (p + j) n = bytesNat ((bs.drop j).take n) := by
  induction n generalizing j with
  | zero => rfl
  | succ n ih =>
    have hj : j < bs.length := by omega
    rw [Memory.readNat, Nat.add_assoc p j 1, ih (by omega), List.drop_eq_getElem_cons hj, List.take_succ_cons, bytesNat,
      get_write_inside hm (by omega) (by omega)]
    simp

theorem flatMap_slice {α β : Type} {f : α → List β} {k : Nat} (hk : ∀ a, (f a).length = k) :
    ∀ {xs : List α} {l : Nat} (h : l < xs.length), ((xs.flatMap f).drop (k * l)).take k = f xs[l]
  | x :: xs, 0, _ => by simp [hk]
  | x :: xs, l + 1, h => by
    have hdrop : k * (l + 1) = (f x).length + k * l := by rw [hk, Nat.mul_succ, Nat.add_comm]
    rw [List.flatMap_cons, hdrop, List.drop_append, List.drop_eq_nil_of_le (Nat.le_add_right _ _), Nat.add_sub_cancel_left,
      List.nil_append]
    exact flatMap_slice hk (Nat.lt_of_succ_lt_succ h)

theorem length_flatMap_natBytes (n k : Nat) (g : Nat → Nat) :
    ((List.range n).flatMap fun l => natBytes k (g l)).length = n * k := by simp [List.length_flatMap]

/-- Element `l` of `n` little-endian numbers of `k` bytes each. -/
theorem readNat_write_element {m : Memory} (hm : Memory.wf m = true) (p k : Nat) (g : Nat → Nat) {n l : Nat} (hl : l < n) :
    (m.write p ((List.range n).flatMap fun l => natBytes k (g l))).readNat (p + k * l) k = g l % 256 ^ k := by
  have hin : k * l + k ≤ ((List.range n).flatMap fun l => natBytes k (g l)).length := by
    rw [length_flatMap_natBytes, ← Nat.mul_succ, Nat.mul_comm]
    exact Nat.mul_le_mul_right k hl
  rw [readNat_write_slice hm hin, flatMap_slice (fun l => length_natBytes k (g l)) (List.length_range.symm ▸ hl),
    List.getElem_range, bytesNat_natBytes]

/-! ## The forms -/

section
variable {m : Memory} {p l : Nat} {v : Nat → Word}

theorem ofNat_word (x : Word) : BitVec.ofNat 32 (x.toNat % 256 ^ 4) = x := by
  apply BitVec.eq_of_toNat_eq
  have hx := x.isLt
  rw [BitVec.toNat_ofNat]
  omega

theorem spillLane_same (hm : Memory.wf m = true) (x : Word) : spillLane (m.write p (natBytes 4 x.toNat)) p 1 l = x :=
  (congrArg (BitVec.ofNat 32) (readNat_writeNat hm p 4 x.toNat)).trans (ofNat_word x)

theorem spillLane_stride (hm : Memory.wf m = true) (x y : Word) :
    spillLane (m.write p (natBytes 4 x.toNat ++ natBytes 4 y.toNat)) p 2 l = x + BitVec.ofNat 32 l * y := by
  have hfirst := readNat_write_slice hm (p := p) (j := 0) (n := 4) (bs := natBytes 4 x.toNat ++ natBytes 4 y.toNat) (by simp)
  have hsecond := readNat_write_slice hm (p := p) (j := 4) (n := 4) (bs := natBytes 4 x.toNat ++ natBytes 4 y.toNat) (by simp)
  rw [Nat.add_zero, List.drop_zero, List.take_left' (length_natBytes 4 _), bytesNat_natBytes] at hfirst
  rw [List.drop_left' (length_natBytes 4 _), List.take_of_length_le (length_natBytes 4 _).le, bytesNat_natBytes] at hsecond
  show BitVec.ofNat 32 (Memory.readNat _ p 4) + _ * BitVec.ofNat 32 (Memory.readNat _ (p + 4) 4) = _
  rw [hsecond, ofNat_word, hfirst, ofNat_word]

theorem spillLane_bytes (hm : Memory.wf m = true) (hl : l < 32) :
    spillLane (m.write p ((List.range 32).map fun l => (v l).setWidth 8)) p 3 l = ((v l).setWidth 8).signExtend 32 := by
  refine congrArg (BitVec.signExtend 32) ((get_write_inside hm (Nat.le_add_right p l) (by simpa using hl)).trans ?_)
  simp

theorem spillLane_halves (hm : Memory.wf m = true) (hl : l < 32) :
    spillLane (m.write p ((List.range 32).flatMap fun l => natBytes 2 ((v l).toNat % 2 ^ 16))) p 4 l =
      ((v l).setWidth 16).signExtend 32 := by
  refine congrArg (fun n => (BitVec.ofNat 16 n).signExtend 32) (readNat_write_element hm p 2 (fun l => (v l).toNat % 2 ^ 16) hl)
    |>.trans (congrArg (BitVec.signExtend 32) ?_)
  apply BitVec.eq_of_toNat_eq
  simp

theorem spillLane_words (hm : Memory.wf m = true) (hl : l < 32) :
    spillLane (m.write p ((List.range 32).flatMap fun l => natBytes 4 (v l).toNat)) p 0 l = v l :=
  (congrArg (BitVec.ofNat 32) (readNat_write_element hm p 4 (fun l => (v l).toNat) hl)).trans (ofNat_word _)

theorem spillForm_length (v : Nat → Word) : (spillForm v).2.length = formBytes (spillForm v).1 := by
  unfold spillForm
  dsimp only
  split
  · rfl
  split
  · rfl
  split
  · exact (List.length_map _).trans List.length_range
  split
  · exact length_flatMap_natBytes 32 2 _
  · exact length_flatMap_natBytes 32 4 _

/-- Each form gives the lanes back by its tag. -/
theorem spillLane_spillForm (hm : Memory.wf m = true) (hl : l < 32) :
    spillLane (m.write p (spillForm v).2) p (spillForm v).1 l = v l := by
  have hmem : l ∈ List.range 32 := List.mem_range.mpr hl
  unfold spillForm
  dsimp only
  split
  · next h => exact (spillLane_same hm _).trans (beq_iff_eq.mp (List.all_eq_true.mp h l hmem)).symm
  split
  · next h => exact (spillLane_stride hm _ _).trans (beq_iff_eq.mp (List.all_eq_true.mp h l hmem)).symm
  split
  · next h => exact (spillLane_bytes hm hl).trans (beq_iff_eq.mp (List.all_eq_true.mp h l hmem)).symm
  split
  · next h => exact (spillLane_halves hm hl).trans (beq_iff_eq.mp (List.all_eq_true.mp h l hmem)).symm
  · exact spillLane_words hm hl

end

end Sys2Proof.Machine

namespace Sys2Proof.Claims

open Sys2Proof Sys2Proof.Machine

/-- Settles O41: each form of the lanes is read back by its tag, and is as long as its tag says. -/
theorem spillThenFill : Obligations.SpillThenFill :=
  fun v _ _ _ hm hl => ⟨spillLane_spillForm hm hl, spillForm_length v⟩

end Sys2Proof.Claims
end

section
/-! CLAIM SUPPORT. The slots of SPILL and FILL, and working sets (22 R358 to R360). -/

namespace Sys2Proof.Machine

open Sys2Proof

section
variable {x : Ctx} {slot : BitVec 9}

theorem spillAddr_ok (h : slot.toNat < x.p.hdr.spillSlots) :
    x.spillAddr slot = .ok (x.p.hdr.spillbase + 128 * slot.toNat) := check_bind_of_true (decide_eq_true h) _ _ _

theorem bankCost_nil (u : State) : x.bankCost [] u = u := by
  have hnone : x.conflicts [] = 0 := by simp [Ctx.conflicts, Hdr.extraCycles, distinct]
  simp [Ctx.bankCost, hnone]

theorem stored_nil (u : State) : x.stored [] u = .ok u := by simp [Ctx.stored]

theorem updSp_write_nil (u : State) (pid p : Nat) : (updSp u pid fun m => m.write p []) = u := updPanel_id u pid

end

theorem spillForm_tag (v : Nat → Word) : (spillForm v).1.toNat < 5 := by
  unfold spillForm
  dsimp only
  split
  · exact Nat.le_of_ble_eq_true rfl
  split
  · exact Nat.le_of_ble_eq_true rfl
  split
  · exact Nat.le_of_ble_eq_true rfl
  split <;> exact Nat.le_of_ble_eq_true rfl

theorem formBytes_ne_zero {tag : BitVec 3} (h : tag.toNat < 5) : formBytes tag ≠ 0 := by
  revert tag
  decide

theorem spillForm_nonempty (v : Nat → Word) : (spillForm v).2.isEmpty = false := by
  rw [← Bool.not_eq_true, List.isEmpty_iff_length_eq_zero, spillForm_length]
  exact formBytes_ne_zero (spillForm_tag v)

/-- A FILL that is ready has no reserved tag. -/
theorem fillTag_of_ready {x : Ctx} {c : Ctl} {d : Reg} {slot : BitVec 9} (h : x.ready (.fill c d slot)) :
    (x.vr d.toNat).tag.toNat < 6 := Nat.lt_of_not_le (of_decide_eq_false (illegalNow_of_ready h))

/-- RGN sets the working set when the registers that it names exist. -/
theorem regions_wset {x : Ctx} {base : Nat} {mask : Word} (h : ∀ r ∈ setRegs (pairSet base mask), r < x.p.hdr.vregs) (u : State) :
    ∃ v, x.regions base mask u = .ok v ∧
      (getGang v x.pid x.gi).map (·.wset) = (getGang u x.pid x.gi).map fun _ => pairSet base mask := by
  have hnone : ((setRegs (pairSet base mask)).find? fun r => decide (x.p.hdr.vregs ≤ r)) = none :=
    List.find?_eq_none.mpr fun r hr => by simpa using h r hr
  unfold Ctx.regions
  simp only [hnone]
  refine ⟨_, rfl, ?_⟩
  rw [Ctx.updG, getGang_updGang, Option.map_map]
  rfl

end Sys2Proof.Machine

namespace Sys2Proof.Claims

open Sys2Proof Sys2Proof.Machine

/-- Settles O40: SPILL and FILL find their slot, and every form but that of POISON has bytes. -/
theorem registerStates : Obligations.RegisterStates := by
  intro c st d a mask slot s
  refine ⟨completesWith_of rfl fun _ _ => rfl, completesWith_of rfl fun _ _ => rfl, completesTo_of rfl fun _ _ _ _ => rfl,
    completesTo_of rfl fun _ _ _ _ => rfl, fun x base u h => regions_wset h u, ?spill, ?spillPoison, ?fill, ?fillPoison,
    completesWith_of rfl fun _ _ => rfl⟩
  case spill =>
    refine storesTo_of rfl fun x _ _ ⟨hslot, hst⟩ => (answer_bind_ok (spillAddr_ok hslot) _).trans ?_
    dsimp only
    rw [if_neg hst, spillForm_nonempty]
    rfl
  case spillPoison =>
    refine completesWhen_of rfl fun x _ _ ⟨hslot, hst⟩ => (answer_bind_ok (spillAddr_ok hslot) _).trans ?_
    dsimp only
    rw [if_pos hst]
    dsimp only
    rw [List.isEmpty_nil, if_pos rfl, if_pos rfl, stored_nil, bankCost_nil, updSp_write_nil]
  case fill =>
    refine completesWhen_of rfl fun x hx hr ⟨hslot, htag⟩ => (answer_bind_ok (spillAddr_ok hslot) _).trans ?_
    have hbytes : formBytes (x.vr d.toNat).tag ≠ 0 := by
      have hready := fillTag_of_ready hr
      exact formBytes_ne_zero (by bv_omega)
    dsimp only
    rw [if_neg hbytes, begin_sp hx]
    simp only [if_neg htag]
  case fillPoison =>
    refine completesWhen_of rfl fun x _ _ ⟨hslot, htag⟩ => (answer_bind_ok (spillAddr_ok hslot) _).trans ?_
    dsimp only
    rw [htag, show formBytes 5 = 0 from rfl, if_pos rfl, bankCost_nil]
    simp only [if_true]

end Sys2Proof.Claims
end

section
/-! SUPPORT. Frames: what an instruction leaves outside its gang, and its panel and gang up to the bookkeeping of issue. The
effects of instructions are changes of the issuing panel and gang, so that what lies outside is the same once for all. -/

namespace Sys2Proof.Machine

open Sys2Proof

/-! ## What lies outside the issuing panel and gang -/

/-- A core without the bookkeeping of issue, the second pass of a GSHF included. -/
def CoreSt.kept (c : CoreSt) : CoreSt := { c.quiet with pass2 := 0 }

/-- The state outside a panel, without its commands and the bookkeeping of issue. -/
def State.outside (s : State) (pid : Nat) : State :=
  { s.quiet with
    panels := s.quiet.panels.filter fun p => p.pid != pid
    cores := s.cores.map CoreSt.kept
    cmds := []
    nextId := 0 }

/-- A panel without its gangs, its performance counters and the note that it has begun. -/
def Panel.rest (p : Panel) : Panel := { p with gangs := [], begun := false, perf := Vector.replicate 6 0 }

/-- A gang without its split table and the bookkeeping of issue. -/
def Gang.rest (g : Gang) : Gang := { g.quiet with split := [] }

/-- State `u` differs from `s` in the issuing panel and gang only, which have become `p` and `g`. -/
def Ctx.leaves (x : Ctx) (s u : State) (p : Panel) (g : Gang) : Prop :=
  u.outside x.pid = s.outside x.pid ∧
    (∀ h, h ≠ x.gi → (getGang u x.pid h).map Gang.quiet = (getGang s x.pid h).map Gang.quiet) ∧
    (getPanel u x.pid).map Panel.rest = some p.rest ∧ (getGang u x.pid x.gi).map Gang.rest = some g.rest

theorem outside_of_quiet {s t : State} (h : t.quiet = s.quiet) (pid : Nat) : t.outside pid = s.outside pid := by
  have hcores (u : State) : u.cores.map CoreSt.kept = u.quiet.cores.map CoreSt.kept := by
    rw [State.quiet, Vector.map_map]
    rfl
  rw [State.outside, State.outside, hcores t, hcores s, h]

theorem outside_updPanel (s : State) {pid : Nat} {f : Panel → Panel} (hf : ∀ p, (f p).pid = p.pid) :
    (updPanel s pid f).outside pid = s.outside pid := by
  have hpanels : ((s.panels.map fun p => if p.pid == pid then f p else p).map Panel.quiet).filter (fun p => p.pid != pid) =
      (s.panels.map Panel.quiet).filter fun p => p.pid != pid := by
    induction s.panels with
    | nil => rfl
    | cons p ps ih =>
      by_cases hp : p.pid = pid
      · simpa [hp, hf] using ih
      · simpa [hp, List.filter_cons] using ih
  simp only [State.outside, State.quiet, updPanel, hpanels]

theorem coreAt_kept (s : State) (n : Nat) : vget (s.cores.map CoreSt.kept) n core0.kept = (coreAt s n).kept := by
  unfold coreAt vget
  split
  · exact Vector.getElem_map _ _
  · rfl

theorem getPanel_outside (s : State) {pid q : Nat} (h : q ≠ pid) :
    (s.outside pid).panels.find? (fun p => p.pid == q) = (getPanel s q).map Panel.quiet := by
  rw [← getPanel_quiet, getPanel, State.outside, List.find?_filter]
  congr 1
  funext p
  by_cases hp : p.pid = q
  · simp [hp, h]
  · simp [hp]

/-- What lies outside is all that an instruction keeps there. -/
theorem keeps_of_outside {pid gi : Nat} {s t : State} (h : t.outside pid = s.outside pid)
    (hg : ∀ k, k ≠ gi → (getGang t pid k).map Gang.quiet = (getGang s pid k).map Gang.quiet) : s.keeps pid gi t := by
  have hcore (n : Nat) : (coreAt t n).kept = (coreAt s n).kept := by
    rw [← coreAt_kept, ← coreAt_kept]
    exact congrArg (fun u : State => vget u.cores n core0.kept) h
  have same {α : Type} (f : State → α) : f (t.outside pid) = f (s.outside pid) := congrArg f h
  have sameCore {α : Type} (n : Nat) (f : CoreSt → α) : f (coreAt t n).kept = f (coreAt s n).kept := congrArg f (hcore n)
  refine ⟨fun a => same fun u => u.hbm.get a, fun a => same fun u => u.hostMem.get a, same State.marks, same State.gus,
    same State.mgmt, same State.links, same State.sems, same State.queues, same State.parts, same State.asidBase,
    same State.xfaults, same State.clusters, same State.iodTlb,
    fun n => ⟨sameCore n CoreSt.tile, sameCore n CoreSt.tileOwner, sameCore n CoreSt.latch, sameCore n CoreSt.rbuf,
      sameCore n CoreSt.seen, sameCore n CoreSt.lining⟩,
    same State.launches, same State.inval, same State.sensors, same State.flash, same State.fqBase, same State.fqWritten,
    same State.fqSize, same State.fqProd, same State.fqCons, same State.nextTag, same State.irqs, same State.reply,
    same State.now, same State.fs, fun q hq => ?_, hg⟩
  rw [← getPanel_outside t hq, ← getPanel_outside s hq, h]

/-! ## How effects change what is left -/

section
variable {x : Ctx} {s u : State} {p : Panel} {g : Gang}

/-- A change of the issuing panel that leaves the other gangs. -/
theorem leaves_updPanel {f : Panel → Panel} {p' : Panel} {g' : Gang} (h : x.leaves s u p g) (hpid : ∀ a, (f a).pid = a.pid)
    (hothers : ∀ a k, k ≠ x.gi → (f a).gangs[k]? = a.gangs[k]?) (hrest : ∀ a, a.rest = p.rest → (f a).rest = p'.rest)
    (hgang : ∀ a : Panel, (a.gangs[x.gi]?).map Gang.rest = some g.rest → ((f a).gangs[x.gi]?).map Gang.rest = some g'.rest) :
    x.leaves s (updPanel u x.pid f) p' g' := by
  obtain ⟨hout, hgangs, hp, hg⟩ := h
  obtain ⟨a, ha, hap⟩ := Option.map_eq_some_iff.mp hp
  have hget (k : Nat) : getGang (updPanel u x.pid f) x.pid k = (f a).gangs[k]? := by
    rw [getGang, getPanel_updPanel_same _ _ _ hpid, ha]
    rfl
  have hold (k : Nat) : getGang u x.pid k = a.gangs[k]? := by
    rw [getGang, ha]
    rfl
  refine ⟨(outside_updPanel u hpid).trans hout, fun k hk => ?_, ?_, ?_⟩
  · rw [hget, hothers a k hk, ← hold, hgangs k hk]
  · rw [getPanel_updPanel_same _ _ _ hpid, ha]
    exact congrArg some (hrest a hap)
  · rw [hget]
    exact hgang a (hold x.gi ▸ hg)

theorem leaves_updP {f : Panel → Panel} (h : x.leaves s u p g) (hpid : ∀ a, (f a).pid = a.pid)
    (hgangs : ∀ a, (f a).gangs = a.gangs) (hrest : ∀ a, (f a).rest = (f a.rest).rest) :
    x.leaves s (updPanel u x.pid f) (f p) g :=
  leaves_updPanel h hpid (fun a k _ => by rw [hgangs]) (fun a ha => by rw [hrest a, ha, ← hrest p])
    fun a ha => by rwa [hgangs]

theorem leaves_updG {f : Gang → Gang} (h : x.leaves s u p g) (hrest : ∀ a, (f a).rest = (f a.rest).rest) :
    x.leaves s (updGang u x.pid x.gi f) p (f g) := by
  refine leaves_updPanel h (fun _ => rfl) (fun a k hk => ?_) (fun a ha => ha) fun a ha => ?_
  · simp [getElem?_modifyAt, hk.symm]
  · obtain ⟨b, hb, hbg⟩ := Option.map_eq_some_iff.mp ha
    simp [getElem?_modifyAt, hb, hrest b, hrest g, hbg]

/-- A change of the split table is none that a frame speaks of. -/
theorem leaves_same {f : Gang → Gang} (h : x.leaves s u p g) (hrest : ∀ a, (f a).rest = a.rest) :
    x.leaves s (updGang u x.pid x.gi f) p g := by
  have hset := leaves_updG (f := f) h fun a => (hrest a).trans (hrest a.rest).symm
  obtain ⟨hout, hothers, hp, hg⟩ := hset
  exact ⟨hout, hothers, hp, hrest g ▸ hg⟩

theorem leaves_perfAdd (h : x.leaves s u p g) (ev n : Nat) : x.leaves s (perfAdd u x.pid ev n) p g :=
  leaves_updPanel h (fun _ => rfl) (fun _ _ _ => rfl) (fun _ ha => ha) fun _ ha => ha

theorem leaves_bankCost (h : x.leaves s u p g) (as : List Nat) : x.leaves s (x.bankCost as u) p g := by
  unfold Ctx.bankCost
  dsimp only
  split
  · exact h
  · exact leaves_same (leaves_perfAdd h _ _) fun _ => rfl

theorem leaves_begin {i : Instr} (hx : ctxOf i s = some x) : x.leaves s (x.begin s) x.p x.g := by
  obtain ⟨-, hp, hg, -⟩ := ctxOf_spec hx
  exact leaves_same ⟨rfl, fun _ _ => rfl, by rw [hp]; rfl, by rw [hg]; rfl⟩ fun _ => rfl

theorem rest_settleEntries (hdr : Hdr) (a : Gang) : (settleEntries hdr a).rest = a.rest := by
  simp only [settleEntries, Gang.rest, Gang.quiet]

theorem leaves_settle (h : x.leaves s u p g) : x.leaves s (x.settle u) p g := by
  unfold Ctx.settle Ctx.updP
  refine leaves_updPanel h (fun _ => rfl) (fun a k hk => ?_) (fun _ ha => ha) fun a ha => ?_
  · simp [getElem?_modifyAt, hk.symm]
  · obtain ⟨b, hb, hbg⟩ := Option.map_eq_some_iff.mp ha
    simp only [getElem?_modifyAt, hb, if_true, Option.map_some, rest_settleEntries, hbg]

/-- What an instruction answers leaves what its effect leaves. -/
theorem leaves_of_quiet {t : State} (hq : t.quiet = (x.issued u).quiet) (h : x.leaves s u p g) : x.leaves s t p g := by
  have hissued : x.leaves s (x.issued u) p g := leaves_settle (leaves_perfAdd (leaves_perfAdd h _ _) _ _)
  obtain ⟨hout, hothers, hp, hg⟩ := hissued
  have hrest : (getPanel t x.pid).map Panel.rest = (getPanel (x.issued u) x.pid).map Panel.rest := by
    have hpanel := congrArg (fun v => (getPanel v x.pid).map Panel.rest) hq
    simp only [getPanel_quiet, Option.map_map] at hpanel
    exact hpanel
  have hquiet (k : Nat) : (getGang t x.pid k).map Gang.quiet = (getGang (x.issued u) x.pid k).map Gang.quiet := by
    rw [← getGang_quiet, ← getGang_quiet, hq]
  refine ⟨(outside_of_quiet hq _).trans hout, fun k hk => (hquiet k).trans (hothers k hk), hrest.trans hp, ?_⟩
  have hgang := congrArg (Option.map Gang.rest) (hquiet x.gi)
  simp only [Option.map_map] at hgang
  exact hgang.trans hg

end

/-! ## Frames -/

theorem keeps_of_rest {p q : Panel} {g h : Gang} {vs ss : List Nat} (hq : q.rest = p.rest) (hh : h.rest = g.rest) {a : Panel} {b : Gang}
    (hp : a.keeps p) (hg : b.keeps vs ss g) : a.keeps q ∧ b.keeps vs ss h :=
  ⟨show a.keeps q.rest from hq ▸ hp, show b.keeps vs ss h.rest from hh ▸ hg⟩

/-- A frame from what an instruction leaves. -/
theorem keeps_of_leaves {x : Ctx} {s t : State} {p : Panel} {g : Gang} {vs ss : List Nat} (h : x.leaves s t p g)
    (hp : x.p.keeps p) (hg : x.g.keeps vs ss g) :
    ∃ q h, x.keeps vs ss s t q h ∧ q.rest = p.rest ∧ h.rest = g.rest := by
  obtain ⟨hout, hothers, hpt, hgt⟩ := h
  obtain ⟨q, hq, hqp⟩ := Option.map_eq_some_iff.mp hpt
  obtain ⟨k, hk, hkg⟩ := Option.map_eq_some_iff.mp hgt
  obtain ⟨hpanel, hgang⟩ := keeps_of_rest hqp hkg hp hg
  exact ⟨q, k, ⟨hq, hk, hgang, hpanel, keeps_of_outside hout hothers⟩, hqp, hkg⟩

theorem Panel.keeps_refl (p : Panel) : p.keeps p :=
  ⟨rfl, rfl, fun _ => rfl, rfl, rfl, rfl, rfl, rfl, rfl, rfl, rfl, rfl, rfl, rfl, rfl, rfl, rfl, rfl, rfl, rfl, rfl, rfl, rfl⟩

theorem Gang.keeps_refl (g : Gang) (vs ss : List Nat) : g.keeps vs ss g :=
  ⟨fun _ _ => rfl, fun _ _ => rfl, rfl, rfl, rfl, rfl, rfl, rfl, rfl, rfl, rfl, rfl, rfl, rfl, rfl, rfl, rfl, rfl, rfl, rfl, rfl,
    rfl, rfl⟩

end Sys2Proof.Machine
end

section
/-! CLAIM SUPPORT. What the instructions with a scalar or a vector destination leave unchanged. -/

namespace Sys2Proof.Machine

open Sys2Proof

/-! ## Writes of a register as changes of the gang -/

/-- The gang with the fragment's copies of a scalar register written; s0 discards the write. -/
def Ctx.copyWrite (x : Ctx) (n : Reg) (f : Nat → DWord) (g : Gang) : Gang :=
  if n = 0 then g
  else { g with s := vset g.s n.toNat (Vector.ofFn fun i : Fin 8 =>
    if x.e.slices.getLsbD i.val then f i.val else vget (vget g.s n.toNat copies0) i.val 0) }

/-- The gang with the active lanes of a vector register written, if there is one. -/
def Ctx.laneWrite (x : Ctx) (r : Reg) (f : Nat → Word) (g : Gang) : Gang :=
  if x.act = 0 then g
  else { g with v := vset g.v r.toNat { vget g.v r.toNat vreg0 with
    lanes := Vector.ofFn fun l : Fin 32 => if x.on l.val then f l.val else vget (vget g.v r.toNat vreg0).lanes l.val 0
    st := .full, by_ := none, marked := false } }

section
variable {x : Ctx} {s u : State} {p : Panel} {g : Gang} {d : Reg}

theorem leaves_setS (h : x.leaves s u p g) (f : Nat → DWord) : x.leaves s (x.setS d f u) p (x.copyWrite d f g) := by
  unfold Ctx.setS Ctx.copyWrite
  split
  · exact h
  · exact leaves_updG h fun _ => rfl

theorem leaves_setV (h : x.leaves s u p g) (f : Nat → Word) : x.leaves s (x.setV d f u) p (x.laneWrite d f g) := by
  unfold Ctx.setV Ctx.laneWrite
  split
  · exact h
  · exact leaves_updG h fun _ => rfl

theorem chargePanel_eq (p : Panel) (tid : BitVec 12) (c : Counts) :
    ∃ es k, chargePanel p tid c = { p with exc := es, catchAll := k } := by
  unfold chargePanel
  split
  · exact ⟨_, _, rfl⟩
  split
  · exact ⟨_, _, rfl⟩
  split
  · exact ⟨_, _, rfl⟩
  split <;> exact ⟨_, _, rfl⟩

theorem chargePanel_rest (p : Panel) (tid : BitVec 12) (c : Counts) :
    (chargePanel p tid c).rest = (chargePanel p.rest tid c).rest := by
  simp only [chargePanel, apply_ite Panel.rest]
  rfl

theorem leaves_count (h : x.leaves s u p g) (c : Counts) : x.leaves s (x.count c u) (chargePanel p x.g.tid c) g := by
  refine leaves_updP h (fun a => ?_) (fun a => ?_) fun a => chargePanel_rest a x.g.tid c
  · obtain ⟨es, k, he⟩ := chargePanel_eq a x.g.tid c
    rw [he]
  · obtain ⟨es, k, he⟩ := chargePanel_eq a x.g.tid c
    rw [he]

theorem keeps_copyWrite (g : Gang) (d : Reg) (f : Nat → DWord) : g.keeps [] (destOf d) (x.copyWrite d f g) := by
  unfold Ctx.copyWrite
  split
  · exact g.keeps_refl _ _
  · next hd =>
    obtain ⟨hv, -, hrest⟩ := g.keeps_refl [] (destOf d)
    refine ⟨hv, fun r hr => vget_vset_ne _ _ _ _ _ fun e => hr ?_, hrest⟩
    rw [destOf, if_neg hd]
    exact List.mem_singleton.mpr e.symm

/-- The copies of the slices outside the fragment stay. -/
theorem copyWrite_off (g : Gang) (d : Reg) (f : Nat → DWord) {k : Nat} (hk : k < 8) (hoff : x.e.slices.getLsbD k = false) :
    vget (vget (x.copyWrite d f g).s d.toNat copies0) k 0 = vget (vget g.s d.toNat copies0) k 0 := by
  unfold Ctx.copyWrite
  split
  · rfl
  · by_cases hd : d.toNat < 64
    · rw [vget_vset_same _ _ _ _ hd, vget_ofFn _ hk]
      simp [hoff]
    · simp [vget_vset, hd]

theorem keeps_laneWrite (g : Gang) (d : Reg) (f : Nat → Word) (r : Vector Word 32) :
    g.keeps (if x.act = 0 then [] else [d.toNat]) [] { x.laneWrite d f g with srs := r } := by
  unfold Ctx.laneWrite
  split
  · exact g.keeps_refl _ _
  · obtain ⟨-, hs, hrest⟩ := g.keeps_refl [d.toNat] []
    exact ⟨fun r hr => vget_vset_ne _ _ _ _ _ fun e => hr (by simp [e]), hs, hrest⟩

/-- The lanes that are not active stay. -/
theorem laneWrite_off (g : Gang) (d : Reg) (f : Nat → Word) {l : Nat} (hl : l < 32) (hoff : x.on l = false) :
    vget (vget (x.laneWrite d f g).v d.toNat vreg0).lanes l 0 = vget (vget g.v d.toNat vreg0).lanes l 0 := by
  unfold Ctx.laneWrite
  split
  · rfl
  · by_cases hd : d.toNat < 128
    · rw [vget_vset_same _ _ _ _ hd]
      rw [vget_ofFn _ hl]
      simp [hoff]
    · simp [vget_vset, hd]

end

end Sys2Proof.Machine
end

section
/-! CLAIM. The frames of the instructions with a scalar or a vector destination (O58, O59). -/

namespace Sys2Proof.Machine

open Sys2Proof

/-! ## Instructions that write a scalar register -/

/-- Every instruction with a scalar destination completes with a write of it. -/
theorem scalarDest_completes {i : Instr} {d : Reg} (h : scalarDest i = some d) (s : State) :
    ∃ f : Ctx → Nat → DWord, completesWith i s fun x => x.setS d (f x) := by
  cases i
  case srd c d num =>
    obtain rfl := Option.some.inj h
    obtain ⟨hsrd, -⟩ := Claims.specialRegisters.1 c d num 0 s
    exact ⟨_, hsrd⟩
  case sadd | ssub | smul | smulh | sdiv | srem | sand | sor | sxor | sshl | sshr | ssra | smin | smax | scmp | ssel | smov
      | smovi | sclz | spopc | sbfx | sbfi | clk | perf | vcmp | vote | ftag =>
    obtain rfl := Option.some.inj h
    exact ⟨_, completesWith_of rfl fun _ _ => rfl⟩
  all_goals exact absurd h nofun

/-- What an instruction answers whose effect is known. -/
theorem leaves_of_completes {x : Ctx} {i : Instr} {s t u : State} {p : Panel} {g : Gang} (hc : x.completes i s u)
    (ht : exec i s = .next t) (h : x.leaves s u p g) : x.leaves s t p g ∧ t.cmds = u.cmds ∧ t.nextId = u.nextId := by
  obtain ⟨v, hv, hq⟩ := hc
  obtain rfl : t = v := Host.Outcome.next.inj (ht.symm.trans hv)
  exact ⟨leaves_of_quiet hq h, (congrArg State.cmds hq :), (congrArg State.nextId hq :)⟩

/-- An effect that leaves the bytes of a panel alone, seen in a panel that is the same but for its gangs. -/
theorem keepsBytes_of_rest {a p q : Panel} (h : q.rest = p.rest) (hp : a.keepsBytes p) : a.keepsBytes q :=
  show a.keepsBytes q.rest from h ▸ hp

theorem Panel.keepsBytes_refl (p : Panel) : p.keepsBytes p := ⟨fun _ => rfl, rfl, rfl, rfl⟩

theorem copyWrite_srs (x : Ctx) (d : Reg) (f : Nat → DWord) (g : Gang) :
    (x.copyWrite d f g).srs = g.srs ∧ (x.copyWrite d f g).opens = g.opens := by
  unfold Ctx.copyWrite
  split <;> exact ⟨rfl, rfl⟩

/-! ## Instructions that write a vector register -/

/-- The effect `u` of an instruction writes active lanes of register `d`, charges events if it may, and changes
stochastic-rounding states of active lanes if it may. -/
def Ctx.writesLanes (x : Ctx) (i : Instr) (d : Reg) (s u : State) : Prop :=
  ∃ (n : Counts) (f : Nat → Word) (r : Vector Word 32),
    x.leaves s u (chargePanel x.p x.g.tid n) { x.laneWrite d f x.g with srs := r } ∧ u.cmds = s.cmds ∧ u.nextId = s.nextId ∧
      (chargesEvents i = false → n = Counts.zero) ∧ (drawsRandom i = false → r = x.g.srs) ∧
      ∀ l, l < 32 → x.on l = false → vget r l 0 = vget x.g.srs l 0

section
variable {x : Ctx} {i : Instr} {s u : State} {d : Reg}

theorem laneWrite_srs (x : Ctx) (d : Reg) (f : Nat → Word) (g : Gang) :
    (x.laneWrite d f g).srs = g.srs ∧ (x.laneWrite d f g).opens = g.opens := by
  unfold Ctx.laneWrite
  split <;> exact ⟨rfl, rfl⟩

/-- With no change of the stochastic-rounding states the gang is that of the write. -/
theorem laneWrite_withSrs (x : Ctx) (d : Reg) (f : Nat → Word) (g : Gang) :
    { x.laneWrite d f g with srs := g.srs } = x.laneWrite d f g := by
  unfold Ctx.laneWrite
  split <;> rfl

theorem writesLanes_count (hx : ctxOf i s = some x) (f : Nat → Word) {n : Counts} (hn : chargesEvents i = false → n = Counts.zero) :
    x.writesLanes i d s (x.count n (x.setV d f (x.begin s))) := by
  have hleaves := leaves_count (leaves_setV (d := d) (leaves_begin hx) f) n
  rw [← laneWrite_withSrs] at hleaves
  exact ⟨n, f, x.g.srs, hleaves, setV_cmds x d f (x.begin s), setV_nextId x d f (x.begin s), hn,
    fun _ => rfl, fun _ _ _ => rfl⟩

theorem writesLanes_setV (hx : ctxOf i s = some x) (f : Nat → Word) : x.writesLanes i d s (x.setV d f (x.begin s)) := by
  have hcount := writesLanes_count (d := d) hx f (n := Counts.zero) fun _ => rfl
  rwa [count_zero] at hcount

/-- A conversion that does not narrow leaves the state of each lane. -/
theorem convLane_sr (x : Ctx) (dt st : Ty) (part : BitVec 3) (conv : Nat → Rnd → Nat → Elem) (a : Reg) (l : Nat) :
    (x.convLane false dt st part conv a l).sr = vget x.g.srs l 0 := by
  unfold Ctx.convLane
  generalize convPairs dt.perLane st.perLane part.toNat = ps
  induction ps using List.reverseRecOn with
  | nil => rfl
  | append_singleton ps p ih => rw [List.foldl_append]; exact ih

/-- The gang with the stochastic-rounding states of the active lanes replaced. -/
def Ctx.drawn (x : Ctx) (r : Nat → Word) (g : Gang) : Gang :=
  { g with srs := Vector.ofFn fun l : Fin 32 => if x.on l.val then r l.val else vget g.srs l.val 0 }

theorem drawn_same {r : Nat → Word} {g : Gang} (h : ∀ l, r l = vget g.srs l 0) : (x.drawn r g).srs = g.srs := by
  apply Vector.ext
  intro l hl
  simp [Ctx.drawn, h, vget]

theorem drawn_off (r : Nat → Word) (g : Gang) {l : Nat} (hl : l < 32) (hoff : x.on l = false) :
    vget (x.drawn r g).srs l 0 = vget g.srs l 0 := by
  rw [Ctx.drawn, vget_ofFn _ hl]
  simp [hoff]

/-- A write of the active lanes that draws from their stochastic-rounding states. -/
theorem writesLanes_drawn (hx : ctxOf i s = some x) (hcharges : chargesEvents i = true) (f r : Nat → Word) (n : Counts)
    (hr : drawsRandom i = false → ∀ l, r l = vget x.g.srs l 0) :
    x.writesLanes i d s (x.count n (x.updG (x.drawn r) (x.setV d f (x.begin s)))) := by
  have hsrs := (laneWrite_srs x d f x.g).1
  have hleaves := leaves_count (leaves_updG (f := x.drawn r) (leaves_setV (d := d) (leaves_begin hx) f) fun _ => rfl) n
  refine ⟨n, f, (x.drawn r (x.laneWrite d f x.g)).srs, hleaves, setV_cmds x d f (x.begin s), setV_nextId x d f (x.begin s),
    fun h => absurd (hcharges.symm.trans h) nofun, fun h => ?_, fun l hl hoff => (drawn_off _ _ hl hoff).trans (by rw [hsrs])⟩
  exact (drawn_same fun l => (hr h l).trans (by rw [hsrs])).trans hsrs

theorem writesLanes_convert (hx : ctxOf i s = some x) (hcharges : chargesEvents i = true) {sr : Bool} (hsr : drawsRandom i = sr)
    (dt : Ty) (a : Reg) (st : Ty) (part : BitVec 3) (conv : Ctx → Nat → Rnd → Nat → Elem) :
    x.writesLanes i d s (convertEffect sr dt d a st part conv x (x.begin s)) :=
  writesLanes_drawn hx hcharges (fun l => x.convWord dt d l (x.convLane sr dt st part (conv x) a l))
    (fun l => (x.convLane sr dt st part (conv x) a l).sr) (x.tally fun l => (x.convLane sr dt st part (conv x) a l).c) fun h l => by
    obtain rfl : false = sr := h.symm.trans hsr
    exact convLane_sr x dt st part (conv x) a l

theorem writesLanes_secondPass (h : x.writesLanes i d s u) : x.writesLanes i d s (x.secondPass u) := by
  obtain ⟨n, f, r, hleaves, hcmds, hnext, hrest⟩ := h
  refine ⟨n, f, r, ?_, hcmds, hnext, hrest⟩
  obtain ⟨hout, hothers, hp, hg⟩ := leaves_same (f := fun g => { g with split := g.split.map fun e =>
    { e with nextIssue := max e.nextIssue (x.p.clk + 2) } }) hleaves fun _ => rfl
  refine ⟨Eq.trans ?_ hout, hothers, hp, hg⟩
  have hcores (v : State) (c : Nat) : (updCore v c fun k => { k with pass2 := k.pass2 + 1 }).cores.map CoreSt.kept =
      v.cores.map CoreSt.kept := by
    exact vset_vget_same _ _ core0 _ _ rfl
  simp only [Ctx.secondPass, State.outside, hcores]
  rfl

theorem writes_of_setV {f : Ctx → Nat → Word} (hc : completesWith i s fun x => x.setV d (f x)) (hx : ctxOf i s = some x)
    (hr : x.ready i) : ∃ u, x.completes i s u ∧ x.writesLanes i d s u :=
  ⟨_, hc x hx hr trivial, writesLanes_setV hx (f x)⟩

theorem writes_of_count {f : Ctx → Nat → Word} {n : Ctx → Counts}
    (hc : completesWith i s fun x u => x.count (n x) (x.setV d (f x) u)) (hcharges : chargesEvents i = true)
    (hx : ctxOf i s = some x) (hr : x.ready i) : ∃ u, x.completes i s u ∧ x.writesLanes i d s u :=
  ⟨_, hc x hx hr trivial, writesLanes_count hx (f x) fun h => absurd (hcharges.symm.trans h) nofun⟩

theorem writes_of_convert {sr : Bool} {dt : Ty} {a : Reg} {st : Ty} {part : BitVec 3}
    {conv : Ctx → Nat → Rnd → Nat → Elem} (hc : completesWith i s (convertEffect sr dt d a st part conv))
    (hcharges : chargesEvents i = true) (hsr : drawsRandom i = sr) (hx : ctxOf i s = some x) (hr : x.ready i) :
    ∃ u, x.completes i s u ∧ x.writesLanes i d s u :=
  ⟨_, hc x hx hr trivial, writesLanes_convert hx hcharges hsr dt a st part conv⟩

theorem writes_of_plain {t : Ty} {f : Ctx → Fmt → Nat → Nat → Nat}
    (hc : completesWith i s (floatEffect t d fun x m l j => plainElem (f x m l j))) (hx : ctxOf i s = some x) (hr : x.ready i) :
    ∃ u, x.completes i s u ∧ x.writesLanes i d s u :=
  ⟨_, hc x hx hr trivial, floatEffect_plain t d x f _ ▸ writesLanes_setV hx _⟩

/-- Every instruction with a vector destination completes with a write of its active lanes. -/
theorem vectorDest_completes (h : vectorDest i = some d) (hx : ctxOf i s = some x) (hr : x.ready i) :
    ∃ u, x.completes i s u ∧ x.writesLanes i d s u := by
  cases i
  case vadd | vsub | vmul | vmulh | vmad | vand | vor | vxor | vnot | vshl | vshr | vsra | vmin | vmax | vabs | vneg | vclz
      | vpopc | vbfx | vbfi | vaddc | vmov | vbcast | vlid | vsel | vmask | shfi | shfu | shfd | shfx =>
    obtain rfl := Option.some.inj h
    exact writes_of_setV (completesWith_of rfl fun _ _ => rfl) hx hr
  case vadds | vsubs | fadd | fsub | fmul | ffma | fdiv | frcp | frsq | fsqrt | fexp2 | flog2 | ffloor | ffrac | fscale
      | vreda | vscan =>
    obtain rfl := Option.some.inj h
    exact writes_of_count (completesWith_of rfl fun _ _ => rfl) rfl hx hr
  case fmin c t d' a o =>
    obtain rfl := Option.some.inj h
    obtain ⟨hmin, -⟩ := Claims.floatArithmetic.2 c t d' a o s
    exact writes_of_plain hmin hx hr
  case fmax c t d' a o =>
    obtain rfl := Option.some.inj h
    obtain ⟨-, hmax, -⟩ := Claims.floatArithmetic.2 c t d' a o s
    exact writes_of_plain hmax hx hr
  case fabs c t d' a =>
    obtain rfl := Option.some.inj h
    obtain ⟨-, -, habs, -⟩ := Claims.floatArithmetic.2 c t d' a (.imm 0) s
    exact writes_of_plain habs hx hr
  case fneg c t d' a =>
    obtain rfl := Option.some.inj h
    obtain ⟨-, -, -, hneg, -⟩ := Claims.floatArithmetic.2 c t d' a (.imm 0) s
    exact writes_of_plain hneg hx hr
  case fclass c t d' a =>
    obtain rfl := Option.some.inj h
    obtain ⟨-, -, -, -, hclass, -⟩ := Claims.floatArithmetic.2 c t d' a (.imm 0) s
    exact writes_of_plain hclass hx hr
  case cvt | cvti | cvtf | cvtbx =>
    obtain rfl := Option.some.inj h
    exact writes_of_convert (completesWith_of rfl fun _ _ => rfl) rfl rfl hx hr
  case gshf c k width delta d' a =>
    obtain rfl := Option.some.inj h
    obtain ⟨-, -, -, -, hnarrow, hwide⟩ := Claims.crossLane.1 c .w8 k width delta d' a (.imm 0) s
    by_cases hw : width = 3
    · subst hw
      exact ⟨_, hwide x hx hr trivial, writesLanes_secondPass (writesLanes_setV hx _)⟩
    · exact ⟨_, hnarrow x hx hr hw, writesLanes_setV hx _⟩
  all_goals exact absurd h nofun

end

end Sys2Proof.Machine

namespace Sys2Proof.Claims

open Sys2Proof Sys2Proof.Machine

/-- Settles O58: each of these instructions completes with a write of the fragment's copies of its destination. -/
theorem frameScalar : Obligations.FrameScalar := by
  intro i d s t x hd hx hr ht
  obtain ⟨f, hf⟩ := scalarDest_completes hd s
  obtain ⟨hleaves, hcmds, hnext⟩ := leaves_of_completes (hf x hx hr trivial) ht (leaves_setS (leaves_begin hx) (f x))
  obtain ⟨q, h, hkeeps, hq, hh⟩ := keeps_of_leaves hleaves x.p.keeps_refl (keeps_copyWrite x.g d (f x))
  obtain ⟨hsrs, hopens⟩ := copyWrite_srs x d (f x) x.g
  have same {α : Type} (k : Panel → α) : k q.rest = k x.p.rest := congrArg k hq
  have sameGang {α : Type} (k : Gang → α) : k h.rest = k (x.copyWrite d (f x) x.g).rest := congrArg k hh
  refine ⟨q, h, hkeeps, keepsBytes_of_rest hq x.p.keepsBytes_refl, same Panel.exc, same Panel.catchAll,
    (sameGang Gang.srs).trans hsrs, ⟨(sameGang Gang.opens).trans hopens, hcmds.trans (setS_cmds x d (f x) (x.begin s)),
      hnext.trans (setS_nextId x d (f x) (x.begin s))⟩,
    fun k hk hoff => ?_⟩
  exact (sameGang fun g => vget (vget g.s d.toNat copies0) k 0).trans (copyWrite_off x.g d (f x) hk hoff)

/-- Settles O59: each of these instructions completes with a write of the active lanes of its destination. -/
theorem frameVector : Obligations.FrameVector := by
  intro i d s t x hd hx hr ht
  obtain ⟨u, hc, n, f, r, hu, hcmds', hnext', hn, hdraws, hoff⟩ := vectorDest_completes hd hx hr
  obtain ⟨hleaves, hcmds, hnext⟩ := leaves_of_completes hc ht hu
  obtain ⟨es, k, hpanel⟩ := chargePanel_eq x.p x.g.tid n
  obtain ⟨q, h, hkeeps, hq, hh⟩ := keeps_of_leaves hleaves (hpanel ▸ x.p.keeps_refl) (keeps_laneWrite x.g d f r)
  obtain ⟨hsrs, hopens⟩ := laneWrite_srs x d f x.g
  have sameGang {α : Type} (k : Gang → α) : k h.rest = k { x.laneWrite d f x.g with srs := r }.rest := congrArg k hh
  refine ⟨q, h, hkeeps, keepsBytes_of_rest hq (hpanel ▸ x.p.keepsBytes_refl), fun hcharges => ?_,
    fun hdraw => (sameGang Gang.srs).trans (hdraws hdraw),
    ⟨(sameGang Gang.opens).trans hopens, hcmds.trans hcmds', hnext.trans hnext'⟩, fun l hl hl' => ⟨?_, ?_⟩⟩
  · rw [hn hcharges, chargePanel_zero] at hq
    have same {α : Type} (k : Panel → α) : k q.rest = k x.p.rest := congrArg k hq
    exact ⟨same Panel.exc, same Panel.catchAll⟩
  · exact (sameGang fun g => vget g.srs l 0).trans (hoff l hl hl')
  · exact (sameGang fun g => vget (vget g.v d.toNat vreg0).lanes l 0).trans (laneWrite_off x.g d f hl hl')

end Sys2Proof.Claims
end

section
/-! CLAIM SUPPORT. Publishing: each entry adds its command to the open batch of its class, and in a redundant panel takes what it
needs of the hold area (21 R330, 13 R227). -/

namespace Sys2Proof.Machine

open Sys2Proof

/-! ## One command -/

/-- A batch that a command joins keeps its number. -/
theorem openOf_join_bid (g : Gang) (c d : Cls) (n : Nat) :
    (openOf { g with opens := g.opens.map fun a => if a.cls == c then a.join n else a } d).bid = (openOf g d).bid := by
  have hcls : (fun b : Batch => b.cls == d) ∘ (fun a : Batch => if a.cls == c then a.join n else a) = fun b => b.cls == d := by
    funext a
    by_cases ha : a.cls = c <;> simp [ha, Batch.join]
  simp only [openOf, List.find?_map, hcls]
  cases g.opens.find? fun b => b.cls == d with
  | none => rfl
  | some b => by_cases hb : b.cls = c <;> simp [hb, Batch.join]

section
variable {x : Ctx} {u : State} {q : Panel}

theorem issueCmd_none (h : getGang u x.pid x.gi = none) (c : Cls) (k : CmdKind) (f : Cmd → Cmd) :
    issueCmd u x.pid x.gi c k f = u := by
  unfold issueCmd
  rw [h]
  split
  · next heq => cases heq
  · rfl

theorem getPanel_issueCmd (h : getPanel u x.pid = some q) (c : Cls) (k : CmdKind) (f : Cmd → Cmd) :
    ∃ gs, getPanel (issueCmd u x.pid x.gi c k f) x.pid = some { q with gangs := gs } := by
  unfold issueCmd
  rw [h]
  cases getGang u x.pid x.gi with
  | none => exact ⟨q.gangs, h⟩
  | some g => exact ⟨_, (getPanel_updGang u x.pid x.gi _).trans (by rw [h]; rfl)⟩

theorem issueCmd_some {g : Gang} (h : getPanel u x.pid = some q) (hg : getGang u x.pid x.gi = some g) (c : Cls) (k : CmdKind)
    (f : Cmd → Cmd) : ∃ d, (issueCmd u x.pid x.gi c k f).cmds = u.cmds ++ [f d] ∧ d.kind = k ∧ d.cls = c ∧
      d.owner = .gangs x.pid [(x.gi, (openOf g c).bid)] ∧
      getGang (issueCmd u x.pid x.gi c k f) x.pid x.gi =
        some { g with opens := g.opens.map fun a => if a.cls == c then a.join u.nextId else a } := by
  unfold issueCmd
  rw [h, hg]
  exact ⟨_, rfl, rfl, rfl, rfl, (getGang_updGang u x.pid x.gi _).trans (by rw [hg]; rfl)⟩

end

/-! ## The commands of a list of ring indices -/

/-- The entry of a ring index. -/
def Panel.entryAt (q : Panel) (i : Nat) : RingEntry := entryFrom (slotWords q.sp (q.ring.slot i))

/-- The command of the entry of a ring index, in the open batch of its class. -/
def Ctx.isEntry (x : Ctx) (q : Panel) (g : Gang) (i : Nat) (d : Cmd) : Prop :=
  d.kind = .ringEntry i ∧ d.cls = (q.entryAt i).cls ∧ d.owner = .gangs x.pid [(x.gi, (openOf g (q.entryAt i).cls).bid)]

/-- State `t` is `u`, whose panel is `q`, after the entries of some ring indices have entered their batches and taken `held`
entries of the hold area. -/
def Ctx.enters (x : Ctx) (q : Panel) (is : List Nat) (u t : State) (held : Nat) : Prop :=
  (∃ r, getPanel t x.pid = some r ∧ r.ring = q.ring ∧ r.sp = q.sp ∧ r.alph = q.alph ∧ r.hdr = q.hdr ∧
    r.holdFree = q.holdFree - held) ∧
  (getGang u x.pid x.gi = none → t.cmds = u.cmds ∧ getGang t x.pid x.gi = none) ∧
  ∀ g, getGang u x.pid x.gi = some g →
    (∃ ds, t.cmds = u.cmds ++ ds ∧ List.Forall₂ (x.isEntry q g) is ds) ∧
    ∃ h, getGang t x.pid x.gi = some h ∧ ∀ c, (openOf h c).bid = (openOf g c).bid

section
variable {x : Ctx} {u t w : State} {q : Panel}

theorem enters_nil (h : getPanel u x.pid = some q) : x.enters q [] u u 0 :=
  ⟨⟨q, h, rfl, rfl, rfl, rfl, rfl⟩, fun hg => ⟨rfl, hg⟩, fun g hg =>
    ⟨⟨[], (List.append_nil _).symm, .nil⟩, g, hg, fun _ => rfl⟩⟩

theorem isEntry_congr {r : Panel} {g h : Gang} (hring : r.ring = q.ring) (hsp : r.sp = q.sp)
    (hbid : ∀ c, (openOf h c).bid = (openOf g c).bid) : x.isEntry r h = x.isEntry q g := by
  funext i d
  simp only [Ctx.isEntry, Panel.entryAt, hring, hsp, hbid]

theorem enters_cons {i : Nat} {is : List Nat} {a b : Nat} {r : Panel} (hone : x.enters q [i] u w a)
    (hr : getPanel w x.pid = some r) (hrest : x.enters r is w t b) : x.enters q (i :: is) u t (a + b) := by
  obtain ⟨⟨r', hr', hring, hsp, halph, hhdr, hfree⟩, hnone, hsome⟩ := hone
  obtain ⟨⟨z, hz, hring', hsp', halph', hhdr', hfree'⟩, hnone', hsome'⟩ := hrest
  obtain rfl : r = r' := Option.some.inj (hr.symm.trans hr')
  refine ⟨⟨z, hz, hring'.trans hring, hsp'.trans hsp, halph'.trans halph, hhdr'.trans hhdr, ?_⟩, fun hg => ?_, fun g hg => ?_⟩
  · rw [hfree', hfree, Nat.sub_sub]
  · obtain ⟨hcmds, hgw⟩ := hnone hg
    obtain ⟨hcmds', hgt⟩ := hnone' hgw
    exact ⟨hcmds'.trans hcmds, hgt⟩
  · obtain ⟨⟨ds, hcmds, hds⟩, k, hgw, hbid⟩ := hsome g hg
    obtain ⟨⟨es, hcmds', hes⟩, k', hgt, hbid'⟩ := hsome' k hgw
    rw [isEntry_congr hring hsp hbid] at hes
    refine ⟨⟨ds ++ es, by rw [hcmds', hcmds, List.append_assoc], ?_⟩, k', hgt, fun c => (hbid' c).trans (hbid c)⟩
    exact List.rel_append hds hes

/-- The hold area gives an entry what it needs, if that is free. -/
theorem hold_eq (h : getPanel u x.pid = some q) (c : Cls) (n : Nat) :
    x.hold c n u = if x.p.hdr.redundant = true ∧ q.holdFree < n then .error (.trap (mkTrap cHoldFull 0)) else .ok (x.holding c n u) := by
  unfold Ctx.hold Ctx.holding
  rw [h]
  by_cases hred : x.p.hdr.redundant = true
  · by_cases hn : n = 0
    · simp [hn]
    · by_cases hfree : q.holdFree < n
      · simp [hred, hn, hfree, raise]
      · simp [hred, hn, hfree]
  · simp [hred]

theorem getPanel_holding (h : getPanel u x.pid = some q) (c : Cls) {n : Nat} (hn : x.p.hdr.redundant = true ∨ n = 0) :
    ∃ r, getPanel (x.holding c n u) x.pid = some r ∧ r.ring = q.ring ∧ r.sp = q.sp ∧ r.alph = q.alph ∧ r.hdr = q.hdr ∧
      r.holdFree = q.holdFree - n := by
  unfold Ctx.holding
  by_cases hzero : n = 0
  · subst hzero
    exact ⟨q, by simpa using h, rfl, rfl, rfl, rfl, rfl⟩
  · rw [if_pos (by simp [hn.resolve_right hzero, hzero]), Ctx.updP, getPanel_updPanel_same, h]
    · refine ⟨_, rfl, rfl, rfl, rfl, rfl, ?_⟩
      simp [Panel.holdFree, Panel.holdCapacity, Nat.sub_sub]
    · exact fun _ => rfl

theorem holding_cmds (c : Cls) (n : Nat) : (x.holding c n u).cmds = u.cmds := by
  unfold Ctx.holding
  split <;> rfl

theorem getGang_holding (c : Cls) (n : Nat) : getGang (x.holding c n u) x.pid x.gi = getGang u x.pid x.gi := by
  unfold Ctx.holding
  split
  · exact getGang_updPanel _ _ _ _ (fun _ => rfl) fun _ => rfl
  · rfl

/-- One entry enters its batch. -/
theorem enters_one (h : getPanel u x.pid = some q) (i : Nat) {n : Nat} (hn : x.p.hdr.redundant = true ∨ n = 0) {f : Cmd → Cmd}
    (hf : ∀ d, (f d).kind = d.kind ∧ (f d).cls = d.cls ∧ (f d).owner = d.owner) :
    x.enters q [i] u (issueCmd (x.holding (q.entryAt i).cls n u) x.pid x.gi (q.entryAt i).cls (.ringEntry i) f) n := by
  obtain ⟨r, hr, hring, hsp, halph, hhdr, hfree⟩ := getPanel_holding h (q.entryAt i).cls hn
  obtain ⟨gs, hgs⟩ := getPanel_issueCmd hr (q.entryAt i).cls (.ringEntry i) f
  refine ⟨⟨_, hgs, hring, hsp, halph, hhdr, hfree⟩, fun hg => ?_, fun g hg => ?_⟩
  · rw [← getGang_holding (q.entryAt i).cls n] at hg
    rw [issueCmd_none hg]
    exact ⟨holding_cmds _ _, hg⟩
  · rw [← getGang_holding (q.entryAt i).cls n] at hg
    obtain ⟨d, hcmds, hkind, hcls, howner, hgang⟩ := issueCmd_some hr hg (q.entryAt i).cls (.ringEntry i) f
    obtain ⟨hk, hc, ho⟩ := hf d
    rw [holding_cmds] at hcmds
    exact ⟨⟨_, hcmds, .cons ⟨hk.trans hkind, hc.trans hcls, ho.trans howner⟩ .nil⟩, _, hgang, fun c => openOf_join_bid g _ c _⟩

end

/-! ## The entries from an index on -/

/-- `n` ring indices from one on. -/
def ringIndices : Nat → Nat → List Nat
  | 0, _ => []
  | n + 1, i => i :: ringIndices n ((i + 1) % 2 ^ 32)

theorem length_ringIndices (n i : Nat) : (ringIndices n i).length = n := by
  induction n generalizing i with
  | zero => rfl
  | succ n ih => simp [ringIndices, ih]

theorem getElem_ringIndices {n k : Nat} (i : Nat) (h : k < (ringIndices n i).length) :
    (ringIndices n i)[k] = (fun j => (j + 1) % 2 ^ 32)^[k] i := by
  induction n generalizing i k with
  | zero => cases h
  | succ n ih =>
    cases k with
    | zero => rfl
    | succ k => exact ih _ _

theorem ringIndices_eq_map (n i : Nat) : ringIndices n i = (List.range n).map fun k => (fun j => (j + 1) % 2 ^ 32)^[k] i :=
  List.ext_getElem (by simp [length_ringIndices]) fun k h _ => by simp [getElem_ringIndices i h]

theorem measure_cases (x : Ctx) (u : State) (va len : Nat) :
    (∃ v, x.measure u va len = .ok v) ∨ x.measure u va len = .error (.measure va len) := by
  unfold Ctx.measure
  split
  · exact .inl ⟨_, rfl⟩
  · split
    · exact .inl ⟨_, rfl⟩
    · exact .inl ⟨_, rfl⟩
    · exact .inr rfl

section
variable {x : Ctx} {u : State} {q : Panel}

/-- What an entry needs is known, or it is a block out of scratchpad whose descriptor is read first. -/
theorem publishNeed_cases (hn : x.p.hdr.redundant = true) (u : State) (q : Panel) (e : RingEntry) :
    (∃ n, x.publishNeed u q e = .ok n) ∨ e.kind = 7 ∧ x.publishNeed u q e = .error (.measure e.src 64) := by
  unfold Ctx.publishNeed
  rw [if_pos hn]
  by_cases hask : e.kind = 7 ∧ e.src % 64 = 0 ∧ e.refusal q.hdr.size q.alph = none
  · rw [if_pos hask]
    rcases measure_cases x u e.src 64 with ⟨v, hv⟩ | hv
    · exact .inl ⟨_, by rw [hv]; rfl⟩
    · exact .inr ⟨hask.1, by rw [hv]; rfl⟩
  · rw [if_neg hask]
    exact .inl ⟨_, rfl⟩

theorem publishNeed_of_known (hn : x.p.hdr.redundant = true) (u : State) (q : Panel) {e : RingEntry} (he : e.kind ≠ 7) :
    x.publishNeed u q e = .ok (e.holdNeed q.hdr.size q.alph none) := by
  unfold Ctx.publishNeed
  rw [if_pos hn, if_neg fun h => he h.1]
  rfl

theorem publishNeed_plain (hn : x.p.hdr.redundant = false) (u : State) (q : Panel) (e : RingEntry) :
    x.publishNeed u q e = .ok 0 := if_neg (by simp [hn])

/-- The first entry of several, when its need is known. -/
theorem publishEntries_step (h : getPanel u x.pid = some q) {i n : Nat} (hneed : x.publishNeed u q (q.entryAt i) = .ok n)
    (hn : x.p.hdr.redundant = true ∨ n = 0) (k : Nat) :
    (x.p.hdr.redundant = true ∧ q.holdFree < n ∧ x.publishEntries (k + 1) i u = .error (.trap (mkTrap cHoldFull 0))) ∨
      ¬ (x.p.hdr.redundant = true ∧ q.holdFree < n) ∧ ∃ w, x.enters q [i] u w n ∧
        x.publishEntries (k + 1) i u = x.publishEntries k ((i + 1) % 2 ^ 32) w := by
  have hstep : x.publishEntries (k + 1) i u = (do
      let n' ← x.publishNeed u q (q.entryAt i)
      let s1 ← x.hold (q.entryAt i).cls n' u
      x.publishEntries k ((i + 1) % 2 ^ 32) (issueCmd s1 x.pid x.gi (q.entryAt i).cls (.ringEntry i) fun c =>
        { c with slotAddr := q.ring.slot i, entry := some (slotWords q.sp (q.ring.slot i)), holds := n' })) := by
    rw [Ctx.publishEntries, h]
    rfl
  rw [hstep, answer_bind_ok hneed, hold_eq h]
  by_cases hfull : x.p.hdr.redundant = true ∧ q.holdFree < n
  · rw [if_pos hfull]
    exact .inl ⟨hfull.1, hfull.2, rfl⟩
  · rw [if_neg hfull]
    have hone := enters_one h i hn (f := fun c =>
      { c with slotAddr := q.ring.slot i, entry := some (slotWords q.sp (q.ring.slot i)), holds := n }) fun _ => ⟨rfl, rfl, rfl⟩
    exact .inr ⟨hfull, _, hone, rfl⟩

theorem entryAt_congr {r : Panel} (hring : r.ring = q.ring) (hsp : r.sp = q.sp) (i : Nat) : r.entryAt i = q.entryAt i := by
  rw [Panel.entryAt, Panel.entryAt, hring, hsp]

/-- Outside a redundant panel the entries enter, and take nothing of a hold area. -/
theorem publishEntries_plain (hn : x.p.hdr.redundant = false) (k i : Nat) (h : getPanel u x.pid = some q) :
    ∃ t, x.publishEntries k i u = .ok t ∧ x.enters q (ringIndices k i) u t 0 := by
  induction k generalizing i u q with
  | zero => exact ⟨u, rfl, enters_nil h⟩
  | succ k ih =>
    rcases publishEntries_step h (publishNeed_plain hn u q (q.entryAt i)) (.inr rfl) k with ⟨hred, -⟩ | ⟨-, w, hw, hstep⟩
    · rw [hn] at hred
      cases hred
    · obtain ⟨⟨r, hr, -⟩, -⟩ := id hw
      obtain ⟨t, ht, henters⟩ := ih ((i + 1) % 2 ^ 32) hr
      exact ⟨t, hstep.trans ht, enters_cons hw hr henters⟩

/-- In a redundant panel the entries enter, or one of them finds no room, or waits for its descriptor. -/
theorem publishEntries_redundant (hn : x.p.hdr.redundant = true) (k i : Nat) (h : getPanel u x.pid = some q) :
    (∃ t held, x.publishEntries k i u = .ok t ∧ x.enters q (ringIndices k i) u t held) ∨
      x.publishEntries k i u = .error (.trap (mkTrap cHoldFull 0)) ∨
      ∃ j ∈ ringIndices k i, (q.entryAt j).kind = 7 ∧ x.publishEntries k i u = .error (.measure (q.entryAt j).src 64) := by
  induction k generalizing i u q with
  | zero => exact .inl ⟨u, 0, rfl, enters_nil h⟩
  | succ k ih =>
    rcases publishNeed_cases hn u q (q.entryAt i) with ⟨n, hneed⟩ | ⟨hkind, hneed⟩
    · rcases publishEntries_step h hneed (.inl hn) k with ⟨-, -, hfull⟩ | ⟨-, w, hw, hstep⟩
      · exact .inr (.inl hfull)
      · obtain ⟨⟨r, hr, hring, hsp, -⟩, -⟩ := id hw
        rw [hstep]
        rcases ih ((i + 1) % 2 ^ 32) hr with ⟨t, held, ht, henters⟩ | hfull | ⟨j, hj, hkind, hmeasure⟩
        · exact .inl ⟨t, n + held, ht, enters_cons hw hr henters⟩
        · exact .inr (.inl hfull)
        · rw [entryAt_congr hring hsp] at hkind hmeasure
          exact .inr (.inr ⟨j, List.mem_cons_of_mem _ hj, hkind, hmeasure⟩)
    · refine .inr (.inr ⟨i, List.mem_cons_self, hkind, ?_⟩)
      rw [Ctx.publishEntries, h]
      exact answer_bind_error hneed _

/-- What the entries of some ring indices need of the hold area when none of them is a block out of scratchpad. -/
def Panel.needOf (q : Panel) (is : List Nat) : Nat := (is.map fun i => (q.entryAt i).holdNeed q.hdr.size q.alph none).sum

/-- Where no entry is a block out of scratchpad, the needs together decide. -/
theorem publishEntries_known (hn : x.p.hdr.redundant = true) (k i : Nat) (h : getPanel u x.pid = some q)
    (hkind : ∀ j ∈ ringIndices k i, (q.entryAt j).kind ≠ 7) :
    (q.needOf (ringIndices k i) ≤ q.holdFree ∧
        ∃ t, x.publishEntries k i u = .ok t ∧ x.enters q (ringIndices k i) u t (q.needOf (ringIndices k i))) ∨
      q.holdFree < q.needOf (ringIndices k i) ∧ x.publishEntries k i u = .error (.trap (mkTrap cHoldFull 0)) := by
  induction k generalizing i u q with
  | zero => exact .inl ⟨Nat.zero_le _, u, rfl, enters_nil h⟩
  | succ k ih =>
    have hfirst := publishNeed_of_known hn u q (hkind i List.mem_cons_self)
    have hsum : q.needOf (ringIndices (k + 1) i) = (q.entryAt i).holdNeed q.hdr.size q.alph none +
        q.needOf (ringIndices k ((i + 1) % 2 ^ 32)) := by simp [Panel.needOf, ringIndices]
    rcases publishEntries_step h hfirst (.inl hn) k with ⟨-, hfree, hfull⟩ | ⟨hfree, w, hw, hstep⟩
    · exact .inr ⟨by omega, hfull⟩
    · obtain ⟨⟨r, hr, hring, hsp, halph, hhdr, hleft⟩, -⟩ := id hw
      have hneed (is : List Nat) : r.needOf is = q.needOf is := by
        simp only [Panel.needOf, entryAt_congr hring hsp, halph, hhdr]
      have hroom := Nat.le_of_not_lt fun hlt => hfree ⟨hn, hlt⟩
      have hkind' (j : Nat) (hj : j ∈ ringIndices k ((i + 1) % 2 ^ 32)) : (r.entryAt j).kind ≠ 7 := by
        rw [entryAt_congr hring hsp]
        exact hkind j (List.mem_cons_of_mem _ hj)
      rw [hstep]
      rcases ih ((i + 1) % 2 ^ 32) hr hkind' with
        ⟨hle, t, ht, henters⟩ | ⟨hlt, hfull⟩
      · rw [hneed] at hle henters
        rw [hsum]
        exact .inl ⟨by omega, t, ht, enters_cons hw hr henters⟩
      · rw [hneed] at hlt
        exact .inr ⟨by omega, hfull⟩

/-- The panel with another PUB. -/
def Panel.withPub (p : Panel) (v : Nat) : Panel := { p with ring := { p.ring with pub := v } }

theorem needOf_withPub (p : Panel) (v : Nat) (is : List Nat) : (p.withPub v).needOf is = p.needOf is := rfl

end

end Sys2Proof.Machine

namespace Sys2Proof.Claims

open Sys2Proof Sys2Proof.Machine

/-- Settles O32: by induction on the entries, each of which adds one command and takes what it needs of the hold area. -/
theorem publishing : Obligations.Publishing := by
  intro x v p s hp hhdr count index entry need published
  have hu : getPanel (x.updP (fun q => { q with ring := { q.ring with pub := v } }) s) x.pid =
      some (p.withPub v) := by
    rw [Ctx.updP, getPanel_updPanel_same, hp]
    · rfl
    · exact fun _ => rfl
  have hg : getGang (x.updP (fun q => { q with ring := { q.ring with pub := v } }) s) x.pid x.gi = getGang s x.pid x.gi :=
    getGang_updPanel _ _ _ _ (fun _ => rfl) fun _ => rfl
  have hpublish : x.publish v s = if pubAccepts p.ring v then x.publishEntries count p.ring.pub
      (x.updP (fun q => { q with ring := { q.ring with pub := v } }) s) else .ok s := by
    rw [Ctx.publish, hp]
  have hmem {j : Nat} (hj : j ∈ ringIndices count p.ring.pub) : ∃ k, k < count ∧ index k = j := by
    rw [ringIndices_eq_map] at hj
    obtain ⟨k, hk, rfl⟩ := List.mem_map.mp hj
    exact ⟨k, List.mem_range.mp hk, rfl⟩
  have hpublished {t : State} {held : Nat} (h : x.enters (p.withPub v)
      (ringIndices count p.ring.pub) (x.updP (fun q => { q with ring := { q.ring with pub := v } }) s) t held) :
      published t held := by
    obtain ⟨⟨q, hq, hring, hsp, -, -, hfree⟩, hnone, hsome⟩ := h
    rw [hg] at hnone hsome
    refine ⟨⟨q, hq, hring, hsp, hfree⟩, ?_, fun h => (hnone h).1, fun g hgang => ?_⟩
    · cases hgang : getGang s x.pid x.gi with
      | none => exact (hnone hgang).1 ▸ List.prefix_rfl
      | some g =>
        obtain ⟨⟨ds, hcmds, -⟩, -⟩ := hsome g hgang
        exact hcmds ▸ List.prefix_append _ _
    · obtain ⟨⟨ds, hcmds, hds⟩, -⟩ := hsome g hgang
      have hlen : ds.length = count := hds.length_eq ▸ length_ringIndices count p.ring.pub
      refine ⟨by rw [hcmds, List.length_append, hlen]; rfl, fun k hk => ?_⟩
      have hk' : k < ds.length := hlen.symm ▸ hk
      obtain ⟨hkind, hcls, howner⟩ := hds.get (i := k) (by rwa [length_ringIndices]) hk'
      simp only [List.get_eq_getElem, getElem_ringIndices] at hkind hcls howner
      refine ⟨ds[k], ?_, hkind, hcls, howner⟩
      rw [hcmds]
      exact (List.getElem?_append_right (Nat.le_add_right _ _)).trans (by simp [hk'])
  rw [hpublish]
  refine ⟨fun h => if_neg (by simp [h]), fun h => ?_⟩
  rw [if_pos h]
  refine ⟨fun hred => ?_, fun hred => ⟨?_, fun hkind => ?_⟩⟩
  · obtain ⟨t, ht, henters⟩ := publishEntries_plain (hhdr ▸ hred) count p.ring.pub hu
    exact ⟨t, ht, hpublished henters⟩
  · rcases publishEntries_redundant (hhdr ▸ hred) count p.ring.pub hu with ⟨t, held, ht, henters⟩ | hfull | ⟨j, hj, hkind, hm⟩
    · exact .inl ⟨t, held, ht, hpublished henters⟩
    · exact .inr (.inl hfull)
    · obtain ⟨k, hk, rfl⟩ := hmem hj
      exact .inr (.inr ⟨k, hk, hkind, hm⟩)
  · have hneed : (p.withPub v).needOf (ringIndices count p.ring.pub) = need := by
      rw [needOf_withPub, Panel.needOf, ringIndices_eq_map, List.map_map]
      show _ = ((List.range count).map fun k => (entry k).holdNeed p.hdr.size p.alph none).sum
      have hentry (k : Nat) : p.entryAt ((fun j => (j + 1) % 2 ^ 32)^[k] p.ring.pub) = entry k := rfl
      simp only [Function.comp_def, hentry]
    have hknown := publishEntries_known (hhdr ▸ hred) count p.ring.pub hu fun j hj => by
      obtain ⟨k, hk, rfl⟩ := hmem hj
      exact hkind k hk
    rw [hneed] at hknown
    rcases hknown with ⟨hle, t, ht, henters⟩ | ⟨hlt, hfull⟩
    · exact ⟨fun _ => ⟨t, ht, hpublished henters⟩, fun hlt => absurd hle (Nat.not_le_of_lt hlt)⟩
    · exact ⟨fun hle => absurd hle (Nat.not_le_of_lt hlt), fun _ => hfull⟩

end Sys2Proof.Claims
end

section
/-! CLAIM SUPPORT. The bytes that a store leaves, and the definition of an alphabet register that counts (17 R277, 11 R199). -/

namespace Sys2Proof.Machine

open Sys2Proof

/-! ## Bytes outside a write -/

theorem get_put_ne {x y : Nat} (h : y ≠ x) (v : Byte) : ∀ m : Memory, Memory.get (Memory.put m x v) y = Memory.get m y
  | [] => by
    unfold Memory.put
    split
    · rfl
    · simp [Memory.get, h]
  | (a, b) :: m => by
    unfold Memory.put
    split
    · split
      · rfl
      · simp [Memory.get, h]
    · split
      · next hax =>
        subst hax
        split <;> simp [Memory.get, h]
      · simp only [Memory.get, get_put_ne h v m]

theorem get_write_off {y : Nat} : ∀ {bs : List Byte} {a : Nat} {m : Memory}, y < a ∨ a + bs.length ≤ y →
    Memory.get (Memory.write m a bs) y = Memory.get m y
  | [], _, _, _ => rfl
  | b :: bs, a, m, h => by
    rw [List.length_cons] at h
    rw [Memory.write, get_write_off (by omega), get_put_ne (by omega)]

theorem get_writeNat_off {y a n v : Nat} {m : Memory} (h : y < a ∨ a + n ≤ y) :
    Memory.get (m.writeNat a n v) y = Memory.get m y := get_write_off (by rwa [length_natBytes])

/-- What every step of a fold keeps, the fold keeps. -/
theorem foldl_keeps {α β γ : Type} {q : β → γ} {f : β → α → β} {xs : List α} (h : ∀ b, ∀ a ∈ xs, q (f b a) = q b) (b : β) :
    q (xs.foldl f b) = q b := by
  induction xs generalizing b with
  | nil => rfl
  | cons a as ih =>
    rw [List.foldl_cons, ih fun c d hd => h c d (List.mem_cons_of_mem a hd)]
    exact h b a List.mem_cons_self

/-! ## An alphabet register that counts invalid codes -/

theorem raiseInvalid_split (n : Nat) (v : BitVec 256) :
    (raiseInvalid n v).toNat / 2 ^ 160 = v.toNat / 2 ^ 160 ∧ (raiseInvalid n v).toNat % 2 ^ 128 = v.toNat % 2 ^ 128 := by
  have hv := v.isLt
  have hold : bits256 v 159 128 = v.toNat / 2 ^ 128 % 2 ^ 32 := rfl
  have hnew : (raiseInvalid n v).toNat =
      (v.toNat - bits256 v 159 128 * 2 ^ 128 + min (bits256 v 159 128 + n) 0xFFFFFFFF * 2 ^ 128) % 2 ^ 256 :=
    BitVec.toNat_ofNat _ _
  rw [hnew, hold]
  omega

theorem bits256_raiseInvalid_high (n : Nat) (v : BitVec 256) {lo : Nat} (h : 160 ≤ lo) (hi : Nat) :
    bits256 (raiseInvalid n v) hi lo = bits256 v hi lo := by
  have hpow : 2 ^ lo = 2 ^ 160 * 2 ^ (lo - 160) := by rw [← Nat.pow_add, Nat.add_sub_cancel' h]
  simp only [bits256, hpow, ← Nat.div_div_eq_div_mul, (raiseInvalid_split n v).1]

theorem getLsbD_raiseInvalid_high (n : Nat) (v : BitVec 256) {i : Nat} (h : 160 ≤ i) :
    (raiseInvalid n v).getLsbD i = v.getLsbD i := by
  have hsplit (m : Nat) : m.testBit i = (m / 2 ^ 160).testBit (i - 160) := by
    rw [Nat.testBit_div_two_pow, Nat.sub_add_cancel h]
  simp only [← BitVec.testBit_toNat, hsplit, (raiseInvalid_split n v).1]

/-- Counting leaves the definition of a register. -/
theorem alphaOf_raiseInvalid (n : Nat) (v : BitVec 256) : alphaOf (raiseInvalid n v) = alphaOf v := by
  have hlow : bits256 (raiseInvalid n v) 127 0 = bits256 v 127 0 := by
    simp only [bits256, Nat.pow_zero, Nat.div_one]
    exact (raiseInvalid_split n v).2
  have hbit (i : Nat) (h : 160 ≤ i) := getLsbD_raiseInvalid_high n v h
  have hfield (hi lo : Nat) (h : 160 ≤ lo) := bits256_raiseInvalid_high n v h hi
  simp only [alphaOf, hlow, hbit 219 (by decide), hbit 218 (by decide), hbit 217 (by decide), hbit 214 (by decide),
    hfield 216 215 (by decide), hfield 213 212 (by decide), hfield 211 208 (by decide), hfield 207 200 (by decide),
    hfield 199 192 (by decide)]

/-- The alphabet registers after `n` invalid codes of one of them. -/
def countedAlphabets (al : Vector (BitVec 256) 16) (reg n : Nat) : Vector (BitVec 256) 16 :=
  if n = 0 then al else vset al reg (raiseInvalid n (vget al reg 0))

theorem alphaOf_counted (al : Vector (BitVec 256) 16) (reg n k : Nat) :
    alphaOf (vget (countedAlphabets al reg n) k 0) = alphaOf (vget al k 0) := by
  unfold countedAlphabets
  split
  · rfl
  · rw [vget_vset]
    split
    · next h => rw [alphaOf_raiseInvalid, h.1]
    · rfl

theorem counted_ne (al : Vector (BitVec 256) 16) (n : Nat) {reg k : Nat} (h : reg ≠ k) :
    vget (countedAlphabets al reg n) k 0 = vget al k 0 := by
  unfold countedAlphabets
  split
  · rfl
  · exact vget_vset_ne _ _ _ _ _ h

/-! ## Stores as changes of the panel -/

section
variable {x : Ctx} {s u : State} {p : Panel} {g : Gang}

theorem leaves_updSp (h : x.leaves s u p g) (f : Memory → Memory) : x.leaves s (updSp u x.pid f) { p with sp := f p.sp } g :=
  leaves_updP h (fun _ => rfl) (fun _ => rfl) fun _ => rfl

theorem leaves_countInvalid (h : x.leaves s u p g) (reg n : Nat) :
    x.leaves s (x.countInvalid reg n u) { p with alph := countedAlphabets p.alph reg n } g := by
  unfold Ctx.countInvalid countedAlphabets
  split
  · exact h
  · exact leaves_updP (f := fun a => { a with alph := vset a.alph reg (raiseInvalid n (vget a.alph reg 0)) }) h (fun _ => rfl)
      (fun _ => rfl) fun _ => rfl

theorem leaves_issueCmd (h : x.leaves s u p g) (c : Cls) (k : CmdKind) (f : Cmd → Cmd) :
    ∃ os, x.leaves s (issueCmd u x.pid x.gi c k f) p { g with opens := os } ∧ u.cmds <+: (issueCmd u x.pid x.gi c k f).cmds := by
  obtain ⟨-, -, hp, hg⟩ := id h
  obtain ⟨a, ha, -⟩ := Option.map_eq_some_iff.mp hp
  obtain ⟨b, hb, -⟩ := Option.map_eq_some_iff.mp hg
  have hjoin := leaves_updG (f := fun g => { g with opens := g.opens.map fun b => if b.cls == c then b.join u.nextId else b }) h
    fun _ => rfl
  unfold issueCmd
  rw [ha, hb]
  exact ⟨_, hjoin, List.prefix_append _ _⟩

/-- Outside a redundant panel publishing adds commands and moves nothing else but the open batches. -/
theorem leaves_publishEntries (hn : x.p.hdr.redundant = false) {n i : Nat} {t : State} (h : x.leaves s u p g)
    (ht : x.publishEntries n i u = .ok t) : ∃ os, x.leaves s t p { g with opens := os } ∧ u.cmds <+: t.cmds := by
  induction n generalizing i u g with
  | zero =>
    obtain rfl := Except.ok.inj ht
    exact ⟨g.opens, h, List.prefix_rfl⟩
  | succ n ih =>
    obtain ⟨-, -, hp, -⟩ := id h
    obtain ⟨a, ha, -⟩ := Option.map_eq_some_iff.mp hp
    rw [Ctx.publishEntries, ha] at ht
    simp only [Ctx.publishNeed, Ctx.hold, hn, Bool.false_and, Bool.false_eq_true, if_false, Bind.bind, Except.bind] at ht
    obtain ⟨os, hissue, hcmds⟩ := leaves_issueCmd h (entryFrom (slotWords a.sp (a.ring.slot i))).cls (.ringEntry i) fun k =>
      { k with slotAddr := a.ring.slot i, entry := some (slotWords a.sp (a.ring.slot i)), holds := 0 }
    obtain ⟨os', hrest, hcmds'⟩ := ih hissue ht
    exact ⟨os', hrest, hcmds.trans hcmds'⟩

end

end Sys2Proof.Machine
end

section
/-! CLAIM. The frame of the scratchpad stores (O60). -/

namespace Sys2Proof.Machine

open Sys2Proof

/-- Panel `q` is `p` after a store to the byte ranges `rs`, which may count in alphabet register `al` and charge events. -/
def Panel.stores (p q : Panel) (rs : List (Nat × Nat)) (al : Option Nat) (ev : Bool) : Prop :=
  q = { p with sp := q.sp, alph := q.alph, exc := q.exc, catchAll := q.catchAll } ∧
    (∀ a, (∀ r ∈ rs, a < r.1 ∨ r.1 + r.2 ≤ a) → q.sp.get a = p.sp.get a) ∧
    (∀ n, alphaOf (vget q.alph n 0) = alphaOf (vget p.alph n 0) ∧ (al ≠ some n → vget q.alph n 0 = vget p.alph n 0)) ∧
    (ev = false → q.exc = p.exc ∧ q.catchAll = p.catchAll)

/-- Gang `h` is `g` but for the registers that it names and the split table. -/
def Gang.writes (vs ss : List Nat) (g h : Gang) : Prop := g.keeps vs ss h ∧ h.srs = g.srs ∧ h.opens = g.opens

/-- The effect `u` of a store changes its bytes, its destination, and what it counts. -/
def Ctx.storesOnly (x : Ctx) (rs : List (Nat × Nat)) (vs ss : List Nat) (al : Option Nat) (ev : Bool) (s u : State) : Prop :=
  ∃ q h, x.leaves s u q h ∧ x.p.stores q rs al ev ∧ x.g.writes vs ss h ∧ u.cmds = s.cmds ∧ u.nextId = s.nextId

section
variable {x : Ctx} {s u t : State} {p : Panel} {g : Gang}

/-- Outside a redundant panel what a store publishes moves PUB and adds commands to the open batches. -/
theorem leaves_stored (hn : x.p.hdr.redundant = false) {rs : List (Nat × Nat)} (h : x.leaves s u p g)
    (ht : x.stored rs u = .ok t) : ∃ v os, x.leaves s t (p.withPub v) { g with opens := os } ∧ u.cmds <+: t.cmds := by
  have hsame : ∃ v os, x.leaves s u (p.withPub v) { g with opens := os } ∧ u.cmds <+: u.cmds :=
    ⟨p.ring.pub, g.opens, h, List.prefix_rfl⟩
  unfold Ctx.stored at ht
  dsimp only at ht
  split at ht
  · unfold Ctx.publish at ht
    split at ht
    · obtain rfl := Except.ok.inj ht
      exact hsame
    · split at ht
      · have hpub := leaves_updP (f := fun q => q.withPub ((spOf u x.pid).readNat x.p.ring.notify.toNat 4)) h (fun _ => rfl)
          (fun _ => rfl) fun _ => rfl
        obtain ⟨os, hleaves, hcmds⟩ := leaves_publishEntries hn hpub ht
        exact ⟨_, os, hleaves, hcmds⟩
      · obtain rfl := Except.ok.inj ht
        exact hsame
  · obtain rfl := Except.ok.inj ht
    exact hsame

/-- What stands after a store and what it publishes. -/
theorem leaves_published {rs : List (Nat × Nat)} (hroom : x.p.hdr.redundant = false ∨ x.ringApart rs) (h : x.leaves s u p g) :
    ∃ v os, x.leaves s (x.published rs u) (p.withPub v) { g with opens := os } ∧ u.cmds <+: (x.published rs u).cmds ∧
      (x.ringApart rs → v = p.ring.pub ∧ os = g.opens ∧ x.published rs u = u) := by
  by_cases hapart : x.ringApart rs
  · have hsame : x.published rs u = u := by rw [Ctx.published, stored_apart hapart]
    rw [hsame]
    exact ⟨p.ring.pub, g.opens, h, List.prefix_rfl, fun _ => ⟨rfl, rfl, rfl⟩⟩
  · obtain ⟨v, os, hleaves, hcmds⟩ := leaves_stored (hroom.resolve_right hapart) h (stored_published hroom)
    exact ⟨v, os, hleaves, hcmds, fun h => absurd h hapart⟩

end

/-- A store whose effect is such has its frame. -/
theorem framesStore_of {i : Instr} {s : State} {h : Ctx → Prop} {rs : Ctx → List (Nat × Nat)} {f : Ctx → State → State}
    {vs ss : List Nat} {al : Option Nat} {ev : Bool} (hstore : storesTo i s h rs f)
    (heffect : ∀ x, ctxOf i s = some x → x.storesOnly (rs x) vs ss al ev s (f x (x.begin s))) :
    framesStore i s h rs vs ss al ev := by
  intro x t hx hr hh hroom ht
  obtain ⟨p, g, hu, ⟨hp, hsp, halph, hexc⟩, ⟨hkeeps, hsrs, hopens⟩, hcmds, hnext⟩ := heffect x hx
  obtain ⟨v, os, hpublished, hprefix, hapart⟩ := leaves_published hroom hu
  obtain ⟨hleaves, hcmds', hnext'⟩ := leaves_of_completes (u := x.published (rs x) (f x (x.begin s))) (hstore.2 x hx hr ⟨hh, hroom⟩) ht hpublished
  have hpanel : x.p.keeps (p.withPub v) := by
    rw [hp]
    exact x.p.keeps_refl
  have hring : p.ring = x.p.ring := (congrArg Panel.ring hp :)
  have hheld : p.heldCount = x.p.heldCount := (congrArg Panel.heldCount hp :)
  obtain ⟨q, k, hframe, hq, hk⟩ := keeps_of_leaves hleaves hpanel (show x.g.keeps vs ss { g with opens := os } from hkeeps)
  have same {α : Type} (f : Panel → α) : f q.rest = f (p.withPub v).rest := congrArg f hq
  have sameGang {α : Type} (f : Gang → α) : f k.rest = f { g with opens := os }.rest := congrArg f hk
  have hqring : q.ring = { x.p.ring with pub := v } := hring ▸ same Panel.ring
  refine ⟨q, k, hframe, (sameGang Gang.srs).trans hsrs, fun a ha => (same fun q => q.sp.get a).trans (hsp a ha), fun n => ?_,
    fun hev => ?_, by rw [hqring], hcmds' ▸ hcmds ▸ hprefix, fun happ => ?_⟩
  · have halpha := same fun q => vget q.alph n 0
    obtain ⟨hdef, hother⟩ := halph n
    exact ⟨(congrArg alphaOf halpha).trans hdef, fun hn => halpha.trans (hother hn)⟩
  · obtain ⟨he, hc⟩ := hexc hev
    exact ⟨(same Panel.exc).trans he, (same Panel.catchAll).trans hc⟩
  · obtain ⟨rfl, rfl, hsame⟩ := hapart happ
    rw [hsame] at hcmds' hnext'
    exact ⟨hqring.trans (by rw [hring]), (same Panel.heldCount).trans hheld, (sameGang Gang.opens).trans hopens,
      hcmds'.trans hcmds, hnext'.trans hnext⟩

/-! ## The effects of the stores -/

section
variable {x : Ctx} {s u : State}

theorem Panel.stores_sp {p : Panel} {m : Memory} {rs : List (Nat × Nat)} (ev : Bool)
    (h : ∀ a, (∀ r ∈ rs, a < r.1 ∨ r.1 + r.2 ≤ a) → m.get a = p.sp.get a) : p.stores { p with sp := m } rs none ev :=
  ⟨rfl, h, fun _ => ⟨rfl, fun _ => rfl⟩, fun _ => ⟨rfl, rfl⟩⟩

theorem Panel.stores_count {p : Panel} {m : Memory} {rs : List (Nat × Nat)} {ev : Bool} (tid : BitVec 12) {n : Counts}
    (h : ∀ a, (∀ r ∈ rs, a < r.1 ∨ r.1 + r.2 ≤ a) → m.get a = p.sp.get a) (hn : ev = false → n = Counts.zero) :
    p.stores (chargePanel { p with sp := m } tid n) rs none ev := by
  obtain ⟨es, k, he⟩ := chargePanel_eq { p with sp := m } tid n
  refine ⟨by rw [he], by rw [he]; exact h, by rw [he]; exact fun _ => ⟨rfl, fun _ => rfl⟩, fun hev => ?_⟩
  rw [hn hev, chargePanel_zero]
  exact ⟨rfl, rfl⟩

theorem Gang.writes_refl (g : Gang) (vs ss : List Nat) : g.writes vs ss g := ⟨g.keeps_refl vs ss, rfl, rfl⟩

theorem bankCost_cmds (as : List Nat) : (x.bankCost as u).cmds = u.cmds ∧ (x.bankCost as u).nextId = u.nextId := by
  unfold Ctx.bankCost
  dsimp only
  split <;> exact ⟨rfl, rfl⟩

/-- A store that writes one range for each element of a list, and nothing else. -/
theorem storesOnly_updSp {i : Instr} (hx : ctxOf i s = some x) {ks : List Nat} {addr : Nat → Nat} {w : Nat}
    {f : Memory → Nat → Memory} (hf : ∀ m, ∀ k ∈ ks, ∀ a, a < addr k ∨ addr k + w ≤ a → (f m k).get a = m.get a) (as : List Nat) :
    x.storesOnly (ks.map fun k => (addr k, w)) [] [] none false s
      (x.bankCost as (updSp (x.begin s) x.pid fun m => ks.foldl f m)) := by
  obtain ⟨hcmds, hnext⟩ := bankCost_cmds (x := x) (u := updSp (x.begin s) x.pid fun m => ks.foldl f m) as
  refine ⟨_, _, leaves_bankCost (leaves_updSp (leaves_begin hx) _) as, Panel.stores_sp false fun a ha => ?_,
    x.g.writes_refl _ _, hcmds, hnext⟩
  exact foldl_keeps (q := fun m : Memory => m.get a)
    (fun m k hk => hf m k hk a (ha _ (List.mem_map_of_mem hk))) x.p.sp

/-- A store that gives a value to each slice. -/
theorem storesOnly_setS {i : Instr} (hx : ctxOf i s = some x) (d : Reg) (f : Nat → DWord) {rs : List (Nat × Nat)} {m : Memory}
    (hm : ∀ a, (∀ r ∈ rs, a < r.1 ∨ r.1 + r.2 ≤ a) → m.get a = x.p.sp.get a) (as : List Nat) :
    x.storesOnly rs [] (destOf d) none false s (x.bankCost as (x.setS d f (updSp (x.begin s) x.pid fun _ => m))) := by
  obtain ⟨hcmds, hnext⟩ := bankCost_cmds (x := x) (u := x.setS d f (updSp (x.begin s) x.pid fun _ => m)) as
  obtain ⟨hsrs, hopens⟩ := copyWrite_srs x d f x.g
  exact ⟨_, _, leaves_bankCost (leaves_setS (leaves_updSp (leaves_begin hx) _) f) as, Panel.stores_sp false hm,
    ⟨keeps_copyWrite x.g d f, hsrs, hopens⟩, hcmds.trans (setS_cmds ..), hnext.trans (setS_nextId ..)⟩

theorem sldaFold_off (a : Reg) (off : Off) (w : Nat) (add : BitVec 6) (m : Memory) {y : Nat}
    (hy : ∀ r ∈ x.slices.map fun k => ((x.sliceAddr a off k).toNat, w), y < r.1 ∨ r.1 + r.2 ≤ y) :
    (x.slices.foldl (sldaSlice x a off w add) (m, [])).1.get y = m.get y :=
  foldl_keeps (q := fun r : Memory × List (Nat × DWord) => r.1.get y)
    (fun _ _ hk => get_writeNat_off (hy _ (List.mem_map_of_mem hk))) (m, [])

theorem atomWord_counts {t : LTy} (ht : t ≠ .f32) (fp : DWord) (op : AtOp) (old v cmp : Word) :
    (atomWord fp t op old v cmp).2 = Counts.zero := by
  cases t with
  | f32 => exact absurd rfl ht
  | n32 => cases op <;> rfl
  | i32 => cases op <;> rfl

theorem add_zero_counts (c : Counts) : c.add Counts.zero = c := rfl

/-- Only atomics on F32 charge events. -/
theorem atsFold_counts {t : LTy} (ht : t ≠ .f32) (op : AtOp) (d a b : Reg) (off : Off) (m : Memory) :
    (x.lanes.foldl (atsLane x t op d a b off) ⟨m, [], Counts.zero⟩).n = Counts.zero :=
  foldl_keeps (q := AtsRun.n) (fun r _ _ => (congrArg r.n.add (atomWord_counts ht ..)).trans (add_zero_counts r.n)) _

theorem atsFold_off (t : LTy) (op : AtOp) (d a b : Reg) (off : Off) (m : Memory) {y : Nat}
    (hy : ∀ r ∈ x.lanes.map fun l => ((x.laneAddr a off l).toNat, 4), y < r.1 ∨ r.1 + r.2 ≤ y) :
    (x.lanes.foldl (atsLane x t op d a b off) ⟨m, [], Counts.zero⟩).mem.get y = m.get y :=
  foldl_keeps (q := fun r : AtsRun => r.mem.get y)
    (fun _ _ hl => get_writeNat_off (hy _ (List.mem_map_of_mem hl))) ⟨m, [], Counts.zero⟩

theorem writes_laneWrite (g : Gang) (d : Reg) (f : Nat → Word) : g.writes [d.toNat] [] (x.laneWrite d f g) := by
  obtain ⟨hsrs, hopens⟩ := laneWrite_srs x d f g
  have hkeeps := keeps_laneWrite (x := x) g d f g.srs
  rw [laneWrite_withSrs] at hkeeps
  obtain ⟨hv, hrest⟩ := hkeeps
  exact ⟨⟨fun r hr => hv r (by split <;> simp_all), hrest⟩, hsrs, hopens⟩

/-- A store that may give a value to each lane and charge events. -/
theorem storesOnly_count {i : Instr} (hx : ctxOf i s = some x) (ret : Bool) (d : Reg) (f : Nat → Word) {rs : List (Nat × Nat)}
    {ev : Bool} {m : Memory} {n : Counts} (hm : ∀ a, (∀ r ∈ rs, a < r.1 ∨ r.1 + r.2 ≤ a) → m.get a = x.p.sp.get a)
    (hn : ev = false → n = Counts.zero) (as : List Nat) :
    x.storesOnly rs (if ret then [d.toNat] else []) [] none ev s
      (x.bankCost as (x.count n (if ret then x.setV d f (updSp (x.begin s) x.pid fun _ => m)
        else updSp (x.begin s) x.pid fun _ => m))) := by
  have hsp : x.leaves s (updSp (x.begin s) x.pid fun _ => m) { x.p with sp := m } x.g := leaves_updSp (leaves_begin hx) _
  cases ret with
  | false =>
    obtain ⟨hcmds, hnext⟩ := bankCost_cmds (x := x) (u := x.count n (updSp (x.begin s) x.pid fun _ => m)) as
    exact ⟨_, _, leaves_bankCost (leaves_count hsp n) as, Panel.stores_count x.g.tid hm hn, x.g.writes_refl _ _, hcmds, hnext⟩
  | true =>
    obtain ⟨hcmds, hnext⟩ := bankCost_cmds (x := x) (u := x.count n (x.setV d f (updSp (x.begin s) x.pid fun _ => m))) as
    exact ⟨_, _, leaves_bankCost (leaves_count (leaves_setV hsp f) n) as, Panel.stores_count x.g.tid hm hn,
      writes_laneWrite x.g d f, hcmds.trans (setV_cmds x d f _), hnext.trans (setV_nextId x d f _)⟩

theorem countInvalid_cmds (reg n : Nat) : (x.countInvalid reg n u).cmds = u.cmds ∧ (x.countInvalid reg n u).nextId = u.nextId := by
  unfold Ctx.countInvalid
  split <;> exact ⟨rfl, rfl⟩

/-- SYMST writes its containers, and counts in its alphabet register before and after. -/
theorem storesOnly_symst {i : Instr} (hx : ctxOf i s = some x) (reg lost old w : Nat) (ps : List Nat)
    {f : Memory → Nat → Memory} (hf : ∀ m, ∀ p ∈ ps, ∀ a, a < p ∨ p + w ≤ a → (f m p).get a = m.get a) :
    x.storesOnly (ps.map fun p => (p, w)) [] [] (some reg) false s
      (x.bankCost ps (x.countInvalid reg old (updSp (x.countInvalid reg lost (x.begin s)) x.pid fun m => ps.foldl f m))) := by
  obtain ⟨hcmds, hnext⟩ := bankCost_cmds (x := x) (u := x.countInvalid reg old
    (updSp (x.countInvalid reg lost (x.begin s)) x.pid fun m => ps.foldl f m)) ps
  obtain ⟨hcmds', hnext'⟩ := countInvalid_cmds (x := x)
    (u := updSp (x.countInvalid reg lost (x.begin s)) x.pid fun m => ps.foldl f m) reg old
  obtain ⟨hcmds'', hnext''⟩ := countInvalid_cmds (x := x) (u := x.begin s) reg lost
  refine ⟨_, _, leaves_bankCost (leaves_countInvalid (leaves_updSp (leaves_countInvalid (leaves_begin hx) reg lost) _) reg old) ps,
    ⟨rfl, fun a ha => ?_, fun n => ⟨?_, fun hn => ?_⟩, fun _ => ⟨rfl, rfl⟩⟩, x.g.writes_refl _ _,
    hcmds.trans (hcmds'.trans hcmds''), hnext.trans (hnext'.trans hnext'')⟩
  · exact foldl_keeps (q := fun m : Memory => m.get a) (fun m p hp => hf m p hp a (ha _ (List.mem_map_of_mem hp))) x.p.sp
  · exact (alphaOf_counted ..).trans (alphaOf_counted ..)
  · have hne : reg ≠ n := fun e => hn (congrArg some e)
    exact (counted_ne _ _ hne).trans (counted_ne _ _ hne)

end

end Sys2Proof.Machine

namespace Sys2Proof.Claims

open Sys2Proof Sys2Proof.Machine

/-- Settles O60: each store changes the bytes at its addresses, its destination and what it counts, and then publishes. -/
theorem frameStores : Obligations.FrameStores := by
  intro c t lt op wide ret sym add an d a b cc off s
  refine ⟨?sst, ?slda, ?st, ?ats, ?stt, ?symst⟩
  case sst =>
    obtain ⟨hsst, -⟩ := scalarMemory.2 c t wide add d a b off s
    exact framesStore_of hsst fun x hx => storesOnly_updSp hx (fun m k _ y hy => get_writeNat_off hy) _
  case slda =>
    obtain ⟨-, hslda, -⟩ := scalarMemory.2 c t wide add d a b off s
    refine framesStore_of hslda fun x hx => storesOnly_setS hx d _ (fun y hy => ?_) _
    rw [begin_sp hx]
    exact sldaFold_off a off _ add x.p.sp hy
  case st =>
    obtain ⟨hst, -⟩ := vectorMemory.2 c t ret lt op d a b off s
    exact framesStore_of hst fun x hx => storesOnly_updSp hx (fun m k _ y hy => get_writeNat_off hy) _
  case ats =>
    obtain ⟨-, hats⟩ := vectorMemory.2 c t ret lt op d a b off s
    refine framesStore_of hats fun x hx => storesOnly_count hx ret d _ (fun y hy => ?_) (fun hev => ?_) _
    · rw [begin_sp hx]
      exact atsFold_off lt op d a b off x.p.sp hy
    · exact atsFold_counts (by simpa using hev) op d a b off _
  case stt =>
    obtain ⟨-, hstt⟩ := tensorAccess c t d a b cc s
    exact framesStore_of hstt fun x hx => storesOnly_updSp hx (fun m k _ y hy => get_writeNat_off hy) _
  case symst =>
    obtain ⟨-, hsymst, -⟩ := symbolMemory c sym an d a b cc s
    exact framesStore_of hsymst fun x hx => storesOnly_symst hx an.toNat _ _ _ _ fun m p _ y hy => get_writeNat_off hy

end Sys2Proof.Claims
end
